-- ==== Sys2Proof/Word.lean ====
section
/-!
DEFINITION. The machine's words (00_scope.md R1, 05_number_formats.md R99): a 64-bit register word, the
32-bit and 8-bit pieces of it, and nothing else. What computes on them stands under Machine/.
-/
namespace Sys2Proof

/-- A 64-bit register word. -/
abbrev Word := BitVec 64

/-- A 32-bit half: near addresses (R137), immediates (R66), vector lanes (R55). -/
abbrev W32 := BitVec 32

/-- One byte of memory. -/
abbrev Byte := BitVec 8

end Sys2Proof
end

