-- ==== Sys2Proof/Syntax.lean ====
section
/-!
DEFINITION. The abstract syntax of the Hjeled 9: one constructor of `Instr` per row of spec/opcode_table.json.
The first rows are the instructions of the three majors tables (03_encodings_and_opcode_map.md R78, R80, R81);
the later rows are the machine's other steps (95_what_each_step_holds.md), each whole and indivisible, with the
choices and the outside inputs the step needs as its arguments.
-/
namespace Sys2Proof

/-- A source specifier of R67 (0xF is refused by the decoder). The immediate itself stands in the instruction. -/
inductive Src where
  | wet (i : Fin 4)
  | nib (j : Fin 8)
  | zero
  | imm
  | coord
  deriving DecidableEq, Repr

/-- A destination specifier of R69: the wet push alone, or the push and a nib register. -/
inductive Dst where
  | wet
  | nib (j : Fin 8)
  deriving DecidableEq, Repr

/-- The integer types, codes 0-7 of R70. -/
inductive IntTy where
  | i8 | i16 | i32 | i64 | n8 | n16 | n32 | n64
  deriving DecidableEq, Repr

/-- Every element type of R70, in code order. -/
inductive ElemTy where
  | i8 | i16 | i32 | i64 | n8 | n16 | n32 | n64 | bf16 | f32 | e4 | e5 | f4 | t8 | f4x | e4x | i4
  deriving DecidableEq, Repr

/-- The types of the scalar floating-point majors 0x40-0x4D (R78). -/
inductive FTy where
  | bf16 | f32
  deriving DecidableEq, Repr

/-- The lane types of the vector majors 0x03-0x1A (R80). -/
inductive LaneTy where
  | i32 | n32 | f32
  deriving DecidableEq, Repr

/-- Rounding modes, codes 0-5 of R71 and R111. -/
inductive Rnd where
  | rne | rtz | rup | rdn | rna | rsr
  deriving DecidableEq, Repr

/-- Branch conditions of R71 and R129. -/
inductive Cond where
  | eq | ne | lt | ge | ltn | gen | z | nz
  deriving DecidableEq, Repr

/-- Relations of R71 (FCMP, VCMP). -/
inductive Rel where
  | eq | ne | lt | le | gt | ge | un | ord
  deriving DecidableEq, Repr

/-- Orderings of R71. -/
inductive Ord where
  | rlx | acq | rel | ar
  deriving DecidableEq, Repr

/-- Scopes of R71 and R196, narrowest first. -/
inductive Scope where
  | thr | cl | die | dev | sys
  deriving DecidableEq, Repr

/-- AMO operations of R234. -/
inductive AmoOp where
  | swap | add | and | or | xor | min | max | incw
  deriving DecidableEq, Repr

/-- VRED operations of R147. -/
inductive RedOp where
  | add | min | max
  deriving DecidableEq, Repr

/-- The operand fields of a two-source instruction of the 64-bit format (R66). -/
structure Op2 where
  dst : Dst
  a   : Src
  b   : Src
  imm : W32
  deriving DecidableEq, Repr

/-- The operand fields of a one-source instruction of the 64-bit format (R66). -/
structure Op1 where
  dst : Dst
  a   : Src
  imm : W32
  deriving DecidableEq, Repr

/-- The common operand fields of a vector instruction (R72, R139). `ctl` is immB[4:0]: rounding code in [2:0],
.ftz in [3], .nan in [4]. -/
structure VOp where
  mask : Fin 4
  pa   : Fin 8
  pb   : Fin 8
  pd   : Fin 8
  asel : Bool
  bsel : Bool
  dsel : Bool
  ctl  : BitVec 5
  deriving DecidableEq, Repr

/-- The operand fields of an array command (R168): the effective operand is `opnd` plus source `off`, the
effective immediate `imm` plus source `ioff`. -/
structure MOp where
  off  : Src
  ioff : Src
  imm  : W32
  opnd : Word
  deriving DecidableEq, Repr

/-- Why fetch or decode refuses a word (R76), in the order of its checks. -/
inductive DecodeError where
  /-- step 1: a byte at or above the end of space 0, or a bad target (R63) -/
  | fetchAddress
  /-- step 2: length code 0b11 (R61) -/
  | lengthCode
  /-- step 3: the instruction leaves its 32-byte window, or a target at offset 28 (R62) -/
  | fetchWindow
  /-- step 4: unassigned major or minor (R78, R80, R81) -/
  | unassigned
  /-- step 4 on an engine that does not run the major (R82) -/
  | engine
  /-- step 5: illegal field value, non-zero unused field or refused specifier (R74) -/
  | illegalField
  /-- step 6: a REP that R75 refuses -/
  | repetition
  deriving DecidableEq, Repr

/-- R428: who asks for the pre-emption of which endpoint. -/
structure PreemptRequest where
  ep : Nat
  by_ : Nat
  deriving DecidableEq, Repr

/-- R461: the page of a service core, and the port that the host writes it through. -/
structure CallPage where
  port : Nat
  core : Nat
  deriving DecidableEq, Repr

/-- R451: a Deferrable Memory Write to a submission page: a launch image, or a write to any other offset of the page. -/
inductive PageWrite where
  | image (words : List Word)
  | elsewhere
  deriving DecidableEq, Repr

/-- R448: an entry of a port's MSI-X table. -/
structure MsixEntry where
  mask : Bool
  addr : Word
  data : BitVec 32
  deriving DecidableEq, Repr

/-- Every instruction and every other step of the machine, one constructor per row of the opcode table; WARM_RESET has two, the
reset pin's and the control page's (R467). -/
inductive Instr where
  -- 64-bit integer majors (R78, R123)
  | add (t : IntTy) (o : Op2)
  | addi (t : IntTy) (o : Op2)
  | sub (t : IntTy) (o : Op2)
  | neg (t : IntTy) (o : Op1)
  | mul (t : IntTy) (o : Op2)
  | and (t : IntTy) (o : Op2)
  | or (t : IntTy) (o : Op2)
  | xor (t : IntTy) (o : Op2)
  | andn (t : IntTy) (o : Op2)
  | not (t : IntTy) (o : Op1)
  | shl (t : IntTy) (o : Op2)
  | shr (t : IntTy) (o : Op2)
  | rotl (t : IntTy) (o : Op2)
  | clz (t : IntTy) (o : Op1)
  | ctz (t : IntTy) (o : Op1)
  | popc (t : IntTy) (o : Op1)
  | seq (t : IntTy) (o : Op2)
  | sel (t : IntTy) (o : Op2)
  | bfx (t : IntTy) (o : Op2)
  | bfi (t : IntTy) (o : Op2)
  | mulh (t : IntTy) (o : Op2)
  | div (t : IntTy) (o : Op2)
  | rem (t : IntTy) (o : Op2)
  | min (t : IntTy) (o : Op2)
  | max (t : IntTy) (o : Op2)
  | slt (t : IntTy) (o : Op2)
  | shra (t : IntTy) (o : Op2)
  | sext (t : IntTy) (o : Op1)
  | mulhn (t : IntTy) (o : Op2)
  | divn (t : IntTy) (o : Op2)
  | remn (t : IntTy) (o : Op2)
  | minn (t : IntTy) (o : Op2)
  | maxn (t : IntTy) (o : Op2)
  | sltn (t : IntTy) (o : Op2)
  | zext (t : IntTy) (o : Op1)
  | li (dst : Dst) (imm : W32)
  | lih (dst : Dst) (a : Src) (imm : W32)
  | movk (g : Fin 32) (k : Fin 8)
  | movg (g : Fin 32) (a : Src) (imm : W32)
  | movm (src : Fin 32) (dst : Fin 32) (cnt : BitVec 5)
  -- control transfers (R129, R130, R75)
  | br (c : Cond) (a b : Src) (off : W32)
  | j (off : W32)
  | jl (dst : Dst) (off : W32)
  | jr (a : Src) (imm : W32)
  | ret (a : Src) (imm : W32)
  | loop (dst : Dst) (a : Src) (off : W32)
  | rep (n : BitVec 16) (len : BitVec 4) (stag : BitVec 3)
  -- scalar floating point (R132-R134)
  | fadd (t : FTy) (rm : Rnd) (ftz : Bool) (o : Op2)
  | fsub (t : FTy) (rm : Rnd) (ftz : Bool) (o : Op2)
  | fmul (t : FTy) (rm : Rnd) (ftz : Bool) (o : Op2)
  | ffma (t : FTy) (rm : Rnd) (ftz : Bool) (o : Op2)
  | fdiv (rm : Rnd) (ftz : Bool) (o : Op2)
  | fsqrt (rm : Rnd) (ftz : Bool) (o : Op1)
  | fexp2 (rm : Rnd) (ftz : Bool) (o : Op1)
  | flog2 (rm : Rnd) (ftz : Bool) (o : Op1)
  | frsq (rm : Rnd) (ftz : Bool) (o : Op1)
  | fmin (t : FTy) (ftz : Bool) (o : Op2)
  | fmax (t : FTy) (ftz : Bool) (o : Op2)
  | fabs (t : FTy) (ftz : Bool) (o : Op1)
  | fneg (t : FTy) (ftz : Bool) (o : Op1)
  | fcmp (t : FTy) (r : Rel) (ftz : Bool) (o : Op2)
  | fcvt (ty : ElemTy) (rm : Rnd) (nan : Bool) (src : BitVec 6) (dst : Dst) (a : Src)
  -- memory, atomics, fences (R226-R246)
  | ld (t : IntTy) (sc : Scope) (acq : Bool) (dst : Dst) (a : Src) (off : W32)
  | st (t : IntTy) (sc : Scope) (rel : Bool) (a b : Src) (off : W32)
  | ldaq (t : IntTy) (sc : Scope) (c : Cond) (dst : Dst) (a b : Src)
  | strl (t : IntTy) (sc : Scope) (a b : Src) (off : W32)
  | ldp (t : IntTy) (sc : Scope) (acq : Bool) (k : Fin 8) (a : Src) (off : W32)
  | stp (t : IntTy) (sc : Scope) (rel : Bool) (a b : Src) (off : W32)
  | amo (t : IntTy) (sc : Scope) (ord : Ord) (op : AmoOp) (dst : Dst) (a b : Src)
  | cas (t : IntTy) (sc : Scope) (ord : Ord) (dst : Dst) (a b : Src)
  | fence (sc : Scope) (pred succ : BitVec 5)
  | waitc (ld st cp tl : BitVec 6)
  | waitcn (x : Fin 16) (thr : BitVec 10)
  | cnset (dst : Dst) (x : Fin 16) (v : BitVec 10) (reg : Option Src)
  | cnget (dst : Dst) (x : Fin 16)
  | galloc (dst : Dst) (a : Src) (imm : W32)
  | gfree (a : Src)
  -- messages, launches, gangs (R319-R341)
  | send (dest : Src) (handler : BitVec 12) (words : BitVec 3) (gbase : Fin 32) (sys : Bool)
  | exit (err : Bool)
  | yield (c : BitVec 16)
  | park (dst : Dst) (c : W32)
  | wake (a : Src)
  | launch (dst : Dst) (a : Src)
  | launchW (dst : Dst) (a : Src)
  | graphCreate (dst : Dst) (a : Src)
  | graphClose (dst : Dst) (a : Src)
  | phaseCreate (dst : Dst) (a : Src)
  | phaseClose (dst : Dst) (a : Src)
  | jobClose (dst : Dst) (a : Src)
  | cancel (dst : Dst) (level : BitVec 3) (rec : Option Src)
  | lvwait (dst : Dst) (level : BitVec 3) (rec : Option Src)
  | lvread (dst : Dst) (level : BitVec 3) (sel : BitVec 2) (rec : Option Src)
  | fuse (dst : Dst) (n : BitVec 4)
  | split
  | laneid (dst : Dst)
  | coord (dst : Dst) (sel : Bool)
  | spillq (dst : Dst) (a : Src)
  | jobset (dst : Dst) (share : BitVec 5) (cls : Bool)
  -- stages (R356-R360)
  | stageCreate (dst : Dst) (a : Src)
  | stageClose (dst : Dst) (a : Src)
  | stageThresh (dst : Dst) (a b : Src)
  | keysend (stage : BitVec 6) (words : BitVec 3) (gbase : Fin 32)
  | splitok (dst : Dst) (a : Src) (imm : W32)
  | mergeok
  | krtread (dst : Dst) (a : Src) (sel : BitVec 5)
  | qdep (dst : Dst) (a : Src)
  -- trace (R285)
  | tev (ev : BitVec 6) (a : Src)
  | tevx (ev : BitVec 6) (payload : BitVec 22) (a b : Src)
  | tsread (dst : Dst)
  | tmark (dst : Dst) (payload : BitVec 22)
  -- system (R443)
  | trap (code : BitVec 16)
  | eret
  | rqread (dst : Dst) (entry : Fin 16) (word : BitVec 2)
  | rqwrite (a : Src) (entry : Fin 16) (word : BitVec 2)
  | srr (dst : Dst) (reg : BitVec 12)
  | srw (a : Src) (reg : BitVec 12)
  | srwTsink (a : Src)
  | ckpt (dst : Dst) (h : BitVec 8)
  | rback (dst : Dst) (a : Src)
  | kill (reason : BitVec 16)
  | nop
  | fill
  | brk (code : BitVec 16)
  | halt
  -- 96-bit vector majors (R80, R142-R148)
  | vla (t : ElemTy) (m : Fin 4) (pa : Fin 8) (ctl : BitVec 5)
  | vsa (t : ElemTy) (m : Fin 4) (pd : Fin 8) (ctl : BitVec 5)
  | vcvt (t : ElemTy) (m : Fin 4) (src : BitVec 2) (ctl : BitVec 5)
  | vadd (t : LaneTy) (o : VOp)
  | vsub (t : LaneTy) (o : VOp)
  | vmul (t : LaneTy) (o : VOp)
  | vmin (t : LaneTy) (o : VOp)
  | vmax (t : LaneTy) (o : VOp)
  | vred (t : LaneTy) (op : RedOp) (o : VOp)
  | vcmp (t : LaneTy) (r : Rel) (wr : Option (Fin 4)) (o : VOp)
  | vbcast (t : LaneTy) (o : VOp)
  | vscl (t : LaneTy) (o : VOp)
  | vsel (t : LaneTy) (s : Fin 4) (o : VOp)
  | vidx (t : LaneTy) (m : Fin 4) (pd : Fin 8) (dsel : Bool) (start : W32) (stp : BitVec 16) (ctl : BitVec 5)
  | vperm (t : LaneTy) (o : VOp)
  | vgath (t : LaneTy) (m : Fin 4) (pa pb : Fin 8) (ctl : BitVec 5)
  | vscat (t : LaneTy) (m : Fin 4) (pb pd : Fin 8) (ctl : BitVec 5)
  | vabs (t : LaneTy) (o : VOp)
  | vand (t : LaneTy) (o : VOp)
  | vor (t : LaneTy) (o : VOp)
  | vxor (t : LaneTy) (o : VOp)
  | vshl (t : LaneTy) (o : VOp)
  | vshr (t : LaneTy) (o : VOp)
  | vfma (o : VOp)
  | vexp2 (o : VOp)
  | vrsq (o : VOp)
  | vrcp (o : VOp)
  -- pointers and bit-granular access (R149-R153)
  | pset (pd : Fin 8) (base : W32) (stride : BitVec 16) (wet : Bool)
  | padv (pd : Fin 8) (v : W32)
  | pget (pa : Fin 8)
  | baset (bytes : W32) (bit : BitVec 3) (wet : Bool)
  | ldb (width : BitVec 6) (signed : Bool)
  | stb (width : BitVec 6)
  -- copies and handles (R259, R268)
  | chain (ch : Fin 8) (cn : Fin 16) (cen : Bool) (head : Option W32)
  | chainResume (ch : Fin 8)
  | cstat (ch : Fin 8) (sel : Bool)
  | hcfg (h : BitVec 8) (cfg : W32)
  | hcfgRearm (h : BitVec 8)
  | hacq (h : BitVec 8) (cons : Bool)
  | hrel (h : BitVec 8) (cons : Bool)
  | hstate (h : BitVec 8)
  | rpost (h : BitVec 8) (m : BitVec 13)
  | rtake (h : BitVec 8)
  | barr (h : BitVec 8) (bytes : W32)
  | bexp (h : BitVec 8) (bytes : W32)
  | btest (h : BitVec 8)
  | bwait (h : BitVec 8)
  -- 128-bit matrix majors (R81, R168-R187)
  | mlease (cls : Bool)
  | mrel
  | mjob (dst : Dst) (off : Src) (opnd : Word)
  | mmask (o : MOp)
  | mprec (o : MOp)
  | mzero (o : MOp)
  | mmul (t : ElemTy) (rm : Rnd) (o : MOp)
  | mmulb (t : ElemTy) (o : MOp)
  | msca (rm : Rnd) (o : MOp)
  | msendt (o : MOp)
  | mrecvt (o : MOp)
  | mmove (t : ElemTy) (rm : Rnd) (nan : Bool) (o : MOp)
  | mload (t : ElemTy) (rm : Rnd) (nan : Bool) (o : MOp)
  | mtest (dst : Dst) (off : Src) (opnd : Word)
  | mstat (dst : Dst) (sel : BitVec 2)
  | e8cvt (o : MOp)
  -- address space (R389-R394)
  | map (dst : Dst) (a b : Src) (cookie : W32) (rctx : BitVec 12) (win : BitVec 6) (lg : BitVec 5) (rights : BitVec 3)
  | grant (dst : Dst) (a b : Src) (cookie : W32) (rctx : BitVec 12) (win : BitVec 6) (lg : BitVec 5) (rights : BitVec 3)
  | unmap (dst : Dst) (a : Src) (self : Bool)
  | unmapAsync (dst : Dst) (a : Src) (self : Bool) (ep : BitVec 18) (handler : BitVec 12)
  | acceptOpen (dst : Dst) (a : Src) (win : BitVec 6) (lgw : BitVec 6) (maxr : BitVec 3) (src : BitVec 12)
      (host : Bool) (ep : BitVec 18) (handler : BitVec 12)
  | acceptClose (dst : Dst) (a : Src) (win : BitVec 6)
  | mquery (dst : Dst) (a : Src) (sel : BitVec 2)
  | xflush (dst : Dst) (a : Src) (lg : BitVec 5)
  -- engine far access (R261, R262)
  | xld (a b : Src) (sc : Scope) (acq : Bool)
  | xst (a b : Src) (sc : Scope) (rel : Bool)
  | xburst (a b : Src) (len : BitVec 13) (sc : Scope) (ep : BitVec 18) (remote : Bool)
  | planew (a b : Src) (len : BitVec 7)
  | mbox (a b : Src) (sc : Scope)
  | crec (dst : Dst) (a b : Src) (sc : Scope)
  | sendx (a : Src) (off : W32) (dest : BitVec 18) (handler : BitVec 12) (words : BitVec 3) (sys : Bool)
      (node : BitVec 16) (ack : Bool)
  -- what a thread does where fetch or decode finds no instruction (R76)
  | reservedInstruction (err : DecodeError) (epc : W32) (d0 : Word)
  -- the core and its messages; `id` names a message in flight
  | messageArrival (id : Nat)
  | coreBind (id : Nat)
  | sendBufferRetry (id : Nat)
  | launchAdmission (part : Nat)
  | batchDeal (part pair : Nat)
  | unitDispatch (pair : Nat)
  | dispatchRetry (id : Nat)
  | allowanceRefill
  | masterElection (part : Nat)
  -- the array `a` = pair * 72 + octet
  | arrayGrant (a : Nat)
  | arrayBind (a : Nat)
  | arrayCommandComplete (a : Nat)
  | leaseTimeout (a : Nat)
  | gateTimeout (a : Nat)
  | gateOpen (a job : Nat)
  | jobStopped (a job : Nat)
  | tileArrival (id : Nat)
  | tileDiscard (id : Nat)
  | arraySelfTest (a : Nat) (failing : BitVec 4)
  -- the copy unit `c` = pair * 72 + octet, channel `ch`
  | chainStart (c ch : Nat)
  | copyPiece (c ch : Nat) (data : List Byte)
  | recordComplete (c ch : Nat)
  | channelStop (c ch : Nat)
  -- barriers; `h` = (pair * 4 + cluster) * 256 + handle
  | barrierPhase (h : Nat)
  | barrierAggregate (id : Nat)
  | barrierCompletionMsg (id : Nat)
  -- waiting threads and accesses in flight
  | ldaqReload (ep : Nat)
  | parkTimeout (ep : Nat)
  | yieldReturn (ep : Nat)
  | wakeArrival (id : Nat)
  | ldpArrival (id : Nat)
  | farAccessTranslate (id : Nat)
  | farAccessAck (id : Nat) (data : List Byte)
  -- the tree unit of partition `part`
  | derive (part : Nat)
  | unmapEffect (part : Nat)
  | deadMarks (op : Nat)
  | invalidationRound (op : Nat)
  | invalidationAck (op : Nat)
  | pinCancel (c ch : Nat)
  | migrationHandover (page : Nat) (toHost : Bool)
  -- trace
  | slateAdmitHeld (emitter : Nat)
  | traceDrain (die tenant : Nat)
  | traceDrainRetry (die tenant : Nat)
  | ptpSync (offset : Int) (valid : Bool)
  | timebaseHoldover
  -- stages
  | stageOverload (part stage ep : Nat)
  | stageTableApply (part stage core : Nat)
  | interfaceAck (part stage core : Nat)
  | endMarker (id : Nat)
  | stageUnderload (part stage ep : Nat)
  | mergeStart (part stage ep : Nat)
  -- traps and recovery
  | trapEntry (ep : Nat)
  | gangFollowerFault (ep : Nat)
  | watchdogExpiry (ep : Nat)
  | killSweep (ctx : Nat)
  | killConfirm (ctx : Nat)
  | killComplete (ctx : Nat)
  | dieFence (die : Nat)
  | uncorrectableError (die : Nat)
  | heartbeatLoss (die : Nat)
  | thermalTrip (die : Nat)
  | serviceFailover (die : Nat)
  -- sealing, meters, the Scroll
  | meterWindow (slot : Nat)
  | egressBeat (id : Nat)
  | scrollAppend
  | stagingDrain
  | keyLoad (slot : Nat) (pkg : List Byte)
  | keyUpdate (slot : Nat) (pkg : List Byte)
  | hostErase (slot : Nat)
  | keyPublicCopy (bus : Nat)
  | checkpointRequest
  | attestation (nonce : List Byte) (bus : Nat)
  | archivedSeqWrite (seq : Nat)
  -- the host page (R460)
  | createContext (tenant part : Nat) (pager : Word) (ep handler : Nat)
  | destroyContext (ctx : Nat)
  | createRoot (phys lg part : Nat) (sealed : Bool) (slot tenant : Nat)
  | mapRoot (node ctx win off rights : Nat)
  | unmapRoot (node : Nat) (self : Bool)
  | createJob (ctx : Nat)
  | closeJob (ctx job : Nat)
  | bindPage (port page : Nat) (bind : Bool) (ctx graph : Nat) (vec : Bool)
  | writeTableEntry (table port index : Nat) (w0 w1 w2 : Word)
  -- trace, control, call and debug pages
  | writeHmask (tenant : Nat) (mask : BitVec 16) (port : Nat)
  | configHostSink (tsink tsinkc : Word) (ctx : Nat)
  | readLastReel (die bus : Nat)
  | preempt (req : PreemptRequest)
  | hostKill (ctx : Nat)
  | hostFence (die : Nat)
  | warmReset
  | warmResetRequest
  | claimWrite (source owner writer : Nat)
  | callSubmit (page : CallPage) (words : List Word)
  | debugAttach (ctx requester : Nat)
  | debugRead (requester core addr : Nat) (reg : Option (Nat × Nat))
  | debugWrite (requester core addr : Nat) (reg : Option (Nat × Nat)) (v : Word)
  | debugResume (requester ep : Nat)
  | debugDetach (requester : Nat)
  -- submissions, windows, links
  | submitLaunch (port page : Nat) (write : PageWrite)
  | submitMessage (port page : Nat) (record : List Word)
  | inboundAccess (port addr : Nat) (write : Bool) (data : List Byte) (len requester : Nat)
  | cxlMemRequest (port addr : Nat) (write excl : Bool) (data : List Byte)
  | functionLevelReset (port : Nat)
  | outboundReadTimeout (id : Nat)
  | scallinkFrame (conn : Nat) (seq : Nat) (message : Bool) (hdr : Word) (dest : Nat) (addr : Nat) (words : List Word)
      (ackOnly : Bool) (ackSeq : Nat) (refused : Bool)
  | scallinkRetransmit (conn : Nat)
  | linkState (port : Nat) (up : Bool)
  -- reset, boot and the other registers
  | powerOnReset
  | bootRelease (cfg : Word)
  | bootReady
  | recoveryOffsetWrite (off : Word)
  | recoveryDataWrite (v : Word)
  | timeControlWrite (v : Word)
  | schedWordWrite (part : Nat) (v : Word)
  | classCostWrite (part cls : Nat) (v : Word)
  | lateConsumedWrite (part : Nat) (v : Word)
  | selfTestIntervalWrite (v : Word)
  | registerWrite (page offset : Nat) (v : Word)
  | eccCorrectedError (die : Nat)
  | msixTableWrite (port vector : Nat) (entry : MsixEntry)
  | callRingConsume (core count : Nat)
  | windowChange (part : Nat)
  | takesEffectOnDie (die : Nat)
  deriving DecidableEq, Repr

end Sys2Proof
end

