-- ==== Sys2Proof/Machine/Num.lean ====
section
/-!
DEFINITION. Number formats and the one rounding function (05_number_formats.md R98-R120). An exact value is a NaN, a
signed infinity or a signed binary fraction; a quotient, root, exponential or logarithm that no binary fraction holds
is carried as its leading bits and the mark that more follow, which is all that one rounding reads.
-/
namespace Sys2Proof.Machine

/-- An exact value (R110): `fin neg m e tail` is (-1)^neg times m * 2^e, plus less than 2^e when `tail` is set. -/
inductive XVal where
  | nan
  | inf (neg : Bool)
  | fin (neg : Bool) (m : Nat) (e : Int) (tail : Bool)
  deriving DecidableEq, Repr

namespace XVal

def zero (neg : Bool) : XVal := .fin neg 0 0 false
def ofInt (i : Int) : XVal := .fin (i < 0) i.natAbs 0 false

def isZero : XVal → Bool
  | .fin _ m _ tail => m == 0 && !tail
  | .nan | .inf _ => false

def isNan : XVal → Bool
  | .nan => true
  | .inf _ | .fin _ _ _ _ => false

/-- The sign of a value; a NaN has none and answers false. -/
def sign : XVal → Bool
  | .nan => false
  | .inf s => s
  | .fin s _ _ _ => s

def neg : XVal → XVal
  | .nan => .nan
  | .inf s => .inf (!s)
  | .fin s m e t => .fin (!s) m e t

def abs : XVal → XVal
  | .nan => .nan
  | .inf _ => .inf false
  | .fin _ m e t => .fin false m e t

/-- The signed numerator of a finite value over 2^e0, for e0 at most its own exponent. -/
def scaled (neg : Bool) (m : Nat) (e e0 : Int) : Int :=
  let k : Int := m * 2 ^ (e - e0).toNat
  if neg then -k else k

/-- Exact sum; a zero that arises from unlike terms is +0, or -0 when `down` is set (R113). -/
def add (down : Bool) (x y : XVal) : XVal :=
  match x, y with
  | .nan, _ => .nan
  | _, .nan => .nan
  | .inf s, .inf t => if s == t then .inf s else .nan
  | .inf s, .fin _ _ _ _ => .inf s
  | .fin _ _ _ _, .inf t => .inf t
  | .fin s m e _, .fin t n f _ =>
    if m == 0 && n == 0 then .fin (if s == t then s else down) 0 0 false
    else if m == 0 then .fin t n f false
    else if n == 0 then .fin s m e false
    else
      let e0 := if e ≤ f then e else f
      let k := scaled s m e e0 + scaled t n f e0
      if k == 0 then .fin down 0 0 false else .fin (k < 0) k.natAbs e0 false

def sub (down : Bool) (x y : XVal) : XVal := x.add down y.neg

/-- Exact product; 0 times infinity is NaN (R120). -/
def mul (x y : XVal) : XVal :=
  match x, y with
  | .nan, _ => .nan
  | _, .nan => .nan
  | .inf s, .inf t => .inf (s != t)
  | .inf s, .fin t n _ _ => if n == 0 then .nan else .inf (s != t)
  | .fin s m _ _, .inf t => if m == 0 then .nan else .inf (s != t)
  | .fin s m e _, .fin t n f _ => .fin (s != t) (m * n) (e + f) false

/-- Leading bits kept of a value that no binary fraction holds. -/
def keep : Nat := 160

/-- Exact quotient with the specials of R132. -/
def div (x y : XVal) : XVal :=
  match x, y with
  | .nan, _ => .nan
  | _, .nan => .nan
  | .inf _, .inf _ => .nan
  | .inf s, .fin t _ _ _ => .inf (s != t)
  | .fin s _ _ _, .inf t => .fin (s != t) 0 0 false
  | .fin s m e _, .fin t n f _ =>
    if n == 0 then (if m == 0 then .nan else .inf (s != t))
    else
      let num := m * 2 ^ keep
      .fin (s != t) (num / n) (e - f - keep) (num % n != 0)

/-- Newton steps towards the integer square root, from above. -/
def rootSteps : Nat → Nat → Nat → Nat
  | 0, _, x => x
  | k + 1, n, x =>
    let y := (x + n / x) / 2
    if y < x then rootSteps k n y else x

/-- The integer square root, rounded down. -/
def isqrt (n : Nat) : Nat := if n == 0 then 0 else rootSteps 24 n (2 ^ (Nat.log2 n / 2 + 1))

/-- Exact square root (R132). -/
def sqrt (x : XVal) : XVal :=
  match x with
  | .nan => .nan
  | .inf s => if s then .nan else .inf false
  | .fin s m e _ =>
    if m == 0 then x
    else if s then .nan
    else
      let odd := e % 2 != 0
      let n := (if odd then 2 * m else m) * 2 ^ (2 * keep)
      let r := isqrt n
      .fin false r ((if odd then e - 1 else e) / 2 - keep) (r * r != n)

/-- Exact reciprocal square root (R132). -/
def rsqrt (x : XVal) : XVal :=
  match x with
  | .nan => .nan
  | .inf s => if s then .nan else .fin false 0 0 false
  | .fin s m e _ =>
    if m == 0 then .inf s
    else if s then .nan
    else
      let odd := e % 2 != 0
      let n := if odd then 2 * m else m
      let r := isqrt (2 ^ (4 * keep) / n)
      .fin false r (-(2 * keep : Int) - (if odd then e - 1 else e) / 2) (r * r * n != 2 ^ (4 * keep))

/-! Exponential and logarithm: fixed point with `fxBits` fraction bits. The kept bits are those of the exact value
as long as it does not come within 2^-200 of a value with `keep` bits (log 130, DEDUCED). -/

def fxBits : Nat := 224
/-- The natural logarithm of 2, times 2^224. -/
def fxLn2 : Nat := 18687211020381960287278961438292188228571477255688502128730264377179

/-- The terms x^n / n! of the exponential series, from term `n` on, summed. -/
def expTerms : Nat → Nat → Nat → Nat → Nat → Nat
  | 0, _, _, _, acc => acc
  | k + 1, n, x, term, acc =>
    let t := term * x / 2 ^ fxBits / n
    expTerms k (n + 1) x t (acc + t)

/-- 2 to the fraction f / 2^fxBits, times 2^fxBits. (log 130, DEDUCED) -/
def fxExp2 (f : Nat) : Nat :=
  expTerms 56 1 (f * fxLn2 / 2 ^ fxBits) (2 ^ fxBits) (2 ^ fxBits)

/-- The terms y^(2k+1) / (2k+1) of the inverse hyperbolic tangent. -/
def atanhTerms : Nat → Nat → Nat → Nat → Nat → Nat
  | 0, _, _, _, acc => acc
  | k + 1, n, y2, pow, acc => atanhTerms k (n + 2) y2 (pow * y2 / 2 ^ fxBits) (acc + pow / n)

/-- log2 of n / d for d <= n < 2 d, times 2^fxBits. (log 130, DEDUCED) -/
def fxLog2 (n d : Nat) : Nat :=
  let y := (n - d) * 2 ^ fxBits / (n + d)
  2 * atanhTerms 80 1 (y * y / 2 ^ fxBits) y 0 * 2 ^ fxBits / fxLn2

/-- Exact power of two (R132). (log 130, DEDUCED) -/
def exp2 (x : XVal) : XVal :=
  match x with
  | .nan => .nan
  | .inf s => if s then .fin false 0 0 false else .inf false
  | .fin s m e _ =>
    if m == 0 then .fin false 1 0 false
    else if 0 ≤ e then
      let k : Int := m * 2 ^ e.toNat
      .fin false 1 (if s then -k else k) false
    else
      let d := 2 ^ (-e).toNat
      let k : Int := if s then -(((m + d - 1) / d : Nat) : Int) else ((m / d : Nat) : Int)
      let r := if s then (d - m % d) % d else m % d
      if r == 0 then .fin false 1 k false
      else .fin false (fxExp2 (r * 2 ^ fxBits / d)) (k - fxBits) true

/-- Exact binary logarithm (R132). (log 130, DEDUCED) -/
def log2 (x : XVal) : XVal :=
  match x with
  | .nan => .nan
  | .inf s => if s then .nan else .inf false
  | .fin s m e _ =>
    if m == 0 then .inf true
    else if s then .nan
    else
      let l := Nat.log2 m
      let k : Int := e + l
      if m == 2 ^ l then (if k == 0 then zero false else ofInt k)
      else
        let v : Int := k * 2 ^ fxBits + fxLog2 m (2 ^ l)
        .fin (v < 0) v.natAbs (-(fxBits : Int)) true

/-- Order of two values that are not NaN: -1, 0 or 1; the zeros are equal. -/
def cmp (x y : XVal) : Int :=
  match x, y with
  | .nan, _ => 0
  | _, .nan => 0
  | .inf s, .inf t => if s == t then 0 else if s then -1 else 1
  | .inf s, .fin _ _ _ _ => if s then -1 else 1
  | .fin _ _ _ _, .inf t => if t then 1 else -1
  | .fin s m e _, .fin t n f _ =>
    let e0 := if e ≤ f then e else f
    let a := scaled s m e e0
    let b := scaled t n f e0
    if a < b then -1 else if a == b then 0 else 1

end XVal

/-! ### Formats -/

/-- The width of an element type in bits (R98). -/
def elemBits : ElemTy → Nat
  | .i8 | .n8 | .e4 | .e5 | .t8 | .e4x => 8
  | .i16 | .n16 | .bf16 => 16
  | .i32 | .n32 | .f32 => 32
  | .i64 | .n64 => 64
  | .f4 | .f4x | .i4 => 4

/-- The .i types (and .i4), which extend with copies of the sign bit (R99). -/
def elemSigned : ElemTy → Bool
  | .i8 | .i16 | .i32 | .i64 | .i4 => true
  | .n8 | .n16 | .n32 | .n64 | .bf16 | .f32 | .e4 | .e5 | .f4 | .t8 | .f4x | .e4x => false

/-- An IEEE-style format: significand width, exponent of the smallest normal, code of the largest finite value. -/
structure FloatFmt where
  bits : Nat
  p : Nat
  emin : Int
  maxCode : Nat
  deriving DecidableEq, Repr

def fmtF32 : FloatFmt := ⟨32, 24, -126, 0x7F7FFFFF⟩
def fmtBf16 : FloatFmt := ⟨16, 8, -126, 0x7F7F⟩
def fmtE4 : FloatFmt := ⟨8, 4, -6, 0x7E⟩
def fmtE5 : FloatFmt := ⟨8, 3, -14, 0x7B⟩
def fmtF4 : FloatFmt := ⟨4, 2, 0, 7⟩

/-- The value of magnitude code `c` of a format, by its exponent and fraction fields (R101, R104, R105). -/
def FloatFmt.finite (f : FloatFmt) (neg : Bool) (c : Nat) : XVal :=
  let ex := c / 2 ^ (f.p - 1)
  let fr := c % 2 ^ (f.p - 1)
  if ex == 0 then .fin neg fr (f.emin - (f.p - 1 : Nat)) false
  else .fin neg (2 ^ (f.p - 1) + fr) (f.emin - (f.p - 1 : Nat) + (ex - 1 : Nat)) false

/-- A format with infinities: the codes above the largest finite one are infinity, then NaN (R101, R104). -/
def FloatFmt.ieee (f : FloatFmt) (c : Nat) : XVal :=
  let mag := c % 2 ^ (f.bits - 1)
  let neg := c / 2 ^ (f.bits - 1) % 2 == 1
  if mag ≤ f.maxCode then f.finite neg mag else if mag == f.maxCode + 1 then .inf neg else .nan

/-- R106: the fields of row z of the Taper8 table: exponent field width, fraction width, N, P. -/
def t8Row (z : Nat) : Nat × Nat × Nat × Nat :=
  match z with
  | 0 => (1, 5, 1, 0)
  | 1 => (2, 3, 3, 1)
  | 2 => (3, 1, 7, 3)
  | 3 => (3, 0, 11, 7)
  | 4 => (2, 0, 13, 11)
  | _ => (1, 0, 14, 13)

/-- DecodeT8 of R106. -/
def decodeT8 (c : Nat) : XVal :=
  let m := c % 128
  let neg := c / 128 % 2 == 1
  if m == 0 then (if neg then .nan else XVal.zero false)
  else
    let q := Nat.log2 m
    let z := 6 - q
    if z == 6 then .fin neg 1 14 false
    else
      let (we, wf, n, p) := t8Row z
      let v := m % 2 ^ q / 2 ^ wf
      let f := m % 2 ^ wf
      let ex : Int := if v < 2 ^ (we - 1) then (v : Int) - n else ((v - 2 ^ (we - 1) : Nat) : Int) + p
      .fin neg (2 ^ wf + f) (ex - wf) false

/-- A two's-complement code of `w` bits as an integer. -/
def signedOf (w c : Nat) : Int := if c % 2 ^ w < 2 ^ (w - 1) then (c % 2 ^ w : Nat) else (c % 2 ^ w : Nat) - (2 ^ w : Int)

/-- Decode(c, T) of R119. -/
def decodeElem (t : ElemTy) (c : Nat) : XVal :=
  match t with
  | .i8 => .ofInt (signedOf 8 c)
  | .i16 => .ofInt (signedOf 16 c)
  | .i32 => .ofInt (signedOf 32 c)
  | .i64 => .ofInt (signedOf 64 c)
  | .i4 => .ofInt (signedOf 4 c)
  | .n8 => .ofInt (c % 2 ^ 8 : Nat)
  | .n16 => .ofInt (c % 2 ^ 16 : Nat)
  | .n32 => .ofInt (c % 2 ^ 32 : Nat)
  | .n64 => .ofInt (c % 2 ^ 64 : Nat)
  | .bf16 => fmtBf16.ieee c
  | .f32 => fmtF32.ieee c
  | .e5 => fmtE5.ieee c
  | .e4 | .e4x => if c % 128 == 0x7F then .nan else fmtE4.finite (c / 128 % 2 == 1) (c % 128)
  | .f4 | .f4x => fmtF4.finite (c / 8 % 2 == 1) (c % 8)
  | .t8 => decodeT8 (c % 256)

/-! ### Rounding -/

/-- A magnitude cut at a quantum: the lower member in quanta, whether anything is lost, how the loss compares with one
half (lt, eq, gt) and its first 24 bits (R110, R116). -/
structure Cut where
  low : Nat
  inexact : Bool
  half : Ordering
  d24 : Nat
  deriving DecidableEq, Repr

/-- Cut m * 2^e (plus a tail) at 2^q. -/
def cutAt (m : Nat) (e q : Int) (tail : Bool) : Cut :=
  if q ≤ e then ⟨m * 2 ^ (e - q).toNat, tail, .lt, 0⟩
  else
    let s := (q - e).toNat
    if Nat.log2 m + 2 < s then
      ⟨0, m != 0 || tail, .lt, if Nat.log2 m + 26 < s then 0 else m * 2 ^ 24 / 2 ^ s⟩
    else
      let lost := m % 2 ^ s
      let half := 2 ^ (s - 1)
      ⟨m / 2 ^ s, lost != 0 || tail,
        if lost < half then .lt else if lost == half && !tail then .eq else .gt,
        lost * 2 ^ 24 / 2 ^ s⟩

/-- R111: whether the member of greater magnitude is chosen; `tieUp` says so for a tie under .rne. -/
def chooseHigh (rm : Rnd) (neg : Bool) (c : Cut) (tieUp : Bool) (r24 : Nat) : Bool :=
  c.inexact &&
    match rm with
    | .rne => c.half == .gt || (c.half == .eq && tieUp)
    | .rtz => false
    | .rup => !neg
    | .rdn => neg
    | .rna => c.half != .lt
    | .rsr => decide (r24 < c.d24)

def signCode (bits : Nat) (neg : Bool) : Nat := if neg then 2 ^ (bits - 1) else 0

/-- The code of a finite non-zero value rounded into an IEEE-style format; `over` is the result on overflow (R112). -/
def FloatFmt.round (f : FloatFmt) (rm : Rnd) (neg : Bool) (m : Nat) (e : Int) (tail : Bool) (r24 : Nat)
    (beyond : Nat) : Nat :=
  let ex : Int := (Nat.log2 m : Int) + e
  let qmin : Int := f.emin - (f.p - 1 : Nat)
  let q : Int := if ex < f.emin then qmin else ex - (f.p - 1 : Nat)
  let c := cutAt m e q tail
  let k := if chooseHigh rm neg c (c.low % 2 == 1) r24 then c.low + 1 else c.low
  let code := if k == 0 then 0 else (q - qmin).toNat * 2 ^ (f.p - 1) + k
  if code ≤ f.maxCode then signCode f.bits neg + code else beyond

/-- R112: overflow of the formats with infinities. -/
def FloatFmt.overflow (f : FloatFmt) (rm : Rnd) (neg : Bool) : Nat :=
  signCode f.bits neg +
    match rm with
    | .rne | .rna | .rsr => f.maxCode + 1
    | .rtz => f.maxCode
    | .rup => if neg then f.maxCode else f.maxCode + 1
    | .rdn => if neg then f.maxCode + 1 else f.maxCode

/-- Fraction width of Taper8 in the binade of exponent `e`; above 14 the extension has none (R107, R110). -/
def t8Frac (e : Int) : Nat :=
  if e == -1 || e == 0 then 5
  else if -3 ≤ e && e ≤ 2 then 3
  else if -7 ≤ e && e ≤ 6 then 1
  else 0

/-- The Taper8 code of magnitude 2^e (1 + f / 2^wf) (R107); none in the extension. -/
def t8Code (e : Int) (f : Nat) : Option Nat :=
  if e == -14 then some 0x02
  else if e == -13 then some 0x04
  else if e == -12 then some 0x05
  else if -11 ≤ e && e ≤ -8 then some (0x08 + (e + 11).toNat)
  else if -7 ≤ e && e ≤ -4 then some (0x10 + 2 * (e + 7).toNat + f)
  else if e == -3 then some (0x20 + f)
  else if e == -2 then some (0x28 + f)
  else if e == -1 then some (0x40 + f)
  else if e == 0 then some (0x60 + f)
  else if e == 1 then some (0x30 + f)
  else if e == 2 then some (0x38 + f)
  else if 3 ≤ e && e ≤ 6 then some (0x18 + 2 * (e - 3).toNat + f)
  else if 7 ≤ e && e ≤ 10 then some (0x0C + (e - 7).toNat)
  else if e == 11 then some 0x06
  else if e == 12 then some 0x07
  else if e == 13 then some 0x03
  else if e == 14 then some 0x01
  else none

/-- The member k * 2^(e - wf) of the extended Taper8 set. -/
def t8Member (e : Int) (k : Nat) : Option Nat :=
  if k == 0 then some 0
  else if k == 2 ^ (t8Frac e + 1) then t8Code (e + 1) 0
  else t8Code e (k - 2 ^ t8Frac e)

/-- Even means code bit 0 clear; the extension is even (R111). -/
def t8Even (c : Option Nat) : Bool :=
  match c with
  | none => true
  | some n => n % 2 == 0

def roundT8 (rm : Rnd) (nb neg : Bool) (m : Nat) (e : Int) (tail : Bool) (r24 : Nat) : Nat :=
  let ex : Int := (Nat.log2 m : Int) + e
  let b : Int := if ex < -14 then -14 else ex
  let c := cutAt m e (b - t8Frac b) tail
  let lo := t8Member b c.low
  let hi := t8Member b (c.low + 1)
  let r := if chooseHigh rm neg c (!t8Even lo && t8Even hi) r24 then hi else lo
  match r with
  | some 0 => 0
  | some n => signCode 8 neg + n
  | none => if nb then 0x80 else signCode 8 neg + 1

/-- A rounded integer of `w` bits, saturating (R112). -/
def roundInt (w : Nat) (sgn : Bool) (rm : Rnd) (neg : Bool) (m : Nat) (e : Int) (tail : Bool) (r24 : Nat) : Nat :=
  if (Nat.log2 m : Int) + e > 80 then
    (if sgn then (if neg then 2 ^ (w - 1) else 2 ^ (w - 1) - 1) else (if neg then 0 else 2 ^ w - 1))
  else
    let c := cutAt m e 0 tail
    let k := if chooseHigh rm neg c (c.low % 2 == 1) r24 then c.low + 1 else c.low
    if sgn then
      (if neg then (if k ≤ 2 ^ (w - 1) then (2 ^ w - k) % 2 ^ w else 2 ^ (w - 1)) else Nat.min k (2 ^ (w - 1) - 1))
    else (if neg then 0 else Nat.min k (2 ^ w - 1))

/-- RoundTo(x, T, rm, nb) of R110-R112; `r24` is the generator's draw, read under .rsr alone (R116). -/
def roundTo (x : XVal) (t : ElemTy) (rm : Rnd) (nb : Bool) (r24 : Nat) : Nat :=
  match t, x with
  | .f32, .nan => 0x7FC00000
  | .f32, .inf s => signCode 32 s + 0x7F800000
  | .f32, .fin s m e tl =>
    if m == 0 then signCode 32 s else fmtF32.round rm s m e tl r24 (fmtF32.overflow rm s)
  | .bf16, .nan => 0x7FC0
  | .bf16, .inf s => signCode 16 s + 0x7F80
  | .bf16, .fin s m e tl =>
    if m == 0 then signCode 16 s else fmtBf16.round rm s m e tl r24 (fmtBf16.overflow rm s)
  | .e5, .nan => 0x7E
  | .e5, .inf s => signCode 8 s + 0x7C
  | .e5, .fin s m e tl => if m == 0 then signCode 8 s else fmtE5.round rm s m e tl r24 (fmtE5.overflow rm s)
  | .e4, .nan | .e4x, .nan => 0x7F
  | .e4, .inf s | .e4x, .inf s => if nb then 0x7F else signCode 8 s + 0x7E
  | .e4, .fin s m e tl | .e4x, .fin s m e tl =>
    if m == 0 then signCode 8 s else fmtE4.round rm s m e tl r24 (if nb then 0x7F else signCode 8 s + 0x7E)
  | .f4, .nan | .f4x, .nan => 0
  | .f4, .inf s | .f4x, .inf s => signCode 4 s + 7
  | .f4, .fin s m e tl | .f4x, .fin s m e tl =>
    if m == 0 then signCode 4 s else fmtF4.round rm s m e tl r24 (signCode 4 s + 7)
  | .t8, .nan => 0x80
  | .t8, .inf s => if nb then 0x80 else signCode 8 s + 1
  | .t8, .fin s m e tl => if m == 0 then 0 else roundT8 rm nb s m e tl r24
  | _, .nan => 0
  | _, .inf s =>
    if elemSigned t then (if s then 2 ^ (elemBits t - 1) else 2 ^ (elemBits t - 1) - 1)
    else (if s then 0 else 2 ^ elemBits t - 1)
  | _, .fin s m e tl => if m == 0 then 0 else roundInt (elemBits t) (elemSigned t) rm s m e tl r24

/-- The types whose .ftz acts (R103). -/
def ftzType : ElemTy → Bool
  | .f32 | .bf16 => true
  | .i8 | .i16 | .i32 | .i64 | .n8 | .n16 | .n32 | .n64 | .e4 | .e5 | .f4 | .t8 | .f4x | .e4x | .i4 => false

/-- A non-zero finite magnitude below 2^-126. -/
def XVal.tiny : XVal → Bool
  | .fin _ m e _ => m != 0 && ((Nat.log2 m : Int) + e < -126)
  | .nan | .inf _ => false

/-- R103, inputs: a subnormal .f32 or .bf16 input reads as zero of its own sign. -/
def ftzIn (ftz : Bool) (t : ElemTy) (x : XVal) : XVal :=
  if ftz && ftzType t && x.tiny then .zero x.sign else x

/-- RoundTo with R103 on the result. -/
def roundFtz (ftz : Bool) (x : XVal) (t : ElemTy) (rm : Rnd) (nb : Bool) (r24 : Nat) : Nat :=
  roundTo (ftzIn ftz t x) t rm nb r24

/-! ### The generator -/

/-- The reset state of `sr.rng` (R115). -/
def rngReset : W32 := 0x2545F491

/-- StepRng of R116. -/
def stepRng (x0 : W32) : W32 :=
  let x1 := x0 ^^^ (x0 <<< 13)
  let x2 := x1 ^^^ (x1 >>> 17)
  x2 ^^^ (x2 <<< 5)

/-- A written state of zero is stored as the reset value (R115). -/
def rngWrite (x : W32) : W32 := if x == 0 then rngReset else x

/-- The generator's state at unit start (R116). -/
def rngSeed (ep : Nat) (g1 : Word) : W32 :=
  rngWrite (rngReset ^^^ BitVec.ofNat 32 (ep * 2 ^ 14) ^^^ g1.setWidth 32)

/-- The generator after one rounding: .rsr steps it once, whatever the value; no other mode touches it (R116). -/
def rngAfter (rm : Rnd) (g : W32) : W32 :=
  match rm with
  | .rsr => stepRng g
  | .rne | .rtz | .rup | .rdn | .rna => g

/-- The draw that a rounding under .rsr compares with: StepRng()[31:8]. -/
def rngDraw (g : W32) : Nat := (stepRng g).toNat / 256

/-! ### Extension to a register -/

/-- A code of `w` bits as a 64-bit register value, filled as R99 says. -/
def extend (w : Nat) (sgn : Bool) (c : Nat) : Word :=
  if sgn then BitVec.ofInt 64 (signedOf w c) else BitVec.ofNat 64 (c % 2 ^ w)

/-- R120: the exact sum of products of two element lists, with the zero sign of R113. -/
def exactSum (down : Bool) : List (XVal × XVal) → Option XVal → XVal
  | [], none => .zero false
  | [], some acc => acc
  | (x, y) :: rest, none => exactSum down rest (some (x.mul y))
  | (x, y) :: rest, some acc => exactSum down rest (some (acc.add down (x.mul y)))

/-- R109: an E8M0 code as .bf16. -/
def e8ToBf16 (c : Nat) : Nat :=
  if c == 0 then 0x0040 else if c == 0xFF then 0x7FC0 else c * 2 ^ 7

end Sys2Proof.Machine
end

