-- ==== Sys2Proof/Machine/Flags.lean ====
section
/-!
DEFINITION. Conditions and relations. The device keeps no status flags (05_number_formats.md R118): what a program
tests is the 0 or 1 that SEQ, SLT, SLTN, FCMP and VCMP push, the condition of BR and LDAQ (R129, R231), and the order
that the minimum and maximum instructions choose by (R133).
-/
namespace Sys2Proof.Machine

/-- R129: the conditions of BR, on 64-bit values. -/
def condHolds (c : Cond) (a b : Word) : Bool :=
  match c with
  | .eq => a == b
  | .ne => a != b
  | .lt => a.slt b
  | .ge => !a.slt b
  | .ltn => a.ult b
  | .gen => !a.ult b
  | .z => a == 0
  | .nz => a != 0

/-- A truth value as the 64-bit 0 or 1 that a comparison pushes (R123). -/
def boolWord (b : Bool) : Word := if b then 1 else 0

/-- The relations of R71 on an order: `unord` when an operand is NaN, else the sign of the comparison (R133). -/
def relHolds (r : Rel) (unord : Bool) (c : Int) : Bool :=
  match r with
  | .eq => !unord && c == 0
  | .ne => unord || c != 0
  | .lt => !unord && decide (c < 0)
  | .le => !unord && decide (c ≤ 0)
  | .gt => !unord && decide (0 < c)
  | .ge => !unord && decide (0 ≤ c)
  | .un => unord
  | .ord => !unord

/-- R133: FCMP and VCMP on floating-point operands; -0 equals +0. -/
def fpRel (r : Rel) (x y : XVal) : Bool := relHolds r (x.isNan || y.isNan) (x.cmp y)

/-- R146: VCMP on integer operands; .un is false and .or true. -/
def intRel (r : Rel) (x y : Int) : Bool := relHolds r false (if x < y then -1 else if x == y then 0 else 1)

/-- minimumNumber and maximumNumber (R133): a NaN yields the other operand, and -0 counts as less than +0. -/
def pickFirst (wantMax : Bool) (x y : XVal) : Bool :=
  let c := x.cmp y
  if c == 0 then (if wantMax then !x.sign || y.sign else x.sign || !y.sign)
  else if wantMax then decide (0 < c) else decide (c < 0)

/-- The code that FMIN or FMAX pushes, from the two codes after .ftz; `qnan` is the type's canonical NaN. -/
def minMaxCode (wantMax : Bool) (qnan : Nat) (x y : XVal) (cx cy : Nat) : Nat :=
  if x.isNan then (if y.isNan then qnan else cy)
  else if y.isNan then cx
  else if pickFirst wantMax x y then cx else cy

/-- R102: the canonical NaN of the scalar and vector types. -/
def qnan : ElemTy → Nat
  | .f32 => 0x7FC00000
  | .bf16 => 0x7FC0
  | .e5 => 0x7E
  | .e4 | .e4x => 0x7F
  | .t8 => 0x80
  | .i8 | .i16 | .i32 | .i64 | .n8 | .n16 | .n32 | .n64 | .f4 | .f4x | .i4 => 0

/-- The code that a source holds after .ftz (R103, R133): a subnormal becomes the zero of its sign. -/
def ftzCode (ftz : Bool) (t : ElemTy) (c : Nat) : Nat :=
  let c := c % 2 ^ elemBits t
  if ftz && ftzType t && (decodeElem t c).tiny then signCode (elemBits t) (decodeElem t c).sign else c

end Sys2Proof.Machine
end

