-- ==== Sys2Proof/WellFormed.lean ====
section
/-!
DEFINITION. Which instructions the decoder may produce: the field values that the entries of the manual refuse at
decode (R67, R71, R74, step 5 of R76 in 03_encodings_and_opcode_map.md), as one Boolean check per instruction.
Bits that no field of `Instr` holds are the decoder's own check.
-/
namespace Sys2Proof

/-- The source does not name the immediate (the entry refuses 0xD, R67). -/
def Src.noImm : Src → Bool
  | .imm => false
  | .wet _ | .nib _ | .zero | .coord => true

/-- The source refuses 0xD and 0xE (R168, R261, R389, R443). -/
def Src.reg : Src → Bool
  | .imm | .coord => false
  | .wet _ | .nib _ | .zero => true

/-- An immediate that no source names has no use and is zero (R74). -/
def immUse (imm : W32) (a b : Src) : Bool := imm == 0 || a == .imm || b == .imm

def Op2.wf (o : Op2) : Bool := immUse o.imm o.a o.b
def Op1.wf (o : Op1) : Bool := immUse o.imm o.a o.a

/-- The .i types, codes 0-3 of R70. -/
def IntTy.signed : IntTy → Bool
  | .i8 | .i16 | .i32 | .i64 => true
  | .n8 | .n16 | .n32 | .n64 => false

/-- The types of AMO and CAS (R233): codes 2, 3, 6 and 7. -/
def IntTy.atomic : IntTy → Bool
  | .i32 | .i64 | .n32 | .n64 => true
  | .i8 | .i16 | .n8 | .n16 => false

/-- A .bf16 immediate has bits [31:16] zero (R67). -/
def bfImm (t : FTy) (imm : W32) (a b : Src) : Bool :=
  t != .bf16 || !(a == .imm || b == .imm) || imm.extractLsb' 16 16 == 0

def Op2.fwf (t : FTy) (o : Op2) : Bool := o.wf && bfImm t o.imm o.a o.b
def Op1.fwf (t : FTy) (o : Op1) : Bool := o.wf && bfImm t o.imm o.a o.a

/-- A transfer offset is a multiple of 4 (R129). -/
def off4 (off : W32) : Bool := off.extractLsb' 0 2 == 0

/-- Conditions z and nz leave sb without a use: its field is zero, which names w0 (R129, R231). -/
def condB (c : Cond) (b : Src) : Bool := !(c == .z || c == .nz) || b == .wet 0

/-- Element types of VLA, VSA and VCVT (R80): codes 0-2, 4-6, 8-13. -/
def ElemTy.vec : ElemTy → Bool
  | .i8 | .i16 | .i32 | .n8 | .n16 | .n32 | .bf16 | .f32 | .e4 | .e5 | .f4 | .t8 => true
  | .i64 | .n64 | .f4x | .e4x | .i4 => false

/-- Destination types of FCVT (R134): codes 0-13. -/
def ElemTy.conv : ElemTy → Bool
  | .f4x | .e4x | .i4 => false
  | .i8 | .i16 | .i32 | .i64 | .n8 | .n16 | .n32 | .n64 | .bf16 | .f32 | .e4 | .e5 | .f4 | .t8 => true

/-- Types of MMUL (R81): 0, 8, 10-13, 16. -/
def ElemTy.mmul : ElemTy → Bool
  | .i8 | .bf16 | .e4 | .e5 | .f4 | .t8 | .i4 => true
  | .i16 | .i32 | .i64 | .n8 | .n16 | .n32 | .n64 | .f32 | .f4x | .e4x => false

/-- Types of MMULB (R81): 14, 15. -/
def ElemTy.block : ElemTy → Bool
  | .f4x | .e4x => true
  | .i8 | .i16 | .i32 | .i64 | .n8 | .n16 | .n32 | .n64 | .bf16 | .f32 | .e4 | .e5 | .f4 | .t8 | .i4 => false

/-- Types of MMOVE and MLOAD (R81): 2, 8-13. -/
def ElemTy.mmove : ElemTy → Bool
  | .i32 | .bf16 | .f32 | .e4 | .e5 | .f4 | .t8 => true
  | .i8 | .i16 | .i64 | .n8 | .n16 | .n32 | .n64 | .f4x | .e4x | .i4 => false

/-- The rounding code of immB[4:0] is one of 0-5 (R72); majors whose result is exact do not look. -/
def ctlRm (ctl : BitVec 5) : Bool := (ctl.extractLsb' 0 3).toNat < 6

/-- A pointer whose operand the selectors leave out is zero (R74, R139). -/
def VOp.ptrs (o : VOp) : Bool := (o.asel || o.pa == 0) && (!o.bsel || o.pb == 0) && (o.dsel || o.pd == 0)
/-- A unary entry has bsel and pb zero (R143, R147). -/
def VOp.unary (o : VOp) : Bool := !o.bsel && o.pb == 0
/-- An entry without a vector destination has dsel and pd zero (R146, R147). -/
def VOp.noD (o : VOp) : Bool := !o.dsel && o.pd == 0

/-- FCVT's `from` field at imm[5:0] (R134): 0, or 0x20 plus a code 0-13. -/
def fromOk (src : BitVec 6) : Bool := src == 0 || (0x20 ≤ src.toNat && src.toNat < 0x2E)

/-- The configuration word of HCFG has its reserved bits and unused parameter bits zero (R269). -/
def cfgOk (cfg : W32) : Bool :=
  cfg.extractLsb' 12 18 == 0 &&
    (if (cfg.extractLsb' 30 2).toNat < 2 then cfg.extractLsb' 0 12 == 0
     else (cfg.extractLsb' 30 2).toNat == 2 || cfg.extractLsb' 11 1 == 0)

/-- The system register numbers of R445. -/
def sysRegs : List Nat :=
  [0x000, 0x001, 0x002, 0x003, 0x004, 0x005, 0x006, 0x007, 0x008, 0x009, 0x00A, 0x00B, 0x00C, 0x00D, 0x00E, 0x00F,
   0x010, 0x011, 0x012, 0x020, 0x021, 0x022, 0x023, 0x024, 0x030, 0x031, 0x032, 0x033, 0x034]

/-- Array command fields common to R168: neither source names the immediate or the coordinate. -/
def MOp.srcs (o : MOp) : Bool := o.off.reg && o.ioff.reg
/-- The bits of opnd from `hi` upward are zero (R74). -/
def opndBelow (opnd : Word) (hi : Nat) : Bool := opnd.toNat < 2 ^ hi

def laneNotF : LaneTy → Bool
  | .f32 => false
  | .i32 | .n32 => true
def laneNotN : LaneTy → Bool
  | .n32 => false
  | .i32 | .f32 => true

/-- The field values of the instruction are ones its entry admits. The machine's other steps (the event rows) have no
encoding, and nothing is asked of them here. -/
def Instr.wf : Instr → Bool
  | .add _ o | .addi _ o | .sub _ o | .mul _ o | .and _ o | .or _ o | .xor _ o | .andn _ o | .shl _ o | .shr _ o
  | .rotl _ o | .seq _ o | .sel _ o | .bfx _ o | .bfi _ o => o.wf
  | .neg _ o | .not _ o | .clz _ o | .ctz _ o | .popc _ o => o.wf
  | .mulh t o | .div t o | .rem t o | .min t o | .max t o | .slt t o | .shra t o => t.signed && o.wf
  | .sext t o => t.signed && o.wf
  | .mulhn t o | .divn t o | .remn t o | .minn t o | .maxn t o | .sltn t o => !t.signed && o.wf
  | .zext t o => !t.signed && o.wf
  | .li _ _ => true
  | .lih _ a _ => a.noImm
  | .movk _ _ => true
  | .movg _ a imm => immUse imm a a
  | .movm src dst cnt => src.val + cnt.toNat + 1 ≤ 32 && dst.val + cnt.toNat + 1 ≤ 32
  | .br c a b off => a.noImm && b.noImm && condB c b && off4 off
  | .j off => off4 off
  | .jl _ off => off4 off
  | .jr a imm | .ret a imm => immUse imm a a
  | .loop _ a off => a.noImm && off4 off
  | .rep _ _ _ => true
  | .fadd t _ _ o | .fsub t _ _ o | .fmul t _ _ o | .ffma t _ _ o | .fmin t _ o | .fmax t _ o | .fcmp t _ _ o =>
    o.fwf t
  | .fdiv _ _ o => o.wf
  | .fsqrt _ _ o | .fexp2 _ _ o | .flog2 _ _ o | .frsq _ _ o => o.wf
  | .fabs t _ o | .fneg t _ o => o.fwf t
  | .fcvt ty _ _ src _ a => ty.conv && fromOk src && a.noImm
  | .ld _ _ _ _ a _ | .ldp _ _ _ _ a _ => a.noImm
  | .st _ _ _ a b _ | .strl _ _ a b _ | .stp _ _ _ a b _ => a.noImm && b.noImm
  | .ldaq _ _ c _ a b => a.noImm && b.noImm && condB c b
  | .amo t _ _ _ _ a b | .cas t _ _ _ a b => t.atomic && a.noImm && b.noImm
  | .fence _ pred succ => pred != 0 && succ != 0
  | .waitc _ _ _ _ | .waitcn _ _ => true
  | .cnset _ _ _ none => true
  | .cnset _ _ v (some a) => a.noImm && v == 0
  | .cnget _ _ => true
  | .galloc _ a imm => immUse imm a a
  | .gfree a => a.noImm
  | .send dest _ words gbase _ => dest.noImm && gbase.val + words.toNat ≤ 32
  | .exit _ | .yield _ | .park _ _ => true
  | .wake a => a.noImm
  | .launch _ a | .launchW _ a | .graphCreate _ a | .graphClose _ a | .phaseCreate _ a | .phaseClose _ a
  | .jobClose _ a => a.noImm
  | .cancel _ _ rec | .lvwait _ _ rec | .lvread _ _ _ rec => rec.all Src.noImm
  | .fuse _ n => n == 2 || n == 4 || n == 8
  | .split | .laneid _ | .coord _ _ => true
  | .spillq _ a => a.noImm
  | .jobset _ share _ => share.toNat ≤ 16
  | .stageCreate _ a | .stageClose _ a => a.noImm
  | .stageThresh _ a _ => a.noImm
  | .keysend _ words gbase => words != 0 && gbase.val + words.toNat ≤ 32
  | .splitok _ a imm => immUse imm a a
  | .mergeok => true
  | .krtread _ a n => a.noImm && n.toNat ≤ 16
  | .qdep _ a => a.noImm
  | .tev _ a => a.noImm
  | .tevx _ _ a b => a.noImm && b.noImm
  | .tsread _ | .tmark _ _ | .trap _ | .eret | .rqread _ _ _ => true
  | .rqwrite a _ _ => a.reg
  | .srr _ reg => sysRegs.contains reg.toNat
  | .srw a reg => a.reg && sysRegs.contains reg.toNat && reg != 0x032
  | .srwTsink a => a.reg
  | .ckpt _ _ => true
  | .rback _ a => a.reg
  | .kill _ | .nop | .fill | .brk _ | .halt => true
  | .vla t _ _ _ => t.vec
  | .vsa t _ _ ctl => t.vec && ctlRm ctl
  | .vcvt t _ src ctl => t.vec && ctlRm ctl && src != 3
  | .vadd _ o | .vsub _ o | .vmul _ o | .vscl _ o => o.ptrs && ctlRm o.ctl
  | .vmin _ o | .vmax _ o | .vsel _ _ o => o.ptrs
  | .vred _ _ o => o.ptrs && o.unary && o.noD && ctlRm o.ctl
  | .vcmp _ _ _ o => o.ptrs && o.noD
  | .vbcast _ o => o.ptrs && o.unary
  | .vidx _ _ pd dsel _ _ ctl => (dsel || pd == 0) && ctlRm ctl
  | .vperm _ o => o.ptrs && !o.asel
  | .vgath _ _ _ _ _ | .vscat _ _ _ _ _ => true
  | .vabs t o => laneNotN t && o.ptrs && o.unary
  | .vand t o | .vor t o | .vxor t o | .vshl t o | .vshr t o => laneNotF t && o.ptrs
  | .vfma o => o.ptrs && ctlRm o.ctl
  | .vexp2 o | .vrsq o | .vrcp o => o.ptrs && o.unary && ctlRm o.ctl
  | .pset _ _ _ _ | .padv _ _ | .pget _ | .baset _ _ _ => true
  | .ldb width _ | .stb width => 1 ≤ width.toNat && width.toNat ≤ 32
  | .chain _ _ _ _ | .chainResume _ | .cstat _ _ => true
  | .hcfg _ cfg => cfgOk cfg
  | .hcfgRearm _ | .hacq _ _ | .hrel _ _ | .hstate _ => true
  | .rpost _ m => 1 ≤ m.toNat && m.toNat ≤ 4096
  | .rtake _ | .barr _ _ | .bexp _ _ | .btest _ | .bwait _ => true
  | .mlease _ | .mrel => true
  | .mjob _ off opnd => off.reg && opndBelow opnd 47
  | .mmask o => o.srcs && opndBelow o.opnd 3 && (o.opnd.getLsbD 2 || o.off != .zero || o.imm == 0)
  | .mprec o => o.srcs && opndBelow o.opnd 5 && o.imm == 0
  | .mzero o => o.srcs && opndBelow o.opnd 12 && o.imm == 0
  | .mmul t rm o => t.mmul && rm != .rsr && o.srcs && opndBelow o.opnd 60 && o.imm.toNat < 2 ^ 9
  | .mmulb t o => t.block && o.srcs && opndBelow o.opnd 60 && o.imm.toNat < 2 ^ 9
  | .msca rm o => rm != .rsr && o.srcs && opndBelow o.opnd 49 && o.imm == 0
  | .msendt o => o.srcs && opndBelow o.opnd 32 && o.imm == 0
  | .mrecvt o => o.srcs && opndBelow o.opnd 32 && o.opnd.extractLsb' 0 18 == 0 && o.imm == 0
  | .mmove t _ _ o => t.mmove && o.srcs && opndBelow o.opnd 56 && o.imm == 0
  | .mload t _ _ o => t.mmove && o.srcs && opndBelow o.opnd 62 && o.imm.toNat < 2 ^ 26
  | .mtest _ off opnd => off.reg && opndBelow opnd 9
  | .mstat _ _ => true
  | .e8cvt o => o.srcs && opndBelow o.opnd 59 && o.imm == 0
  | .map _ a b _ _ _ lg _ | .grant _ a b _ _ _ lg _ => a.reg && b.reg && lg.toNat ≤ 24
  | .unmap _ a _ | .unmapAsync _ a _ _ _ => a.reg
  | .acceptOpen _ a _ lgw _ _ _ _ _ => a.reg && lgw.toNat ≤ 51
  | .acceptClose _ a _ => a == .wet 0
  | .mquery _ a n => a.reg && n != 3
  | .xflush _ a lg => a.reg && lg.toNat ≤ 24
  | .xld a b _ _ | .xst a b _ _ => a.reg && b.reg
  | .xburst a b len _ _ _ => a.reg && b.reg && 4 ≤ len.toNat && len.toNat ≤ 4096 && len.toNat % 4 == 0
  | .planew a b len => a.reg && b.reg && 4 ≤ len.toNat && len.toNat ≤ 64 && len.toNat % 4 == 0
  | .mbox a b _ | .crec _ a b _ => a.reg && b.reg
  | .sendx a _ _ _ _ _ _ _ => a.noImm
  | .messageArrival .. | .coreBind .. | .sendBufferRetry .. | .launchAdmission .. | .batchDeal .. | .unitDispatch ..
  | .dispatchRetry .. | .allowanceRefill | .masterElection .. | .arrayGrant .. | .arrayBind ..
  | .arrayCommandComplete .. | .leaseTimeout .. | .gateTimeout .. | .gateOpen .. | .jobStopped .. | .tileArrival ..
  | .tileDiscard .. | .arraySelfTest .. | .chainStart .. | .copyPiece .. | .recordComplete .. | .channelStop ..
  | .barrierPhase .. | .barrierAggregate .. | .barrierCompletionMsg .. | .ldaqReload .. | .parkTimeout ..
  | .yieldReturn .. | .wakeArrival .. | .ldpArrival .. | .farAccessTranslate .. | .farAccessAck .. | .derive ..
  | .unmapEffect .. | .deadMarks .. | .invalidationRound .. | .invalidationAck .. | .pinCancel ..
  | .migrationHandover .. | .slateAdmitHeld .. | .traceDrain .. | .traceDrainRetry .. | .ptpSync ..
  | .timebaseHoldover | .stageOverload .. | .stageTableApply .. | .interfaceAck .. | .endMarker ..
  | .stageUnderload .. | .mergeStart .. | .trapEntry .. | .gangFollowerFault .. | .watchdogExpiry .. | .killSweep ..
  | .killConfirm .. | .killComplete .. | .dieFence .. | .uncorrectableError .. | .heartbeatLoss .. | .thermalTrip ..
  | .serviceFailover .. | .meterWindow .. | .egressBeat .. | .scrollAppend | .stagingDrain | .keyLoad ..
  | .keyUpdate .. | .hostErase .. | .keyPublicCopy .. | .checkpointRequest | .attestation .. | .archivedSeqWrite ..
  | .createContext .. | .destroyContext .. | .createRoot .. | .mapRoot .. | .unmapRoot .. | .createJob ..
  | .closeJob .. | .bindPage .. | .writeTableEntry .. | .writeHmask .. | .configHostSink .. | .readLastReel ..
  | .preempt .. | .hostKill .. | .hostFence .. | .warmReset | .warmResetRequest | .claimWrite .. | .callSubmit .. | .debugAttach ..
  | .debugRead .. | .debugWrite .. | .debugResume .. | .debugDetach .. | .submitLaunch .. | .submitMessage ..
  | .inboundAccess .. | .cxlMemRequest .. | .functionLevelReset .. | .outboundReadTimeout .. | .scallinkFrame ..
  | .scallinkRetransmit .. | .linkState .. | .powerOnReset | .bootRelease .. | .bootReady | .recoveryOffsetWrite ..
  | .recoveryDataWrite .. | .timeControlWrite .. | .schedWordWrite .. | .classCostWrite .. | .lateConsumedWrite ..
  | .selfTestIntervalWrite .. | .registerWrite .. | .reservedInstruction .. | .eccCorrectedError ..
  | .msixTableWrite .. | .callRingConsume .. | .windowChange .. | .takesEffectOnDie .. => true

end Sys2Proof
end

