-- ==== Sys2Proof/Machine/Alu.lean ====
section
/-!
DEFINITION. What the scalar and vector arithmetic instructions compute from their operand values
(06_scalar_vector_instructions.md R123-R127, R132-R134, R143-R144): exact integers or exact values first, narrowed once.
-/
namespace Sys2Proof.Machine

/-- The width of an integer type (R98). -/
def intBits : IntTy → Nat
  | .i8 | .n8 => 8
  | .i16 | .n16 => 16
  | .i32 | .n32 => 32
  | .i64 | .n64 => 64

/-- The size of an integer type in bytes (R123, ADDI). -/
def intBytes : IntTy → Nat
  | .i8 | .n8 => 1
  | .i16 | .n16 => 2
  | .i32 | .n32 => 4
  | .i64 | .n64 => 8

/-- The low bits of a register that count at a type (R99). -/
def low (t : IntTy) (a : Word) : Nat := a.toNat % 2 ^ intBits t

/-- A register read as a typed operand (R99, R123): signed for .i types, unsigned for .n types. -/
def readTy (t : IntTy) (a : Word) : Int := if t.signed then signedOf (intBits t) a.toNat else low t a

/-- A typed result, modulo 2^w, extended to the register (R99, R100). -/
def writeTy (t : IntTy) (v : Int) : Word :=
  extend (intBits t) t.signed (v % (2 ^ intBits t : Int)).toNat

/-- A typed result given by its bits. -/
def writeBits (t : IntTy) (v : Nat) : Word := extend (intBits t) t.signed (v % 2 ^ intBits t)

/-- The shift count: b modulo w (R123). -/
def shiftBy (t : IntTy) (b : Word) : Nat := b.toNat % intBits t

def aluAdd (t : IntTy) (a b : Word) : Word := writeTy t (readTy t a + readTy t b)
/-- ADDI: a whole, b at the type and scaled by the type's size (R123). -/
def aluAddi (t : IntTy) (a b : Word) : Word := a + BitVec.ofInt 64 (readTy t b * intBytes t)
def aluSub (t : IntTy) (a b : Word) : Word := writeTy t (readTy t a - readTy t b)
def aluNeg (t : IntTy) (a : Word) : Word := writeTy t (-readTy t a)
def aluMul (t : IntTy) (a b : Word) : Word := writeTy t (readTy t a * readTy t b)
def aluAnd (t : IntTy) (a b : Word) : Word := writeBits t (a &&& b).toNat
def aluOr (t : IntTy) (a b : Word) : Word := writeBits t (a ||| b).toNat
def aluXor (t : IntTy) (a b : Word) : Word := writeBits t (a ^^^ b).toNat
def aluAndn (t : IntTy) (a b : Word) : Word := writeBits t (a &&& ~~~b).toNat
def aluNot (t : IntTy) (a : Word) : Word := writeBits t (~~~a).toNat
def aluShl (t : IntTy) (a b : Word) : Word := writeBits t (low t a * 2 ^ shiftBy t b)
def aluShr (t : IntTy) (a b : Word) : Word := writeBits t (low t a / 2 ^ shiftBy t b)
/-- SHRA: floor division of the signed value (R123). -/
def aluShra (t : IntTy) (a b : Word) : Word := writeTy t (signedOf (intBits t) a.toNat / (2 ^ shiftBy t b : Int))
def aluRotl (t : IntTy) (a b : Word) : Word :=
  writeBits t (low t a * 2 ^ shiftBy t b + low t a / 2 ^ (intBits t - shiftBy t b))

/-- Leading zeros within w bits; w when zero (R123). -/
def aluClz (t : IntTy) (a : Word) : Word :=
  writeBits t (if low t a == 0 then intBits t else intBits t - 1 - Nat.log2 (low t a))

/-- Trailing zeros counted by descending through `fuel` bits. -/
def ctzFrom : Nat → Nat → Nat
  | 0, _ => 0
  | k + 1, v => if v % 2 == 1 then 0 else 1 + ctzFrom k (v / 2)

def popFrom : Nat → Nat → Nat
  | 0, _ => 0
  | k + 1, v => v % 2 + popFrom k (v / 2)

def aluCtz (t : IntTy) (a : Word) : Word := writeBits t (ctzFrom (intBits t) (low t a))
def aluPopc (t : IntTy) (a : Word) : Word := writeBits t (popFrom (intBits t) (low t a))
def aluSeq (t : IntTy) (a b : Word) : Word := boolWord (low t a == low t b)
/-- R126: bit 0 of w0 chooses. -/
def aluSel (t : IntTy) (w0 a b : Word) : Word := writeBits t (if w0.getLsbD 0 then low t a else low t b)

/-- R125: the field that BFX and BFI take from b: lsb b[5:0], width b[14:8] with 65-127 read as 64. -/
def fieldLsb (b : Word) : Nat := b.toNat % 64
def fieldWidth (b : Word) : Nat := Nat.min (b.toNat / 256 % 128) 64

def aluBfx (t : IntTy) (a b : Word) : Word :=
  let n := fieldWidth b
  let f := low t a / 2 ^ fieldLsb b % 2 ^ n
  if n == 0 then 0 else writeTy t (if t.signed then signedOf n f else f)

/-- BFI: bits lsb to min(lsb + width, w) - 1 of w0 become the low bits of a (R125). -/
def aluBfi (t : IntTy) (w0 a b : Word) : Word :=
  let lo := fieldLsb b
  let hi := Nat.min (lo + fieldWidth b) (intBits t)
  let base := low t w0
  if hi ≤ lo then writeBits t base
  else writeBits t (base % 2 ^ lo + a.toNat % 2 ^ (hi - lo) * 2 ^ lo + base / 2 ^ hi * 2 ^ hi)

/-- MULH and MULHN: the high half, rounded down (R123). -/
def aluMulh (t : IntTy) (a b : Word) : Word := writeTy t (readTy t a * readTy t b / (2 ^ intBits t : Int))

/-- R124: DIV truncates towards zero; b = 0 gives all ones; the one overflow wraps. -/
def aluDiv (t : IntTy) (a b : Word) : Word :=
  if readTy t b == 0 then writeTy t (-1) else writeTy t (Int.tdiv (readTy t a) (readTy t b))

/-- R124: REM is a - b * DIV(a, b); b = 0 gives a. -/
def aluRem (t : IntTy) (a b : Word) : Word :=
  if readTy t b == 0 then writeTy t (readTy t a) else writeTy t (Int.tmod (readTy t a) (readTy t b))

def aluMin (t : IntTy) (a b : Word) : Word := writeTy t (if readTy t a < readTy t b then readTy t a else readTy t b)
def aluMax (t : IntTy) (a b : Word) : Word := writeTy t (if readTy t a < readTy t b then readTy t b else readTy t a)
def aluSlt (t : IntTy) (a b : Word) : Word := boolWord (decide (readTy t a < readTy t b))
/-- SEXT and ZEXT: the low w bits, extended to 64 (R123). -/
def aluExt (t : IntTy) (a : Word) : Word := BitVec.ofInt 64 (readTy t a)
/-- LI: the immediate sign-extended (R127). -/
def aluLi (imm : W32) : Word := imm.signExtend 64
/-- LIH: imm * 2^32 + a[31:0] (R127). -/
def aluLih (a : Word) (imm : W32) : Word := imm ++ a.setWidth 32

/-! ### Scalar floating point -/

def fElem : FTy → ElemTy
  | .bf16 => .bf16
  | .f32 => .f32

/-- A floating-point operand: the low bits decoded, with .ftz applied (R103, R132). -/
def fpIn (ftz : Bool) (t : ElemTy) (c : Nat) : XVal := ftzIn ftz t (decodeElem t (c % 2 ^ elemBits t))

/-- One rounding to a type and the code as a register value (R99, R132); `g` is the generator's state. -/
def fpOut (ftz : Bool) (t : ElemTy) (rm : Rnd) (g : W32) (x : XVal) : Word :=
  extend (elemBits t) false (roundFtz ftz x t rm false (rngDraw g))

def fpAdd (rm : Rnd) (x y : XVal) : XVal := x.add (rm == .rdn) y
def fpSub (rm : Rnd) (x y : XVal) : XVal := x.sub (rm == .rdn) y
/-- FFMA: a * b + c, one rounding (R132). -/
def fpFma (rm : Rnd) (x y z : XVal) : XVal := (x.mul y).add (rm == .rdn) z

/-- FMIN and FMAX at a type (R133). -/
def fpMinMax (wantMax ftz : Bool) (t : ElemTy) (a b : Nat) : Nat :=
  minMaxCode wantMax (qnan t) (fpIn ftz t a) (fpIn ftz t b) (ftzCode ftz t a) (ftzCode ftz t b)

/-- FABS: the sign bit cleared (R133). -/
def fpAbs (ftz : Bool) (t : ElemTy) (a : Nat) : Nat := ftzCode ftz t a % 2 ^ (elemBits t - 1)
/-- FNEG: the sign bit inverted (R133). -/
def fpNeg (ftz : Bool) (t : ElemTy) (a : Nat) : Nat :=
  (ftzCode ftz t a + 2 ^ (elemBits t - 1)) % 2 ^ elemBits t

/-- The source type of FCVT (R134). -/
def fcvtSource (src : BitVec 6) : ElemTy :=
  match src.toNat - 0x20 with
  | 0 => if src == 0 then .f32 else .i8
  | 1 => .i16 | 2 => .i32 | 3 => .i64 | 4 => .n8 | 5 => .n16 | 6 => .n32 | 7 => .n64
  | 8 => .bf16 | 9 => .f32 | 10 => .e4 | 11 => .e5 | 12 => .f4 | _ => .t8

/-- FCVT (R134): one rounding of the decoded source, written under R99. -/
def fpConvert (src dst : ElemTy) (rm : Rnd) (nb : Bool) (g : W32) (a : Word) : Word :=
  extend (elemBits dst) (elemSigned dst)
    (roundTo (decodeElem src (a.toNat % 2 ^ elemBits src)) dst rm nb (rngDraw g))

/-! ### Lanes -/

def laneElem : LaneTy → ElemTy
  | .i32 => .i32
  | .n32 => .n32
  | .f32 => .f32

/-- A lane as an integer at its type. -/
def laneInt (t : LaneTy) (x : W32) : Int :=
  match t with
  | .i32 => x.toInt
  | .n32 | .f32 => x.toNat

/-- A lane as an exact value at its type. -/
def laneVal (ftz : Bool) (t : LaneTy) (x : W32) : XVal := fpIn ftz (laneElem t) x.toNat

/-- An exact .f32 result rounded into a lane (R143). -/
def laneRound (rm : Rnd) (ftz : Bool) (g : W32) (x : XVal) : W32 :=
  BitVec.ofNat 32 (roundFtz ftz x .f32 rm false (rngDraw g))

def laneAdd (t : LaneTy) (rm : Rnd) (ftz : Bool) (g : W32) (x y : W32) : W32 :=
  match t with
  | .f32 => laneRound rm ftz g (fpAdd rm (laneVal ftz .f32 x) (laneVal ftz .f32 y))
  | .i32 | .n32 => x + y

def laneSub (t : LaneTy) (rm : Rnd) (ftz : Bool) (g : W32) (x y : W32) : W32 :=
  match t with
  | .f32 => laneRound rm ftz g (fpSub rm (laneVal ftz .f32 x) (laneVal ftz .f32 y))
  | .i32 | .n32 => x - y

def laneMul (t : LaneTy) (rm : Rnd) (ftz : Bool) (g : W32) (x y : W32) : W32 :=
  match t with
  | .f32 => laneRound rm ftz g ((laneVal ftz .f32 x).mul (laneVal ftz .f32 y))
  | .i32 | .n32 => x * y

def laneMinMax (wantMax : Bool) (t : LaneTy) (x y : W32) : W32 :=
  match t with
  | .f32 => BitVec.ofNat 32 (fpMinMax wantMax false .f32 x.toNat y.toNat)
  | .i32 | .n32 =>
    if wantMax then (if laneInt t x < laneInt t y then y else x) else (if laneInt t y < laneInt t x then y else x)

/-- VABS (R143): -2^31 stays; .f32 clears the sign bit, and a NaN gives the canonical one (R102). -/
def laneAbs (t : LaneTy) (x : W32) : W32 :=
  match t with
  | .f32 => if 0x7F800000 < (x &&& 0x7FFFFFFF).toNat then 0x7FC00000 else x &&& 0x7FFFFFFF
  | .i32 | .n32 => if x.toInt < 0 then -x else x

/-- VSHL and VSHR: by B mod 32; VSHR is arithmetic for .i32 (R143). -/
def laneShl (x y : W32) : W32 := x <<< (y.toNat % 32)
def laneShr (t : LaneTy) (x y : W32) : W32 :=
  match t with
  | .i32 => x.sshiftRight (y.toNat % 32)
  | .n32 | .f32 => x >>> (y.toNat % 32)

def laneRel (r : Rel) (t : LaneTy) (x y : W32) : Bool :=
  match t with
  | .f32 => fpRel r (laneVal false .f32 x) (laneVal false .f32 y)
  | .i32 | .n32 => intRel r (laneInt t x) (laneInt t y)

/-- VSCL (R144): A times 2^n, n = B read as .i32. -/
def laneScale (t : LaneTy) (rm : Rnd) (ftz : Bool) (g : W32) (x y : W32) : W32 :=
  let n := y.toInt
  match t with
  | .f32 => laneRound rm ftz g ((laneVal ftz .f32 x).mul (.fin false 1 n false))
  | .i32 | .n32 =>
    if 0 ≤ n then (if 32 ≤ n then 0 else x <<< n.toNat)
    else if n ≤ -32 then (if laneInt t x < 0 then -1 else 0)
    else BitVec.ofInt 32 (laneInt t x / (2 ^ (-n).toNat : Int))

end Sys2Proof.Machine
end

