-- ==== Sys2Proof/Config.lean ====
section
/-!
DEFINITION. What the manual leaves to the implementation or to chance: which agent of the package moves next, and the
values it leaves open. Each free value is an opaque constant applied to a counter that the state holds.
-/
namespace Sys2Proof

/-- One move of the package: a thread issues, another step of the opcode table happens, time passes, or a tree unit
performs a node read that waits in its queue (R368, R393). -/
inductive Move where
  | thread (ep : Nat)
  | event (i : Instr)
  | time (ticks : Nat)
  | treeRead (part : Nat)
  /-- a load, or a store of a value, of `n` bytes by service core `core` in a context's space; `order` makes it an acquire or a
  release (R195) -/
  | service (core ctx va n : Nat) (store : Option Word) (order : Bool)
  deriving DecidableEq, Repr, Inhabited

/-- The order in which the agents of the package move (08_ordering_model.md R199): any. (log 4, DESIGN CHOICE) -/
opaque Config.freeMove : Nat → Move

/-- Lines that the CXL directory has entries for (R219). (log 156, DESIGN CHOICE) -/
opaque Config.directoryLines : Nat

/-- A 64-bit value that the manual leaves open. (log 5, DESIGN CHOICE) -/
opaque Config.freeWord : Nat → Word

/-- How far a die's copy of `ctime` stands above the package reference: at most 32 units (R31).
(log 7, DESIGN CHOICE) -/
opaque Config.skew : Nat → Fin 33

/-- The random bytes with which FIPS 204 hedges a signature, by the context string and the message (R398-R418).
(log 93, DESIGN CHOICE) -/
opaque Config.signRandom : List Byte → List Byte → BitVec 256
/-- The device secret in the fuses, 256 bits, and the seed of the Borcalos issuing key (R398). (log 93, DESIGN CHOICE) -/
opaque Config.deviceSecret : BitVec 256
opaque Config.issuingSeed : BitVec 256
/-- The measurements of the firmware images, in the order of R417, and whether each one's signature holds. -/
opaque Config.imageHash : Nat → List Byte
/-- (log 93, DESIGN CHOICE) -/
opaque Config.imageGood : Nat → Bool

/-- Ticks of 1/272 ns in one cycle of each clock (R9) and in one unit of `ctime` (R30). (log 6, DESIGN CHOICE) -/
def Config.arithCycle : Nat := 160
def Config.baseCycle : Nat := 170
def Config.ioCycle : Nat := 136
/-- (log 6, DESIGN CHOICE) -/
def Config.ctimeTicks : Nat := 17
def Config.usTicks : Nat := 272000

end Sys2Proof
end

