-- ==== Sys2Proof/Decode.lean ====
section
/-!
DEFINITION. The decoder and the encoder of the three formats (03_encodings_and_opcode_map.md R61-R82; the fields of
each entry from its home chapter). `decode` is total: it answers an instruction or the failing check of R76. Fetch
(R62, R63) and the body of REP (R75) need the scratchpad and stand in Machine/Step.lean and Machine/Ops.lean.
-/
namespace Sys2Proof

/-- The fields of the 64-bit format (R66). -/
structure Raw64 where
  major : BitVec 8
  minor : BitVec 6
  dst : BitVec 4
  sa : BitVec 4
  sb : BitVec 4
  mod : BitVec 4
  imm : W32
  deriving DecidableEq, Repr

/-- The fields of the 96-bit format (R72). -/
structure Raw96 where
  major : BitVec 8
  minor : BitVec 6
  pa : BitVec 3
  pb : BitVec 3
  pd : BitVec 3
  mask : BitVec 2
  type : BitVec 5
  immA : W32
  immB : W32
  deriving DecidableEq, Repr

/-- The fields of the 128-bit format (R73). -/
structure Raw128 where
  major : BitVec 8
  minor : BitVec 6
  dst : BitVec 4
  sa : BitVec 4
  sb : BitVec 4
  mod : BitVec 4
  imm : W32
  opnd : Word
  deriving DecidableEq, Repr

/-- An instruction word split into the fields of its format. -/
inductive Enc where
  | e64 (r : Raw64)
  | e96 (r : Raw96)
  | e128 (r : Raw128)
  deriving DecidableEq, Repr

def Raw64.unpack (w : BitVec 64) : Raw64 :=
  { major := w.extractLsb' 2 8, minor := w.extractLsb' 10 6, dst := w.extractLsb' 16 4, sa := w.extractLsb' 20 4,
    sb := w.extractLsb' 24 4, mod := w.extractLsb' 28 4, imm := w.extractLsb' 32 32 }

def Raw96.unpack (w : BitVec 96) : Raw96 :=
  { major := w.extractLsb' 2 8, minor := w.extractLsb' 10 6, pa := w.extractLsb' 16 3, pb := w.extractLsb' 19 3,
    pd := w.extractLsb' 22 3, mask := w.extractLsb' 25 2, type := w.extractLsb' 27 5, immA := w.extractLsb' 32 32,
    immB := w.extractLsb' 64 32 }

def Raw128.unpack (w : BitVec 128) : Raw128 :=
  { major := w.extractLsb' 2 8, minor := w.extractLsb' 10 6, dst := w.extractLsb' 16 4, sa := w.extractLsb' 20 4,
    sb := w.extractLsb' 24 4, mod := w.extractLsb' 28 4, imm := w.extractLsb' 32 32, opnd := w.extractLsb' 64 64 }

/-- The length in bytes that length code [1:0] gives (R61); code 0b11 has none. -/
def lengthOf (b0 : Byte) : Option Nat :=
  match (b0.extractLsb' 0 2).toNat with
  | 0 => some 8
  | 1 => some 12
  | 2 => some 16
  | _ => none

/-- The little-endian number of a byte list (R61, R99). -/
def leNat : List Byte → Nat
  | [] => 0
  | b :: bs => b.toNat + 256 * leNat bs

/-- The low `n` bytes of a number, little-endian. -/
def leBytes : Nat → Nat → List Byte
  | 0, _ => []
  | n + 1, w => BitVec.ofNat 8 w :: leBytes n (w / 256)

/-- The fields of the instruction that stands in `w`, whose length code is w[1:0]. -/
def Enc.ofNat (w : Nat) : Option Enc :=
  match w % 4 with
  | 0 => some (.e64 (Raw64.unpack (BitVec.ofNat 64 w)))
  | 1 => some (.e96 (Raw96.unpack (BitVec.ofNat 96 w)))
  | 2 => some (.e128 (Raw128.unpack (BitVec.ofNat 128 w)))
  | _ => none

def Enc.size : Enc → Nat
  | .e64 _ => 8
  | .e96 _ => 12
  | .e128 _ => 16

/-- The three engines of R82. -/
inductive Engine where
  | small
  | memory
  | copy
  deriving DecidableEq, Repr

/-- R82: whether the engine runs the major. Majors that the opcode map leaves unassigned are refused anyway. -/
def Enc.runsOn (e : Enc) (g : Engine) : Bool :=
  match e with
  | .e64 r => if r.major.toNat < 0x80 then true else g != .copy
  | .e96 r => if r.major.toNat < 0x40 then g == .small
              else if r.major.toNat < 0x60 then g != .copy
              else g == .small
  | .e128 r => if r.major.toNat < 0x20 then g == .small
               else if r.major.toNat < 0x30 then g != .copy
               else if r.major.toNat < 0x40 then g != .small
               else g != .copy

/-- A decoding step: a value, or the check of R76 that fails. -/
abbrev D (α : Type) := Except DecodeError α

/-- A check of step 5 of R76. -/
def need : Bool → D Unit
  | true => .ok ()
  | false => .error .illegalField

/-- A check of step 4 of R76. -/
def assigned : Bool → D Unit
  | true => .ok ()
  | false => .error .unassigned

def Src.ofBits (b : BitVec 4) : D Src :=
  if b.toNat < 4 then .ok (.wet (Fin.ofNat 4 b.toNat))
  else if b.toNat < 12 then .ok (.nib (Fin.ofNat 8 (b.toNat - 4)))
  else if b.toNat = 12 then .ok .zero
  else if b.toNat = 13 then .ok .imm
  else if b.toNat = 14 then .ok .coord
  else .error .illegalField

def Dst.ofBits (b : BitVec 4) : D Dst :=
  if b.toNat = 0 then .ok .wet
  else if 4 ≤ b.toNat ∧ b.toNat < 12 then .ok (.nib (Fin.ofNat 8 (b.toNat - 4)))
  else .error .illegalField

/-- A destination that must name a nib register (MOVK, LDP). -/
def nibOfBits (b : BitVec 4) : D (Fin 8) :=
  if 4 ≤ b.toNat ∧ b.toNat < 12 then .ok (Fin.ofNat 8 (b.toNat - 4)) else .error .illegalField

def IntTy.ofCode (n : Nat) : D IntTy :=
  match n with
  | 0 => .ok .i8 | 1 => .ok .i16 | 2 => .ok .i32 | 3 => .ok .i64
  | 4 => .ok .n8 | 5 => .ok .n16 | 6 => .ok .n32 | 7 => .ok .n64
  | _ => .error .unassigned

def ElemTy.ofCode (n : Nat) : D ElemTy :=
  match n with
  | 0 => .ok .i8 | 1 => .ok .i16 | 2 => .ok .i32 | 3 => .ok .i64
  | 4 => .ok .n8 | 5 => .ok .n16 | 6 => .ok .n32 | 7 => .ok .n64
  | 8 => .ok .bf16 | 9 => .ok .f32 | 10 => .ok .e4 | 11 => .ok .e5 | 12 => .ok .f4 | 13 => .ok .t8
  | 14 => .ok .f4x | 15 => .ok .e4x | 16 => .ok .i4
  | _ => .error .unassigned

def FTy.ofCode (n : Nat) : D FTy :=
  match n with
  | 8 => .ok .bf16 | 9 => .ok .f32
  | _ => .error .unassigned

def LaneTy.ofCode (n : Nat) : D LaneTy :=
  match n with
  | 2 => .ok .i32 | 6 => .ok .n32 | 9 => .ok .f32
  | _ => .error .illegalField

def Rnd.ofCode (n : Nat) : D Rnd :=
  match n with
  | 0 => .ok .rne | 1 => .ok .rtz | 2 => .ok .rup | 3 => .ok .rdn | 4 => .ok .rna | 5 => .ok .rsr
  | _ => .error .illegalField

def Cond.ofCode (n : Nat) : D Cond :=
  match n with
  | 0 => .ok .eq | 1 => .ok .ne | 2 => .ok .lt | 3 => .ok .ge | 4 => .ok .ltn | 5 => .ok .gen | 6 => .ok .z
  | 7 => .ok .nz
  | _ => .error .illegalField

def Rel.ofCode (n : Nat) : D Rel :=
  match n with
  | 0 => .ok .eq | 1 => .ok .ne | 2 => .ok .lt | 3 => .ok .le | 4 => .ok .gt | 5 => .ok .ge | 6 => .ok .un
  | 7 => .ok .ord
  | _ => .error .illegalField

def Ord.ofCode (n : Nat) : D Ord :=
  match n with
  | 0 => .ok .rlx | 1 => .ok .acq | 2 => .ok .rel | 3 => .ok .ar
  | _ => .error .illegalField

def Scope.ofCode (n : Nat) : D Scope :=
  match n with
  | 0 => .ok .thr | 1 => .ok .cl | 2 => .ok .die | 3 => .ok .dev | 4 => .ok .sys
  | _ => .error .illegalField

def AmoOp.ofCode (n : Nat) : D AmoOp :=
  match n with
  | 0 => .ok .swap | 1 => .ok .add | 2 => .ok .and | 3 => .ok .or | 4 => .ok .xor | 5 => .ok .min | 6 => .ok .max
  | 7 => .ok .incw
  | _ => .error .illegalField

def RedOp.ofCode (n : Nat) : D RedOp :=
  match n with
  | 0 => .ok .add | 1 => .ok .min | 2 => .ok .max
  | _ => .error .unassigned

/-! ### Field groups of the 64-bit format -/

/-- A typed minor: the code in [14:10], bit [15] zero (R70). -/
def Raw64.ty (r : Raw64) : Nat := r.minor.toNat
def Raw64.noMinor (r : Raw64) : D Unit := assigned (r.minor == 0)
def Raw64.noMod (r : Raw64) : D Unit := need (r.mod == 0)
def Raw64.noDst (r : Raw64) : D Unit := need (r.dst == 0)
def Raw64.noA (r : Raw64) : D Unit := need (r.sa == 0)
def Raw64.noB (r : Raw64) : D Unit := need (r.sb == 0)
def Raw64.noImm (r : Raw64) : D Unit := need (r.imm == 0)
/-- imm bits from `lo` upward are zero. -/
def immBelow (imm : W32) (lo : Nat) : D Unit := need (imm.toNat < 2 ^ lo)

def Raw64.op2 (r : Raw64) : D Op2 := do
  let d ← Dst.ofBits r.dst
  let a ← Src.ofBits r.sa
  let b ← Src.ofBits r.sb
  pure ⟨d, a, b, r.imm⟩

def Raw64.op1 (r : Raw64) : D Op1 := do
  let d ← Dst.ofBits r.dst
  let a ← Src.ofBits r.sa
  r.noB
  pure ⟨d, a, r.imm⟩

/-- Integer types of the majors 0x15-0x23 are narrower than 0-7, and an unlisted type is an unassigned minor (R78). -/
def Raw64.int2 (r : Raw64) (ok : IntTy → Bool) (mk : IntTy → Op2 → Instr) : D Instr := do
  let t ← IntTy.ofCode r.ty
  assigned (ok t)
  r.noMod
  let o ← r.op2
  pure (mk t o)

def Raw64.int1 (r : Raw64) (ok : IntTy → Bool) (mk : IntTy → Op1 → Instr) : D Instr := do
  let t ← IntTy.ofCode r.ty
  assigned (ok t)
  r.noMod
  let o ← r.op1
  pure (mk t o)

def Raw64.rnd (r : Raw64) : D Rnd := Rnd.ofCode (r.mod.extractLsb' 0 3).toNat
def Raw64.flag (r : Raw64) : Bool := r.mod.getLsbD 3

def Raw64.fp2 (r : Raw64) (mk : FTy → Rnd → Bool → Op2 → Instr) : D Instr := do
  let t ← FTy.ofCode r.ty
  let rm ← r.rnd
  let o ← r.op2
  pure (mk t rm r.flag o)

def Raw64.f32 (r : Raw64) : D Unit := assigned (r.ty == 9)

def Raw64.fp1 (r : Raw64) (mk : Rnd → Bool → Op1 → Instr) : D Instr := do
  r.f32
  let rm ← r.rnd
  let o ← r.op1
  pure (mk rm r.flag o)

/-- FMIN and FMAX: mod [30:28] zero (R78). -/
def Raw64.fmm (r : Raw64) (mk : FTy → Bool → Op2 → Instr) : D Instr := do
  let t ← FTy.ofCode r.ty
  need (r.mod.extractLsb' 0 3 == 0)
  let o ← r.op2
  pure (mk t r.flag o)

def Raw64.fsgn (r : Raw64) (mk : FTy → Bool → Op1 → Instr) : D Instr := do
  let t ← FTy.ofCode r.ty
  need (r.mod.extractLsb' 0 3 == 0)
  let o ← r.op1
  pure (mk t r.flag o)

/-- The type and scope of a memory major (R71). -/
def Raw64.mem (r : Raw64) : D (IntTy × Scope) := do
  let t ← IntTy.ofCode (r.minor.extractLsb' 0 3).toNat
  let sc ← Scope.ofCode (r.minor.extractLsb' 3 3).toNat
  pure (t, sc)

/-- The .acq of LD and LDP in mod (R226). -/
def Raw64.acq (r : Raw64) : D Bool :=
  if r.mod == 0 then pure false else if r.mod == 1 then pure true else .error .illegalField
/-- The .rel of ST and STP in mod (R226). -/
def Raw64.rel (r : Raw64) : D Bool :=
  if r.mod == 0 then pure false else if r.mod == 2 then pure true else .error .illegalField

def Raw64.ord (r : Raw64) : D Ord := Ord.ofCode r.mod.toNat

/-- An entry with one source and a push, everything else zero (majors 0x84-0x8F, 0xA5, ...). -/
def Raw64.push1 (r : Raw64) (mk : Dst → Src → D Instr) : D Instr := do
  r.noMod
  r.noB
  let d ← Dst.ofBits r.dst
  let a ← Src.ofBits r.sa
  mk d a

/-- An entry with a push and no source. -/
def Raw64.push0 (r : Raw64) (mk : Dst → D Instr) : D Instr := do
  r.noMinor
  r.noMod
  r.noA
  r.noB
  let d ← Dst.ofBits r.dst
  mk d

/-- An entry with one source and no push. -/
def Raw64.sink1 (r : Raw64) (mk : Src → D Instr) : D Instr := do
  r.noMinor
  r.noMod
  r.noB
  r.noDst
  let a ← Src.ofBits r.sa
  mk a

/-- An entry with neither source nor push. -/
def Raw64.bare (r : Raw64) (mk : D Instr) : D Instr := do
  r.noMinor
  r.noMod
  r.noA
  r.noB
  r.noDst
  mk

/-- The record of CANCEL, LVWAIT and LVREAD: a source, or none with self = 1 (R335). -/
def Raw64.level (r : Raw64) : D (Option Src) :=
  if r.imm.getLsbD 3 then do
    r.noA
    pure none
  else do
    let a ← Src.ofBits r.sa
    pure (some a)

def anyTy : IntTy → Bool := fun _ => true
def unsignedTy (t : IntTy) : Bool := !t.signed

/-- The fields of an instruction of the 64-bit class (R78), by major. -/
def Raw64.fields (r : Raw64) : D Instr :=
  match r.major.toNat with
  | 0x01 => r.int2 anyTy .add
  | 0x02 => r.int2 anyTy .addi
  | 0x03 => r.int2 anyTy .sub
  | 0x04 => r.int1 anyTy .neg
  | 0x05 => r.int2 anyTy .mul
  | 0x06 => r.int2 anyTy .and
  | 0x07 => r.int2 anyTy .or
  | 0x08 => r.int2 anyTy .xor
  | 0x09 => r.int2 anyTy .andn
  | 0x0A => r.int1 anyTy .not
  | 0x0B => r.int2 anyTy .shl
  | 0x0C => r.int2 anyTy .shr
  | 0x0D => r.int2 anyTy .rotl
  | 0x0E => r.int1 anyTy .clz
  | 0x0F => r.int1 anyTy .ctz
  | 0x10 => r.int1 anyTy .popc
  | 0x11 => r.int2 anyTy .seq
  | 0x12 => r.int2 anyTy .sel
  | 0x13 => r.int2 anyTy .bfx
  | 0x14 => r.int2 anyTy .bfi
  | 0x15 => r.int2 IntTy.signed .mulh
  | 0x16 => r.int2 IntTy.signed .div
  | 0x17 => r.int2 IntTy.signed .rem
  | 0x18 => r.int2 IntTy.signed .min
  | 0x19 => r.int2 IntTy.signed .max
  | 0x1A => r.int2 IntTy.signed .slt
  | 0x1B => r.int2 IntTy.signed .shra
  | 0x1C => r.int1 IntTy.signed .sext
  | 0x1D => r.int2 unsignedTy .mulhn
  | 0x1E => r.int2 unsignedTy .divn
  | 0x1F => r.int2 unsignedTy .remn
  | 0x20 => r.int2 unsignedTy .minn
  | 0x21 => r.int2 unsignedTy .maxn
  | 0x22 => r.int2 unsignedTy .sltn
  | 0x23 => r.int1 unsignedTy .zext
  | 0x24 => r.push0 fun d => pure (.li d r.imm)
  | 0x25 => do r.noMinor; r.push1 fun d a => pure (.lih d a r.imm)
  | 0x26 => do
    assigned (r.ty < 32); r.noMod; r.noA; r.noB; r.noImm
    let k ← nibOfBits r.dst
    pure (.movk (Fin.ofNat 32 r.ty) k)
  | 0x27 => do
    assigned (r.ty < 32); r.noMod; r.noB; r.noDst
    let a ← Src.ofBits r.sa
    pure (.movg (Fin.ofNat 32 r.ty) a r.imm)
  | 0x28 => do
    assigned (r.ty < 32); r.noMod; r.noA; r.noB; r.noDst
    need (r.imm.extractLsb' 5 3 == 0 && r.imm.extractLsb' 13 19 == 0)
    pure (.movm (Fin.ofNat 32 r.ty) (r.imm.extractLsb' 0 5).toFin (r.imm.extractLsb' 8 5))
  | 0x30 => do
    r.noMinor; r.noDst
    let c ← Cond.ofCode r.mod.toNat
    let a ← Src.ofBits r.sa
    let b ← Src.ofBits r.sb
    pure (.br c a b r.imm)
  | 0x31 => r.bare (pure (.j r.imm))
  | 0x32 => r.push0 fun d => pure (.jl d r.imm)
  | 0x33 => r.sink1 fun a => pure (.jr a r.imm)
  | 0x34 => r.sink1 fun a => pure (.ret a r.imm)
  | 0x35 => do r.noMinor; r.push1 fun d a => pure (.loop d a r.imm)
  | 0x36 => r.bare do
    need (r.imm.extractLsb' 23 9 == 0)
    pure (.rep (r.imm.extractLsb' 0 16) (r.imm.extractLsb' 16 4) (r.imm.extractLsb' 20 3))
  | 0x40 => r.fp2 .fadd
  | 0x41 => r.fp2 .fsub
  | 0x42 => r.fp2 .fmul
  | 0x43 => r.fp2 .ffma
  | 0x44 => do
    r.f32
    let rm ← r.rnd
    let o ← r.op2
    pure (.fdiv rm r.flag o)
  | 0x45 => r.fp1 .fsqrt
  | 0x46 => r.fp1 .fexp2
  | 0x47 => r.fp1 .flog2
  | 0x48 => r.fp1 .frsq
  | 0x49 => r.fmm .fmin
  | 0x4A => r.fmm .fmax
  | 0x4B => r.fsgn .fabs
  | 0x4C => r.fsgn .fneg
  | 0x4D => do
    let t ← FTy.ofCode r.ty
    let c ← Rel.ofCode (r.mod.extractLsb' 0 3).toNat
    let o ← r.op2
    pure (.fcmp t c r.flag o)
  | 0x4E => do
    let t ← ElemTy.ofCode r.ty
    assigned t.conv
    let rm ← r.rnd
    r.noB
    let d ← Dst.ofBits r.dst
    let a ← Src.ofBits r.sa
    immBelow r.imm 6
    pure (.fcvt t rm r.flag (r.imm.extractLsb' 0 6) d a)
  | 0x60 => do
    let (t, sc) ← r.mem
    let q ← r.acq
    r.noB
    let d ← Dst.ofBits r.dst
    let a ← Src.ofBits r.sa
    pure (.ld t sc q d a r.imm)
  | 0x61 => do
    let (t, sc) ← r.mem
    let q ← r.rel
    r.noDst
    let a ← Src.ofBits r.sa
    let b ← Src.ofBits r.sb
    pure (.st t sc q a b r.imm)
  | 0x62 => do
    let (t, sc) ← r.mem
    r.noMod
    let d ← Dst.ofBits r.dst
    let a ← Src.ofBits r.sa
    let b ← Src.ofBits r.sb
    immBelow r.imm 3
    let c ← Cond.ofCode (r.imm.extractLsb' 0 3).toNat
    pure (.ldaq t sc c d a b)
  | 0x63 => do
    let (t, sc) ← r.mem
    r.noMod
    r.noDst
    let a ← Src.ofBits r.sa
    let b ← Src.ofBits r.sb
    pure (.strl t sc a b r.imm)
  | 0x64 => do
    let (t, sc) ← r.mem
    let q ← r.acq
    r.noB
    let k ← nibOfBits r.dst
    let a ← Src.ofBits r.sa
    pure (.ldp t sc q k a r.imm)
  | 0x65 => do
    let (t, sc) ← r.mem
    let q ← r.rel
    r.noDst
    let a ← Src.ofBits r.sa
    let b ← Src.ofBits r.sb
    pure (.stp t sc q a b r.imm)
  | 0x66 => do
    let (t, sc) ← r.mem
    assigned t.atomic
    let o ← r.ord
    let d ← Dst.ofBits r.dst
    let a ← Src.ofBits r.sa
    let b ← Src.ofBits r.sb
    immBelow r.imm 4
    let op ← AmoOp.ofCode r.imm.toNat
    pure (.amo t sc o op d a b)
  | 0x67 => do
    let (t, sc) ← r.mem
    assigned t.atomic
    let o ← r.ord
    r.noImm
    let d ← Dst.ofBits r.dst
    let a ← Src.ofBits r.sa
    let b ← Src.ofBits r.sb
    pure (.cas t sc o d a b)
  | 0x68 => do
    assigned (r.minor.extractLsb' 0 3 == 0)
    let sc ← Scope.ofCode (r.minor.extractLsb' 3 3).toNat
    r.noMod; r.noA; r.noB; r.noDst
    need (r.imm.extractLsb' 5 3 == 0 && r.imm.extractLsb' 13 19 == 0)
    pure (.fence sc (r.imm.extractLsb' 0 5) (r.imm.extractLsb' 8 5))
  | 0x69 => r.bare do
    immBelow r.imm 24
    pure (.waitc (r.imm.extractLsb' 0 6) (r.imm.extractLsb' 6 6) (r.imm.extractLsb' 12 6) (r.imm.extractLsb' 18 6))
  | 0x6A => r.bare do
    immBelow r.imm 14
    pure (.waitcn (r.imm.extractLsb' 0 4).toFin (r.imm.extractLsb' 4 10))
  | 0x6B => do
    r.noMinor; r.noMod; r.noB
    immBelow r.imm 15
    let d ← Dst.ofBits r.dst
    if r.imm.getLsbD 14 then do
      let a ← Src.ofBits r.sa
      pure (.cnset d (r.imm.extractLsb' 0 4).toFin (r.imm.extractLsb' 4 10) (some a))
    else do
      r.noA
      pure (.cnset d (r.imm.extractLsb' 0 4).toFin (r.imm.extractLsb' 4 10) none)
  | 0x6C => r.push0 fun d => do
    immBelow r.imm 4
    pure (.cnget d (r.imm.extractLsb' 0 4).toFin)
  | 0x6D => do r.noMinor; r.push1 fun d a => pure (.galloc d a r.imm)
  | 0x6E => do r.noImm; r.sink1 fun a => pure (.gfree a)
  | 0x80 => r.sink1 fun a => do
    immBelow r.imm 22
    need (!r.imm.getLsbD 20)
    pure (.send a (r.imm.extractLsb' 0 12) (r.imm.extractLsb' 12 3) (r.imm.extractLsb' 15 5).toFin
      (r.imm.getLsbD 21))
  | 0x81 => r.bare do
    immBelow r.imm 1
    pure (.exit (r.imm.getLsbD 0))
  | 0x82 => r.bare do
    immBelow r.imm 16
    pure (.yield (r.imm.extractLsb' 0 16))
  | 0x83 => r.push0 fun d => pure (.park d r.imm)
  | 0x84 => do r.noImm; r.sink1 fun a => pure (.wake a)
  | 0x85 => do
    r.noImm
    if r.minor == 0 then r.push1 fun d a => pure (.launch d a)
    else if r.minor == 1 then r.push1 fun d a => pure (.launchW d a)
    else .error .unassigned
  | 0x86 => do
    r.noMinor
    if r.imm == 0 then r.push1 fun d a => pure (.graphCreate d a)
    else if r.imm == 1 then r.push1 fun d a => pure (.graphClose d a)
    else .error .illegalField
  | 0x87 => do
    r.noMinor
    if r.imm == 0 then r.push1 fun d a => pure (.phaseCreate d a)
    else if r.imm == 1 then r.push1 fun d a => pure (.phaseClose d a)
    else if r.imm == 2 then r.push1 fun d a => pure (.jobClose d a)
    else .error .illegalField
  | 0x88 => do
    r.noMinor; r.noMod; r.noB
    immBelow r.imm 4
    let d ← Dst.ofBits r.dst
    let rc ← r.level
    pure (.cancel d (r.imm.extractLsb' 0 3) rc)
  | 0x89 => do
    r.noMinor; r.noMod; r.noB
    immBelow r.imm 4
    let d ← Dst.ofBits r.dst
    let rc ← r.level
    pure (.lvwait d (r.imm.extractLsb' 0 3) rc)
  | 0x8A => do
    r.noMinor; r.noMod; r.noB
    immBelow r.imm 6
    let d ← Dst.ofBits r.dst
    let rc ← r.level
    pure (.lvread d (r.imm.extractLsb' 0 3) (r.imm.extractLsb' 4 2) rc)
  | 0x8B => r.push0 fun d => do
    immBelow r.imm 4
    pure (.fuse d (r.imm.extractLsb' 0 4))
  | 0x8C => r.bare do
    r.noImm
    pure .split
  | 0x8D => r.push0 fun d => do
    r.noImm
    pure (.laneid d)
  | 0x8E => r.push0 fun d => do
    immBelow r.imm 1
    pure (.coord d (r.imm.getLsbD 0))
  | 0x8F => do r.noMinor; r.noImm; r.push1 fun d a => pure (.spillq d a)
  | 0x90 => r.push0 fun d => do
    immBelow r.imm 6
    pure (.jobset d (r.imm.extractLsb' 0 5) (r.imm.getLsbD 5))
  | 0xA0 => do
    r.noMinor
    if r.imm == 0 then r.push1 fun d a => pure (.stageCreate d a)
    else if r.imm == 1 then r.push1 fun d a => pure (.stageClose d a)
    else if r.imm == 2 then do
      r.noMod
      let d ← Dst.ofBits r.dst
      let a ← Src.ofBits r.sa
      let b ← Src.ofBits r.sb
      pure (.stageThresh d a b)
    else .error .illegalField
  | 0xA1 => r.bare do
    need (r.imm.extractLsb' 6 6 == 0)
    immBelow r.imm 20
    pure (.keysend (r.imm.extractLsb' 0 6) (r.imm.extractLsb' 12 3) (r.imm.extractLsb' 15 5).toFin)
  | 0xA2 => do r.noMinor; r.push1 fun d a => pure (.splitok d a r.imm)
  | 0xA3 => r.bare do
    r.noImm
    pure .mergeok
  | 0xA4 => do
    r.noMinor
    immBelow r.imm 5
    r.push1 fun d a => pure (.krtread d a (r.imm.extractLsb' 0 5))
  | 0xA5 => do r.noMinor; r.noImm; r.push1 fun d a => pure (.qdep d a)
  | 0xB0 => do
    immBelow r.imm 6
    r.sink1 fun a => pure (.tev (r.imm.extractLsb' 0 6) a)
  | 0xB1 => do
    r.noMinor; r.noMod; r.noDst
    immBelow r.imm 28
    let a ← Src.ofBits r.sa
    let b ← Src.ofBits r.sb
    pure (.tevx (r.imm.extractLsb' 0 6) (r.imm.extractLsb' 6 22) a b)
  | 0xB2 => r.push0 fun d => do
    r.noImm
    pure (.tsread d)
  | 0xB3 => r.push0 fun d => do
    immBelow r.imm 22
    pure (.tmark d (r.imm.extractLsb' 0 22))
  | 0xC0 => r.bare do
    immBelow r.imm 16
    pure (.trap (r.imm.extractLsb' 0 16))
  | 0xC1 => r.bare do
    r.noImm
    pure .eret
  | 0xC2 => r.push0 fun d => do
    immBelow r.imm 6
    pure (.rqread d (r.imm.extractLsb' 0 4).toFin (r.imm.extractLsb' 4 2))
  | 0xC3 => do
    immBelow r.imm 6
    r.sink1 fun a => pure (.rqwrite a (r.imm.extractLsb' 0 4).toFin (r.imm.extractLsb' 4 2))
  | 0xC4 => r.push0 fun d => do
    immBelow r.imm 12
    pure (.srr d (r.imm.extractLsb' 0 12))
  | 0xC5 => do
    immBelow r.imm 12
    r.sink1 fun a => pure (if r.imm == 0x32 then .srwTsink a else .srw a (r.imm.extractLsb' 0 12))
  | 0xC6 => r.push0 fun d => do
    immBelow r.imm 8
    pure (.ckpt d (r.imm.extractLsb' 0 8))
  | 0xC7 => do r.noMinor; r.noImm; r.push1 fun d a => pure (.rback d a)
  | 0xC8 => r.bare do
    immBelow r.imm 16
    pure (.kill (r.imm.extractLsb' 0 16))
  | 0xC9 => r.bare do
    r.noImm
    pure .nop
  | 0xCA => r.bare do
    r.noImm
    pure .fill
  | 0xCB => r.bare do
    immBelow r.imm 16
    pure (.brk (r.imm.extractLsb' 0 16))
  | 0xCC => r.bare do
    r.noImm
    pure .halt
  | _ => .error .unassigned

/-! ### Field groups of the 96-bit format -/

def Raw96.noMinor (r : Raw96) : D Unit := assigned (r.minor == 0)
def Raw96.noA (r : Raw96) : D Unit := need (r.pa == 0)
def Raw96.noB (r : Raw96) : D Unit := need (r.pb == 0)
def Raw96.noD (r : Raw96) : D Unit := need (r.pd == 0)
def Raw96.noImmA (r : Raw96) : D Unit := need (r.immA == 0)
def Raw96.noImmB (r : Raw96) : D Unit := need (r.immB == 0)
/-- immB [31:5] has no use in most vector entries. -/
def Raw96.ctl (r : Raw96) : D (BitVec 5) := do
  immBelow r.immB 5
  pure (r.immB.extractLsb' 0 5)

/-- The common operand layout of R139; `sl` is the part of sel that the entry uses. -/
def Raw96.vop (r : Raw96) (selBits : Nat) : D VOp := do
  immBelow r.immA (3 + selBits)
  let c ← r.ctl
  pure { mask := r.mask.toFin, pa := r.pa.toFin, pb := r.pb.toFin, pd := r.pd.toFin,
         asel := r.immA.getLsbD 0, bsel := r.immA.getLsbD 1, dsel := r.immA.getLsbD 2, ctl := c }

def Raw96.vec (r : Raw96) (mk : LaneTy → VOp → Instr) : D Instr := do
  r.noMinor
  let t ← LaneTy.ofCode r.type.toNat
  let o ← r.vop 0
  pure (mk t o)

def Raw96.vecF (r : Raw96) (mk : VOp → Instr) : D Instr := do
  r.noMinor
  need (r.type == 9)
  let o ← r.vop 0
  pure (mk o)

/-- Pointer, bit-granular, handle and copy entries: mask and type zero (R80). -/
def Raw96.plain (r : Raw96) : D Unit := do
  r.noMinor
  need (r.mask == 0 && r.type == 0)

/-- A handle entry (R268): no pointer, immA [31:9] zero. -/
def Raw96.handle (r : Raw96) (mk : BitVec 8 → Bool → D Instr) : D Instr := do
  r.plain; r.noA; r.noB; r.noD
  immBelow r.immA 9
  mk (r.immA.extractLsb' 0 8) (r.immA.getLsbD 8)

/-- A handle entry with immA [8] zero. -/
def Raw96.handle0 (r : Raw96) (mk : BitVec 8 → D Instr) : D Instr :=
  r.handle fun h x => do
    need (!x)
    mk h

/-- The fields of an instruction of the 96-bit class (R80), by major. -/
def Raw96.fields (r : Raw96) : D Instr :=
  match r.major.toNat with
  | 0x00 => do
    r.noMinor; r.noB; r.noD; r.noImmA
    let t ← ElemTy.ofCode r.type.toNat
    let c ← r.ctl
    pure (.vla t r.mask.toFin r.pa.toFin c)
  | 0x01 => do
    r.noMinor; r.noA; r.noB; r.noImmA
    let t ← ElemTy.ofCode r.type.toNat
    let c ← r.ctl
    pure (.vsa t r.mask.toFin r.pd.toFin c)
  | 0x02 => do
    r.noMinor; r.noA; r.noB; r.noD
    immBelow r.immA 2
    let t ← ElemTy.ofCode r.type.toNat
    let c ← r.ctl
    pure (.vcvt t r.mask.toFin (r.immA.extractLsb' 0 2) c)
  | 0x03 => r.vec .vadd
  | 0x04 => r.vec .vsub
  | 0x05 => r.vec .vmul
  | 0x06 => r.vec .vmin
  | 0x07 => r.vec .vmax
  | 0x08 => do
    let op ← RedOp.ofCode r.minor.toNat
    let t ← LaneTy.ofCode r.type.toNat
    let o ← r.vop 0
    pure (.vred t op o)
  | 0x09 => do
    assigned (r.minor.toNat < 8)
    let c ← Rel.ofCode r.minor.toNat
    let t ← LaneTy.ofCode r.type.toNat
    let o ← r.vop 3
    if r.immA.getLsbD 3 then pure (.vcmp t c (some (r.immA.extractLsb' 4 2).toFin) o)
    else do
      need (r.immA.extractLsb' 4 2 == 0)
      pure (.vcmp t c none o)
  | 0x0A => r.vec .vbcast
  | 0x0B => r.vec .vscl
  | 0x0C => do
    r.noMinor
    let t ← LaneTy.ofCode r.type.toNat
    let o ← r.vop 2
    pure (.vsel t (r.immA.extractLsb' 3 2).toFin o)
  | 0x0D => do
    r.noMinor; r.noA; r.noB
    let t ← LaneTy.ofCode r.type.toNat
    need (r.immB.extractLsb' 6 10 == 0)
    pure (.vidx t r.mask.toFin r.pd.toFin (r.immB.getLsbD 5) r.immA (r.immB.extractLsb' 16 16)
      (r.immB.extractLsb' 0 5))
  | 0x0E => r.vec .vperm
  | 0x0F => do
    r.noMinor; r.noD; r.noImmA
    let t ← LaneTy.ofCode r.type.toNat
    let c ← r.ctl
    pure (.vgath t r.mask.toFin r.pa.toFin r.pb.toFin c)
  | 0x10 => do
    r.noMinor; r.noA; r.noImmA
    let t ← LaneTy.ofCode r.type.toNat
    let c ← r.ctl
    pure (.vscat t r.mask.toFin r.pb.toFin r.pd.toFin c)
  | 0x11 => r.vec .vabs
  | 0x12 => r.vec .vand
  | 0x13 => r.vec .vor
  | 0x14 => r.vec .vxor
  | 0x15 => r.vec .vshl
  | 0x16 => r.vec .vshr
  | 0x17 => r.vecF .vfma
  | 0x18 => r.vecF .vexp2
  | 0x19 => r.vecF .vrsq
  | 0x1A => r.vecF .vrcp
  | 0x40 => do
    r.plain; r.noA; r.noB
    immBelow r.immB 17
    pure (.pset r.pd.toFin r.immA (r.immB.extractLsb' 0 16) (r.immB.getLsbD 16))
  | 0x41 => do
    r.plain; r.noA; r.noB; r.noImmB
    pure (.padv r.pd.toFin r.immA)
  | 0x42 => do
    r.plain; r.noB; r.noD; r.noImmA; r.noImmB
    pure (.pget r.pa.toFin)
  | 0x43 => do
    r.plain; r.noA; r.noB; r.noD
    immBelow r.immB 4
    pure (.baset r.immA (r.immB.extractLsb' 0 3) (r.immB.getLsbD 3))
  | 0x44 => do
    r.plain; r.noA; r.noB; r.noD; r.noImmB
    immBelow r.immA 7
    pure (.ldb (r.immA.extractLsb' 0 6) (r.immA.getLsbD 6))
  | 0x45 => do
    r.plain; r.noA; r.noB; r.noD; r.noImmB
    immBelow r.immA 6
    pure (.stb (r.immA.extractLsb' 0 6))
  | 0x60 => do
    r.plain; r.noA; r.noB; r.noD
    immBelow r.immA 10
    if r.immA.getLsbD 3 then do
      need (r.immA.extractLsb' 4 6 == 0 && r.immB == 0)
      pure (.chainResume (r.immA.extractLsb' 0 3).toFin)
    else do
      need (!r.immA.getLsbD 9 || r.immB == 0)
      pure (.chain (r.immA.extractLsb' 0 3).toFin (r.immA.extractLsb' 4 4).toFin (r.immA.getLsbD 8)
        (if r.immA.getLsbD 9 then none else some r.immB))
  | 0x61 => r.handle fun h x => do
    r.noImmB
    need (h.extractLsb' 3 5 == 0)
    pure (.cstat (h.extractLsb' 0 3).toFin x)
  | 0x62 => r.handle fun h x =>
    if x then do
      r.noImmB
      pure (.hcfgRearm h)
    else pure (.hcfg h r.immB)
  | 0x63 => r.handle fun h x => do
    r.noImmB
    pure (.hacq h x)
  | 0x64 => r.handle fun h x => do
    r.noImmB
    pure (.hrel h x)
  | 0x65 => r.handle0 fun h => do
    r.noImmB
    pure (.hstate h)
  | 0x66 => r.handle0 fun h => do
    immBelow r.immB 13
    pure (.rpost h (r.immB.extractLsb' 0 13))
  | 0x67 => r.handle0 fun h => do
    r.noImmB
    pure (.rtake h)
  | 0x68 => r.handle0 fun h => pure (.barr h r.immB)
  | 0x69 => r.handle0 fun h => pure (.bexp h r.immB)
  | 0x6A => r.handle0 fun h => do
    r.noImmB
    pure (.btest h)
  | 0x6B => r.handle0 fun h => do
    r.noImmB
    pure (.bwait h)
  | _ => .error .unassigned

/-! ### Field groups of the 128-bit format -/

def Raw128.noMinor (r : Raw128) : D Unit := assigned (r.minor == 0)
def Raw128.noMod (r : Raw128) : D Unit := need (r.mod == 0)
def Raw128.noDst (r : Raw128) : D Unit := need (r.dst == 0)
def Raw128.noA (r : Raw128) : D Unit := need (r.sa == 0)
def Raw128.noB (r : Raw128) : D Unit := need (r.sb == 0)
def Raw128.noImm (r : Raw128) : D Unit := need (r.imm == 0)
/-- opnd bits from `lo` upward are zero. -/
def Raw128.opndTop (r : Raw128) (lo : Nat) : D Unit := need (r.opnd.toNat < 2 ^ lo)
def Raw128.rnd (r : Raw128) : D Rnd := Rnd.ofCode (r.mod.extractLsb' 0 3).toNat
def Raw128.flag (r : Raw128) : Bool := r.mod.getLsbD 3

/-- The fields of an array command (R168). -/
def Raw128.mop (r : Raw128) : D MOp := do
  r.noDst
  let a ← Src.ofBits r.sa
  let b ← Src.ofBits r.sb
  pure ⟨a, b, r.imm, r.opnd⟩

def Raw128.cmd (r : Raw128) (mk : MOp → Instr) : D Instr := do
  r.noMinor
  r.noMod
  let o ← r.mop
  pure (mk o)

/-- MMOVE and MLOAD. -/
def Raw128.move (r : Raw128) (mk : ElemTy → Rnd → Bool → MOp → Instr) : D Instr := do
  let t ← ElemTy.ofCode r.minor.toNat
  assigned t.mmove
  let rm ← r.rnd
  let o ← r.mop
  pure (mk t rm r.flag o)

/-- MAP and GRANT (R390). -/
def Raw128.mapping (r : Raw128)
    (mk : Dst → Src → Src → W32 → BitVec 12 → BitVec 6 → BitVec 5 → BitVec 3 → Instr) : D Instr := do
  r.noMinor
  r.noMod
  let d ← Dst.ofBits r.dst
  let a ← Src.ofBits r.sa
  let b ← Src.ofBits r.sb
  r.opndTop 26
  pure (mk d a b r.imm (r.opnd.extractLsb' 0 12) (r.opnd.extractLsb' 12 6) (r.opnd.extractLsb' 18 5)
    (r.opnd.extractLsb' 23 3))

/-- The two references of an engine far-access entry (R261). -/
def Raw128.far (r : Raw128) : D (Src × Src) := do
  r.noMinor
  r.noMod
  let a ← Src.ofBits r.sa
  let b ← Src.ofBits r.sb
  pure (a, b)

def Raw128.scope (r : Raw128) : D Scope := Scope.ofCode (r.opnd.extractLsb' 0 3).toNat

/-- The fields of an instruction of the 128-bit class (R81), by major. -/
def Raw128.fields (r : Raw128) : D Instr :=
  match r.major.toNat with
  | 0x00 => do
    r.noMinor; r.noMod; r.noA; r.noB; r.noDst; r.noImm; r.opndTop 1
    pure (.mlease (r.opnd.getLsbD 0))
  | 0x01 => do
    r.noMinor; r.noMod; r.noA; r.noB; r.noDst; r.noImm; r.opndTop 0
    pure .mrel
  | 0x02 => do
    r.noMinor; r.noMod; r.noB; r.noImm
    let d ← Dst.ofBits r.dst
    let a ← Src.ofBits r.sa
    pure (.mjob d a r.opnd)
  | 0x03 => r.cmd .mmask
  | 0x04 => r.cmd .mprec
  | 0x05 => r.cmd .mzero
  | 0x06 => do
    let t ← ElemTy.ofCode r.minor.toNat
    assigned t.mmul
    need (!r.flag)
    let rm ← r.rnd
    let o ← r.mop
    pure (.mmul t rm o)
  | 0x07 => do
    let t ← ElemTy.ofCode r.minor.toNat
    assigned t.block
    r.noMod
    let o ← r.mop
    pure (.mmulb t o)
  | 0x08 => do
    r.noMinor
    need (!r.flag)
    let rm ← r.rnd
    let o ← r.mop
    pure (.msca rm o)
  | 0x09 => r.cmd .msendt
  | 0x0A => r.cmd .mrecvt
  | 0x0B => r.move .mmove
  | 0x0C => r.move .mload
  | 0x0D => do
    r.noMinor; r.noMod; r.noB; r.noImm
    let d ← Dst.ofBits r.dst
    let a ← Src.ofBits r.sa
    pure (.mtest d a r.opnd)
  | 0x0E => do
    r.noMinor; r.noMod; r.noA; r.noB; r.noImm; r.opndTop 2
    let d ← Dst.ofBits r.dst
    pure (.mstat d (r.opnd.extractLsb' 0 2))
  | 0x0F => r.cmd .e8cvt
  | 0x20 => r.mapping .map
  | 0x21 => r.mapping .grant
  | 0x22 => do
    assigned (r.minor.toNat < 2)
    r.noMod; r.noB; r.noImm
    let d ← Dst.ofBits r.dst
    let a ← Src.ofBits r.sa
    if r.minor == 0 then do
      r.opndTop 1
      pure (.unmap d a (r.opnd.getLsbD 0))
    else do
      r.opndTop 31
      pure (.unmapAsync d a (r.opnd.getLsbD 0) (r.opnd.extractLsb' 1 18) (r.opnd.extractLsb' 19 12))
  | 0x23 => do
    r.noMinor; r.noMod; r.noB; r.noImm
    let d ← Dst.ofBits r.dst
    if r.opnd.getLsbD 0 then do
      let a ← Src.ofBits r.sa
      r.opndTop 59
      pure (.acceptOpen d a (r.opnd.extractLsb' 1 6) (r.opnd.extractLsb' 7 6) (r.opnd.extractLsb' 13 3)
        (r.opnd.extractLsb' 16 12) (r.opnd.getLsbD 28) (r.opnd.extractLsb' 29 18) (r.opnd.extractLsb' 47 12))
    else do
      r.noA; r.opndTop 7
      pure (.acceptClose d (.wet 0) (r.opnd.extractLsb' 1 6))
  | 0x24 => do
    r.noMinor; r.noMod; r.noB; r.noImm; r.opndTop 2
    let d ← Dst.ofBits r.dst
    let a ← Src.ofBits r.sa
    pure (.mquery d a (r.opnd.extractLsb' 0 2))
  | 0x25 => do
    r.noMinor; r.noMod; r.noB; r.noImm; r.opndTop 5
    let d ← Dst.ofBits r.dst
    let a ← Src.ofBits r.sa
    pure (.xflush d a (r.opnd.extractLsb' 0 5))
  | 0x30 => do
    let (a, b) ← r.far
    r.noDst; r.noImm; r.opndTop 4
    let sc ← r.scope
    pure (.xld a b sc (r.opnd.getLsbD 3))
  | 0x31 => do
    let (a, b) ← r.far
    r.noDst; r.noImm; r.opndTop 4
    let sc ← r.scope
    pure (.xst a b sc (r.opnd.getLsbD 3))
  | 0x32 => do
    let (a, b) ← r.far
    r.noDst; r.opndTop 22
    immBelow r.imm 13
    let sc ← r.scope
    pure (.xburst a b (r.imm.extractLsb' 0 13) sc (r.opnd.extractLsb' 3 18) (r.opnd.getLsbD 21))
  | 0x33 => do
    let (a, b) ← r.far
    r.noDst; r.opndTop 0
    immBelow r.imm 7
    pure (.planew a b (r.imm.extractLsb' 0 7))
  | 0x34 => do
    let (a, b) ← r.far
    r.noDst; r.noImm; r.opndTop 3
    let sc ← r.scope
    pure (.mbox a b sc)
  | 0x35 => do
    let (a, b) ← r.far
    r.noImm; r.opndTop 3
    let d ← Dst.ofBits r.dst
    let sc ← r.scope
    pure (.crec d a b sc)
  | 0x40 => do
    r.noMinor; r.noMod; r.noB; r.noDst; r.opndTop 52
    need (!r.opnd.getLsbD 33)
    let a ← Src.ofBits r.sa
    pure (.sendx a r.imm (r.opnd.extractLsb' 0 18) (r.opnd.extractLsb' 18 12) (r.opnd.extractLsb' 30 3)
      (r.opnd.getLsbD 34) (r.opnd.extractLsb' 35 16) (r.opnd.getLsbD 51))
  | _ => .error .unassigned

def Enc.fields : Enc → D Instr
  | .e64 r => r.fields
  | .e96 r => r.fields
  | .e128 r => r.fields

/-- R76 steps 4 and 5: the instruction that the fields name, with every check of its entry.
(log 17, DEDUCED; log 89, DEDUCED; log 132, DEDUCED) -/
def decodeEnc (e : Enc) : D Instr := do
  let i ← e.fields
  need i.wf
  pure i

/-- Decode the instruction at the head of a byte string; the bytes after it are left over. -/
def decodeBytes (bs : List Byte) : D (Instr × List Byte) :=
  match bs with
  | [] => .error .fetchAddress
  | b0 :: _ =>
    match lengthOf b0 with
    | none => .error .lengthCode
    | some n =>
      if bs.length < n then .error .fetchAddress
      else
        match Enc.ofNat (leNat (bs.take n)) with
        | none => .error .lengthCode
        | some e =>
          match decodeEnc e with
          | .error x => .error x
          | .ok i => .ok (i, bs.drop n)

/-- What the decoder reads from the bits of a table row, laid out little-endian (R61), zero above `nbits`. -/
def decodeTableWord (nbits w : Nat) : Option Instr :=
  match decodeBytes (leBytes 16 (w % 2 ^ nbits)) with
  | .ok (i, _) => some i
  | .error _ => none

/-! ### The encoder -/

def Raw64.pack (r : Raw64) : BitVec 64 := r.imm ++ r.mod ++ r.sb ++ r.sa ++ r.dst ++ r.minor ++ r.major ++ (0 : BitVec 2)
def Raw96.pack (r : Raw96) : BitVec 96 :=
  r.immB ++ r.immA ++ r.type ++ r.mask ++ r.pd ++ r.pb ++ r.pa ++ r.minor ++ r.major ++ (1 : BitVec 2)
def Raw128.pack (r : Raw128) : BitVec 128 :=
  r.opnd ++ r.imm ++ r.mod ++ r.sb ++ r.sa ++ r.dst ++ r.minor ++ r.major ++ (2 : BitVec 2)

/-- The instruction word of the fields, as a number; byte 0 is bits [7:0] (R61). -/
def Enc.toNat : Enc → Nat
  | .e64 r => r.pack.toNat
  | .e96 r => r.pack.toNat
  | .e128 r => r.pack.toNat

def Enc.bytes (e : Enc) : List Byte := leBytes e.size e.toNat

def Src.bits : Src → BitVec 4
  | .wet i => BitVec.ofNat 4 i.val
  | .nib j => BitVec.ofNat 4 (4 + j.val)
  | .zero => 0xC
  | .imm => 0xD
  | .coord => 0xE

def nibBits (j : Fin 8) : BitVec 4 := BitVec.ofNat 4 (4 + j.val)

def Dst.bits : Dst → BitVec 4
  | .wet => 0
  | .nib j => nibBits j

def IntTy.code : IntTy → Nat
  | .i8 => 0 | .i16 => 1 | .i32 => 2 | .i64 => 3 | .n8 => 4 | .n16 => 5 | .n32 => 6 | .n64 => 7

def ElemTy.code : ElemTy → Nat
  | .i8 => 0 | .i16 => 1 | .i32 => 2 | .i64 => 3 | .n8 => 4 | .n16 => 5 | .n32 => 6 | .n64 => 7
  | .bf16 => 8 | .f32 => 9 | .e4 => 10 | .e5 => 11 | .f4 => 12 | .t8 => 13 | .f4x => 14 | .e4x => 15 | .i4 => 16

def FTy.code : FTy → Nat
  | .bf16 => 8 | .f32 => 9

def LaneTy.code : LaneTy → Nat
  | .i32 => 2 | .n32 => 6 | .f32 => 9

def Rnd.code : Rnd → Nat
  | .rne => 0 | .rtz => 1 | .rup => 2 | .rdn => 3 | .rna => 4 | .rsr => 5

def Cond.code : Cond → Nat
  | .eq => 0 | .ne => 1 | .lt => 2 | .ge => 3 | .ltn => 4 | .gen => 5 | .z => 6 | .nz => 7

def Rel.code : Rel → Nat
  | .eq => 0 | .ne => 1 | .lt => 2 | .le => 3 | .gt => 4 | .ge => 5 | .un => 6 | .ord => 7

def Ord.code : Ord → Nat
  | .rlx => 0 | .acq => 1 | .rel => 2 | .ar => 3

def Scope.code : Scope → Nat
  | .thr => 0 | .cl => 1 | .die => 2 | .dev => 3 | .sys => 4

def AmoOp.code : AmoOp → Nat
  | .swap => 0 | .add => 1 | .and => 2 | .or => 3 | .xor => 4 | .min => 5 | .max => 6 | .incw => 7

def RedOp.code : RedOp → Nat
  | .add => 0 | .min => 1 | .max => 2

/-- A 64-bit word with all fields but the major zero; entries fill in theirs. -/
def raw64 (major : BitVec 8) : Raw64 := ⟨major, 0, 0, 0, 0, 0, 0⟩

def enc64 (r : Raw64) : Option Enc := some (.e64 r)

def encInt2 (major : BitVec 8) (t : IntTy) (o : Op2) : Option Enc :=
  enc64 ⟨major, BitVec.ofNat 6 t.code, o.dst.bits, o.a.bits, o.b.bits, 0, o.imm⟩

def encInt1 (major : BitVec 8) (t : IntTy) (o : Op1) : Option Enc :=
  enc64 ⟨major, BitVec.ofNat 6 t.code, o.dst.bits, o.a.bits, 0, 0, o.imm⟩

/-- mod: a rounding code or relation in [30:28], a flag in [31] (R71). -/
def modBits (flag : Bool) (code : Nat) : BitVec 4 := BitVec.ofBool flag ++ BitVec.ofNat 3 code

def encFp2 (major : BitVec 8) (t : Nat) (m : BitVec 4) (o : Op2) : Option Enc :=
  enc64 ⟨major, BitVec.ofNat 6 t, o.dst.bits, o.a.bits, o.b.bits, m, o.imm⟩

def encFp1 (major : BitVec 8) (t : Nat) (m : BitVec 4) (o : Op1) : Option Enc :=
  enc64 ⟨major, BitVec.ofNat 6 t, o.dst.bits, o.a.bits, 0, m, o.imm⟩

/-- The minor of a memory major: scope [15:13], type [12:10] (R71). -/
def memMinor (t : IntTy) (sc : Scope) : BitVec 6 := BitVec.ofNat 3 sc.code ++ BitVec.ofNat 3 t.code

def encPush1 (major : BitVec 8) (d : Dst) (a : Src) (imm : W32) : Option Enc :=
  enc64 { raw64 major with dst := d.bits, sa := a.bits, imm := imm }

def encPush0 (major : BitVec 8) (d : Dst) (imm : W32) : Option Enc :=
  enc64 { raw64 major with dst := d.bits, imm := imm }

def encSink1 (major : BitVec 8) (a : Src) (imm : W32) : Option Enc :=
  enc64 { raw64 major with sa := a.bits, imm := imm }

def encBare (major : BitVec 8) (imm : W32) : Option Enc := enc64 { raw64 major with imm := imm }

/-- CANCEL, LVWAIT and LVREAD: sa and the self bit (R335). -/
def levelSa : Option Src → BitVec 4
  | none => 0
  | some a => a.bits

def levelImm (level : BitVec 3) (rec : Option Src) (s : BitVec 2) : W32 :=
  (0 : BitVec 26) ++ s ++ BitVec.ofBool rec.isNone ++ level

def raw96 (major : BitVec 8) : Raw96 := ⟨major, 0, 0, 0, 0, 0, 0, 0, 0⟩

def enc96 (r : Raw96) : Option Enc := some (.e96 r)

/-- immA of the common layout (R139). -/
def vopImmA (o : VOp) (s : BitVec 3) : W32 :=
  (0 : BitVec 26) ++ s ++ BitVec.ofBool o.dsel ++ BitVec.ofBool o.bsel ++ BitVec.ofBool o.asel

def ctlImmB (c : BitVec 5) : W32 := (0 : BitVec 27) ++ c

def encVec (major : BitVec 8) (minor t : Nat) (s : BitVec 3) (o : VOp) : Option Enc :=
  enc96 ⟨major, BitVec.ofNat 6 minor, BitVec.ofFin o.pa, BitVec.ofFin o.pb, BitVec.ofFin o.pd, BitVec.ofFin o.mask,
    BitVec.ofNat 5 t, vopImmA o s, ctlImmB o.ctl⟩

/-- VCMP's sel: [0] write the mask pair, [2:1] which (R146). -/
def cmpSel : Option (Fin 4) → BitVec 3
  | none => 0
  | some m => (BitVec.ofFin m : BitVec 2) ++ (1 : BitVec 1)

def handleImmA (h : BitVec 8) (x : Bool) : W32 := (0 : BitVec 23) ++ BitVec.ofBool x ++ h

def encHandle (major : BitVec 8) (h : BitVec 8) (x : Bool) (immB : W32) : Option Enc :=
  enc96 { raw96 major with immA := handleImmA h x, immB := immB }

def raw128 (major : BitVec 8) : Raw128 := ⟨major, 0, 0, 0, 0, 0, 0, 0⟩

def enc128 (r : Raw128) : Option Enc := some (.e128 r)

def encCmd (major : BitVec 8) (minor : Nat) (m : BitVec 4) (o : MOp) : Option Enc :=
  enc128 ⟨major, BitVec.ofNat 6 minor, 0, o.off.bits, o.ioff.bits, m, o.imm, o.opnd⟩

def encMapping (major : BitVec 8) (d : Dst) (a b : Src) (cookie : W32) (rctx : BitVec 12) (win : BitVec 6)
    (lg : BitVec 5) (rights : BitVec 3) : Option Enc :=
  enc128 { raw128 major with dst := d.bits, sa := a.bits, sb := b.bits, imm := cookie,
                             opnd := (0 : BitVec 38) ++ rights ++ lg ++ win ++ rctx }

def encFar (major : BitVec 8) (a b : Src) (imm : W32) (opnd : Word) : Option Enc :=
  enc128 { raw128 major with sa := a.bits, sb := b.bits, imm := imm, opnd := opnd }

def scopeBits (sc : Scope) : BitVec 3 := BitVec.ofNat 3 sc.code

/-- The fields of an instruction's word, written from the same tables; the machine's other steps have none. -/
def encode : Instr → Option Enc
  | .add t o => encInt2 0x01 t o
  | .addi t o => encInt2 0x02 t o
  | .sub t o => encInt2 0x03 t o
  | .neg t o => encInt1 0x04 t o
  | .mul t o => encInt2 0x05 t o
  | .and t o => encInt2 0x06 t o
  | .or t o => encInt2 0x07 t o
  | .xor t o => encInt2 0x08 t o
  | .andn t o => encInt2 0x09 t o
  | .not t o => encInt1 0x0A t o
  | .shl t o => encInt2 0x0B t o
  | .shr t o => encInt2 0x0C t o
  | .rotl t o => encInt2 0x0D t o
  | .clz t o => encInt1 0x0E t o
  | .ctz t o => encInt1 0x0F t o
  | .popc t o => encInt1 0x10 t o
  | .seq t o => encInt2 0x11 t o
  | .sel t o => encInt2 0x12 t o
  | .bfx t o => encInt2 0x13 t o
  | .bfi t o => encInt2 0x14 t o
  | .mulh t o => encInt2 0x15 t o
  | .div t o => encInt2 0x16 t o
  | .rem t o => encInt2 0x17 t o
  | .min t o => encInt2 0x18 t o
  | .max t o => encInt2 0x19 t o
  | .slt t o => encInt2 0x1A t o
  | .shra t o => encInt2 0x1B t o
  | .sext t o => encInt1 0x1C t o
  | .mulhn t o => encInt2 0x1D t o
  | .divn t o => encInt2 0x1E t o
  | .remn t o => encInt2 0x1F t o
  | .minn t o => encInt2 0x20 t o
  | .maxn t o => encInt2 0x21 t o
  | .sltn t o => encInt2 0x22 t o
  | .zext t o => encInt1 0x23 t o
  | .li d imm => encPush0 0x24 d imm
  | .lih d a imm => encPush1 0x25 d a imm
  | .movk g k => enc64 { raw64 0x26 with minor := BitVec.ofNat 6 g.val, dst := nibBits k }
  | .movg g a imm => enc64 { raw64 0x27 with minor := BitVec.ofNat 6 g.val, sa := a.bits, imm := imm }
  | .movm src dst cnt =>
    enc64 { raw64 0x28 with minor := BitVec.ofNat 6 src.val,
                            imm := (0 : BitVec 19) ++ cnt ++ (0 : BitVec 3) ++ (BitVec.ofFin dst : BitVec 5) }
  | .br c a b off =>
    enc64 { raw64 0x30 with sa := a.bits, sb := b.bits, mod := BitVec.ofNat 4 c.code, imm := off }
  | .j off => encBare 0x31 off
  | .jl d off => encPush0 0x32 d off
  | .jr a imm => encSink1 0x33 a imm
  | .ret a imm => encSink1 0x34 a imm
  | .loop d a off => encPush1 0x35 d a off
  | .rep n len stag => encBare 0x36 ((0 : BitVec 9) ++ stag ++ len ++ n)
  | .fadd t rm f o => encFp2 0x40 t.code (modBits f rm.code) o
  | .fsub t rm f o => encFp2 0x41 t.code (modBits f rm.code) o
  | .fmul t rm f o => encFp2 0x42 t.code (modBits f rm.code) o
  | .ffma t rm f o => encFp2 0x43 t.code (modBits f rm.code) o
  | .fdiv rm f o => encFp2 0x44 9 (modBits f rm.code) o
  | .fsqrt rm f o => encFp1 0x45 9 (modBits f rm.code) o
  | .fexp2 rm f o => encFp1 0x46 9 (modBits f rm.code) o
  | .flog2 rm f o => encFp1 0x47 9 (modBits f rm.code) o
  | .frsq rm f o => encFp1 0x48 9 (modBits f rm.code) o
  | .fmin t f o => encFp2 0x49 t.code (modBits f 0) o
  | .fmax t f o => encFp2 0x4A t.code (modBits f 0) o
  | .fabs t f o => encFp1 0x4B t.code (modBits f 0) o
  | .fneg t f o => encFp1 0x4C t.code (modBits f 0) o
  | .fcmp t c f o => encFp2 0x4D t.code (modBits f c.code) o
  | .fcvt ty rm nan src d a =>
    enc64 { raw64 0x4E with minor := BitVec.ofNat 6 ty.code, dst := d.bits, sa := a.bits, mod := modBits nan rm.code,
                            imm := (0 : BitVec 26) ++ src }
  | .ld t sc q d a off =>
    enc64 { raw64 0x60 with minor := memMinor t sc, dst := d.bits, sa := a.bits, mod := modBits false q.toNat,
                            imm := off }
  | .st t sc q a b off =>
    enc64 { raw64 0x61 with minor := memMinor t sc, sa := a.bits, sb := b.bits, mod := modBits false (2 * q.toNat),
                            imm := off }
  | .ldaq t sc c d a b =>
    enc64 { raw64 0x62 with minor := memMinor t sc, dst := d.bits, sa := a.bits, sb := b.bits,
                            imm := BitVec.ofNat 32 c.code }
  | .strl t sc a b off => enc64 { raw64 0x63 with minor := memMinor t sc, sa := a.bits, sb := b.bits, imm := off }
  | .ldp t sc q k a off =>
    enc64 { raw64 0x64 with minor := memMinor t sc, dst := nibBits k, sa := a.bits, mod := modBits false q.toNat,
                            imm := off }
  | .stp t sc q a b off =>
    enc64 { raw64 0x65 with minor := memMinor t sc, sa := a.bits, sb := b.bits, mod := modBits false (2 * q.toNat),
                            imm := off }
  | .amo t sc o op d a b =>
    enc64 { raw64 0x66 with minor := memMinor t sc, dst := d.bits, sa := a.bits, sb := b.bits,
                            mod := BitVec.ofNat 4 o.code, imm := BitVec.ofNat 32 op.code }
  | .cas t sc o d a b =>
    enc64 { raw64 0x67 with minor := memMinor t sc, dst := d.bits, sa := a.bits, sb := b.bits,
                            mod := BitVec.ofNat 4 o.code }
  | .fence sc pred succ =>
    enc64 { raw64 0x68 with minor := BitVec.ofNat 3 sc.code ++ (0 : BitVec 3),
                            imm := (0 : BitVec 19) ++ succ ++ (0 : BitVec 3) ++ pred }
  | .waitc ld st cp tl => encBare 0x69 ((0 : BitVec 8) ++ tl ++ cp ++ st ++ ld)
  | .waitcn x thr => encBare 0x6A ((0 : BitVec 18) ++ thr ++ (BitVec.ofFin x : BitVec 4))
  | .cnset d x v none => encPush0 0x6B d ((0 : BitVec 18) ++ v ++ (BitVec.ofFin x : BitVec 4))
  | .cnset d x v (some a) =>
    encPush1 0x6B d a ((0 : BitVec 17) ++ (1 : BitVec 1) ++ v ++ (BitVec.ofFin x : BitVec 4))
  | .cnget d x => encPush0 0x6C d ((0 : BitVec 28) ++ (BitVec.ofFin x : BitVec 4))
  | .galloc d a imm => encPush1 0x6D d a imm
  | .gfree a => encSink1 0x6E a 0
  | .send dest handler words gbase sys =>
    encSink1 0x80 dest ((0 : BitVec 10) ++ BitVec.ofBool sys ++ (0 : BitVec 1) ++ (BitVec.ofFin gbase : BitVec 5) ++
      words ++ handler)
  | .exit err => encBare 0x81 ((0 : BitVec 31) ++ BitVec.ofBool err)
  | .yield c => encBare 0x82 ((0 : BitVec 16) ++ c)
  | .park d c => encPush0 0x83 d c
  | .wake a => encSink1 0x84 a 0
  | .launch d a => encPush1 0x85 d a 0
  | .launchW d a => enc64 { raw64 0x85 with minor := 1, dst := d.bits, sa := a.bits }
  | .graphCreate d a => encPush1 0x86 d a 0
  | .graphClose d a => encPush1 0x86 d a 1
  | .phaseCreate d a => encPush1 0x87 d a 0
  | .phaseClose d a => encPush1 0x87 d a 1
  | .jobClose d a => encPush1 0x87 d a 2
  | .cancel d level rc => enc64 { raw64 0x88 with dst := d.bits, sa := levelSa rc, imm := levelImm level rc 0 }
  | .lvwait d level rc => enc64 { raw64 0x89 with dst := d.bits, sa := levelSa rc, imm := levelImm level rc 0 }
  | .lvread d level s rc => enc64 { raw64 0x8A with dst := d.bits, sa := levelSa rc, imm := levelImm level rc s }
  | .fuse d n => encPush0 0x8B d ((0 : BitVec 28) ++ n)
  | .split => encBare 0x8C 0
  | .laneid d => encPush0 0x8D d 0
  | .coord d s => encPush0 0x8E d ((0 : BitVec 31) ++ BitVec.ofBool s)
  | .spillq d a => encPush1 0x8F d a 0
  | .jobset d share cls => encPush0 0x90 d ((0 : BitVec 26) ++ BitVec.ofBool cls ++ share)
  | .stageCreate d a => encPush1 0xA0 d a 0
  | .stageClose d a => encPush1 0xA0 d a 1
  | .stageThresh d a b => enc64 { raw64 0xA0 with dst := d.bits, sa := a.bits, sb := b.bits, imm := 2 }
  | .keysend stage words gbase =>
    encBare 0xA1 ((0 : BitVec 12) ++ (BitVec.ofFin gbase : BitVec 5) ++ words ++ (0 : BitVec 6) ++ stage)
  | .splitok d a imm => encPush1 0xA2 d a imm
  | .mergeok => encBare 0xA3 0
  | .krtread d a s => encPush1 0xA4 d a ((0 : BitVec 27) ++ s)
  | .qdep d a => encPush1 0xA5 d a 0
  | .tev ev a => encSink1 0xB0 a ((0 : BitVec 26) ++ ev)
  | .tevx ev payload a b =>
    enc64 { raw64 0xB1 with sa := a.bits, sb := b.bits, imm := (0 : BitVec 4) ++ payload ++ ev }
  | .tsread d => encPush0 0xB2 d 0
  | .tmark d payload => encPush0 0xB3 d ((0 : BitVec 10) ++ payload)
  | .trap code => encBare 0xC0 ((0 : BitVec 16) ++ code)
  | .eret => encBare 0xC1 0
  | .rqread d entry word => encPush0 0xC2 d ((0 : BitVec 26) ++ word ++ (BitVec.ofFin entry : BitVec 4))
  | .rqwrite a entry word => encSink1 0xC3 a ((0 : BitVec 26) ++ word ++ (BitVec.ofFin entry : BitVec 4))
  | .srr d reg => encPush0 0xC4 d ((0 : BitVec 20) ++ reg)
  | .srw a reg => encSink1 0xC5 a ((0 : BitVec 20) ++ reg)
  | .srwTsink a => encSink1 0xC5 a 0x32
  | .ckpt d h => encPush0 0xC6 d ((0 : BitVec 24) ++ h)
  | .rback d a => encPush1 0xC7 d a 0
  | .kill reason => encBare 0xC8 ((0 : BitVec 16) ++ reason)
  | .nop => encBare 0xC9 0
  | .fill => encBare 0xCA 0
  | .brk code => encBare 0xCB ((0 : BitVec 16) ++ code)
  | .halt => encBare 0xCC 0
  | .vla t m pa c =>
    enc96 { raw96 0x00 with type := BitVec.ofNat 5 t.code, mask := BitVec.ofFin m, pa := BitVec.ofFin pa,
                            immB := ctlImmB c }
  | .vsa t m pd c =>
    enc96 { raw96 0x01 with type := BitVec.ofNat 5 t.code, mask := BitVec.ofFin m, pd := BitVec.ofFin pd,
                            immB := ctlImmB c }
  | .vcvt t m src c =>
    enc96 { raw96 0x02 with type := BitVec.ofNat 5 t.code, mask := BitVec.ofFin m, immA := (0 : BitVec 30) ++ src,
                            immB := ctlImmB c }
  | .vadd t o => encVec 0x03 0 t.code 0 o
  | .vsub t o => encVec 0x04 0 t.code 0 o
  | .vmul t o => encVec 0x05 0 t.code 0 o
  | .vmin t o => encVec 0x06 0 t.code 0 o
  | .vmax t o => encVec 0x07 0 t.code 0 o
  | .vred t op o => encVec 0x08 op.code t.code 0 o
  | .vcmp t c wr o => encVec 0x09 c.code t.code (cmpSel wr) o
  | .vbcast t o => encVec 0x0A 0 t.code 0 o
  | .vscl t o => encVec 0x0B 0 t.code 0 o
  | .vsel t s o => encVec 0x0C 0 t.code ((0 : BitVec 1) ++ (BitVec.ofFin s : BitVec 2)) o
  | .vidx t m pd dsel start stp c =>
    enc96 { raw96 0x0D with type := BitVec.ofNat 5 t.code, mask := BitVec.ofFin m, pd := BitVec.ofFin pd,
                            immA := start, immB := stp ++ (0 : BitVec 10) ++ BitVec.ofBool dsel ++ c }
  | .vperm t o => encVec 0x0E 0 t.code 0 o
  | .vgath t m pa pb c =>
    enc96 { raw96 0x0F with type := BitVec.ofNat 5 t.code, mask := BitVec.ofFin m, pa := BitVec.ofFin pa,
                            pb := BitVec.ofFin pb, immB := ctlImmB c }
  | .vscat t m pb pd c =>
    enc96 { raw96 0x10 with type := BitVec.ofNat 5 t.code, mask := BitVec.ofFin m, pb := BitVec.ofFin pb,
                            pd := BitVec.ofFin pd, immB := ctlImmB c }
  | .vabs t o => encVec 0x11 0 t.code 0 o
  | .vand t o => encVec 0x12 0 t.code 0 o
  | .vor t o => encVec 0x13 0 t.code 0 o
  | .vxor t o => encVec 0x14 0 t.code 0 o
  | .vshl t o => encVec 0x15 0 t.code 0 o
  | .vshr t o => encVec 0x16 0 t.code 0 o
  | .vfma o => encVec 0x17 0 9 0 o
  | .vexp2 o => encVec 0x18 0 9 0 o
  | .vrsq o => encVec 0x19 0 9 0 o
  | .vrcp o => encVec 0x1A 0 9 0 o
  | .pset pd base stride wet =>
    enc96 { raw96 0x40 with pd := BitVec.ofFin pd, immA := base,
                            immB := (0 : BitVec 15) ++ BitVec.ofBool wet ++ stride }
  | .padv pd v => enc96 { raw96 0x41 with pd := BitVec.ofFin pd, immA := v }
  | .pget pa => enc96 { raw96 0x42 with pa := BitVec.ofFin pa }
  | .baset bytes bit wet =>
    enc96 { raw96 0x43 with immA := bytes, immB := (0 : BitVec 28) ++ BitVec.ofBool wet ++ bit }
  | .ldb width signed => enc96 { raw96 0x44 with immA := (0 : BitVec 25) ++ BitVec.ofBool signed ++ width }
  | .stb width => enc96 { raw96 0x45 with immA := (0 : BitVec 26) ++ width }
  | .chain ch cn cen head =>
    enc96 { raw96 0x60 with immA := (0 : BitVec 22) ++ BitVec.ofBool head.isNone ++ BitVec.ofBool cen ++
                              (BitVec.ofFin cn : BitVec 4) ++ (0 : BitVec 1) ++ (BitVec.ofFin ch : BitVec 3)
                            immB := head.getD 0 }
  | .chainResume ch => enc96 { raw96 0x60 with immA := (0 : BitVec 28) ++ (1 : BitVec 1) ++ (BitVec.ofFin ch : BitVec 3) }
  | .cstat ch s => encHandle 0x61 ((0 : BitVec 5) ++ (BitVec.ofFin ch : BitVec 3)) s 0
  | .hcfg h cfg => encHandle 0x62 h false cfg
  | .hcfgRearm h => encHandle 0x62 h true 0
  | .hacq h cons => encHandle 0x63 h cons 0
  | .hrel h cons => encHandle 0x64 h cons 0
  | .hstate h => encHandle 0x65 h false 0
  | .rpost h m => encHandle 0x66 h false ((0 : BitVec 19) ++ m)
  | .rtake h => encHandle 0x67 h false 0
  | .barr h bytes => encHandle 0x68 h false bytes
  | .bexp h bytes => encHandle 0x69 h false bytes
  | .btest h => encHandle 0x6A h false 0
  | .bwait h => encHandle 0x6B h false 0
  | .mlease cls => enc128 { raw128 0x00 with opnd := (0 : BitVec 63) ++ BitVec.ofBool cls }
  | .mrel => enc128 (raw128 0x01)
  | .mjob d off opnd => enc128 { raw128 0x02 with dst := d.bits, sa := off.bits, opnd := opnd }
  | .mmask o => encCmd 0x03 0 0 o
  | .mprec o => encCmd 0x04 0 0 o
  | .mzero o => encCmd 0x05 0 0 o
  | .mmul t rm o => encCmd 0x06 t.code (modBits false rm.code) o
  | .mmulb t o => encCmd 0x07 t.code 0 o
  | .msca rm o => encCmd 0x08 0 (modBits false rm.code) o
  | .msendt o => encCmd 0x09 0 0 o
  | .mrecvt o => encCmd 0x0A 0 0 o
  | .mmove t rm nan o => encCmd 0x0B t.code (modBits nan rm.code) o
  | .mload t rm nan o => encCmd 0x0C t.code (modBits nan rm.code) o
  | .mtest d off opnd => enc128 { raw128 0x0D with dst := d.bits, sa := off.bits, opnd := opnd }
  | .mstat d s => enc128 { raw128 0x0E with dst := d.bits, opnd := (0 : BitVec 62) ++ s }
  | .e8cvt o => encCmd 0x0F 0 0 o
  | .map d a b cookie rctx win lg rights => encMapping 0x20 d a b cookie rctx win lg rights
  | .grant d a b cookie rctx win lg rights => encMapping 0x21 d a b cookie rctx win lg rights
  | .unmap d a self =>
    enc128 { raw128 0x22 with dst := d.bits, sa := a.bits, opnd := (0 : BitVec 63) ++ BitVec.ofBool self }
  | .unmapAsync d a self ep handler =>
    enc128 { raw128 0x22 with minor := 1, dst := d.bits, sa := a.bits,
                              opnd := (0 : BitVec 33) ++ handler ++ ep ++ BitVec.ofBool self }
  | .acceptOpen d a win lgw maxr src host ep handler =>
    enc128 { raw128 0x23 with dst := d.bits, sa := a.bits,
                              opnd := (0 : BitVec 5) ++ handler ++ ep ++ BitVec.ofBool host ++ src ++ maxr ++ lgw ++
                                win ++ (1 : BitVec 1) }
  | .acceptClose d a win =>
    enc128 { raw128 0x23 with dst := d.bits, sa := a.bits, opnd := (0 : BitVec 57) ++ win ++ (0 : BitVec 1) }
  | .mquery d a s => enc128 { raw128 0x24 with dst := d.bits, sa := a.bits, opnd := (0 : BitVec 62) ++ s }
  | .xflush d a lg => enc128 { raw128 0x25 with dst := d.bits, sa := a.bits, opnd := (0 : BitVec 59) ++ lg }
  | .xld a b sc acq => encFar 0x30 a b 0 ((0 : BitVec 60) ++ BitVec.ofBool acq ++ scopeBits sc)
  | .xst a b sc rel => encFar 0x31 a b 0 ((0 : BitVec 60) ++ BitVec.ofBool rel ++ scopeBits sc)
  | .xburst a b len sc ep remote =>
    encFar 0x32 a b ((0 : BitVec 19) ++ len) ((0 : BitVec 42) ++ BitVec.ofBool remote ++ ep ++ scopeBits sc)
  | .planew a b len => encFar 0x33 a b ((0 : BitVec 25) ++ len) 0
  | .mbox a b sc => encFar 0x34 a b 0 ((0 : BitVec 61) ++ scopeBits sc)
  | .crec d a b sc =>
    enc128 { raw128 0x35 with dst := d.bits, sa := a.bits, sb := b.bits, opnd := (0 : BitVec 61) ++ scopeBits sc }
  | .sendx a off dest handler words sys node ack =>
    enc128 { raw128 0x40 with sa := a.bits, imm := off,
                              opnd := (0 : BitVec 12) ++ BitVec.ofBool ack ++ node ++ BitVec.ofBool sys ++
                                (0 : BitVec 1) ++ words ++ handler ++ dest }
  | .messageArrival .. | .coreBind .. | .sendBufferRetry .. | .launchAdmission .. | .batchDeal .. | .unitDispatch ..
  | .dispatchRetry .. | .allowanceRefill | .masterElection .. | .arrayGrant .. | .arrayBind ..
  | .arrayCommandComplete .. | .leaseTimeout .. | .gateTimeout .. | .gateOpen .. | .jobStopped .. | .tileArrival ..
  | .tileDiscard .. | .arraySelfTest .. | .chainStart .. | .copyPiece .. | .recordComplete .. | .channelStop ..
  | .barrierPhase .. | .barrierAggregate .. | .barrierCompletionMsg .. | .ldaqReload .. | .parkTimeout ..
  | .yieldReturn .. | .wakeArrival .. | .ldpArrival .. | .farAccessTranslate .. | .farAccessAck .. | .derive ..
  | .unmapEffect .. | .deadMarks .. | .invalidationRound .. | .invalidationAck .. | .pinCancel ..
  | .migrationHandover .. | .slateAdmitHeld .. | .traceDrain .. | .traceDrainRetry .. | .ptpSync ..
  | .timebaseHoldover | .stageOverload .. | .stageTableApply .. | .interfaceAck .. | .endMarker ..
  | .stageUnderload .. | .mergeStart .. | .trapEntry .. | .gangFollowerFault .. | .watchdogExpiry .. | .killSweep ..
  | .killConfirm .. | .killComplete .. | .dieFence .. | .uncorrectableError .. | .heartbeatLoss .. | .thermalTrip ..
  | .serviceFailover .. | .meterWindow .. | .egressBeat .. | .scrollAppend | .stagingDrain | .keyLoad ..
  | .keyUpdate .. | .hostErase .. | .keyPublicCopy .. | .checkpointRequest | .attestation .. | .archivedSeqWrite ..
  | .createContext .. | .destroyContext .. | .createRoot .. | .mapRoot .. | .unmapRoot .. | .createJob ..
  | .closeJob .. | .bindPage .. | .writeTableEntry .. | .writeHmask .. | .configHostSink .. | .readLastReel ..
  | .preempt .. | .hostKill .. | .hostFence .. | .warmReset | .warmResetRequest | .claimWrite .. | .callSubmit .. | .debugAttach ..
  | .debugRead .. | .debugWrite .. | .debugResume .. | .debugDetach .. | .submitLaunch .. | .submitMessage ..
  | .inboundAccess .. | .cxlMemRequest .. | .functionLevelReset .. | .outboundReadTimeout .. | .scallinkFrame ..
  | .scallinkRetransmit .. | .linkState .. | .powerOnReset | .bootRelease .. | .bootReady | .recoveryOffsetWrite ..
  | .recoveryDataWrite .. | .timeControlWrite .. | .schedWordWrite .. | .classCostWrite .. | .lateConsumedWrite ..
  | .selfTestIntervalWrite .. | .registerWrite .. | .reservedInstruction .. | .eccCorrectedError ..
  | .msixTableWrite .. | .callRingConsume .. | .windowChange .. | .takesEffectOnDie .. => none

end Sys2Proof
end

