-- ==== Sys2Proof/Machine/Crypto.lean ====
section
/-!
DEFINITION. The symmetric standards that 20_sealing_egress_scroll.md names, on byte strings: AES-256 with its XTS mode on
one 64-byte data unit (IEEE 1619, R404) and GCM opening (R400), and the sponges of FIPS 202 (R398-R418).
-/
namespace Sys2Proof.Machine

/-! ### AES-256 -/

def xtime (b : Nat) : Nat := if b < 128 then 2 * b else (2 * b) ^^^ 0x11B

def gmulSteps : Nat → Nat → Nat → Nat
  | 0, _, _ => 0
  | k + 1, a, b => (if b % 2 == 1 then a else 0) ^^^ gmulSteps k (xtime a) (b / 2)

/-- The product in GF(2^8) modulo x^8 + x^4 + x^3 + x + 1. -/
def gmul (a b : Nat) : Nat := gmulSteps 8 a b

/-- The inverse in GF(2^8): the 254th power; 0 for 0. -/
def ginv (a : Nat) : Nat :=
  let a2 := gmul a a
  let a4 := gmul a2 a2
  let a8 := gmul a4 a4
  let a16 := gmul a8 a8
  let a32 := gmul a16 a16
  let a64 := gmul a32 a32
  gmul a2 (gmul a4 (gmul a8 (gmul a16 (gmul a32 (gmul a64 (gmul a64 a64))))))

def rotl8 (b n : Nat) : Nat := (b * 2 ^ n + b / 2 ^ (8 - n)) % 256

def subByte (a : Nat) : Nat :=
  let b := ginv a
  b ^^^ rotl8 b 1 ^^^ rotl8 b 2 ^^^ rotl8 b 3 ^^^ rotl8 b 4 ^^^ 0x63

def invSubByte (a : Nat) : Nat := ginv (rotl8 a 1 ^^^ rotl8 a 3 ^^^ rotl8 a 6 ^^^ 0x05)

/-- Bytes combined by exclusive or. -/
def xorBytes (a b : List Nat) : List Nat := List.zipWith (· ^^^ ·) a b

/-- The next words of the key schedule from the last eight, newest first. -/
def nextKeyWord (i rcon : Nat) (ws : List (List Nat)) : List Nat :=
  let t := ws.getD 0 []
  let t := if i % 8 == 0 then
      xorBytes ((t.drop 1 ++ t.take 1).map subByte) [rcon, 0, 0, 0]
    else if i % 8 == 4 then t.map subByte else t
  xorBytes (ws.getD 7 []) t

def keyWords : Nat → Nat → Nat → List (List Nat) → List (List Nat)
  | 0, _, _, ws => ws
  | k + 1, i, rcon, ws => keyWords k (i + 1) (if i % 8 == 0 then xtime rcon else rcon) (nextKeyWord i rcon ws :: ws)

def chunks {α : Type} (n : Nat) : Nat → List α → List (List α)
  | 0, _ => []
  | k + 1, xs => xs.take n :: chunks n k (xs.drop n)

/-- The fifteen round keys of a 32-byte key (FIPS 197). -/
def roundKeys (key : List Nat) : List (List Nat) :=
  ((keyWords 52 8 1 (chunks 4 8 key).reverse).reverse.flatten |> chunks 16 15)

/-- ShiftRows on a block in column order, and its inverse. -/
def shiftRows (s : List Nat) : List Nat := (List.range 16).map fun i => s.getD ((i + 4 * (i % 4)) % 16) 0
def invShiftRows (s : List Nat) : List Nat := (List.range 16).map fun i => s.getD ((i + 16 - 4 * (i % 4)) % 16) 0

def mixColumn (k : List Nat) (c : List Nat) : List Nat :=
  (List.range 4).map fun i =>
    (List.range 4).foldl (fun z j => z ^^^ gmul (k.getD ((j + 4 - i) % 4) 0) (c.getD j 0)) 0

def mixColumns (k : List Nat) (s : List Nat) : List Nat := (chunks 4 4 s).flatMap (mixColumn k)

def aesRounds : List (List Nat) → List Nat → List Nat
  | [], s => s
  | [k], s => xorBytes (shiftRows (s.map subByte)) k
  | k :: ks, s => aesRounds ks (xorBytes (mixColumns [2, 3, 1, 1] (shiftRows (s.map subByte))) k)

/-- AES-256 encryption of one block. (log 94, PRESUMED) -/
def aesBlock (ks : List (List Nat)) (s : List Nat) : List Nat :=
  match ks with
  | [] => s
  | k :: r => aesRounds r (xorBytes s k)

def aesInvRounds : List (List Nat) → List Nat → List Nat
  | [], s => s
  | [k], s => xorBytes ((invShiftRows s).map invSubByte) k
  | k :: ks, s => aesInvRounds ks (mixColumns [14, 11, 13, 9] (xorBytes ((invShiftRows s).map invSubByte) k))

/-- AES-256 decryption of one block. -/
def aesInvBlock (ks : List (List Nat)) (s : List Nat) : List Nat :=
  match ks.reverse with
  | [] => s
  | k :: r => aesInvRounds r (xorBytes s k)

def natsOf (bs : List Byte) : List Nat := bs.map (·.toNat)
def bytesOf (ns : List Nat) : List Byte := ns.map (BitVec.ofNat 8 ·)

/-! ### XTS (IEEE 1619) -/

/-- The tweak multiplied by alpha; bytes little-endian. -/
def mulAlpha (t : Nat) : Nat := if t < 2 ^ 127 then 2 * t else (2 * t) % 2 ^ 128 ^^^ 0x87

def natBytes : Nat → Nat → List Nat
  | 0, _ => []
  | k + 1, n => n % 256 :: natBytes k (n / 256)

def bytesNat : List Nat → Nat
  | [] => 0
  | b :: bs => b + 256 * bytesNat bs

def xtsBlocks (f : List Nat → List Nat) : List (List Nat) → Nat → List Nat
  | [], _ => []
  | b :: bs, t => xorBytes (f (xorBytes b (natBytes 16 t))) (natBytes 16 t) ++ xtsBlocks f bs (mulAlpha t)

/-- A 64-byte data unit of number `unit` under a 64-byte key: Key1 for data, Key2 for the tweak (R399, R404).
(log 94, PRESUMED) -/
def xtsEncrypt (key : List Byte) (unit : Nat) (bs : List Byte) : List Byte :=
  let k := natsOf key
  let t := bytesNat (aesBlock (roundKeys (k.drop 32)) (natBytes 16 unit))
  bytesOf (xtsBlocks (aesBlock (roundKeys (k.take 32))) (chunks 16 (bs.length / 16) (natsOf bs)) t)

def xtsDecrypt (key : List Byte) (unit : Nat) (bs : List Byte) : List Byte :=
  let k := natsOf key
  let t := bytesNat (aesBlock (roundKeys (k.drop 32)) (natBytes 16 unit))
  bytesOf (xtsBlocks (aesInvBlock (roundKeys (k.take 32))) (chunks 16 (bs.length / 16) (natsOf bs)) t)

/-! ### GCM -/

def gcmMulSteps : Nat → Nat → Nat → Nat → Nat
  | 0, _, _, z => z
  | k + 1, x, v, z =>
    gcmMulSteps k x (if v % 2 == 1 then v / 2 ^^^ 0xE1 * 2 ^ 120 else v / 2) (if x.testBit k then z ^^^ v else z)

/-- The product in GF(2^128) of SP 800-38D; blocks read big-endian. -/
def gcmMul (x y : Nat) : Nat := gcmMulSteps 128 x y 0

def beNat (ns : List Nat) : Nat := bytesNat ns.reverse
def beBytes (k n : Nat) : List Nat := (natBytes k n).reverse

def ghash (h : Nat) : List (List Nat) → Nat → Nat
  | [], y => y
  | b :: bs, y => ghash h bs (gcmMul (y ^^^ beNat b) h)

def ctrBlocks (ks : List (List Nat)) (iv : List Nat) : Nat → Nat → List Nat
  | 0, _ => []
  | k + 1, c => aesBlock ks (iv ++ beBytes 4 c) ++ ctrBlocks ks iv k (c + 1)

/-- The tag of AES-256-GCM with a 12-byte nonce, on whole blocks. (log 94, PRESUMED) -/
def gcmTag (key nonce aad cipher : List Byte) : List Byte :=
  let ks := roundKeys (natsOf key)
  let h := beNat (aesBlock ks (List.replicate 16 0))
  let a := natsOf aad
  let c := natsOf cipher
  let y := ghash h (chunks 16 (a.length / 16) a ++ chunks 16 (c.length / 16) c ++
    [beBytes 8 (8 * a.length) ++ beBytes 8 (8 * c.length)]) 0
  bytesOf (xorBytes (aesBlock ks (natsOf nonce ++ beBytes 4 1)) (beBytes 16 y))

/-- The plaintext, or none where the tag fails. (log 94, PRESUMED) -/
def gcmOpen (key nonce aad cipher tag : List Byte) : Option (List Byte) :=
  if gcmTag key nonce aad cipher == tag then
    some (bytesOf (xorBytes (ctrBlocks (roundKeys (natsOf key)) (natsOf nonce) (cipher.length / 16) 2) (natsOf cipher)))
  else none

/-! ### SHA-3 (FIPS 202) -/

def keccakRc : List (BitVec 64) :=
  [0x0000000000000001, 0x0000000000008082, 0x800000000000808A, 0x8000000080008000, 0x000000000000808B, 0x0000000080000001] ++
  [0x8000000080008081, 0x8000000000008009, 0x000000000000008A, 0x0000000000000088, 0x0000000080008009, 0x000000008000000A] ++
  [0x000000008000808B, 0x800000000000008B, 0x8000000000008089, 0x8000000000008003, 0x8000000000008002, 0x8000000000000080] ++
  [0x000000000000800A, 0x800000008000000A, 0x8000000080008081, 0x8000000000008080, 0x0000000080000001, 0x8000000080008008]

/-- Rotation offsets by lane x + 5 * y. -/
def keccakRho : List Nat :=
  [0, 1, 62, 28, 27] ++
  [36, 44, 6, 55, 20] ++
  [3, 10, 43, 25, 39] ++
  [41, 45, 15, 21, 8] ++
  [18, 2, 61, 56, 14]

def keccakRound (rc : BitVec 64) (a : List (BitVec 64)) : List (BitVec 64) :=
  let lane (l : List (BitVec 64)) (x y : Nat) : BitVec 64 := l.getD (x % 5 + 5 * (y % 5)) 0
  let c := (List.range 5).map fun x => lane a x 0 ^^^ lane a x 1 ^^^ lane a x 2 ^^^ lane a x 3 ^^^ lane a x 4
  let d := (List.range 5).map fun x => c.getD ((x + 4) % 5) 0 ^^^ (c.getD ((x + 1) % 5) 0).rotateLeft 1
  let t := a.mapIdx fun i v => (v ^^^ d.getD (i % 5) 0).rotateLeft (keccakRho.getD i 0)
  let b := (List.range 25).map fun i => lane t (i % 5 + 3 * (i / 5)) (i % 5)
  (List.range 25).map fun i =>
    let x := i % 5
    let y := i / 5
    (lane b x y ^^^ (~~~lane b (x + 1) y &&& lane b (x + 2) y)) ^^^ (if i == 0 then rc else 0)

def keccak (a : List (BitVec 64)) : List (BitVec 64) := keccakRc.foldl (fun s rc => keccakRound rc s) a

/-- Absorb blocks of `rate` bytes. -/
def absorb (rate : Nat) : List (List Byte) → List (BitVec 64) → List (BitVec 64)
  | [], s => s
  | b :: bs, s =>
    absorb rate bs (keccak (s.mapIdx fun i v => v ^^^ BitVec.ofNat 64 (leNat (((b.take rate).drop (8 * i)).take 8))))

/-- The next `k` blocks of output. -/
def squeeze (rate : Nat) : Nat → List (BitVec 64) → List Byte
  | 0, _ => []
  | k + 1, s =>
    ((s.flatMap fun v => leBytes 8 v.toNat).take rate) ++ if k == 0 then [] else squeeze rate k (keccak s)

/-- Pad with a domain byte and the final bit. -/
def spongePad (rate : Nat) (dom : Byte) (bs : List Byte) : List Byte :=
  let q := rate - bs.length % rate
  if q == 1 then bs ++ [dom ||| 0x80] else bs ++ dom :: List.replicate (q - 2) 0 ++ [0x80]

/-- The first `k` blocks of the sponge of a rate and a domain byte. -/
def sponge (rate : Nat) (dom : Byte) (bs : List Byte) (k : Nat) : List Byte :=
  let p := spongePad rate dom bs
  squeeze rate k (absorb rate (chunks rate (p.length / rate) p) (List.replicate 25 0))

/-- SHA3-256 and SHA3-512. (log 94, PRESUMED) -/
def sha3 (bs : List Byte) : List Byte := (sponge 136 0x06 bs 1).take 32
def sha3Long (bs : List Byte) : List Byte := (sponge 72 0x06 bs 1).take 64
/-- SHAKE256 to `n` bytes, and SHAKE128 to whole blocks of 168. (log 94, PRESUMED) -/
def shake (bs : List Byte) (n : Nat) : List Byte := (sponge 136 0x1F bs (n / 136 + 1)).take n
def shake128 (bs : List Byte) (blocks : Nat) : List Byte := sponge 168 0x1F bs blocks

/-- The bytes of an ASCII label. -/
def ascii (t : String) : List Byte := t.toList.map fun c => BitVec.ofNat 8 c.toNat

end Sys2Proof.Machine
end

