-- ==== Sys2Proof/Machine/Memory.lean ====
section
/-!
DEFINITION. Memory: one list of (address, byte) cells for every store of bytes in the package, in one canonical form:
addresses strictly rising, and no cell that holds what an unlisted address reads as. An unlisted byte reads as zero: the
boot scrub zeroes HBM4E (18_address_spaces.md R371) and binding zeroes scratchpads, buffers, plane stores and
accumulators (R34, R158). Each store has its own range of keys.
-/
namespace Sys2Proof.Machine

abbrev Memory := List Host.Cell

/-- What an address that is not listed reads as. (log 2, DESIGN CHOICE) -/
def Memory.blank : Byte := 0

/-- The byte at an address. (log 2, DESIGN CHOICE) -/
def Memory.read : Memory → Nat → Byte
  | [], _ => Memory.blank
  | (j, b) :: rest, a => if j = a then b else if a < j then Memory.blank else Memory.read rest a

/-- A cell in front of the others, unless it holds what an unlisted address reads as. -/
def Memory.cons (a : Nat) (b : Byte) (m : Memory) : Memory := if b = Memory.blank then m else (a, b) :: m

/-- The memory with one byte written, in canonical form. -/
def Memory.write : Memory → Nat → Byte → Memory
  | [], a, b => Memory.cons a b []
  | (j, c) :: rest, a, b =>
    if a < j then Memory.cons a b ((j, c) :: rest)
    else if a = j then Memory.cons a b rest
    else (j, c) :: Memory.write rest a b

/-- Addresses rise from above `lo`, and no cell is blank. -/
def Memory.above (lo : Nat) : Memory → Bool
  | [] => true
  | (j, b) :: rest => decide (lo < j) && decide (b ≠ Memory.blank) && Memory.above j rest

/-- The canonical form. -/
def Memory.wf : Memory → Bool
  | [] => true
  | (j, b) :: rest => decide (b ≠ Memory.blank) && Memory.above j rest

/-- `n` bytes from an address upward. -/
def Memory.readBytes (m : Memory) : Nat → Nat → List Byte
  | 0, _ => []
  | n + 1, a => m.read a :: Memory.readBytes m n (a + 1)

/-- A byte string written from an address upward. -/
def Memory.writeBytes (m : Memory) : List Byte → Nat → Memory
  | [], _ => m
  | b :: bs, a => Memory.writeBytes (m.write a b) bs (a + 1)

/-- The little-endian number of `n` bytes (R1, R99). -/
def Memory.readNat (m : Memory) : Nat → Nat → Nat
  | 0, _ => 0
  | n + 1, a => (m.read a).toNat + 256 * Memory.readNat m n (a + 1)

/-- The low `n` bytes of a number written little-endian. -/
def Memory.writeNat (m : Memory) : Nat → Nat → Nat → Memory
  | 0, _, _ => m
  | n + 1, a, v => Memory.writeNat (m.write a (BitVec.ofNat 8 v)) n (a + 1) (v / 256)

def Memory.readWord (m : Memory) (a : Nat) : Word := BitVec.ofNat 64 (m.readNat 8 a)
def Memory.writeWord (m : Memory) (a : Nat) (v : Word) : Memory := m.writeNat 8 a v.toNat

/-- Zero every byte from `lo` up to, not including, `hi`. -/
def Memory.zero (lo hi : Nat) : Memory → Memory
  | [] => []
  | (j, b) :: rest => if lo ≤ j ∧ j < hi then Memory.zero lo hi rest else (j, b) :: Memory.zero lo hi rest

/-- The bytes at the addresses that satisfy `p`; every other one blank. -/
def Memory.keep (p : Nat → Bool) : Memory → Memory
  | [] => []
  | (j, b) :: rest => if p j then (j, b) :: Memory.keep p rest else Memory.keep p rest

/-! ### Key ranges of the package's stores -/

/-- HBM4E by physical address, 48 bits (18_address_spaces.md). -/
def physKey (a : Nat) : Nat := a
/-- The scratchpad of a small core or the buffer of a memory core; `core` is the endpoint without its thread. -/
def padKey (core off : Nat) : Nat := 2 ^ 50 + core * 2 ^ 20 + off
/-- The plane store of array `a` = pair * 72 + octet. -/
def planeKey (a off : Nat) : Nat := 2 ^ 51 + a * 2 ^ 22 + off
/-- The accumulator memory of array `a`. -/
def accKey (a off : Nat) : Nat := 2 ^ 52 + a * 2 ^ 21 + off
/-- The staging store of a copy unit's channel (R251). -/
def stagingKey (unit ch off : Nat) : Nat := 2 ^ 53 + (unit * 8 + ch) * 2 ^ 10 + off
/-- The recovery buffer of an I/O die (R468). -/
def recoveryKey (off : Nat) : Nat := 2 ^ 54 + off
/-- The last reel of a die (R288). -/
def reelKey (die off : Nat) : Nat := 2 ^ 55 + die * 2 ^ 16 + off
/-- The late queue of a partition (R304). -/
def lateKey (part off : Nat) : Nat := 2 ^ 56 + part * 2 ^ 13 + off
/-- The host call ring of a service core (R461). -/
def callKey (core off : Nat) : Nat := 2 ^ 57 + core * 2 ^ 15 + off

end Sys2Proof.Machine
end

