-- ==== Sys2Proof/Machine/NMap.lean ====
section
/-!
DEFINITION. A finite table keyed by numbers: key and value pairs, keys strictly rising. A key that is not listed holds
the value that the reader names, which is that table's reset value.
-/
namespace Sys2Proof.Machine

abbrev NMap (α : Type) := List (Nat × α)

/-- The entry of a key, or `d` when it is not listed. -/
def nget {α : Type} (d : α) : NMap α → Nat → α
  | [], _ => d
  | (j, v) :: rest, k => if j = k then v else nget d rest k

def nfind {α : Type} : NMap α → Nat → Option α
  | [], _ => none
  | (j, v) :: rest, k => if j = k then some v else nfind rest k

/-- The table with one entry replaced, keys kept in rising order. -/
def nset {α : Type} : NMap α → Nat → α → NMap α
  | [], k, v => [(k, v)]
  | (j, u) :: rest, k, v =>
    if k < j then (k, v) :: (j, u) :: rest
    else if k = j then (k, v) :: rest
    else (j, u) :: nset rest k v

def ndel {α : Type} : NMap α → Nat → NMap α
  | [], _ => []
  | (j, u) :: rest, k => if j = k then rest else (j, u) :: ndel rest k

/-- Every key is above `lo` and the keys rise. -/
def NMap.above {α : Type} (lo : Nat) : NMap α → Bool
  | [] => true
  | (j, _) :: rest => decide (lo < j) && NMap.above j rest

/-- The keys rise strictly. -/
def NMap.wf {α : Type} : NMap α → Bool
  | [] => true
  | (j, _) :: rest => NMap.above j rest

/-- Every value replaced by its image. -/
def nmap {α β : Type} (f : Nat → α → β) : NMap α → NMap β
  | [] => []
  | (k, v) :: r => (k, f k v) :: nmap f r

/-- The entries that satisfy `p`. -/
def nkeep {α : Type} (p : Nat → α → Bool) : NMap α → NMap α
  | [] => []
  | (k, v) :: r => if p k v then (k, v) :: nkeep p r else nkeep p r

/-- The first element that satisfies `p`, and the list without it. -/
def takeFirst {α : Type} (p : α → Bool) : List α → Option (α × List α)
  | [] => none
  | x :: xs =>
    if p x then some (x, xs)
    else match takeFirst p xs with
      | none => none
      | some (y, ys) => some (y, x :: ys)

/-- Every element that satisfies `p` replaced by its image. -/
def mapIf {α : Type} (p : α → Bool) (f : α → α) : List α → List α
  | [] => []
  | x :: xs => (if p x then f x else x) :: mapIf p f xs

end Sys2Proof.Machine
end

