-- ==== Sys2Proof/Machine/State.lean ====
section
/-!
DEFINITION. The state of the whole package as plain data: every piece of state the manual names, the outcomes that are
not a next state, and the state after power-on reset. Records keyed by number stand in tables (`NMap`); an entry that is
not listed holds the record's reset value.
-/
namespace Sys2Proof.Machine

/-! ### Threads -/

/-- The class counts of `sr.occ` (R59). -/
structure Occ where
  ld : Nat := 0
  st : Nat := 0
  cp : Nat := 0
  tl : Nat := 0
  deriving DecidableEq, Repr

/-- The visible state of a thread (R55) with its generator (R115), return-address stack (R130) and guard touch record
(R248): what a park slot, a checkpoint and a trap frame hold. -/
structure Regs where
  w : Vector Word 4 := Vector.replicate 4 0
  k : Vector Word 8 := Vector.replicate 8 0
  g : Vector Word 32 := Vector.replicate 32 0
  p : Vector Word 8 := Vector.replicate 8 0
  acc : Vector W32 64 := Vector.replicate 64 0
  vl : BitVec 7 := 64
  maRow : Vector Word 4 := Vector.replicate 4 (BitVec.allOnes 64)
  maCol : Vector Word 4 := Vector.replicate 4 (BitVec.allOnes 64)
  ba : BitVec 35 := 0
  pix : W32 := 0
  pc : W32 := 0
  rng : W32 := rngReset
  /-- newest first, at most four entries -/
  ras : List W32 := []
  gtouch : Word := 0
  deriving DecidableEq, Repr

/-- A result that arrives later: the push it reserved, counted from unit start, and the nib register it names (R122). -/
structure Pend where
  id : Nat
  push : Option Nat
  nib : Option (Fin 8)
  /-- the tree unit, a distributor or a stage's home answers it: a trap does not wait for it (R389, R423) -/
  tree : Bool := false
  /-- the answer, held while the thread is in trap mode -/
  val : Option Word := none
  /-- the push is an acquire at this scope: an UNMAP's and an XFLUSH's (R387, R394) -/
  acq : Option Scope := none
  deriving DecidableEq, Repr

/-- A scalar instruction whose latency has not run out (R122, R425): itself, its operands as read at issue, the push it
reserved, and what a trap puts back when it abandons the instruction. -/
structure Late where
  addr : W32
  instr : Instr
  a : Word
  b : Word
  c : Word
  dst : Dst
  /-- none once the push has left the wet file -/
  push : Option Nat
  oldNib : Word
  /-- the generator's state that its result is computed from -/
  gen : W32
  ready : Nat
  deriving DecidableEq, Repr

/-- A result of more than one cycle that the replay queue does not take (R122, R152, R229, R235): where it stands, and the
cycle in which what reads it can issue. -/
structure Slow where
  push : Option Nat
  nib : Option (Fin 8)
  acc : Bool
  ready : Nat
  deriving DecidableEq, Repr

/-- A valid entry of the replay queue (R425). -/
structure RqEntry where
  valid : Bool := false
  given : Bool := false
  dst : BitVec 4 := 0
  wpos : BitVec 3 := 0
  addr : W32 := 0
  a : Word := 0
  b : Word := 0
  c : Word := 0
  /-- cycles between the issue of the first entry and its own (this model's own) -/
  gap : Nat := 0
  deriving DecidableEq, Repr

/-- The progress of a repetition (R75): the body as fetched, the pass and the place in it. -/
structure Rep where
  imm : W32
  start : W32
  /-- address, instruction -/
  body : List (W32 × Instr)
  pass : Nat
  idx : Nat
  after : W32
  deriving DecidableEq, Repr

def Rep.passes (r : Rep) : Nat := r.imm.toNat % 2 ^ 16
def Rep.stagger (r : Rep) : Nat := r.imm.toNat / 2 ^ 20 % 8

/-- What keeps a thread from issuing. -/
inductive Wait where
  | none
  /-- YIELD (R327): until the time; with count 0, until the listed threads have had an opportunity -/
  | yield (till : Nat) (owed : List Nat) (count : Nat)
  /-- PARK (R328), with its deadline in ticks -/
  | park (dst : Dst) (deadline : Option Nat)
  /-- LDAQ (R231): until the location changes or the reload event -/
  | reload
  /-- an operation of this number: STRL (R232), a tree operation, a pending answer -/
  | op (id : Nat)
  /-- a far LDAQ (R231), by its access -/
  | ldaq (id : Nat)
  /-- a trace instruction whose slate found its share full (R285), with the push that it ends with -/
  | slate (push : Option (Dst × Word)) (instr : Instr)
  /-- HALT (R447) -/
  | halted
  /-- a gang stopped by a follower's fault (R430) -/
  | gangHalt
  deriving DecidableEq, Repr

/-- Membership in a gang (R48): its number, size, the leader's and the own octet position. -/
structure Gang where
  id : Nat
  size : Nat
  leader : Nat
  pos : Nat
  deriving DecidableEq, Repr

/-- An instruction that the leader has issued and a follower has yet to execute (R50). -/
structure Ahead where
  instr : Instr
  shift : Nat
  pc : W32
  deriving DecidableEq, Repr

/-- The team of a thread (R433). -/
inductive Team where
  | none
  | gang (id : Nat)
  | barrier (handle : Nat) (phase : Word)
  deriving DecidableEq, Repr

/-- The lease state of a thread at its octet's array (R161): Off, Waiting(c) or Held. -/
inductive Lease where
  | off
  | waiting (cls : Bool)
  | held
  deriving DecidableEq, Repr

/-- A source's mask and declared precision (R162). -/
structure MSrc where
  row : Word := BitVec.allOnes 64
  col : Word := BitVec.allOnes 64
  prec : Nat := 0
  deriving DecidableEq, Repr

/-- The unit that a thread runs (R36, R37): its number, header, launch and start. -/
structure UnitId where
  /-- this model's own number of the unit; operations in flight name their issuer by it -/
  uid : Nat := 0
  hdr : Word := 0
  launch : Nat := 0
  det : Bool := false
  start : Nat := 0
  /-- the index word of a unit that a distributor has dispatched (R37) -/
  index : Word := 0
  deriving DecidableEq, Repr

structure Ckpt where
  regs : Regs
  gang : Option Gang
  rep : Option Rep
  shift : Nat
  deriving DecidableEq, Repr

/-- A split or merge routine of a stage, run by a unit, or a unit that a routine's state message has started (R351, R354). -/
inductive Routine where
  | none
  | split (stage : Nat)
  | merge (stage : Nat)
  | state (stage : Nat)
  deriving DecidableEq, Repr

structure Thread where
  regs : Regs := {}
  /-- a unit or a gang holds the thread -/
  busy : Bool := false
  unit : UnitId := {}
  occ : Occ := {}
  /-- the greatest floor carried by a completion of each class: 0 ld, 1 st, 2 cp, 3 tl (R220, R240) -/
  occFloor : NMap Nat := []
  wake : Bool := false
  wait : Wait := .none
  pend : List Pend := []
  pushes : Nat := 0
  late : List Late := []
  slow : List Slow := []
  /-- the cycle before which it issues nothing: after a taken transfer, a trap entry or an ERET (R122, R423, R426) -/
  issueAt : Nat := 0
  /-- instructions completed since unit start (this model's own count) -/
  retired : Nat := 0
  rep : Option Rep := none
  /-- the nib renaming of the pass (R75) -/
  shift : Nat := 0
  gang : Option Gang := none
  ahead : List Ahead := []
  team : Team := .none
  ckpt : Option Ckpt := none
  ovf : Bool := false
  trap : Bool := false
  cause : Word := 0
  epc : W32 := 0
  /-- pushes counted when the trap was taken; ERET restores it -/
  trapPushes : Nat := 0
  rq : List RqEntry := List.replicate 16 {}
  /-- a trap that waits for the drain of R423: cause word, d0, epc -/
  trapPend : Option (Word × Word × W32) := none
  /-- a member's ERET that waits for the others (R430) -/
  eretDone : Bool := false
  /-- a pending pre-emption and its requester (R428) -/
  preempt : Option Nat := none
  lease : Lease := .off
  /-- the class of its next request, the request's place among others, array commands issued since unit start, that count
  at the grant, and the time of the grant or the last command (R161) -/
  leaseCls : Bool := true
  leaseSeq : Nat := 0
  leaseCmds : Nat := 0
  leaseBase : Nat := 0
  leaseLast : Nat := 0
  msrc : MSrc := {}
  /-- an MMASK from memory has been issued and not yet executed (R169) -/
  maskPending : Bool := false
  /-- fences (R237): the accesses in flight that each waits for, its successor set, and its scope -/
  fences : List (List Nat × Nat × Scope) := []
  /-- the widest scope at which a store of the unit has been acknowledged (R240) -/
  stScope : Scope := .thr
  /-- watchdog: reported, and stall time to leave out (R286, R437) -/
  hung : Bool := false
  stalled : Nat := 0
  routine : Routine := .none
  /-- the stage of an instance reserved on this thread (R344) -/
  inst : Option Nat := none
  /-- the endpoint of the instance whose queue entry the unit runs; it stays the same over a park (R344) -/
  entryOf : Option Nat := none
  splitOk : Bool := false
  /-- the handle that its instruction waits on (R268), by cluster * 256 + number -/
  onHandle : Option Nat := none
  /-- a CKPT that has arrived: the comparand that it waits with (R434) -/
  ckptAt : Option Word := none
  /-- the same of a CKPT that a trap has interrupted -/
  trapCkpt : Option Word := none
  /-- stopped for a rollback of its team, by this thread (R436) -/
  rback : Option Nat := none
  /-- a member of its unit that has retired exited with error (R51) -/
  unitErr : Bool := false
  /-- the exit slate of its EXIT has been formed: the EXIT takes effect once it has been admitted (R286) -/
  exitTold : Bool := false
  deriving DecidableEq, Repr

/-- A slot of the park store (R296): the unit as its thread left it, and its time floor. -/
structure ParkSlot where
  th : Thread
  /-- the endpoint that it parked on -/
  ep : Nat
  floor : Nat
  dst : Dst
  /-- the request in the admission queue; none once it is answered -/
  req : Option Nat
  /-- the status word that the resumed unit takes -/
  answer : Word
  deriving DecidableEq, Repr

/-! ### Cores -/

structure Undo where
  thread : Nat
  addr : Nat
  old : Word
  deriving DecidableEq, Repr

structure Core where
  bound : Option Nat := none
  prev : Option Nat := none
  cn : Vector (BitVec 10) 16 := Vector.replicate 16 0
  uf : BitVec 16 := 0
  /-- the greatest floor carried by a completion on each counter (R220, R240) -/
  cnFloor : NMap Nat := []
  /-- the counters that the completion of a copy has lowered: a WAITCN of one reads at that completion's scope (R240) -/
  cnCopy : BitVec 16 := 0
  htab : Word := 0
  spill : Word := 0
  spillHead : Nat := 0
  /-- the time floors of the spilled messages, head first; their bytes stand in the scratchpad (R40, R41) -/
  spilled : List Nat := []
  heap : Word := 0
  /-- live blocks: outer start and outer size (R245) -/
  blocks : List (Nat × Nat) := []
  tvec : Word := 0
  tframe : Word := 0
  share : BitVec 5 := 0
  jobCls : Bool := true
  park : List ParkSlot := []
  undo : List Undo := []
  /-- cycles of the core, as far as instructions issued on it show (this model's own) -/
  clock : Nat := 0
  /-- the thread that issued last (R122) -/
  last : Nat := 7
  deriving DecidableEq, Repr

/-! ### Messages -/

/-- What a message in flight is for. -/
inductive MsgKind where
  /-- starts a unit (R36) -/
  | unit
  /-- a WAKE control message (R328) -/
  | wake
  /-- a keyed record of a stage (R349); its key is g1's low half -/
  | keyed (stage : Nat)
  /-- a stage's state, forward or end-marker message (R350-R354) -/
  | stage (stage : Nat) (code : Nat) (lo hi : Nat)
  /-- the report of a member die pair to the master of a cross-die barrier, and the master's completion to a member
  (R267): handle number, member pair, member mask, master -/
  | aggregate (handle member mask master : Nat)
  | completion (handle member mask master : Nat)
  /-- a tile on its way to an array (R181): sender, tag, mask, and the job that has sent it, by identifier and place among the
  posted ones -/
  | tile (array sender tag : Nat) (row col : Word) (data : List Nat) (job : Option (Nat × Nat))
  deriving DecidableEq, Repr

structure Msg where
  id : Nat := 0
  kind : MsgKind := .unit
  hdr : Word := 0
  dest : Nat := 0
  payload : List Word := []
  /-- the interface or engine that holds it: the key of its order (R216) -/
  src : Nat := 0
  /-- the core whose send buffer it occupies (R322) -/
  buffer : Option Nat := none
  floor : Nat := 0
  /-- refused once: offered again by a retry -/
  refused : Bool := false
  /-- a SENDX with ack: endpoint, unit, launch and det of the sender, whose counts fall at acceptance (R325) -/
  ack : Option (Nat × Nat × Nat × Bool) := none
  /-- the Scallink connection that it came over: its frame is acknowledged at the acceptance (R325, R463) -/
  link : Option Nat := none
  deriving DecidableEq, Repr

/-! ### Launches and levels -/

inductive RecState where
  | pending
  | running
  | complete
  | cancelled
  deriving DecidableEq, Repr

/-- A launch record (R44) with its pool entry and what is left of its index range (R300). -/
structure Launch where
  inUse : Bool := false
  ctx : Nat := 0
  state : RecState := .pending
  cancelled : Bool := false
  graph : Nat := 0
  slot : Option Nat := none
  image : List Word := []
  dispatched : Nat := 0
  started : Nat := 0
  exited : Nat := 0
  acks : Nat := 0
  errors : Nat := 0
  pool : Bool := false
  /-- the next undealt linear number, and batches returned by a fence -/
  next : Nat := 0
  back : List (List Nat) := []
  reissue : List Nat := []
  seq : Nat := 0
  deadline : Nat := 0
  eclass : Nat := 0
  /-- the floor that its units' start carries: the master's at admission (R215, R220) -/
  start : Nat := 0
  /-- the floor that its completion carries (R335) -/
  floor : Nat := 0
  /-- the submission page that created it: port * 2048 + page (R450) -/
  page : Option Nat := none
  deriving DecidableEq, Repr

/-- A graph slot (R297): empty, held with its image, its mask and the submission page that it came through, filled by a
launch, complete. -/
inductive Slot where
  | empty
  | held (image : List Word) (pred : Word) (page : Option Nat)
  | queued (image : List Word)
  | running (tag : Nat)
  | complete
  deriving DecidableEq, Repr

/-- A graph, phase or job record (R44, R334). -/
structure Level where
  inUse : Bool := false
  ctx : Nat := 0
  parent : Nat := 0
  closed : Bool := false
  cancelled : Bool := false
  state : RecState := .pending
  children : Nat := 0
  errors : Nat := 0
  slots : NMap Slot := []
  /-- creation order within the parent -/
  seq : Nat := 0
  /-- the floor that its completion carries (R335) -/
  floor : Nat := 0
  deriving DecidableEq, Repr

/-- The indices of one level: never used ones, then the freed ones, least recently freed first (R44). -/
structure Free where
  fresh : Nat := 0
  freed : List Nat := []
  deriving DecidableEq, Repr

/-- An entry of the admission queue (R294): a parked LAUNCH.w, with the launch of its unit unless the unit is detached, or a
graph launch whose edges are met. -/
inductive Adm where
  | parked (req core uid : Nat) (launch : Option Nat) (ctx graph : Nat) (image : List Word)
  | edge (ctx graph slot : Nat) (image : List Word) (page : Option Nat)
  deriving DecidableEq, Repr

/-- A batch that a distributor holds: launch tag and the linear numbers not yet dispatched (R300). -/
structure Batch where
  tag : Nat
  units : List Nat
  /-- this batch reissues units of a fenced die (R317) -/
  again : Bool := false
  deriving DecidableEq, Repr

/-- The distributor of a die pair (R293-R308). -/
structure Pair where
  fenced : Bool := false
  allowance : Int := 0
  batches : List Batch := []
  bin : Nat := 0
  /-- the snapshot of the current bin: tag and linear number -/
  snap : List (Nat × Nat) := []
  lastCore : Nat := 575
  /-- skip counts: tag, linear number, count -/
  skips : List (Nat × Nat × Nat) := []
  pinned : Option (Nat × Nat) := none
  deriving DecidableEq, Repr

/-- The scheduling word of a partition (R309); the power-on cap depends on the partition count. -/
structure Sched where
  horizon : Nat := 1000
  cap : Option Nat := none
  costs : Vector Nat 8 := Vector.replicate 8 0
  lateNext : Nat := 0
  lateDone : Nat := 0
  lateLost : Nat := 0
  /-- the launch that was dealt a batch last, by its admission number (R300) -/
  dealt : Nat := 0
  /-- the die pair that was dealt a batch last (R300) -/
  askedLast : Nat := 7
  deriving DecidableEq, Repr

/-! ### Trace -/

/-- A slate (R273): its time, low word and extension. -/
structure Slate where
  time : Nat
  low : Word
  ext : Option (Word × Word)
  deriving DecidableEq, Repr

/-- A sink's share of one die's trace buffer (R280, R282). -/
structure Share where
  segs : Nat := 0
  lossless : Bool := false
  slates : List Slate := []
  drops : Nat := 0
  /-- the drain's fault has been reported to the pager for this episode (R281) -/
  faulted : Bool := false
  deriving DecidableEq, Repr

/-- A tenant's sink (R283). -/
structure Sink where
  valid : Bool := false
  base : Nat := 0
  lg : Nat := 0
  segs : Nat := 0
  lossless : Bool := false
  ctx : Nat := 0
  tenant : Nat := 0
  closing : Bool := false
  /-- slots written to the ring, and the header's drop count and stall time (R281) -/
  produced : Nat := 0
  drops : Nat := 0
  stall : Nat := 0
  deriving DecidableEq, Repr

/-- A slate that found its share full, with the emitter it stalls (R280). -/
structure Held where
  /-- who waits: the emitter's src; 2^18 more for a core's network interface, which shares one with thread 0 (R275) -/
  src : Nat
  die : Nat
  tenant : Nat
  ctx : Nat
  slate : Slate
  since : Nat
  /-- the instruction that formed it is otherwise complete -/
  completes : Bool
  /-- its share had no room, so a stall slate follows it (R280) -/
  full : Bool
  deriving DecidableEq, Repr
/-! ### Address spaces (18_address_spaces.md) -/

inductive NodeState where
  | live
  | pending
  | dead
  deriving DecidableEq, Repr

/-- A node of a mapping tree (R369). -/
structure Node where
  part : Nat := 0
  ctx : Nat := 0
  vbase : Nat := 0
  lg : Nat := 0
  phys : Nat := 0
  rights : Nat := 0
  sealed : Bool := false
  slot : Nat := 0
  depth : Nat := 0
  parent : Option Nat := none
  /-- place among its parent's children, and the next place under it -/
  seq : Nat := 0
  nextSeq : Nat := 0
  state : NodeState := .live
  selfMark : Bool := false
  /-- descendant mark with its sequence bound (R382) -/
  descMark : Option Nat := none
  wmask : List Nat := []
  deriving DecidableEq, Repr

/-- An acceptance window (R372). -/
structure Window where
  base : Nat := 0
  lgw : Nat := 51
  maxr : Nat := 7
  src : Nat := 0
  anyCtx : Bool := false
  host : Bool := false
  ep : Nat := 0
  handler : Nat := 0
  deriving DecidableEq, Repr

/-- A cached translation of one walker die (R373, R374). -/
structure Cached where
  ctx : Nat
  node : Nat
  vbase : Nat
  lg : Nat
  phys : Nat
  rights : Nat
  sealed : Bool
  slot : Nat
  deriving DecidableEq, Repr

/-- Who asked for a tree operation: a thread's unit with its pending answer, the host page, or KILL. -/
inductive Asker where
  | thread (ep uid pend launch : Nat)
  | host (port : Nat)
  /-- a withdrawal by KILL, which nobody is told of -/
  | nobody
  deriving DecidableEq, Repr

/-- The tree operations (R368, R389-R394, R460). -/
inductive TreeKind where
  | derive (grant : Bool) (va lg rctx win off rights : Nat) (cookie : Nat)
  | rootMap (node rctx win off rights : Nat)
  | unmap (va : Nat) (self : Bool) (async : Option (Nat × Nat))
  | rootUnmap (node : Nat) (self : Bool)
  | openWindow (win : Nat) (w : Window)
  | closeWindow (win : Nat)
  | query (va sel : Nat)
  | flush (va lg : Nat)
  /-- the withdrawal of one node of a killed context (R438) -/
  | purge (node : Nat)
  /-- a sealed root creation that waits for its Scroll entry (R416) -/
  | createRoot (phys lg slot tenant : Nat)
  deriving DecidableEq, Repr

/-- A tree operation that waits at its tree unit, in arrival order (R368). -/
structure TreeMsg where
  asker : Asker
  ctx : Nat
  kind : TreeKind
  floor : Nat
  deriving DecidableEq, Repr

/-- What a tree operation with invalidation rounds does when its last round has acknowledged. -/
inductive TreeEnd where
  | unmap (count va : Nat) (async : Option (Nat × Nat))
  /-- with the endpoint and the handler of the receiver's window, as they stood when the derivation was performed -/
  | grant (win base rights cookie rctx ep handler : Nat)
  | flush
  /-- a migration handover of a 64 KiB page (R386) -/
  | handover (page : Nat) (toHost : Bool)
  /-- a revocation of a key slot (R407), asked for through a port -/
  | revoke (slot : Nat)
  deriving DecidableEq, Repr

/-- An invalidation round at a walker die: its drop instant, and the accesses and copy pieces in flight that use a dropped
entry (R383). -/
structure Round where
  die : Nat
  since : Nat
  uses : List Nat
  /-- the nodes whose entries were dropped, and how many entries were -/
  nodes : List Nat
  count : Nat
  deriving DecidableEq, Repr

/-- A tree operation after its effect instant: dead marks to come, dies still to visit, the die whose round is open with
its drop instant and the accesses it waits for (R379, R383, R394). -/
structure TreeOp where
  id : Nat
  part : Nat
  asker : Asker
  ctx : Nat
  fin : TreeEnd
  /-- the nodes withdrawn, in post-order -/
  set : List Nat
  marks : List Nat
  /-- the dies of the rounds; none until the last dead mark has been made -/
  dies : Option (List Nat)
  round : Option Round
  /-- earlier withdrawals that end first (R381); for a GRANT, the withdrawals that have taken its node (R379) -/
  after : List Nat
  floor : Nat
  deriving DecidableEq, Repr

/-- Where a translated access lands, and the walker die and node it used. -/
structure Landing where
  phys : Nat
  sealed : Bool
  slot : Nat
  die : Nat
  node : Nat
  deriving DecidableEq, Repr

/-! ### Accesses in flight -/

/-- What an access in flight does when it is performed. -/
inductive ReqKind where
  /-- a load, its type and destination answer (the pending result's number is the request's) -/
  | load (t : IntTy)
  | store (bytes : Nat) (v : Word)
  | amo (t : IntTy) (op : AmoOp) (b : Word)
  | cas (t : IntTy) (exp new : Word)
  /-- the loads of a far LDAQ, until the condition holds (R231) -/
  | ldaq (t : IntTy) (c : Cond) (b : Word) (dst : Dst)
  /-- 64 bytes into the issuing core's buffer (XLD; CREC pushes the top word); 64 bytes out of it (XST) -/
  | lineIn (loc : Nat) (top : Bool)
  | lineOut (bs : List Byte)
  /-- XBURST (R262) and its remote form, by destination endpoint -/
  | burstIn (loc len : Nat)
  | burstOut (bs : List Byte)
  | burstRemote (ep off len : Nat)
  /-- bits of a word of the own scratchpad replaced: the second word of a straddling STB (R153) -/
  | bits (mask v : Nat)
  /-- a completion entry (R331); the page whose vector follows it -/
  | entry (w0 w1 : Word) (page : Option Nat)
  /-- a write of a copy unit or a drain that has left through a Scallink window (R464) -/
  | posted (bs : List Byte)
  /-- a write that has come over a Scallink connection, performed granule by granule (R212, R464) -/
  | remote (conn : Nat) (bs : List Byte)
  deriving DecidableEq, Repr

/-- An access of a thread to another core's scratchpad or to far memory, from issue until its count falls. -/
structure Req where
  id : Nat
  ep : Nat
  uid : Nat
  ctx : Nat
  launch : Nat
  det : Bool := false
  kind : ReqKind
  /-- the scratchpad's core of a peer access, by coordinate; none for a far access -/
  peer : Option Nat := none
  va : Nat
  size : Nat
  /-- the scope at which it is performed (R225) -/
  sc : Scope := .dev
  acq : Bool := false
  rel : Bool := false
  /-- the issuing thread's repetition record or record reference for the fault message -/
  detail : Word := 0
  land : Option Landing := none
  floor : Nat := 0
  /-- a release to the own scratchpad that waits for earlier accesses: it raises no count (R230) -/
  own : Bool := false
  /-- its thread issues nothing until it is done (STRL, R232) -/
  holds : Bool := false
  /-- its frame has been sent (R464) -/
  sent : Bool := false
  /-- held until its page is the device's (R217) -/
  migrating : Bool := false
  /-- bytes of a burst that have been performed, granule by granule (R212, R262); of a completion entry, those written while
  the zero-length read behind it is out (R454) -/
  done : Nat := 0
  deriving DecidableEq, Repr

/-! ### Copy units and handles (10_copies_and_handles.md) -/

/-- A kick of a channel (R249, R256). -/
structure Kick where
  ep : Nat
  uid : Nat
  ctx : Nat
  launch : Nat
  det : Bool := false
  head : Nat
  cn : Option Nat
  floor : Nat
  deriving DecidableEq, Repr

/-- A piece whose far sides have been translated and are pinned (R257, R385): its number, where in its record it starts, its
landings, its length, and how much of it has been written. -/
structure Piece where
  id : Nat
  off : Nat
  src : Option Landing
  dst : Option Landing
  len : Nat
  done : Nat := 0
  /-- its Scallink frame has been sent: it is written once that is acknowledged (R464) -/
  sent : Bool := false
  deriving DecidableEq, Repr

/-- A channel of a copy unit (R249, R256, R259). -/
structure Channel where
  queue : List Kick := []
  kick : Option Kick := none
  /-- the record walked: its reference and, once read, its eight words -/
  ref : Nat := 0
  words : Option (List Word) := none
  /-- the first failing check of R253 -/
  status : Nat := 0
  taken : Bool := false
  slot : Nat := 0
  /-- every byte below has been written; pieces in flight, and written ones beyond, in the order of their places -/
  progress : Nat := 0
  pieces : List Piece := []
  code : Nat := 0
  stopped : Bool := false
  waiting : Bool := false
  /-- the status of a stop that has yet to be written into the record (R257) -/
  owed : Option Nat := none
  /-- the beats of the record's completion stores have been given to their meters (R410) -/
  charged : Bool := false
  /-- steps 2 to 4 of its completion are done (R255) -/
  stored : Bool := false
  /-- its context has been killed, or its copy unit lost: it ends with the pieces in hand (R258, R318, R438) -/
  ending : Bool := false
  deriving DecidableEq, Repr

inductive HandleKind where
  | free
  | buffer
  | ring
  | barrier
  deriving DecidableEq, Repr

/-- A handle of a cluster (R263-R270). -/
structure Handle where
  kind : HandleKind := .free
  /-- 0 free, 1 filling, 2 full, 3 draining -/
  buf : Nat := 0
  n : Nat := 0
  free : Nat := 0
  filled : Nat := 0
  head : Nat := 0
  /-- the next slot to take, and the slots done but not yet counted -/
  next : Nat := 0
  done : List Nat := []
  /-- the floor of the record that filled a slot -/
  slotFloor : NMap Nat := []
  count : Nat := 0
  a : Nat := 0
  e : Nat := 0
  /-- expectations of the current cycle (R266) -/
  posted : Nat := 0
  mask : Nat := 0
  master : Nat := 0
  reported : Bool := false
  aggs : List Nat := []
  faulted : Bool := false
  fstatus : Nat := 0
  /-- the floor that its last release or phase completion carries, and that of the current phase's arrivals -/
  floor : Nat := 0
  arrFloor : Nat := 0
  deriving DecidableEq, Repr

/-! ### Matrix arrays (07_matrix_instructions.md) -/

/-- A direct command that has been issued (R160, R169): its instruction with the effective operand and immediate in place,
and what it takes from the issuing thread. Its source is `lead` and `uid`. -/
structure Cmd where
  ep : Nat
  lead : Nat
  uid : Nat
  ctx : Nat
  launch : Nat
  det : Bool := false
  instr : Instr
  rng : W32
  /-- the mask and the precision that its source has when it executes (R162) -/
  row : Word
  col : Word
  prec : Nat
  /-- its number among the commands of its thread, for the order of a gang's members (R313) -/
  idx : Nat
  cls : Bool
  seq : Nat
  deriving DecidableEq, Repr

/-- An entry of the job table (R163, R172). -/
structure JobEntry where
  state : Nat := 0
  err : Nat := 0
  record : Nat := 0
  chunk : Nat := 0
  /-- the floor that its completion carries -/
  floor : Nat := 0
  deriving DecidableEq, Repr

/-- What a suspended job waits for (R182, R189). -/
inductive Susp where
  | no
  | recv (tag : Nat)
  | gate
  deriving DecidableEq, Repr

/-- A job that holds a queue entry (R163, R164). -/
structure Job where
  id : Nat
  seq : Nat
  ep : Nat
  uid : Nat
  ctx : Nat
  launch : Nat
  det : Bool := false
  chain : Nat
  count : Nat
  cn : Option Nat
  cls : Bool
  pair : Bool
  src : MSrc := {}
  rng : W32
  susp : Susp := .no
  /-- tiles that MSENDT has sent and that have not arrived (R181) -/
  sends : Nat := 0
  /-- the gate's phase count at the start of the command (R189) -/
  gate : Option Nat := none
  /-- the record that it stands at, read when the array reached it (R164) -/
  command : Option Instr := none
  /-- the array that runs a pair job alone, since the other one left pair mode (R192) -/
  sole : Option Nat := none
  /-- the error code of its end slate, where that stands in the trace and the last command does not yet (R286) -/
  told : Option Nat := none
  deriving DecidableEq, Repr

/-- What an array runs: a job, or the lease of a source (R160). -/
inductive Running where
  | job (id : Nat)
  | lease (ep uid : Nat)
  deriving DecidableEq, Repr

/-- A filled receive slot (R154). -/
structure RecvTile where
  tag : Nat
  sender : Nat
  row : Word
  col : Word
  data : List Nat
  deriving DecidableEq, Repr

structure Arr where
  /-- the context that it serves, or served last (R159) -/
  ctx : Option Nat := none
  /-- it has bound to that context, and had work of it whenever new work came (R159) -/
  bound : Bool := false
  run : Option Running := none
  /-- an even array's pair job whose grant the odd array has not taken up yet (R191) -/
  offered : Option Nat := none
  /-- the even array's pair job that this odd array has granted itself to (R191) -/
  loan : Option Nat := none
  jobs : List Job := []
  table : NMap JobEntry := []
  next : Nat := 0
  cmds : List Cmd := []
  slots : List RecvTile := []
  /-- the exact values of the partial banks, by bank * 4096 + i * 64 + j -/
  part : NMap XVal := []
  streak : Nat := 0
  /-- the octet position that a grant of class 0, and of class 1, looks at first (R53) -/
  turn : Nat := 0
  turn1 : Nat := 0
  since : Nat := 0
  untested : Nat := 0
  fails : Nat := 0
  quads : BitVec 4 := 0
  mode : Nat := 0
  repl : Bool := false
  interval : Nat := 1024
  /-- when the running job's current chunk could first have started (R189) -/
  chunkAt : Nat := 0
  deriving DecidableEq, Repr

/-! ### Stages (16_stage_cloning.md) -/

structure Range where
  lo : Nat
  ep : Nat
  moving : Bool := false
  deriving DecidableEq, Repr

inductive InstState where
  | steady
  | receiving
  | opening
  | merging
  deriving DecidableEq, Repr

/-- An entry of an instance queue (R345): the slot of the ring in the core's scratchpad that holds its eight words, or the
words themselves of an entry that the home has made (R350, R354). -/
structure QEntry where
  slot : Option Nat
  made : List Word
  floor : Nat
  /-- a message that the routine in progress has sent (R351, R354) -/
  state : Bool := false
  deriving DecidableEq, Repr

/-- An instance of a stage (R344). -/
structure Inst where
  state : InstState := .steady
  parent : Option Nat := none
  queue : List QEntry := []
  /-- the ring's next slot -/
  tail : Nat := 0
  /-- depth above threshold, and pair depth below a quarter of it, since these times of the home's `ctime` -/
  aboveSince : Option Nat := none
  belowSince : Option Nat := none
  /-- of the current routine: the number that its first message could have, once it runs; class-2 messages sent to the
  partner, and those that have run to EXIT there -/
  start : Option Nat := none
  sent : Nat := 0
  ran : Nat := 0
  forwards : Nat := 0
  processed : Nat := 0
  deriving DecidableEq, Repr

/-- A change of a stage's table that interfaces are taking up (R349, R353): the old table; cores that have applied it,
each with the first message number after its application; cores that have acknowledged. -/
structure Change where
  old : List Range
  applied : List (Nat × Nat) := []
  acked : List Nat := []
  deriving DecidableEq, Repr

structure Stage where
  isOpen : Bool := false
  ctx : Nat := 0
  launch : Nat := 0
  det : Bool := false
  rech : Nat := 0
  splh : Nat := 0
  mrgh : Nat := 0
  dwell : Nat := 0
  thresh : Nat := 256
  qsize : Nat := 1
  qbase : Nat := 0
  table : List Range := []
  epoch : Nat := 0
  /-- 0 steady, 1 splitting, 2 merging -/
  mode : Nat := 0
  closing : Bool := false
  /-- a fence has ended the stage's routing (R441) -/
  dead : Bool := false
  insts : NMap Inst := []
  change : Option Change := none
  /-- the original (or parent) and the clone of the split or merge in progress; the range that is split, and its split key,
  or the lowest returned key -/
  orig : Nat := 0
  clone : Nat := 0
  lo : Nat := 0
  key : Nat := 0
  hi : Nat := 0
  deriving DecidableEq, Repr

/-! ### Sealing, meters, the Scroll (20_sealing_egress_scroll.md) -/

/-- A loaded key slot (R399, R401) with its meter (R409). -/
structure KeySlot where
  key : List Byte := []
  owner : List Byte := []
  policy : List Word := []
  /-- bytes left of the window on die 16, and of die 17's lot -/
  left : Nat := 0
  lot : Nat := 0
  window : Nat := 0
  /-- meter ports that have told of a held beat in this window (R411) -/
  told : List Nat := []
  /-- emptied, while its invalidation round runs: accesses that translated before still use the key (R407) -/
  gone : Bool := false
  deriving DecidableEq, Repr

/-- Beats of a metered operation that have yet to pass its port (R410, R411). -/
structure Beats where
  id : Nat
  ctx : Nat
  port : Nat
  left : Nat
  held : Bool := false
  deriving DecidableEq, Repr

/-- The Scroll (R412-R416): the next sequence number, the hash that the next entry carries, checkpoints, entries in
staging with their sequence numbers, entries that wait to be appended, the archived number. -/
structure Scroll where
  seq : Nat := 0
  prev : List Byte := []
  ckpts : Nat := 0
  since : Nat := 0
  lost : Nat := 0
  staging : List (Nat × List Byte) := []
  /-- meter holds that take effect once their entry is appended (R414): operation, slot, port -/
  queued : List (Nat × Nat × Nat) := []
  archived : Option Nat := none
  deriving DecidableEq, Repr

/-! ### Host, peers, bring-up (22_host_peers_bringup.md) -/

/-- A submission page (R450). -/
structure SubPage where
  bound : Bool := false
  ctx : Nat := 0
  graph : Nat := 0
  vec : Bool := false
  count : Nat := 0
  tag : Nat := 0
  outcome : Nat := 0
  deriving DecidableEq, Repr

/-- What is left of an access that has come through a BAR (R212, R213, R453). -/
structure Inbound where
  addr : Nat
  write : Bool
  data : List Byte
  len : Nat
  requester : Nat
  deriving DecidableEq, Repr

/-- How a Deferrable Memory Write completes (R451). -/
inductive WriteEnd where
  | successful
  | retry
  | unsupported
  deriving DecidableEq, Repr

/-- A Scallink frame that carries something (R463): the context that it is charged to and what it writes or starts. -/
structure Frame where
  seq : Nat
  ctx : Nat
  hdr : Word
  dest : Nat
  addr : Nat
  words : List Word
  message : Bool
  /-- the message or request that its acknowledgement settles -/
  op : Option Nat
  deriving DecidableEq, Repr

/-- The header of a Scallink frame (R463), with the EtherType and the destination address of the Ethernet frame. -/
structure FrameHead where
  /-- 0 message, 1 write, 2 acknowledgement: log 165, DESIGN CHOICE -/
  kind : Nat
  ether : Nat
  mac : Nat
  srcNode : Nat
  dstNode : Nat
  srcCtx : Nat
  dstCtx : Nat
  seq : Nat
  ack : Nat
  deriving DecidableEq, Repr

/-- Something the package has put on a bus: a posted write; a read of no bytes; a message-signalled interrupt; a Scallink
frame; the completion of a host's read, without data for Unsupported Request; a back-invalidate snoop; a copy to host memory. -/
inductive BusOut where
  | write (port bus : Nat) (data : List Byte)
  /-- the read that the device completes before a vector of the other port (R454) -/
  | zeroRead (port bus : Nat)
  /-- with the address and the data of the vector's table entry -/
  | msix (port vector : Nat) (addr : Word) (data : BitVec 32)
  /-- a frame of a connection: an acknowledgement, which refuses the next frame or does not, or one that carries something -/
  | ethernet (port conn : Nat) (head : FrameHead) (refused : Bool) (body : Option Frame)
  | completion (port addr : Nat) (data : Option (List Byte))
  /-- the completion of a Deferrable Memory Write to a submission page (R451) -/
  | deferred (port page : Nat) (st : WriteEnd)
  /-- the completion of one to a control page, by its slot (R458, R461) -/
  | control (page slot : Nat) (st : WriteEnd)
  /-- a back-invalidate snoop of a 64-byte line to the host of a port (R219) -/
  | snoop (port line : Nat)
  | host (bus : Nat) (data : List Byte)
  deriving DecidableEq, Repr

/-- The moving part of a Scallink connection (R463). -/
structure Conn where
  sendSeq : Nat := 0
  recvSeq : Nat := 0
  unacked : List Frame := []
  retries : Nat := 0
  sentAt : Nat := 0
  deriving DecidableEq, Repr

/-- The time base (R287). -/
structure TimeBase where
  state : Nat := 0
  good : Nat := 0
  firstOffset : Int := 0
  stepped : Bool := false
  lastSync : Nat := 0
  rate : Int := 0
  /-- the first lock found the reference behind: the units of `ctime` that the base has yet to lose at -100 ppm (R287) -/
  behind : Option Nat := none
  deriving DecidableEq, Repr

/-- Boot, health and the boot page's registers (R466-R469). -/
structure Boot where
  cfg : Word := 0
  /-- 0 booting, 1 configuring, 2 ready, 4 recovery; degraded is derived -/
  state : Nat := 0
  repl : Bool := false
  fail : Nat := 0
  ether : BitVec 16 := 0x88B5
  time : Word := 0
  recOff : Nat := 0
  measure : List Byte := []
  deriving DecidableEq, Repr


/-! ### Registers of contexts and tenants -/

/-- The context and tenant registers of R445, and the host's trace masks, which take effect die by die. -/
inductive SysReg where
  | pager
  | wdog
  | tmask
  | tsink
  | tsinkc
  | hmask
  deriving DecidableEq, Repr

def SysReg.code : SysReg → Nat
  | .pager => 0
  | .wdog => 1
  | .tmask => 2
  | .tsink => 3
  | .tsinkc => 4
  | .hmask => 5

/-- A write that has not yet taken effect on the listed dies (R279, R445). -/
structure RegWrite where
  reg : SysReg
  owner : Nat
  value : Word
  dies : List Nat
  /-- the I/O die whose security processor tells of the change, when its own instant comes (R279) -/
  tell : Option Nat := none
  deriving DecidableEq, Repr

/-- The context table (R26, R460). -/
structure Ctx where
  inUse : Bool := false
  tenant : Nat := 0
  part : Nat := 0
  /-- KILL in progress: the reason, and the phase of R438 -/
  kill : Option (Nat × Nat) := none
  /-- the request pages that wait for its end (R458) -/
  killers : List Nat := []
  deriving DecidableEq, Repr

/-! ### The package -/

/-- Everything that the manual gives the machine, and the model's own fields (log 8, DESIGN CHOICE). -/
structure State where
  mem : Memory := []
  /-- ticks of 1/272 ns since power-on -/
  now : Nat := 0
  /-- forward steps and rate corrections of `ctime`, in its units (R32, R287) -/
  ctimeOff : Int := 0
  agenda : List Move := []
  turn : Nat := 0
  cur : Nat := 0
  /-- the counter that fresh free values are drawn with -/
  free : Nat := 0
  uids : Nat := 1
  ids : Nat := 1
  parts : Nat := 1
  threads : NMap Thread := []
  cores : NMap Core := []
  msgs : List Msg := []
  launches : NMap Launch := []
  levels : NMap Level := []
  frees : NMap Free := []
  adm : NMap (List Adm) := []
  admSeq : Nat := 0
  /-- microseconds whose refill has been made (R307) -/
  refills : Nat := 0
  elections : NMap Nat := []
  masters : NMap Nat := []
  pairs : NMap Pair := []
  sched : NMap Sched := []
  ctxs : NMap Ctx := []
  floors : NMap Nat := []
  /-- the latest stamp of each emitter, by its src (R276, R277) -/
  stamps : NMap Nat := []
  /-- the agents that take part in the outcome asked about (R205), by src; none when no outcome is named: every pair above
  .thr is then kept -/
  outcome : Option (List Nat) := none
  /-- the floor carried by the release that last wrote a byte of memory (R220) -/
  relFloors : NMap Nat := []
  regs : NMap Word := []
  regLog : List RegWrite := []
  shares : NMap Share := []
  sinks : NMap Sink := []
  held : List Held := []
  reelNext : NMap Nat := []
  fenced : List Nat := []
  /-- dies that the security processor is to fence, and whether the control page asked for it (R440) -/
  toFence : List (Nat × Bool) := []
  /-- owner of each claim source (R439) -/
  claims : NMap Nat := []
  /-- what has been told to a claimant: source, owner, words (R431, R439) -/
  notices : List (Nat × Nat × List Word) := []
  /-- host call rings: entries written and entries consumed, by service core 0-31 (R461) -/
  callProd : NMap Nat := []
  callCons : NMap Nat := []
  /-- mapping-tree nodes by index, acceptance windows by context * 64 + id (closed when not listed) -/
  nodes : NMap Node := []
  windows : NMap Window := []
  /-- translations cached by each walker die -/
  caches : NMap (List Cached) := []
  /-- walks of each die's pool, running and waiting, in arrival order (R373): accesses, and 2^40 more than the number of a
  copy channel -/
  walks : NMap (List Nat) := []
  /-- tree operations that wait, by partition, and those past their effect instant -/
  treeQ : NMap (List TreeMsg) := []
  treeOps : List TreeOp := []
  reqs : List Req := []
  /-- copy channels by copy unit * 8 + channel, handles by cluster * 256 + handle -/
  channels : NMap Channel := []
  handles : NMap Handle := []
  arrays : NMap Arr := []
  /-- stages by partition * 64 + number -/
  stages : NMap Stage := []
  keys : NMap KeySlot := []
  beats : List Beats := []
  scroll : Scroll := {}
  /-- contexts that are metered, with the slots they are charged to (R408) -/
  metered : NMap (List Nat) := []
  /-- submission pages by port * 2048 + page -/
  pages : NMap SubPage := []
  /-- table entries by (table * 2 + port) * 4096 + index (R453, R455, R457, R462) -/
  tables : NMap (Word × Word × Word) := []
  /-- MSI-X vectors by port * 2048 + vector: unmasked when listed true; and those pending -/
  msixOn : NMap Bool := []
  msixPend : List Nat := []
  /-- the message address and data of each vector's table entry (R448, R454) -/
  msixMsg : NMap (Word × BitVec 32) := []
  busOut : List BusOut := []
  /-- accesses of each PCIe port that have not been performed whole, in arrival order -/
  inbound : NMap (List Inbound) := []
  /-- result words of the request pages: 0 host, 1 trace, 4 key, 5 control, 7 debug (R458) -/
  results : NMap Word := []
  /-- owner of each shared 64 KiB page: true when the host has it (R217) -/
  shared : NMap Bool := []
  /-- pages whose migration fault stands with the handler on the service cores (R217) -/
  migFaults : List Nat := []
  /-- directory of lines that hosts hold: physical line to (ports, exclusive) (R219) -/
  directory : NMap (List Nat × Bool) := []
  /-- lines of the directory, the least recently granted first (R219) -/
  granted : List Nat := []
  /-- lines and ports that have been snooped and whose responses are awaited (R219) -/
  recalls : List (Nat × Nat) := []
  conns : NMap Conn := []
  /-- Ethernet ports 0-15 and PCIe ports 16, 17 whose link is up -/
  links : List Nat := []
  timeBase : TimeBase := {}
  boot : Boot := {}
  /-- telemetry: selected array and interval, soft errors by die, port error counts (R470) -/
  teleSel : Word := 0
  seu : NMap Nat := []
  perr : NMap Nat := []
  /-- telemetry's power and temperature readings: 0 until time has passed, then open values of this number on (R470) -/
  sensors : Option Nat := none
  /-- debug requester to its attached context (R471) -/
  debug : NMap Nat := []
  /-- a debug read whose beat has yet to pass its meters: its number and the word (R411) -/
  debugWait : Option (Nat × Word) := none
  /-- the word that the debug port has read last -/
  debugWord : Word := 0
  /-- the service state that each I/O die holds for the other has been taken over (R442) -/
  failover : Bool := false
  deriving DecidableEq, Repr

/-! ### Outcomes -/

/-- Why the machine stops. -/
inductive Fault where
  /-- raised by the physical memory accessor when a physical address lies outside HBM4E and every outbound window:
  safe, the manual gives the access no effect (log 134, DEDUCED) -/
  | noSuchAddress
  deriving DecidableEq, Repr

/-- Why a step is refused. -/
inductive Refusal where
  /-- raised by the dispatcher for a row that has no meaning yet: safe -/
  | notModelled (mnemonic : String)
  /-- raised by the step function when a move names an instruction row as an event: safe, no such step exists -/
  | notAnEvent
  deriving DecidableEq, Repr

/-- What an instruction or another step of the machine answers. -/
abbrev Out := Host.Outcome State Fault Refusal

/-- The package right after power-on reset. Values that no field map gives: log 1, DESIGN CHOICE; the MSI-X masks: log 104,
PRESUMED. -/
def State.reset : State := {}

end Sys2Proof.Machine
end

