-- ==== Sys2Proof/Machine/Topology.lean ====
section
/-!
DEFINITION. Where things stand in the package (01_the_package.md R5-R29): dies, endpoints, cores, clusters, octets,
partitions. Endpoints, cores and dies are numbers here; their 18-bit form is R28's.
-/
namespace Sys2Proof

/-- How wide a scope is (R196). -/
def Scope.rank : Scope → Nat
  | .thr => 0
  | .cl => 1
  | .die => 2
  | .dev => 3
  | .sys => 4

def Scope.max (a b : Scope) : Scope := if a.rank ≤ b.rank then b else a
def Scope.min (a b : Scope) : Scope := if a.rank ≤ b.rank then a else b

end Sys2Proof

namespace Sys2Proof.Machine

def epDie (ep : Nat) : Nat := ep / 2 ^ 13
def epRow (ep : Nat) : Nat := ep / 2 ^ 8 % 32
def epCol (ep : Nat) : Nat := ep / 2 ^ 3 % 32
def epThread (ep : Nat) : Nat := ep % 8
/-- A core's coordinate: its endpoint without the thread (R29). -/
def epCore (ep : Nat) : Nat := ep / 8
def coreEp (core t : Nat) : Nat := core * 8 + t
def mkEp (die row col t : Nat) : Nat := die * 2 ^ 13 + row * 2 ^ 8 + col * 2 ^ 3 + t

def isVDie (d : Nat) : Bool := d < 8
def isMDie (d : Nat) : Bool := 8 ≤ d && d < 16
def isIoDie (d : Nat) : Bool := d == 16 || d == 17
def isBaseDie (d : Nat) : Bool := 20 ≤ d && d < 32

/-- R29: a thread of a small core. -/
def isSmall (ep : Nat) : Bool := isVDie (epDie ep) && epRow ep < 18
/-- R29: a thread of a memory core. -/
def isMemCore (ep : Nat) : Bool := isBaseDie (epDie ep) && epRow ep == 0 && ep < 2 ^ 18
/-- R29: a service core. (log 136, DESIGN CHOICE) -/
def isService (ep : Nat) : Bool := isIoDie (epDie ep) && epRow ep == 0 && epCol ep < 16 && epThread ep == 0
/-- R29: every valid endpoint. -/
def validEp (ep : Nat) : Bool := isSmall ep || isMemCore ep || isService ep

/-- R11, from the core coordinate of a small core. -/
def coreDie (c : Nat) : Nat := c / 2 ^ 10
def coreRow (c : Nat) : Nat := c / 32 % 32
def coreCol (c : Nat) : Nat := c % 32
def coreCluster (c : Nat) : Nat := coreCol c / 8
def corePeer (c : Nat) : Nat := coreRow c * 8 + coreCol c % 8
def coreOctet (c : Nat) : Nat := coreRow c / 2 * 8 + coreCol c / 4
def corePos (c : Nat) : Nat := coreRow c % 2 * 4 + coreCol c % 4
/-- The array and copy unit of a small core's octet: pair * 72 + octet (R12). -/
def coreArray (c : Nat) : Nat := coreDie c * 72 + coreOctet c
/-- The cluster of a small core: die * 4 + cluster. -/
def coreCl (c : Nat) : Nat := coreDie c * 4 + coreCluster c
/-- The core at peer index `i` of cluster `cl` = die * 4 + cluster (R11). -/
def peerCore (cl i : Nat) : Nat := cl / 4 * 2 ^ 10 + i / 8 * 32 + cl % 4 * 8 + i % 8
/-- The core at position `pos` of array `a`'s octet (R11). -/
def octetCore (a pos : Nat) : Nat :=
  let die := a / 72
  let oct := a % 72
  die * 2 ^ 10 + (oct / 8 * 2 + pos / 4) * 32 + (oct % 8 * 4 + pos % 4)
/-- The cluster of array `a`. -/
def arrayCl (a : Nat) : Nat := coreCl (octetCore a 0)
/-- The other array of a fused pair: 2m and 2m + 1 (R13). -/
def arrayMate (a : Nat) : Nat := if a % 2 == 0 then a + 1 else a - 1
def arrayDie (a : Nat) : Nat := 8 + a / 72
/-- The src of an array and of a copy unit (R275). -/
def arraySrc (a : Nat) : Nat := mkEp (arrayDie a) (a % 72 / 8) (a % 72 % 8) 0
def copySrc (a : Nat) : Nat := mkEp (arrayDie a) (a % 72 / 8) (a % 72 % 8) 1
def distributorSrc (pair : Nat) : Nat := mkEp pair 31 31 0
def walkerSrc (die : Nat) : Nat := mkEp die 2 0 0
def loaderSrc (die ch : Nat) : Nat := mkEp die 1 ch 0
def securitySrc (die : Nat) : Nat := mkEp die 4 0 0
def drainSrc (die : Nat) : Nat := mkEp die 4 1 0
def treeSrc (die : Nat) : Nat := mkEp die 31 4 0
def niSrc (die : Nat) : Nat := mkEp die 31 3 0
def scallinkSrc (die : Nat) : Nat := mkEp die 31 2 0
/-- (log 126, DEDUCED) -/
def hostSrc (die : Nat) : Nat := mkEp die 31 1 0

/-- The end of space 0: 384 KiB on a small core, 512 KiB on a memory core (R137). (log 19, DEDUCED) -/
def padSize (core : Nat) : Nat := if isVDie (coreDie core) then 0x60000 else 0x80000

/-! ### Scopes (R196) -/

/-- R196: the instance of a scope that an agent belongs to, as a kind and a number. An agent is named by its src; hosts and
peers outside the package are the numbers from 2^18 upward. (log 140, DESIGN CHOICE) -/
def scopeInst (sc : Scope) (a : Nat) : Nat × Nat :=
  match sc with
  | .sys => (5, 0)
  | .dev => if 2 ^ 18 ≤ a then (6, a) else (4, 0)
  | .die => if 2 ^ 18 ≤ a then (6, a) else if isMDie (epDie a) then (3, epDie a - 8) else (3, epDie a)
  | .cl =>
    if 2 ^ 18 ≤ a then (6, a)
    else if isSmall a then (1, coreCl (epCore a))
    else if isMDie (epDie a) then (1, (epDie a - 8) * 4 + epCol a / 2)
    else (2, epCore a)
  | .thr => if 2 ^ 18 ≤ a then (6, a) else (0, a)

/-- The instance of a scope that `a` belongs to contains `b`. -/
def inScope (sc : Scope) (a b : Nat) : Bool := scopeInst sc a == scopeInst sc b

/-- R197: the scope of a send: the narrowest, no narrower than .cl, whose instance holds the destination. -/
def sendScope (a dest : Nat) : Scope :=
  if inScope .cl a dest then .cl else if inScope .die a dest then .die else if inScope .dev a dest then .dev else .sys

/-- R25: the partition of a die pair and of a package channel, for `n` partitions. -/
def pairPart (n pair : Nat) : Nat := pair * n / 8
def channelPart (n ch : Nat) : Nat := ch * n / 384
/-- The package channel of a memory core (R23). -/
def coreChannel (c : Nat) : Nat := (coreDie c - 20) * 32 + coreCol c
/-- The partition whose contexts an endpoint serves; service cores serve all (R27). -/
def corePart (n c : Nat) : Nat := if isVDie (coreDie c) then pairPart n (coreDie c) else channelPart n (coreChannel c)
/-- The die pairs of a partition. -/
def partPairs (n part : Nat) : List Nat := (List.range 8).filter fun p => pairPart n p == part
/-- The dies of a partition: V- and M-dies of its pairs, base dies with one of its channels, both I/O dies. -/
def partDies (n part : Nat) : List Nat :=
  (List.range 32).filter fun d =>
    if isVDie d then pairPart n d == part
    else if isMDie d then pairPart n (d - 8) == part
    else if isIoDie d then true
    else if isBaseDie d then
      (List.range 32).any fun c => channelPart n ((d - 20) * 32 + c) == part
    else false
/-- The I/O die that holds a partition's tree unit (R368). -/
def treeDie (part : Nat) : Nat := 16 + part % 2
/-- The I/O die that holds a die's trace buffer (R280). -/
def traceDie (d : Nat) : Nat := if d == 16 || d == 17 then d else if d < 8 || (20 ≤ d && d < 26) then 16 else 17

end Sys2Proof.Machine
end

