-- ==== Sys2Proof/Machine/Fetch.lean ====
section
/-!
DEFINITION. Fetching an instruction and the body of a repetition from space 0 of a core (R61-R64, R75, R76, R82).
-/
namespace Sys2Proof.Machine

/-- The engine of a core (R82). -/
def engineOf (core : Nat) : Engine := if isVDie (coreDie core) then .small else .memory

/-- Where the instruction after one of `len` bytes at `pc` starts: a window's offset 28 is skipped (R62). -/
def nextPc (pc : W32) (len : Nat) : W32 :=
  let p := pc + BitVec.ofNat 32 len
  if p.toNat % 32 == 28 then p + 4 else p

/-- R63: no byte at or above this near address is fetched, on a memory core too. (log 19, DEDUCED) -/
def fetchEnd : Nat := 0x60000

/-- The instruction at `pc` of a core and its length, or the first failing check in the order of R76.
(log 13, DESIGN CHOICE) -/
def fetchAt (m : Memory) (core pc : Nat) : Except DecodeError (Instr × Nat) :=
  if fetchEnd < pc + 4 then .error .fetchAddress
  else
    match lengthOf (m.read (padKey core pc)) with
    | none => .error .lengthCode
    | some n =>
      if fetchEnd < pc + n then .error .fetchAddress
      else if 32 < pc % 32 + n then .error .fetchWindow
      else
        match Enc.ofNat (m.readNat n (padKey core pc)) with
        | none => .error .lengthCode
        | some e =>
          if !e.runsOn (engineOf core) then .error .engine
          else
            match decodeEnc e with
            | .error x => .error x
            | .ok i => .ok (i, n)

/-- Bytes 0-7 of the instruction at `pc`, the detail of the reserved-instruction trap (R420). -/
def fetchDetail (m : Memory) (core pc : Nat) : Word := m.readWord (padKey core pc)

/-- R75: what a repetition body may not hold, beside the longer formats. -/
def notInBody : Instr → Bool
  | .br .. | .j .. | .jl .. | .jr .. | .ret .. | .loop .. | .rep .. | .eret | .trap .. | .brk .. | .ckpt .. | .halt => true
  | _ => false

/-- The next `n` instructions in sequential fetch order, if a repetition may hold them, and the address after them (R75).
A word that is no instruction stands in the body as such: it raises the reserved-instruction fault at its own address when
its turn comes (R76), unless its length is 96 or 128 bits: it is then one of the instructions that R75 shuts out. (log 142,
DEDUCED) -/
def fetchBody (m : Memory) (core : Nat) : Nat → W32 → Option (List (W32 × Instr) × W32)
  | 0, pc => some ([], pc)
  | n + 1, pc =>
    match fetchAt m core pc.toNat with
    | .error .fetchAddress | .error .fetchWindow => none
    | .error e =>
      let len := (lengthOf (m.read (padKey core pc.toNat))).getD 4
      if 8 < len then none
      else (fetchBody m core n (nextPc pc len)).map fun (l, z) =>
        ((pc, .reservedInstruction e pc (fetchDetail m core pc.toNat)) :: l, z)
    | .ok (i, len) =>
      if len != 8 || notInBody i then none
      else (fetchBody m core n (nextPc pc len)).map fun (l, z) => ((pc, i) :: l, z)

/-- The repetition with this immediate whose body starts at `start` (R75). -/
def repAt (m : Memory) (core : Nat) (imm start : W32) : Option Rep :=
  let len := imm.toNat / 2 ^ 16 % 16 + 1
  if imm.toNat % 2 ^ 16 == 0 then none
  else (fetchBody m core len start).map fun (b, z) => ⟨imm, start, b, 0, 0, z⟩

/-- The place of an address in a list of body addresses. -/
def bodyIndex (pc : W32) : List (W32 × Instr) → Nat → Option Nat
  | [], _ => none
  | (a, _) :: l, i => if a == pc then some i else bodyIndex pc l (i + 1)

end Sys2Proof.Machine
end

