-- ==== Sys2Proof/Machine/Scalar.lean ====
section
/-!
DEFINITION. The scalar instructions whose result takes more than one cycle (R122): their latency, rounding mode and value
on captured operands. The replay of an abandoned instruction (R425, R426) computes the value here once more.
-/
namespace Sys2Proof.Machine

/-- Cycles from issue to a dependent instruction (R122); 1 for every other scalar instruction. -/
def lateCycles : Instr → Nat
  | .mul .. | .mulh .. | .mulhn .. => 3
  | .div t _ | .divn t _ | .rem t _ | .remn t _ => 2 + intBits t / 2
  | .fadd .. | .fsub .. | .fmul .. | .ffma .. | .fcvt .. => 4
  | .fexp2 .. | .flog2 .. | .frsq .. => 12
  | .fdiv .. | .fsqrt .. => 14
  | _ => 1

/-- Cycles from issue to the write of a result, for the order in which the generator steps (R117, R122). `VSA` with
stochastic rounding, which R122 gives no latency, writes in the cycle after its issue. (log 174, DESIGN CHOICE) -/
def writeCycles : Instr → Nat
  | .vadd .. | .vsub .. | .vmul .. | .vmin .. | .vmax .. | .vabs .. | .vfma .. | .vscl .. | .vcvt .. => 4
  | .vidx .. => 2
  | .vred .. => 10
  | .vexp2 .. | .vrsq .. | .vrcp .. => 12
  | .mload .. | .mmove .. | .mjob .. => 0
  | i => lateCycles i

/-- The rounding mode, which says whether the instruction steps the generator (R116, R117). -/
def lateRnd : Instr → Rnd
  | .fadd _ rm _ _ | .fsub _ rm _ _ | .fmul _ rm _ _ | .ffma _ rm _ _ | .fcvt _ rm _ _ _ _ => rm
  | .fdiv rm _ _ | .fsqrt rm _ _ | .fexp2 rm _ _ | .flog2 rm _ _ | .frsq rm _ _ => rm
  | _ => .rne

/-- The value on operands `a`, `b`, the implicit w0 `c` and the generator's state `g`. -/
def lateValue (i : Instr) (a b c : Word) (g : W32) : Word :=
  match i with
  | .mul t _ => aluMul t a b
  | .mulh t _ | .mulhn t _ => aluMulh t a b
  | .div t _ | .divn t _ => aluDiv t a b
  | .rem t _ | .remn t _ => aluRem t a b
  | .fadd t rm z _ => fpOut z (fElem t) rm g (fpAdd rm (fpIn z (fElem t) a.toNat) (fpIn z (fElem t) b.toNat))
  | .fsub t rm z _ => fpOut z (fElem t) rm g (fpSub rm (fpIn z (fElem t) a.toNat) (fpIn z (fElem t) b.toNat))
  | .fmul t rm z _ => fpOut z (fElem t) rm g ((fpIn z (fElem t) a.toNat).mul (fpIn z (fElem t) b.toNat))
  | .ffma t rm z _ =>
    fpOut z (fElem t) rm g
      (fpFma rm (fpIn z (fElem t) a.toNat) (fpIn z (fElem t) b.toNat) (fpIn z (fElem t) c.toNat))
  | .fdiv rm z _ => fpOut z .f32 rm g ((fpIn z .f32 a.toNat).div (fpIn z .f32 b.toNat))
  | .fsqrt rm z _ => fpOut z .f32 rm g (fpIn z .f32 a.toNat).sqrt
  | .fexp2 rm z _ => fpOut z .f32 rm g (fpIn z .f32 a.toNat).exp2
  | .flog2 rm z _ => fpOut z .f32 rm g (fpIn z .f32 a.toNat).log2
  | .frsq rm z _ => fpOut z .f32 rm g (fpIn z .f32 a.toNat).rsqrt
  | .fcvt d rm nb src _ _ => fpConvert (fcvtSource src) d rm nb g a
  | _ => c

end Sys2Proof.Machine
end

