-- ==== Sys2Proof/Machine/Ops.lean ====
section
/-!
DEFINITION. The named operations that the meanings share: threads and cores, time and floors, the registers of contexts
and tenants, the scratchpad with its guards and undo entries, slates, messages, units, level records, and taking an
exception with the return from one.
-/
namespace Sys2Proof.Machine

/-! ### Threads, cores, tables -/

def State.thr (s : State) (ep : Nat) : Thread := nget {} s.threads ep
def State.setThr (s : State) (ep : Nat) (t : Thread) : State := { s with threads := nset s.threads ep t }
def State.updThr (s : State) (ep : Nat) (f : Thread → Thread) : State := s.setThr ep (f (s.thr ep))
def State.core (s : State) (c : Nat) : Core := nget {} s.cores c
def State.setCore (s : State) (c : Nat) (k : Core) : State := { s with cores := nset s.cores c k }
def State.updCore (s : State) (c : Nat) (f : Core → Core) : State := s.setCore c (f (s.core c))
/-- The acting thread. -/
def State.me (s : State) : Thread := s.thr s.cur
def State.upd (s : State) (f : Thread → Thread) : State := s.updThr s.cur f
def State.updRegs (s : State) (f : Regs → Regs) : State := s.upd fun t => { t with regs := f t.regs }
def State.curCore (s : State) : Nat := epCore s.cur

def State.ctx (s : State) (c : Nat) : Ctx := nget {} s.ctxs c
/-- The context that a core is bound to; 0 when unbound. -/
def State.ctxOf (s : State) (core : Nat) : Nat := ((s.core core).bound).getD 0
def State.myCtx (s : State) : Nat := s.ctxOf s.curCore
def State.pair (s : State) (p : Nat) : Pair := nget {} s.pairs p
def State.updPair (s : State) (p : Nat) (f : Pair → Pair) : State := { s with pairs := nset s.pairs p (f (s.pair p)) }
def State.schedOf (s : State) (p : Nat) : Sched := nget {} s.sched p
def State.updSched (s : State) (p : Nat) (f : Sched → Sched) : State :=
  { s with sched := nset s.sched p (f (s.schedOf p)) }

/-- Launch records by partition and tag (R44). -/
def launchKey (part tag : Nat) : Nat := part * 4096 + tag
def State.launch (s : State) (part tag : Nat) : Launch := nget {} s.launches (launchKey part tag)
def State.setLaunch (s : State) (part tag : Nat) (l : Launch) : State :=
  { s with launches := nset s.launches (launchKey part tag) l }
def State.updLaunch (s : State) (part tag : Nat) (f : Launch → Launch) : State :=
  s.setLaunch part tag (f (s.launch part tag))

/-- Records of levels 2-4 by level, partition and index (R44). -/
def levelKey (lvl part i : Nat) : Nat := (lvl * 8 + part) * 1024 + i
def State.level (s : State) (lvl part i : Nat) : Level := nget {} s.levels (levelKey lvl part i)
def State.updLevel (s : State) (lvl part i : Nat) (f : Level → Level) : State :=
  { s with levels := nset s.levels (levelKey lvl part i) (f (s.level lvl part i)) }

/-- A fresh number for a message or an operation in flight. -/
def State.fresh (s : State) : Nat × State := (s.ids, { s with ids := s.ids + 1 })

/-- A fresh free value (a value the manual leaves open). (log 5, DESIGN CHOICE) -/
def State.freeValue (s : State) : Word × State := (Config.freeWord s.free, { s with free := s.free + 1 })

/-- Ticks of one cycle of a core's clock (R9). -/
def coreCycle (core : Nat) : Nat := if isVDie (coreDie core) then Config.arithCycle else Config.baseCycle

/-! ### Time -/

/-- A die's copy of `ctime` (R30, R31). (log 7, DESIGN CHOICE) -/
def State.ctime (s : State) (die : Nat) : Nat :=
  ((s.now / Config.ctimeTicks : Nat) + s.ctimeOff).toNat % 2 ^ 64 + (Config.skew die).val

def State.floor (s : State) (src : Nat) : Nat := nget 0 s.floors src
def State.setFloor (s : State) (src v : Nat) : State := { s with floors := nset s.floors src v }
/-- An acquire that reads a carried floor (R220). -/
def State.raiseFloor (s : State) (src v : Nat) : State :=
  { s with floors := if s.floor src < v then nset s.floors src v else s.floors }
/-- The stamp of R276: Max(ctime, floor + 1), which becomes the emitter's floor; and above the emitter's latest stamp, so
that its slates rise strictly whichever units it has run (R276, R277). -/
def State.stamp (s : State) (src die : Nat) : Nat × State :=
  let v := Nat.max (Nat.max (s.ctime die) (s.floor src + 1)) (nget 0 s.stamps src + 1)
  (v, { s.setFloor src v with stamps := nset s.stamps src v })
/-- The floor that a release, send or phase completion carries (R220). (log 16, DEDUCED) -/
def State.carried (s : State) (src die : Nat) : Nat := Nat.max (s.ctime die) (s.floor src)

/-! ### Scopes (R205) -/

/-- R205: a pair that is kept at a scope of agent `a` orders the global memory order when the scope's instance holds every
agent that takes part in the outcome. Where no outcome is named every pair above .thr is kept. (log 141, DESIGN CHOICE) -/
def State.keptAt (s : State) (a : Nat) (sc : Scope) : Bool :=
  match s.outcome with
  | none => sc != .thr
  | some l => l.all fun b => inScope sc a b

/-! ### Registers of contexts and tenants -/

def sysKey (r : SysReg) (owner die : Nat) : Nat := (r.code * 4096 + owner) * 32 + die
/-- The value in force on a die (R445). -/
def State.sysReg (s : State) (r : SysReg) (owner die : Nat) : Word := nget 0 s.regs (sysKey r owner die)
def State.setReg (s : State) (r : SysReg) (owner die : Nat) (v : Word) : State :=
  { s with regs := nset s.regs (sysKey r owner die) v }
/-- A write: in force at once on `die`, and on each other die of a list at an instant of its own (R445). -/
def State.writeReg (s : State) (r : SysReg) (owner : Nat) (v : Word) (die : Nat) (dies : List Nat) : State :=
  let s := s.setReg r owner die v
  let log := mapIf (fun w => w.reg == r && w.owner == owner) (fun w => { w with dies := w.dies.filter (· != die) }) s.regLog
  { s with regLog := log ++ [⟨r, owner, v, dies.filter (· != die), none⟩] }

/-! ### Slates -/

/-- An emitter waits with a slate that its share has no room for (R280). -/
def State.holding (s : State) (src : Nat) : Bool := s.held.any (·.src == src)
/-- An emitter does not move: it holds a slate (R280), or its die is fenced (R440). -/
def State.isHeld (s : State) (src : Nat) : Bool := s.holding src || s.fenced.contains (src / 2 ^ 13 % 32)

/-- The share on a die of a sink: the tenant's number, or this model's own number of a sink that is being torn down. -/
def shareKey (die sink : Nat) : Nat := sink * 32 + die
def State.share (s : State) (die sink : Nat) : Share := nget {} s.shares (shareKey die sink)
def State.setShare (s : State) (die sink : Nat) (x : Share) : State :=
  { s with shares := nset s.shares (shareKey die sink) x }

def Slate.slots (x : Slate) : Nat := if x.ext.isSome then 2 else 1
def slotsOf : List Slate → Nat
  | [] => 0
  | x :: xs => x.slots + slotsOf xs
/-- Free slots of a share: 1,024 per segment of 16 KiB (R280); a share whose drain has faulted counts as full (R281). -/
def Share.room (x : Share) : Nat := if x.faulted then 0 else x.segs * 1024 - slotsOf x.slates

/-- The low word of a slate (R273). (log 173, DEDUCED) -/
def slateLow (code ctx src payload : Nat) : Word :=
  BitVec.ofNat 64 (code % 2 ^ 12 * 2 ^ 52 + ctx % 2 ^ 12 * 2 ^ 40 + src % 2 ^ 18 * 2 ^ 22 + payload % 2 ^ 22)

def Slate.bytes (x : Slate) : List Byte :=
  leBytes 8 x.low.toNat ++ leBytes 8 x.time ++
    match x.ext with
    | none => []
    | some (a, b) => leBytes 8 a.toNat ++ leBytes 8 b.toNat

/-- R288: the last reel takes the slate, two slots when extended, the ring overwriting its oldest. -/
def State.reel (s : State) (die : Nat) (x : Slate) : State :=
  let i := nget 0 s.reelNext die
  let s := { s with mem := s.mem.writeBytes (x.bytes.take 16) (reelKey die (i * 16)) }
  if x.ext.isSome then
    { s with mem := s.mem.writeBytes (x.bytes.drop 16) (reelKey die ((i + 1) % 4096 * 16)),
             reelNext := nset s.reelNext die ((i + 2) % 4096) }
  else { s with reelNext := nset s.reelNext die ((i + 1) % 4096) }

/-- A sink takes slates on a die: it has a share there, and its register is in force (R283, R445). -/
def State.sinkOn (s : State) (die sink : Nat) : Bool :=
  (s.share die sink).segs != 0 && (s.sysReg .tsink sink die).getLsbD 63

/-- A slate waits for its share (R280). -/
def State.holdSlate (s : State) (h : Held) : State := { s with held := s.held ++ [h] }

def State.pushSlates (s : State) (die sink : Nat) (xs : List Slate) : State :=
  let sh := s.share die sink
  s.setShare die sink { sh with slates := sh.slates ++ xs }

/-- The policy word `i` of a loaded slot (R401). -/
def KeySlot.word (k : KeySlot) (i : Nat) : Word := k.policy.getD i 0

/-- R284, R403: the host's copy of a slate of this context is redacted: the space holds a live sealed mapping, and not
every slot of such mappings grants trace payloads. -/
def State.hides (s : State) (ctx : Nat) : Bool :=
  s.nodes.any fun (_, n) => n.ctx == ctx && ctx != 0 && n.sealed && n.state == .live &&
    !((nget {} s.keys n.slot).word 5).getLsbD 1

/-- The host's copy of a slate, with its payload and extension zeroed where it is redacted (R284). -/
def hostCopy (hide : Bool) (time code ctx src payload : Nat) (ext : Option (Word × Word)) : Slate :=
  if hide then ⟨time, slateLow (code ||| 0x800) ctx src 0, ext.map fun _ => (0, 0)⟩
  else ⟨time, slateLow code ctx src payload, ext⟩

/-- A stall or a drops slate as a sink takes it; the host's copy stands in the last reel too. -/
def State.sideSlate (s : State) (die sink time code ctx src payload : Nat) : Slate × State :=
  let x := hostCopy (sink == 0 && s.hides ctx) time code ctx src payload none
  (x, if sink == 0 then s.reel die x else s)

/-- R280, R282: admit a slate into the share of a sink on a die. Lossless and full: the emitter stalls with the slate
held. Lossy and full: discarded and counted; a count that is not zero goes ahead in a drops slate. -/
def State.admitSlate (s : State) (who src die sink ctx : Nat) (x : Slate) (completes : Bool) : State :=
  let sh := s.share die sink
  if !s.sinkOn die sink then s
  else if sh.lossless then
    if x.slots ≤ sh.room && !s.held.any (fun h => h.src == who && h.tenant == sink) then s.pushSlates die sink [x]
    else s.holdSlate ⟨who, die, sink, ctx, x, s.now, completes, true⟩
  else if sh.drops == 0 then
    if x.slots ≤ sh.room then s.pushSlates die sink [x] else s.setShare die sink { sh with drops := 1 }
  else if x.slots + 1 ≤ sh.room then
    let (t, s) := s.stamp src die
    let (d, s) := s.sideSlate die sink t 0x2C1 ctx src (Nat.min sh.drops 0x3FFFFF)
    (s.setShare die sink { sh with drops := 0 }).pushSlates die sink [d, x]
  else s.setShare die sink { sh with drops := Nat.min (sh.drops + 1) 0x3FFFFF }

/-- The tenant of a context; context 0 is the host's (R274). -/
def State.tenantOf (s : State) (ctx : Nat) : Nat := if ctx == 0 then 0 else (s.ctx ctx).tenant

/-- Whether a class is enabled in a tenant's entry, for the host sink and for the tenant's own (R279). -/
def State.hostOn (s : State) (die tenant cls : Nat) : Bool := (s.sysReg .hmask tenant die).getLsbD cls
def State.ownOn (s : State) (die tenant cls : Nat) : Bool := (s.sysReg .tmask tenant die).getLsbD cls

/-- The sinks that a slate of a class and context is formed for (R279). -/
def State.sinksFor (s : State) (die ctx cls : Nat) : List Nat :=
  let tn := s.tenantOf ctx
  if tn == 0 then (if s.hostOn die 0 cls || s.ownOn die 0 cls then [0] else [])
  else (if s.hostOn die tn cls then [0] else []) ++ (if s.ownOn die tn cls then [tn] else [])

/-- A lossless share that has no room for the slate. -/
def State.blocks (s : State) (die sink : Nat) (x : Slate) : Bool :=
  s.sinkOn die sink && (s.share die sink).lossless && (s.share die sink).room < x.slots

def State.admitAll (s : State) (who src die ctx : Nat) (completes : Bool) : List (Nat × Slate) → State
  | [] => s
  | (k, x) :: r => State.admitAll (s.admitSlate who src die k ctx x completes) who src die ctx completes r

/-- (log 73, DEDUCED) -/
def State.holdAll (s : State) (who die ctx : Nat) : List (Nat × Slate) → State
  | [] => s
  | (k, x) :: r => State.holdAll (s.holdSlate ⟨who, die, k, ctx, x, s.now, false, s.blocks die k x⟩) who die ctx r

/-- Form a slate with a given time, if a sink's mask or the last reel takes it (R279, R284, R288). A trace instruction
admits its slate everywhere or nowhere (R285). (log 73, DEDUCED) -/
def State.form (s : State) (who src die ctx code payload : Nat) (ext : Option (Word × Word)) (time : Nat)
    (hideHost completes : Bool) : State :=
  let cls := code / 64 % 16
  let code := if ext.isSome then code ||| 0x400 else code
  let open_ : Slate := ⟨time, slateLow code ctx src payload, ext⟩
  let host := hostCopy hideHost time code ctx src payload ext
  let ks := s.sinksFor die ctx cls
  let s := if ks.contains 0 || cls == 12 || cls == 14 then s.reel die host else s
  let xs := ks.map fun k => (k, if k == 0 then host else open_)
  if !completes && xs.any (fun (k, x) => s.blocks die k x) then
    s.holdAll who die ctx (xs.filter fun (k, _) => s.sinkOn die k)
  else s.admitAll who src die ctx completes xs

/-- Whether anything forms a slate of this class for the context on the die. -/
def State.traced (s : State) (die ctx cls : Nat) : Bool :=
  !(s.sinksFor die ctx cls).isEmpty || cls == 12 || cls == 14

/-- An emitter's slate, stamped at the event (R276). Nothing is stamped when no sink and no reel would take it. -/
def State.emitX (s : State) (src die ctx code payload : Nat) (ext : Option (Word × Word)) (completes : Bool) : State :=
  if s.traced die ctx (code / 64 % 16) then
    let (t, s) := s.stamp src die
    s.form src src die ctx code payload ext t (s.hides ctx) completes
  else s

def State.emit (s : State) (src die ctx code payload : Nat) : State := s.emitX src die ctx code payload none true
def State.emitExt (s : State) (src die ctx code payload : Nat) (x y : Word) : State :=
  s.emitX src die ctx code payload (some (x, y)) true

/-- The number that a core's network interface waits under (R275). -/
def niWho (core : Nat) : Nat := 2 ^ 18 + coreEp core 0
/-- A slate of a core's network interface: the src and the floor of thread 0 (R275). -/
def State.emitNi (s : State) (core code payload : Nat) : State :=
  let src := coreEp core 0
  let ctx := s.ctxOf core
  if s.traced (coreDie core) ctx (code / 64 % 16) then
    let (t, s) := s.stamp src (coreDie core)
    s.form (niWho core) src (coreDie core) ctx code payload none t (s.hides ctx) true
  else s

/-- A slate of the acting thread. -/
def State.emitMe (s : State) (code payload : Nat) : State := s.emit s.cur (epDie s.cur) s.myCtx code payload

/-! ### Messages -/

/-- A message header (R36). -/
def mkHdr (handler ctx src launch cls words : Nat) (det : Bool) : Word :=
  BitVec.ofNat 64 (handler % 2 ^ 12 * 2 ^ 52 + ctx % 2 ^ 12 * 2 ^ 40 + src % 2 ^ 18 * 2 ^ 22 + launch % 2 ^ 12 * 2 ^ 10 +
    cls % 4 * 2 ^ 8 + words % 8 * 2 ^ 5 + (if det then 16 else 0))

/-- Bits [hi:lo] of a word as a number, by its low bit and its width. -/
def fld (w : Word) (lo n : Nat) : Nat := w.toNat / 2 ^ lo % 2 ^ n

def hdrHandler (h : Word) : Nat := fld h 52 12
def hdrCtx (h : Word) : Nat := fld h 40 12
def hdrSrc (h : Word) : Nat := fld h 22 18
def hdrLaunch (h : Word) : Nat := fld h 10 12
def hdrClass (h : Word) : Nat := fld h 8 2
def hdrWords (h : Word) : Nat := fld h 5 3
def hdrDet (h : Word) : Bool := h.getLsbD 4

/-- Put a message in flight, behind those already there; its number is fresh. -/
def State.post (s : State) (m : Msg) : State := { s with msgs := s.msgs ++ [{ m with id := s.ids }], ids := s.ids + 1 }

/-- What one fault message says (R376, R432). -/
structure FaultInfo where
  cause : Nat
  access : Nat := 0
  issuer : Nat := 0
  launch : Nat := 0
  g2 : Word := 0
  g3 : Word := 0
  g4 : Word := 0
  deriving DecidableEq, Repr

/-- Word g1 of a fault message. -/
def FaultInfo.g1 (f : FaultInfo) : Word :=
  BitVec.ofNat 64 (f.cause % 256 * 2 ^ 56 + f.access % 16 * 2 ^ 52 + f.issuer % 2 ^ 18 * 2 ^ 32 +
    f.launch % 2 ^ 12 * 2 ^ 20)

/-- R375, R431, R432: a fault message of a context, raised by the part `src` of a die, to the pager in force there; with
no pager it goes to the claimant of the partition's orphan-fault source (R439). It is stamped under `stampSrc`.
(log 81, DEDUCED) -/
def State.faultMsg (s : State) (ctx die src stampSrc : Nat) (f : FaultInfo) : State :=
  let (t, s) := s.stamp stampSrc die
  let words := [f.g1, f.g2, f.g3, f.g4, BitVec.ofNat 64 t]
  let pager := s.sysReg .pager ctx die
  if pager.getLsbD 63 then
    s.post { hdr := mkHdr (fld pager 32 12) ctx src f.launch 2 5 true, dest := fld pager 0 18, payload := words,
             src := src, floor := s.carried stampSrc die }
  else
    let source := (s.ctx ctx).part
    { s with notices := s.notices ++ [(source, nget 1 s.claims source, words)] }

/-- A fault message that a core raises for one of its threads: src (die, 31, 3, 0), stamped under the interface's
emitter, thread 0 (R36, R275). -/
def State.coreFault (s : State) (ep : Nat) (f : FaultInfo) : State :=
  s.faultMsg (s.ctxOf (epCore ep)) (epDie ep) (niSrc (epDie ep)) (coreEp (epCore ep) 0)
    { f with issuer := ep, launch := (s.thr ep).unit.launch }

/-- Tell the claimant of a source (R439). (log 81, DEDUCED) -/
def State.notify (s : State) (source : Nat) (words : List Word) : State :=
  { s with notices := s.notices ++ [(source, nget 1 s.claims source, words)] }

/-! ### The scratchpad: guards, touches, undo entries -/

/-- Whether an address lies in a guard granule of a live block of the core (R245, R247). -/
def Core.guarded (k : Core) (a : Nat) : Bool :=
  k.blocks.any fun (o, l) => (o ≤ a && a < o + 64) || (o + l - 64 ≤ a && a < o + l)

/-- R248: record a guard touch against the thread that issued the access. -/
def touched (g : Word) (write : Bool) (addr : Nat) : Word :=
  if g.getLsbD 63 then
    let n := Nat.min (fld g 48 14 + 1) 0x3FFF
    BitVec.ofNat 64 (g.toNat / 2 ^ 62 * 2 ^ 62 + n * 2 ^ 48 + g.toNat % 2 ^ 48)
  else
    BitVec.ofNat 64 (2 ^ 63 + (if write then 2 ^ 62 else 0) + 2 ^ 48 + addr / 8 % 32 * 2 ^ 32 + addr % 2 ^ 32)

def State.touch (s : State) (ep : Nat) (write : Bool) (addr : Nat) : State :=
  s.updThr ep fun t => { t with regs := { t.regs with gtouch := touched t.regs.gtouch write addr } }

/-- R435: the undo entry of a team thread's first write to a word of its own scratchpad, or `ovf`. -/
def State.logUndo (s : State) (ep addr : Nat) : State :=
  let c := epCore ep
  let k := s.core c
  let a := addr / 8 * 8
  if (s.thr ep).team == .none || k.undo.any (fun u => u.thread == epThread ep && u.addr == a) then s
  else if k.undo.length < 1024 then
    s.setCore c { k with undo := k.undo ++ [⟨epThread ep, a, s.mem.readWord (padKey c a)⟩] }
  else s.updThr ep fun t => { t with ovf := true }

/-! Floors that releases carry stand by the byte that they wrote (R220). -/

/-- The floors with `n` bytes from `key` upward written by no release: an acquire that reads them reads from none. -/
def dropFloors (m : NMap Nat) (key n : Nat) : NMap Nat := m.filter fun (w, _) => w < key || key + n ≤ w

/-- The floors with `n` bytes from `key` upward written by a release that carries `f`. -/
def putFloors (m : NMap Nat) (key f : Nat) : Nat → NMap Nat
  | 0 => m
  | n + 1 => nset (putFloors m key f n) (key + n) f

/-- The greatest floor of the releases that wrote the `n` bytes from `key` upward. -/
def topFloor (m : NMap Nat) (key n : Nat) : Nat :=
  (m.filter fun (w, _) => key ≤ w && w < key + n).foldl (fun f (_, v) => Nat.max f v) 0

/-- Bytes written that no release writes. -/
def State.putBytes (s : State) (key : Nat) (bs : List Byte) : State :=
  { s with mem := s.mem.writeBytes bs key, relFloors := dropFloors s.relFloors key bs.length }

/-- A load of at most eight aligned bytes of core `c`'s scratchpad by thread `ep` (R247): zero in a guard granule. -/
def State.padLoad (s : State) (ep c addr n : Nat) : Nat × State :=
  if (s.core c).guarded addr then (0, s.touch ep false addr) else (s.mem.readNat n (padKey c addr), s)

/-- A store of at most eight aligned bytes of core `c`'s scratchpad by thread `ep`. A touch writes nothing (R247); a
write to the thread's own scratchpad is logged for its team first (R435). -/
def State.padStore (s : State) (ep c addr n v : Nat) : State :=
  if (s.core c).guarded addr then s.touch ep true addr
  else
    let s := if c == epCore ep then s.logUndo ep addr else s
    { s with mem := s.mem.writeNat n (padKey c addr) v, relFloors := dropFloors s.relFloors (padKey c addr) n }

/-- 64-bit stores of a thread to its own scratchpad, from an address upward. -/
def State.padWords (s : State) (ep : Nat) : List Word → Nat → State
  | [], _ => s
  | w :: ws, a => State.padWords (s.padStore ep (epCore ep) a 8 w.toNat) ep ws (a + 8)

/-! ### Taking a trap, and returning from one -/

/-- The cause word of R420. -/
def causeWord (cause : Nat) (imp : Bool) : Word := BitVec.ofNat 64 (cause % 256 + if imp then 2 ^ 16 else 0)

def RqEntry.words (e : RqEntry) : List Word :=
  [BitVec.ofNat 64 ((if e.valid then 2 ^ 63 else 0) + (if e.given then 2 ^ 62 else 0) + e.dst.toNat * 2 ^ 58 +
    e.wpos.toNat * 2 ^ 55 + e.addr.toNat), e.a, e.b, e.c]

def Occ.word (o : Occ) : Word :=
  BitVec.ofNat 64 (o.tl % 64 * 2 ^ 18 + o.cp % 64 * 2 ^ 12 + o.st % 64 * 2 ^ 6 + o.ld % 64)

/-- `sr.tstat` (R422). -/
def Thread.tstat (t : Thread) : Word :=
  BitVec.ofNat 64 ((t.rq.filter (·.valid)).length * 16 + (if t.ovf then 8 else 0) + (if t.team != .none then 4 else 0) +
    (if t.gang.isSome then 2 else 0) + (if t.trap then 1 else 0))

/-- The wet position that a push now has: 4 when it has left the file (R425). -/
def wetPos (pushes idx : Nat) : Nat := Nat.min (pushes - 1 - idx) 4

/-- R423: whether every issued instruction that reads or writes memory, or waits on a value from outside the core, has
written its result. Answers of a tree unit, a distributor or a stage's home are waited for after ERET (R389). -/
def Thread.drained (t : Thread) : Bool := t.pend.all (·.tree)

/-! Unfinished results (R117, R122, R425). A result stands in its registers from the issue on, and what would read it waits
until its latency has run out; the generator steps in the order in which results are written. -/

/-- The place of an unfinished result's push in the wet file; 4 when it has left. -/
def Late.wpos (l : Late) (pushes : Nat) : Nat :=
  match l.push with
  | none => 4
  | some p => wetPos pushes p

def Regs.putWet (r : Regs) (p : Nat) (v : Word) : Regs :=
  { r with w := r.w.mapFinIdx fun i u _ => if i == p then v else u }
def Regs.putDst (r : Regs) (d : Dst) (v : Word) : Regs :=
  match d with
  | .wet => r
  | .nib j => { r with k := r.k.set j v }

/-- The cycle of an unfinished instruction's issue. -/
def Late.issued (l : Late) : Nat := l.ready - lateCycles l.instr

/-- A late instruction as its replay entry, with its distance from the first one's issue, and the registers with its abandoned
result taken out (R423-R425). -/
def Late.entry (l : Late) (pushes first : Nat) : RqEntry :=
  { valid := true, dst := l.dst.bits, wpos := BitVec.ofNat 3 (l.wpos pushes), addr := l.addr, a := l.a, b := l.b,
    c := l.c, gap := l.issued - first }

def Late.undo (l : Late) (pushes : Nat) (r : Regs) : Regs := (r.putWet (l.wpos pushes) 0).putDst l.dst l.oldNib

/-- A result put into a list that rises in the cycle of its write; of one cycle, the earlier issued first. -/
def insertLate (x : Late × Nat) : List (Late × Nat) → List (Late × Nat)
  | [] => [x]
  | y :: ys => if x.1.ready ≤ y.1.ready then x :: y :: ys else y :: insertLate x ys

def sortLate : List (Late × Nat) → List (Late × Nat)
  | [] => []
  | x :: xs => insertLate x (sortLate xs)

/-- The stochastic results that are written after cycle `c`, in the order of their writes, with their places in `late`. -/
def Thread.rsrAfter (t : Thread) (c : Nat) : List (Late × Nat) :=
  sortLate (t.late.zipIdx.filter fun (l, _) => c < l.ready && lateRnd l.instr == .rsr)

/-- The generator's state once every result of cycle `c` and before has been written (R117). -/
def Thread.rngAt (t : Thread) (c : Nat) : W32 :=
  match t.rsrAfter c with
  | [] => t.regs.rng
  | (l, _) :: _ => l.gen

/-- Stochastic results computed from the generator's state on, in the order of their writes (R117). -/
def Thread.redo : List (Late × Nat) → Thread → Thread
  | [], t => t
  | (l, i) :: ls, t =>
    let g := t.regs.rng
    let v := lateValue l.instr l.a l.b l.c g
    Thread.redo ls
      { t with
        regs := { ((t.regs.putWet (l.wpos t.pushes) v).putDst l.dst v) with rng := rngAfter .rsr g }
        late := t.late.set i { l with gen := g } }

/-- Undo the abandoned instructions, the last issued first. -/
def undoAll (pushes : Nat) : List Late → Regs → Regs
  | [], r => r
  | l :: ls, r => l.undo pushes (undoAll pushes ls r)

/-- A wet register reserved by an outstanding answer holds 0 in the frame. -/
def clearPending (pushes : Nat) : List Pend → Regs → Regs
  | [], r => r
  | p :: ps, r =>
    let r := clearPending pushes ps r
    match p.push with
    | none => r
    | some i => r.putWet (wetPos pushes i) 0

def packW32 : List W32 → List Word
  | [] => []
  | [a] => [a.setWidth 64]
  | a :: b :: r => (b ++ a) :: packW32 r

/-- The image of the frame, from offset 0 to 0x367, as words (R424). -/
def frameWords (cw d0 : Word) (epc : W32) (t : Thread) : List Word :=
  let r := t.regs
  [cw, epc.setWidth 64, BitVec.ofNat 64 (r.pix.toNat + r.vl.toNat * 2 ^ 32), r.ba.setWidth 64, t.occ.word,
    r.rng.setWidth 64, r.gtouch, t.tstat] ++ r.w.toList ++ r.k.toList ++ r.g.toList ++ r.p.toList ++
    [r.maRow[0], r.maCol[0], r.maRow[1], r.maCol[1], r.maRow[2], r.maCol[2], r.maRow[3], r.maCol[3]] ++
    [d0, 0, 0, 0] ++ packW32 r.acc.toList ++ packW32 ((r.ras ++ [0, 0, 0, 0]).take 4) ++
    [BitVec.ofNat 64 r.ras.length,
     match t.rep with
     | none => 0
     | some p => BitVec.ofNat 64 (2 ^ 63 + p.pass % 2 ^ 16 * 2 ^ 32 + p.start.toNat),
     match t.rep with
     | none => 0
     | some p => p.imm.setWidth 64]

def frameBase (k : Core) (ep : Nat) : Nat := k.tframe.toNat % 2 ^ 32 + epThread ep * 0x800

/-- R423: whether a trap of the thread is fatal. -/
def State.fatal (s : State) (ep : Nat) : Bool :=
  (s.thr ep).trap || !(s.core (epCore ep)).tvec.getLsbD 63 || !(s.core (epCore ep)).tframe.getLsbD 63

/-- The cycle in which the drain of R423 ends: every result that the replay queue does not take has been written.
(log 22, DEDUCED) -/
def Thread.drainAt (t : Thread) (clock : Nat) : Nat := t.slow.foldl (fun c x => Nat.max c x.ready) clock

/-- R423: the trap entry of a drained thread. Abandoned instructions go to the replay queue; the frame is written as
stores of the thread; `sr.cause`, `sr.epc`, the mode and the pc change; slate 0x300; 40 cycles after the drain the handler
issues. (log 22, DEDUCED) -/
def State.enterTrap (s : State) (ep : Nat) (cw d0 : Word) (epc : W32) : State :=
  let k := s.core (epCore ep)
  let t := s.thr ep
  let c := t.drainAt k.clock
  let live := t.late.filter fun l => c < l.ready
  let first := (live.head?.map Late.issued).getD 0
  let rq := (live.map (Late.entry · t.pushes first) ++ List.replicate 16 ({} : RqEntry)).take 16
  let t1 := { t with rq := rq, late := [], slow := [], issueAt := c + 40,
                     regs := { clearPending t.pushes t.pend (undoAll t.pushes live t.regs) with rng := t.rngAt c } }
  let s := s.setThr ep t1
  let s := s.padWords ep (frameWords cw d0 epc t1) (frameBase k ep)
  let s := s.updThr ep fun t =>
    { t with regs := { t.regs with pix := 0, gtouch := 0, pc := k.tvec.setWidth 32 },
             cause := cw, epc := epc, trap := true, trapPushes := t.pushes, trapPend := none, rep := none, shift := 0,
             wait := .none, onHandle := none, trapCkpt := t.ckptAt, ckptAt := none }
  s.emit ep (epDie ep) (s.ctxOf (epCore ep)) 0x300 (fld cw 0 8)

/-- Taking an exception: every trap of every cause goes this way (R423). A drained thread enters its handler now; else
the trap waits for the drain, and a fatal one for the step that retires the unit. -/
def State.takeTrap (s : State) (ep : Nat) (cw d0 : Word) (epc : W32) : State :=
  if (s.thr ep).drained && !s.fatal ep then s.enterTrap ep cw d0 epc
  else s.updThr ep fun t => { t with trapPend := some (cw, d0, epc), wait := .none }

/-- The members of a gang: the same thread number at the gang's positions of the octet. -/
def gangMembers (g : Gang) (ep : Nat) : List Nat :=
  if 8 ≤ epDie ep then [ep]
  else (List.range g.size).map fun i => coreEp (octetCore (coreArray (epCore ep)) (g.leader + i)) (epThread ep)

def State.takeTraps (s : State) (cw d0 : Word) (epc : W32) : List Nat → State
  | [] => s
  | m :: ms => State.takeTraps (s.takeTrap m cw d0 epc) cw d0 epc ms

def State.setWaits (s : State) (w : Wait) : List Nat → State
  | [] => s
  | m :: ms => State.setWaits (s.updThr m fun t => { t with wait := w }) w ms

/-- Whether every member of the acting thread's gang has executed what its leader has issued (R50, R430). -/
def State.gangCaughtUp (s : State) (ep : Nat) : Bool :=
  match (s.thr ep).gang with
  | none => true
  | some g => (gangMembers g ep).all fun m => (s.thr m).ahead == []

/-- A trap of the acting thread. A leader's stops the whole gang before the instruction, once the followers have caught
up; a follower's halts the gang (R430). One of a member in trap mode is fatal (R423, R426). -/
def State.raiseAt (s : State) (cause : Nat) (imp : Bool) (d0 : Word) (epc : W32) : State :=
  match s.me.gang with
  | none => s.takeTrap s.cur (causeWord cause imp) d0 epc
  | some g =>
    if s.me.trap then s.takeTrap s.cur (causeWord cause imp) d0 epc
    else if g.pos == g.leader then
      if s.gangCaughtUp s.cur then s.takeTraps (causeWord cause imp) d0 epc (gangMembers g s.cur) else s
    else
      (s.updThr s.cur fun t => { t with trapPend := some (causeWord cause imp, d0, epc) }).setWaits .gangHalt
        (gangMembers g s.cur)

/-- A precise fault of the acting thread's instruction: epc names it, and it changes nothing else (R76). -/
def State.raise (s : State) (cause : Nat) (d0 : Word) : State := s.raiseAt cause false d0 s.me.regs.pc

/-! ### Results -/

def Regs.push (r : Regs) (v : Word) : Regs := { r with w := #v[v, r.w[0], r.w[1], r.w[2]] }

/-- The nib register that specifier `j` names in this pass (R75). -/
def renamed (shift : Nat) (j : Fin 8) : Fin 8 := ⟨(j.val + shift) % 8, Nat.mod_lt _ (by decide)⟩

/-- Push a value and copy it to the nib register that the destination names (R56, R69). -/
def Thread.result (t : Thread) (d : Dst) (v : Word) : Thread :=
  let r := t.regs.push v
  { t with
    pushes := t.pushes + 1
    regs := match d with
      | .wet => r
      | .nib j => { r with k := r.k.set (renamed t.shift j) v } }

/-- A value that arrives for a reserved push and a nib register (R122). -/
def Thread.deliver (t : Thread) (p : Pend) (v : Word) : Thread :=
  let r := t.regs
  let r := match p.push with
    | none => r
    | some i => r.putWet (wetPos t.pushes i) v
  let r := match p.nib with
    | none => r
    | some j => { r with k := r.k.set j v }
  { t with regs := r, pend := t.pend.filter (·.id != p.id) }

/-- A result of an instruction from before the trap that a tree unit, a distributor or a stage's home answers: the trap has not
waited for it, and it comes after ERET (R389, R423). (log 25, DEDUCED) -/
def Thread.keeps (t : Thread) (p : Pend) : Bool := t.trap && p.tree && p.push.any (· < t.trapPushes)

/-- The pending result of a number, answered; a thread in trap mode keeps the answer to an instruction from before the trap
until ERET (R389). (log 25, DEDUCED) -/
def Thread.answer (t : Thread) (id : Nat) (v : Word) : Thread :=
  match takeFirst (·.id == id) t.pend with
  | none => t
  | some (p, _) =>
    if t.keeps p then { t with pend := mapIf (·.id == id) (fun q => { q with val := some v }) t.pend }
    else t.deliver p v

/-- Deliver the answers that came in trap mode. (log 25, DEDUCED) -/
def deliverHeld : List Pend → Thread → Thread
  | [], t => t
  | p :: ps, t =>
    match p.val with
    | none => deliverHeld ps t
    | some v => deliverHeld ps (t.deliver p v)

/-! ### Returning from a trap -/

def unpackW32 (w : Word) : List W32 := [w.setWidth 32, w.extractLsb' 32 32]

/-- `n` 64-bit loads of a thread from its own scratchpad. -/
def State.padReads (s : State) (ep : Nat) : Nat → Nat → List Word × State
  | 0, _ => ([], s)
  | n + 1, a =>
    let (v, s) := s.padLoad ep (epCore ep) a 8
    let (vs, s) := State.padReads s ep n (a + 8)
    (BitVec.ofNat 64 v :: vs, s)

def takeVec {n : Nat} (xs : List Word) : Vector Word n := Vector.ofFn fun i => xs.getD i.val 0
def takeLanes (xs : List W32) : Vector W32 64 := Vector.ofFn fun i => xs.getD i.val 0

/-- The registers that a frame restores; its words stand from offset 0 (R424). -/
def frameRegs (f : List Word) (gtouch : Word) : Regs :=
  let at_ (off : Nat) : Word := f.getD (off / 8) 0
  let from_ (off n : Nat) : List Word := (f.drop (off / 8)).take n
  { w := takeVec (from_ 0x040 4), k := takeVec (from_ 0x060 8), g := takeVec (from_ 0x0A0 32),
    p := takeVec (from_ 0x1A0 8),
    acc := takeLanes ((from_ 0x240 32).flatMap unpackW32),
    vl := (at_ 0x010).extractLsb' 32 7,
    maRow := #v[at_ 0x1E0, at_ 0x1F0, at_ 0x200, at_ 0x210],
    maCol := #v[at_ 0x1E8, at_ 0x1F8, at_ 0x208, at_ 0x218],
    ba := (at_ 0x018).setWidth 35, pix := (at_ 0x010).setWidth 32, pc := (at_ 0x008).setWidth 32,
    rng := rngWrite ((at_ 0x028).setWidth 32),
    ras := ((from_ 0x340 2).flatMap unpackW32).take (fld (at_ 0x350) 0 3), gtouch := gtouch }

/-- The repetition that a frame resumes: none, or `some none` when its body cannot be fetched again.
(log 24, DEDUCED) -/
def frameRep (m : Memory) (core : Nat) (f : List Word) : Option (Option Rep) :=
  let w := f.getD (0x358 / 8) 0
  if w.getLsbD 63 then
    some <| match repAt m core ((f.getD (0x360 / 8) 0).setWidth 32) (w.setWidth 32) with
      | none => none
      | some r =>
        match bodyIndex ((f.getD 1 0).setWidth 32) r.body 0 with
        | none => none
        | some i => some { r with pass := fld w 32 16, idx := i }
  else none

/-- R426: whether a frame breaks R424. (log 24, DEDUCED) -/
def frameBad (m : Memory) (core : Nat) (f : List Word) : Bool :=
  let at_ (off : Nat) : Nat := (f.getD (off / 8) 0).toNat
  let epc := at_ 0x008
  let vl := at_ 0x010 / 2 ^ 32
  epc % 4 != 0 || padSize core ≤ epc || vl < 1 || 64 < vl || 2 ^ 35 ≤ at_ 0x018 || 2 ^ 32 ≤ at_ 0x028 ||
    ((f.drop (0x1A0 / 8)).take 8).any (fun p => 2 ^ 48 ≤ p.toNat) || 4 < at_ 0x350 ||
    at_ 0x358 / 2 ^ 48 % 2 ^ 15 != 0 || 2 ^ 32 ≤ at_ 0x360 ||
    (match frameRep m core f with
      | none => false
      | some none => true
      | some (some r) => r.passes ≤ r.pass)

/-- The destination that a replay entry names (R425). -/
def RqEntry.dest (e : RqEntry) : Dst := if 4 ≤ e.dst.toNat then .nib (renamed (e.dst.toNat - 4) 0) else .wet

/-- A replay entry's instruction, unfinished once more: its result arrives after its latency (R426), the entries at the
distances at which they issued first, so that their results are written in the order of before (R117). (log 23, DEDUCED) -/
def RqEntry.late (e : RqEntry) (i : Instr) (t : Thread) (clock : Nat) : Late :=
  let j := e.dest
  { addr := e.addr, instr := i, a := e.a, b := e.b, c := e.c, dst := j
    push := if e.wpos.toNat < 4 && e.wpos.toNat < t.pushes then some (t.pushes - 1 - e.wpos.toNat) else none
    oldNib := match j with
      | .wet => 0
      | .nib j => t.regs.k[j]
    gen := t.regs.rng, ready := clock + e.gap + lateCycles i }

/-- R426: re-inject the replay queue. An entry is computed again from its address on its captured operands and keeps its
latency, or takes word 3; where the address no longer holds an instruction, the value is open. (log 23, DEDUCED) -/
def State.reinject (s : State) (ep : Nat) : List RqEntry → State
  | [] => s
  | e :: es =>
    if !e.valid then State.reinject s ep es
    else
      let t := s.thr ep
      let put (v : Word) (t : Thread) : Thread :=
        { t with regs := (t.regs.putWet e.wpos.toNat v).putDst e.dest v }
      if e.given then State.reinject (s.setThr ep (put e.c t)) ep es
      else match fetchAt s.mem (epCore ep) e.addr.toNat with
        | .ok (i, _) =>
          let l := e.late i t t.issueAt
          State.reinject
            (s.setThr ep (put (lateValue i e.a e.b e.c t.regs.rng) { t with late := t.late ++ [l] })) ep es
        | .error _ =>
          let (v, s) := s.freeValue
          State.reinject (s.setThr ep (put v t)) ep es

/-- Returning from an exception: ERET of one thread (R426). The frame's restored items come back, the replay queue is
re-injected, and the thread leaves trap mode, 40 cycles and one per entry later. A frame that breaks R424 makes the trap
fatal. -/
def State.returnTrap (s : State) (ep : Nat) : State :=
  let core := epCore ep
  let pc := (s.thr ep).regs.pc
  let back := (s.core core).clock + 40 + ((s.thr ep).rq.filter (·.valid)).length
  let (f, s) := s.padReads ep 109 (frameBase (s.core core) ep)
  if frameBad s.mem core f then s.takeTrap ep (causeWord 0x06 false) 0 pc
  else
    let s := s.updThr ep fun t =>
      let rep := (frameRep s.mem core f).getD none
      { t with
        regs := frameRegs f t.regs.gtouch, pushes := t.trapPushes, rep := rep, late := [], slow := [], issueAt := back,
        eretDone := false,
        ckptAt := if (frameRegs f 0).pc == t.epc then t.trapCkpt else none, trapCkpt := none
        shift := match rep with
          | none => 0
          | some r => r.pass * r.stagger % 8 }
    let s := s.reinject ep (s.thr ep).rq
    s.updThr ep fun t =>
      deliverHeld t.pend (Thread.redo (t.rsrAfter back) { t with rq := List.replicate 16 {}, trap := false })

def State.returnTraps (s : State) : List Nat → State
  | [] => s
  | m :: ms => State.returnTraps (s.returnTrap m) ms

end Sys2Proof.Machine
end

