-- ==== Sys2Proof/Machine/Operands.lean ====
section
/-!
DEFINITION. Operands: the source and destination specifiers of every format (R67-R69), what each instruction reads before
it may issue (R122), references and near addresses (R137, R222-R224), pointers (R58), lanes (R135-R138), and the ends that
an instruction's meaning comes to: a result and the next instruction, a control transfer, or a fault.
-/
namespace Sys2Proof.Machine

/-! ### Sources -/

/-- LANEID of a thread (R49): 0 outside a gang. -/
def Thread.lane (t : Thread) : Nat :=
  match t.gang with
  | none => 0
  | some g => g.pos - g.leader

/-- The operand that a specifier selects; `imm` is the immediate as the instruction's type extends it (R67, R68).
(log 18, DEDUCED) -/
def Thread.src (t : Thread) (ep : Nat) (imm : Word) : Src → Word
  | .wet i => t.regs.w[i]
  | .nib j => t.regs.k[renamed t.shift j]
  | .zero => 0
  | .imm => imm
  | .coord => BitVec.ofNat 64 ep

def State.srcOf (s : State) (imm : Word) (x : Src) : Word := s.me.src s.cur imm x
/-- A source in a major without a type: 0xD sign-extends. -/
def State.raw (s : State) (imm : W32) (x : Src) : Word := s.srcOf (imm.signExtend 64) x
/-- A source of an integer type. -/
def State.int (s : State) (t : IntTy) (imm : W32) (x : Src) : Word :=
  s.srcOf (if t.signed then imm.signExtend 64 else imm.setWidth 64) x
/-- A source of a scalar floating-point major: 0xE is the lane id converted to the type (R68). -/
def State.fp (s : State) (t : ElemTy) (imm : W32) (x : Src) : Word :=
  match x with
  | .coord => BitVec.ofNat 64 (roundTo (XVal.ofInt s.me.lane) t .rne false 0)
  | _ => s.srcOf (imm.setWidth 64) x

def State.w0 (s : State) : Word := s.me.regs.w[0]

/-! ### What an instruction waits for (R122, R69) -/

/-- The sources that an instruction names. -/
def sources : Instr → List Src
  | .add _ o | .addi _ o | .sub _ o | .mul _ o | .and _ o | .or _ o | .xor _ o | .andn _ o | .shl _ o | .shr _ o
  | .rotl _ o | .seq _ o | .sel _ o | .bfx _ o | .bfi _ o | .mulh _ o | .div _ o | .rem _ o | .min _ o | .max _ o
  | .slt _ o | .shra _ o | .mulhn _ o | .divn _ o | .remn _ o | .minn _ o | .maxn _ o | .sltn _ o => [o.a, o.b]
  | .neg _ o | .not _ o | .clz _ o | .ctz _ o | .popc _ o | .sext _ o | .zext _ o => [o.a]
  | .lih _ a _ | .movg _ a _ | .jr a _ | .ret a _ | .loop _ a _ => [a]
  | .br _ a b _ => [a, b]
  | .fadd _ _ _ o | .fsub _ _ _ o | .fmul _ _ _ o | .ffma _ _ _ o | .fdiv _ _ o | .fmin _ _ o | .fmax _ _ o
  | .fcmp _ _ _ o => [o.a, o.b]
  | .fsqrt _ _ o | .fexp2 _ _ o | .flog2 _ _ o | .frsq _ _ o | .fabs _ _ o | .fneg _ _ o => [o.a]
  | .fcvt _ _ _ _ _ a => [a]
  | .ld _ _ _ _ a _ | .ldp _ _ _ _ a _ => [a]
  | .st _ _ _ a b _ | .strl _ _ a b _ | .stp _ _ _ a b _ | .ldaq _ _ _ _ a b | .amo _ _ _ _ _ a b
  | .cas _ _ _ _ a b => [a, b]
  | .cnset _ _ _ (some a) => [a]
  | .galloc _ a _ | .gfree a | .wake a | .launch _ a | .launchW _ a | .graphCreate _ a | .graphClose _ a
  | .phaseCreate _ a | .phaseClose _ a | .jobClose _ a | .spillq _ a | .splitok _ a _ | .krtread _ a _ | .qdep _ a
  | .stageCreate _ a | .stageClose _ a => [a]
  | .stageThresh _ a b => [a, b]
  | .send d _ _ _ _ => [d]
  | .cancel _ _ (some r) | .lvwait _ _ (some r) | .lvread _ _ _ (some r) => [r]
  | .tev _ a => [a]
  | .tevx _ _ a b => [a, b]
  | .rqwrite a _ _ | .srw a _ | .srwTsink a | .rback _ a => [a]
  | .mjob _ a _ | .mtest _ a _ => [a]
  | .mmask o | .mprec o | .mzero o | .mmul _ _ o | .mmulb _ o | .msca _ o | .msendt o | .mrecvt o | .mmove _ _ _ o
  | .mload _ _ _ o | .e8cvt o => [o.off, o.ioff]
  | .map _ a b .. | .grant _ a b .. => [a, b]
  | .unmap _ a _ | .unmapAsync _ a .. | .acceptOpen _ a .. | .mquery _ a _ | .xflush _ a _ => [a]
  | .xld a b .. | .xst a b .. | .xburst a b .. | .planew a b _ | .mbox a b _ | .crec _ a b _ => [a, b]
  | .sendx a .. => [a]
  | _ => []

/-- Whether it also reads w0 (R121). -/
def readsW0 : Instr → Bool
  | .sel .. | .bfi .. | .ffma .. | .cas .. | .stb .. | .bwait .. => true
  | .chain _ _ _ head => head.isNone
  | .pset _ _ _ w => w
  | .baset _ _ w => w
  | .vbcast _ o => !o.asel
  | .vadd _ o | .vsub _ o | .vmul _ o | .vmin _ o | .vmax _ o | .vand _ o | .vor _ o | .vxor _ o | .vshl _ o | .vshr _ o
  | .vfma o | .vscl _ o | .vsel _ _ o | .vperm _ o | .vcmp _ _ _ o => o.bsel
  | _ => false

/-- The nib register that it writes, by its specifier. -/
def nibDst : Instr → Option (Fin 8)
  | .movk _ k => some k
  | .ldp _ _ _ k _ _ => some k
  | i =>
    match dstOf i with
    | some (.nib j) => some j
    | _ => none
where
  dstOf : Instr → Option Dst
    | .add _ o | .addi _ o | .sub _ o | .mul _ o | .and _ o | .or _ o | .xor _ o | .andn _ o | .shl _ o | .shr _ o
    | .rotl _ o | .seq _ o | .sel _ o | .bfx _ o | .bfi _ o | .mulh _ o | .div _ o | .rem _ o | .min _ o | .max _ o
    | .slt _ o | .shra _ o | .mulhn _ o | .divn _ o | .remn _ o | .minn _ o | .maxn _ o | .sltn _ o => some o.dst
    | .neg _ o | .not _ o | .clz _ o | .ctz _ o | .popc _ o | .sext _ o | .zext _ o => some o.dst
    | .li d _ | .lih d _ _ | .jl d _ | .loop d _ _ => some d
    | .fadd _ _ _ o | .fsub _ _ _ o | .fmul _ _ _ o | .ffma _ _ _ o | .fdiv _ _ o | .fmin _ _ o | .fmax _ _ o
    | .fcmp _ _ _ o => some o.dst
    | .fsqrt _ _ o | .fexp2 _ _ o | .flog2 _ _ o | .frsq _ _ o | .fabs _ _ o | .fneg _ _ o => some o.dst
    | .fcvt _ _ _ _ d _ => some d
    | .ld _ _ _ d .. | .ldaq _ _ _ d .. | .amo _ _ _ _ d .. | .cas _ _ _ d .. => some d
    | .cnset d .. | .cnget d _ | .galloc d .. | .park d _ | .launch d _ | .launchW d _ | .graphCreate d _
    | .graphClose d _ | .phaseCreate d _ | .phaseClose d _ | .jobClose d _ | .cancel d .. | .lvwait d .. | .lvread d ..
    | .fuse d _ | .laneid d | .coord d _ | .spillq d _ | .jobset d .. | .stageCreate d _ | .stageClose d _
    | .stageThresh d .. | .splitok d .. | .krtread d .. | .qdep d _ | .tsread d | .tmark d _ | .rqread d .. | .srr d _
    | .ckpt d _ | .rback d _ | .mjob d .. | .mtest d .. | .mstat d _ => some d
    | .map d .. | .grant d .. | .unmap d .. | .unmapAsync d .. | .acceptOpen d .. | .acceptClose d .. | .mquery d ..
    | .xflush d .. | .crec d .. => some d
    | _ => none

/-- Whether a pending result stands in a register that the instruction reads, or in its nib destination (R122, R69). A
second LDP into a pending nib register is no conflict (R228). ERET, which writes every register, waits for the handler's own
results; what comes after ERET is no conflict in the handler. (log 25, DEDUCED) -/
def Thread.conflicts (t : Thread) (i : Instr) : Bool :=
  t.pend.any fun p => !t.keeps p &&
    let wetHit := match p.push with
      | none => false
      | some x => ((sources i).any fun y => match y with
          | .wet q => q.val == wetPos t.pushes x
          | _ => false) || (readsW0 i && wetPos t.pushes x == 0)
    let nibHit := match p.nib with
      | none => false
      | some j => ((sources i).any fun y => match y with
          | .nib q => renamed t.shift q == j
          | _ => false) ||
        (match i with
          | .ldp .. => false
          | _ => match nibDst i with
            | none => false
            | some q => renamed t.shift q == j)
    wetHit || nibHit || i == .eret

/-! ### Ends of an instruction -/

/-- The instruction is complete: the pc moves to the next one, in its repetition if it stands in one (R62, R75). -/
def Thread.advance (t : Thread) (len : Nat) : Thread :=
  let t := { t with retired := t.retired + 1, onHandle := none, ckptAt := none }
  match t.rep with
  | none => { t with regs := { t.regs with pc := nextPc t.regs.pc len, pix := 0 } }
  | some r =>
    match r.body[r.idx + 1]? with
    | some (a, _) => { t with regs := { t.regs with pc := a, pix := 0 }, rep := some { r with idx := r.idx + 1 } }
    | none =>
      if r.pass + 1 < r.passes then
        { t with regs := { t.regs with pc := r.start, pix := 0 }, rep := some { r with pass := r.pass + 1, idx := 0 },
                 shift := (r.pass + 1) * r.stagger % 8 }
      else { t with regs := { t.regs with pc := r.after, pix := 0 }, rep := none, shift := 0 }

/-- End with nothing pushed. -/
def State.done (s : State) (len : Nat) : State := s.upd (·.advance len)

/-- End with a result of one cycle. -/
def State.finish (s : State) (d : Dst) (v : Word) (len : Nat) : State := s.upd fun t => (t.result d v).advance len

/-- A destination as it stands in this pass. -/
def Thread.renamedDst (t : Thread) : Dst → Dst
  | .wet => .wet
  | .nib j => .nib (renamed t.shift j)

/-- End with a scalar result of more than one cycle: written now, and kept as an unfinished instruction until the latency
has run out (R122, R425). (log 22, DEDUCED) -/
def State.finishLate (s : State) (i : Instr) (d : Dst) (a b c : Word) : State :=
  let k := s.core s.curCore
  s.upd fun t =>
    let g := t.regs.rng
    let d' := t.renamedDst d
    let old := match d' with
      | .wet => 0
      | .nib j => t.regs.k[j]
    let l : Late := ⟨t.regs.pc, i, a, b, c, d', some t.pushes, old, g, k.clock + lateCycles i⟩
    let t := { t with regs := { t.regs with rng := rngAfter (lateRnd i) g }, late := t.late ++ [l] }
    (t.result d (lateValue i a b c g)).advance 8

/-- A result that a part outside the core will answer: the push and the nib register are reserved now (R122). -/
def State.reserve (s : State) (d : Dst) (tree : Bool) (acq : Option Scope := none) : Nat × State :=
  let id := s.ids
  let s := { s with ids := s.ids + 1 }
  (id, s.upd fun t =>
    let nib := match t.renamedDst d with
      | .wet => none
      | .nib j => some j
    let t1 := t.result .wet 0
    { t1 with pend := t.pend ++ [⟨id, some t.pushes, nib, tree, none, acq⟩] })

/-- A gang member that takes its leader's path, whatever its own operands say (R50). -/
def Thread.follows (t : Thread) : Bool :=
  match t.gang with
  | none => false
  | some g => g.pos != g.leader && !t.trap

/-- R62, R63, R122: a taken control transfer, and the cycles by which it delays the next issue.
(log 19, DEDUCED; log 20, DEDUCED; log 21, DEDUCED) -/
def State.gotoIn (s : State) (target : W32) (delay : Nat) : State :=
  if s.me.follows then s.done 8
  else if target.toNat % 4 != 0 || padSize s.curCore ≤ target.toNat then s.raise 0x03 (target.setWidth 64)
  else if target.toNat % 32 == 28 then s.raiseAt 0x02 false 0 target
  else
    let c := (s.core s.curCore).clock
    s.upd fun t =>
      { t with regs := { t.regs with pc := target, pix := 0 }, retired := t.retired + 1, issueAt := c + 1 + delay }
def State.goto (s : State) (target : W32) : State := s.gotoIn target 2

/-! ### Scopes -/

/-- R225: the scope at which an access is performed; `outside` when its translation lands in host or peer memory. -/
def scopeOf (sc : Scope) (peer far outside : Bool) : Scope :=
  if outside then .sys else if far then sc.max .dev else if peer then sc.max .cl else sc

/-- The scope at which an access in flight stands: .sys while a far one has yet to be translated, for it may land in host or
peer memory (R225). -/
def Req.scNow (r : Req) : Scope := if r.peer.isNone && !r.own && r.land.isNone then .sys else r.sc

/-! ### References (R222-R224) -/

/-- Where a reference points, once it has passed the checks of R222-R224. -/
inductive Ref where
  | pad (addr : Nat)
  | peer (core addr : Nat)
  | far (va : Nat)
  deriving DecidableEq, Repr

/-- What an instruction may reach (R223): own scratchpad or buffer, cluster peers, far memory. -/
structure Reach where
  own : Bool
  peer : Bool
  far : Bool
  deriving DecidableEq, Repr

/-- The check of R222-R224 of `n` bytes at reference `ea`: where it points, or the fault's cause. A misaligned reference
raises the alignment fault only when it is one of the two forms, and it raises it also where its bytes leave their space: the
order of the two faults is left open. (log 170, DESIGN CHOICE) -/
def checkRef (core : Nat) (r : Reach) (ea : Word) (n : Nat) : Except Nat Ref :=
  if ea.getLsbD 63 then
    if fld ea 57 6 != 0 || !r.far then .error 0x0A
    else if fld ea 0 57 % n != 0 then .error 0x0B
    else .ok (.far (fld ea 0 57))
  else if fld ea 32 31 != 0 then .error 0x0A
  else
    let off := fld ea 0 28
    match fld ea 28 4 with
    | 0 =>
      if !r.own then .error 0x0A
      else if off % n != 0 then .error 0x0B
      else if padSize core < off + n then .error 0x0A
      else .ok (.pad off)
    | 1 =>
      let idx := off / 2 ^ 20
      let a := off % 2 ^ 20
      if !r.peer || 144 ≤ idx then .error 0x0A
      else if a % n != 0 then .error 0x0B
      else if 0x60000 < a + n then .error 0x0A
      else .ok (.peer (peerCore (coreCl core) idx) a)
    | _ => .error 0x0A

/-- R223 by engine. -/
def reachLoad (core : Nat) : Reach := ⟨true, false, !isVDie (coreDie core)⟩
def reachStore (_core : Nat) : Reach := ⟨true, false, true⟩
def reachPeer (core : Nat) : Reach := ⟨false, isVDie (coreDie core), false⟩
def reachAtomic (core : Nat) : Reach := ⟨true, isVDie (coreDie core), !isVDie (coreDie core)⟩
def reachHeap (_core : Nat) : Reach := ⟨true, false, false⟩

/-- R227: the effective reference. -/
def State.ea (s : State) (a : Src) (off : W32) : Word := s.raw 0 a + off.signExtend 64

def ordAcq : Ord → Bool
  | .acq | .ar => true
  | .rlx | .rel => false
def ordRel : Ord → Bool
  | .rel | .ar => true
  | .rlx | .acq => false

/-! ### Stage tables at an interface (R348, R349, R353) -/

/-- The entry that covers a key: its place in the table. -/
def coverIdx (t : List Range) (key : Nat) : Nat := (t.filter fun r => r.lo ≤ key).length - 1
def routeOf (t : List Range) (key : Nat) : Nat := ((t[coverIdx t key]?).map (·.ep)).getD 0

/-- The copy that stands at a core's interface. -/
def Stage.copy (g : Stage) (core : Nat) : List Range :=
  match g.change with
  | none => g.table
  | some c => if c.applied.any (·.1 == core) then g.table else c.old

/-! ### Pointers and lanes -/

def ptrBase (p : Word) : W32 := p.setWidth 32
/-- R58: a use as an operand address advances the base by the stride, modulo 2^32. -/
def ptrStep (p : Word) : Word :=
  p.extractLsb' 32 32 ++ (p.setWidth 32 + (p.extractLsb' 32 16).signExtend 32)

/-- The pointers that a VOp's operands use; an entry without a B operand has none there. -/
def usedPtrs (o : VOp) (hasB : Bool) : List (Fin 8) :=
  (if o.asel then [o.pa] else []) ++ (if hasB && !o.bsel then [o.pb] else []) ++ (if o.dsel then [o.pd] else [])

/-- Advance each distinct pointer once (R140). -/
def Regs.stepPtrs (r : Regs) : List (Fin 8) → Regs
  | [] => r
  | i :: is => if is.contains i then r.stepPtrs is else { r with p := r.p.set i (ptrStep r.p[i]) }.stepPtrs is

/-- The active lanes of mask pair `m` (R135, R136): below vl with the column bit set, in rising order. -/
def Regs.lanes (r : Regs) (m : Fin 4) : List Nat :=
  (List.range 64).filter fun l => l < r.vl.toNat && r.maCol[m].getLsbD l

/-- Element size in half bytes (R138). -/
def elemHalf : ElemTy → Nat
  | t => elemBits t / 4

/-- The byte address offset of lane `l` (R138). -/
def laneAddr (t : ElemTy) (base l : Nat) : Nat := base + l * elemHalf t / 2

/-- R138: the checks of a memory operand from base `b`: cause and detail, or the space (0 or 3). -/
def checkVec (core : Nat) (t : ElemTy) (b : W32) (active : List Nat) : Except (Nat × Word) Nat :=
  let sp := b.toNat / 2 ^ 28
  let off := b.toNat % 2 ^ 28
  let lim := if sp == 0 then padSize core else 0x100000
  if (sp != 0 && sp != 3) || lim ≤ off then .error (0x07, b.setWidth 64)
  else if off % Nat.max 1 (elemHalf t / 2) != 0 then .error (0x08, b.setWidth 64)
  else
    match active.find? (fun l => lim < laneAddr t off l + Nat.max 1 (elemHalf t / 2)) with
    | some l => .error (0x07, BitVec.ofNat 64 (sp * 2 ^ 28 + laneAddr t off l))
    | none => .ok sp

end Sys2Proof.Machine
end

