-- ==== Sys2Proof/Machine/Space.lean ====
section
/-!
DEFINITION. Address spaces and what stands behind them: the mapping tree and its withdrawals (R367-R382), translation by
the walkers (R373-R376, R407), device physical addresses (R449), sealed memory (R403-R405), and the windows to hosts, peers
and other packages (R453-R464).
-/
namespace Sys2Proof.Machine

/-! ### Nodes -/

def State.node (s : State) (i : Nat) : Node := nget {} s.nodes i
def State.setNode (s : State) (i : Nat) (n : Node) : State := { s with nodes := nset s.nodes i n }
def Node.size (n : Node) : Nat := 2 ^ (6 + n.lg)
def Node.covers (n : Node) (va : Nat) : Bool := n.vbase ≤ va && va < n.vbase + n.size
def Node.meets (n : Node) (lo size : Nat) : Bool := n.vbase < lo + size && lo < n.vbase + n.size

/-- The node of a context that covers an address; a live or grant-pending one before a dead one (R368, R374). -/
def State.cover (s : State) (ctx va : Nat) : Option (Nat × Node) :=
  match s.nodes.find? fun (_, n) => n.ctx == ctx && n.covers va && n.state != .dead with
  | some x => some x
  | none => s.nodes.find? fun (_, n) => n.ctx == ctx && n.covers va

/-- A live node of a context that meets a range. (log 87, DEDUCED) -/
def State.meetsLive (s : State) (ctx lo size : Nat) : Bool :=
  s.nodes.any fun (_, n) => n.ctx == ctx && n.state != .dead && n.meets lo size

/-- R382, by at most 32 reads: a self-mark here or above, or a descendant mark above whose bound lies beyond the path. -/
def withdrawnFrom (t : NMap Node) : Nat → Node → Bool
  | 0, n => n.selfMark
  | k + 1, n =>
    n.selfMark ||
      match n.parent with
      | none => false
      | some p =>
        let q := nget {} t p
        (match q.descMark with
          | none => false
          | some b => n.seq < b) || withdrawnFrom t k q

def State.withdrawn (s : State) (n : Node) : Bool := withdrawnFrom s.nodes 32 n

/-- Put a node among siblings in the order of their sequence numbers. -/
def insertSeq (x : Nat × Node) : List (Nat × Node) → List (Nat × Node)
  | [] => [x]
  | y :: ys => if x.2.seq < y.2.seq then x :: y :: ys else y :: insertSeq x ys

def sortSeq : List (Nat × Node) → List (Nat × Node)
  | [] => []
  | x :: xs => insertSeq x (sortSeq xs)

/-- The children of a node in child order. -/
def childrenOf (t : NMap Node) (i : Nat) : List (Nat × Node) := sortSeq (t.filter fun (_, n) => n.parent == some i)

/-- The strict descendants of a node in post-order, and with it the node (R383). -/
def postOrder (t : NMap Node) : Nat → Nat → List Nat
  | 0, i => [i]
  | k + 1, i => ((childrenOf t i).flatMap fun (c, _) => postOrder t k c) ++ [i]

/-- The lowest number that a table does not list. (log 83, DEDUCED) -/
def freshKey {α : Type} : Nat → NMap α → Nat
  | n, [] => n
  | n, (k, _) :: t => if k == n then freshKey (n + 1) t else n

/-! ### Device physical addresses (R449) -/

inductive Place where
  /-- HBM4E: the package channel that serves it -/
  | hbm (channel : Nat)
  /-- an outbound window of a port: the bus address -/
  | bus (port addr : Nat)
  /-- a Scallink window: the connection and the offset in it -/
  | link (conn off : Nat)
  | nothing
  deriving DecidableEq, Repr

/-- Host or peer memory (R225). -/
def Place.outside : Place → Bool
  | .bus _ _ | .link _ _ => true
  | .hbm _ | .nothing => false

def tableKey (table port index : Nat) : Nat := (table * 2 + port) * 4096 + index
def State.tableEntry (s : State) (table port index : Nat) : Word × Word × Word :=
  nget (0, 0, 0) s.tables (tableKey table port index)

/-- The share of a partition: base and size in bytes (R25, R449). -/
def shareBase (n p : Nat) : Nat := p * (2 ^ 40 / n)
def shareSize (n : Nat) : Nat := 768000000000 / n

/-- The partition whose share holds a range of HBM4E. -/
def sharePart (n a size : Nat) : Option Nat :=
  (List.range n).find? fun p => shareBase n p ≤ a && a + size ≤ shareBase n p + shareSize n

/-- The outbound window of a port that covers an offset of its range: its first word and bus address (R455).
(log 118, DEDUCED) -/
def State.outWindow (s : State) (port off : Nat) : Option (Nat × Word × Nat) :=
  match (List.range 64).find? fun i =>
      let w := (s.tableEntry 1 port i).1
      w.getLsbD 63 && fld w 0 44 ≤ off && off < fld w 0 44 + 2 ^ (12 + fld w 44 6) with
  | none => none
  | some i =>
    let (w, b, _) := s.tableEntry 1 port i
    some (i, w, b.toNat + (off - fld w 0 44))

def State.place (s : State) (a : Nat) : Place :=
  if a < 2 ^ 40 then
    match sharePart s.parts a 1 with
    | none => .nothing
    | some p => .hbm (p * (384 / s.parts) + (a - shareBase s.parts p) / 256 % (384 / s.parts))
  else if 2 ^ 44 ≤ a && a < 3 * 2 ^ 44 then
    let port := a / 2 ^ 44 - 1
    match s.outWindow port (a % 2 ^ 44) with
    | none => .nothing
    | some (_, _, b) => .bus port b
  else if 2 ^ 46 ≤ a && a < 2 ^ 47 then .link ((a - 2 ^ 46) / 2 ^ 34) (a % 2 ^ 34)
  else .nothing

/-! ### Sealed memory -/

def State.keySlot (s : State) (i : Nat) : KeySlot := nget {} s.keys i
/-- A slot that is listed is loaded (R399), until it is emptied. -/
def State.slotLoaded (s : State) (i : Nat) : Bool := (nfind s.keys i).any (!·.gone)
/-- R407: the policy's expiry has passed on a die. -/
def State.slotExpired (s : State) (i die : Nat) : Bool :=
  let e := (s.keySlot i).word 4
  e != 0 && e.toNat < s.ctime die

/-- The sealed root whose physical range holds an address (R403). -/
def State.sealedRoot (s : State) (a : Nat) : Option Node :=
  (s.nodes.find? fun (_, n) => n.parent.isNone && n.sealed && n.phys ≤ a && a < n.phys + n.size).map (·.2)

/-- A PCIe port's error count rises (R456, R470). -/
def State.portError (s : State) (port : Nat) : State :=
  { s with perr := nset s.perr (16 + port) (Nat.min (nget 0 s.perr (16 + port) + 1) 0xFFFFFFFF) }

/-- A range meets a sealed root's. -/
def State.sealedIn (s : State) (a n : Nat) : Bool :=
  s.nodes.any fun (_, x) => x.parent.isNone && x.sealed && x.phys < a + n && a < x.phys + x.size

/-- Slate 0x283 for a discarded or refused access (R405, R218). (log 115, DEDUCED) -/
def State.tellSealed (s : State) (src die phys : Nat) (requester : Word) : State :=
  s.emitExt src die 0 0x283 0 (BitVec.ofNat 64 phys) requester

/-- The bytes of the 64-byte granule at `64 * g`, decrypted with the slot's key (R404). -/
def State.granule (s : State) (slot g : Nat) : List Byte :=
  xtsDecrypt (s.keySlot slot).key g (s.mem.readBytes 64 (physKey (64 * g)))
def State.setGranule (s : State) (slot g : Nat) (bs : List Byte) : State :=
  s.putBytes (physKey (64 * g)) (xtsEncrypt (s.keySlot slot).key g bs)

/-- Bytes read through a sealed node, granule by granule. -/
def State.sealedRead (s : State) (slot : Nat) : Nat → Nat → List Byte
  | 0, _ => []
  | n + 1, a => (s.granule slot (a / 64)).getD (a % 64) 0 :: State.sealedRead s slot n (a + 1)

/-- The bytes of `bs`, which stand from `a` upward, that fall into granule `g`, laid over the granule's old bytes. -/
def overlay (old : List Byte) (g a : Nat) (bs : List Byte) : List Byte :=
  old.mapIdx fun i b => if a ≤ 64 * g + i then bs.getD (64 * g + i - a) b else b

/-- `k` granules from `g` rewritten with `bs` from `a`: each one a read-modify-write (R404). -/
def State.sealedWrite (s : State) (slot a : Nat) (bs : List Byte) : Nat → Nat → State
  | 0, _ => s
  | k + 1, g => State.sealedWrite (s.setGranule slot g (overlay (s.granule slot g) g a bs)) slot a bs k (g + 1)

/-- `n` bytes of HBM4E at a physical address, through a sealed or an unsealed node. (log 102, DEDUCED) -/
def State.physRead (s : State) (l : Landing) (n : Nat) : List Byte :=
  if l.sealed then s.sealedRead l.slot n l.phys else s.mem.readBytes n (physKey l.phys)

/-- Bytes written in `k` granules from `a` on, but for those of a sealed root (R405). -/
def State.openWrite (s : State) : Nat → Nat → List Byte → State
  | 0, _, _ => s
  | k + 1, a, bs =>
    let n := Nat.min bs.length (64 - a % 64)
    State.openWrite (if (s.sealedRoot a).isSome then s else s.putBytes (physKey a) (bs.take n)) k (a + n) (bs.drop n)

/-- Bytes written at a physical address. Through an unsealed node what falls into a sealed root's range is discarded, and the
walkers that let it in tell of it (R405); the slate's requester is left open. (log 115, DEDUCED) -/
def State.physWrite (s : State) (l : Landing) (bs : List Byte) : State :=
  if l.sealed then s.sealedWrite l.slot l.phys bs ((l.phys + bs.length + 63) / 64 - l.phys / 64) (l.phys / 64)
  else if s.sealedIn l.phys bs.length then
    let (w, s) := s.freeValue
    (s.tellSealed (walkerSrc l.die) l.die l.phys w).openWrite ((l.phys + bs.length + 63) / 64 - l.phys / 64) l.phys bs
  else s.putBytes (physKey l.phys) bs

/-! ### Translation (R373-R376, R407) -/

inductive Access where
  | read
  | write
  | both
  deriving DecidableEq, Repr

def Access.reads : Access → Bool
  | .write => false
  | _ => true
def Access.writes : Access → Bool
  | .read => false
  | _ => true

/-- The first base die from `d` upward, with wrap, that is of the partition and not fenced (R441). -/
def walkerFrom (s : State) (part : Nat) : Nat → Nat → Nat
  | 0, d => d
  | k + 1, d =>
    if s.fenced.contains d || !(partDies s.parts part).contains d then
      walkerFrom s part k (if d == 31 then 20 else d + 1)
    else d

/-- The die whose walkers translate for an issuer on `die` (R373). -/
def State.walkerDie (s : State) (die part : Nat) : Nat :=
  if isVDie die || isMDie die then walkerFrom s part 12 (20 + 12 * (die % 8) / 8) else die

def State.cacheOf (s : State) (die : Nat) : List Cached := nget [] s.caches die
def State.setCache (s : State) (die : Nat) (c : List Cached) : State := { s with caches := nset s.caches die c }

/-- Why a translation fails: the cause of R376, the node that was read, if any, and the base die that a fence has taken
(R432, R441). -/
structure TransFault where
  cause : Nat
  node : Option Nat
  lost : Nat := 0
  deriving DecidableEq, Repr

/-- The cache entry that serves an address on a walker die: the one there, or the node read from the tree with its wmask
bit set (R374). -/
def State.walk (s : State) (ctx va die : Nat) : Except TransFault Cached × State :=
  match (s.cacheOf die).find? fun e => e.ctx == ctx && e.vbase ≤ va && va < e.vbase + 2 ^ (6 + e.lg) with
  | some e => (.ok e, s)
  | none =>
    match s.cover ctx va with
    | none => (.error { cause := 0x10, node := none }, s)
    | some (i, n) =>
      let s := s.setNode i { n with wmask := if n.wmask.contains die then n.wmask else n.wmask ++ [die] }
      if n.state != .live then (.error { cause := 0x12, node := some i }, s)
      else
        let e : Cached := ⟨ctx, i, n.vbase, n.lg, n.phys, n.rights, n.sealed, n.slot⟩
        (.ok e, s.setCache die (s.cacheOf die ++ [e]))

/-- The connection of a Scallink window is valid and up (R464). -/
def State.linkUp (s : State) (conn : Nat) : Bool :=
  let w := (s.tableEntry 3 0 conn).1
  w.getLsbD 63 && !w.getLsbD 62

/-- Translate: the landing, or the fault (R374, R407, R441, R456, R464). (log 82, DEDUCED) -/
def State.translate (s : State) (ctx va n : Nat) (k : Access) (atomic : Bool) (die : Nat) :
    Except TransFault Landing × State :=
  let (r, s) := s.walk ctx va die
  match r with
  | .error f => (.error f, s)
  | .ok e =>
    let bad (c : Nat) : Except TransFault Landing × State := (.error { cause := c, node := some e.node }, s)
    if e.vbase + 2 ^ (6 + e.lg) < va + n then bad 0x10
    else if (k.reads && e.rights % 2 == 0) || (k.writes && e.rights / 2 % 2 == 0) then bad 0x11
    else if e.sealed && !s.slotLoaded e.slot then bad 0x14
    else if e.sealed && s.slotExpired e.slot die then bad 0x15
    else
      let phys := e.phys + (va - e.vbase)
      let l : Landing := ⟨phys, e.sealed, e.slot, die, e.node⟩
      match s.place phys with
      | .hbm ch =>
        if s.fenced.contains (20 + ch / 32) then (.error { cause := 0x2C, node := some e.node, lost := 20 + ch / 32 }, s)
        else (.ok l, s)
      | .bus _ _ => if atomic then bad 0x11 else (.ok l, s)
      | .link c _ => if !s.linkUp c then bad 0x10 else if atomic then bad 0x11 else (.ok l, s)
      | .nothing => bad 0x10

/-- log2 of an access size, rounded up (R376). -/
def log2Up (n : Nat) : Nat := if n ≤ 1 then 0 else Nat.log2 (n - 1) + 1

/-- R375, R376, R432: the fault message and slate 0x204 of a request whose translation failed on a walker die. -/
def State.transFault (s : State) (ctx die : Nat) (f : TransFault) (access issuer launch va size : Nat) (detail : Word) :
    State :=
  let s :=
    if f.cause == 0x2C then
      s.faultMsg ctx die (walkerSrc die) (walkerSrc die)
        { cause := f.cause, issuer := issuer, launch := launch,
          g2 := BitVec.ofNat 64 va, g3 := BitVec.ofNat 64 f.lost }
    else
      s.faultMsg ctx die (walkerSrc die) (walkerSrc die)
        { cause := f.cause, access := access, issuer := issuer, launch := launch, g2 := BitVec.ofNat 64 (va % 2 ^ 57),
          g3 := BitVec.ofNat 64 ((match f.node with
            | none => 2 ^ 22 - 1
            | some i => i) * 2 ^ 42 + log2Up size % 16), g4 := detail }
  s.emitExt (walkerSrc die) die ctx 0x204 0 (BitVec.ofNat 64 va) 0

/-- A handover of a 64 KiB page is in progress (R217). (log 92, DEDUCED) -/
def State.handingOver (s : State) (page : Nat) : Bool :=
  s.treeOps.any fun o => match o.fin with
    | .handover p _ => p == page
    | _ => false

/-- The page of a landing belongs to the host, or is on its way to or from it (R217). (log 92, DEDUCED) -/
def State.hostOwned (s : State) (phys : Nat) : Bool :=
  nget false s.shared (phys / 2 ^ 16) || s.handingOver (phys / 2 ^ 16)

/-- R219: hosts hold a line that the access must first recall: any holder for a write, an exclusive one for a read. -/
def State.lineHeld (s : State) (phys n : Nat) (write : Bool) : Bool :=
  s.directory.any fun (line, ports, excl) =>
    phys / 64 ≤ line && line ≤ (phys + n - 1) / 64 && !ports.isEmpty && (write || excl)

/-- A device access may not take its place at a landing now: the page is the host's (R217), or hosts hold a line of it
(R219). -/
def State.barred (s : State) (phys n : Nat) (write : Bool) : Bool := s.hostOwned phys || s.lineHeld phys n write

/-- Back-invalidate snoops of lines to every host that the directory lists for them, unless they are out (R219). -/
def State.snoopLines (s : State) : List (Nat × List Nat × Bool) → State
  | [] => s
  | (line, ports, _) :: r =>
    State.snoopLines
      (let new := ports.filter fun p => !s.recalls.contains (line, p)
       { s with recalls := s.recalls ++ new.map fun p => (line, p), busOut := s.busOut ++ new.map fun p => .snoop p line }) r

/-- The lines that an access must first recall are recalled. -/
def State.recallLines (s : State) (phys n : Nat) (write : Bool) : State :=
  s.snoopLines (s.directory.filter fun (line, ports, excl) =>
    phys / 64 ≤ line && line ≤ (phys + n - 1) / 64 && !ports.isEmpty && (write || excl))

/-- What holds an access at a landing is set in motion: a migration fault to the handler on the service cores (R217), or
the recall of its lines (R219). -/
def State.askFor (s : State) (phys n : Nat) (write : Bool) : State :=
  let page := phys / 2 ^ 16
  if s.hostOwned phys then
    if s.migFaults.contains page || s.handingOver page then s else { s with migFaults := s.migFaults ++ [page] }
  else s.recallLines phys n write

/-! ### The walk pools (R373) -/

def State.walkQ (s : State) (die : Nat) : List Nat := nget [] s.walks die

/-- A translation of the context stands in a walker die's cache. -/
def State.cached (s : State) (ctx va die : Nat) : Bool :=
  (s.cacheOf die).any fun e => e.ctx == ctx && e.vbase ≤ va && va < e.vbase + 2 ^ (6 + e.lg)

/-- R373: a request that needs a walk joins its pool, in arrival order; the first wait of a burst emits slate 0x240. A pool
whose emitter holds a slate takes in none (R286). -/
def State.joinWalk (s : State) (die who ctx va : Nat) : State :=
  if s.cached ctx va die || (s.walkQ die).contains who then s
  else
    let n := (s.walkQ die).length
    let s := { s with walks := nset s.walks die (s.walkQ die ++ [who]) }
    if n == 384 then s.emit (walkerSrc die) die ctx 0x240 384 else s

/-- A request may translate now: its translation is cached, or its walk is one of the 384 that run. -/
def State.mayWalk (s : State) (die who ctx va : Nat) : Bool :=
  !s.isHeld (walkerSrc die) && (s.cached ctx va die || ((s.walkQ die).take 384).contains who)

def State.leaveWalk (s : State) (die who : Nat) : State :=
  if (s.walkQ die).contains who then { s with walks := nset s.walks die ((s.walkQ die).filter (· != who)) } else s

/-- The I/O die of a meter port. -/
def portDie (port : Nat) : Nat := if port == 17 || (8 ≤ port && port < 16) then 17 else 16

/-- The Ethernet port that a connection runs on: the lowest of its mask whose link is up (R463). -/
def State.connPort (s : State) (conn : Nat) : Option Nat :=
  let ports := fld (s.tableEntry 3 0 conn).1 16 16
  (List.range 16).find? fun q => ports.testBit q && s.links.contains q

/-- The port that a connection's frames leave by: while no link of its mask is up, they wait for the lowest one of it
(log 166, DEDUCED). -/
def State.framePort (s : State) (conn : Nat) : Option Nat :=
  match s.connPort conn with
  | some q => some q
  | none => (List.range 16).find? fun q => (fld (s.tableEntry 3 0 conn).1 16 16).testBit q

/-- The I/O die that a connection's frames leave by. -/
def State.connDie (s : State) (conn : Nat) : Nat := portDie ((s.framePort conn).getD 0)

/-- The node at the far end of a connection. -/
def State.connNode (s : State) (conn : Nat) : Nat := fld (s.tableEntry 3 0 conn).1 32 16

/-- The connection keeps as many frames as it may (R463). (log 113, DEDUCED) -/
def State.connFull (s : State) (conn : Nat) : Bool := 256 ≤ (nget ({} : Conn) s.conns conn).unacked.length

/-- A landing whose connection cannot take a frame now. -/
def State.linkFull (s : State) (phys : Nat) : Bool :=
  match s.place phys with
  | .link c _ => s.connFull c
  | _ => false

/-- The far address in the remote context of an offset in a Scallink window (R464). -/
def State.remoteAddr (s : State) (conn off : Nat) : Nat := fld (s.tableEntry 3 0 conn).2.2 0 57 + off

/-- The Scallink node of this package (R462, R468). -/
def State.nodeNumber (s : State) : Nat := fld s.boot.cfg 32 16

/-- The header of a connection's next frame: a frame that carries nothing has the acknowledged number alone. -/
def State.frameHead (s : State) (conn kind seq ack : Nat) : FrameHead :=
  let (w0, w1, _) := s.tableEntry 3 0 conn
  { kind := kind, ether := s.boot.ether.toNat, mac := fld w1 0 48, srcNode := s.nodeNumber, dstNode := fld w0 32 16,
    srcCtx := fld w0 0 12, dstCtx := fld w0 48 12, seq := seq, ack := ack }

/-- An acknowledgement goes out: the number that is expected next, and whether it is refused (R463). -/
def State.putAck (s : State) (conn ack : Nat) (refused : Bool) : State :=
  { s with busOut := s.busOut ++ [.ethernet ((s.connPort conn).getD 0) conn (s.frameHead conn 2 0 ack) refused none] }

/-- The frame that a connection expects has been performed: the far end is told (R463). -/
def State.ackFrame (s : State) (conn : Nat) : State :=
  let c := nget ({} : Conn) s.conns conn
  let n := (c.recvSeq + 1) % 2 ^ 32
  { s with conns := nset s.conns conn { c with recvSeq := n } }.putAck conn n false

/-- The frame that is expected is refused: its number stays the expected one. (log 110, DEDUCED) -/
def State.refuseFrame (s : State) (conn : Nat) : State :=
  s.putAck conn (nget ({} : Conn) s.conns conn).recvSeq true

/-- A frame goes out at the connection's port, with the acknowledgement that every frame carries. -/
def State.putFrame (s : State) (conn : Nat) (f : Frame) : State :=
  match s.connPort conn with
  | none => s
  | some port =>
    let head := s.frameHead conn (if f.message then 0 else 1) f.seq (nget ({} : Conn) s.conns conn).recvSeq
    { s with busOut := s.busOut ++ [.ethernet port conn head false (some f)] }

def State.putFrames (s : State) (conn : Nat) : List Frame → State
  | [] => s
  | f :: fs => State.putFrames (s.putFrame conn f) conn fs

/-- A valid decoder maps part of a device extent (R457). -/
def State.decoderMeets (s : State) (a size : Nat) : Bool :=
  s.tables.any fun (k, w, b, _) => k / 8192 == 2 && w.getLsbD 63 && b.toNat < a + size && a < b.toNat + 2 ^ (12 + fld w 44 6)

/-- Ports that a landing leaves by, for the meters (R410): PCIe 16 and 17, Ethernet 0-15. -/
def State.exitPort (s : State) (phys : Nat) : Option Nat :=
  match s.place phys with
  | .bus p _ => some (16 + p)
  | .link c _ => s.framePort c
  | _ => none

/-- The device physical window base of a partition's own pages and of rules that name only a port (R453). -/
def pcieSrc (die : Nat) : Nat := mkEp die 3 8 0

end Sys2Proof.Machine
end

