-- ==== Sys2Proof/Machine/Units.lean ====
section
/-!
DEFINITION. Units and the records that own them: level records and their completion (R43-R47, R294-R299, R331), binding a
core (R33-R35), and starting, spilling and discarding units (R36-R41).
-/
namespace Sys2Proof.Machine

def State.partOf (s : State) (core : Nat) : Nat := corePart s.parts core
/-- The partition of the acting thread. -/
def State.myPart (s : State) : Nat := s.partOf s.curCore

/-- The master's die pair of a partition (R293). -/
def State.masterOf (s : State) (part : Nat) : Nat :=
  nget ((partPairs s.parts part).find? (fun p => !(s.pair p).fenced) |>.getD 0) s.masters part

/-- A slate of a partition's master. -/
def State.emitMaster (s : State) (part ctx code payload : Nat) : State :=
  let m := s.masterOf part
  s.emit (distributorSrc m) m ctx code payload

/-! ### Record numbers (R44) -/

def levelLimit (lvl : Nat) : Nat := if lvl == 1 then 4096 else 1024

/-- The next index of a level: one never used, else the one freed longest ago. (log 35, DEDUCED) -/
def State.takeIndex (s : State) (lvl part : Nat) : Option (Nat × State) :=
  let k := lvl * 8 + part
  let f := nget {} s.frees k
  if f.fresh < levelLimit lvl then some (f.fresh, { s with frees := nset s.frees k { f with fresh := f.fresh + 1 } })
  else match f.freed with
    | [] => none
    | i :: r => some (i, { s with frees := nset s.frees k { f with freed := r } })

/-- (log 35, DEDUCED) -/
def State.giveIndex (s : State) (lvl part i : Nat) : State :=
  let k := lvl * 8 + part
  let f := nget {} s.frees k
  { s with frees := nset s.frees k { f with freed := f.freed ++ [i] } }

def State.hasIndex (s : State) (lvl part : Nat) : Bool :=
  let f := nget {} s.frees (lvl * 8 + part)
  f.fresh < levelLimit lvl || !f.freed.isEmpty

/-! ### Launch images (R329, R330) -/

def imgX (im : List Word) : Nat := fld (im.getD 0 0) 0 21 + 1
def imgY (im : List Word) : Nat := fld (im.getD 0 0) 21 21 + 1
def imgZ (im : List Word) : Nat := fld (im.getD 0 0) 42 21 + 1
def imgUnits (im : List Word) : Nat := imgX im * imgY im * imgZ im
def imgCen (im : List Word) : Bool := (im.getD 1 0).getLsbD 29
def imgNamed (im : List Word) : Bool := (im.getD 1 0).getLsbD 28
def imgSlot (im : List Word) : Nat := fld (im.getD 1 0) 22 6
def imgGraph (im : List Word) : Nat := fld (im.getD 1 0) 12 10
def imgHandler (im : List Word) : Nat := fld (im.getD 1 0) 0 12
def imgPred (im : List Word) : Word := im.getD 2 0

/-- R38, R41: a legal value of `sr.htab`, of `sr.spill`, in a scratchpad or buffer that ends at `lim`: the table and the
queue lie in it. -/
def htabOk (lim : Nat) (w : Word) : Bool :=
  w.toNat < 2 ^ 44 && fld w 0 3 == 0 && fld w 0 32 + 8 * (fld w 32 12 + 1) ≤ lim
def spillOk (lim : Nat) (w : Word) : Bool :=
  w.toNat < 2 ^ 36 && fld w 32 4 ≤ 10 && fld w 0 6 == 0 &&
    fld w 0 32 + (if fld w 32 4 == 0 then 0 else 64 * 2 ^ fld w 32 4) ≤ lim

/-- R330. (log 143, DESIGN CHOICE) -/
def imageOk (im : List Word) : Bool :=
  let w (i : Nat) : Word := im.getD i 0
  !(w 0).getLsbD 63 && (w 1).toNat < 2 ^ 30 && (w 4).toNat < 2 ^ 32 && (w 5).toNat < 2 ^ 52 && imgUnits im ≤ 65535 &&
    fld (w 5) 32 20 % 64 == 0 && fld (w 5) 0 32 + fld (w 5) 32 20 ≤ 0x60000 && htabOk 0x60000 (w 6) &&
    spillOk 0x60000 (w 7) && (!imgCen im || fld (w 9) 0 6 == 0) && (imgNamed im || (imgPred im == 0 && imgSlot im == 0))

/-! ### Graph edges and phases (R297, R298) -/

def RecState.final : RecState → Bool
  | .complete | .cancelled => true
  | _ => false

/-- Every earlier phase of the graph's job is complete. -/
def State.phaseReady (s : State) (part graph : Nat) : Bool :=
  let ph := (s.level 2 part graph).parent
  let p := s.level 3 part ph
  (List.range 1024).all fun i =>
    let q := nfind s.levels (levelKey 3 part i)
    match q with
    | none => true
    | some q => !(q.inUse && q.parent == p.parent && q.ctx == p.ctx && q.seq < p.seq) || q.state.final

def Slot.isComplete : Slot → Bool
  | .complete => true
  | _ => false
def Slot.isEmpty : Slot → Bool
  | .empty => true
  | _ => false

/-- R297: every predecessor named by a mask is complete; an empty slot of a closed graph counts as complete. -/
def edgesMet (g : Level) (pred : Word) : Bool :=
  (List.range 64).all fun i =>
    !pred.getLsbD i ||
      (let x := nget Slot.empty g.slots i
       x.isComplete || (g.closed && x.isEmpty))

/-- Held slots of one graph whose edges are met enter the admission queue, in slot order. -/
def State.promoteSlots (s : State) (part graph : Nat) : NMap Slot → State
  | [] => s
  | (i, x) :: rest =>
    let g := s.level 2 part graph
    let s := match x with
      | .held im pred page =>
        if edgesMet g pred then
          let s := s.updLevel 2 part graph fun g => { g with slots := nset g.slots i (.queued im) }
          { s with adm := nset s.adm part (nget [] s.adm part ++ [.edge g.ctx graph i im page]) }
        else s
      | _ => s
    State.promoteSlots s part graph rest

/-- Every graph of a partition whose turn it is: its held launches with met edges become admissible. -/
def State.promote (s : State) (part : Nat) : List Nat → State
  | [] => s
  | i :: is =>
    let s :=
      match nfind s.levels (levelKey 2 part i) with
      | none => s
      | some g =>
        if g.inUse && !g.state.final && !g.cancelled && s.phaseReady part i then s.promoteSlots part i g.slots else s
    State.promote s part is

def State.promoteAll (s : State) (part : Nat) : State := s.promote part (List.range 1024)

/-! ### Completion of records (R43-R46) -/

/-- A level-2 to level-4 record is complete when it is closed and every child is (R334); its parent counts it.
(log 37, DEDUCED) -/
def State.settleLevel (s : State) (lvl part i : Nat) : State :=
  let g := s.level lvl part i
  if g.inUse && g.closed && g.children == 0 && !g.state.final then
    let m := s.masterOf part
    let f := s.carried (distributorSrc m) m
    let s := s.updLevel lvl part i fun g => { g with state := if g.cancelled then .cancelled else .complete, floor := f }
    let s := s.giveIndex lvl part i
    if lvl == 4 then s
    else s.updLevel (lvl + 1) part g.parent fun p =>
      { p with children := p.children - 1, errors := Nat.min (p.errors + g.errors) 0xFFFF }
  else s

/-- The chain from a graph upward, and what its completion lets in. -/
def State.settleGraph (s : State) (part graph : Nat) : State :=
  let ph := (s.level 2 part graph).parent
  let job := (s.level 3 part ph).parent
  let s := s.settleLevel 2 part graph
  let s := s.settleLevel 3 part ph
  let s := s.settleLevel 4 part job
  s.promoteAll part

/-- Undealt indices are left, or indices dealt and not dispatched (R45). -/
def State.undispatched (s : State) (part tag : Nat) : Bool :=
  let l := s.launch part tag
  l.next < imgUnits l.image || !l.back.isEmpty || !l.reissue.isEmpty ||
    (partPairs s.parts part).any fun p => (s.pair p).batches.any fun b => b.tag == tag && !b.units.isEmpty

/-- A vector's message, with the address and the data of its table entry (R448, R454). -/
def State.sendVector (s : State) (port vec : Nat) : State :=
  let (addr, data) := nget (0, 0) s.msixMsg (port * 2048 + vec)
  { s with busOut := s.busOut ++ [.msix port vec addr data] }

/-- A vector's message, at once or when it is unmasked (R454). -/
def State.msix (s : State) (port vec : Nat) : State :=
  if nget false s.msixOn (port * 2048 + vec) then s.sendVector port vec
  else { s with msixPend := if s.msixPend.contains (port * 2048 + vec) then s.msixPend
                            else s.msixPend ++ [port * 2048 + vec] }

/-- The vector of a page, when enabled (R454). -/
def State.pageVector (s : State) : Option Nat → State
  | none => s
  | some p => if (nget {} s.pages p).vec then s.msix (p / 2048) (p % 2048) else s

/-- A posted write on a bus, or a store of HBM4E, at a landing (R404, R456). -/
def State.landWrite (s : State) (l : Landing) (bs : List Byte) : State :=
  match s.place l.phys with
  | .bus port a => { s with busOut := s.busOut ++ [.write port a bs] }
  | .hbm _ => s.physWrite l bs
  | _ => s

/-- The slots that a metered context is charged to (R408). -/
def State.meteredSlots (s : State) (ctx : Nat) : Option (List Nat) := nfind s.metered ctx

/-- An access in flight takes its place in line for a walk (R373). -/
def State.joinReq (s : State) (r : Req) : State :=
  if r.peer.isSome || r.own || r.sent then s
  else s.joinWalk (s.walkerDie (epDie r.ep) (s.partOf (epCore r.ep))) r.id r.ctx r.va

/-- The completion entry of a launch (R331): a store of the master's distributor through its context's space, as one
release at .sys; the page's vector follows it (R454). -/
def State.completionEntry (s : State) (part tag : Nat) (l : Launch) : State :=
  if imgCen l.image then
    let m := s.masterOf part
    let (t, s) := s.stamp (distributorSrc m) m
    let w0 := BitVec.ofNat 64 ((if l.cancelled then 3 else 2) * 2 ^ 62 + l.errors % 2 ^ 16 * 2 ^ 42 + 2 ^ 39 + tag)
    let r : Req :=
      { id := s.ids, ep := distributorSrc m, uid := 0, ctx := l.ctx, launch := tag,
        kind := .entry w0 (BitVec.ofNat 64 t) l.page, va := fld (l.image.getD 9 0) 0 57, size := 16, sc := .sys, rel := true,
        detail := w0, floor := s.carried (distributorSrc m) m }
    { s with reqs := s.reqs ++ [r], ids := s.ids + 1 }.joinReq r
  else s

/-- R45: a launch is complete when all of it is dispatched or dropped, as many units have exited as started, and no
acknowledgement is outstanding, and its master neither holds a slate (R286) nor is to be elected (R316). Its graph counts it,
its slot completes, its index is free for reuse. (log 37, DEDUCED) -/
def State.settleLaunch (s : State) (part tag : Nat) : State :=
  let l := s.launch part tag
  if l.inUse && !l.state.final && l.started == l.exited && l.acks == 0 &&
      (l.cancelled || !s.undispatched part tag) && !s.isHeld (distributorSrc (s.masterOf part)) &&
      (nfind s.elections part).isNone then
    let m := s.masterOf part
    let f := s.carried (distributorSrc m) m
    let s := s.updLaunch part tag fun l =>
      { l with state := if l.cancelled then .cancelled else .complete, pool := false, floor := f }
    let s := s.emitMaster part l.ctx 0x084 (tag + if l.cancelled then 2 ^ 12 else 0)
    let s := s.completionEntry part tag l
    let s := s.giveIndex 1 part tag
    let s := s.updLevel 2 part l.graph fun g =>
      { g with children := g.children - 1, errors := Nat.min (g.errors + l.errors) 0xFFFF,
               slots := match l.slot with
                 | none => g.slots
                 | some i => nset g.slots i .complete }
    s.settleGraph part l.graph
  else s

/-- Keys of one partition's launches. -/
def State.launchTags (s : State) (part : Nat) : List Nat :=
  (s.launches.map (·.1)).filterMap fun k => if k / 4096 == part then some (k % 4096) else none

/-- The launch of a unit, unless the unit is detached (R475). -/
def State.countStart (s : State) (part launch : Nat) (det : Bool) : State :=
  if det then s else s.updLaunch part launch fun l => { l with started := l.started + 1 }

/-- A unit of a launch has exited (R42, R45). -/
def State.countExit (s : State) (part launch : Nat) (det err : Bool) : State :=
  if det then s
  else
    (s.updLaunch part launch fun l =>
      { l with exited := l.exited + 1, errors := if err then Nat.min (l.errors + 1) 0xFFFF else l.errors }).settleLaunch
      part launch

/-- R45: an operation of a unit adds one to its launch's acknowledgement count. -/
def State.countAck (s : State) (part launch : Nat) (det : Bool) : State :=
  if det then s else s.updLaunch part launch fun l => { l with acks := l.acks + 1 }

/-- It is acknowledged. -/
def State.dropAck (s : State) (part launch : Nat) (det : Bool) : State :=
  if det then s else (s.updLaunch part launch fun l => { l with acks := l.acks - 1 }).settleLaunch part launch

/-- An error that no unit is left to count (R229). -/
def State.countError (s : State) (part launch : Nat) (det : Bool) : State :=
  if det then s else s.updLaunch part launch fun l => { l with errors := Nat.min (l.errors + 1) 0xFFFF }

/-! ### Units on a core -/

/-- A unit stands on the thread. -/
def State.unitHere (s : State) (ep uid : Nat) : Bool := (s.thr ep).busy && (s.thr ep).unit.uid == uid

/-- The thread that a unit runs on: the one that it issued from, or another of the core after a park (R296). -/
def State.unitEp (s : State) (ep uid : Nat) : Option Nat :=
  if s.unitHere ep uid then some ep else ((List.range 8).map (coreEp (epCore ep))).find? (s.unitHere · uid)

/-- A unit's slot of the park store of its core. -/
def State.slotOf (s : State) (ep uid : Nat) : Option ParkSlot :=
  (s.core (epCore ep)).park.find? (·.th.unit.uid == uid)

/-- What a unit's thread holds, or what its park slot keeps of it (R42, R296). -/
def State.unitThr (s : State) (ep uid : Nat) : Option Thread :=
  match s.unitEp ep uid with
  | some e => some (s.thr e)
  | none => (s.slotOf ep uid).map (·.th)

/-- Change a unit wherever it is: on its thread, or in its park slot (R42, R296). -/
def State.updUnit (s : State) (ep uid : Nat) (f : Thread → Thread) : State :=
  match s.unitEp ep uid with
  | some e => s.updThr e f
  | none =>
    s.updCore (epCore ep) fun k =>
      { k with park := mapIf (·.th.unit.uid == uid) (fun p => { p with th := f p.th }) k.park }

/-- Raise a unit's floor wherever it is, or a service core's (R195, R220). -/
def State.raiseUnit (s : State) (ep uid v : Nat) : State :=
  match s.unitEp ep uid with
  | some e => s.raiseFloor e v
  | none =>
    if isService ep then s.raiseFloor ep v else
    s.updCore (epCore ep) fun k =>
      { k with park := mapIf (·.th.unit.uid == uid) (fun p => { p with floor := Nat.max p.floor v }) k.park }

/-- Change the class counts of a unit. -/
def State.updOcc (s : State) (ep uid : Nat) (f : Occ → Occ) : State := s.updUnit ep uid fun t => { t with occ := f t.occ }

/-- The lowest-numbered free thread of a core: no unit, no gang, no instance (R40, R344). -/
def State.freeThread (s : State) (core : Nat) : Option Nat :=
  (List.range 8).find? fun t => !(s.thr (coreEp core t)).busy && (s.thr (coreEp core t)).inst.isNone

/-- The entry of a handler, if a unit may start there (R38, R39), with its energy class. -/
def State.handlerOf (s : State) (core handler : Nat) : Option (W32 × Nat) :=
  let h := (s.core core).htab
  if fld h 32 12 < handler then none
  else
    let e := s.mem.readWord (padKey core (fld h 0 32 + 8 * handler))
    let a := fld e 0 32
    if !e.getLsbD 63 || fld e 35 28 != 0 || a % 4 != 0 || padSize core ≤ a || a % 32 == 28 then none
    else some (e.setWidth 32, fld e 32 3)

/-- Every visible item at its value at unit start (R40, R55, R116). -/
def startRegs (ep : Nat) (hdr : Word) (payload : List Word) (entry : W32) : Regs :=
  { g := Vector.ofFn fun (i : Fin 32) =>
      if i.val == 0 then hdr else if i.val ≤ hdrWords hdr then payload.getD (i.val - 1) 0 else 0
    pc := entry, rng := rngSeed ep (if 1 ≤ hdrWords hdr then payload.getD 0 0 else 0) }

/-- StartUnit (R40): the thread runs the handler; its floor is the message's (R220). -/
def State.startUnit (s : State) (ep : Nat) (hdr : Word) (payload : List Word) (floor : Nat) (entry : W32)
    (routine : Routine) : State :=
  let s := s.setThr ep
    { regs := startRegs ep hdr payload entry, busy := true, inst := (s.thr ep).inst, routine := routine,
      unit := ⟨s.uids, hdr, hdrLaunch hdr, hdrDet hdr, s.now, payload.getD 0 0⟩ }
  let s := { s with uids := s.uids + 1 }
  let s := s.setFloor ep floor
  s.emit ep (epDie ep) (hdrCtx hdr) 0x080 (hdrHandler hdr)

/-- R39: the fault message of a bad handler; the unit counts as exited with error. -/
def State.badHandler (s : State) (ep : Nat) (hdr : Word) : State :=
  let s := s.faultMsg (hdrCtx hdr) (epDie ep) (niSrc (epDie ep)) (coreEp (epCore ep) 0)
    { cause := 0x20, issuer := ep, launch := hdrLaunch hdr, g2 := BitVec.ofNat 64 (hdrHandler hdr), g3 := hdr }
  s.countExit (s.partOf (epCore ep)) (hdrLaunch hdr) (hdrDet hdr) true

/-- Microseconds of `ctime`, as the time base keeps it, that have passed: each is due its refill (R307). -/
def State.refillsDue (s : State) : Nat := ((s.now / Config.ctimeTicks : Nat) + s.ctimeOff).toNat / 16000

/-- The cap in force: 425 W a pair unless the host has set one. -/
def State.capOf (s : State) (part : Nat) : Nat :=
  (s.schedOf part).cap.getD (425 * (partPairs s.parts part).length)

/-- The refill of each unfenced pair, in nJ. -/
def State.refillOf (s : State) (part : Nat) : Nat :=
  1000 * s.capOf part / ((partPairs s.parts part).filter fun p => !(s.pair p).fenced).length

def State.refillPairs (s : State) : List Nat → State
  | [] => s
  | p :: ps =>
    let r := s.refillOf (pairPart s.parts p)
    State.refillPairs
      (if (s.pair p).fenced then s
       else s.updPair p fun x => { x with allowance := min (1024 * r : Nat) (x.allowance + r) }) ps

/-- One microsecond's refill of every pair. -/
def State.refillOnce (s : State) : State := { s with refills := s.refills + 1 }.refillPairs (List.range 8)

def State.refillTimes (s : State) : Nat → State
  | 0 => s
  | n + 1 => State.refillTimes s.refillOnce n

/-- R310: a unit started by a message is charged its class cost at once, behind the refills of its cycle (R311); the allowance
saturates at -2^40 (R307). -/
def State.chargeUnit (s : State) (core eclass : Nat) : State :=
  if isVDie (coreDie core) then
    let s := s.refillTimes (s.refillsDue - s.refills)
    let cost := ((s.schedOf (s.partOf core)).costs.toArray.getD eclass 0) * 1000
    s.updPair (coreDie core) fun p => { p with allowance := max (-(2 ^ 40 : Int)) (p.allowance - cost) }
  else s

/-- A unit that reaches a free thread: started, discarded with its cancelled launch (R47), or refused for its handler
(R39). -/
def State.runUnit (s : State) (ep : Nat) (hdr : Word) (payload : List Word) (floor : Nat) (routine : Routine) : State :=
  let part := s.partOf (epCore ep)
  if !hdrDet hdr && (s.launch part (hdrLaunch hdr)).cancelled then s.countExit part (hdrLaunch hdr) false false
  else
    match s.handlerOf (epCore ep) (hdrHandler hdr) with
    | none => s.badHandler ep hdr
    | some (entry, ec) =>
      (if hdrClass hdr == 3 then s else s.chargeUnit (epCore ep) ec).startUnit ep hdr payload floor entry routine

/-! ### The spill queue (R40, R41) -/

def Core.spillCap (k : Core) : Nat := if fld k.spill 32 4 == 0 then 0 else 2 ^ fld k.spill 32 4
def Core.spillAddr (k : Core) (i : Nat) : Nat := fld k.spill 0 32 + (k.spillHead + i) % k.spillCap * 64

/-- Append a message at the spill tail: header and payload as one 64-byte entry. -/
def State.spillAppend (s : State) (core : Nat) (hdr : Word) (payload : List Word) (floor : Nat) : State :=
  let k := s.core core
  let ws := (hdr :: payload ++ List.replicate 7 0).take 8
  let a := padKey core (k.spillAddr k.spilled.length)
  let s := s.putBytes a (ws.flatMap fun (w : Word) => leBytes 8 w.toNat)
  let s := s.setCore core { k with spilled := k.spilled ++ [floor] }
  s.emitNi core 0x082 (k.spilled.length + 1)

def State.readWords (s : State) (a : Nat) : Nat → List Word
  | 0 => []
  | n + 1 => s.mem.readWord a :: State.readWords s (a + 8) n

/-- R47: units of cancelled launches that stand at the head of a core's spill queue are discarded. -/
def State.skimSpill (s : State) (core : Nat) : Nat → State
  | 0 => s
  | fuel + 1 =>
    let k := s.core core
    match k.spilled with
    | [] => s
    | _ :: fs =>
      let hdr := s.mem.readWord (padKey core (k.spillAddr 0))
      if !hdrDet hdr && (s.launch (s.partOf core) (hdrLaunch hdr)).cancelled then
        let s := s.setCore core { k with spilled := fs, spillHead := (k.spillHead + 1) % k.spillCap }
        State.skimSpill (s.countExit (s.partOf core) (hdrLaunch hdr) false false) core fuel
      else s

/-- Resume a unit whose LAUNCH.w has been answered on a free thread: with the state that its slot holds, and the endpoint
of the thread from then on (R296). -/
def State.resume (s : State) (ep : Nat) (p : ParkSlot) : State :=
  let s := s.setThr ep { p.th with busy := true, wait := .none, inst := (s.thr ep).inst }
  let s := s.setFloor ep p.floor
  s.updThr ep fun t => ((deliverHeld t.pend t).result p.dst p.answer).advance 8

/-- What a core with a free thread takes up: units whose request has been answered, then the spill head (R40, R296).
(log 34, DEDUCED) -/
def State.takeUp (s : State) (core : Nat) : Nat → State
  | 0 => s
  | fuel + 1 =>
    match s.freeThread core with
    | none => s
    | some t =>
      let k := s.core core
      match takeFirst (·.req.isNone) k.park with
      | some (p, rest) => State.takeUp ((s.setCore core { k with park := rest }).resume (coreEp core t) p) core fuel
      | none =>
        match k.spilled with
        | [] => s
        | f :: fs =>
          let a := padKey core (k.spillAddr 0)
          let hdr := s.mem.readWord a
          let s := s.setCore core { k with spilled := fs, spillHead := (k.spillHead + 1) % k.spillCap }
          State.takeUp (s.runUnit (coreEp core t) hdr (s.readWords (a + 8) 7) f .none) core fuel

/-- R35: the core unbinds when all threads are free, nothing is spilled, every counter is zero and nothing is parked. -/
def State.unbindIfIdle (s : State) (core : Nat) : State :=
  let k := s.core core
  if k.bound.isSome && (List.range 8).all (fun t => !(s.thr (coreEp core t)).busy && (s.thr (coreEp core t)).inst.isNone) &&
      k.spilled.isEmpty && k.park.isEmpty && k.cn.toList.all (· == 0) then
    s.setCore core { k with bound := none, prev := k.bound }
  else s

/-- A core after a thread or a counter has become free. -/
def State.settleCore (s : State) (core : Nat) : State :=
  let s := s.takeUp core ((s.core core).spilled.length + (s.core core).park.length)
  (s.skimSpill core (s.core core).spilled.length).unbindIfIdle core

/-! ### Binding (R34) -/

/-- Free bytes: what a read of a host's or a peer's memory returns. (log 5, DESIGN CHOICE; log 119, DESIGN CHOICE) -/
def freeBytes : Nat → Nat → List Byte
  | 0, _ => []
  | n + 1, i => (Config.freeWord i).setWidth 8 :: freeBytes n (i + 1)

/-- Bytes at a landing; bytes of a host or a peer are open. Whether a read through a port fails is open too: it then returns
all ones and the port counts an error (R456). (log 102, DEDUCED; log 119, DESIGN CHOICE) -/
def State.landRead (s : State) (l : Landing) (n : Nat) : List Byte × State :=
  match s.place l.phys with
  | .hbm _ => (s.physRead l n, s)
  | .bus port _ =>
    let (w, s) := s.freeValue
    if w.getLsbD 0 then (List.replicate n (BitVec.allOnes 8), s.portError port)
    else (freeBytes n s.free, { s with free := s.free + n })
  | _ => (freeBytes n s.free, { s with free := s.free + n })

/-- How a read of a part that holds no request in flight ends: done, a failed translation, or it has to wait: for a walk
(R373), for a page that the host owns (R217), or for a line that a host holds (R219). -/
inductive ReadEnd where
  | ok (bs : List Byte)
  | failed (f : TransFault)
  | waits
  deriving DecidableEq, Repr

/-- A read of `n` bytes of far memory by the part that waits in the walk pool as `who`. -/
def State.farRead (s : State) (who ctx va n die : Nat) : ReadEnd × State :=
  if s.isHeld (walkerSrc die) then (.waits, s)
  else if !s.mayWalk die who ctx va && 384 ≤ (s.walkQ die).length then (.waits, s.joinWalk die who ctx va)
  else
    let (r, s) := (s.leaveWalk die who).translate ctx va n .read false die
    match r with
    | .error f => (.failed f, s)
    | .ok l =>
      if s.barred l.phys n false then (.waits, s.askFor l.phys n false)
      else
        let (bs, s) := s.landRead l n
        (.ok bs, s)

/-- The number that a binding core's copy of its image waits for walks under. -/
def bindWalk (core : Nat) : Nat := 2 ^ 41 + core

/-- Copy `n` granules of a code image, from far memory to the scratchpad. -/
def State.copyImage (s : State) (core ctx die : Nat) : Nat → Nat → Nat → ReadEnd × State
  | 0, _, _ => (.ok [], s)
  | n + 1, va, dst =>
    match s.farRead (bindWalk core) ctx va 64 die with
    | (.ok bs, s) =>
      State.copyImage (s.putBytes (padKey core dst) bs) core ctx die n (va + 64) (dst + 64)
    | (e, s) => (e, s)

/-- The state of a core bound to a context under a launch, before its image is copied. -/
def State.bindCore (s : State) (core ctx : Nat) (im : List Word) : State :=
  let k := s.core core
  let s := if k.prev == some ctx then s
    else { s with mem := s.mem.zero (padKey core 0) (padKey core (padSize core))
                  relFloors := dropFloors s.relFloors (padKey core 0) (padSize core) }
  s.setCore core
    { bound := some ctx, prev := k.prev, htab := im.getD 6 0, spill := im.getD 7 0, clock := k.clock }

/-- How a binding ends. -/
inductive BindEnd where
  | bound
  | failed
  | waits
  deriving DecidableEq, Repr

/-- R34, R330: bind a core to a context under the launch that a tag names, or leave it unbound with the fault message of an
unreachable image; while its image cannot be read, the core stays unbound. A detached message has no launch of its own: the
launch is the one whose tag its header carries. (log 144, DESIGN CHOICE) -/
def State.bindTo (s : State) (core ctx tag : Nat) : BindEnd × State :=
  let im := (s.launch (s.partOf core) tag).image
  let s0 := s
  let s := s.bindCore core ctx im
  let ilen := fld (im.getD 5 0) 32 20
  let ref := im.getD 8 0
  let die := s.walkerDie (coreDie core) (s.partOf core)
  if ilen == 0 then (.bound, s)
  else
    let (e, s) :=
      if ref.getLsbD 63 && fld ref 57 6 == 0 then s.copyImage core ctx die (ilen / 64) (fld ref 0 57) (fld (im.getD 5 0) 0 32)
      else (.failed { cause := 0x10, node := none }, s)
    match e with
    | .ok _ => (.bound, s)
    | .waits => (.waits, s.setCore core { s0.core core with prev := some ctx })
    | .failed _ =>
      let s := s.setCore core { s0.core core with prev := some ctx }
      (.failed, s.faultMsg ctx (coreDie core) (niSrc (coreDie core)) (coreEp core 0)
        { cause := 0x26, issuer := coreEp core 0, launch := tag, g2 := ref, g3 := BitVec.ofNat 64 tag })

/-- R34, R330: bind a core for a message; where the image cannot be reached, the unit counts as exited with error. -/
def State.bind (s : State) (core : Nat) (hdr : Word) : BindEnd × State :=
  match s.bindTo core (hdrCtx hdr) (hdrLaunch hdr) with
  | (.failed, s) => (.failed, s.countExit (s.partOf core) (hdrLaunch hdr) (hdrDet hdr) true)
  | x => x

end Sys2Proof.Machine
end

