-- ==== Sys2Proof/Machine/Far.lean ====
section
/-!
DEFINITION. Accesses in flight: to other cores' scratchpads and to far memory, from issue to acknowledgement (R45, R59,
R225, R228-R235, R262, R375, R456, R464), and the steps of the opcode table that translate, perform and end them.
-/
namespace Sys2Proof.Machine

/-! ### Counts (R59) -/

def Occ.get (o : Occ) : Nat → Nat
  | 0 => o.ld
  | 1 => o.st
  | 2 => o.cp
  | _ => o.tl

def Occ.set (o : Occ) (c v : Nat) : Occ :=
  match c with
  | 0 => { o with ld := v }
  | 1 => { o with st := v }
  | 2 => { o with cp := v }
  | _ => { o with tl := v }

def Occ.up (o : Occ) (c : Nat) : Occ := o.set c (o.get c + 1)
def Occ.down (o : Occ) (c : Nat) : Occ := o.set c (o.get c - 1)

/-- A count that stands at 63 stalls the instruction that would raise it. -/
def State.occFull (s : State) (c : Nat) : Bool := 63 ≤ s.me.occ.get c

/-- A count of a unit rises at issue. -/
def State.occUp (s : State) (c : Nat) : State := s.upd fun t => { t with occ := t.occ.up c }

/-- A count of a unit falls at a completion, which carries a floor (R220, R240). -/
def State.occDown (s : State) (ep uid c floor : Nat) : State :=
  s.updUnit ep uid fun t =>
    { t with occ := t.occ.down c, occFloor := nset t.occFloor c (Nat.max floor (nget 0 t.occFloor c)) }

/-- A unit is on a thread, or in the park store of its core. -/
def State.unitAlive (s : State) (ep uid : Nat) : Bool := (s.unitEp ep uid).isSome || (s.slotOf ep uid).isSome

/-- The answer to a pending result of a unit; a parked unit takes it when it resumes. -/
def State.answer (s : State) (ep uid id : Nat) (v : Word) : State :=
  match s.unitEp ep uid with
  | some e => s.updThr e (·.answer id v)
  | none => s.updUnit ep uid fun t => { t with pend := mapIf (·.id == id) (fun q => { q with val := some v }) t.pend }

/-! ### The accesses -/

/-- The count that an access raises (R229, R233, R261): 0 LD, 1 ST. -/
def ReqKind.count : ReqKind → Nat
  | .load _ | .amo .. | .cas .. | .ldaq .. | .lineIn .. | .burstIn .. | .burstRemote .. => 0
  | .store .. | .lineOut _ | .burstOut _ | .entry .. | .bits .. | .posted _ | .remote .. => 1

/-- Whether it stands in its launch's acknowledgement count (R45). -/
def ReqKind.acked : ReqKind → Bool
  | .load _ | .ldaq .. | .lineIn .. | .burstIn .. | .burstRemote .. | .entry .. | .bits .. | .posted _ | .remote .. => false
  | .store .. | .lineOut _ | .burstOut _ | .amo .. | .cas .. => true

/-- Whether it is a store of a distributor, a copy unit, a drain or a remote agent, which no thread's count holds. -/
def ReqKind.isEntry : ReqKind → Bool
  | .entry .. | .posted _ | .remote .. => true
  | _ => false

def ReqKind.writes : ReqKind → Bool
  | .load _ | .ldaq .. | .lineIn .. | .burstIn .. | .burstRemote .. => false
  | .store .. | .lineOut _ | .burstOut _ | .amo .. | .cas .. | .entry .. | .bits .. | .posted _ | .remote .. => true

def ReqKind.atomic : ReqKind → Bool
  | .amo .. | .cas .. => true
  | _ => false

def ReqKind.access (k : ReqKind) : Access := if k.atomic then .both else if k.writes then .write else .read

/-- The access code of a fault message (R376). -/
def ReqKind.code (k : ReqKind) : Nat := if k.atomic then 2 else if k.writes then 1 else 0

/-- A new access of the acting thread. (log 16, DEDUCED) -/
def State.newReq (s : State) (id : Nat) (kind : ReqKind) (peer : Option Nat) (va size : Nat) (sc : Scope) (acq rel : Bool)
    (detail : Word) : Req :=
  { id := id, ep := s.cur, uid := s.me.unit.uid, ctx := s.myCtx, launch := s.me.unit.launch, det := s.me.unit.det,
    kind := kind, peer := peer, va := va, size := size, sc := sc, acq := acq, rel := rel, detail := detail,
    floor := s.carried s.cur (epDie s.cur) }

/-- Issue an access: its count and its launch's acknowledgement count rise (R45, R59), and a far one that needs a walk
joins its pool (R373). -/
def State.request (s : State) (r : Req) : State :=
  let s := s.occUp r.kind.count
  let s := if r.kind.acked then s.countAck (s.partOf (epCore r.ep)) r.launch r.det else s
  { s with reqs := s.reqs ++ [r] }.joinReq r

/-- A release to the own scratchpad that waits: no count (R230). (log 11, DEDUCED) -/
def State.requestOwn (s : State) (r : Req) : State := { s with reqs := s.reqs ++ [{ r with own := true }] }

/-- The endpoint of service core 0-31 (R28). -/
def serviceEp (core : Nat) : Nat := mkEp (16 + core / 16) 0 (core % 16) 0

/-- A service core's load or store of far, host or peer memory, through its MMU and its I/O die's walkers (R195, R373), at
.sys. It stands in no unit's counts; what a load returns goes to the core's own registers, which are no part of this machine.
(log 136, DESIGN CHOICE) -/
def State.serviceAccess (s : State) (core ctx va n : Nat) (store : Option Word) (order : Bool) : State :=
  let ep := serviceEp core
  let die := 16 + core / 16
  if 32 ≤ core || s.boot.state != 2 || s.fenced.contains die || !(s.ctx ctx).inUse || !([1, 2, 4, 8].contains n) || va % n != 0 ||
      2 ^ 57 < va + n then s
  else
    let (id, s) := s.fresh
    let r : Req :=
      { id := id, ep := ep, uid := 0, ctx := ctx, launch := 0, det := true,
        kind := match store with
          | none => .load .i64
          | some v => .store n v
        va := va, size := n, sc := .sys, acq := order && store.isNone, rel := order && store.isSome,
        detail := (store.getD 0), floor := s.carried ep die }
    { s with reqs := s.reqs ++ [r] }.joinReq r

def State.findReq (s : State) (id : Nat) : Option Req := s.reqs.find? (·.id == id)
def State.setReq (s : State) (r : Req) : State := { s with reqs := mapIf (·.id == r.id) (fun _ => r) s.reqs }

/-- The thread that an access holds may go on (R232). -/
def State.wakeOp (s : State) (ep uid id : Nat) : State :=
  if s.unitHere ep uid && (s.thr ep).wait == .op id then s.updThr ep fun t => { t with wait := .none } else s

/-- A store of the unit has been acknowledged at its scope (R240). -/
def State.storeAcked (s : State) (r : Req) : State :=
  if r.kind.count == 1 then s.updUnit r.ep r.uid fun t => { t with stScope := t.stScope.max r.sc } else s

/-- A write that came over Scallink has been written: its frame is acknowledged (R464). -/
def State.ackArrived (s : State) (k : ReqKind) : State :=
  match k with
  | .remote conn _ => s.ackFrame conn
  | _ => s

/-- An access is over: its counts fall (R229). -/
def State.endReq (s : State) (r : Req) : State :=
  let s := { s with reqs := s.reqs.filter (·.id != r.id) }
  if r.kind.isEntry then s.ackArrived r.kind
  else
    let s := s.wakeOp r.ep r.uid r.id
    if r.own then s
    else
      let s := (s.occDown r.ep r.uid r.kind.count r.floor).storeAcked r
      if r.kind.acked then s.dropAck (s.partOf (epCore r.ep)) r.launch r.det else s

/-! ### Where it lands -/

/-- The near address of a byte of a peer's scratchpad (R195). (log 33, DEDUCED) -/
def peerAddr (core off : Nat) : Nat := 2 ^ 28 + corePeer core * 2 ^ 20 + off

/-- A touch of a unit, on its thread or parked (R247). (log 33, DEDUCED) -/
def State.touchUnit (s : State) (ep uid : Nat) (write : Bool) (addr : Nat) : State :=
  s.updUnit ep uid fun t => { t with regs := { t.regs with gtouch := touched t.regs.gtouch write addr } }

/-- At most eight aligned bytes of a scratchpad, read for a unit. -/
def State.unitLoad (s : State) (ep uid core off n : Nat) : Nat × State :=
  if (s.core core).guarded off then
    (0, s.touchUnit ep uid false (if core == epCore ep then off else peerAddr core off))
  else (s.mem.readNat n (padKey core off), s)

/-- At most eight aligned bytes of a scratchpad, written for a unit. -/
def State.unitStore (s : State) (ep uid core off n v : Nat) : State :=
  if (s.core core).guarded off then
    s.touchUnit ep uid true (if core == epCore ep then off else peerAddr core off)
  else
    let s := if core == epCore ep && s.unitHere ep uid then s.logUndo ep off else s
    { s with mem := s.mem.writeNat n (padKey core off) v, relFloors := dropFloors s.relFloors (padKey core off) n }

/-- Bytes of a scratchpad from a 4-byte aligned offset, in 4-byte granules (R258): each granule on a guard is one touch. (log 171,
DESIGN CHOICE) -/
def State.unitRead (s : State) (ep uid core : Nat) : Nat → Nat → List Byte × State
  | 0, _ => ([], s)
  | n + 1, off =>
    let (v, s) := s.unitLoad ep uid core off 4
    let (bs, s) := State.unitRead s ep uid core n (off + 4)
    (leBytes 4 v ++ bs, s)

def State.unitWrite (s : State) (ep uid core : Nat) : List Byte → Nat → State
  | a :: b :: c :: d :: bs, off =>
    State.unitWrite (s.unitStore ep uid core off 4 (leNat [a, b, c, d])) ep uid core bs (off + 4)
  | _, _ => s

/-- The core whose scratchpad an access reaches: a peer's, or the own one as a release that waits. -/
def Req.pad (r : Req) : Option Nat := if r.own then some (epCore r.ep) else r.peer

/-- The key of the location of an access, for the floors of releases. -/
def Req.key (r : Req) : Nat :=
  match r.pad with
  | some c => padKey c r.va
  | none => physKey ((r.land.map (·.phys)).getD 0)

/-- The bytes that an access reads. -/
def State.reqRead (s : State) (r : Req) (data : List Byte) : List Byte × State :=
  match r.pad, r.land with
  | some c, _ =>
    let (v, s) := s.unitLoad r.ep r.uid c r.va r.size
    (leBytes r.size v, s)
  | none, some l =>
    match s.place l.phys with
    | .hbm _ => (s.physRead l r.size, s)
    | _ => (data, s)
  | none, none => ([], s)

/-- The bytes that an access writes. -/
def State.reqWrite (s : State) (r : Req) (bs : List Byte) : State :=
  match r.pad, r.land with
  | some c, _ => s.unitStore r.ep r.uid c r.va r.size (leNat bs)
  | none, some l =>
    if isService r.ep && (s.sealedIn l.phys bs.length) then s.tellSealed (pcieSrc (epDie r.ep)) (epDie r.ep) l.phys (BitVec.ofNat 64 r.ep)
    else s.landWrite l bs
  | none, none => s

/-- A guard granule answers an atomic with zeros and takes nothing; it is one touch (R247). -/
def State.reqGuarded (s : State) (r : Req) : Bool := r.pad.any fun c => (s.core c).guarded r.va

/-- The address of a touch that an access makes (R248). -/
def Req.touchAddr (r : Req) : Nat :=
  match r.pad with
  | some c => if c == epCore r.ep then r.va else peerAddr c r.va
  | none => r.va

/-- R220: an acquire that reads `n` bytes that a release wrote raises the floor of its unit. -/
def State.acquireAt (s : State) (ep uid key n : Nat) : State := s.raiseUnit ep uid (topFloor s.relFloors key n)

/-- The acting thread's own acquire. -/
def State.acquireMe (s : State) (key n : Nat) : State := s.raiseFloor s.cur (topFloor s.relFloors key n)

/-- A release carries its issuer's floor (R220). -/
def State.releaseAt (s : State) (key n floor : Nat) : State :=
  { s with relFloors := putFloors s.relFloors key floor n }

def State.reqAcquire (s : State) (r : Req) : State := if r.acq then s.acquireAt r.ep r.uid r.key r.size else s
def State.reqRelease (s : State) (r : Req) : State := if r.rel then s.releaseAt r.key r.size r.floor else s

/-! ### Atomics (R153, R234, R235) -/

/-- A word with the bits of `mask` replaced by those of `v`. -/
def maskIn (old mask v : Nat) : Nat := old &&& (2 ^ 64 - 1 - mask) ||| v &&& mask

/-- What AMO writes (R234). -/
def amoFn (t : IntTy) (op : AmoOp) (old b : Nat) : Nat :=
  let w := intBits t
  let o := old % 2 ^ w
  let b := b % 2 ^ w
  let less : Bool := if t.signed then decide (signedOf w o < signedOf w b) else decide (o < b)
  match op with
  | .swap => b
  | .add => (o + b) % 2 ^ w
  | .and => o &&& b
  | .or => o ||| b
  | .xor => o ^^^ b
  | .min => if less then o else b
  | .max => if less then b else o
  | .incw => if b ≤ o then 0 else o + 1

/-! ### Performing an access -/

/-- The loads of a far LDAQ: the condition on what the latest one read (R231). -/
def State.endLdaq (s : State) (r : Req) (d : Dst) (v : Word) : State :=
  let s := if s.unitHere r.ep r.uid && (s.thr r.ep).wait == .ldaq r.id then
      s.updThr r.ep fun t => ({ t with wait := .none }.result d v).advance 8
    else s
  s.endReq r

/-- The granule of a burst that is performed next: its length, which ends at a 64-byte boundary of the far side, and the
access as that granule alone (R212, R262). -/
def Req.granule (r : Req) : Nat × Req :=
  let n := Nat.min (r.size - r.done) (64 - (r.va + r.done) % 64)
  (n, { r with va := r.va + r.done, size := n, land := r.land.map fun l => { l with phys := l.phys + r.done } })

/-- A granule of `n` bytes of a burst has been performed: the burst ends with its last. -/
def State.granuleDone (s : State) (r : Req) (n : Nat) : State :=
  if r.size ≤ r.done + n then s.endReq r else s.setReq { r with done := r.done + n }

/-- R262: a burst may go to this endpoint: a small core of the partition, bound to the context. -/
def State.burstTo (s : State) (r : Req) (ep : Nat) : Bool :=
  isSmall ep && s.partOf (epCore ep) == (s.ctx r.ctx).part && (s.core (epCore ep)).bound == some r.ctx

/-- The loader that refuses a burst: that of the memory core which the far side lies at. -/
def State.burstLoader (s : State) (r : Req) : Nat :=
  match s.place ((r.land.map (·.phys)).getD 0) with
  | .hbm c => c
  | _ => coreChannel (epCore r.ep)

/-- R262: the refusal of a burst, which ends it; a loader that holds a slate refuses later (R286). -/
def State.burstRefused (s : State) (r : Req) (ep : Nat) : State :=
  let ch := s.burstLoader r
  let die := 20 + ch / 32
  let src := loaderSrc die (ch % 32)
  if s.isHeld src then s
  else
    let s := s.faultMsg r.ctx die src src
      { cause := 0x24, issuer := r.ep, launch := r.launch, g2 := BitVec.ofNat 64 ep,
        g3 := BitVec.ofNat 64 (2 ^ 63 + r.va) }
    (s.emit src die r.ctx 0x140 ep).endReq r

/-- R454: the port, with the bus address, that a completion entry leaves by, where its page's vector is enabled at the other
port: the device completes a read of no bytes there before it sends the vector. -/
def State.otherPort (s : State) (r : Req) (page : Option Nat) : Option (Nat × Nat) :=
  match page, r.land.map fun l => s.place l.phys with
  | some p, some (.bus port bus) => if (nget {} s.pages p).vec && p / 2048 != port then some (port, bus) else none
  | _, _ => none

/-- An access takes its place in memory and is acknowledged; of a burst, one granule does. `data` is what a host or a peer
returns. -/
def State.performReq (s : State) (r : Req) (data : List Byte) : State :=
  let own := epCore r.ep
  match r.kind with
  | .load t =>
    let (bs, s) := s.reqRead r data
    ((s.reqAcquire r).answer r.ep r.uid r.id (extend (intBits t) t.signed (leNat bs))).endReq r
  | .store n v => ((s.reqWrite r (leBytes n v.toNat)).reqRelease r).endReq r
  | .amo t op b =>
    if s.reqGuarded r then
      let s := s.touchUnit r.ep r.uid true r.touchAddr
      (s.answer r.ep r.uid r.id 0).endReq r
    else
      let (bs, s) := s.reqRead r data
      let s := s.reqAcquire r
      let s := s.reqWrite r (leBytes r.size (amoFn t op (leNat bs) b.toNat))
      ((s.reqRelease r).answer r.ep r.uid r.id (extend (intBits t) t.signed (leNat bs))).endReq r
  | .cas t exp new =>
    if s.reqGuarded r then
      let s := s.touchUnit r.ep r.uid true r.touchAddr
      (s.answer r.ep r.uid r.id 0).endReq r
    else
      let (bs, s) := s.reqRead r data
      let s := s.reqAcquire r
      let s := if leNat bs == exp.toNat % 2 ^ intBits t then
          (s.reqWrite r (leBytes r.size new.toNat)).reqRelease r
        else s
      (s.answer r.ep r.uid r.id (extend (intBits t) t.signed (leNat bs))).endReq r
  | .ldaq t c b d =>
    let (bs, s) := s.reqRead r data
    let v := extend (intBits t) t.signed (leNat bs)
    if condHolds c v b then (s.acquireAt r.ep r.uid r.key r.size).endLdaq r d v
    else (s.setReq { r with land := none }).joinReq r
  | .lineIn loc top =>
    let (bs, s) := s.reqRead r data
    let s := (s.reqAcquire r).unitWrite r.ep r.uid own bs loc
    (if top then s.answer r.ep r.uid r.id (BitVec.ofNat 64 (leNat (bs.drop 56))) else s).endReq r
  | .lineOut bs => ((s.reqWrite r bs).reqRelease r).endReq r
  | .burstIn loc _ =>
    let (n, g) := r.granule
    let (bs, s) := s.reqRead g ((data.drop r.done).take n)
    (s.unitWrite r.ep r.uid own bs (loc + r.done)).granuleDone r n
  | .burstOut bs =>
    let (n, g) := r.granule
    (s.reqWrite g ((bs.drop r.done).take n)).granuleDone r n
  | .burstRemote ep off _ =>
    if s.burstTo r ep then
      let (n, g) := r.granule
      let (bs, s) := s.reqRead g ((data.drop r.done).take n)
      (s.unitWrite r.ep r.uid (epCore ep) bs (off + r.done)).granuleDone r n
    else s.burstRefused r ep
  | .bits mask v =>
    if s.reqGuarded r then (s.touchUnit r.ep r.uid true r.touchAddr).endReq r
    else
      let (bs, s) := s.reqRead r data
      (s.reqWrite r (leBytes 8 (maskIn (leNat bs) mask v))).endReq r
  | .entry w0 w1 page =>
    if r.done == 0 then
      let s := (s.reqWrite r (leBytes 8 w0.toNat ++ leBytes 8 w1.toNat)).reqRelease r
      match s.otherPort r page with
      | none => (s.pageVector page).endReq r
      | some (port, bus) => { s with busOut := s.busOut ++ [BusOut.zeroRead port bus] }.setReq { r with done := 16 }
    else (s.pageVector page).endReq r
  | .posted bs => (s.reqWrite r bs).endReq r
  | .remote _ bs =>
    let (n, g) := r.granule
    (s.reqWrite g ((bs.drop r.done).take n)).granuleDone r n

/-- R375: what an access that failed leaves; the fault message has been sent. -/
def State.settleReq (s : State) (r : Req) : State :=
  let own := epCore r.ep
  let s := if s.unitAlive r.ep r.uid || r.kind.isEntry then s
    else s.countError (s.partOf own) r.launch r.det
  match r.kind with
  | .load _ | .amo .. | .cas .. => (s.answer r.ep r.uid r.id 0).endReq r
  | .ldaq _ _ _ d => s.endLdaq r d 0
  | .lineIn loc top =>
    let s := s.unitWrite r.ep r.uid own (List.replicate 64 0) loc
    (if top then s.answer r.ep r.uid r.id 0 else s).endReq r
  | .burstIn loc n => (s.unitWrite r.ep r.uid own (List.replicate n 0) loc).endReq r
  | .store .. | .lineOut _ | .burstOut _ | .burstRemote .. | .entry .. | .bits .. | .posted _ => s.endReq r
  | .remote c _ => { s with reqs := s.reqs.filter (·.id != r.id) }.refuseFrame c

/-! ### Order among the accesses of a unit (R202, R230) -/

def Req.meets (a b : Req) : Bool :=
  (a.pad == b.pad && a.va < b.va + b.size && b.va < a.va + a.size) ||
    (match a.land, b.land with
      | some x, some y => x.phys < y.phys + b.size && y.phys < x.phys + a.size
      | _, _ => false)

/-- The accesses issued before `id`, in issue order. -/
def reqsBefore (id : Nat) : List Req → List Req
  | [] => []
  | r :: rs => if r.id == id then [] else r :: reqsBefore id rs

/-- R202: an earlier access `q` of the same unit stands before `r`: they share bytes (rules 1-3), `q` is an acquire (rule 4),
`r` is a release (rule 5), a release stands before an acquire (rule 6), or the pair counts at .thr (R204); each where R205
keeps the pair at its scope. Two far accesses may share bytes until the earlier one has been translated. -/
def State.ordered (s : State) (q r : Req) : Bool :=
  q.meets r || (q.pad.isNone && r.pad.isNone && q.land.isNone && !q.sent) ||
    (q.acq && s.keptAt r.ep q.scNow) || (r.rel && s.keptAt r.ep r.sc) ||
    (q.rel && r.acq && s.keptAt r.ep (q.scNow.min r.sc)) ||
    s.keptAt r.ep .thr

/-- An access may take its place: nothing that stands before it is in flight. (log 9, DEDUCED) -/
def State.reqInOrder (s : State) (r : Req) : Bool :=
  (reqsBefore r.id s.reqs).all fun q => epCore q.ep != epCore r.ep || q.uid != r.uid || !s.ordered q r

/-- Beats of this operation have yet to pass their meters (R411). -/
def State.metersHold (s : State) (id : Nat) : Bool := s.beats.any (·.id == id)

/-- A metered operation that leaves the package: one beat for each 64 bytes (R410). -/
def State.charge (s : State) (id ctx phys size : Nat) : State :=
  match s.meteredSlots ctx, s.exitPort phys with
  | some _, some port => { s with beats := s.beats ++ [{ id := id, ctx := ctx, port := port, left := (size + 63) / 64 }] }
  | _, _ => s

/-! ### The steps -/

/-- FAR_ACCESS_TRANSLATE (R374): the translation instant of a far access. An access to a page that the host owns is held
and translated again after the handover (R217). -/
def State.translateReq (s : State) (r : Req) : State :=
  let die := s.walkerDie (epDie r.ep) (s.partOf (epCore r.ep))
  if !s.mayWalk die r.id r.ctx r.va then s.joinReq r
  else
    let (res, s1) := (s.leaveWalk die r.id).translate r.ctx r.va r.size r.kind.access r.kind.atomic die
    match res with
    | .error f =>
      (s1.transFault r.ctx die f r.kind.code r.ep r.launch r.va r.size r.detail).settleReq r
    | .ok l =>
      if s1.hostOwned l.phys then (s1.setReq { r with migrating := true }).askFor l.phys r.size r.kind.writes
      else
        let outside := (s1.place l.phys).outside
        let s := s1.setReq { r with land := some l, migrating := false, sc := if outside then .sys else r.sc }
        if r.kind.writes then s.charge r.id r.ctx l.phys r.size else s

def execFarAccessTranslate (id : Nat) (s : State) : Out :=
  .next
    (match s.findReq id with
      | none => s
      | some r => if r.peer.isNone && !r.own && !r.sent && r.land.isNone then s.translateReq r else s)

/-- The lines that a held access needs are recalled (R219). -/
def State.recallFor (s : State) (r : Req) : State :=
  match r.pad, r.land with
  | none, some l => if s.lineHeld l.phys r.size r.kind.writes then s.askFor l.phys r.size r.kind.writes else s
  | _, _ => s

/-- Whether an access may be performed now: ordered, past its meters, its line recalled (R219). -/
def State.reqReady (s : State) (r : Req) (data : List Byte) : Bool :=
  s.reqInOrder r && !s.metersHold r.id &&
    (match r.pad, r.land with
      | some _, _ => true
      | none, none => false
      | none, some l =>
        !s.lineHeld l.phys r.size r.kind.writes &&
          (r.kind.writes || !(s.place l.phys).outside || data.length == r.size))

/-- A frame has left: its beats have passed (R411). -/
def State.frameOut (s : State) (f : Frame) : Bool :=
  match f.op with
  | none => true
  | some id => !s.metersHold id

/-- The frames of a connection that have left: each leaves behind the one before it. -/
def State.framesOut (s : State) : List Frame → List Frame
  | [] => []
  | f :: fs => if s.frameOut f then f :: State.framesOut s fs else []

/-- The frame of a write over Scallink (R463, R464), which goes out at once unless a meter holds it or one before it; its
acknowledgement ends the access. -/
def State.sendFrame (s : State) (conn ctx : Nat) (hdr : Word) (dest addr : Nat) (words : List Word) (message : Bool)
    (op : Option Nat) : State :=
  let c := nget {} s.conns conn
  let f : Frame := ⟨c.sendSeq, ctx, hdr, dest, addr, words, message, op⟩
  let out := s.framesOut (c.unacked ++ [f])
  let c : Conn :=
    { c with sendSeq := (c.sendSeq + 1) % 2 ^ 32, sentAt := if c.unacked.isEmpty then s.now else c.sentAt,
             unacked := c.unacked ++ [f] }
  let s := { s with conns := nset s.conns conn c }
  if out.length == c.unacked.length then s.putFrame conn f else s

/-- A message or a write that a connection did not bring to its end: counts fall, the launch counts an error, and the pager
is told with cause 0x25 (R325, R463, R464). -/
def State.tellUndelivered (s : State) (conn ctx ep launch : Nat) (dest : Word) : State :=
  let die := s.connDie conn
  s.faultMsg ctx die (scallinkSrc die) (scallinkSrc die)
    { cause := 0x25, issuer := ep, launch := launch, g2 := dest, g3 := BitVec.ofNat 64 (s.connNode conn) }

def State.failReq (s : State) (conn : Nat) (r : Req) (dest : Word) : State :=
  let s := (s.countError (s.partOf (epCore r.ep)) r.launch r.det).tellUndelivered conn r.ctx r.ep r.launch dest
  match r.kind with
  | .remote c _ => { s with reqs := s.reqs.filter (·.id != r.id) }.refuseFrame c
  | _ => s.endReq r

/-- A write: its destination endpoint is left open; one that came over Scallink itself refuses its frame (R464).
(log 111, DEDUCED) -/
def State.failWrite (s : State) (conn : Nat) (r : Req) : State :=
  let (w, s) := s.freeValue
  s.failReq conn r w

/-- The bytes that an access carries to its far end, as words. -/
def ReqKind.payload : ReqKind → List Byte
  | .store n v => leBytes n v.toNat
  | .lineOut bs | .burstOut bs | .posted bs | .remote _ bs => bs
  | .entry w0 w1 _ => leBytes 8 w0.toNat ++ leBytes 8 w1.toNat
  | _ => []

def wordsOf : Nat → List Byte → List Word
  | 0, _ => []
  | _ + 1, [] => []
  | n + 1, bs => BitVec.ofNat 64 (leNat (bs.take 8)) :: wordsOf n (bs.drop 8)

/-- A write of an engine or a drain at a landing (R255, R281). Over Scallink it goes out as a frame of its own, and is over
when that is acknowledged; a connection that is down fails it (R464). -/
def State.engineLand (s : State) (ctx ep launch : Nat) (det : Bool) (l : Landing) (bs : List Byte) : State :=
  match s.place l.phys with
  | .link conn off =>
    let (id, s) := s.fresh
    let r : Req :=
      { id := id, ep := ep, uid := 0, ctx := ctx, launch := launch, det := det, kind := .posted bs, va := 0, size := bs.length,
        sc := .sys, land := some l, sent := true }
    let s := { s with reqs := s.reqs ++ [r] }
    if s.linkUp conn then
      s.sendFrame conn ctx (BitVec.ofNat 64 bs.length) 0 (s.remoteAddr conn off) (wordsOf 512 bs) false (some id)
    else s.failWrite conn r
  | _ => s.landWrite l bs

/-- FAR_ACCESS_ACK (R229): an access is performed and acknowledged. One that a port translated before a function level reset
cleared its window finds no window at the port: a read returns all ones and a write is dropped, as R456 gives.
(log 119, DESIGN CHOICE; log 134, DEDUCED) -/
def execFarAccessAck (id : Nat) (data : List Byte) (s : State) : Out :=
  match s.findReq id with
  | none => .next s
  | some r =>
    if !s.reqReady r data then .next (s.recallFor r)
    else
      match r.land with
      | none => .next (s.performReq r data)
      | some l =>
        match s.place l.phys with
        | .nothing =>
          if 2 ^ 44 ≤ l.phys && l.phys < 3 * 2 ^ 44 then
            .next ((s.portError (l.phys / 2 ^ 44 - 1)).performReq r (List.replicate r.size (BitVec.allOnes 8)))
          else .fault .noSuchAddress
        | .link conn off =>
          if r.sent then .next s
          else if r.kind.writes then
            if !s.linkUp conn then .next (s.failWrite conn r)
            else if s.connFull conn then .next s
            else
              .next ((s.sendFrame conn r.ctx (BitVec.ofNat 64 r.size) 0 (s.remoteAddr conn off) (wordsOf 512 r.kind.payload)
                false (some r.id)).setReq { r with sent := true })
          else .next (s.performReq r data)
        | _ => .next (s.performReq r data)

/-- LDP_ARRIVAL (R228): a peer load's value reaches its nib register, and LD falls. -/
def execLdpArrival (id : Nat) (s : State) : Out :=
  .next
    (match s.findReq id with
      | none => s
      | some r =>
        match r.kind, r.peer with
        | .load _, some _ => if s.reqReady r [] then s.performReq r [] else s
        | _, _ => s)

/-- LDAQ_RELOAD (R231): a parked LDAQ loads again. -/
def execLdaqReload (ep : Nat) (s : State) : Out :=
  .next (if (s.thr ep).wait == .reload then s.updThr ep fun t => { t with wait := .none } else s)

end Sys2Proof.Machine
end

