-- ==== Sys2Proof/Machine/Issue.lean ====
section
/-!
DEFINITION. What a thread does when its turn comes: the instruction that it issues, or why it waits (R50, R65, R76, R122,
R202, R237, R423, R428), and the word that the step function's own test fetch places.
-/
namespace Sys2Proof.Machine

/-! ### The order of a thread's operations (08_ordering_model.md) -/

/-- The fence classes of a vector instruction's memory operands (R141). -/
def vecClasses (o : VOp) (hasB : Bool) : Nat :=
  (if o.asel || (hasB && !o.bsel) then 1 else 0) + if o.dsel then 2 else 0

/-- The fence classes of an instruction (R197, R236): bit 0 ld, 1 st, 2 cp, 3 tl, 4 ms. A SENDX reads its payload, a LAUNCH
its image and a STAGE create its descriptor as loads of the thread, ahead of what they send (R324). -/
def classesOf : Instr → Nat
  | .ld .. | .ldaq .. | .ldp .. | .xld .. | .crec .. | .vla .. | .vgath .. | .ldb .. | .waitc .. | .waitcn ..
  | .mtest .. => 1
  | .st .. | .strl .. | .stp .. | .xst .. | .mbox .. | .planew .. | .vsa .. | .stb .. => 2
  | .amo .. | .cas .. | .xburst .. | .vscat .. => 3
  | .vadd _ o | .vsub _ o | .vmul _ o | .vmin _ o | .vmax _ o | .vcmp _ _ _ o | .vscl _ o | .vsel _ _ o
  | .vperm _ o | .vand _ o | .vor _ o | .vxor _ o | .vshl _ o | .vshr _ o | .vfma o => vecClasses o true
  | .vbcast _ o | .vabs _ o | .vexp2 o | .vrsq o | .vrcp o | .vred _ _ o => vecClasses o false
  | .vidx _ _ _ d .. => if d then 2 else 0
  | .chain .. | .chainResume .. => 4
  | .mjob .. | .mmask .. | .mprec .. | .mzero .. | .mmul .. | .mmulb .. | .msca .. | .msendt .. | .mrecvt .. | .mmove ..
  | .mload .. | .e8cvt .. => 8
  | .sendx .. | .launch .. | .launchW .. => 17
  | .stageCreate .. => 1
  | .send .. | .keysend .. | .wake .. | .map .. | .grant .. | .unmap .. | .unmapAsync .. => 16
  | _ => 0

/-- Accesses of a thread's unit still in flight, in issue order. -/
def State.ownReqs (s : State) (ep : Nat) : List Req :=
  s.reqs.filter fun r => epCore r.ep == epCore ep && r.uid == (s.thr ep).unit.uid

/-- A load in flight. -/
def ReqKind.loads : ReqKind → Bool
  | .load _ | .ldaq .. | .lineIn .. | .burstIn .. | .burstRemote .. => true
  | .store .. | .amo .. | .cas .. | .lineOut _ | .burstOut _ | .bits .. | .entry .. | .posted _ | .remote .. => false

/-- The scope of a release that takes its place when it issues: kicks (.dev), sends (R197), launches (R215, R333),
derivations (R377) and an UNMAP (R387), handle releases and barrier arrivals (R263-R265, R434). (log 10, DEDUCED) -/
def State.releaseScope (s : State) (ep : Nat) : Instr → Option Scope
  | .chain .. | .chainResume .. | .launch .. | .launchW .. | .map .. | .grant .. | .unmap .. | .unmapAsync .. => some .dev
  | .send d .. | .wake d => some (sendScope ep (fld (s.raw 0 d) 0 18))
  | .sendx _ _ dest _ _ _ node _ =>
    if node == 0xFFFF || node.toNat == fld s.boot.cfg 32 16 then some (sendScope ep dest.toNat) else some .sys
  | .keysend n _ g =>
    let st := nget ({} : Stage) s.stages (corePart s.parts (epCore ep) * 64 + n.toNat)
    some (sendScope ep (routeOf (st.copy (epCore ep)) (fld (s.thr ep).regs.g[g] 0 32)))
  | .hrel .. | .rpost .. | .barr .. | .ckpt .. => some .cl
  | _ => none

/-- The bytes of the own scratchpad or buffer that a scalar access reaches; it takes its place when it issues. -/
def State.nearSpan (s : State) (i : Instr) : Option (Nat × Nat) :=
  let core := s.curCore
  let near (r : Reach) (ea : Word) (t : IntTy) : Option (Nat × Nat) :=
    match checkRef core r ea (intBytes t) with
    | .ok (.pad x) => some (x, intBytes t)
    | _ => none
  match i with
  | .ld t _ _ _ a off => near (reachLoad core) (s.ea a off) t
  | .ldaq t _ _ _ a _ => near (reachLoad core) (s.raw 0 a) t
  | .st t _ _ a _ off | .strl t _ a _ off => near (reachStore core) (s.ea a off) t
  | .amo t _ _ _ _ a _ | .cas t _ _ _ a _ => near (reachAtomic core) (s.raw 0 a) t
  | .mbox a _ _ => near ⟨true, false, true⟩ (s.raw 0 a) .n32
  | _ => none

/-- The bytes of space 0 that the listed lanes of a vector operand reach (R138). -/
def laneSpans (t : ElemTy) (p : Word) (lanes : List Nat) : List (Nat × Nat) :=
  let b := p.toNat % 2 ^ 32
  if b / 2 ^ 28 == 0 then lanes.map fun l => (laneAddr t b l, Nat.max 1 (elemHalf t / 2)) else []

/-- The bytes of the own scratchpad or buffer that an instruction of another form than a scalar access reaches when it
issues; none where the addresses come from memory. -/
def State.wideSpans (s : State) (i : Instr) : Option (List (Nat × Nat)) :=
  let r := s.me.regs
  let vec (m : Fin 4) (ps : List (Fin 8)) : List (Nat × Nat) := ps.flatMap fun p => laneSpans .i32 r.p[p] (r.lanes m)
  let near (x : Word) (n : Nat) : List (Nat × Nat) := if x.getLsbD 63 then [] else [(fld x 0 28, n)]
  match i with
  | .ldb _ _ | .stb _ => some [(r.ba.toNat / 64 * 8, 16)]
  | .vla t m p _ | .vsa t m p _ => some (laneSpans t r.p[p] (r.lanes m))
  | .vadd _ o | .vsub _ o | .vmul _ o | .vmin _ o | .vmax _ o | .vscl _ o | .vsel _ _ o | .vand _ o | .vor _ o
  | .vxor _ o | .vshl _ o | .vshr _ o | .vfma o => some (vec o.mask (usedPtrs o true))
  | .vperm _ o => some (vec o.mask (usedPtrs { o with asel := false } true))
  | .vcmp _ _ _ o => some (vec o.mask (usedPtrs { o with dsel := false } true))
  | .vabs _ o | .vexp2 o | .vrsq o | .vrcp o => some (vec o.mask (usedPtrs o false))
  | .vred _ _ o => some (vec o.mask (usedPtrs { o with dsel := false } false))
  | .vbcast _ o =>
    some ((if o.asel then laneSpans .i32 r.p[o.pa] [0] else []) ++ vec o.mask (usedPtrs { o with asel := false } false))
  | .vidx _ m pd d .. => some (vec m (if d then [pd] else []))
  | .xld _ b .. | .xst _ b .. => some (near (s.raw 0 b) 64)
  | .xburst a b len .. => some (near (s.raw 0 a) len.toNat ++ near (s.raw 0 b) len.toNat)
  | .crec _ a b _ => some (near (s.raw 0 a) 64 ++ near (s.raw 0 b) 64)
  | .sendx a off _ _ words .. => some (near (s.ea a off) (8 * words.toNat))
  | .launch _ a | .launchW _ a => some (near (s.raw 0 a) 128)
  | .eret => some [(frameBase (s.core s.curCore) s.cur, 0x368)]
  | .vgath .. | .vscat .. | .stageCreate .. => none
  | _ => some []

def isScalarAccess : Instr → Bool
  | .ld .. | .st .. | .ldaq .. | .strl .. | .ldp .. | .stp .. | .amo .. | .cas .. | .mbox .. => true
  | _ => false

/-- The widest scope at which a WAITC reads from completions (R240). -/
def Thread.waitScope (t : Thread) (ld st cp tl : BitVec 6) : Scope :=
  let at_ (x : BitVec 6) (sc : Scope) : Scope := if x == 63 then .thr else sc
  (at_ ld .thr).max ((at_ st t.stScope).max ((at_ cp .dev).max (at_ tl .cl)))

/-- The scope of an acquire that takes its place when it issues (R197, R240, R263-R266, R328). -/
def State.acquireScope (s : State) (ep : Nat) (i : Instr) : Option Scope :=
  match i with
  | .ld _ sc true .. | .ldaq _ sc .. => if (s.nearSpan i).isSome then some sc else none
  | .amo _ sc o .. | .cas _ sc o .. => if ordAcq o && (s.nearSpan i).isSome then some sc else none
  | .crec _ a _ sc => if (s.raw 0 a).getLsbD 63 then none else some sc
  | .waitc ld st cp tl => some ((s.thr ep).waitScope ld st cp tl)
  | .waitcn x _ => some (if (s.core (epCore ep)).cnCopy.getLsbD x.val then .dev else .cl)
  | .park .. | .lvwait .. => some .dev
  | .mtest .. | .hacq .. | .rtake .. | .btest .. | .bwait .. => some .cl
  | _ => none

/-- The bytes of the own scratchpad or buffer that an instruction reaches when it issues; none where they are not known
before its reads. -/
def State.ownSpans (s : State) (i : Instr) : Option (List (Nat × Nat)) :=
  if isScalarAccess i then some (s.nearSpan i).toList else s.wideSpans i

/-- R202, rules 1-3: an access of the own scratchpad follows an access of the same bytes that is in flight, through the
core's own space-1 address or as a release that waits. A gather, a scatter and a STAGE create, whose addresses stand in
memory, follow each of them. (log 11, DEDUCED) -/
def State.aliasHolds (s : State) (ep : Nat) (i : Instr) : Bool :=
  let own := (s.ownReqs ep).filter fun q => q.own || q.peer == some (epCore ep)
  !own.isEmpty &&
    match s.ownSpans i with
    | some xs => xs.any fun (x, n) => own.any fun q => q.va < x + n && x < q.va + q.size
    | none => true

/-- A synchronous UNMAP or an XFLUSH of the thread has yet to be answered: its push is an acquire (R387, R394). -/
def State.acquiring (s : State) (ep : Nat) : Bool := let t := s.thr ep
  t.pend.any fun p => !t.keeps p && p.acq.any (s.keptAt ep)

/-- What the order of R202 holds at issue. An acquire in flight holds every later operation (rule 4; R228, R230); a fence
holds the classes of its successor set until the accesses it waits for are done (rule 7; R237); an operation that takes its
place when it issues follows the thread's accesses in flight at .thr (R204), as a release at its own scope (rule 5), as an
acquire after their releases at the narrower scope (rule 6); a job follows loads, and stores of space 0 (R206, R211 note
3). Every pair counts where R205 keeps it. (log 9, DEDUCED; log 12, DEDUCED) -/
def State.orderHolds (s : State) (ep : Nat) (i : Instr) : Bool :=
  let c := classesOf i
  let own := s.ownReqs ep
  let rel := s.releaseScope ep i
  let acq := s.acquireScope ep i
  let now := !isScalarAccess i || (s.nearSpan i).isSome
  (c != 0 || rel.isSome || acq.isSome) && s.acquiring ep || !own.isEmpty && (c != 0 || rel.isSome || acq.isSome) &&
    (own.any (fun q => q.acq && ((q.peer.isSome && q.kind.loads) || s.keptAt ep q.scNow)) ||
      (s.thr ep).fences.any (fun (ids, succ, sc) =>
        c &&& succ != 0 && s.keptAt ep sc && own.any fun q => ids.contains q.id) ||
      (now && s.keptAt ep .thr) ||
      rel.any (fun sc => s.keptAt ep sc) ||
      acq.any (fun sc => own.any fun q => q.rel && s.keptAt ep (q.scNow.min sc)) ||
      (c &&& 8 != 0 && own.any fun q => q.own || q.kind.loads) ||
      s.aliasHolds ep i)

/-- What comes of a thread's turn. -/
inductive Issue where
  | wait (s : State)
  | run (i : Instr) (s : State)
  deriving DecidableEq, Repr

/-- Whether an instruction reads a wet place or a nib register, or writes the nib register (R69, R122). -/
def uses (t : Thread) (i : Instr) (place : Nat) (nib : Option (Fin 8)) : Bool :=
  ((sources i).any fun x => match x with
      | .wet q => q.val == place
      | .nib q => nib == some (renamed t.shift q)
      | _ => false) || (readsW0 i && place == 0) || (nibDst i).any fun q => nib == some (renamed t.shift q)

/-- Whether it reads `acc`. -/
def readsAcc : Instr → Bool
  | .vadd _ o | .vsub _ o | .vmul _ o | .vmin _ o | .vmax _ o | .vcmp _ _ _ o | .vscl _ o | .vsel _ _ o | .vand _ o | .vor _ o
  | .vxor _ o | .vshl _ o | .vshr _ o | .vabs _ o | .vexp2 o | .vrsq o | .vrcp o | .vred _ _ o => !o.asel
  | .vfma _ | .vperm .. | .vsa .. | .vcvt .. | .vscat .. => true
  | _ => false

def dstNib : Dst → Option (Fin 8)
  | .wet => none
  | .nib j => some j

/-- The results that an instruction reads or whose nib register it writes, and that have yet to arrive (R69, R122, R425): the
cycle in which it can issue. -/
def readyFor (t : Thread) (i : Instr) (clock : Nat) : Nat :=
  let place : Option Nat → Nat
    | none => 4
    | some p => wetPos t.pushes p
  let c := t.late.foldl (fun c l => if uses t i (place l.push) (dstNib l.dst) then Nat.max c l.ready else c)
    (Nat.max clock t.issueAt)
  t.slow.foldl (fun c x => if uses t i (place x.push) x.nib || (x.acc && readsAcc i) then Nat.max c x.ready else c) c

/-- R425: a thread with 16 unfinished scalar instructions issues once one of them has finished. -/
def Thread.queueFree (t : Thread) (c : Nat) : Nat :=
  let live := (t.late.map (·.ready)).filter (c < ·)
  if live.length < 16 then c else live.foldl Nat.min (live.headD c)

/-- Advance the core's clock to the issue and drop the results that have arrived. The generator stands where the
instruction's own result finds it: before the results that are written later (R117). (log 22, DEDUCED) -/
def State.tick (s : State) (ep : Nat) (i : Instr) : State :=
  let k := s.core (epCore ep)
  let t := s.thr ep
  let c := t.queueFree (readyFor t i (k.clock + 1))
  (s.setCore (epCore ep) { k with clock := c, last := epThread ep }).setThr ep
    { t with late := t.late.filter (fun l => c < l.ready)
             slow := t.slow.filter (fun x => c < x.ready)
             regs := { t.regs with rng := t.rngAt (c + writeCycles i) } }

/-- After an instruction: the stochastic results that are written after its own follow it (R117). (log 22, DEDUCED) -/
def State.settleRng (s : State) (ep : Nat) (i : Instr) : State :=
  let c := (s.core (epCore ep)).clock + writeCycles i
  if ((s.thr ep).rsrAfter c).isEmpty then s else s.updThr ep fun t => Thread.redo (t.rsrAfter c) t

/-- Cycles from issue to a dependent instruction, of an instruction whose result the replay queue does not take and no part
outside the core answers (R122, R152, R229, R235; TSREAD and TMARK, R285). A gather's are counted from its last lane.
(log 22, DEDUCED) -/
def slowCycles (t : Thread) : Instr → Nat
  | .ldb w _ => if 64 < t.regs.ba.toNat % 64 + w.toNat then 4 else 3
  | .ld .. | .ldaq .. | .vla .. | .vgath .. => 3
  | .amo .. | .cas .. | .mjob .. | .mtest .. | .mstat .. => 4
  | .tsread .. | .tmark .. => 2
  | .vadd ty _ | .vsub ty _ | .vmul ty _ | .vmin ty _ | .vmax ty _ | .vabs ty _ => if ty == .f32 then 4 else 2
  | .vand .. | .vor .. | .vxor .. | .vshl .. | .vshr .. | .vcmp .. | .vbcast .. | .vsel .. | .vidx .. | .vperm .. => 2
  | .vfma .. | .vcvt .. | .vscl .. => 4
  | .vred .. => 10
  | .vexp2 .. | .vrsq .. | .vrcp .. => 12
  | _ => 1

/-- Whether it writes `acc`. -/
def writesAcc : Instr → Bool
  | .vadd _ o | .vsub _ o | .vmul _ o | .vmin _ o | .vmax _ o | .vscl _ o | .vsel _ _ o | .vand _ o | .vor _ o
  | .vxor _ o | .vshl _ o | .vshr _ o | .vabs _ o | .vexp2 o | .vrsq o | .vrcp o | .vfma o | .vperm _ o | .vbcast _ o =>
    !o.dsel
  | .vidx _ _ _ d .. => !d
  | .vla .. | .vcvt .. | .vgath .. => true
  | _ => false

/-- After an instruction that `before` issued: its result arrives after its latency (R122). (log 22, DEDUCED) -/
def State.recordSlow (before after : State) (ep : Nat) (i : Instr) : State :=
  let t := before.thr ep
  let u := after.thr ep
  let n := slowCycles t i
  if n == 1 || u.retired == t.retired || u.pend.length != t.pend.length then after
  else
    let pushed := u.pushes != t.pushes
    let x : Slow :=
      { push := if pushed then some t.pushes else none,
        nib := if pushed then (nibDst i).map (renamed t.shift) else none,
        acc := writesAcc i, ready := (after.core (epCore ep)).clock + n }
    after.setThr ep { u with slow := u.slow ++ [x] }

/-- The skew of a follower behind its leader (R50). -/
def skewOf (g : Gang) (pos : Nat) : Nat := (pos % 4 - g.leader % 4) + (pos / 4 - g.leader / 4)

/-- Every follower is within its skew, so the leader may issue (R50). (log 31, DEDUCED) -/
def State.gangReady (s : State) (g : Gang) (ep : Nat) : Bool :=
  (gangMembers g ep).all fun m =>
    match (s.thr m).gang with
    | none => true
    | some h =>
      (s.thr m).ahead.length ≤ skewOf h h.pos && (s.thr m).trapPend.isNone && !(s.thr m).trap && !s.isHeld m

/-- Instructions that park their thread until something outside it happens. -/
def parks : Instr → Bool
  | .ldaq .. | .waitc .. | .waitcn .. | .yield .. | .park .. | .lvwait .. | .launchW .. | .hacq .. | .rtake .. | .bwait ..
  | .ckpt .. | .mergeok | .mtest .. => true
  | _ => false

/-- Instructions that a leader executes only when its followers have caught up: they end or stop the gang.
(log 31, DEDUCED) -/
def needsCatchUp : Instr → Bool
  | .split | .exit .. | .halt | .trap .. | .brk .. | .eret | .kill .. | .mrel | .reservedInstruction .. => true
  | _ => false

/-- Where sequential fetch finds no byte: the first address that could not be read (R63). -/
def fetchEpc (pc : Nat) : Nat := Nat.max fetchEnd pc

/-- The instruction at the thread's pc: from its repetition's body, or fetched (R75, R76). -/
def State.instrAt (s : State) (ep : Nat) : Instr :=
  let t := s.thr ep
  let core := epCore ep
  match t.rep.bind fun r => r.body[r.idx]? with
  | some (_, i) => i
  | none =>
    match fetchAt s.mem core t.regs.pc.toNat with
    | .ok (i, _) => i
    | .error .fetchAddress =>
      let a := fetchEpc t.regs.pc.toNat
      .reservedInstruction .fetchAddress (BitVec.ofNat 32 a) (BitVec.ofNat 64 a)
    | .error .fetchWindow => .reservedInstruction .fetchWindow t.regs.pc 0
    | .error e => .reservedInstruction e t.regs.pc (fetchDetail s.mem core t.regs.pc.toNat)

def Gang.isLeader (g : Gang) : Bool := g.pos == g.leader

/-- R428, R430: the pre-emption that a thread takes at its boundary: its own, or as a leader any member's, with the member. -/
def State.preemptOf (s : State) (ep : Nat) : Option (Nat × Nat) :=
  (match (s.thr ep).gang with
    | none => [ep]
    | some g => if g.isLeader then gangMembers g ep else []).findSome? fun m => (s.thr m).preempt.map fun q => (m, q)

/-- No follower of a gang stands further back than its skew after `n` cycles without an instruction of the leader. -/
def State.noneBehind (s : State) (n : Nat) : List Nat → Bool
  | [] => true
  | m :: ms =>
    (match (s.thr m).gang with
      | none => true
      | some h => h.isLeader || (s.thr m).ahead.length ≤ skewOf h h.pos - n) && State.noneBehind s n ms

/-- A follower executes an instruction when its leader stands its skew beyond it: a stall of the leader holds the gang
(R50, R314). Where the leader is parked, or waits for its followers, they catch up in step, and one that stalls holds the
others. (log 31, DEDUCED) -/
def State.gangDue (s : State) (g : Gang) (ep : Nat) : Bool :=
  let lead := coreEp (octetCore (coreArray (epCore ep)) g.leader) (epThread ep)
  let l := s.thr lead
  let n := (s.thr ep).ahead.length
  skewOf g g.pos < n ||
    (l.wait != .none || l.trapPend.isSome || (s.preemptOf lead).isSome || needsCatchUp (s.instrAt lead) ||
        parks (s.instrAt lead)) &&
      s.noneBehind (skewOf g g.pos - n) (gangMembers g ep)

/-- R231: a pre-empted far LDAQ leaves no state. -/
def State.dropLdaq (s : State) (ep : Nat) : Wait → State
  | .ldaq id =>
    { s with reqs := s.reqs.filter (·.id != id) }.updThr ep fun t => { t with occ := { t.occ with ld := t.occ.ld - 1 } }
  | _ => s

/-- The checks between an instruction and its issue. -/
def State.tryIssue (s : State) (ep : Nat) (i : Instr) : Issue :=
  if (s.thr ep).conflicts i || s.orderHolds ep i then .wait s else .run i (s.tick ep i)

/-- R327: the yielding threads of a core no longer wait for this one's opportunity. -/
def State.tookTurn (s : State) (ep : Nat) : List Nat → State
  | [] => s
  | t :: ts =>
    let e := coreEp (epCore ep) t
    State.tookTurn
      (match (s.thr e).wait with
        | .yield till owed c => s.updThr e fun t => { t with wait := .yield till (owed.filter (· != epThread ep)) c }
        | _ => s) ep ts

def Wait.isSlate : Wait → Bool
  | .slate _ _ => true
  | _ => false

/-- The leader of a thread's gang, or the thread itself (R48). -/
def State.leaderOf (s : State) (ep : Nat) : Nat :=
  match (s.thr ep).gang with
  | none => ep
  | some g => coreEp (octetCore (coreArray (epCore ep)) g.leader) (epThread ep)

/-- R428: the pending pre-emption of member `m` at an instruction boundary. A parked wait has done nothing yet (R427); a
stalled trace instruction has admitted nothing (R285); a member's pre-emption is one of its gang, before the leader's next
instruction (R430). -/
def State.takePreempt (s : State) (ep m q : Nat) : State :=
  let t := s.thr ep
  match t.wait with
  | .op _ => s
  | w =>
    if !s.gangCaughtUp ep then s
    else
      let s := s.dropLdaq ep w
      let s := if w.isSlate then
          { s with held := s.held.filter fun h => !(h.src == ep && !h.completes) }
        else s
      ((s.updThr m fun t => { t with preempt := none }).upd fun t => { t with wait := .none }).raiseAt 0x34 true
        (BitVec.ofNat 64 q) t.regs.pc

/-- A thread's turn. `cur` is the acting thread from here on. -/
def State.issue (s0 : State) (ep : Nat) : Issue :=
  let s := { s0 with cur := ep }.tookTurn ep (List.range 8)
  let t := s.thr ep
  if !t.busy || s.fenced.contains (epDie ep) || t.trapPend.isSome || 
      (s.isHeld ep && !(t.wait.isSlate && (s.preemptOf ep).isSome && !t.trap)) then .wait s
  else if t.wait == .halted || t.wait == .gangHalt || t.rback.isSome then .wait s
  else match if t.trap then none else s.preemptOf ep with
  | some (m, q) => .wait (s.takePreempt ep m q)
  | none =>
    if t.wait != .none then .wait s
    else match t.gang with
    | none => s.tryIssue ep (s.instrAt ep)
    | some g =>
      if t.trap then s.tryIssue ep (s.instrAt ep)
      else if g.isLeader then
        if !s.gangReady g ep then .wait s
        else
          let i := s.instrAt ep
          if needsCatchUp i && !s.gangCaughtUp ep then .wait s else s.tryIssue ep i
      else
        match t.ahead with
        | [] => .wait s
        | x :: _ =>
          if !s.gangDue g ep then .wait s
          else
          let s := s.updThr ep fun t => { t with shift := x.shift, regs := { t.regs with pc := x.pc } }
          s.tryIssue ep x.instr

/-- The cycle in which a thread can issue, if it can. -/
def State.issueCycle (s : State) (ep : Nat) : Option Nat :=
  match s.issue ep with
  | .wait _ => none
  | .run _ t => some (t.core (epCore ep)).clock

/-- How far a thread stands behind the one that issued last (R122). -/
def Core.behind (k : Core) (t : Nat) : Nat := (t + 15 - k.last) % 8

/-- R122: one instruction a cycle, the ready threads of the core in rotation from the thread after the one that issued
last: no other thread of the core can issue in an earlier cycle, or in the same one ahead of this in the rotation. -/
def State.hasTurn (s : State) (ep : Nat) : Bool :=
  let k := s.core (epCore ep)
  match s.issueCycle ep with
  | none => true
  | some c =>
    (List.range 8).all fun u =>
      u == epThread ep ||
        match s.issueCycle (coreEp (epCore ep) u) with
        | none => true
        | some d => c < d || (c == d && k.behind (epThread ep) < k.behind u)

/-- Give an instruction that a leader has completed to its followers; take one that a follower has completed from its
queue. Control of a repetition is the leader's own. (log 31, DEDUCED) -/
def State.forward (before after : State) (ep : Nat) (i : Instr) : State :=
  let t := before.thr ep
  match t.gang with
  | none => after
  | some g =>
    if t.trap || (after.thr ep).gang != some g || (after.thr ep).retired == t.retired then after
    else if g.isLeader then
      match i with
      | .rep .. => after
      | _ =>
        let x : Ahead := ⟨i, t.shift, t.regs.pc⟩
        give x ((gangMembers g ep).filter (· != ep)) after
    else after.updThr ep fun t => { t with ahead := t.ahead.drop 1 }
where
  give (x : Ahead) : List Nat → State → State
    | [], s => s
    | m :: ms, s => give x ms (s.updThr m fun t => { t with ahead := t.ahead ++ [x] })

/-- The move to make next: the agenda's, or whichever agent's turn it happens to be. (log 4, DESIGN CHOICE) -/
def State.nextMove (s : State) : Move × State :=
  match s.agenda with
  | m :: rest => (m, { s with agenda := rest })
  | [] => (Config.freeMove s.turn, { s with turn := s.turn + 1 })

/-- Instruction rows are no events, and a thread alone takes the fault of a word that no instruction holds.
(log 133, DESIGN CHOICE) -/
def isEvent : Instr → Bool
  | .messageArrival .. => true
  | .reservedInstruction .. => false
  | i => (encode i).isNone

/-- The state in which the thread of endpoint 0 runs a unit and finds the word at its pc. (log 3, DEDUCED) -/
def State.placeWord (s : State) (nbits w : Nat) : State :=
  let k := s.core 0
  let t := s.thr 0
  let s := s.setCore 0 { k with bound := some (k.bound.getD 1), last := 7 }
  let s := s.setThr 0
    { t with busy := true, wait := .none, pend := [], rep := none, shift := 0, gang := none, ahead := [],
             trapPend := none, preempt := none, fences := [] }
  { s with
    mem := s.mem.writeBytes (leBytes 16 (w % 2 ^ nbits)) (padKey 0 t.regs.pc.toNat)
    held := s.held.filter (·.src != 0)
    reqs := s.reqs.filter (·.ep != 0)
    agenda := [.thread 0] }

end Sys2Proof.Machine
end

