-- ==== Sys2Proof/Machine/Access.lean ====
section
/-!
DEFINITION. The scalar memory instructions, atomics, fences, waits on counts, completion counters and the heap
(09_memory_instructions.md R226-R246). An access to the own scratchpad or buffer takes its place when it issues; every
other access is put in flight.
-/
namespace Sys2Proof.Machine


/-- Put an access in flight whose answer is pushed, unless LD stands at 63 (R59, R122). -/
def State.sendPush (s : State) (d : Dst) (mk : State → Nat → Req) : State :=
  if s.occFull 0 then s
  else
    let (id, s) := s.reserve d false
    (s.request (mk s id)).done 8

/-- Put a store in flight, unless ST stands at 63. -/
def State.sendStore (s : State) (mk : State → Nat → Req) : State :=
  if s.occFull 1 then s
  else
    let (id, s) := s.fresh
    (s.request (mk s id)).done 8

/-! ### Loads and stores (R226-R230) -/

/-- A load of the own scratchpad; an acquire takes the floor of the release it reads (R220). (log 9, DEDUCED) -/
def State.nearLoad (s : State) (t : IntTy) (acq : Bool) (addr : Nat) : Word × State :=
  let c := s.curCore
  let (v, s) := s.padLoad s.cur c addr (intBytes t)
  let s := if acq then s.acquireMe (padKey c addr) (intBytes t) else s
  (extend (intBits t) t.signed v, s)

/-- A store to the own scratchpad, at its place now. (log 9, DEDUCED) -/
def State.nearStore (s : State) (n addr v : Nat) (rel : Bool) : State :=
  let c := s.curCore
  let f := s.carried s.cur (epDie s.cur)
  let hit := (s.core c).guarded addr
  let s := s.padStore s.cur c addr n v
  if rel && !hit then s.releaseAt (padKey c addr) n f else s

/-- A release to the own scratchpad waits: accesses in flight stand before it at its scope (R230). -/
def State.relWaits (s : State) (sc : Scope) : Bool :=
  !(s.ownReqs s.cur).isEmpty && (s.keptAt s.cur sc || s.keptAt s.cur .thr)

/-- LD. -/
def execLd (t : IntTy) (sc : Scope) (acq : Bool) (dst : Dst) (a : Src) (off : W32) (s : State) : Out :=
  let ea := s.ea a off
  .next
    (match checkRef s.curCore (reachLoad s.curCore) ea (intBytes t) with
      | .error c => s.raise c ea
      | .ok (.pad x) =>
        let (v, s) := s.nearLoad t acq x
        s.finish dst v 8
      | .ok (.peer ..) => s
      | .ok (.far va) =>
        s.sendPush dst fun s id =>
          s.newReq id (.load t) none va (intBytes t) (scopeOf sc false true false) acq false 0)

/-- The effect of a store instruction at a checked reference (R225, R227, R230). -/
def State.storeAt (s : State) (t : IntTy) (sc : Scope) (rel : Bool) (v : Word) : Ref → State
  | .pad x =>
    if rel && s.relWaits sc then
      let (id, s) := s.fresh
      (s.requestOwn (s.newReq id (.store (intBytes t) v) none x (intBytes t) sc false true 0)).done 8
    else (s.nearStore (intBytes t) x v.toNat rel).done 8
  | .peer c x =>
    s.sendStore fun s id =>
      s.newReq id (.store (intBytes t) v) (some c) x (intBytes t) (scopeOf sc true false false) false rel v
  | .far va =>
    s.sendStore fun s id =>
      s.newReq id (.store (intBytes t) v) none va (intBytes t) (scopeOf sc false true false) false rel v

/-- A datum cut to its type's width. -/
def cut (t : IntTy) (v : Word) : Word := BitVec.ofNat 64 (v.toNat % 2 ^ intBits t)

/-- ST. -/
def execSt (t : IntTy) (sc : Scope) (rel : Bool) (a b : Src) (off : W32) (s : State) : Out :=
  let ea := s.ea a off
  .next
    (match checkRef s.curCore (reachStore s.curCore) ea (intBytes t) with
      | .error c => s.raise c ea
      | .ok r => s.storeAt t sc rel (cut t (s.raw 0 b)) r)

/-- Reserve a nib register alone (R228). Where an earlier LDP names it too, the later value is the one that stays. -/
def State.reserveNib (s : State) (k : Fin 8) : Nat × State :=
  let id := s.ids
  let s := { s with ids := s.ids + 1 }
  (id, s.upd fun t =>
    let j := renamed t.shift k
    { t with pend := mapIf (·.nib == some j) (fun p => { p with nib := none }) t.pend ++ [⟨id, none, some j, false, none, none⟩] })

/-- LDP. -/
def execLdp (t : IntTy) (sc : Scope) (acq : Bool) (k : Fin 8) (a : Src) (off : W32) (s : State) : Out :=
  let ea := s.ea a off
  .next
    (match checkRef s.curCore (reachPeer s.curCore) ea (intBytes t) with
      | .error c => s.raise c ea
      | .ok (.peer c x) =>
        if s.occFull 0 then s
        else
          let (id, s) := s.reserveNib k
          (s.request (s.newReq id (.load t) (some c) x (intBytes t) (scopeOf sc true false false) acq false 0)).done 8
      | .ok _ => s)

/-- STP. -/
def execStp (t : IntTy) (sc : Scope) (rel : Bool) (a b : Src) (off : W32) (s : State) : Out :=
  let ea := s.ea a off
  .next
    (match checkRef s.curCore (reachPeer s.curCore) ea (intBytes t) with
      | .error c => s.raise c ea
      | .ok r => s.storeAt t sc rel (cut t (s.raw 0 b)) r)

/-- LDAQ (R231): a near one loads now, and parks while its condition fails; a far one is in flight until it holds. -/
def execLdaq (t : IntTy) (sc : Scope) (c : Cond) (dst : Dst) (a b : Src) (s : State) : Out :=
  let ea := s.raw 0 a
  let bv := s.raw 0 b
  .next
    (match checkRef s.curCore (reachLoad s.curCore) ea (intBytes t) with
      | .error x => s.raise x ea
      | .ok (.pad x) =>
        let (v, s1) := s.nearLoad t false x
        if condHolds c v bv then (s1.acquireMe (padKey s.curCore x) (intBytes t)).finish dst v 8
        else s1.upd fun t => { t with wait := .reload }
      | .ok (.peer ..) => s
      | .ok (.far va) =>
        if s.occFull 0 then s
        else
          let (id, s) := s.fresh
          (s.request (s.newReq id (.ldaq t c bv dst) none va (intBytes t) (scopeOf sc false true false) true false 0)).upd
            fun t => { t with wait := .ldaq id })

/-- The latest access issued holds its thread until it is done (R232). -/
def State.holdLast (s : State) (before : Nat) : State :=
  if s.ids == before then s
  else
    { s with reqs := mapIf (·.id == before) (fun r => { r with holds := true }) s.reqs }.upd fun t =>
      { t with wait := .op before }

/-- STRL (R232). -/
def execStrl (t : IntTy) (sc : Scope) (a b : Src) (off : W32) (s : State) : Out :=
  let ea := s.ea a off
  .next
    (match checkRef s.curCore (reachStore s.curCore) ea (intBytes t) with
      | .error c => s.raise c ea
      | .ok r => (s.storeAt t sc true (cut t (s.raw 0 b)) r).holdLast s.ids)

/-! ### Atomics (R233-R235) -/


/-- An atomic on the own scratchpad: `f` gives the value to write, if any. In a guard granule it reads zero and writes
nothing (R247). -/
def State.nearAtomic (s : State) (t : IntTy) (o : Ord) (addr : Nat) (f : Nat → Option Nat) : Word × State :=
  let c := s.curCore
  if (s.core c).guarded addr then (0, s.touch s.cur true addr)
  else
    let old := s.mem.readNat (intBytes t) (padKey c addr)
    let s := if (ordAcq o) then s.acquireMe (padKey c addr) (intBytes t) else s
    let s := match f old with
      | none => s
      | some v => s.nearStore (intBytes t) addr v (ordRel o)
    (extend (intBits t) t.signed old, s)

/-- AMO and CAS at a checked reference. A release among them, on the own scratchpad, waits for the accesses in flight that
stand before it; its old value comes when it is performed, and it raises no count (R230). -/
def State.atomicAt (s : State) (t : IntTy) (sc : Scope) (o : Ord) (dst : Dst) (f : Nat → Option Nat) (kind : ReqKind) :
    Ref → State
  | .pad x =>
    if ordRel o && s.relWaits sc then
      let (id, s) := s.reserve dst false
      (s.requestOwn (s.newReq id kind none x (intBytes t) sc (ordAcq o) true 0)).done 8
    else
      let (v, s) := s.nearAtomic t o x f
      s.finish dst v 8
  | .peer c x =>
    s.sendPush dst fun s id =>
      s.newReq id kind (some c) x (intBytes t) (scopeOf sc true false false) (ordAcq o) (ordRel o) 0
  | .far va =>
    s.sendPush dst fun s id =>
      s.newReq id kind none va (intBytes t) (scopeOf sc false true false) (ordAcq o) (ordRel o) 0

/-- AMO. -/
def execAmo (t : IntTy) (sc : Scope) (o : Ord) (op : AmoOp) (dst : Dst) (a b : Src) (s : State) : Out :=
  let ea := s.raw 0 a
  let v := s.raw 0 b
  .next
    (match checkRef s.curCore (reachAtomic s.curCore) ea (intBytes t) with
      | .error c => s.raise c ea
      | .ok r => s.atomicAt t sc o dst (fun old => some (amoFn t op old v.toNat)) (.amo t op v) r)

/-- CAS: w0 holds the expected value. -/
def execCas (t : IntTy) (sc : Scope) (o : Ord) (dst : Dst) (a b : Src) (s : State) : Out :=
  let ea := s.raw 0 a
  let e := cut t s.w0
  let v := cut t (s.raw 0 b)
  .next
    (match checkRef s.curCore (reachAtomic s.curCore) ea (intBytes t) with
      | .error c => s.raise c ea
      | .ok r => s.atomicAt t sc o dst (fun old => if old == e.toNat then some v.toNat else none) (.cas t e v) r)

/-! ### Fences and waits (R236-R241) -/

/-- The fence classes of an access in flight. -/
def ReqKind.classes (k : ReqKind) : Nat := if k.atomic then 3 else if k.writes then 2 else 1

/-- FENCE (R237): the accesses in flight of the predecessor classes hold later operations of the successor classes, at the
fence's scope. A kick, a post or a send takes its place when it issues. (log 10, DEDUCED; log 175, DEDUCED) -/
def execFence (sc : Scope) (pred succ : BitVec 5) (s : State) : Out :=
  let ids := ((s.ownReqs s.cur).filter fun r => r.kind.classes &&& pred.toNat != 0).map (·.id)
  .next
    ((s.upd fun t =>
      { t with fences := t.fences.filter (fun (x, _) => s.reqs.any fun r => x.contains r.id) ++
                 (if ids.isEmpty then [] else [(ids, succ.toNat, sc)]) }).done 8)

/-- The floors of the classes whose falls a wait has observed (R240). -/
def State.observe (s : State) (c : Nat) (thr : BitVec 6) : State :=
  if thr == 63 then s else s.raiseFloor s.cur (nget 0 s.me.occFloor c)

/-- WAITC (R238). -/
def execWaitc (ld st cp tl : BitVec 6) (s : State) : Out :=
  let o := s.me.occ
  .next
    (if o.ld ≤ ld.toNat && o.st ≤ st.toNat && o.cp ≤ cp.toNat && o.tl ≤ tl.toNat then
      ((((s.observe 0 ld).observe 1 st).observe 2 cp).observe 3 tl).done 8
    else s)

/-- WAITCN (R239). -/
def execWaitcn (x : Fin 16) (thr : BitVec 10) (s : State) : Out :=
  let k := s.core s.curCore
  .next (if k.cn[x] ≤ thr then (s.raiseFloor s.cur (nget 0 k.cnFloor x.val)).done 8 else s)

/-! ### Completion counters (R242, R243) -/

/-- The word of R243. -/
def Core.cnWord (k : Core) (x : Fin 16) : Word :=
  BitVec.ofNat 64 (k.cn[x].toNat + if k.uf.getLsbD x.val then 1024 else 0)

/-- CNSET. -/
def execCnset (dst : Dst) (x : Fin 16) (v : BitVec 10) (reg : Option Src) (s : State) : Out :=
  let old := (s.core s.curCore).cnWord x
  let new := match reg with
    | none => v
    | some r => (s.raw 0 r).setWidth 10
  .next
    ((s.updCore s.curCore fun k =>
      { k with cn := k.cn.set x new, uf := k.uf &&& ~~~(BitVec.twoPow 16 x.val) }).finish dst old 8)

/-- CNGET. -/
def execCnget (dst : Dst) (x : Fin 16) (s : State) : Out := .next (s.finish dst ((s.core s.curCore).cnWord x) 8)

/-! ### The heap (R244-R246) -/

/-- The outer start of a new block of `l` bytes (R245): the lowest one that no live block overlaps. -/
def Core.fit (k : Core) (l : Nat) : Option Nat :=
  let base := fld k.heap 0 32
  let size := fld k.heap 32 20
  let free (o : Nat) : Bool :=
    base ≤ o && o + l ≤ base + size && !k.blocks.any (fun (b, m) => b < o + l && o < b + m)
  ((base :: k.blocks.map fun (b, m) => b + m).filter free).foldl
    (fun best o => match best with
      | none => some o
      | some x => some (Nat.min x o)) none

/-- GALLOC. -/
def execGalloc (dst : Dst) (a : Src) (imm : W32) (s : State) : Out :=
  let n := (s.srcOf (imm.setWidth 64) a).toNat
  let k := s.core s.curCore
  let l := 64 * ((n + 63) / 64) + 128
  .next
    (if n == 0 || fld k.heap 32 20 < n + 128 || 64 ≤ k.blocks.length then s.finish dst 0 8
    else match k.fit l with
      | none => s.finish dst 0 8
      | some o =>
        (s.updCore s.curCore fun k => { k with blocks := k.blocks ++ [(o, l)] }).finish dst (BitVec.ofNat 64 (o + 64)) 8)

/-- GFREE: a reference that R222 or R223 refuses is the memory address fault, another address that is no live block's body
the bad-free fault. -/
def execGfree (a : Src) (s : State) : Out :=
  let x := s.raw 0 a
  let k := s.core s.curCore
  .next
    (match checkRef s.curCore (reachHeap s.curCore) x 1 with
      | .error c => s.raise c x
      | .ok _ =>
        if k.blocks.any (fun (o, _) => o + 64 == x.toNat) then
          (s.updCore s.curCore fun k => { k with blocks := k.blocks.filter fun (o, _) => o + 64 != x.toNat }).done 8
        else s.raise 0x0C x)

end Sys2Proof.Machine
end

