-- ==== Sys2Proof/Machine/Engine.lean ====
section
/-!
DEFINITION. Engine far access on a memory core: 64-byte and burst transfers between far memory and its buffer, the mailbox
store and the record read (10_copies_and_handles.md R260-R262).
-/
namespace Sys2Proof.Machine

/-- The check of a reference over `n` bytes with a given alignment: cause, or where it points. -/
def checkSpan (core : Nat) (r : Reach) (ea : Word) (n align : Nat) : Except Nat Ref :=
  match checkRef core r ea align with
  | .error c => .error c
  | .ok (.pad x) => if padSize core < x + n then .error 0x0A else .ok (.pad x)
  | .ok (.peer c x) => if 0x60000 < x + n then .error 0x0A else .ok (.peer c x)
  | .ok (.far va) => .ok (.far va)

def reachFar : Reach := ⟨false, false, true⟩
def reachLocal : Reach := ⟨true, false, false⟩
/-- (log 55, DEDUCED) -/
def reachRecord : Reach := ⟨true, false, true⟩

/-- Both references of a transfer, the first failing one by its cause and value. -/
def checkBoth (core : Nat) (ra rb : Reach) (a b : Word) (n align : Nat) : Except (Nat × Word) (Ref × Ref) :=
  match checkSpan core ra a n align with
  | .error c => .error (c, a)
  | .ok x =>
    match checkSpan core rb b n align with
    | .error c => .error (c, b)
    | .ok y => .ok (x, y)

/-- Put an access in flight that pushes nothing. -/
def State.sendQuiet (s : State) (mk : State → Nat → Req) (cls : Nat) : State :=
  if s.occFull cls then s
  else
    let (id, s) := s.fresh
    (s.request (mk s id)).done 16

/-- The data word of a store's fault message: its first eight bytes (R376). (log 54, DEDUCED) -/
def firstWord (bs : List Byte) : Word := BitVec.ofNat 64 (leNat (bs.take 8))

/-- XLD. -/
def execXld (a b : Src) (sc : Scope) (acq : Bool) (s : State) : Out :=
  .next
    (match checkBoth s.curCore reachFar reachLocal (s.raw 0 a) (s.raw 0 b) 64 64 with
      | .error (c, d) => s.raise c d
      | .ok (.far va, .pad x) =>
        s.sendQuiet (fun s id => s.newReq id (.lineIn x false) none va 64 (scopeOf sc false true false) acq false 0) 0
      | .ok _ => s)

/-- XST. (log 54, DEDUCED) -/
def execXst (a b : Src) (sc : Scope) (rel : Bool) (s : State) : Out :=
  .next
    (match checkBoth s.curCore reachFar reachLocal (s.raw 0 a) (s.raw 0 b) 64 64 with
      | .error (c, d) => s.raise c d
      | .ok (.far va, .pad x) =>
        if s.occFull 1 then s
        else
          let (bs, s) := s.unitRead s.cur s.me.unit.uid s.curCore 16 x
          s.sendQuiet (fun s id =>
            s.newReq id (.lineOut bs) none va 64 (scopeOf sc false true false) false rel (firstWord bs)) 1
      | .ok _ => s)

/-- The far range of a burst lies within one far page (R257). -/
def inPage (va n : Nat) : Bool := va % 4096 + n ≤ 4096

/-- XBURST (R262). (log 56, DEDUCED) -/
def execXburst (a b : Src) (len : BitVec 13) (sc : Scope) (ep : BitVec 18) (remote : Bool) (s : State) : Out :=
  let n := len.toNat
  let sc := scopeOf sc false true false
  let src := s.raw 0 a
  let dst := s.raw 0 b
  .next
    (if remote then
      match checkSpan s.curCore reachFar src n 4, checkSpan (epCore ep.toNat) reachLocal dst n 4 with
      | .error c, _ => s.raise c src
      | _, .error c => s.raise c dst
      | .ok (.far va), .ok (.pad x) =>
        if 0x60000 < x + n then s.raise 0x0A dst
        else if !inPage va n then s.raise 0x0A src
        else s.sendQuiet (fun s id => s.newReq id (.burstRemote ep.toNat x n) none va n sc false false 0) 0
      | _, _ => s
    else
      match checkBoth s.curCore reachRecord reachRecord src dst n 4 with
      | .error (c, d) => s.raise c d
      | .ok (.far va, .pad x) =>
        if !inPage va n then s.raise 0x0A src
        else s.sendQuiet (fun s id => s.newReq id (.burstIn x n) none va n sc false false 0) 0
      | .ok (.pad x, .far va) =>
        if !inPage va n then s.raise 0x0A dst
        else if s.occFull 1 then s
        else
          let (bs, s) := s.unitRead s.cur s.me.unit.uid s.curCore (n / 4) x
          s.sendQuiet (fun s id => s.newReq id (.burstOut bs) none va n sc false false (firstWord bs)) 1
      | .ok _ => s.raise 0x0A dst)

/-- PLANEW (R261): on a memory core it raises the memory address fault. (log 57, DEDUCED) -/
def execPlanew (_a b : Src) (_len : BitVec 7) (s : State) : Out := .next (s.raise 0x0A (s.raw 0 b))

/-- MBOX: a 4-byte release store. (log 54, DEDUCED) -/
def execMbox (a b : Src) (sc : Scope) (s : State) : Out :=
  let ea := s.raw 0 a
  let v := cut .n32 (s.raw 0 b)
  .next
    (match checkRef s.curCore reachRecord ea 4 with
      | .error c => s.raise c ea
      | .ok (.pad x) =>
        if s.relWaits sc then
          let (id, s) := s.fresh
          (s.requestOwn (s.newReq id (.store 4 v) none x 4 sc false true 0)).done 16
        else (s.nearStore 4 x v.toNat true).done 16
      | .ok (.far va) =>
        s.sendQuiet (fun s id => s.newReq id (.store 4 v) none va 4 (scopeOf sc false true false) false true v) 1
      | .ok (.peer ..) => s)

/-- CREC: 64 bytes as an acquire; the record's top word is pushed. A record in the buffer itself is read now.
(log 55, DEDUCED) -/
def execCrec (dst : Dst) (a b : Src) (sc : Scope) (s : State) : Out :=
  .next
    (match checkBoth s.curCore reachRecord reachLocal (s.raw 0 a) (s.raw 0 b) 64 64 with
      | .error (c, d) => s.raise c d
      | .ok (.far va, .pad x) =>
        if s.occFull 0 then s
        else
          let (id, s) := s.reserve dst false
          (s.request (s.newReq id (.lineIn x true) none va 64 (scopeOf sc false true false) true false 0)).done 16
      | .ok (.pad r, .pad x) =>
        let c := s.curCore
        let uid := s.me.unit.uid
        let (bs, s) := s.unitRead s.cur uid c 16 r
        let s := (s.acquireMe (padKey c r) 64).unitWrite s.cur uid c bs x
        s.finish dst (BitVec.ofNat 64 (leNat (bs.drop 56))) 16
      | .ok _ => s)

end Sys2Proof.Machine
end

