-- ==== Sys2Proof/Machine/Launches.lean ====
section
/-!
DEFINITION. What a partition's master does with launches and level records: admission (R294-R299), deadlines and energy
classes (R303, R308), creation and closing of records (R334), cancellation (R47, R299), and the words that instructions
read of them (R332, R336).
-/
namespace Sys2Proof.Machine

/-! ### Words -/

/-- The status word of R332. -/
def statusWord (outcome tag index slot : Nat) : Word :=
  BitVec.ofNat 64 (slot % 64 * 2 ^ 30 + index % 1024 * 2 ^ 20 + tag % 4096 * 2 ^ 8 + outcome)

def RecState.code : RecState → Nat
  | .pending => 0
  | .running => 1
  | .complete => 2
  | .cancelled => 3

/-- The word of R336 of a launch. -/
def Launch.word (l : Launch) : Nat → Word
  | 0 => BitVec.ofNat 64 (l.state.code * 2 ^ 62 + l.errors % 2 ^ 16 * 2 ^ 40 + l.dispatched % 2 ^ 16)
  | 1 => BitVec.ofNat 64 (l.started % 2 ^ 32 * 2 ^ 32 + l.exited % 2 ^ 32)
  | _ => BitVec.ofNat 64 (l.acks % 2 ^ 32)

/-- The sel-0 word of a graph, phase or job. Whether an incomplete one reads pending or running is left open: `b`. -/
def Level.word (g : Level) (b : Bool) : Word :=
  let st := if g.state.final then g.state.code else if b then 1 else 0
  BitVec.ofNat 64 (st * 2 ^ 62 + g.errors % 2 ^ 16 * 2 ^ 40 + (if g.closed then 2 ^ 34 else 0) + g.children % 2 ^ 32)

/-! ### The records of a unit -/

/-- The record at a level that contains a unit of launch `tag` (R335). -/
def State.ownRecord (s : State) (part tag lvl : Nat) : Nat :=
  let g := (s.launch part tag).graph
  let p := (s.level 2 part g).parent
  match lvl with
  | 1 => tag
  | 2 => g
  | 3 => p
  | _ => (s.level 3 part p).parent

/-- A record is in use and of the context (R44, R335). -/
def State.hasRecord (s : State) (part ctx lvl i : Nat) : Bool :=
  if lvl == 1 then i < 4096 && (s.launch part i).inUse && (s.launch part i).ctx == ctx
  else i < 1024 && (s.level lvl part i).inUse && (s.level lvl part i).ctx == ctx

/-- A level that takes no more children (R334): 4. -/
def Level.shut (g : Level) : Bool := g.closed || g.cancelled || g.state.final

/-- The graph, its phase or its job is cancelled or complete (R295). -/
def State.deadLevel (s : State) (part graph : Nat) : Bool :=
  let g := s.level 2 part graph
  let p := s.level 3 part g.parent
  let j := s.level 4 part p.parent
  let dead (x : Level) : Bool := x.cancelled || x.state.final
  dead g || dead p || dead j

/-! ### Admission -/

/-- The far address of a launch's handler entry: the handler table lies within its code image and holds the entry, and the
image is named by a far reference (R308). -/
def imgEntry (im : List Word) : Option Nat :=
  let ilen := fld (im.getD 5 0) 32 20
  let base := fld (im.getD 5 0) 0 32
  let htab := fld (im.getD 6 0) 0 32
  let last := fld (im.getD 6 0) 32 12
  let ref := im.getD 8 0
  if ilen == 0 || htab < base || base + ilen < htab + 8 * (last + 1) || last < imgHandler im || !ref.getLsbD 63 ||
      fld ref 57 6 != 0 then none
  else some (fld ref 0 57 + (htab - base) + 8 * imgHandler im)

/-- The number that a master's reading of an image waits for walks under. -/
def masterWalk (part : Nat) : Nat := 2 ^ 42 + part

/-- R308: the energy class of a launch's units, read once from its code image; 0 where it holds no such entry or the read
fails; none while the read has to wait. -/
def State.classOfImage (s : State) (part ctx : Nat) (im : List Word) : Option Nat × State :=
  match imgEntry im with
  | none => (some 0, s)
  | some va =>
    match s.farRead (masterWalk part) ctx va 8 (s.walkerDie (s.masterOf part) part) with
    | (.ok bs, s) => (some (leNat bs / 2 ^ 32 % 8), s)
    | (.failed _, s) => (some 0, s)
    | (.waits, s) => (none, s)

/-- R303: the deadline fixed at admission. -/
def State.deadlineOf (s : State) (part : Nat) (sched : Word) : Nat :=
  let now := s.ctime (s.masterOf part) / 16 % 2 ^ 48
  if sched.getLsbD 63 then
    let d := fld sched 0 48
    if 2 ^ 47 ≤ (d + 2 ^ 48 - now) % 2 ^ 48 then now else d
  else (now + 1000 * (s.schedOf part).horizon) % 2 ^ 48

/-- How an admission ends: no record is free, the master has to wait for its read of the image, or a launch is admitted under
a tag. -/
inductive Admitted where
  | full
  | waits (s : State)
  | launch (tag : Nat) (s : State)
  deriving DecidableEq, Repr

/-- Admit a launch into its graph, with a fresh record (R294): its units' dispatch carries the master's floor of this instant
(R215, R220). -/
def State.admitLaunch (s : State) (part ctx graph : Nat) (slot : Option Nat) (im : List Word) (page : Option Nat) :
    Admitted :=
  match s.takeIndex 1 part with
  | none => .full
  | some (tag, s1) =>
    match s1.classOfImage part ctx im with
    | (none, _) => .waits (s.classOfImage part ctx im).2
    | (some ec, s) =>
      let m := s.masterOf part
      let l : Launch :=
        { inUse := true, ctx := ctx, graph := graph, slot := slot, image := im, pool := true, seq := s.admSeq,
          deadline := s.deadlineOf part (im.getD 3 0), eclass := ec, page := page, start := s.carried (distributorSrc m) m }
      let s := { s with admSeq := s.admSeq + 1 }.setLaunch part tag l
      let s := match slot with
        | none => s
        | some i => s.updLevel 2 part graph fun g => { g with slots := nset g.slots i (.running tag) }
      .launch tag (s.emitMaster part ctx 0x083 tag)

/-- No admission is possible now: an election runs, or no pair is left (R315, R316). -/
def State.electing (s : State) (part : Nat) : Bool :=
  (nfind s.elections part).isSome || (partPairs s.parts part).all fun p => (s.pair p).fenced

/-- What a request for admission comes to: its outcome code (R295, R332), tag and graph, and the slot that it names. -/
structure Request where
  outcome : Nat
  tag : Nat := 0
  graph : Nat := 0
  slot : Nat := 0
  /-- the master has no answer yet: it waits for its read of the image (R308) -/
  waits : Bool := false
  deriving DecidableEq, Repr

/-- The status word of a request: the slot stands in it for outcomes 0 and 1 (R332). -/
def Request.word (q : Request) : Word := statusWord q.outcome q.tag q.graph (if q.outcome ≤ 1 then q.slot else 0)

/-- The graph that an image names: its own, or the launching unit's (R329); none for a detached unit.
(log 39, DEDUCED) -/
def targetGraph (im : List Word) (own : Option Nat) : Option Nat := if imgNamed im then some (imgGraph im) else own

/-- One child more in a graph. -/
def State.addChild (s : State) (part g : Nat) : State :=
  s.updLevel 2 part g fun g => { g with children := g.children + 1 }

/-- What becomes of a launch in graph `g` before a record is looked for (R295, R297, R330, R332, R334): refused, held in its
slot, or none of these. -/
def State.screenLaunch (s : State) (part ctx g : Nat) (im : List Word) (page : Option Nat) : Option (Request × State) :=
  let slot := imgSlot im
  let q : Request := { outcome := 0, graph := g, slot := if imgNamed im then slot else 0 }
  let G := s.level 2 part g
  if !s.hasRecord part ctx 2 g then some ({ q with outcome := 8 }, s)
  else if G.closed || s.deadLevel part g then some ({ q with outcome := 4 }, s)
  else if imgNamed im && (!(nget Slot.empty G.slots slot).isEmpty || 2 ^ slot ≤ (imgPred im).toNat) then
    some ({ q with outcome := 7 }, s)
  else if imgNamed im && !(edgesMet G (imgPred im) && s.phaseReady part g) then
    some ({ q with outcome := 1 },
      (s.updLevel 2 part g fun g => { g with slots := nset g.slots slot (.held im (imgPred im) page) }).addChild part g)
  else none

/-- Take a record for a launch that nothing refuses and nothing holds (R294): outcome 0, or 2 and nothing is changed. -/
def State.takeLaunch (s : State) (part ctx g : Nat) (im : List Word) (page : Option Nat) : Request × State :=
  let q : Request := { outcome := 0, graph := g, slot := if imgNamed im then imgSlot im else 0 }
  match s.admitLaunch part ctx g (if imgNamed im then some (imgSlot im) else none) im page with
  | .full => ({ q with outcome := 2 }, s)
  | .waits s => ({ q with outcome := 2, waits := true }, s)
  | .launch tag s => ({ q with tag := tag }, s.addChild part g)

/-- A request for admission of a context: `own` is the launching unit's graph. During an election every request comes to
outcome 2 (R316). Outcome 2 leaves nothing behind. (log 38, DEDUCED) -/
def State.requestLaunch (s : State) (part ctx : Nat) (own : Option Nat) (im : List Word) (page : Option Nat) :
    Request × State :=
  if s.electing part then ({ outcome := 2, graph := (targetGraph im own).getD 0 }, s)
  else if !imageOk im then ({ outcome := 6, graph := (targetGraph im own).getD 0 }, s)
  else
    match targetGraph im own with
    | none => ({ outcome := 8 }, s)
    | some g =>
      match s.screenLaunch part ctx g im page with
      | some r => r
      | none =>
        if !(nget [] s.adm part).isEmpty || !s.phaseReady part g then ({ outcome := 2, graph := g }, s)
        else s.takeLaunch part ctx g im page

/-- A request reaches the master with the floor of its sender (R220, R333). -/
def State.toldMaster (s : State) (part floor : Nat) : State := s.raiseFloor (distributorSrc (s.masterOf part)) floor

/-- The master is stalled on a held slate (R286). -/
def State.masterHeld (s : State) (part : Nat) : Bool := s.isHeld (distributorSrc (s.masterOf part))

/-! ### Parked requests -/

/-- Answer a unit parked on LAUNCH.w: it resumes on a free thread of its core, or waits there (R296). -/
def State.answerParked (s : State) (core req : Nat) (w : Word) : State :=
  (s.updCore core fun k =>
    { k with park := mapIf (·.req == some req) (fun p => { p with req := none, answer := w }) k.park }).takeUp core 1

/-- The head of the admission queue is admitted, if a record is free (R294); a parked request that its graph no longer takes
is answered so. (log 40, DEDUCED) -/
def State.admitHead (s : State) (part : Nat) : State :=
  if s.electing part || s.masterHeld part then s
  else
    match nget [] s.adm part with
    | [] => s
    | .edge ctx graph slot im page :: rest =>
      match s.admitLaunch part ctx graph (some slot) im page with
      | .full => s
      | .waits s => s
      | .launch _ s => { s with adm := nset s.adm part rest }
    | .parked req core _ _ ctx graph im :: rest =>
      let drop (s : State) : State := { s with adm := nset s.adm part rest }
      if !imageOk im then (drop s).answerParked core req (statusWord 6 0 graph 0)
      else
        match s.screenLaunch part ctx graph im none with
        | some (q, s) => (drop s).answerParked core req q.word
        | none =>
          if !s.phaseReady part graph then s
          else
            let (q, s) := s.takeLaunch part ctx graph im none
            if q.outcome == 2 then s else (drop s).answerParked core req q.word

/-! ### Creating and closing records (R334) -/

/-- A new open record of level `lvl` under `parent` of level `lvl + 1`; outcome and index. -/
def State.createLevel (s : State) (part ctx lvl parent : Nat) : Nat × Nat × State :=
  if !s.hasRecord part ctx (lvl + 1) parent then (8, 0, s)
  else
    let up := s.level (lvl + 1) part parent
    let j := s.level 4 part up.parent
    if up.shut || (lvl == 2 && (j.cancelled || j.state.final)) then (4, 0, s)
    else
      match s.takeIndex lvl part with
      | none => (2, 0, s)
      | some (i, s) =>
        let s := s.updLevel lvl part i fun _ => { inUse := true, ctx := ctx, parent := parent, seq := s.admSeq }
        let s := { s with admSeq := s.admSeq + 1 }
        (0, i, s.updLevel (lvl + 1) part parent fun g => { g with children := g.children + 1 })

/-- Close a record; one that is closed already stays as it is. -/
def State.closeLevel (s : State) (part ctx lvl i : Nat) : Nat × State :=
  if !s.hasRecord part ctx lvl i then (8, s)
  else if (s.level lvl part i).closed then (0, s)
  else
    let s := s.updLevel lvl part i fun g => { g with closed := true }
    let up := (s.level lvl part i).parent
    let s := match lvl with
      | 2 => (s.promoteAll part).settleGraph part i
      | 3 => ((s.settleLevel 3 part i).settleLevel 4 part up).promoteAll part
      | _ => s.settleLevel 4 part i
    (0, s)

/-! ### Cancelling (R47, R299) -/

/-- Pin the first unit whose count stands at 64 (R308); slate 0x181. -/
def State.pinNext (s : State) (part pair : Nat) : State :=
  let p := s.pair pair
  match p.pinned, p.skips.find? fun (_, _, n) => n == 64 with
  | none, some (t, i, _) =>
    (s.updPair pair fun p => { p with pinned := some (t, i) }).emit (distributorSrc pair) pair (s.launch part t).ctx 0x181 t
  | _, _ => s

def State.pinAll (s : State) (part : Nat) : List Nat → State
  | [] => s
  | p :: ps => State.pinAll (if (s.pair p).fenced then s else s.pinNext part p) part ps

/-- R47: every core of a partition discards the cancelled units at the head of its spill queue. -/
def State.skimAll (s : State) : List Nat → State
  | [] => s
  | c :: cs => State.skimAll ((s.skimSpill c (s.core c).spilled.length).unbindIfIdle c) cs

/-- The cores of a partition that hold spilled messages. -/
def State.spillCores (s : State) (part : Nat) : List Nat :=
  s.cores.filterMap fun (c, k) => if s.partOf c == part && !k.spilled.isEmpty then some c else none

/-- Cancel one launch: its undispatched indices are dropped and its pool entry is free (R47, R299); a pin of it ends (R308). -/
def State.cancelLaunch (s : State) (part tag : Nat) : State :=
  let s := s.updLaunch part tag fun l =>
    { l with cancelled := true, pool := false, next := imgUnits l.image, back := [], reissue := [] }
  let drop (p : Pair) : Pair :=
    { p with batches := p.batches.filter (·.tag != tag), snap := p.snap.filter (fun (t, _) => t != tag),
             skips := p.skips.filter (fun (t, _, _) => t != tag),
             pinned := p.pinned.filter (fun (t, _) => t != tag) }
  let s := { s with pairs := s.pairs.map fun (k, p) => if pairPart s.parts k == part then (k, drop p) else (k, p) }
  let s := s.pinAll part (partPairs s.parts part)
  (s.skimAll (s.spillCores part)).settleLaunch part tag

def State.cancelLaunches (s : State) (part graph : Nat) : List Nat → State
  | [] => s
  | tag :: r =>
    let l := s.launch part tag
    State.cancelLaunches
      (if l.inUse && l.graph == graph && !l.state.final then s.cancelLaunch part tag else s) part graph r

/-- Held and queued slots complete, as cancelled, without admission. -/
def State.cancelSlots (s : State) (part graph : Nat) : NMap Slot → State
  | [] => s
  | (i, x) :: r =>
    let s := match x with
      | .held .. | .queued _ =>
        s.updLevel 2 part graph fun g => { g with slots := nset g.slots i .complete, children := g.children - 1 }
      | _ => s
    State.cancelSlots s part graph r

/-- The graph of an entry of the admission queue. -/
def Adm.graph : Adm → Nat
  | .parked _ _ _ _ _ g _ => g
  | .edge _ g .. => g

def State.answerAll (s : State) (w : Nat → Word) : List Adm → State
  | [] => s
  | .parked req core _ _ _ g _ :: r => State.answerAll (s.answerParked core req (w g)) w r
  | .edge .. :: r => State.answerAll s w r

def State.levelIndices (s : State) (lvl part : Nat) : List Nat :=
  (s.levels.map (·.1)).filterMap fun k => if k / 1024 == lvl * 8 + part then some (k % 1024) else none

def State.cancelGraph (s : State) (part i : Nat) : State :=
  let s := s.updLevel 2 part i fun g => { g with cancelled := true }
  let q := nget [] s.adm part
  let s := { s with adm := nset s.adm part (q.filter (·.graph != i)) }
  let s := s.cancelSlots part i (s.level 2 part i).slots
  let s := s.cancelLaunches part i (s.launchTags part)
  let s := s.answerAll (fun g => statusWord 4 0 g 0) (q.filter (·.graph == i))
  s.settleGraph part i

def State.cancelGraphs (s : State) (part phase : Nat) : List Nat → State
  | [] => s
  | i :: r =>
    let g := s.level 2 part i
    State.cancelGraphs (if g.inUse && g.parent == phase && !g.state.final then s.cancelGraph part i else s) part phase r

def State.cancelPhase (s : State) (part i : Nat) : State :=
  let s := s.updLevel 3 part i fun g => { g with cancelled := true }
  let s := s.cancelGraphs part i (s.levelIndices 2 part)
  ((s.settleLevel 3 part i).settleLevel 4 part (s.level 3 part i).parent).promoteAll part

def State.cancelPhases (s : State) (part job : Nat) : List Nat → State
  | [] => s
  | i :: r =>
    let g := s.level 3 part i
    State.cancelPhases (if g.inUse && g.parent == job && !g.state.final then s.cancelPhase part i else s) part job r

def State.cancelJob (s : State) (part i : Nat) : State :=
  let s := s.updLevel 4 part i fun g => { g with cancelled := true }
  (s.cancelPhases part i (s.levelIndices 3 part)).settleLevel 4 part i

/-- CANCEL of a record in use that is not complete; slate 0x085. -/
def State.cancelRecord (s : State) (part ctx lvl i : Nat) : State :=
  let m := s.masterOf part
  let s := match lvl with
    | 1 => s.cancelLaunch part i
    | 2 => s.cancelGraph part i
    | 3 => s.cancelPhase part i
    | _ => s.cancelJob part i
  s.emitExt (distributorSrc m) m ctx 0x085 lvl (BitVec.ofNat 64 i) 0

/-- Whether a record is complete already. -/
def State.recordFinal (s : State) (part lvl i : Nat) : Bool :=
  if lvl == 1 then (s.launch part i).state.final else (s.level lvl part i).state.final

/-- The floor of its completion. (log 46, DEDUCED) -/
def State.recordFloor (s : State) (part lvl i : Nat) : Nat :=
  if lvl == 1 then (s.launch part i).floor else (s.level lvl part i).floor

/-- The sel-0 word; the open bit of an incomplete graph, phase or job is drawn afresh. (log 36, DEDUCED) -/
def State.recordWord (s : State) (part lvl i : Nat) : Word × State :=
  if lvl == 1 then ((s.launch part i).word 0, s)
  else
    let (w, s) := s.freeValue
    ((s.level lvl part i).word (w.getLsbD 0), s)

end Sys2Proof.Machine
end

