-- ==== Sys2Proof/Machine/Messages.lean ====
section
/-!
DEFINITION. Message, launch and gang instructions (15_launch_message_instructions.md R319-R341; R48-R51), but for EXIT.
-/
namespace Sys2Proof.Machine

/-! ### Sending (R320-R325, R328) -/

/-- R8, R27: a destination that the acting thread's partition may name. -/
def State.destOk (s : State) (d : Nat) : Bool := validEp d && (isService d || s.partOf (epCore d) == s.myPart)

/-- R391, R431: a thread, not a service core, of a partition. -/
def State.threadOf (s : State) (part e : Nat) : Bool := (isSmall e || isMemCore e) && s.partOf (epCore e) == part

/-- R322: the send buffer of the acting core is full. -/
def State.bufferFull (s : State) : Bool := 16 ≤ (s.msgs.filter (·.buffer == some s.curCore)).length

def Regs.mains (r : Regs) (base : Fin 32) (n : Nat) : List Word := (List.range n).map fun i => r.g.toArray.getD (base.val + i) 0

/-! Stage records (R343, R348). -/
def stageKey (part n : Nat) : Nat := part * 64 + n
def State.stage (s : State) (part n : Nat) : Stage := nget {} s.stages (stageKey part n)
def State.setStage (s : State) (part n : Nat) (g : Stage) : State := { s with stages := nset s.stages (stageKey part n) g }

def Stage.inst (g : Stage) (ep : Nat) : Inst := nget {} g.insts ep
def Stage.setInst (g : Stage) (ep : Nat) (x : Inst) : Stage := { g with insts := nset g.insts ep x }

/-- The instance whose queue entry the acting unit runs (R344). -/
def State.myInst (s : State) : Nat := s.me.entryOf.getD s.cur

/-- A class-2 message of a split or merge routine to its partner is one state message more (R351, R354). -/
def State.countState (s : State) (d cls : Nat) : State :=
  let bump (n : Nat) (partner : Stage → Nat) : State :=
    let g := s.stage s.myPart n
    let e := s.myInst
    if cls == 2 && d == partner g then s.setStage s.myPart n (g.setInst e { g.inst e with sent := (g.inst e).sent + 1 })
    else s
  match s.me.routine with
  | .none | .state _ => s
  | .split n => bump n (·.clone)
  | .merge n => bump n (·.orig)

/-- R321: the message of a unit enters the send buffer, and its launch's started count rises. -/
def State.sendMsg (s : State) (d handler cls : Nat) (payload : List Word) (ack : Option (Nat × Nat × Nat × Bool)) : State :=
  let u := s.me.unit
  let h := mkHdr handler s.myCtx s.cur u.launch cls payload.length u.det
  let s := (if isService d then s else s.countStart s.myPart u.launch u.det).countState d cls
  s.post { hdr := h, dest := d, payload := payload, src := s.cur, buffer := some s.curCore,
           floor := s.carried s.cur (epDie s.cur), ack := ack }

/-- SEND. -/
def execSend (dest : Src) (handler : BitVec 12) (words : BitVec 3) (gbase : Fin 32) (sys : Bool) (s : State) : Out :=
  let d := fld (s.raw 0 dest) 0 18
  .next
    (if !s.destOk d then s.raise 0x05 (BitVec.ofNat 64 d)
    else if s.bufferFull then s
    else
      (s.sendMsg d handler.toNat (if sys then 2 else 0) (s.me.regs.mains gbase words.toNat) none).done 8)

/-- The valid connection of a local context to a remote node (R462). -/
def State.connectionTo (s : State) (lctx node : Nat) : Option Nat :=
  (List.range 4096).find? fun i =>
    let w := (s.tableEntry 3 0 i).1
    w.getLsbD 63 && fld w 0 12 == lctx && fld w 32 16 == node

/-- R325: a remote message that finds no connection, or is refused: counts fall, the launch counts an error, and the
sender's pager is told. -/
def State.undeliverable (s : State) (ep uid launch : Nat) (det : Bool) (ctx dest node : Nat) (conn : Option Nat) : State :=
  let part := s.partOf (epCore ep)
  let s := (s.occDown ep uid 1 0).countError part launch det
  let (die, src, stamped) := match conn with
    | none => (epDie ep, niSrc (epDie ep), coreEp (epCore ep) 0)
    | some c => (s.connDie c, scallinkSrc (s.connDie c), scallinkSrc (s.connDie c))
  let s := s.faultMsg ctx die src stamped
    { cause := 0x25, issuer := ep, launch := launch, g2 := BitVec.ofNat 64 dest, g3 := BitVec.ofNat 64 node }
  s.dropAck part launch det

/-- A remote SENDX: a frame of the connection, counted until Scallink reports acceptance. -/
def State.sendRemote (s : State) (d handler cls node : Nat) (payload : List Word) : State :=
  let u := s.me.unit
  let s := (s.occUp 1).countAck s.myPart u.launch u.det
  match s.connectionTo s.myCtx node with
  | none => s.undeliverable s.cur u.uid u.launch u.det s.myCtx d node none
  | some c =>
    let w := (s.tableEntry 3 0 c).1
    let h := mkHdr handler (fld w 48 12) s.cur u.launch cls payload.length false
    if w.getLsbD 62 then s.undeliverable s.cur u.uid u.launch u.det s.myCtx d node (some c)
    else
      let (id, s) := s.fresh
      let r : Req := { s.newReq id (.store 0 0) none (2 ^ 57 + d) 0 .sys false true (BitVec.ofNat 64 node) with sent := true }
      let s := { s with reqs := s.reqs ++ [r] }
      let s := match s.meteredSlots s.myCtx, s.framePort c with
        | some _, some port =>
          let x : Beats := { id := id, ctx := s.myCtx, port := port, left := 1 + (payload.length * 8 + 63) / 64 }
          { s with beats := s.beats ++ [x] }
        | _, _ => s
      s.sendFrame c s.myCtx h d 0 payload true (some id)

/-- SENDX. (log 113, DEDUCED) -/
def execSendx (a : Src) (off : W32) (dest : BitVec 18) (handler : BitVec 12) (words : BitVec 3) (sys : Bool)
    (node : BitVec 16) (ack : Bool) (s : State) : Out :=
  let ea := s.ea a off
  let n := words.toNat
  let d := dest.toNat
  let cls := if sys then 2 else 0
  let here := node == 0xFFFF || node.toNat == s.nodeNumber
  .next
    (match checkSpan s.curCore reachLocal ea (8 * n) 8 with
      | .error c => s.raise c ea
      | .ok (.pad x) =>
        if 0x60000 < x + 8 * n then s.raise 0x0A ea
        else if here && !s.destOk d then s.raise 0x05 (BitVec.ofNat 64 d)
        else if (here && s.bufferFull) || ((!here || ack) && s.occFull 1) ||
            (!here && (s.connectionTo s.myCtx node.toNat).any s.connFull) then s
        else
          let (ws, s) := s.padReads s.cur n x
          if here then
            let u := s.me.unit
            if ack then
              (((s.occUp 1).countAck s.myPart u.launch u.det).sendMsg d handler.toNat cls ws
                (some (s.cur, u.uid, u.launch, u.det))).done 16
            else (s.sendMsg d handler.toNat cls ws none).done 16
          else (s.sendRemote d handler.toNat cls node.toNat ws).done 16
      | .ok _ => s)

/-- WAKE: a control message that starts no unit. -/
def execWake (a : Src) (s : State) : Out :=
  let d := fld (s.raw 0 a) 0 18
  .next
    (if !s.destOk d then s.raise 0x05 (BitVec.ofNat 64 d)
    else if s.bufferFull then s
    else
      (s.post { kind := .wake, hdr := mkHdr 0 s.myCtx s.cur s.me.unit.launch 2 0 false, dest := d, src := s.cur,
                buffer := some s.curCore, floor := s.carried s.cur (epDie s.cur) }).done 8)

/-! ### Leaving the rotation (R327, R328) -/

/-- A thread that could issue. -/
def Thread.ready (t : Thread) : Bool := t.busy && t.wait == .none && t.trapPend.isNone

/-- YIELD. A gang follower takes its leader's wait. -/
def execYield (c : BitVec 16) (s : State) : Out :=
  let core := s.curCore
  let owed := (List.range 8).filter fun t => coreEp core t != s.cur && (s.thr (coreEp core t)).ready
  .next
    (if s.me.follows then s.done 8
    else
      (s.done 8).upd fun t =>
        { t with wait := .yield (s.now + c.toNat * coreCycle core) (if c == 0 then owed else []) c.toNat })

/-- YIELD_RETURN (R327). -/
def execYieldReturn (ep : Nat) (s : State) : Out :=
  .next
    (match (s.thr ep).wait with
      | .yield till owed c =>
        if (c != 0 && till ≤ s.now) || (c == 0 && owed.all fun t => !(s.thr (coreEp (epCore ep) t)).ready) then
          s.updThr ep fun t => { t with wait := .none }
        else s
      | _ => s)

/-- The push of a PARK, with what it reads from the wakes (class 4 of the floors carried by completions). -/
def State.endPark (s : State) (ep : Nat) (d : Dst) (v : Word) : State :=
  let s := if v == 0 then s.raiseFloor ep (nget 0 (s.thr ep).occFloor 4) else s
  s.updThr ep fun t => ({ t with wait := .none, wake := if v == 0 then false else t.wake }.result d v).advance 8

/-- PARK; its timeout counts cycles of 1.7 GHz on every engine (R4). -/
def execPark (dst : Dst) (c : W32) (s : State) : Out :=
  .next
    (if s.me.gang.isSome then s.raise 0x31 0
    else if s.me.wake then s.endPark s.cur dst 0
    else
      s.upd fun t =>
        { t with wait := .park dst (if c == 0 then none else some (s.now + c.toNat * Config.arithCycle)) })

/-- PARK_TIMEOUT (R328). -/
def execParkTimeout (ep : Nat) (s : State) : Out :=
  .next
    (match (s.thr ep).wait with
      | .park d (some t) => if t ≤ s.now then s.endPark ep d 1 else s
      | _ => s)

/-! ### Launches (R329-R333, R296) -/

/-- The launching unit's own graph. (log 39, DEDUCED) -/
def State.ownGraph (s : State) : Option Nat :=
  if s.me.unit.det then none else some (s.launch s.myPart s.me.unit.launch).graph

/-- R333: the address of a launch image. -/
def imageRef (core : Nat) (ea : Word) : Except Nat Nat :=
  match checkSpan core reachLocal ea 128 64 with
  | .error c => .error c
  | .ok (.pad x) => if 0x5FF80 < x then .error 0x0A else .ok x
  | .ok _ => .error 0x0A

/-- The acting thread asks its master for a launch, with its floor (R333). -/
def State.askLaunch (s : State) (im : List Word) : Request × State :=
  (s.toldMaster s.myPart (s.carried s.cur (epDie s.cur))).requestLaunch s.myPart s.myCtx s.ownGraph im none

/-- LAUNCH: the master answers in the same step; one that is stalled, or reads the image yet, answers later. -/
def execLaunch (dst : Dst) (a : Src) (s : State) : Out :=
  let ea := s.raw 0 a
  .next
    (match imageRef s.curCore ea with
      | .error c => s.raise c ea
      | .ok x =>
        if s.masterHeld s.myPart then s
        else
          let (im, s1) := s.padReads s.cur 16 x
          let (q, s1) := s1.askLaunch im
          if q.waits then (s.askLaunch im).2 else s1.finish dst q.word 8)

/-- Launches of a partition with a unit parked on LAUNCH.w (R296); a detached unit belongs to none (R475). -/
def parkedLaunches : List Adm → List Nat
  | [] => []
  | .parked _ _ _ (some l) _ _ _ :: r => let ls := parkedLaunches r; if ls.contains l then ls else l :: ls
  | .parked _ _ _ none _ _ _ :: r => parkedLaunches r
  | .edge .. :: r => parkedLaunches r

/-- The launch that the acting unit belongs to (R475). -/
def State.ownLaunch (s : State) : Option Nat := if s.me.unit.det then none else some s.me.unit.launch

/-- R296: a request that finds no entry or no record parks its unit: a slot of the park store is free, and its launch counts
among the parked ones or they are few enough. -/
def State.mayPark (s : State) : Bool :=
  let ls := parkedLaunches (nget [] s.adm s.myPart)
  (s.core s.curCore).park.length < 8 && (s.ownLaunch.any ls.contains || ls.length < 4032)

/-- R296: the acting unit leaves its thread for a slot of the park store. The thread of an instance stays its instance's
(R344). Its lease and its direct source go with it into the slot and stand again when it resumes: DEDUCED, log 162. -/
def State.parkUnit (s : State) (dst : Dst) (graph : Nat) (im : List Word) : State :=
  let (id, s) := s.fresh
  let core := s.curCore
  let p : ParkSlot :=
    { th := s.me, ep := s.cur, floor := s.floor s.cur, dst := dst, req := some id, answer := 0 }
  let part := s.myPart
  let e := Adm.parked id core s.me.unit.uid s.ownLaunch s.myCtx graph im
  let s := (s.upd fun t => { inst := t.inst, regs := t.regs, cause := t.cause, epc := t.epc }).updCore core fun k =>
    { k with park := k.park ++ [p] }
  { s with adm := nset s.adm part (nget [] s.adm part ++ [e]) }.settleCore core

/-- LAUNCH.w. -/
def execLaunchW (dst : Dst) (a : Src) (s : State) : Out :=
  let ea := s.raw 0 a
  .next
    (if s.me.gang.isSome then s.raise 0x31 0
    else match imageRef s.curCore ea with
      | .error c => s.raise c ea
      | .ok x =>
        if s.masterHeld s.myPart then s
        else
          let (im, s1) := s.padReads s.cur 16 x
          let (q, s1) := s1.askLaunch im
          if q.waits then (s.askLaunch im).2
          else if q.outcome != 2 then s1.finish dst q.word 8
          else if s1.mayPark then s1.parkUnit dst q.graph im
          else s1.finish dst { q with outcome := 3 }.word 8)

/-! ### Level records (R334-R336) -/

def State.createHere (s : State) (lvl : Nat) (dst : Dst) (a : Src) : State :=
  let (o, i, s) := s.createLevel s.myPart s.myCtx lvl (s.raw 0 a).toNat
  s.finish dst (statusWord o 0 i 0) 8

def State.closeHere (s : State) (lvl : Nat) (dst : Dst) (a : Src) : State :=
  let (o, s) := s.closeLevel s.myPart s.myCtx lvl (s.raw 0 a).toNat
  s.finish dst (statusWord o 0 0 0) 8

/-- GRAPH, op 0. -/
def execGraphCreate (dst : Dst) (a : Src) (s : State) : Out := .next (s.createHere 2 dst a)
/-- GRAPH, op 1. -/
def execGraphClose (dst : Dst) (a : Src) (s : State) : Out := .next (s.closeHere 2 dst a)
/-- PHASE, op 0. -/
def execPhaseCreate (dst : Dst) (a : Src) (s : State) : Out := .next (s.createHere 3 dst a)
/-- PHASE, op 1. -/
def execPhaseClose (dst : Dst) (a : Src) (s : State) : Out := .next (s.closeHere 3 dst a)
/-- PHASE, op 2: the job. -/
def execJobClose (dst : Dst) (a : Src) (s : State) : Out := .next (s.closeHere 4 dst a)

/-- The record that CANCEL, LVWAIT and LVREAD name: its index, or none where it is refused (R335). -/
def State.namedRecord (s : State) (lvl : Nat) (rec_ : Option Src) : Option Nat :=
  if lvl < 1 || 4 < lvl then none
  else
    match rec_ with
    | some a =>
      let i := (s.raw 0 a).toNat
      if s.hasRecord s.myPart s.myCtx lvl i then some i else none
    | none => if s.me.unit.det then none else some (s.ownRecord s.myPart s.me.unit.launch lvl)

/-- CANCEL. -/
def execCancel (dst : Dst) (level : BitVec 3) (record : Option Src) (s : State) : Out :=
  let lvl := level.toNat
  .next
    (match s.namedRecord lvl record with
      | none => s.finish dst (statusWord (if lvl < 1 || 4 < lvl then 5 else 8) 0 0 0) 8
      | some i =>
        if s.recordFinal s.myPart lvl i then s.finish dst (statusWord 9 0 0 0) 8
        else (s.cancelRecord s.myPart s.myCtx lvl i).finish dst (statusWord 0 0 0 0) 8)

/-- The record contains the issuing unit. -/
def State.containsMe (s : State) (lvl i : Nat) : Bool :=
  !s.me.unit.det && s.ownRecord s.myPart s.me.unit.launch lvl == i

/-- LVWAIT: it tests again until the record is complete. (log 46, DEDUCED) -/
def execLvwait (dst : Dst) (level : BitVec 3) (record : Option Src) (s : State) : Out :=
  let lvl := level.toNat
  .next
    (if s.me.gang.isSome then s.raise 0x31 0
    else match s.namedRecord lvl record with
      | none => s.finish dst (BitVec.allOnes 64) 8
      | some i =>
        if s.containsMe lvl i then s.finish dst (BitVec.allOnes 64) 8
        else if s.recordFinal s.myPart lvl i then
          let s := s.raiseFloor s.cur (s.recordFloor s.myPart lvl i)
          let (w, s) := s.recordWord s.myPart lvl i
          s.finish dst w 8
        else s)

/-- LVREAD. -/
def execLvread (dst : Dst) (level : BitVec 3) (sel : BitVec 2) (record : Option Src) (s : State) : Out :=
  let lvl := level.toNat
  .next
    (match s.namedRecord lvl record with
      | none => s.finish dst (BitVec.allOnes 64) 8
      | some i =>
        if sel == 3 || (sel != 0 && lvl != 1) then s.finish dst (BitVec.allOnes 64) 8
        else if sel == 0 then
          let (w, s) := s.recordWord s.myPart lvl i
          s.finish dst w 8
        else s.finish dst ((s.launch s.myPart i).word sel.toNat) 8)

/-! ### Gangs (R48-R51, R337-R339) -/

/-- A checkpoint of a thread as it stands, with its undo entries discarded (R433). -/
def State.takeCkpt (s : State) (ep : Nat) (team : Team) : State :=
  let s := s.updCore (epCore ep) fun k => { k with undo := k.undo.filter (·.thread != epThread ep) }
  s.updThr ep fun t => { t with team := team, ovf := false, ckpt := some ⟨t.regs, t.gang, t.rep, t.shift⟩ }

/-- (log 27, DEDUCED) -/
def State.takeCkpts (s : State) (team : Team) : List Nat → State
  | [] => s
  | m :: ms => State.takeCkpts (s.takeCkpt m team) team ms

/-- A follower joins its leader's gang (R49). -/
def State.joinGang (s : State) (g : Gang) (lead m : Nat) : State :=
  let t := s.thr lead
  let floor := s.carried lead (epDie lead)
  let g1 := t.regs.g[1]
  let s := s.setThr m
    { regs := { g := t.regs.g, pc := t.regs.pc, rng := rngSeed m g1 }, busy := true, unit := t.unit,
      rep := t.rep, shift := t.shift, gang := some { g with pos := corePos (epCore m) }, leaseCmds := t.leaseCmds,
      entryOf := t.entryOf, routine := t.routine, splitOk := t.splitOk }
  s.setFloor m floor

def State.joinGangs (s : State) (g : Gang) (lead : Nat) : List Nat → State
  | [] => s
  | m :: ms => State.joinGangs (s.joinGang g lead m) g lead ms

/-- A thread that FUSE may claim: free, nothing spilled on its core, and the core not another context's (R33, R48).
(log 28, DEDUCED) -/
def State.claimable (s : State) (ctx m : Nat) : Bool :=
  let k := s.core (epCore m)
  !(s.thr m).busy && (s.thr m).inst.isNone && k.spilled.isEmpty && (k.bound.isNone || k.bound == some ctx)

/-- The unbound cores of claimed threads bind to the gang's context under its launch; false where one cannot.
(log 146, DESIGN CHOICE) -/
def State.bindMembers (s : State) (ctx tag : Nat) : List Nat → Bool × State
  | [] => (true, s)
  | m :: ms =>
    if (s.core (epCore m)).bound.isSome then State.bindMembers s ctx tag ms
    else
      match s.bindTo (epCore m) ctx tag with
      | (.bound, s) => State.bindMembers s ctx tag ms
      | (_, s) => (false, s)

/-- Cores that no thread of a gang came to stand on. -/
def State.unbindMembers (s : State) : List Nat → State
  | [] => s
  | m :: ms => State.unbindMembers (s.unbindIfIdle (epCore m)) ms

/-- FUSE. (log 28, DEDUCED; log 146, DESIGN CHOICE) -/
def execFuse (dst : Dst) (n : BitVec 4) (s : State) : Out :=
  let core := s.curCore
  let pos := corePos core
  .next
    (if !isVDie (coreDie core) then s.finish dst 2 8
    else if pos % n.toNat != 0 || s.me.gang.isSome then s.raise 0x31 0
    else
      let g : Gang := ⟨s.ids, n.toNat, pos, pos⟩
      let others := (gangMembers g s.cur).filter (· != s.cur)
      if !(others.all (s.claimable s.myCtx)) then s.finish dst 1 8
      else
        match s.bindMembers s.myCtx s.me.unit.launch others with
        | (false, s) => (s.unbindMembers others).finish dst 1 8
        | (true, s) =>
          let s := { s with ids := s.ids + 1 }.finish dst 0 8
          let s := (s.upd fun t => { t with gang := some g }).joinGangs g s.cur others
          s.takeCkpts (.gang g.id) (s.cur :: others))

/-- A member leaves its gang and goes on where the stream stands. (log 27, DEDUCED) -/
def State.leaveGang (s : State) (lead : Thread) : List Nat → State
  | [] => s
  | m :: ms =>
    let k := epThread m
    let s := s.updThr m fun t =>
      { t with regs := { t.regs with pc := lead.regs.pc, pix := 0 }, rep := lead.rep, shift := lead.shift, gang := none,
               ahead := [], team := .none, ckpt := none }
    State.leaveGang (s.updCore (epCore m) fun c => { c with undo := c.undo.filter (·.thread != k) }) lead ms

/-- SPLIT. -/
def execSplit (s : State) : Out :=
  .next
    (match s.me.gang with
      | none => s.raise 0x31 0
      | some g =>
        let s := s.done 8
        s.leaveGang s.me (gangMembers g s.cur))

/-- LANEID. -/
def execLaneid (dst : Dst) (s : State) : Out := .next (s.finish dst (BitVec.ofNat 64 s.me.lane) 8)

/-- The place word of R339. -/
def State.placeOf (s : State) : Word :=
  let c := s.curCore
  let p := s.myPart * 2 ^ 32
  if isVDie (coreDie c) then
    BitVec.ofNat 64 (p + coreDie c * 2 ^ 20 + coreCluster c * 2 ^ 18 + corePos c * 2 ^ 15 + coreOctet c * 2 ^ 8 + corePeer c)
  else BitVec.ofNat 64 (p + coreChannel c * 2 ^ 23)

/-- COORD. -/
def execCoord (dst : Dst) (sel : Bool) (s : State) : Out :=
  .next (s.finish dst (if sel then s.placeOf else BitVec.ofNat 64 s.cur) 8)

/-! ### SPILLQ and JOBSET (R340, R341) -/

/-- The check of SPILLQ's value. (log 41, DEDUCED) -/
def spillqOk (core : Nat) (v : Word) : Bool :=
  let size := fld v 32 4
  let base := fld v 0 32
  v.toNat < 2 ^ 36 && size ≤ 10 && (size == 0 || (base % 64 == 0 && base + 64 * 2 ^ size ≤ padSize core))

/-- SPILLQ. (log 41, DEDUCED) -/
def execSpillq (dst : Dst) (a : Src) (s : State) : Out :=
  let v := s.raw 0 a
  let c := s.curCore
  .next
    (if !(s.core c).spilled.isEmpty then s.finish dst 1 8
    else if !spillqOk c v then s.finish dst 2 8
    else (s.updCore c fun k => { k with spill := v, spillHead := 0 }).finish dst 0 8)

/-- JOBSET. -/
def execJobset (dst : Dst) (share : BitVec 5) (cls : Bool) (s : State) : Out :=
  let c := s.curCore
  let k := s.core c
  .next
    (if !isVDie (coreDie c) then s.finish dst 0x100 8
    else
      (s.updCore c fun k => { k with share := share, jobCls := cls }).finish dst
        (BitVec.ofNat 64 (k.share.toNat + if k.jobCls then 32 else 0)) 8)

end Sys2Proof.Machine
end

