-- ==== Sys2Proof/Machine/StageOps.lean ====
section
/-!
DEFINITION. Stages (16_stage_cloning.md R342-R361): tables and their copies, instance queues, splits, merges and retirement.
-/
namespace Sys2Proof.Machine

/-- R345: accepted entries whose units have not started; entries made by the home do not count (R350). -/
def Inst.depth (x : Inst) : Nat := (x.queue.filter (·.slot.isSome)).length

/-- Keep the time since which a condition holds. -/
def since (now : Nat) (holds : Bool) (old : Option Nat) : Option Nat :=
  if holds then some (old.getD now) else none

/-- The dwell timers after a change (R350, R354). -/
def Stage.retime (g : Stage) (now : Nat) : Stage :=
  { g with
    insts := g.insts.map fun (ep, x) =>
      (ep, { x with
        aboveSince := since now (g.thresh < x.depth) x.aboveSince
        belowSince := match x.parent with
          | none => none
          | some p => since now (x.depth + (g.inst p).depth < g.thresh / 4) x.belowSince }) }

/-- The time that a stage's home measures dwells by (R350): `ctime` of I/O die 16. -/
def State.homeTime (s : State) : Nat := s.ctime 16

def State.updStage (s : State) (part n : Nat) (f : Stage → Stage) : State :=
  s.setStage part n ((f (s.stage part n)).retime s.homeTime)

/-! ### Tables (R348, R349, R353) -/

def rangeLo (t : List Range) (i : Nat) : Nat := ((t[i]?).map (·.lo)).getD 0
def rangeHi (t : List Range) (i : Nat) : Nat := ((t[i + 1]?).map (·.lo)).getD (2 ^ 32)
def movingAt (t : List Range) (key : Nat) : Bool := ((t[coverIdx t key]?).map (·.moving)).getD false


def insertRange (x : Range) : List Range → List Range
  | [] => [x]
  | y :: ys => if x.lo < y.lo then x :: y :: ys else y :: insertRange x ys

/-- Remove every entry whose endpoint is that of the entry before it. -/
def coalesce : Option Nat → List Range → List Range
  | _, [] => []
  | p, x :: r => if p == some x.ep then coalesce p r else x :: coalesce (some x.ep) r

def settled (t : List Range) : List Range := coalesce none (t.map fun r => { r with moving := false })

/-- The cores of a partition whose interfaces hold copies: the small cores of unfenced pairs, and the memory cores, whose
threads send records as well (R82). (log 147, DEDUCED) -/
def State.stageCores (s : State) (part : Nat) : List Nat :=
  (((partPairs s.parts part).filter fun p => !(s.pair p).fenced).flatMap fun p =>
      (List.range 576).map fun i => p * 1024 + i) ++
    (List.range 384).filterMap fun ch =>
      if channelPart s.parts ch == part && !s.fenced.contains (20 + ch / 32) then some ((20 + ch / 32) * 1024 + ch % 32)
      else none

/-! ### Slates (R361) -/

def State.stageSlate (s : State) (part n ep code key partner count : Nat) : State :=
  let g := s.stage part n
  s.emitExt ep (epDie ep) g.ctx code n (BitVec.ofNat 64 (key % 2 ^ 32 * 2 ^ 32 + partner))
    (BitVec.ofNat 64 (count % 2 ^ 32 * 2 ^ 32 + g.epoch % 2 ^ 16 * 2 ^ 16 + Nat.min (g.inst ep).depth 0xFFFF))

/-! ### Retirement (R352, R354, R357) -/

/-- The eight words of a queue entry. -/
def State.entryWords (s : State) (ep qbase : Nat) (q : QEntry) : List Word :=
  match q.slot with
  | none => q.made
  | some i => s.readWords (padKey (epCore ep) (qbase + 64 * i)) 8

/-- Entries that never run count as exited. -/
def State.dropEntries (s : State) (part ep qbase : Nat) : List QEntry → State
  | [] => s
  | q :: qs =>
    let h := (s.entryWords ep qbase q).getD 0 0
    State.dropEntries (s.countExit part (hdrLaunch h) (hdrDet h) false) part ep qbase qs

/-- A thread whose unit ran an entry of an instance that is no more. -/
def Thread.leaveInst (t : Thread) (ep : Nat) : Thread :=
  if t.entryOf == some ep then { t with entryOf := none, routine := .none } else t

/-- The unit that an instance runs, wherever it is, is no longer one of its entries. -/
def State.leaveInst (s : State) (ep : Nat) : State :=
  { s with
    threads := s.threads.map fun (e, t) => (e, t.leaveInst ep)
    cores := s.cores.map fun (c, k) => (c, { k with park := k.park.map fun p => { p with th := p.th.leaveInst ep } }) }

/-- Free the threads of instances. -/
def State.freeInsts (s : State) : List Nat → State
  | [] => s
  | ep :: es =>
    State.freeInsts (((s.leaveInst ep).updThr ep fun t => { t with inst := none }).settleCore (epCore ep)) es

/-- The unit that an instance has started has not run to its end: a thread of the octet or a park slot holds it, or a member
of its gang (R51, R296, R344). -/
def State.instRuns (s : State) (ep : Nat) : Bool :=
  (s.thr ep).busy ||
    ((List.range 8).map (octetCore (coreArray (epCore ep)))).any fun c =>
      (List.range 8).any (fun t => (s.thr (coreEp c t)).busy && (s.thr (coreEp c t)).entryOf == some ep) ||
        (s.core c).park.any fun p => p.th.entryOf == some ep

/-- A record, a forward or an end marker of a stage is on its way (R342, R351). -/
def State.stageBound (s : State) (part n : Nat) : Bool :=
  s.msgs.any fun m => s.partOf (epCore m.dest) == part && (match m.kind with
    | .keyed k | .stage k .. => k == n
    | _ => false)

/-- A closing stage retires once every instance is idle and empty, every record that was sent to it has been accepted, and no
split or merge is open (R357). (log 45, DEDUCED) -/
def State.settleStage (s : State) (part n : Nat) : State :=
  let g := s.stage part n
  if g.isOpen && g.closing && g.mode == 0 && g.insts.all (fun (ep, x) => x.queue.isEmpty && !s.instRuns ep) &&
      !s.stageBound part n then
    let s := { s with stages := ndel s.stages (stageKey part n) }
    (s.freeInsts (g.insts.map (·.1))).dropAck part g.launch g.det
  else s

/-- The clone of a split or merge retires: slate, thread freed, the stage steady again. -/
def State.retireClone (s : State) (part n count : Nat) : State :=
  let g := s.stage part n
  let c := g.clone
  let s := s.stageSlate part n c 0x1C4 0 g.orig count
  let s := s.dropEntries part c g.qbase (g.inst c).queue
  let s := s.updStage part n fun g => { g with insts := ndel g.insts c, mode := 0, change := none }
  (s.freeInsts [c]).settleStage part n

/-- R354, step 5: the parent accepts the returning ranges again; then step 6. -/
def State.finishMerge (s : State) (part n : Nat) : State :=
  let g := s.stage part n
  let x := g.inst g.clone
  let s := s.updStage part n fun g =>
    { g with table := settled g.table }.setInst g.orig { g.inst g.orig with state := .steady }
  let s := s.stageSlate part n g.clone 0x1C3 g.key g.orig x.sent
  s.retireClone part n x.processed

/-! ### Units of an instance (R344, R351, R354) -/

/-- The instance that runs the routine of a split or a merge (R351, R354). -/
def Stage.sender (g : Stage) : Nat := if g.mode == 2 then g.clone else g.orig

/-- A unit that an instance has started has run to its end. -/
def State.instEnded (s : State) (part n ep : Nat) (hdr : Word) (routine : Routine) (ok : Bool) : State :=
  let g := s.stage part n
  let s :=
    if hdrClass hdr == 1 then
      s.updStage part n fun g => g.setInst ep { g.inst ep with processed := (g.inst ep).processed + 1 }
    else s
  match routine with
  | .none => s
  | .state _ => s.updStage part n fun g => g.setInst g.sender { g.inst g.sender with ran := (g.inst g.sender).ran + 1 }
  | .split _ => if ok || g.mode != 1 then s else s.retireClone part n 0
  | .merge _ => if ok || g.mode != 2 then s else s.finishMerge part n

/-- An idle instance thread takes the next entry of its queue. -/
def State.runInst (s : State) (part n ep : Nat) : Nat → State
  | 0 => s
  | fuel + 1 =>
    let g := s.stage part n
    if s.instRuns ep || (s.thr ep).inst != some n then s
    else
      match (g.inst ep).queue with
      | [] => s
      | q :: qs =>
        let ws := s.entryWords ep g.qbase q
        let h := ws.getD 0 0
        let r : Routine := if q.slot.isNone then .split n else if q.state then .state n else .none
        let s := s.updStage part n fun g =>
          let x := g.inst ep
          g.setInst ep
            (if q.slot.isNone then { x with queue := qs, start := some s.ids, sent := 0, ran := 0, forwards := 0 }
             else { x with queue := qs })
        let s := (s.runUnit ep h (ws.drop 1) q.floor r).updThr ep fun t => { t with entryOf := some ep }
        if (s.thr ep).busy then s else State.runInst (s.instEnded part n ep h r false) part n ep fuel

def State.turnInst (s : State) (part n ep : Nat) : State :=
  (s.runInst part n ep (((s.stage part n).inst ep).queue.length)).settleStage part n

/-! ### Acceptance (R344, R345, R351, R353) -/

/-- Whether an instance's state accepts a message of class 1 or 2. -/
def Stage.accepts (g : Stage) (ep : Nat) (m : Msg) : Bool :=
  let cls := hdrClass m.hdr
  let fwd : Bool := match m.kind with
    | .stage .. => true
    | _ => false
  let key := fld (m.payload.getD 0 0) 0 32
  match (g.inst ep).state with
  | .receiving => cls == 2 && hdrSrc m.hdr == g.orig
  | .opening => fwd
  | .steady => true
  | .merging => !(cls == 1 && movingAt g.table key && m.src != g.clone)

/-- The ring slot that the next accepted entry takes. -/
def Stage.freeSlot (g : Stage) (x : Inst) : Option Nat :=
  let n := 2 ^ g.qsize
  ((List.range n).map fun i => (x.tail + i) % n).find? fun i => !(x.queue.any (·.slot == some i))

/-- A forward keeps its header; its order is that of the original's interface (R351). -/
def State.forwardTo (s : State) (n orig clone : Nat) (ws : List Word) (floor : Nat) : State :=
  let h := ws.getD 0 0
  s.post { kind := .stage n 0 0 0, hdr := h, dest := clone, payload := (ws.drop 1).take (hdrWords h), src := orig,
           floor := floor }

/-- A state message of the routine in progress: sent to its partner since the routine started (R351, R354). -/
def Stage.isState (g : Stage) (ep : Nat) (m : Msg) : Bool :=
  let partner := if g.mode == 2 then g.orig else g.clone
  g.mode != 0 && ep == partner && hdrClass m.hdr == 2 && hdrSrc m.hdr == g.sender &&
    (g.inst g.sender).start.any (· ≤ m.id)

/-- The original forwards arrivals of the range that it has given away (R351). -/
def Stage.forwards (g : Stage) (ep : Nat) (m : Msg) : Bool :=
  let key := fld (m.payload.getD 0 0) 0 32
  g.mode == 1 && g.change.isSome && ep == g.orig && hdrClass m.hdr == 1 && g.key ≤ key && key < g.hi

/-- Offer a message to the instance thread that its destination names: refused (none), forwarded, or queued. -/
def State.offerInst (s : State) (part n : Nat) (m : Msg) : Option State :=
  let g := s.stage part n
  let ep := m.dest
  let ws := (m.hdr :: m.payload ++ List.replicate 7 0).take 8
  if !g.accepts ep m then none
  else if g.forwards ep m then
    some ((s.forwardTo n ep g.clone ws m.floor).updStage part n fun g =>
      g.setInst ep { g.inst ep with forwards := (g.inst ep).forwards + 1 })
  else
    match g.freeSlot (g.inst ep) with
    | none => none
    | some i =>
      let s := s.putBytes (padKey (epCore ep) (g.qbase + 64 * i)) (ws.flatMap fun (w : Word) => leBytes 8 w.toNat)
      let s := s.updStage part n fun g =>
        let x := g.inst ep
        g.setInst ep
          { x with queue := x.queue ++ [⟨some i, [], m.floor, g.isState ep m⟩], tail := (i + 1) % 2 ^ g.qsize }
      some (s.turnInst part n ep)

/-! ### Choosing a core (R301, R350) -/

/-- The cores of a V-die in rotation from the core after the one last chosen. -/
def rotation (pair last : Nat) : List Nat := (List.range 576).map fun i => pair * 1024 + (last + 1 + i) % 576

/-- A core that can take a unit of the context now. -/
def State.canTake (s : State) (core : Nat) : Bool := (s.freeThread core).isSome && (s.core core).spilled.isEmpty

/-- The core that R301's rotation takes: bound ones first. (log 43, DEDUCED) -/
def State.pickCore (s : State) (pair ctx : Nat) (ok : Nat → Bool) : Option Nat :=
  let cs := rotation pair (s.pair pair).lastCore
  match cs.find? fun c => (s.core c).bound == some ctx && s.canTake c && ok c with
  | some c => some c
  | none => cs.find? fun c => (s.core c).bound.isNone && s.canTake c && ok c

def State.hasInst (s : State) (core : Nat) : Bool := (List.range 8).any fun t => (s.thr (coreEp core t)).inst.isSome

/-- Pairs of a partition that could pay for a clone, the largest allowance first (R350, step 2). -/
def State.richestPair (s : State) (part : Nat) (cost : Int) : Option Nat :=
  ((partPairs s.parts part).filter fun p => !(s.pair p).fenced && cost ≤ (s.pair p).allowance).foldl
    (fun best p => match best with
      | none => some p
      | some q => if (s.pair q).allowance < (s.pair p).allowance then some p else some q) none

/-! ### The epoch (R353) -/

/-- EPOCH_CLOSE: every interface has acknowledged. A split's original sends the end marker after its last forward. -/
def State.closeEpoch (s : State) (part n : Nat) : State :=
  let g := s.stage part n
  match g.change with
  | none => s
  | some c =>
    if (s.stageCores part).all c.acked.contains then
      if g.mode == 1 then
        let s := s.post { kind := .stage n 1 0 0, hdr := mkHdr 0 g.ctx g.orig g.launch 1 0 g.det, dest := g.clone,
                          src := g.orig, floor := s.carried g.orig (epDie g.orig) }
        let s := s.updStage part n fun g => { g with table := settled g.table, mode := 0, change := none }
        (s.stageSlate part n g.orig 0x1C2 g.key g.clone (g.inst g.orig).forwards).settleStage part n
      else s.updStage part n fun g => { g with change := none }
    else s

end Sys2Proof.Machine
end

