-- ==== Sys2Proof/Machine/Stages.lean ====
section
/-!
DEFINITION. The stage instructions (16_stage_cloning.md R356-R360) and the steps of stages that nobody issues.
-/
namespace Sys2Proof.Machine

/-! ### STAGE (R346, R347, R357) -/

/-- A descriptor that R346 accepts, in a space 0 that ends at `lim`; the instances' queues lie in small cores' scratchpads. -/
def descOk (lim : Nat) (w : Nat → Word) : Bool :=
  let qsize := fld (w 2) 32 4
  let qbase := fld (w 2) 0 32
  let n := fld (w 3) 32 5
  let krt := fld (w 3) 0 32
  (w 0).toNat < 2 ^ 36 && (w 1).toNat < 2 ^ 32 && (w 2).toNat < 2 ^ 36 && (w 3).toNat < 2 ^ 37 && 1 ≤ fld (w 1) 16 16 &&
    1 ≤ qsize && qsize ≤ 10 && qbase % 64 == 0 && qbase + 64 * 2 ^ qsize ≤ 0x60000 && 1 ≤ n && n ≤ 16 && krt % 8 == 0 &&
    krt + 8 * n ≤ lim && w 4 == 0 && w 5 == 0 && w 6 == 0 && w 7 == 0

def krtEp (w : Word) : Nat := fld w 32 18
def krtLo (w : Word) : Nat := fld w 0 32

def rising : List Nat → Bool
  | a :: b :: r => a < b && rising (b :: r)
  | _ => true

/-- Two distinct endpoints never share a core. -/
def apart (eps : List Nat) : Bool := eps.all fun a => eps.all fun b => a == b || epCore a != epCore b

/-- The storyboard breaks R347. -/
def State.krtOk (s : State) (ws : List Word) : Bool :=
  ws.all (fun w => w.toNat < 2 ^ 50 && isSmall (krtEp w) && s.partOf (epCore (krtEp w)) == s.myPart) &&
    krtLo (ws.getD 0 0) == 0 && rising (ws.map krtLo) && apart (ws.map krtEp)

/-- The queue of a stage's instance on a core, as a range of its scratchpad. -/
def State.queueClash (s : State) (part core qbase bytes : Nat) : Bool :=
  s.stages.any fun (k, g) =>
    k / 64 == part && g.isOpen && g.insts.any (fun (ep, _) => epCore ep == core) &&
      g.qbase < qbase + bytes && qbase < g.qbase + 64 * 2 ^ g.qsize

/-- Claim the threads of the table's endpoints as instances in steady state. -/
def State.claimInsts (s : State) (n : Nat) : List Nat → State
  | [] => s
  | ep :: es => State.claimInsts (s.updThr ep fun t => { t with inst := some n }) n es

def dedup : List Nat → List Nat
  | [] => []
  | x :: xs => if xs.contains x then dedup xs else x :: dedup xs

/-- STAGE create: the code of a refusal, or the stage number. (log 44, DEDUCED) -/
def State.createStage (s : State) (a : Word) : Except Nat Nat × State :=
  let part := s.myPart
  let free := (List.range 64).find? fun n => !(s.stage part n).isOpen
  match free with
  | none => (.error 1, s)
  | some n =>
    if fld a 28 36 != 0 || a.toNat % 64 != 0 || padSize s.curCore < a.toNat + 64 then (.error 2, s)
    else
      let (ds, s1) := s.padReads s.cur 8 a.toNat
      let w (i : Nat) : Word := ds.getD i 0
      if !descOk (padSize s.curCore) w then (.error 2, s)
      else
        let (ks, s1) := s1.padReads s.cur (fld (w 3) 32 5) (fld (w 3) 0 32)
        let eps := dedup (ks.map krtEp)
        let qbase := fld (w 2) 0 32
        let qsize := fld (w 2) 32 4
        if !s.krtOk ks then (.error 2, s)
        else if eps.any (fun e => (s.thr e).busy || (s.thr e).inst.isSome ||
            !((s.core (epCore e)).bound.getD s.myCtx == s.myCtx)) then (.error 3, s)
        else if eps.any (fun e => s.queueClash part (epCore e) qbase (64 * 2 ^ qsize)) then (.error 4, s)
        else
          let u := s1.me.unit
          let thr := fld (w 1) 0 16
          let g : Stage :=
            { isOpen := true, ctx := s.myCtx, launch := u.launch, det := u.det, rech := fld (w 0) 0 12,
              splh := fld (w 0) 12 12, mrgh := fld (w 0) 24 12, dwell := fld (w 1) 16 16,
              thresh := if thr == 0 then 256 else thr, qsize := qsize, qbase := qbase,
              table := ks.map fun k => ⟨krtLo k, krtEp k, false⟩, insts := [] }
          let g := eps.foldl (fun g e => g.setInst e {}) g
          (.ok n, ((s1.setStage part n g).claimInsts n eps).countAck part u.launch u.det)

/-- STAGE, op 0. -/
def execStageCreate (dst : Dst) (a : Src) (s : State) : Out :=
  let (r, s) := s.createStage (s.raw 0 a)
  .next
    (match r with
      | .error c => s.finish dst (BitVec.ofNat 64 (0x100 + c)) 8
      | .ok n => s.finish dst (BitVec.ofNat 64 n) 8)

/-- An open stage of the acting context, by a source's value. -/
def State.ownStage (s : State) (a : Word) : Option Nat :=
  let g := s.stage s.myPart a.toNat
  if a.toNat < 64 && g.isOpen && g.ctx == s.myCtx then some a.toNat else none

/-- A source that names a stage: bits above the number raise the stage fault (R356). (log 128, DEDUCED) -/
def State.withStage (s : State) (a : Word) (f : Option Nat → State) : State :=
  if 64 ≤ a.toNat then s.raise 0x32 a else f (s.ownStage a)

/-- STAGE, op 1. (log 45, DEDUCED) -/
def execStageClose (dst : Dst) (a : Src) (s : State) : Out :=
  .next
    (s.withStage (s.raw 0 a) fun
      | none => s.finish dst 0x105 8
      | some n =>
        ((s.updStage s.myPart n fun g => { g with closing := true }).settleStage s.myPart n).finish dst 0 8)

/-- STAGE, op 2. The imm of this entry is its op: a `b` of specifier 0xD, which R67 and R356 do not settle between them, reads
that 2 (log 168, DESIGN CHOICE). -/
def execStageThresh (dst : Dst) (a b : Src) (s : State) : Out :=
  let v := fld (s.raw 2 b) 0 16
  .next
    (s.withStage (s.raw 0 a) fun
      | none => s.finish dst 0x105 8
      | some n =>
        let old := (s.stage s.myPart n).thresh
        (s.updStage s.myPart n fun g =>
          { g with thresh := if v == 0 then 256 else v,
                   insts := g.insts.map fun (e, x) => (e, { x with aboveSince := none, belowSince := none }) }).finish dst
          (BitVec.ofNat 64 old) 8)

/-! ### KEYSEND (R349, R358) -/

/-- KEYSEND. -/
def execKeysend (stage : BitVec 6) (words : BitVec 3) (gbase : Fin 32) (s : State) : Out :=
  let n := stage.toNat
  let g := s.stage s.myPart n
  .next
    (if !g.isOpen || g.closing || g.dead || g.ctx != s.myCtx then s.raise 0x32 (BitVec.ofNat 64 n)
    else if s.bufferFull then s
    else
      let payload := s.me.regs.mains gbase words.toNat
      let u := s.me.unit
      let d := routeOf (g.copy s.curCore) (fld (payload.getD 0 0) 0 32)
      let h := mkHdr g.rech s.myCtx s.cur u.launch 1 words.toNat u.det
      ((s.countStart s.myPart u.launch u.det).post
        { kind := .keyed n, hdr := h, dest := d, payload := payload, src := s.cur, buffer := some s.curCore,
          floor := s.carried s.cur (epDie s.cur) }).done 8)

/-! ### SPLITOK and MERGEOK (R351, R354, R359) -/

/-- Forward the entries of the original's queue that the clone now owns, in queue order (R351). -/
def State.forwardQueue (s : State) (part n : Nat) : List QEntry → State
  | [] => s
  | q :: qs =>
    let g := s.stage part n
    let ws := s.entryWords g.orig g.qbase q
    let key := fld (ws.getD 1 0) 0 32
    let s :=
      if hdrClass (ws.getD 0 0) == 1 && g.key ≤ key && key < g.hi then
        (s.forwardTo n g.orig g.clone ws q.floor).updStage part n fun g =>
          let x := g.inst g.orig
          g.setInst g.orig { x with queue := x.queue.filter (· != q), forwards := x.forwards + 1 }
      else s
    State.forwardQueue s part n qs

/-- The switch instant: one step at the home (R351). -/
def State.switchStage (s : State) (part n key : Nat) : State :=
  let s := s.updStage part n fun g =>
    { g with key := key, epoch := (g.epoch + 1) % 2 ^ 16, change := some { old := g.table },
             table := insertRange ⟨key, g.clone, true⟩ g.table }.setInst g.clone
      { g.inst g.clone with state := .opening }
  let g := s.stage part n
  let s := s.stageSlate part n g.orig 0x1C1 key g.clone (g.inst g.orig).sent
  s.forwardQueue part n (g.inst g.orig).queue

/-- The unit of a routine, on every thread and in every park slot that holds a part of it, has executed its SPLITOK or MERGEOK
(R359). -/
def State.routineOk (s : State) (uid : Nat) : State :=
  let mark (t : Thread) : Thread := if t.unit.uid == uid then { t with splitOk := true } else t
  { s with
    threads := s.threads.map fun (e, t) => (e, mark t)
    cores := s.cores.map fun (c, k) => (c, { k with park := k.park.map fun p => { p with th := mark p.th } }) }

/-- SPLITOK. -/
def execSplitok (dst : Dst) (a : Src) (imm : W32) (s : State) : Out :=
  let key := fld (s.raw imm a) 0 32
  .next
    (match s.me.routine, s.me.splitOk with
      | .split n, false =>
        let part := s.myPart
        let g := s.stage part n
        let x := g.inst s.myInst
        if !(g.lo < key && key < g.hi) then
          ((s.routineOk s.me.unit.uid).retireClone part n 0).finish dst 1 8
        else if x.sent != x.ran || !(s.ownReqs s.cur).isEmpty then s
        else ((s.routineOk s.me.unit.uid).switchStage part n key).finish dst 0 8
      | .split n, true => s.raise 0x32 (BitVec.ofNat 64 n)
      | .merge n, _ | .state n, _ => s.raise 0x32 (BitVec.ofNat 64 n)
      | .none, _ => s.raise 0x32 (BitVec.ofNat 64 ((s.me.inst).getD 0)))

/-- MERGEOK. -/
def execMergeok (s : State) : Out :=
  .next
    (match s.me.routine, s.me.splitOk with
      | .merge n, false =>
        let x := (s.stage s.myPart n).inst s.myInst
        if x.sent != x.ran then s
        else ((s.routineOk s.me.unit.uid).finishMerge s.myPart n).done 8
      | .merge n, true => s.raise 0x32 (BitVec.ofNat 64 n)
      | .split n, _ | .state n, _ => s.raise 0x32 (BitVec.ofNat 64 n)
      | .none, _ => s.raise 0x32 (BitVec.ofNat 64 ((s.me.inst).getD 0)))

/-! ### KRTREAD and QDEP (R348, R360) -/

def Range.word (r : Range) : Word :=
  BitVec.ofNat 64 (2 ^ 63 + (if r.moving then 2 ^ 62 else 0) + r.ep * 2 ^ 32 + r.lo)

def Stage.header (g : Stage) : Word :=
  BitVec.ofNat 64 (g.epoch % 2 ^ 16 * 2 ^ 48 + g.thresh % 2 ^ 16 * 2 ^ 32 + g.dwell % 2 ^ 16 * 2 ^ 16 +
    g.table.length % 32 * 2 ^ 6 + (if g.closing then 3 else g.mode) * 2 ^ 4)

/-- KRTREAD. -/
def execKrtread (dst : Dst) (a : Src) (sel : BitVec 5) (s : State) : Out :=
  .next
    (s.withStage (s.raw 0 a) fun
      | none => s.finish dst (BitVec.allOnes 64) 8
      | some n =>
        let g := s.stage s.myPart n
        s.finish dst (if sel.toNat == 16 then g.header else ((g.table[sel.toNat]?).map Range.word).getD 0) 8)

def InstState.code : InstState → Nat
  | .steady => 0
  | .receiving => 1
  | .opening => 2
  | .merging => 3

/-- QDEP. -/
def execQdep (dst : Dst) (a : Src) (s : State) : Out :=
  let e := (s.raw 0 a).toNat
  let st := if e < 2 ^ 18 && s.partOf (epCore e) == s.myPart then (s.thr e).inst else none
  .next
    (match st with
      | none => s.finish dst 0 8
      | some n =>
        let g := s.stage s.myPart n
        if !g.isOpen || g.ctx != s.myCtx then s.finish dst 0 8
        else
          let x := g.inst e
          s.finish dst (BitVec.ofNat 64 (2 ^ 63 + n * 2 ^ 50 + x.state.code * 2 ^ 48 + g.thresh % 2 ^ 16 * 2 ^ 32 +
            Nat.min x.depth 0xFFFF)) 8)

/-! ### The home's own steps (R350, R353-R355) -/

/-- A dwell has passed: microseconds of `ctime`, whose unit is a sixteenth of a nanosecond (R30, R350). -/
def State.dwelt (s : State) (g : Stage) : Option Nat → Bool
  | none => false
  | some t => t + g.dwell * 16000 ≤ s.homeTime

/-- No clone is made, and the dwell timer starts again. -/
def State.restartDwell (s : State) (part n ep : Nat) : State :=
  s.updStage part n fun g => g.setInst ep { g.inst ep with aboveSince := none }

/-- The record at the head of an instance's queue: its key (R350, step 7). -/
def State.headKey (s : State) (g : Stage) (ep : Nat) : Nat :=
  match ((g.inst ep).queue.map (s.entryWords ep g.qbase)).find? fun ws => hdrClass (ws.getD 0 0) == 1 with
  | none => 0
  | some ws => fld (ws.getD 1 0) 0 32

/-- A header of a unit that the home starts; its src is left open (R36), and its det is the creator's, so that its start counts as
the stage does (R343, R475). (log 42, DEDUCED) -/
def State.homeHdr (s : State) (g : Stage) (handler words : Nat) : Word × State :=
  let (w, s) := s.freeValue
  (mkHdr handler g.ctx (fld w 0 18) g.launch 2 words g.det, s)

/-- R350, steps 5-7, on the chosen core. (log 43, DEDUCED) -/
def State.cloneOn (s : State) (part n ep core cls : Nat) : State :=
  let g := s.stage part n
  let c := coreEp core ((s.freeThread core).getD 0)
  let i := coverIdx g.table (s.headKey g ep)
  let lo := rangeLo g.table i
  let hi := rangeHi g.table i
  let key := lo + (hi - lo) / 2
  let s := (s.updThr c fun t => { t with inst := some n }).chargeUnit core cls
  let s := s.updStage part n fun g =>
    { g with mode := 1, orig := ep, clone := c, lo := lo, hi := hi, key := key }.setInst c
      { state := .receiving, parent := some ep }
  let s := s.stageSlate part n c 0x1C0 key ep (g.inst ep).depth
  let (h, s) := s.homeHdr g g.splh 5
  let ws : List Word := [h, BitVec.ofNat 64 c, BitVec.ofNat 64 key, BitVec.ofNat 64 lo, BitVec.ofNat 64 hi,
    BitVec.ofNat 64 n, 0, 0]
  let s := s.countStart part g.launch g.det
  let s := s.updStage part n fun g =>
    let x := g.inst ep
    g.setInst ep { x with queue := ⟨none, ws, s.floor ep, false⟩ :: x.queue, start := none }
  s.turnInst part n ep

/-- STAGE_OVERLOAD (R350). -/
def execStageOverload (part stage ep : Nat) (s : State) : Out :=
  let g := s.stage part stage
  let x := g.inst ep
  .next
    (if !g.isOpen || g.closing || g.dead || g.mode != 0 || x.state != .steady || !s.dwelt g x.aboveSince ||
        (s.thr ep).inst != some stage then s
    else if 16 ≤ g.table.length then s.restartDwell part stage ep
    else
      let cls := ((s.handlerOf (epCore ep) g.rech).map (·.2)).getD 0
      let cost : Int := ((s.schedOf part).costs.toArray.getD cls 0) * 1000
      match s.richestPair part cost with
      | none => s.restartDwell part stage ep
      | some p =>
        match s.pickCore p g.ctx fun c => !s.hasInst c with
        | none => s.restartDwell part stage ep
        | some core =>
          if (s.core core).bound.isSome then s.cloneOn part stage ep core cls
          else
            match s.bindTo core g.ctx g.launch with
            | (.bound, s) => s.cloneOn part stage ep core cls
            | (.failed, s) => s.restartDwell part stage ep
            | (.waits, s) => s)

/-- STAGE_TABLE_APPLY (R349, R353): one interface applies the change. -/
def execStageTableApply (part stage core : Nat) (s : State) : Out :=
  let g := s.stage part stage
  .next
    (match g.change with
      | none => s
      | some c =>
        if !(s.stageCores part).contains core || c.applied.any (·.1 == core) then s
        else
          s.updStage part stage fun g => { g with change := some { c with applied := c.applied ++ [(core, s.ids)] } })

/-- Records of a core sent before it applied the change, that no instance has accepted yet. -/
def State.oldRecords (s : State) (part stage core first : Nat) : Bool :=
  s.msgs.any fun m =>
    m.kind == .keyed stage && epCore m.src == core && s.partOf core == part && m.id < first

/-- INTERFACE_ACK (R353). -/
def execInterfaceAck (part stage core : Nat) (s : State) : Out :=
  let g := s.stage part stage
  .next
    (match g.change with
      | none => s
      | some c =>
        match c.applied.find? (·.1 == core) with
        | none => s
        | some (_, first) =>
          if c.acked.contains core || s.oldRecords part stage core first then s
          else
            (s.updStage part stage fun g =>
              { g with change := some { c with acked := c.acked ++ [core] } }).closeEpoch part stage)

/-- R353: a record sent after its core applied a change, on a route that the change made, is held until the core has
acknowledged. -/
def State.recordHeld (s : State) (part stage : Nat) (m : Msg) : Bool :=
  let g := s.stage part stage
  match g.change with
  | none => false
  | some c =>
    let core := epCore m.src
    match c.applied.find? (·.1 == core) with
    | none => false
    | some (_, first) =>
      first ≤ m.id && !c.acked.contains core && routeOf c.old (fld (m.payload.getD 0 0) 0 32) != m.dest

/-- STAGE_UNDERLOAD (R354, step 1). -/
def execStageUnderload (part stage ep : Nat) (s : State) : Out :=
  let g := s.stage part stage
  let x := g.inst ep
  .next
    (match x.parent with
      | none => s
      | some p =>
        if !g.isOpen || g.closing || g.dead || g.mode != 0 || (s.thr ep).inst != some stage ||
            g.insts.any (fun (_, y) => y.parent == some ep) || !s.dwelt g x.belowSince then s
        else
          let low := ((g.table.filter (·.ep == ep)).map (·.lo)).head?.getD 0
          s.updStage part stage fun g =>
            let moved : Stage :=
              { g with mode := 2, orig := p, clone := ep, key := low, epoch := (g.epoch + 1) % 2 ^ 16,
                       change := some { old := g.table },
                       table := g.table.map fun (r : Range) => if r.ep == ep then { r with ep := p, moving := true } else r }
            (moved.setInst p { g.inst p with state := .merging }).setInst ep { g.inst ep with start := none })

/-- MERGE_START (R354, steps 3 and 4): a quiescent clone starts its merge entry, once the end marker of its own split has
come, behind every record forwarded to it (R342). (log 148, DEDUCED) -/
def execMergeStart (part stage ep : Nat) (s : State) : Out :=
  let g := s.stage part stage
  .next
    (if !g.isOpen || g.dead || g.mode != 2 || ep != g.clone || g.change.isSome || s.instRuns ep ||
        !(g.inst ep).queue.isEmpty || (g.inst ep).state != .steady then s
    else
      let (h, s) := s.homeHdr g g.mrgh 2
      let s := s.countStart part g.launch g.det
      let s := s.updStage part stage fun g => g.setInst ep { g.inst ep with start := some s.ids, sent := 0, ran := 0 }
      let s := (s.runUnit ep h [BitVec.ofNat 64 g.orig, BitVec.ofNat 64 stage] (s.floor ep) (.merge stage)).updThr ep
        fun t => { t with entryOf := some ep }
      if (s.thr ep).busy then s else s.finishMerge part stage)

end Sys2Proof.Machine
end

