-- ==== Sys2Proof/Machine/Retire.lean ====
section
/-!
DEFINITION. The end of a unit (R42, R51, R248, R352-R354) and messages reaching their destinations (R35, R39-R41, R216,
R321-R325, R328, R344, R461).
-/
namespace Sys2Proof.Machine

def State.arr (s : State) (a : Nat) : Arr := nget {} s.arrays a
def State.updArr (s : State) (a : Nat) (f : Arr → Arr) : State := { s with arrays := nset s.arrays a (f (s.arr a)) }

/-- The threads that run a unit, on any core of its octet: members of a gang that has split may have resumed on another
thread (R51, R296). -/
def State.unitThreads (s : State) (ep uid : Nat) : List Nat :=
  let cores := if isVDie (epDie ep) then (List.range 8).map (octetCore (coreArray (epCore ep))) else [epCore ep]
  (cores.flatMap fun c => (List.range 8).map (coreEp c)).filter fun m => s.unitHere m uid

/-- Whether another part of the thread's unit runs or is parked (R51). -/
def State.hasMates (s : State) (ep : Nat) : Bool :=
  let uid := (s.thr ep).unit.uid
  let cores := if isVDie (epDie ep) then (List.range 8).map (octetCore (coreArray (epCore ep))) else [epCore ep]
  (s.unitThreads ep uid).any (· != ep) || cores.any fun c => (s.core c).park.any (·.th.unit.uid == uid)

/-- An error of one member of a unit is the unit's (R51). -/
def State.markErr (s : State) (uid : Nat) : State :=
  let mark (t : Thread) : Thread := if t.unit.uid == uid then { t with unitErr := true } else t
  { s with
    threads := s.threads.map fun (e, t) => (e, mark t)
    cores := s.cores.map fun (c, k) => (c, { k with park := k.park.map fun p => { p with th := mark p.th } }) }

/-- A thread that its unit has left: free, with what the unit's registers held; a unit that starts on it writes them anew
(R40, R42, R55). -/
def Thread.freed (t : Thread) : Thread := { inst := t.inst, regs := t.regs, cause := t.cause, epc := t.epc }

/-- A unit exits with error: its own, one of another member, or a touch that no barrier has reported (R51, R248). -/
def Thread.exitErr (t : Thread) (err : Bool) : Bool := err || t.regs.gtouch.getLsbD 63 || t.unitErr

/-- The exit slate of a thread, once (R278). -/
def State.tellExit (s : State) (ep : Nat) (err : Bool) : State :=
  let t := s.thr ep
  if t.exitTold then s
  else
    (s.emit ep (epDie ep) (s.ctxOf (epCore ep)) 0x081 (if t.exitErr err then 1 else 0)).updThr ep fun t =>
      { t with exitTold := true }

def State.tellExits (s : State) (err : Bool) : List Nat → State
  | [] => s
  | m :: ms => State.tellExits (s.tellExit m err) err ms

/-- R42: a thread's unit retires. A touch that no barrier has reported is told to the pager, and makes an error (R248). -/
def State.retire (s : State) (ep : Nat) (err : Bool) : State :=
  let t := s.thr ep
  let core := epCore ep
  let part := s.partOf core
  let s := if t.regs.gtouch.getLsbD 63 then s.coreFault ep { cause := 0x23, g2 := t.regs.gtouch } else s
  let err := t.exitErr err
  let s := s.tellExit ep err
  let mates := s.hasMates ep
  let s := if err && mates then s.markErr t.unit.uid else s
  let s := s.updCore core fun k => { k with undo := k.undo.filter (·.thread != epThread ep) }
  let s := s.setThr ep t.freed
  let s := if mates then s else s.countExit part t.unit.launch t.unit.det err
  let s := match t.entryOf with
    | none => s
    | some e =>
      match mates, (s.thr e).inst with
      | false, some n => (s.instEnded part n e t.unit.hdr t.routine t.splitOk).turnInst part n e
      | _, _ => s
  s.settleCore core

def State.retireAll (s : State) (err : Bool) : List Nat → State
  | [] => s
  | m :: ms => State.retireAll (s.retire m err) err ms

/-- The unit of a thread: its gang's members, or the thread alone (R51). -/
def State.membersOf (s : State) (ep : Nat) : List Nat :=
  match (s.thr ep).gang with
  | none => [ep]
  | some g => gangMembers g ep

/-- The members of the acting thread's unit exit: a slate that finds its share full stalls its member, and the unit's exit
waits until it has been admitted (R286). -/
def State.exitUnit (s : State) (err : Bool) : State :=
  let ms := s.membersOf s.cur
  let s := s.tellExits err ms
  if ms.any s.holding then s else s.retireAll err ms

/-- EXIT. A merge routine that has not executed MERGEOK waits here as MERGEOK does (R354). -/
def execExit (err : Bool) (s : State) : Out :=
  .next
    (match s.me.routine, s.me.splitOk with
      | .merge n, false =>
        let x := (s.stage s.myPart n).inst s.myInst
        if x.sent != x.ran then s else s.exitUnit err
      | _, _ => s.exitUnit err)

/-! ### Delivery -/

/-- An earlier message of the same sender, destination and class stands before it (R216, R322).
(log 47, DEDUCED; log 139, DEDUCED) -/
def State.msgBlocked (s : State) (m : Msg) : Bool := go m s.msgs
where
  go (m : Msg) : List Msg → Bool
    | [] => false
    | x :: xs =>
      if x.id == m.id then false
      else (x.src == m.src && x.dest == m.dest && hdrClass x.hdr == hdrClass m.hdr) || go m xs

def State.findMsg (s : State) (id : Nat) : Option Msg := s.msgs.find? (·.id == id)

/-- A message is accepted: it leaves its interface. One that came over Scallink counts as started under its connection's
launch, and its frame is acknowledged (R462, R463); an acknowledged SENDX is counted down, and its acceptance is an
acknowledgement at the send's scope (R240, R325). -/
def State.msgDone (s : State) (m : Msg) : State :=
  let s := { s with msgs := s.msgs.filter (·.id != m.id) }
  let s := match m.link with
    | none => s
    | some c =>
      (if isService m.dest then s else s.countStart (s.partOf (epCore m.dest)) (hdrLaunch m.hdr) false).ackFrame c
  match m.ack with
  | none => s
  | some (ep, uid, launch, det) =>
    let s := s.updUnit ep uid fun t => { t with stScope := t.stScope.max (sendScope ep m.dest) }
    (s.occDown ep uid 1 m.floor).dropAck (s.partOf (epCore ep)) launch det

/-- A message that came over Scallink, and whose connection's launch runs no more: the frame is refused after all (R463). -/
def State.staleLink (s : State) (m : Msg) : Option Nat :=
  m.link.filter fun _ => !isService m.dest &&
    (let l := s.launch (s.partOf (epCore m.dest)) (hdrLaunch m.hdr)
     !l.inUse || l.ctx != hdrCtx m.hdr || l.state != .running)

/-- A refused message is held and offered again (R322). -/
def State.msgRefused (s : State) (m : Msg) : State :=
  { s with msgs := mapIf (·.id == m.id) (fun x => { x with refused := true }) s.msgs }

/-- R461: the ring of a service core: die 16 first. -/
def serviceIndex (ep : Nat) : Nat := (epDie ep - 16) * 16 + epCol ep

def State.ringFull (s : State) (i : Nat) : Bool := 256 ≤ nget 0 s.callProd i - nget 0 s.callCons i

def State.ringPut (s : State) (i : Nat) (ws : List Word) : State :=
  let p := nget 0 s.callProd i
  { s with
    mem := s.mem.writeBytes (((ws ++ List.replicate 8 0).take 8).flatMap fun (w : Word) => leBytes 8 w.toNat)
      (callKey i (p % 256 * 64))
    callProd := nset s.callProd i (p + 1) }

/-- R40: a message that starts a unit reaches a core bound to its context. One that names a bad handler starts no unit and
takes no place (R39). A unit of a cancelled launch that names a bad handler is the bad handler's here and the cancelled
launch's at the head of a spill queue: which of R39 and R47 comes first is left open. (log 169, DESIGN CHOICE) -/
def State.offerCore (s : State) (m : Msg) : State :=
  let core := epCore m.dest
  let k := s.core core
  let spill (s : State) : State :=
    if k.spilled.length < k.spillCap then
      ((s.msgDone m).spillAppend core m.hdr m.payload m.floor).skimSpill core (k.spilled.length + 1)
    else s.msgRefused m
  if (s.handlerOf core (hdrHandler m.hdr)).isNone then ((s.msgDone m).badHandler m.dest m.hdr).settleCore core
  else
    match s.freeThread core with
    | some t =>
      if k.spilled.isEmpty then (s.msgDone m).runUnit (coreEp core t) m.hdr m.payload m.floor .none |>.settleCore core
      else spill s
    | none => spill s

/-- A message that starts a unit, or a stage's record, reaches its destination. -/
def State.offer (s : State) (m : Msg) : State :=
  let core := epCore m.dest
  match s.staleLink m with
  | some conn => { s with msgs := s.msgs.filter (·.id != m.id) }.refuseFrame conn
  | none =>
  if isService m.dest then
    let i := serviceIndex m.dest
    if s.ringFull i then s.msgRefused m else (s.msgDone m).ringPut i (m.hdr :: m.payload)
  else if (s.core core).bound != some (hdrCtx m.hdr) then s.msgRefused m
  else
    let cls := hdrClass m.hdr
    match (s.thr m.dest).inst with
    | some n =>
      if cls == 1 || cls == 2 then
        match s.offerInst (s.partOf core) n m with
        | none => s.msgRefused m
        | some s => (s.msgDone m).settleStage (s.partOf core) n
      else s.offerCore m
    | none => s.offerCore m

/-- A message for an unbound core waits for the binding that it brings about (R34). -/
def State.needsBind (s : State) (m : Msg) : Bool := !isService m.dest && (s.core (epCore m.dest)).bound.isNone

/-- A record that its interface holds during a change of table (R353). -/
def State.msgHeld (s : State) (m : Msg) : Bool :=
  match m.kind with
  | .keyed n => s.recordHeld (s.partOf (epCore m.src)) n m
  | _ => false

/-- A message for a fenced die is lost: the unit that it would have started counts as exited with error (R317, R441). -/
def State.loseMsg (s : State) (m : Msg) : State :=
  let s := s.msgDone m
  match m.kind with
  | .unit =>
    if isService m.dest then s else s.countExit (s.partOf (epCore m.dest)) (hdrLaunch m.hdr) (hdrDet m.hdr) true
  | .keyed n =>
    let part := s.partOf (epCore m.dest)
    (s.countExit part (hdrLaunch m.hdr) (hdrDet m.hdr) true).settleStage part n
  | .stage .. | .wake | .aggregate .. | .completion .. | .tile .. => s

/-- Deliver a message that is in its turn. A unit that the distributor of a fenced die has sent waits for its reissue. -/
def State.deliverMsg (s : State) (m : Msg) : State :=
  if s.fenced.contains (epDie m.dest) then (if hdrClass m.hdr == 3 then s else s.loseMsg m)
  else if s.msgBlocked m || s.msgHeld m || s.needsBind m || s.isHeld (niWho (epCore m.dest)) then s
  else
    match m.kind with
    | .unit | .keyed _ => s.offer m
    | .stage _ 0 _ _ => s.offer m
    | .stage .. | .wake | .aggregate .. | .completion .. | .tile .. => s

/-- MESSAGE_ARRIVAL (R40). -/
def execMessageArrival (id : Nat) (s : State) : Out :=
  .next
    (match s.findMsg id with
      | none => s
      | some m => if m.refused then s else s.deliverMsg m)

/-- SEND_BUFFER_RETRY (R322): a held message is offered again. -/
def execSendBufferRetry (id : Nat) (s : State) : Out :=
  .next
    (match s.findMsg id with
      | none => s
      | some m => if m.refused && hdrClass m.hdr != 3 then s.deliverMsg m else s)

/-- DISPATCH_RETRY (R301): a distributor offers a refused unit to the same core again. -/
def execDispatchRetry (id : Nat) (s : State) : Out :=
  .next
    (match s.findMsg id with
      | none => s
      | some m => if m.refused && hdrClass m.hdr == 3 then s.deliverMsg m else s)

/-- COREBIND (R34): a unit or message of a context reaches an unbound core. Where the image cannot be reached, the message
is consumed with the unit that it would have started (R330). -/
def execCoreBind (id : Nat) (s : State) : Out :=
  .next
    (match s.findMsg id with
      | none => s
      | some m =>
        let starts := match m.kind with
          | .unit | .keyed _ => true
          | .stage _ 0 _ _ => true
          | .stage .. | .wake | .aggregate .. | .completion .. | .tile .. => false
        if !starts || s.msgBlocked m || s.msgHeld m || !s.needsBind m then s
        else
          match s.bind (epCore m.dest) m.hdr with
          | (.failed, s) => s.msgDone m
          | (_, s) => s)

/-- WAKE_ARRIVAL (R328). (log 47, DEDUCED) -/
def execWakeArrival (id : Nat) (s : State) : Out :=
  .next
    (match s.findMsg id with
      | none => s
      | some m =>
        let b := (s.core (epCore m.dest)).bound
        if m.kind != .wake || s.msgBlocked m || (b.isSome && b != some (hdrCtx m.hdr)) then s
        else
          let s := s.msgDone m
          let t := s.thr m.dest
          if !t.busy then s
          else
            let s := s.updThr m.dest fun t =>
              { t with wake := true, occFloor := nset t.occFloor 4 (Nat.max m.floor (nget 0 t.occFloor 4)) }
            match t.wait with
            | .park d _ => s.endPark m.dest d 0
            | _ => s)

/-- END_MARKER (R351): the clone becomes steady. -/
def execEndMarker (id : Nat) (s : State) : Out :=
  .next
    (match s.findMsg id with
      | none => s
      | some m =>
        match m.kind with
        | .stage n 1 _ _ =>
          if s.msgBlocked m then s
          else
            let part := s.partOf (epCore m.dest)
            ((s.msgDone m).updStage part n fun g => g.setInst m.dest { g.inst m.dest with state := .steady }).settleStage part n
        | _ => s)

end Sys2Proof.Machine
end

