-- ==== Sys2Proof/Machine/Handles.lean ====
section
/-!
DEFINITION. Handles (10_copies_and_handles.md R263-R270): buffers, rings and barriers of a cluster, the instructions that
act on them, what a transfer record does to them, and the phases of a barrier. A waiting instruction tests again each time
its thread has its turn.
-/
namespace Sys2Proof.Machine

/-- Handles by cluster * 256 + number. -/
def State.handle (s : State) (k : Nat) : Handle := nget {} s.handles k
def State.setHandle (s : State) (k : Nat) (h : Handle) : State := { s with handles := nset s.handles k h }
def State.updHandle (s : State) (k : Nat) (f : Handle → Handle) : State := s.setHandle k (f (s.handle k))

/-- The handle that an instruction of the acting thread names. -/
def State.hkey (s : State) (h : BitVec 8) : Nat := coreCl s.curCore * 256 + h.toNat

def HandleKind.code : HandleKind → Nat
  | .free => 0
  | .buffer => 1
  | .ring => 2
  | .barrier => 3

def kindOf : Nat → HandleKind
  | 0 => .free
  | 1 => .buffer
  | 2 => .ring
  | _ => .barrier

/-- The status word of R270. -/
def Handle.word (h : Handle) : Word :=
  BitVec.ofNat 64 (h.kind.code * 2 ^ 62 + (if h.faulted then 2 ^ 61 else 0) + h.fstatus % 256 * 2 ^ 48 +
    match h.kind with
    | .free => 0
    | .buffer => h.buf % 4
    | .ring => h.filled % 2 ^ 13 * 2 ^ 32 + h.free % 2 ^ 13 * 2 ^ 16 + h.head % 2 ^ 12
    | .barrier => Nat.min h.a 0xFFFF * 2 ^ 32 + h.count % 2 ^ 32)

/-- Mark a handle faulted; one that is faulted already keeps the status that faulted it.
(log 32, DEDUCED; log 64, DEDUCED) -/
def Handle.fault (h : Handle) (status : Nat) : Handle :=
  if h.faulted then h else { h with faulted := true, fstatus := status }

/-! ### What instructions apply -/

/-- A sum that would pass 2^32 - 1 marks the handle with status 9 and is not applied (R266). -/
def Handle.arrive (h : Handle) (n floor : Nat) : Handle :=
  if 2 ^ 32 ≤ h.a + n then h.fault 9 else { h with a := h.a + n, arrFloor := Nat.max h.arrFloor floor }

/-- (log 62, DEDUCED) -/
def Handle.expect (h : Handle) (n : Nat) : Handle :=
  if 2 ^ 32 ≤ h.e + h.posted + n then h.fault 9 else { h with posted := h.posted + n }

/-- The filled count advances over done slots in slot order (R264). -/
def Handle.fill : Nat → Handle → Handle
  | 0, h => h
  | k + 1, h =>
    let slot := (h.head + h.filled) % h.n
    if h.done.contains slot then
      Handle.fill k { h with done := h.done.filter (· != slot), filled := h.filled + 1 }
    else h

/-! ### What a transfer record applies (R253, R255, R263-R265) -/

/-- Whether a record that names the handle waits for it. -/
def Handle.waits (h : Handle) : Bool :=
  match h.kind with
  | .buffer => h.buf == 2 || h.buf == 3
  | .ring => h.free == 0
  | .free | .barrier => false

/-- A record takes the handle: the slot of a ring with it. -/
def Handle.take (h : Handle) : Nat × Handle :=
  match h.kind with
  | .buffer => (0, { h with buf := 1 })
  | .ring => (h.next, { h with next := (h.next + 1) % h.n, free := h.free - 1 })
  | .free | .barrier => (0, h)

/-- A record that has moved its bytes signals the handle. (log 64, DEDUCED) A buffer that is no longer filling is set full all
the same: R263 gives no row for it. (log 172, DESIGN CHOICE) -/
def Handle.signal (h : Handle) (hold : Bool) (slot bytes floor : Nat) : Handle :=
  match h.kind with
  | .buffer => if hold then h else { h with buf := 2, floor := Nat.max h.floor floor }
  | .ring =>
    if hold then h
    else Handle.fill h.n { h with done := h.done ++ [slot], slotFloor := nset h.slotFloor slot floor }
  | .barrier => h.arrive bytes floor
  | .free => h

/-! ### Shared checks and ends -/

/-- The kind check of R268. -/
def State.onKind (s : State) (h : BitVec 8) (kind : HandleKind) (f : State → Handle → State) : State :=
  let x := s.handle (s.hkey h)
  if x.kind != kind then s.raise 0x0D (BitVec.ofNat 64 h.toNat) else f s x

/-- A waiting instruction: the handle's fault, else its effect once `ready` holds (R268). (log 32, DEDUCED) -/
def State.waitOn (s : State) (h : BitVec 8) (kind : HandleKind) (ready : Handle → Bool) (f : State → Handle → State) :
    State :=
  s.onKind h kind fun s x =>
    if x.faulted then s.raise 0x0E x.word
    else if ready x then f s x
    else s.upd fun t => { t with onHandle := some (s.hkey h) }

/-- The handle state fault. -/
def State.badState (s : State) (h : BitVec 8) : State := s.raise 0x0D (BitVec.ofNat 64 h.toNat)

/-- R248: a recorded touch is reported before a barrier arrival takes effect. -/
def State.arrival (s : State) (f : State → State) : State :=
  if s.me.regs.gtouch.getLsbD 63 then s.raiseAt 0x33 true 0 s.me.regs.pc else f s

/-- The floor that a release of the acting thread carries. -/
def State.myFloor (s : State) : Nat := s.carried s.cur (epDie s.cur)

/-- A push of an instruction of the 96-bit class. -/
def State.give (s : State) (v : Word) : State := s.finish .wet v 12

/-! ### Phases (R266, R267) -/

/-- The phase's condition, but for the reports that a master waits for. -/
def Handle.met (h : Handle) : Bool := h.kind == .barrier && h.e != 0 && h.e ≤ h.a

/-- What R266 subtracts, and the expectations of the cycle for the new phase. -/
def Handle.subtract (h : Handle) : Handle := { h with a := h.a - h.e, e := 0 }
/-- (log 62, DEDUCED) -/
def Handle.admitPosted (h : Handle) : Handle := { h with e := h.e + h.posted, posted := 0 }
def Handle.advance (h : Handle) (floor : Nat) : Handle :=
  { h with count := (h.count + 1) % 2 ^ 32, floor := Nat.max h.floor floor, reported := false, aggs := [] }

/-- The other members of a cross-die barrier. -/
def Handle.others (h : Handle) (pair : Nat) : List Nat := (List.range 8).filter fun p => h.mask.testBit p && p != pair

def State.sendCompletions (s : State) (h mask master floor : Nat) : List Nat → State
  | [] => s
  | p :: ps =>
    State.sendCompletions
      (s.post { kind := .completion h p mask master, hdr := mkHdr 0 0 0 0 2 0 true, src := niSrc master, dest := p,
                floor := floor }) h mask master floor ps

/-- A handle unit's phase test. -/
def State.phase (s : State) (k : Nat) : State :=
  let x := s.handle k
  let pair := k / 1024
  let s :=
    if !x.met then s
    else if x.mask == 0 then s.setHandle k { x.subtract.advance x.arrFloor with arrFloor := 0 }
    else if pair == x.master then
      if (x.others pair).all x.aggs.contains then
        let f := x.arrFloor
        (s.setHandle k { x.subtract.advance f with arrFloor := 0 }).sendCompletions (k % 256) x.mask x.master f
          (x.others pair)
      else s
    else if x.reported then s
    else
      (s.setHandle k { x.subtract with reported := true, arrFloor := 0 }).post
        { kind := .aggregate (k % 256) pair x.mask x.master, hdr := mkHdr 0 0 0 0 2 0 true, src := niSrc pair,
          dest := x.master, floor := x.arrFloor }
  s.updHandle k Handle.admitPosted

/-- The cycles since the handle was last looked at have passed: what R266 does every cycle has been done before an event acts
on it. The test of the earlier event's own cycle takes its expectations in; the next cycle's tests them; then nothing is left
to complete. (log 62, DEDUCED) -/
def State.clockHandle (s : State) (k : Nat) : State :=
  if (s.handle k).kind == .barrier then (s.phase k).phase k else s

/-! ### Configuring (R269) -/

/-- A channel walks, or is stopped at, a record that names the handle; `slotOf` gives a record's handle. -/
def recordHandle (ws : List Word) : Nat := fld (ws.getD 5 0) 36 8
def recordHen (ws : List Word) : Bool := (ws.getD 5 0).getLsbD 35

def Channel.names (c : Channel) (h : Nat) : Bool :=
  match c.words with
  | none => false
  | some ws => recordHen ws && recordHandle ws == h

/-- Channels by copy unit * 8 + number; the cluster of one. -/
def channelCl (k : Nat) : Nat := arrayCl (k / 8)

def Handle.idle (h : Handle) : Bool :=
  match h.kind with
  | .free => true
  | .buffer => h.buf == 0
  | .ring => h.filled == 0 && h.free == h.n
  | .barrier => h.a == 0 && h.e == 0 && h.posted == 0

def State.handleIdle (s : State) (k : Nat) : Bool :=
  (s.handle k).idle && !s.threads.any (fun (_, t) => t.onHandle == some k) &&
    !s.channels.any (fun (c, x) => channelCl c == k / 256 && x.taken && !x.stored && x.names (k % 256))

/-- A cross-die mask holds this die pair and the master, and pairs of the partition alone. -/
def State.maskOk (s : State) (mask master : Nat) : Bool :=
  mask == 0 ||
    (mask.testBit (coreDie s.curCore) && mask.testBit master &&
      (List.range 8).all fun p => !mask.testBit p || (partPairs s.parts s.myPart).contains p)

/-- HCFG. -/
def execHcfg (h : BitVec 8) (cfg : W32) (s : State) : Out :=
  let kind := kindOf (cfg.toNat / 2 ^ 30)
  let p := cfg.toNat % 2 ^ 12
  let n := p + 1
  let mask := p % 256
  let master := p / 256
  let k := s.hkey h
  .next
    (let s := s.clockHandle k
    if !s.handleIdle k || (kind == .barrier && !s.maskOk mask master) then s.badState h
    else
      let x : Handle := match kind with
        | .ring => { kind := .ring, n := n, free := n }
        | .barrier => { kind := .barrier, mask := mask, master := master }
        | .free | .buffer => { kind := kind }
      (s.setHandle k x).done 12)

/-- Every channel of a cluster stopped on a record that names the handle goes on (R257). -/
def State.resumeChannels (s : State) (k : Nat) : State :=
  { s with
    channels := mapIf (fun (c, x) => channelCl c == k / 256 && x.stopped && x.names (k % 256))
      (fun (c, x) => (c, { x with stopped := false })) s.channels }

/-- HCFG with rearm: only the faulted mark changes. -/
def execHcfgRearm (h : BitVec 8) (s : State) : Out :=
  let k := s.hkey h
  .next (((s.updHandle k fun x => { x with faulted := false }).resumeChannels k).done 12)

/-! ### Buffers -/

/-- HACQ. -/
def execHacq (h : BitVec 8) (cons : Bool) (s : State) : Out :=
  let k := s.hkey h
  .next
    (s.waitOn h .buffer (fun x => x.buf == if cons then 2 else 0) fun s x =>
      let y := { x with buf := if cons then 3 else 1 }
      let s := if cons then s.raiseFloor s.cur x.floor else s
      (s.setHandle k y).give y.word)

/-- HREL. -/
def execHrel (h : BitVec 8) (cons : Bool) (s : State) : Out :=
  let k := s.hkey h
  .next
    (s.onKind h .buffer fun s x =>
      if x.buf != (if cons then 3 else 1) then s.badState h
      else if cons then (s.setHandle k { x with buf := 0 }).done 12
      else (s.setHandle k { x with buf := 2, floor := Nat.max x.floor s.myFloor }).done 12)

/-- HSTATE. -/
def execHstate (h : BitVec 8) (s : State) : Out :=
  let s := s.clockHandle (s.hkey h)
  .next (s.give (s.handle (s.hkey h)).word)

/-! ### Rings -/

/-- RPOST. -/
def execRpost (h : BitVec 8) (m : BitVec 13) (s : State) : Out :=
  let k := s.hkey h
  .next
    (s.onKind h .ring fun s x =>
      if x.n < x.free + m.toNat then s.badState h
      else (s.setHandle k { x with free := x.free + m.toNat, floor := Nat.max x.floor s.myFloor }).done 12)

/-- RTAKE. -/
def execRtake (h : BitVec 8) (s : State) : Out :=
  let k := s.hkey h
  .next
    (s.waitOn h .ring (fun x => 0 < x.filled) fun s x =>
      let s := s.raiseFloor s.cur (nget 0 x.slotFloor x.head)
      (s.setHandle k { x with filled := x.filled - 1, head := (x.head + 1) % x.n }).give (BitVec.ofNat 64 x.head))

/-! ### Barriers -/

/-- BARR. -/
def execBarr (h : BitVec 8) (bytes : W32) (s : State) : Out :=
  let k := s.hkey h
  .next
    ((s.clockHandle k).onKind h .barrier fun s _ => s.arrival fun s =>
      (s.updHandle k fun x => x.arrive bytes.toNat s.myFloor).done 12)

/-- BEXP. -/
def execBexp (h : BitVec 8) (bytes : W32) (s : State) : Out :=
  let k := s.hkey h
  .next ((s.clockHandle k).onKind h .barrier fun s x => (s.setHandle k (x.expect bytes.toNat)).done 12)

/-- The push of a phase count: an acquire that reads from every phase completion up to it (R265). -/
def State.giveCount (s : State) (x : Handle) : State := (s.raiseFloor s.cur x.floor).give (BitVec.ofNat 64 x.count)

/-- BTEST. -/
def execBtest (h : BitVec 8) (s : State) : Out :=
  .next ((s.clockHandle (s.hkey h)).onKind h .barrier fun s x => s.giveCount x)

/-- BWAIT. -/
def execBwait (h : BitVec 8) (s : State) : Out :=
  let cmp := s.w0.toNat % 2 ^ 32
  .next
    ((s.clockHandle (s.hkey h)).onKind h .barrier fun s x =>
      if x.faulted then s.raise 0x0E x.word
      else s.arrival fun s => s.waitOn h .barrier (fun x => x.count != cmp) fun s x => s.giveCount x)

/-- CKPT (R434): it arrives once, and then waits for the count to move. -/
def execCkpt (dst : Dst) (h : BitVec 8) (s : State) : Out :=
  let k := s.hkey h
  .next
    (let s := s.clockHandle k
    match s.me.ckptAt with
      | none =>
        s.onKind h .barrier fun s x =>
          if x.faulted then s.raise 0x0E x.word
          else s.arrival fun s =>
            (s.updHandle k fun x => x.arrive 1 s.myFloor).upd fun t =>
              { t with ckptAt := some (BitVec.ofNat 64 x.count), onHandle := some k }
      | some p =>
        s.waitOn h .barrier (fun x => x.count != p.toNat) fun s x =>
          let s := (s.raiseFloor s.cur x.floor).finish dst (BitVec.ofNat 64 x.count) 8
          s.takeCkpt s.cur (match s.me.gang with
            | none => .barrier k p
            | some g => .gang g.id))

/-! ### The steps of barriers -/

/-- BARRIER_PHASE (R266). -/
def execBarrierPhase (h : Nat) (s : State) : Out :=
  .next (if (s.handle h).kind == .barrier then s.phase h else s)

/-- The handle of a die pair that is configured as the member or master of a cross-die barrier. (log 63, DEDUCED) -/
def State.crossHandle (s : State) (pair h mask master : Nat) : Option Nat :=
  ((List.range 4).map fun c => (pair * 4 + c) * 256 + h).find? fun k =>
    let x := s.handle k
    x.kind == .barrier && x.mask == mask && x.master == master

/-- BARRIER_AGGREGATE (R267): held until the master's handle is configured. -/
def execBarrierAggregate (id : Nat) (s : State) : Out :=
  .next
    (match s.findMsg id with
      | none => s
      | some m =>
        match m.kind with
        | .aggregate h member mask master =>
          match s.crossHandle master h mask master with
          | none => s
          | some k =>
            { s with msgs := s.msgs.filter (·.id != id) }.updHandle k fun x =>
              { x with aggs := member :: x.aggs, arrFloor := Nat.max x.arrFloor m.floor }
        | _ => s)

/-- BARRIER_COMPLETION_MSG (R267): a member advances its count. -/
def execBarrierCompletionMsg (id : Nat) (s : State) : Out :=
  .next
    (match s.findMsg id with
      | none => s
      | some m =>
        match m.kind with
        | .completion h member mask master =>
          match s.crossHandle member h mask master with
          | none => s
          | some k => { s with msgs := s.msgs.filter (·.id != id) }.updHandle k fun x => x.advance m.floor
        | _ => s)

end Sys2Proof.Machine
end

