-- ==== Sys2Proof/Machine/Copy.lean ====
section
/-!
DEFINITION. Copy units (10_copies_and_handles.md R249-R259): channels, the walker of chains, the checks of a record, its
pieces, its completion, and what stops a channel. Each step of a channel does nothing where its channel is not at the point
that the step names.
-/
namespace Sys2Proof.Machine

/-! ### Counters of a core (R60, R243) -/

def State.cnUp (s : State) (core : Nat) (x : Fin 16) : State :=
  s.updCore core fun k => { k with cn := k.cn.set x (k.cn[x] + 1) }

/-- A completion, a copy's or a job's, lowers a counter, or at zero sets its underflow bit; it carries a floor (R240). -/
def State.cnDown (s : State) (core : Nat) (x : Fin 16) (floor : Nat) (copy : Bool) : State :=
  (s.updCore core fun k =>
    { k with cn := if k.cn[x] == 0 then k.cn else k.cn.set x (k.cn[x] - 1)
             uf := if k.cn[x] == 0 then k.uf ||| BitVec.twoPow 16 x.val else k.uf
             cnCopy := if copy then k.cnCopy ||| BitVec.twoPow 16 x.val else k.cnCopy
             cnFloor := nset k.cnFloor x.val (Nat.max floor (nget 0 k.cnFloor x.val)) }).settleCore core

def cnOf (n : Nat) : Fin 16 := ⟨n % 16, Nat.mod_lt _ (by decide)⟩

def State.cnFull (s : State) (core : Nat) (x : Fin 16) : Bool := (s.core core).cn[x] == 1023

/-! ### Channels -/

/-- Channels by copy unit * 8 + number. -/
def State.channel (s : State) (k : Nat) : Channel := nget {} s.channels k
def State.setChannel (s : State) (k : Nat) (c : Channel) : State := { s with channels := nset s.channels k c }
/-- The number of a channel among the operations in flight. -/
def channelId (k : Nat) : Nat := 2 ^ 40 + k
def channelDie (k : Nat) : Nat := arrayDie (k / 8)
def channelSrc (k : Nat) : Nat := copySrc (k / 8)

def Kick.part (s : State) (q : Kick) : Nat := s.partOf (epCore q.ep)
/-- The die whose walkers serve a channel (R373). -/
def State.channelWalker (s : State) (k : Nat) (q : Kick) : Nat := s.walkerDie (channelDie k) (q.part s)

/-! ### Records (R252) -/

def recNext (ws : List Word) : Word := ws.getD 0 0
def recSrc (ws : List Word) : Word := ws.getD 1 0
def recDst (ws : List Word) : Word := ws.getD 2 0
def recLen (ws : List Word) : Nat := fld (ws.getD 3 0) 0 32
def recRows (ws : List Word) : Nat := fld (ws.getD 3 0) 32 16 + 1
def recSstride (ws : List Word) : Int := signedOf 32 (fld (ws.getD 4 0) 0 32)
def recDstride (ws : List Word) : Int := signedOf 32 (fld (ws.getD 4 0) 32 32)
def recHold (ws : List Word) : Bool := (ws.getD 5 0).getLsbD 25
def recMen (ws : List Word) : Bool := (ws.getD 5 0).getLsbD 26
def recMbscope (ws : List Word) : Nat := fld (ws.getD 5 0) 27 3
def recCen (ws : List Word) : Bool := (ws.getD 5 0).getLsbD 30
def recCn (ws : List Word) : Fin 16 := cnOf (fld (ws.getD 5 0) 31 4)
def recMbox (ws : List Word) : Word := ws.getD 6 0
def recMbval (ws : List Word) : Nat := fld (ws.getD 7 0) 0 32
def recOwn (ws : List Word) : Bool := (ws.getD 7 0).getLsbD 63
def recBytes (ws : List Word) : Nat := recRows ws * recLen ws
def recReserved (ws : List Word) : Bool :=
  fld (ws.getD 3 0) 48 16 != 0 || fld (ws.getD 5 0) 0 25 != 0 || fld (ws.getD 5 0) 44 20 != 0 ||
    fld (ws.getD 7 0) 32 16 != 0 || fld (ws.getD 7 0) 56 7 != 0
/-- Word 7 with a status, and own as given. -/
def recWord7 (ws : List Word) (status : Nat) (own : Bool) : Word :=
  let w := (ws.getD 7 0).toNat
  BitVec.ofNat 64 (w % 2 ^ 48 + status % 256 * 2 ^ 48 + w / 2 ^ 56 % 2 ^ 7 * 2 ^ 56 + if own then 2 ^ 63 else 0)

/-- Where a byte range of a record stands (R250). -/
inductive Spot where
  | pad (core off : Nat)
  | plane (off : Nat)
  | far (va : Nat)
  deriving DecidableEq, Repr

/-- The spot of `n` bytes at a reference moved by `d`, in the frame of the kicking core; none outside R250's reach.
(log 58, DEDUCED) -/
def spotAt (core : Nat) (ref : Word) (d : Int) (n : Nat) (plane : Bool) : Option Spot :=
  let far := ref.getLsbD 63
  let a : Int := (if far then fld ref 0 57 else fld ref 0 63 : Nat) + d
  if a < 0 then none
  else
    let x := a.toNat
    if far then (if fld ref 57 6 != 0 || 2 ^ 57 < x + n then none else some (.far x))
    else if 2 ^ 32 ≤ x then none
    else
      let off := x % 2 ^ 28
      match x / 2 ^ 28 with
      | 0 => if 0x60000 < off + n then none else some (.pad core off)
      | 1 =>
        if 144 ≤ off / 2 ^ 20 || 0x60000 < off % 2 ^ 20 + n then none
        else some (.pad (peerCore (coreCl core) (off / 2 ^ 20)) (off % 2 ^ 20))
      | 2 => if !plane || 0x200000 < off + n then none else some (.plane off)
      | _ => none

/-- Every row lies within reach. (log 58, DEDUCED) -/
def rowsReach (core : Nat) (ref : Word) (stride : Int) (rows len : Nat) (plane : Bool) : Bool :=
  (List.range rows).all fun (r : Nat) => (spotAt core ref (stride * r) len plane).isSome

/-- The first failing check of R253, R254. -/
def State.recStatus (s : State) (core : Nat) (ws : List Word) : Nat :=
  if recLen ws % 4 != 0 then 1
  else if fld (recSrc ws) 0 2 != 0 || fld (recDst ws) 0 2 != 0 || recSstride ws % 4 != 0 || recDstride ws % 4 != 0 ||
      (recMen ws && fld (recMbox ws) 0 2 != 0) then 2
  else if !rowsReach core (recSrc ws) (recSstride ws) (recRows ws) (recLen ws) false ||
      !rowsReach core (recDst ws) (recDstride ws) (recRows ws) (recLen ws) true ||
      (recMen ws && (spotAt core (recMbox ws) 0 4 false).isNone) then 3
  else if recordHen ws && (s.handle (coreCl core * 256 + recordHandle ws)).kind == .free then 6
  else if recReserved ws || 5 ≤ recMbscope ws then 7
  else 0

/-! ### What the engine reads and writes -/

/-- Bytes written into a scratchpad by an engine: touches are the kicking unit's, and nothing is logged (R247, R435): each
4-byte granule on a guard is one touch. (log 171, DESIGN CHOICE) -/
def State.engineWrite (s : State) (ep uid core : Nat) : List Byte → Nat → State
  | a :: b :: c :: d :: bs, off =>
    State.engineWrite
      (if (s.core core).guarded off then
        s.touchUnit ep uid true (if core == epCore ep then off else peerAddr core off)
      else s.putBytes (padKey core off) [a, b, c, d]) ep uid core bs (off + 4)
  | _, _ => s

/-- A completion store of the engine, as a release that carries a floor: whether it is done, or has to wait for a walk, a page,
a line or a connection. A translation that fails is settled as R375 gives. (log 60, DEDUCED) -/
def State.engineStore (s : State) (k : Nat) (q : Kick) (ref : Word) (bs : List Byte) (floor : Nat) (detail : Word) :
    Bool × State :=
  match spotAt (epCore q.ep) ref 0 bs.length false with
  | none | some (.plane _) => (true, s)
  | some (.pad core off) =>
    let s := s.engineWrite q.ep q.uid core bs off
    (true, if (s.core core).guarded off then s else s.releaseAt (padKey core off) bs.length floor)
  | some (.far va) =>
    let die := s.channelWalker k q
    if !s.mayWalk die (channelId k) q.ctx va then (false, s.joinWalk die (channelId k) q.ctx va)
    else
      let (r, s) := (s.leaveWalk die (channelId k)).translate q.ctx va bs.length .write false die
      match r with
      | .error f => (true, s.transFault q.ctx die f 4 q.ep q.launch va bs.length detail)
      | .ok l =>
        if s.barred l.phys bs.length true then (false, s.askFor l.phys bs.length true)
        else if s.linkFull l.phys then (false, s)
        else (true, (s.engineLand q.ctx q.ep q.launch q.det l bs).releaseAt (physKey l.phys) bs.length floor)

/-- The ports by which a metered context's completion stores leave. -/
def State.storePort (s : State) (k : Nat) (q : Kick) (ref : Word) : Option Nat :=
  match s.meteredSlots q.ctx, spotAt (epCore q.ep) ref 0 4 false with
  | some _, some (.far va) =>
    match (s.translate q.ctx va 4 .write false (s.channelWalker k q)).1 with
    | .ok l => s.exitPort l.phys
    | .error _ => none
  | _, _ => none

/-! ### CHAIN and CSTAT (R259) -/

def State.myChannel (s : State) (ch : Fin 8) : Nat := coreArray s.curCore * 8 + ch.val

/-- CHAIN: a kick. -/
def execChain (ch : Fin 8) (cn : Fin 16) (cen : Bool) (head : Option W32) (s : State) : Out :=
  let k := s.myChannel ch
  let c := s.channel k
  let u := s.me.unit
  let h := match head with
    | none => s.w0
    | some v => v.setWidth 64
  .next
    (if 8 ≤ c.queue.length || s.occFull 2 || (cen && s.cnFull s.curCore cn) then s
    else
      let q : Kick :=
        { ep := s.cur, uid := u.uid, ctx := s.myCtx, launch := u.launch, det := u.det, head := h.toNat,
          cn := if cen then some cn.val else none, floor := s.myFloor }
      let s := (s.occUp 2).countAck s.myPart u.launch u.det
      let s := if cen then s.cnUp s.curCore cn else s
      (s.setChannel k { c with queue := c.queue ++ [q] }).done 12)

/-- CHAIN with resume. -/
def execChainResume (ch : Fin 8) (s : State) : Out :=
  let k := s.myChannel ch
  let c := s.channel k
  let s := if c.stopped then (s.setChannel k { c with stopped := false }).raiseFloor (channelSrc k) s.myFloor else s
  .next (s.done 12)

/-- The state field of CSTAT. -/
def Channel.code2 (c : Channel) : Nat :=
  if c.kick.isNone then 0 else if c.stopped then 3 else if c.waiting then 2 else 1

def Channel.word (c : Channel) : Word :=
  BitVec.ofNat 64 (c.progress % 2 ^ 32 * 2 ^ 32 + c.code % 256 * 2 ^ 24 + c.queue.length * 2 ^ 8 + c.code2)

/-- CSTAT. -/
def execCstat (ch : Fin 8) (sel : Bool) (s : State) : Out :=
  let c := s.channel (s.myChannel ch)
  .next (s.give (if sel then (if c.kick.isSome then BitVec.ofNat 64 c.ref else 0) else c.word))

/-! ### The walk (R256) -/

/-- The walker stops looping: CP, the launch's count and the kick's counter fall. -/
def State.endChain (s : State) (k : Nat) (q : Kick) : State :=
  let c := s.channel k
  let f := s.carried (channelSrc k) (channelDie k)
  let s := s.setChannel k { queue := c.queue, code := c.code }
  let s := (s.occDown q.ep q.uid 2 f).dropAck (q.part s) q.launch q.det
  match q.cn with
  | none => s
  | some x => s.cnDown (epCore q.ep) (cnOf x) f true

/-- TakeHandle: it waits, or the record goes on with what it has taken. -/
def State.takeRecord (s : State) (k : Nat) (q : Kick) (ws : List Word) : State :=
  let c := s.channel k
  if c.status != 0 || !recordHen ws || c.taken then s
  else
    let h := channelCl k * 256 + recordHandle ws
    let x := s.handle h
    if x.waits then s.setChannel k { c with waiting := true }
    else
      let (slot, y) := x.take
      ((s.setHandle h y).setChannel k { c with waiting := false, taken := true, slot := slot }).raiseFloor (channelSrc k)
        q.floor

/-- A record as read: its ownership, its counter and its checks. -/
def State.gotRecord (s : State) (k : Nat) (q : Kick) (ws : List Word) : State :=
  let core := epCore q.ep
  if !recOwn ws then s.endChain k q
  else if recCen ws && s.cnFull core (recCn ws) then s
  else
    let s := if recCen ws then s.cnUp core (recCn ws) else s
    let c := s.channel k
    (s.setChannel k { c with words := some ws, status := s.recStatus core ws, taken := false, progress := 0,
                             pieces := [], charged := false, stored := false }).takeRecord k q ws

/-- The reading of a record is an acquire (R214, R220). -/
def State.recordFloorAt (s : State) (src key : Nat) : State := s.raiseFloor src (topFloor s.relFloors key 64)

/-- The walker reads the record at its reference. A translation that fails is CHANNEL_STOP's. -/
def State.readRecord (s : State) (k : Nat) (q : Kick) : State :=
  let c := s.channel k
  let ref := BitVec.ofNat 64 c.ref
  let bad := (s.setChannel k { c with code := 8 }).endChain k q
  if c.ref == 0 then s.endChain k q
  else if c.ref % 64 != 0 then bad
  else
    match spotAt (epCore q.ep) ref 0 64 false with
    | none | some (.plane _) => bad
    | some (.pad core off) =>
      let (bs, s) := s.unitRead q.ep q.uid core 16 off
      (s.recordFloorAt (channelSrc k) (padKey core off)).gotRecord k q (wordsOf 8 bs)
    | some (.far va) =>
      let die := s.channelWalker k q
      if !s.mayWalk die (channelId k) q.ctx va then s.joinWalk die (channelId k) q.ctx va
      else
        let (r, s1) := (s.leaveWalk die (channelId k)).translate q.ctx va 64 .read false die
        match r with
        | .error _ => s
        | .ok l =>
          if s1.barred l.phys 64 false then s1.askFor l.phys 64 false
          else
            let (bs, s) := s1.landRead l 64
            (s.recordFloorAt (channelSrc k) (physKey l.phys)).gotRecord k q (wordsOf 8 bs)

/-- CHAIN_START: an idle channel takes the next head; the walker reads the record where it stands, or tries again for a
handle that it waits on. A unit whose start slate is held goes on once it has been admitted (R286). -/
def execChainStart (c ch : Nat) (s : State) : Out :=
  let k := c * 8 + ch
  let x := s.channel k
  .next
    (if s.isHeld (channelSrc k) then s
    else match x.kick with
      | none =>
        match x.queue with
        | [] => s
        | q :: rest =>
          let s := s.setChannel k { x with queue := rest, kick := some q, ref := q.head, words := none, stopped := false }
          let s := (s.raiseFloor (channelSrc k) q.floor).emit (channelSrc k) (channelDie k) q.ctx 0x100 ch
          if s.isHeld (channelSrc k) then s else s.readRecord k q
      | some q =>
        if x.stopped || x.ending then s
        else match x.words with
          | none => s.readRecord k q
          | some ws => s.takeRecord k q ws)

/-! ### Pieces (R257) -/

/-- All of a piece has been written. -/
def Piece.whole (p : Piece) : Bool := p.len ≤ p.done

/-- Pieces that pin a translation (R385). -/
def Channel.pins (c : Channel) : List Piece := c.pieces.filter fun p => !p.whole

/-- The record may move: it has passed its checks and taken its handle, and a stop's status stands in it. -/
def Channel.moving (c : Channel) (ws : List Word) : Bool :=
  !c.stopped && c.owed.isNone && c.status == 0 && (c.taken || !recordHen ws)

/-- Where the pieces that follow one another from a place on end. -/
def piecesEnd : Nat → List Piece → Nat
  | x, [] => x
  | x, p :: ps => if p.off == x then piecesEnd (x + p.len) ps else x

/-- The offset of the first byte that no piece holds. -/
def Channel.next (c : Channel) : Nat := piecesEnd c.progress c.pieces

/-- The two sides of the rest of a record's row from byte `x` of the record on. -/
def sidesAt (core : Nat) (ws : List Word) (x : Nat) : Option (Spot × Spot × Nat) :=
  let len := recLen ws
  if len == 0 || recBytes ws ≤ x then none
  else
    let row : Nat := x / len
    let off : Nat := x % len
    match spotAt core (recSrc ws) (recSstride ws * row + off) (len - off) false,
        spotAt core (recDst ws) (recDstride ws * row + off) (len - off) true with
    | some a, some b => some (a, b, len - off)
    | _, _ => none

/-- The two sides of what the next piece may hold: up to the row's end, or a piece that a stop has left written. A channel
that ends takes no further piece (R258). -/
def Channel.sides (c : Channel) (core : Nat) (ws : List Word) : Option (Spot × Spot × Nat) :=
  (if c.ending then none else sidesAt core ws c.next).map fun (a, b, n) =>
    (a, b, match c.pieces.find? (c.next < ·.off) with
      | none => n
      | some p => Nat.min n (p.off - c.next))

/-- One side of a piece: its landing and how far the piece may reach there; a failed translation, with the piece's length as
far as it is known; or a wait for a walk. -/
inductive SideTry where
  | ok (l : Option Landing) (n : Nat)
  | bad (f : TransFault) (va n : Nat)
  | waits
  deriving DecidableEq, Repr

/-- One side as it is translated; a piece ends with its page, with the node and with the physical 256-byte unit. -/
def State.pieceSide (s : State) (k : Nat) (q : Kick) (x : Spot) (kind : Access) (n : Nat) : SideTry × State :=
  match x with
  | .pad _ _ | .plane _ => (.ok none (Nat.min n 512), s)
  | .far va =>
    let die := s.channelWalker k q
    if !s.mayWalk die (channelId k) q.ctx va then (.waits, s.joinWalk die (channelId k) q.ctx va)
    else
      let (e, s) := (s.leaveWalk die (channelId k)).walk q.ctx va die
      let n := Nat.min n (4096 - va % 4096)
      let n := match e with
        | .ok e => Nat.min n (Nat.min (e.vbase + 2 ^ (6 + e.lg) - va) (256 - (e.phys + (va - e.vbase)) % 256))
        | .error _ => n
      let (r, s) := s.translate q.ctx va 4 kind false die
      match r with
      | .error f => (.bad f va n, s)
      | .ok l => (.ok (some l) n, s)

/-- What the next piece's translations come to: the two landings and the length, a wait, or the failing side. -/
inductive PieceTry where
  | piece (a b : Option Landing) (n : Nat)
  | held
  | bad (f : TransFault) (access va n : Nat)
  deriving DecidableEq, Repr

/-- A page of the host's holds a piece until the handover (R217). -/
def State.askForSide (s : State) (l : Option Landing) (n : Nat) (write : Bool) : State :=
  match l with
  | none => s
  | some l => if s.hostOwned l.phys then s.askFor l.phys n write else s

/-- (log 59, DEDUCED) -/
def State.tryPiece (s : State) (k : Nat) (q : Kick) (a b : Spot) (n : Nat) : PieceTry × State :=
  match s.pieceSide k q a .read n with
  | (.waits, s) => (.held, s)
  | (.bad f va n, s) => (.bad f 3 va n, s)
  | (.ok la n, s) =>
    match s.pieceSide k q b .write n with
    | (.waits, s) => (.held, s)
    | (.bad f va n, s) => (.bad f 4 va n, s)
    | (.ok lb n, s) =>
      if la.any (fun l => s.hostOwned l.phys) || lb.any (fun l => s.hostOwned l.phys) then
        (.held, (s.askForSide la n false).askForSide lb n true)
      else (.piece la lb n, s)

/-- Bytes of a piece's source from `d` on, where it is in the package; `data` is what a host or a peer returned. -/
def State.pieceRead (s : State) (q : Kick) (a : Spot) (p : Piece) (d n : Nat) (data : List Byte) : List Byte × State :=
  match a, p.src with
  | .pad core off, _ => s.unitRead q.ep q.uid core (n / 4) (off + d)
  | _, some l =>
    match s.place l.phys with
    | .hbm _ => (s.physRead { l with phys := l.phys + d } n, s)
    | .nothing => (List.replicate n (BitVec.allOnes 8), s)
    | _ => ((data.drop d).take n, s)
  | _, none => ([], s)

/-- Bytes written at a piece's destination from `d` on. -/
def State.pieceWrite (s : State) (k : Nat) (q : Kick) (b : Spot) (p : Piece) (d : Nat) (bs : List Byte) : State :=
  match b, p.dst with
  | .pad core off, _ => s.engineWrite q.ep q.uid core bs (off + d)
  | .plane off, _ => s.putBytes (planeKey (k / 8) (off + d)) bs
  | .far _, some l => s.landWrite { l with phys := l.phys + d } bs
  | .far _, none => s

/-- The granule of a piece that moves next (R212, R262): it ends at a 64-byte boundary of the far side, of the destination
where both are far or near. -/
def Piece.granule (p : Piece) (b : Spot) : Nat :=
  let at_ : Nat := match p.dst, p.src, b with
    | some l, _, _ | none, some l, _ => l.phys
    | none, none, .pad _ off | none, none, .plane off => off
    | none, none, .far va => va
  Nat.min (p.len - p.done) (64 - (at_ + p.done) % 64)

/-- Written pieces at the front leave the list, and the progress passes them. -/
def settlePieces : Nat → List Piece → Nat × List Piece
  | x, [] => (x, [])
  | x, p :: ps => if p.off == x && p.whole then settlePieces (x + p.len) ps else (x, p :: ps)

/-- A channel that ends, without the piece that has just been written: with its last piece the chain is gone. -/
def Channel.endPiece (c : Channel) : Channel :=
  if c.pins.isEmpty then { queue := c.queue, code := c.code } else c

/-- More of a piece is written. -/
def State.pieceOn (s : State) (k : Nat) (p : Piece) (n : Nat) : State :=
  let c := s.channel k
  let ps := mapIf (·.id == p.id) (fun x => { x with done := x.done + n }) c.pieces
  if c.ending then s.setChannel k ({ c with pieces := ps }).endPiece
  else
    let (x, ps) := settlePieces c.progress ps
    s.setChannel k { c with progress := x, pieces := ps }

/-- The piece of a number, and its channel. -/
def State.findPiece (s : State) (id : Nat) : Option (Nat × Piece) :=
  s.channels.findSome? fun (k, c) => (c.pieces.find? (·.id == id)).map fun p => (k, p)

/-- A piece that Scallink has not brought to its end (R463, R464). (log 61, DEDUCED) -/
def State.failPiece (s : State) (conn k : Nat) (p : Piece) : State :=
  match (s.channel k).kick with
  | some q =>
    let (w, s) := s.freeValue
    let s := (s.countError (s.partOf (epCore q.ep)) q.launch q.det).tellUndelivered conn q.ctx q.ep q.launch w
    s.pieceOn k p p.len
  | none => s

/-- The package channel whose memory core a piece goes to (R213, R257). -/
def State.pieceChannel (s : State) (p : Piece) : Option Nat :=
  let at_ (l : Option Landing) : Option Nat := l.bind fun l => match s.place l.phys with
    | .hbm c => some c
    | _ => none
  match at_ p.dst with
  | some c => some c
  | none => at_ p.src

/-- Two byte ranges of pieces meet. -/
def spotsMeet (x : Spot) (lx : Option Landing) (n : Nat) (y : Spot) (ly : Option Landing) (m : Nat) : Bool :=
  match x, y with
  | .pad c o, .pad d u => c == d && o < u + m && u < o + n
  | .plane o, .plane u => o < u + m && u < o + n
  | .far _, .far _ =>
    match lx, ly with
    | some l, some r => l.phys < r.phys + m && r.phys < l.phys + n
    | _, _ => false
  | _, _ => false

/-- Piece `p`, walked first, moves before `q`: they go to one memory core, or one writes bytes of the other (R202, R213,
R257). -/
def State.pieceBefore (s : State) (core : Nat) (ws : List Word) (p q : Piece) : Bool :=
  s.pieceChannel p == s.pieceChannel q ||
    (match sidesAt core ws p.off, sidesAt core ws q.off with
      | some (a, b, _), some (x, y, _) =>
        spotsMeet b p.dst p.len x q.src q.len || spotsMeet b p.dst p.len y q.dst q.len ||
          spotsMeet a p.src p.len y q.dst q.len
      | _, _ => true)

/-- R260: a memory core performs the pieces of one copy unit in the order in which they arrive there, which is the order of
their translations: none of another channel of the unit stands before this one. A piece that a meter holds has not
arrived. -/
def State.pieceTurn (s : State) (k : Nat) (p : Piece) : Bool :=
  (s.pieceChannel p).isNone || (List.range 8).all fun ch =>
    k / 8 * 8 + ch == k || (s.channel (k / 8 * 8 + ch)).pieces.all fun e =>
      e.whole || e.sent || p.id ≤ e.id || s.metersHold e.id || s.pieceChannel e != s.pieceChannel p

/-- The pieces that may move now, of those that follow `earlier`. -/
def State.freePieces (s : State) (core : Nat) (ws : List Word) : List Piece → List Piece → List Piece
  | _, [] => []
  | earlier, p :: ps =>
    let rest := State.freePieces s core ws (earlier ++ [p]) ps
    if p.whole || p.sent || earlier.any (fun e => !e.whole && s.pieceBefore core ws e p) then rest else p :: rest

/-- A granule of a translated piece moves, unless a meter, a line to recall or missing data holds it (R219, R411). -/
def State.movePiece (s : State) (k : Nat) (q : Kick) (a b : Spot) (p : Piece) (data : List Byte) : State :=
  let far (l : Landing) : Bool := (s.place l.phys).outside
  let barred (l : Option Landing) (w : Bool) : Bool := l.any fun l => s.lineHeld l.phys p.len w
  if s.metersHold p.id then s
  else if barred p.src false || barred p.dst true then
    let ask (s : State) (l : Option Landing) (w : Bool) : State := match l with
      | none => s
      | some l => if s.lineHeld l.phys p.len w then s.askFor l.phys p.len w else s
    ask (ask s p.src false) p.dst true
  else if p.dst.any (fun l => s.linkFull l.phys) || (p.src.any far && data.length != p.len) then s
  else
    match p.dst.map fun l => s.place l.phys with
    | some (.link conn off) =>
      if !s.linkUp conn then s.failPiece conn k p
      else
        let (bs, s) := s.pieceRead q a p 0 p.len data
        let c := s.channel k
        (s.sendFrame conn q.ctx (BitVec.ofNat 64 p.len) 0 (s.remoteAddr conn off) (wordsOf 512 bs) false
          (some p.id)).setChannel k
          { c with pieces := mapIf (·.id == p.id) (fun x => { x with sent := true }) c.pieces }
    | _ =>
      let n := p.granule b
      let (bs, s) := s.pieceRead q a p p.done n data
      (s.pieceWrite k q b p p.done bs).pieceOn k p n

/-- A new piece takes its place among a channel's. -/
def insertPiece (p : Piece) : List Piece → List Piece
  | [] => [p]
  | x :: xs => if p.off < x.off then p :: x :: xs else x :: insertPiece p xs

/-- One of several things that may happen next, which one being left open; drawn afresh where there is a choice. -/
def State.chooseOf {α : Type} (s : State) (xs : List α) : Option α × State :=
  match xs with
  | [] => (none, s)
  | [x] => (some x, s)
  | xs =>
    let (w, s) := s.freeValue
    (xs[w.toNat % xs.length]?, s)

/-- The next piece of a record is translated and pinned. -/
def State.newPiece (s : State) (k : Nat) (q : Kick) (a b : Spot) (n : Nat) : State :=
  match s.tryPiece k q a b n with
  | (.piece la lb n, s) =>
    let c := s.channel k
    let p : Piece := { id := s.ids, off := c.next, src := la, dst := lb, len := n }
    let s := { s with ids := s.ids + 1 }.setChannel k { c with pieces := insertPiece p c.pieces }
    match lb with
    | none => s
    | some l => s.charge p.id q.ctx l.phys n
  | (.held, s) => s
  | (.bad .., _) => s

/-- OUTBOUND_READ_TIMEOUT (R456): a read through a port returns all ones, and the port's error count rises (R470): of an
access, or of a copy's piece. (log 120, DESIGN CHOICE) -/
def execOutboundReadTimeout (id : Nat) (s : State) : Out :=
  .next
    (match s.findReq id, s.findPiece id with
      | some r, _ =>
        match r.land.map fun l => s.place l.phys with
        | some (.bus port _) =>
          let data := List.replicate r.size (BitVec.allOnes 8)
          if !r.kind.writes && s.reqReady r data then (s.portError port).performReq r data else s
        | _ => s
      | none, some (k, p) =>
        let c := s.channel k
        match c.kick, c.words, p.src.map fun l => s.place l.phys with
        | some q, some ws, some (.bus port _) =>
          let core := epCore q.ep
          if s.isHeld (channelSrc k) || !c.moving ws || s.metersHold p.id || !s.pieceTurn k p ||
              !(s.freePieces core ws [] c.pieces).any (·.id == p.id) then s
          else match sidesAt core ws p.off with
            | some (a, b, _) =>
              (if p.done == 0 then s.portError port else s).movePiece k q a b p (List.replicate p.len (BitVec.allOnes 8))
            | none => s
        | _, _, _ => s
      | none, none => s)

/-- COPY_PIECE: a piece is translated and pinned, or a granule of a pinned one moves. (log 14, DEDUCED) -/
def execCopyPiece (c ch : Nat) (data : List Byte) (s : State) : Out :=
  let k := c * 8 + ch
  let x := s.channel k
  .next
    (match x.kick, x.words with
      | some q, some ws =>
        if s.isHeld (channelSrc k) || !x.moving ws then s
        else
          let core := epCore q.ep
          let new : List (Option Piece) := if (x.sides core ws).isSome then [none] else []
          match s.chooseOf (new ++ ((s.freePieces core ws [] x.pieces).filter (s.pieceTurn k)).map some) with
          | (some none, s) =>
            match x.sides core ws with
            | some (a, b, n) => s.newPiece k q a b n
            | none => s
          | (some (some p), s) =>
            match sidesAt core ws p.off with
            | some (a, b, _) => s.movePiece k q a b p data
            | none => s
          | (none, s) => s
      | _, _ => s)

/-! ### Completion and stop (R253, R255, R257) -/

/-- Step 3 of R255. -/
def State.signalRecord (s : State) (k : Nat) (ws : List Word) (status slot floor : Nat) : State :=
  let h := channelCl k * 256 + recordHandle ws
  if recordHen ws then
    (s.clockHandle h).updHandle h fun h =>
      if status != 0 then h.fault status else h.signal (recHold ws) slot (recBytes ws) floor
  else s

/-- Beats of the completion's stores that leave the package. -/
def State.chargeStores (s : State) (k : Nat) (q : Kick) (ctx : Nat) : List Word → State
  | [] => s
  | r :: rs =>
    State.chargeStores
      (match s.storePort k q r with
        | none => s
        | some port => { s with beats := s.beats ++ [{ id := channelId k, ctx := ctx, port := port, left := 1 }] }) k q ctx
      rs

/-- Step 5 of R255, and the walker's move to the next record. The mailbox of a record that has failed is stored where it is
aligned and within reach, else it is left out: log 167, DESIGN CHOICE. -/
def State.mailRecord (s : State) (k : Nat) (q : Kick) (ws : List Word) : State :=
  let c := s.channel k
  let f := s.carried (channelSrc k) (channelDie k)
  let (ok, s) := if recMen ws && fld (recMbox ws) 0 2 == 0 then
      s.engineStore k q (recMbox ws) (leBytes 4 (recMbval ws)) f (BitVec.ofNat 64 c.ref)
    else (true, s)
  if !ok then s
  else
    let s := s.setChannel k { queue := c.queue, code := c.code, kick := c.kick, ref := (recNext ws).toNat }
    if recNext ws == 0 then s.endChain k q else s

/-- The five steps of R255, each after the one before it; a store that cannot land now is tried again. -/
def State.completeRecord (s : State) (k : Nat) (q : Kick) (ws : List Word) : State :=
  let c := s.channel k
  if c.stored then s.mailRecord k q ws
  else
    let src := channelSrc k
    let f := s.carried src (channelDie k)
    let ref := BitVec.ofNat 64 c.ref
    match s.engineStore k q (ref + 56) (leBytes 8 (recWord7 ws c.status false).toNat) f ref with
    | (false, s) => s
    | (true, s) =>
      let s := s.setChannel k { c with stored := true }
      let s := if c.status == 0 then s else s.emit src (channelDie k) q.ctx 0x101 (k % 8 + c.status * 8)
      let s := s.signalRecord k ws c.status c.slot f
      let s := if recCen ws then s.cnDown (epCore q.ep) (recCn ws) f true else s
      s.mailRecord k q ws

/-- Whether every byte of the record has been written, or it moves none. -/
def Channel.finished (c : Channel) (ws : List Word) : Bool :=
  !c.stopped && !c.ending && c.owed.isNone && c.pieces.isEmpty && (c.status != 0 || (c.moving ws && recBytes ws ≤ c.progress))

/-- RECORD_COMPLETE (R255). -/
def execRecordComplete (c ch : Nat) (s : State) : Out :=
  let k := c * 8 + ch
  let x := s.channel k
  .next
    (match x.kick, x.words with
      | some q, some ws =>
        if s.isHeld (channelSrc k) || !x.finished ws then s
        else if !x.charged then
          (s.setChannel k { x with charged := true }).chargeStores k q q.ctx
            (BitVec.ofNat 64 x.ref :: if recMen ws then [recMbox ws] else [])
        else if s.metersHold (channelId k) then s
        else s.completeRecord k q ws
      | _, _ => s)

/-- The status of a stop is written into the record, once its beat has passed its meters (R257, R410). -/
def State.settleOwed (s : State) (k : Nat) (q : Kick) : State :=
  let c := s.channel k
  let ref := BitVec.ofNat 64 c.ref
  match c.owed, c.words with
  | some st, some ws =>
    if s.metersHold (channelId k) then s
    else
      match s.engineStore k q (ref + 56) (leBytes 8 (recWord7 ws st true).toNat) 0 ref with
      | (true, s) => s.setChannel k { s.channel k with owed := none }
      | (false, s) => s
  | _, _ => s

/-- The channel stops: its counts stand, and so do the pieces that have been written or that a frame carries, but for a
cancelled one; the record takes the status, its handle is marked (R257). -/
def State.stopChannel (s : State) (k : Nat) (q : Kick) (status : Nat) (cancelled : Option Nat) : State :=
  let c := s.channel k
  let ref := BitVec.ofNat 64 c.ref
  let gone := (c.pieces.filter fun p => !p.whole && (!p.sent || cancelled == some p.id)).map (·.id)
  let s := { s with beats := s.beats.filter fun b => b.id != channelId k && !gone.contains b.id }
  let s := s.setChannel k
    { c with pieces := c.pieces.filter (fun p => !gone.contains p.id), code := status, stopped := true, waiting := false
             owed := c.words.map fun _ => status }
  let s := match c.words with
    | none => s
    | some ws =>
      let s := (s.chargeStores k q q.ctx [ref]).settleOwed k q
      let h := channelCl k * 256 + recordHandle ws
      if recordHen ws then (s.clockHandle h).updHandle h (·.fault status) else s
  s.emitExt (channelSrc k) (channelDie k) q.ctx 0x102 (k % 8 + status * 8) ref 0

/-- CHANNEL_STOP (R257): the translation of the next piece, or of the record itself, fails; the pieces walked before it have
been written. A stop's status that could not be written yet is. -/
def execChannelStop (c ch : Nat) (s : State) : Out :=
  let k := c * 8 + ch
  let x := s.channel k
  let ref := BitVec.ofNat 64 x.ref
  .next
    (match x.kick with
      | none => s
      | some q =>
        let die := s.channelWalker k q
        if x.owed.isSome then s.settleOwed k q
        else if s.isHeld (channelSrc k) || x.stopped || x.ending || !x.pins.isEmpty then s
        else match x.words with
          | none =>
            match spotAt (epCore q.ep) ref 0 64 false with
            | some (.far va) =>
              if x.ref % 64 != 0 || !s.mayWalk die (channelId k) q.ctx va then s
              else match (s.leaveWalk die (channelId k)).translate q.ctx va 64 .read false die with
                | (.error f, s) => (s.stopChannel k q 4 none).transFault q.ctx die f 3 q.ep q.launch va 64 ref
                | (.ok _, _) => s
            | _ => s
          | some ws =>
            match x.sides (epCore q.ep) ws with
            | none => s
            | some (a, b, n) =>
              if !x.moving ws then s
              else match s.tryPiece k q a b n with
                | (.bad f acc va m, s) => (s.stopChannel k q 4 none).transFault q.ctx die f acc q.ep q.launch va m ref
                | _ => s)

/-- Where a piece is pinned: the side whose node a round drops (R385). -/
def Piece.pinOf (p : Piece) (die : Nat) (nodes : List Nat) : Option (Nat × Landing) :=
  match p.src.filter (fun l => l.die == die && nodes.contains l.node) with
  | some l => some (3, l)
  | none => (p.dst.filter fun l => l.die == die && nodes.contains l.node).map fun l => (4, l)

/-- A piece that a round has waited for 4 us, with the round, the failing side and its landing. -/
def State.latePin (s : State) (c : Channel) : Option (Piece × Round × Nat × Landing) :=
  c.pins.findSome? fun p =>
    s.treeOps.findSome? fun o =>
      o.round.bind fun r =>
        if r.uses.contains p.id && r.since + 4 * Config.usTicks ≤ s.now then
          (p.pinOf r.die r.nodes).map fun (acc, l) => (p, r, acc, l)
        else none

/-- PIN_CANCEL (R385): a piece that a round has waited for 4 us is cancelled. -/
def execPinCancel (c ch : Nat) (s : State) : Out :=
  let k := c * 8 + ch
  let x := s.channel k
  .next
    (match x.kick, x.words, s.latePin x with
      | some q, some ws, some (p, r, acc, l) =>
        match sidesAt (epCore q.ep) ws p.off with
        | none => s
        | some (a, b, _) =>
          let va := match (if acc == 3 then a else b) with
            | .far v => v
            | _ => 0
          let s := if x.ending then
              s.setChannel k ({ x with pieces := x.pieces.filter (·.id != p.id) }).endPiece
            else s.stopChannel k q 5 (some p.id)
          s.faultMsg q.ctx r.die (walkerSrc r.die) (walkerSrc r.die)
            { cause := 0x13, access := acc, issuer := q.ep, launch := q.launch, g2 := BitVec.ofNat 64 va,
              g3 := BitVec.ofNat 64 (l.node * 2 ^ 42 + log2Up p.len % 16), g4 := BitVec.ofNat 64 x.ref }
      | _, _, _ => s)

end Sys2Proof.Machine
end

