-- ==== Sys2Proof/Machine/Tensor.lean ====
section
/-!
DEFINITION. What array commands compute (07_matrix_instructions.md R154-R158, R174-R187; 05_number_formats.md R120): plane
columns, B tiles and accumulator tiles in memory, declared precision, exact chunk sums with one rounding, scaling, moving and
loading. Everything here is a function of memory and of the command's fields.
-/
namespace Sys2Proof.Machine

/-! ### Formats -/

/-- Planes of a column (R155). -/
def planesOf : ElemTy → Nat
  | .bf16 => 17
  | .e4 | .e5 | .e4x => 9
  | .f4 | .f4x => 5
  | .t8 => 12
  | .i8 => 8
  | _ => 4

/-- Significand planes (R98, R175). -/
def sigOf : ElemTy → Nat
  | .bf16 | .i8 => 8
  | .e4 | .e4x | .i4 => 4
  | .e5 => 3
  | .f4 | .f4x => 2
  | .t8 => 6
  | _ => 8

/-- Exponent and fraction widths of the IEEE-style plane types. -/
def planeFmt : ElemTy → Option (Nat × Nat)
  | .bf16 => some (8, 7)
  | .e4 | .e4x => some (4, 3)
  | .e5 => some (5, 2)
  | .f4 | .f4x => some (2, 1)
  | _ => none

/-- Planes kept under a declared precision (R175). -/
def keptOf (t : ElemTy) (prec : Nat) : Nat :=
  let sw := sigOf t
  let p := if prec == 0 then sw else Nat.min prec sw
  Nat.min sw (2 * ((p + 1) / 2))

/-- Bytes of `n` elements, the 4-bit types two to a byte (R99, R138). -/
def elemSpan (t : ElemTy) (n : Nat) : Nat := (n * elemBits t + 7) / 8

/-- Alignment of an element in memory. -/
def elemAlign (t : ElemTy) : Nat := Nat.max 1 (elemBits t / 8)

/-- The code of element `n` from a key. -/
def Memory.elem (m : Memory) (key : Nat) (t : ElemTy) (n : Nat) : Nat :=
  if elemBits t == 4 then (m.read (key + n / 2)).toNat / (if n % 2 == 0 then 1 else 16) % 16
  else m.readNat (elemBits t / 8) (key + n * (elemBits t / 8))

def Memory.setElem (m : Memory) (key : Nat) (t : ElemTy) (n c : Nat) : Memory :=
  if elemBits t == 4 then
    let b := (m.read (key + n / 2)).toNat
    m.write (key + n / 2) (BitVec.ofNat 8 (if n % 2 == 0 then b / 16 * 16 + c % 16 else c % 16 * 16 + b % 16))
  else m.writeNat (elemBits t / 8) (key + n * (elemBits t / 8)) c

/-! ### Plane columns (R155) -/

/-- The plane bits of row `i` of the column at a key, plane 0 first. -/
def Memory.planeBits (m : Memory) (key i : Nat) : Nat → List Bool
  | 0 => []
  | n + 1 => (m.read (key + i / 8)).getLsbD (i % 8) :: Memory.planeBits m (key + 8) i n

/-- A number from bits, least significant first, and most significant first. -/
def bitsUp : List Bool → Nat
  | [] => 0
  | b :: bs => (if b then 1 else 0) + 2 * bitsUp bs
def bitsDown (bs : List Bool) : Nat := bs.foldl (fun n b => 2 * n + if b then 1 else 0) 0

/-- Significand bits below the kept planes read as zero. -/
def cutBits (keep : Nat) : List Bool → List Bool
  | [] => []
  | b :: bs => (if keep == 0 then false else b) :: cutBits (keep - 1) bs

/-- The value of an A element from its plane bits, cut to `pe` significand planes where it is finite (R155, R175). -/
def planeValue (t : ElemTy) (pe : Nat) (bs : List Bool) : XVal :=
  let s := bs.headD false
  match planeFmt t with
  | some (eb, fb) =>
    let code (frac : Nat) : Nat := (if s then 2 ^ (eb + fb) else 0) + bitsUp ((bs.drop 1).take eb) * 2 ^ fb + frac
    let sig := bs.drop (1 + eb)
    let whole := decodeElem t (code (bitsDown (sig.drop 1)))
    match whole with
    | .fin .. => decodeElem t (code (bitsDown ((cutBits pe sig).drop 1)))
    | _ => whole
  | none =>
    if t == .t8 then
      let e := bitsUp ((bs.drop 1).take 5)
      if e == 31 then .nan
      else if e == 0 then .zero false
      else .fin s (32 + bitsDown ((cutBits pe (bs.drop 6)).drop 1)) ((e : Int) - 20) false
    else .ofInt (signedOf (elemBits t) (bitsDown (cutBits pe bs)))

/-- The plane bits of a code. -/
def bitList (c : Nat) : Nat → List Bool
  | 0 => []
  | n + 1 => c.testBit 0 :: bitList (c / 2) n
def bitListDown (c n : Nat) : List Bool := (bitList c n).reverse

def planeCode (t : ElemTy) (c : Nat) : List Bool :=
  match planeFmt t with
  | some (eb, fb) =>
    let e := c / 2 ^ fb % 2 ^ eb
    c.testBit (eb + fb) :: bitList e eb ++ (e != 0) :: bitListDown (c % 2 ^ fb) fb
  | none =>
    if t == .t8 then
      match decodeT8 c with
      | .fin s n e _ =>
        if n == 0 then List.replicate 12 false
        else
          let l := Nat.log2 n
          s :: bitList ((l : Int) + e + 15).toNat 5 ++ true :: bitListDown (n * 32 / 2 ^ l - 32) 5
      | _ => true :: bitList 31 5 ++ List.replicate 6 false
    else bitListDown c (elemBits t)

/-- Row `i` of the column at a key written from plane bits; other rows keep theirs. -/
def Memory.setPlane (m : Memory) (key i : Nat) : List Bool → Memory
  | [] => m
  | b :: bs =>
    let a := key + i / 8
    let v := (m.read a).toNat
    let bit := 2 ^ (i % 8)
    let off := v - (if v.testBit (i % 8) then bit else 0)
    Memory.setPlane (m.write a (BitVec.ofNat 8 (off + if b then bit else 0))) (key + 8) i bs

/-! ### Accumulator tiles (R157) -/

def tileKey (a tile i j : Nat) : Nat := accKey a (tile * 0x4000 + (i * 64 + j) * 4)
def Memory.acc (m : Memory) (a tile i j : Nat) : Nat := m.readNat 4 (tileKey a tile i j)
def Memory.setAcc (m : Memory) (a tile i j c : Nat) : Memory := m.writeNat 4 (tileKey a tile i j) c

/-- One addition into a .f32 element, with one rounding (R178). -/
def Memory.addAcc (m : Memory) (a tile i j : Nat) (rm : Rnd) (v : XVal) : Memory :=
  m.setAcc a tile i j (roundTo ((decodeElem .f32 (m.acc a tile i j)).add (rm == .rdn) v) .f32 rm false 0)

/-- The set bits of a mask, in rising order. -/
def maskBits (w : Word) : List Nat := (List.range 64).filter fun i => w.getLsbD i

/-! ### Commands -/

/-- MZERO (R176). -/
def Memory.zeroTiles (m : Memory) (a tile n : Nat) (rows cols : List Nat) : Memory :=
  (List.range n).foldl (fun m t => rows.foldl (fun m i => cols.foldl (fun m j => m.setAcc a (tile + t) i j 0) m) m) m

/-- The A element (i, k) and the B element (k, j) of a product. -/
def Memory.aElem (m : Memory) (a off : Nat) (t : ElemTy) (pe i k : Nat) : XVal :=
  planeValue t pe (m.planeBits (planeKey a (off + k * 8 * planesOf t)) i (planesOf t))
def Memory.bElem (m : Memory) (a off : Nat) (t : ElemTy) (k j : Nat) : XVal :=
  decodeElem t (m.elem (planeKey a off) t (k * 64 + j))

/-- ExactChunkSum of row values and column values (R120). -/
def chunkSum (rm : Rnd) (xs ys : List XVal) : XVal := exactSum (rm == .rdn) (xs.zip ys) none

/-- The value of an exact sum of integers. -/
def XVal.toInt : XVal → Int
  | .fin s m e _ => (if s then -1 else 1) * (m * 2 ^ e.toNat : Nat)
  | _ => 0

/-- What a product reads: the store of A and of the accumulator, that of B, and the fields. -/
structure Product where
  arr : Nat
  arrB : Nat
  a : Nat
  b : Nat
  dst : Nat
  k : Nat
  t : ElemTy
  rm : Rnd
  prec : Nat
  deriving DecidableEq, Repr

/-- The sums of one chunk for every masked-in element, row by row. -/
def Memory.chunk (m : Memory) (p : Product) (rows cols : List Nat) (c : Nat) : List (Nat × Nat × XVal) :=
  let ks := (List.range (Nat.min 32 (p.k - 32 * c))).map (32 * c + ·)
  let pe := keptOf p.t p.prec
  let bs := cols.map fun j => (j, ks.map fun k => m.bElem p.arrB p.b p.t k j)
  rows.flatMap fun i =>
    let xs := ks.map fun k => m.aElem p.arr p.a p.t pe i k
    bs.map fun (j, ys) => (i, j, chunkSum p.rm xs ys)

/-- MMUL, one chunk (R177, R178). -/
def Memory.mulChunk (m : Memory) (p : Product) (rows cols : List Nat) (c : Nat) : Memory :=
  (m.chunk p rows cols c).foldl (fun m (i, j, v) =>
    if p.t == .i8 || p.t == .i4 then
      m.setAcc p.arr p.dst i j (((m.acc p.arr p.dst i j : Nat) + v.toInt) % 2 ^ 32).toNat
    else m.addAcc p.arr p.dst i j p.rm v) m

def chunksOf (k : Nat) : Nat := (k + 31) / 32

/-- The chunks of a product from `c` upward. -/
def Memory.mulFrom (m : Memory) (p : Product) (rows cols : List Nat) (c : Nat) : Memory :=
  ((List.range (chunksOf p.k)).drop c).foldl (fun m c => m.mulChunk p rows cols c) m

def partKey (bank i j : Nat) : Nat := bank * 4096 + i * 64 + j

/-- MMULB (R179): the exact sums into a partial bank. -/
def Memory.mulBank (m : Memory) (p : Product) (rows cols : List Nat) (part : NMap XVal) : NMap XVal :=
  (m.chunk p rows cols 0).foldl (fun t (i, j, v) => nset t (partKey p.dst i j) v) part

/-- MSCA (R180). -/
def Memory.scale (m : Memory) (arr arrB sca scb tile bank : Nat) (rm : Rnd) (rows cols : List Nat) (part : NMap XVal) :
    Memory :=
  rows.foldl (fun m i =>
    let x := decodeElem .bf16 (m.elem (planeKey arr sca) .bf16 i)
    cols.foldl (fun m j =>
      let y := decodeElem .bf16 (m.elem (planeKey arrB scb) .bf16 j)
      m.addAcc arr tile i j rm ((x.mul y).mul (nget (.zero false) part (partKey bank i j)))) m) m

/-- The masked-in elements of a tile, row by row (R181). -/
def Memory.tile (m : Memory) (a tile : Nat) (rows cols : List Nat) : List Nat :=
  rows.flatMap fun i => cols.map fun j => m.acc a tile i j

/-- MRECVT (R182): elements that both masks hold. -/
def Memory.addTile (m : Memory) (a tile : Nat) (rows cols : List Nat) (row col : Word) (data : List Nat) : Memory :=
  let at_ := (maskBits row).flatMap fun i => (maskBits col).map fun j => (i, j)
  (at_.zip data).foldl (fun m ((i, j), c) =>
    if rows.contains i && cols.contains j then m.addAcc a tile i j .rne (decodeElem .f32 c) else m) m

/-- The elements of MMOVE in order, each with the generator that its rounding uses. -/
structure Mover where
  m : Memory
  g : W32
  deriving DecidableEq, Repr

/-- MMOVE (R184, R186). -/
def Mover.move (x : Mover) (a tile : Nat) (t : ElemTy) (rm : Rnd) (nb : Bool) (form key stride : Nat)
    (rows cols : List Nat) : Mover :=
  rows.foldl (fun x i => cols.foldl (fun x j =>
    let v := decodeElem (if t == .i32 then .i32 else .f32) (x.m.acc a tile i j)
    let c := roundTo v t rm nb (rngDraw x.g)
    let m := match form with
      | 0 => x.m.setElem (key + i * stride) t j c
      | 1 => x.m.setPlane (key + j * 8 * planesOf t) i (planeCode t c)
      | _ => x.m.setElem key t (i * 64 + j) c
    { m := m, g := rngAfter rm x.g }) x) x

/-- MLOAD (R185, R186): `src` is the key of the source, `key` that of the destination. Form 2 goes by rows of the source.
(log 160, DESIGN CHOICE) -/
def Mover.load (x : Mover) (t to_ : ElemTy) (rm : Rnd) (nb : Bool) (form src stride key k : Nat) (rows cols : List Nat) :
    Mover :=
  if form == 1 then
    rows.foldl (fun x i => (List.range k).foldl (fun x q =>
      let c := roundTo (decodeElem t (x.m.elem (src + i * stride) t q)) to_ rm nb (rngDraw x.g)
      { m := x.m.setPlane (key + q * 8 * planesOf to_) i (planeCode to_ c), g := rngAfter rm x.g }) x) x
  else
    (List.range k).foldl (fun x q => cols.foldl (fun x j =>
      let c := roundTo (decodeElem t (x.m.elem (src + q * stride) t j)) to_ rm nb (rngDraw x.g)
      { m := x.m.setElem key to_ (q * 64 + j) c, g := rngAfter rm x.g }) x) x

/-- E8CVT (R187). -/
def Memory.e8cvt (m : Memory) (src key n : Nat) : Memory :=
  ((List.range n).map fun e => (m.read (src + e)).toNat).zipIdx.foldl (fun m (c, e) => m.setElem key .bf16 e (e8ToBf16 c)) m

end Sys2Proof.Machine
end

