-- ==== Sys2Proof/Machine/Array.lean ====
section
/-!
DEFINITION. The matrix instructions as threads execute them (07_matrix_instructions.md R159-R175): leases, posting a job,
reading the job table, the checks of an array command, and issuing one directly.
-/
namespace Sys2Proof

/-! ### Fields of a command (R174-R187) -/

def MOp.f (o : MOp) (lo n : Nat) : Nat := Machine.fld o.opnd lo n
def MOp.k (o : MOp) : Nat := o.f 48 12 + 1
/-- The handle of an enabled gate (R177). -/
def MOp.gate (o : MOp) : Option Nat := if o.imm.getLsbD 8 then some (o.imm.toNat % 256) else none

end Sys2Proof

namespace Sys2Proof.Machine

/-- Plane types of MMOVE's forms 1 and 2, and of MLOAD's destination (R184, R185). -/
def planeOut : ElemTy → Bool
  | .bf16 | .e4 | .e5 | .f4 | .t8 => true
  | _ => false
def loadTo (c : Nat) : Option ElemTy :=
  match c with
  | 0 => some .i8
  | 8 => some .bf16
  | 10 => some .e4
  | 11 => some .e5
  | 12 => some .f4
  | 13 => some .t8
  | 16 => some .i4
  | _ => none

def planeEnd : Nat := 0x200000

/-- The last set bit of a mask, as a count: 0 for an empty mask. -/
def maskEnd (w : Word) : Nat := (maskBits w).foldl (fun n i => Nat.max n (i + 1)) 0

/-- The checks of R169 on a command's effective fields, against its source's mask; a direct product's gate field is zero
(R177, R179). -/
def cmdOk (direct : Bool) (row col : Word) : Instr → Bool
  | .mmask o =>
    o.opnd.toNat < 8 &&
      (if o.opnd.getLsbD 2 then o.imm.toNat % 8 == 0 && o.imm.toNat + 16 ≤ 0x60000 else o.imm == 0)
  | .mprec o => o.opnd.toNat < 32 && o.imm == 0
  | .mzero o => o.opnd.toNat < 2 ^ 12 && o.imm == 0 && o.f 0 6 + o.f 6 6 + 1 ≤ 64
  | .mmul t _ o => product t o
  | .mmulb t o => product t o && o.f 42 6 ≤ 1 && o.k ≤ 32
  | .msca _ o =>
    o.opnd.toNat < 2 ^ 49 && o.imm == 0 && o.f 0 21 % 2 == 0 && o.f 21 21 % 2 == 0 && o.f 0 21 + 128 ≤ planeEnd &&
      o.f 21 21 + 128 ≤ planeEnd
  | .msendt o => o.opnd.toNat < 2 ^ 32 && o.imm == 0 && isSmall (o.f 0 18)
  | .mrecvt o => o.opnd.toNat < 2 ^ 32 && o.imm == 0 && o.f 0 18 == 0
  | .mmove t _ _ o =>
    let d := o.f 0 32
    let stride := o.f 32 16
    let r := maskEnd row
    let c := maskEnd col
    let some_ := 0 < r && 0 < c
    o.opnd.toNat < 2 ^ 56 && o.imm == 0 &&
      match o.f 54 2 with
      | 0 => d < 2 ^ 28 && d % elemAlign t == 0 && (!some_ || d + (r - 1) * stride + elemSpan t c ≤ 0x60000)
      | 1 =>
        planeOut t && stride == 0 && d < 2 ^ 21 && d % 8 == 0 && (!some_ || d + c * 8 * planesOf t ≤ planeEnd)
      | 2 =>
        planeOut t && stride == 0 && d < 2 ^ 21 && d % 8 == 0 &&
          (!some_ || d + elemSpan t ((r - 1) * 64 + c) ≤ planeEnd)
      | _ => false
  | .mload t _ _ o =>
    let sp := o.f 28 4
    let off := o.f 0 28
    let stride := o.f 32 16
    let lim := if sp == 0 then 0x60000 else 0x100000
    let d := o.imm.toNat % 2 ^ 21
    let r := maskEnd row
    let c := maskEnd col
    o.opnd.toNat < 2 ^ 62 && o.imm.toNat < 2 ^ 26 && (sp == 0 || sp == 3) && off % elemAlign t == 0 && d % 8 == 0 &&
      match loadTo (o.imm.toNat / 2 ^ 21) with
      | none => false
      | some to_ =>
        match o.f 60 2 with
        | 1 =>
          r == 0 || (d + o.k * 8 * planesOf to_ ≤ planeEnd && off + (r - 1) * stride + elemSpan t o.k ≤ lim)
        | 2 =>
          c == 0 || (d + elemSpan to_ ((o.k - 1) * 64 + c) ≤ planeEnd && off + (o.k - 1) * stride + elemSpan t c ≤ lim)
        | _ => false
  | .e8cvt o =>
    let sp := o.f 28 4
    let n := o.f 53 6 + 1
    o.opnd.toNat < 2 ^ 59 && o.imm == 0 && (sp == 0 || sp == 2) && o.f 32 21 % 2 == 0 &&
      o.f 32 21 + 2 * n ≤ planeEnd && o.f 0 28 + n ≤ (if sp == 0 then 0x60000 else planeEnd)
  | _ => false
where
  product (t : ElemTy) (o : MOp) : Bool :=
    o.opnd.toNat < 2 ^ 60 && o.imm.toNat < 2 ^ 9 && (!direct || o.imm == 0) && o.f 0 21 % 8 == 0 &&
      o.f 21 21 % 8 == 0 && o.f 0 21 + o.k * 8 * planesOf t ≤ planeEnd &&
      o.f 21 21 + elemSpan t (o.k * 64) ≤ planeEnd

/-- The array of a destination endpoint, and whether it takes tiles: in service, and its M-die not fenced (R181, R193). -/
def State.takesTiles (s : State) (a : Nat) : Bool := (s.arr a).mode != 2 && !s.fenced.contains (arrayDie a)

/-- A tile's destination, where it is one that R181 admits. -/
def State.tileOk (s : State) (part : Nat) : Instr → Bool
  | .msendt o => isSmall (o.f 0 18) && s.partOf (epCore (o.f 0 18)) == part
  | _ => true

/-- The destination array of a command that sends a tile. -/
def tileDest : Instr → Option Nat
  | .msendt o => some (coreArray (epCore (o.f 0 18)))
  | _ => none

/-! ### What keeps an array bound (R159, R191) -/

/-- Threads of the octet of an array. -/
def octetEps (a : Nat) : List Nat := (List.range 64).map fun i => coreEp (octetCore a (i / 8)) (i % 8)

/-- The units of the octet of an array, on their threads and parked on LAUNCH.w, with their endpoints: a parked unit keeps its
lease and its direct source (R161, R162). (log 162, DEDUCED) -/
def State.octetUnits (s : State) (a : Nat) : List (Nat × Thread) :=
  (octetEps a).map (fun e => (e, s.thr e)) ++
    (List.range 8).flatMap fun i => (s.core (octetCore a i)).park.map fun p => (p.ep, p.th)

def State.jobEntry (s : State) (a id : Nat) : JobEntry := nget {} (s.arr a).table id
def State.findJob (s : State) (a id : Nat) : Option Job := (s.arr a).jobs.find? (·.id == id)
def State.updJob (s : State) (a id : Nat) (f : Job → Job) : State :=
  s.updArr a fun x => { x with jobs := mapIf (·.id == id) f x.jobs }

/-- The arrays on which a job of an array acts (R191, R192). -/
def Job.arrays (j : Job) (a : Nat) : List Nat :=
  if j.pair then
    match j.sole with
    | none => [a, arrayMate a]
    | some b => [b]
  else [a]

/-- The even partner's pair jobs that have begun, or hold its grant, act on this odd array too. (log 66, DEDUCED) -/
def State.pairWork (s : State) (a c : Nat) : Bool :=
  a % 2 == 1 && (s.arr (a - 1)).jobs.any fun j =>
    j.ctx == c && (j.arrays (a - 1)).contains a && ((s.jobEntry (a - 1) j.id).state != 1 || (s.arr a).loan == some j.id)

/-- Work of a context that keeps an array bound; issued commands are such work until they have completed.
(log 150, DESIGN CHOICE) -/
def State.arrWork (s : State) (a c : Nat) : Bool :=
  let x := s.arr a
  x.jobs.any (·.ctx == c) || x.cmds.any (·.ctx == c) || !x.slots.isEmpty || s.pairWork a c ||
    (s.octetUnits a).any fun (e, t) => t.lease != .off && s.ctxOf (epCore e) == c

/-- The context that the array is bound to, none when no work of it is left. -/
def State.arrBound (s : State) (a : Nat) : Option Nat :=
  if (s.arr a).bound then (s.arr a).ctx.filter fun c => s.arrWork a c else none

/-- New work finds the array unbound when no earlier work of its context was left: it binds again. -/
def State.unbindArr (s : State) (a : Nat) : State :=
  if (s.arrBound a).isNone then s.updArr a fun x => { x with bound := false } else s

/-! ### Leases (R161, R313) -/

/-- A request of a class enters arbitration, behind those already there; one that re-enters it is as old as its return.
(log 151, DESIGN CHOICE) -/
def State.requestLease (s : State) (ep : Nat) (cls : Bool) : State :=
  let s := s.unbindArr (coreArray (epCore ep))
  { s with ids := s.ids + 1 }.updThr ep fun t => { t with lease := .waiting cls, leaseCls := cls, leaseSeq := s.ids }

/-- MLEASE. -/
def execMlease (cls : Bool) (s : State) : Out :=
  let lead := s.leaderOf s.cur
  let s := match (s.thr lead).lease with
    | .off => s.requestLease lead cls
    | .waiting _ => s.updThr lead fun t => { t with lease := .waiting cls, leaseCls := cls }
    | .held => s.updThr lead fun t => { t with leaseCls := cls }
  .next (s.done 16)

/-- MREL: a gang's leader gives the lease up for all members. (log 71, DEDUCED) -/
def execMrel (s : State) : Out :=
  let lead := s.leaderOf s.cur
  .next ((if lead == s.cur then s.upd fun t => { t with lease := .off } else s).done 16)

/-! ### Direct commands (R168, R169) -/

/-- The command with its effective operand and immediate. -/
def State.effective (s : State) (o : MOp) : MOp :=
  { off := .zero, ioff := .zero, imm := o.imm + (s.raw 0 o.ioff).setWidth 32, opnd := o.opnd + s.raw 0 o.off }

def stepRngs : Nat → W32 → W32
  | 0, g => g
  | n + 1, g => stepRngs n (stepRng g)

/-- How many elements a command rounds under .rsr (R186). -/
def rsrCount (row col : Word) : Instr → Nat
  | .mmove _ .rsr _ _ => (maskBits row).length * (maskBits col).length
  | .mload _ .rsr _ o => o.k * (if o.f 60 2 == 1 then (maskBits row).length else (maskBits col).length)
  | _ => 0

/-- What a command makes of its source's mask and precision, as far as the thread knows it at issue (R162, R174, R175).
(log 131, DEDUCED) -/
def MSrc.after (x : MSrc) (r : Regs) : Instr → MSrc
  | .mmask o =>
    if o.opnd.getLsbD 2 then x
    else { x with row := r.maRow.toArray.getD (o.f 0 2) 0, col := r.maCol.toArray.getD (o.f 0 2) 0 }
  | .mprec o => { x with prec := o.f 0 5 }
  | _ => x

/-- (log 131, DEDUCED) -/
def readsMask : Instr → Bool
  | .mmask o => o.opnd.getLsbD 2
  | _ => false

/-- Commands of one source stand in stream order, members of a gang by position (R160, R313). -/
def Cmd.before (x y : Cmd) : Bool :=
  x.lead == y.lead && x.uid == y.uid && (x.idx < y.idx || (x.idx == y.idx && corePos (epCore x.ep) < corePos (epCore y.ep)))

def insertCmd (c : Cmd) : List Cmd → List Cmd
  | [] => [c]
  | x :: xs => if c.before x then c :: x :: xs else x :: insertCmd c xs

/-- The members whose commands share a lease. (log 71, DEDUCED) -/
def State.leaseMembers (s : State) (lead : Nat) : List Nat :=
  match (s.thr lead).gang with
  | none => [lead]
  | some g => gangMembers g lead

/-- Issue a checked command under a held lease (R161, R165, R186); the launch counts jobs and no commands (R45).
(log 71, DEDUCED; log 131, DEDUCED) -/
def State.issueCmd (s : State) (a lead : Nat) (i : Instr) : State :=
  let t := s.me
  let l := s.thr lead
  let u := t.unit
  let c : Cmd :=
    { ep := s.cur, lead := lead, uid := u.uid, ctx := s.myCtx, launch := u.launch, det := u.det, instr := i,
      rng := t.regs.rng, row := t.msrc.row, col := t.msrc.col, prec := t.msrc.prec, idx := t.leaseCmds, cls := l.leaseCls,
      seq := l.leaseSeq }
  let n := rsrCount t.msrc.row t.msrc.col i
  let s := (s.occUp 3).updArr a fun x => { x with cmds := insertCmd c x.cmds }
  let s := s.upd fun t =>
    { t with msrc := t.msrc.after t.regs i, maskPending := readsMask i, leaseCmds := t.leaseCmds + 1,
             regs := { t.regs with rng := stepRngs n t.regs.rng } }
  let s := s.updThr lead fun t => { t with leaseLast := s.now }
  let s := if (s.leaseMembers lead).all fun m => l.leaseBase + 16 ≤ (s.thr m).leaseCmds then s.requestLease lead l.leaseCls
    else s
  s.done 16

/-- A direct command, with its effective fields in place (R161, R169). -/
def State.command (s : State) (i : Instr) : State :=
  let a := coreArray s.curCore
  let t := s.me
  let lead := s.leaderOf s.cur
  let l := s.thr lead
  if t.maskPending then s
  else if !cmdOk true t.msrc.row t.msrc.col i || !s.tileOk s.myPart i then s.raise 0x0F 0
  else if (s.arr a).mode == 2 || (tileDest i).any (fun d => !s.takesTiles d) then s.raise 0x30 0
  else
    match l.lease with
    | .off => s.requestLease lead (s.core (epCore lead)).jobCls
    | .waiting _ => s
    | .held => if s.occFull 3 || l.leaseBase + 16 ≤ t.leaseCmds then s else s.issueCmd a lead i

def execMmask (o : MOp) (s : State) : Out := .next (s.command (.mmask (s.effective o)))
def execMprec (o : MOp) (s : State) : Out := .next (s.command (.mprec (s.effective o)))
def execMzero (o : MOp) (s : State) : Out := .next (s.command (.mzero (s.effective o)))
def execMmul (t : ElemTy) (rm : Rnd) (o : MOp) (s : State) : Out := .next (s.command (.mmul t rm (s.effective o)))
def execMmulb (t : ElemTy) (o : MOp) (s : State) : Out := .next (s.command (.mmulb t (s.effective o)))
def execMsca (rm : Rnd) (o : MOp) (s : State) : Out := .next (s.command (.msca rm (s.effective o)))
def execMsendt (o : MOp) (s : State) : Out := .next (s.command (.msendt (s.effective o)))
def execMrecvt (o : MOp) (s : State) : Out := .next (s.command (.mrecvt (s.effective o)))
def execMmove (t : ElemTy) (rm : Rnd) (nan : Bool) (o : MOp) (s : State) : Out :=
  .next (s.command (.mmove t rm nan (s.effective o)))
def execMload (t : ElemTy) (rm : Rnd) (nan : Bool) (o : MOp) (s : State) : Out :=
  .next (s.command (.mload t rm nan (s.effective o)))
def execE8cvt (o : MOp) (s : State) : Out := .next (s.command (.e8cvt (s.effective o)))

/-! ### Jobs (R163, R170-R173, R191) -/

/-- The next job identifier whose entry is not queued, running or stopped. -/
def Arr.nextId (x : Arr) : Nat :=
  match (List.range 256).find? fun k =>
      let st := (nget {} x.table ((x.next + k) % 256)).state
      st != 1 && st != 2 && st != 3 with
  | none => x.next
  | some k => (x.next + k) % 256

/-- The queue has no room for the core: 16 entries, and the core's share (R52, R341). -/
def State.queueFull (s : State) (a core : Nat) : Bool :=
  let js := (s.arr a).jobs
  let k := s.core core
  16 ≤ js.length || (k.share != 0 && k.share.toNat ≤ (js.filter fun j => epCore j.ep == core).length)

/-- MJOB. A reserved bit of the effective operand is a failed check of R171, and a pair job of an odd octet is not eligible.
(log 70, DEDUCED; log 152, DESIGN CHOICE; log 153, DEDUCED) -/
def execMjob (dst : Dst) (off : Src) (opnd : Word) (s : State) : Out :=
  let e := opnd + s.raw 0 off
  let a := coreArray s.curCore
  let x := s.arr a
  let chain := fld e 0 32
  let count := fld e 32 8 + 1
  let cn := cnOf (fld e 40 4)
  let tag := e.getLsbD 44
  let pair := e.getLsbD 46
  .next
    (if 2 ^ 47 ≤ e.toNat || 2 ^ 28 ≤ chain || chain % 16 != 0 || 0x60000 < chain + 16 * count then s.raise 0x0F 0
    else if x.mode == 2 then s.finish dst 0x102 16
    else if pair && (a % 2 != 0 || x.mode != 0 || (s.arr (arrayMate a)).mode != 0) then s.finish dst 0x101 16
    else if s.queueFull a s.curCore || s.occFull 3 || (tag && s.cnFull s.curCore cn) then s
    else
      let id := x.nextId
      let u := s.me.unit
      let j : Job :=
        { id := id, seq := s.ids, ep := s.cur, uid := u.uid, ctx := s.myCtx, launch := u.launch, det := u.det,
          chain := chain, count := count, cn := if tag then some cn.val else none, cls := e.getLsbD 45, pair := pair,
          rng := s.me.regs.rng }
      let s := ({ s.unbindArr a with ids := s.ids + 1 }.occUp 3).countAck s.myPart u.launch u.det
      let s := if tag then s.cnUp s.curCore cn else s
      (s.updArr a fun x =>
        { x with jobs := x.jobs ++ [j], next := (id + 1) % 256, table := nset x.table id { state := 1 } }).finish dst
          (BitVec.ofNat 64 id) 16)

/-- The word of R172. -/
def JobEntry.word (e : JobEntry) : Word :=
  BitVec.ofNat 64 (e.chunk % 2 ^ 16 * 2 ^ 32 + e.record % 256 * 2 ^ 16 + e.err % 256 * 2 ^ 8 + e.state % 8)

/-- MTEST. Pushing state 4 is an acquire (R197). (log 152, DESIGN CHOICE) -/
def execMtest (dst : Dst) (off : Src) (opnd : Word) (s : State) : Out :=
  let e := opnd + s.raw 0 off
  let x := nget ({} : JobEntry) (s.arr (coreArray s.curCore)).table (fld e 0 8)
  .next
    (if 2 ^ 9 ≤ e.toNat then s.raise 0x0F 0
    else if e.getLsbD 8 && (x.state == 1 || x.state == 2) then s
    else (if x.state == 4 then s.raiseFloor s.cur x.floor else s).finish dst x.word 16)

/-- The words of R173; the next job identifier is the plain sequence, busy identifiers not yet skipped.
(log 163, DESIGN CHOICE) -/
def State.mstat (s : State) (a : Nat) (sel : Nat) : Word :=
  let x := s.arr a
  match sel with
  | 0 =>
    BitVec.ofNat 64 (Nat.min x.since 0xFFFF * 2 ^ 48 + Nat.min x.fails 255 * 2 ^ 32 + x.quads.toNat * 2 ^ 16 +
      x.mode * 2 ^ 8 + if x.repl then 1 else 0)
  | 1 =>
    let pair := (x.loan.any fun id => (s.arr (a - 1)).run == some (.job id)) ||
      x.run.any fun r => x.jobs.any fun j => r == .job j.id && j.pair
    let lease := match x.run with
      | some (.lease ep uid) =>
        let e := (s.unitEp ep uid).getD ep
        if (s.unitThr ep uid).any (·.lease == .held) then corePos (epCore e) * 2 ^ 9 + epThread e * 2 ^ 6 + 2 ^ 5 else 0
      | _ => 0
    BitVec.ofNat 64 (x.next * 2 ^ 24 + x.jobs.length * 2 ^ 16 + lease + if pair then 16 else 0)
  | _ => BitVec.ofNat 64 x.interval

/-- MSTAT. -/
def execMstat (dst : Dst) (sel : BitVec 2) (s : State) : Out :=
  .next (if sel == 3 then s.raise 0x0F 0 else s.finish dst (s.mstat (coreArray s.curCore) sel.toNat) 16)

end Sys2Proof.Machine
end

