-- ==== Sys2Proof/Machine/ArrayWork.lean ====
section
/-!
DEFINITION. What the arrays do (07_matrix_instructions.md R158-R167, R174-R193; R53, R312): binding, arbitration and grants,
commands and job records, gates, suspension and stop, tiles between arrays, and the self-test.
-/
namespace Sys2Proof.Machine

def State.updEntry (s : State) (a id : Nat) (f : JobEntry → JobEntry) : State :=
  s.updArr a fun x => { x with table := nset x.table id (f (nget {} x.table id)) }

/-! ### What the array runs and is bound to (R159, R160, R191) -/

/-- The commands of a source: a unit, or a gang, whose members are of one unit. -/
def sourceCmds (cs : List Cmd) (uid : Nat) : List Cmd := cs.filter (·.uid == uid)

/-- The unit holds the array's lease, on its thread or parked. -/
def State.holds (s : State) (ep uid : Nat) : Bool := (s.unitThr ep uid).any (·.lease == .held)

/-- The odd array has granted itself to a pair job of its even partner (R191). -/
def State.lent (s : State) (a : Nat) : Bool := (s.arr a).loan.isSome

/-- The array stands between two commands (R160): no gated product of a job that runs on it is under way. -/
def State.atBoundary (s : State) (a : Nat) : Bool :=
  (match (s.arr a).run with
    | some (.job id) => (s.findJob a id).all fun j => j.command.isNone
    | _ => true) &&
  (s.arr a).loan.all fun id => (s.findJob (a - 1) id).all fun j => j.command.isNone

/-- A member's command runs when every member has issued what stands before it (R313). -/
def State.cmdTurn (s : State) (c : Cmd) : Bool :=
  (s.leaseMembers c.lead).all fun m =>
    m == c.ep || !s.unitHere m c.uid ||
      (if corePos (epCore m) < corePos (epCore c.ep) then c.idx + 1 ≤ (s.thr m).leaseCmds else c.idx ≤ (s.thr m).leaseCmds)

/-- The array is granted: to a job, or to a lease that is held or has a command left that can run. A command that waits for
another member's, which needs a lease of its own first, keeps no array (R313). -/
def State.arrBusy (s : State) (a : Nat) : Bool :=
  s.lent a ||
    match (s.arr a).run with
    | none => false
    | some (.job _) => true
    | some (.lease ep uid) => s.holds ep uid || (sourceCmds (s.arr a).cmds uid).head?.any s.cmdTurn

/-- An unbound array binds. Where the context differs from the last one, the stores are zeroed (R158, R159) and the entries
of jobs that have ended are idle, as never posted since (R163); they stay for the same one (R272). (log 65, DEDUCED) -/
def State.bindArr (s : State) (a ctx : Nat) : State :=
  let s := if (s.arr a).ctx == some ctx then s
    else { s with
      mem := (s.mem.zero (planeKey a 0) (planeKey a 0x200000)).zero (accKey a 0) (accKey a 0x100000) }.updArr a fun x =>
        { x with part := [], table := x.table.filter fun (_, e) => e.state == 1 || e.state == 2 || e.state == 3 }
  s.updArr a fun x => { x with ctx := some ctx, bound := true }

/-- Work of a context arrives at an array that is unbound or bound to it. -/
def State.bindFor (s : State) (a ctx : Nat) : State := if (s.arrBound a).isNone then s.bindArr a ctx else s

/-- A self-test is due: the array stands at a command boundary, and the test comes before the next command (R192).
(log 72, DEDUCED) -/
def State.testDue (s : State) (a : Nat) : Bool :=
  (s.arr a).interval != 0 && (s.arr a).interval ≤ (s.arr a).untested && s.atBoundary a

/-! ### Arbitration (R53, R160, R313) -/

structure Offer where
  pos : Nat
  seq : Nat
  cls : Bool
  ctx : Nat
  what : Running
  deriving DecidableEq, Repr

/-- A receive slot holds a tile with a tag, on an array that is in service: no MRECVT runs on another (R181). -/
def Arr.hasTile (x : Arr) (tag : Nat) : Bool := x.mode != 2 && x.slots.any (·.tag == tag)

/-- The head command of a source does not wait for a tile. -/
def Arr.cmdReady (x : Arr) (uid : Nat) : Bool :=
  match sourceCmds x.cmds uid with
  | [] => true
  | c :: _ =>
    match c.instr with
    | .mrecvt o => x.hasTile (o.f 24 8)
    | _ => true

/-- Jobs that are queued, or suspended and able to go on; one that re-enters arbitration has the age of its posting.
(log 151, DESIGN CHOICE) -/
def State.jobOffers (s : State) (a : Nat) : List Offer :=
  let x := s.arr a
  (x.jobs.filter fun j =>
    x.run != some (.job j.id) && (nget {} x.table j.id).record < j.count &&
      match j.susp with
      | .no => true
      | .recv tag => x.hasTile tag
      | .gate => false).map fun j => ⟨corePos (epCore j.ep), j.seq, j.cls, j.ctx, .job j.id⟩

/-- Requests of the octet's units, and commands left by units that have no lease any more. -/
def State.leaseOffers (s : State) (a : Nat) : List Offer :=
  let x := s.arr a
  let asks := (s.octetUnits a).filterMap fun (e, t) =>
    match t.lease with
    | .waiting c =>
      if x.cmdReady t.unit.uid then
        some ⟨corePos (epCore e), t.leaseSeq, c, s.ctxOf (epCore e), .lease e t.unit.uid⟩
      else none
    | _ => none
  let left := x.cmds.filterMap fun c =>
    if !(s.unitThr c.lead c.uid).any (·.lease != .off) && x.cmdReady c.uid &&
        (sourceCmds x.cmds c.uid).head?.any s.cmdTurn then
      some ⟨corePos (epCore c.lead), c.seq, c.cls, c.ctx, .lease c.lead c.uid⟩
    else none
  asks ++ left

/-- The oldest offer of a core. -/
def oldest : List Offer → Option Offer
  | [] => none
  | o :: os =>
    match oldest os with
    | none => some o
    | some p => if o.seq ≤ p.seq then some o else some p

/-- One offer for each position that has any. -/
def State.coreOffers (s : State) (a : Nat) (ok : Nat → Bool) : List Offer :=
  let all := (s.jobOffers a ++ s.leaseOffers a).filter fun o => ok o.ctx
  (List.range 8).filterMap fun p => oldest (all.filter (·.pos == p))

/-- The grant rule of R53: the class, then the first position from that class's own turn upward (R312). -/
def State.chooseOffer (s : State) (a : Nat) (os : List Offer) : Option Offer :=
  let x := s.arr a
  let c1 := os.any (·.cls)
  let c0 := os.any (!·.cls)
  let want := c1 && (!c0 || 8 ≤ x.streak)
  let os := os.filter (·.cls == want)
  ((List.range 8).filterMap fun k => os.find? fun o => o.pos == ((if want then x.turn1 else x.turn) + k) % 8).head?

/-- The offer is granted. -/
def State.grant (s : State) (a : Nat) (o : Offer) (c1 : Bool) : State :=
  let src := arraySrc a
  let s := s.updArr a fun x =>
    { x with run := some o.what, offered := none, turn := if o.cls then x.turn else (o.pos + 1) % 8,
             turn1 := if o.cls then (o.pos + 1) % 8 else x.turn1,
             streak := if !o.cls && c1 then x.streak + 1 else 0, chunkAt := s.now }
  match o.what with
  | .job id =>
    let first := (s.jobEntry a id).state == 1
    let s := (s.updEntry a id fun e => { e with state := 2 }).updJob a id fun j => { j with susp := .no }
    if first then s.emit src (arrayDie a) o.ctx 0x0C0 (id + o.pos * 256) else s
  | .lease ep uid =>
    match s.unitThr ep uid with
    | some t =>
      match t.lease with
      | .waiting _ =>
        let base := if s.unitHere ep uid then
            (s.leaseMembers ep).foldl (fun n m => Nat.min n (s.thr m).leaseCmds) t.leaseCmds
          else t.leaseCmds
        let s := s.updUnit ep uid fun t => { t with lease := .held, leaseBase := base, leaseLast := s.now }
        s.emit src (arrayDie a) o.ctx 0x0C4 (o.pos + epThread ep * 8)
      | _ => s
    | none => s

/-- The array agrees to a grant of a pair job: it stands at a command boundary and is unbound or bound to the context. -/
def State.agrees (s : State) (b ctx : Nat) : Bool :=
  !s.isHeld (arraySrc b) && !s.testDue b && !s.lent b && s.atBoundary b && (s.arrBound b).all (· == ctx)

/-- The odd array grants itself to a pair job, ahead of its own arbitration and between the commands of its own grant
(R191). (log 66, DEDUCED) -/
def State.lend (s : State) (b ctx id : Nat) : State := (s.bindFor b ctx).updArr b fun x => { x with loan := some id }

/-- The job of an offer acts on the odd array of this even one. -/
def State.pairOffer (s : State) (a : Nat) (o : Offer) : Option Nat :=
  match o.what with
  | .job id => if (s.findJob a id).any fun j => (j.arrays a).contains (arrayMate a) then some id else none
  | .lease .. => none

/-- The odd array's share in an offer's grant: the state where it has granted it too, none where it has not yet. -/
def State.withMate (s : State) (a : Nat) (o : Offer) : Option State :=
  match s.pairOffer a o with
  | none => some s
  | some id =>
    if (s.arr (arrayMate a)).loan == some id then some s
    else if s.agrees (arrayMate a) o.ctx then some (s.lend (arrayMate a) o.ctx id)
    else none

/-- The offer that the array looks at first: a pair job's grant that its partner has not taken up, again at each boundary,
else the one of the grant rule. -/
def State.firstOffer (s : State) (a : Nat) (os : List Offer) : Option Offer :=
  match ((s.arr a).offered.bind fun id => os.find? (·.what == .job id)) with
  | some o => some o
  | none => s.chooseOffer a os

/-- The array grants an offer; while the partner does not grant a pair job, it grants other cores' work (R191, R211).
(log 66, DEDUCED) -/
def State.arbitrate (s : State) (a : Nat) (os : List Offer) (o : Offer) : State :=
  let c1 := os.any (·.cls)
  match s.withMate a o with
  | some s => s.grant a o c1
  | none =>
    let s := s.updArr a fun x => { x with offered := s.pairOffer a o }
    match s.chooseOffer a (os.filter fun p => p.pos != o.pos && (s.pairOffer a p).isNone) with
    | none => s
    | some p => s.grant a p c1

/-- The pair job that the even partner offers and to which this odd array agrees. -/
def State.wanted (s : State) (b : Nat) : Option (Nat × Nat) :=
  if b % 2 == 0 then none
  else
    match (s.arr (b - 1)).offered.bind (s.findJob (b - 1)) with
    | none => none
    | some j => if (j.arrays (b - 1)).contains b && s.agrees b j.ctx then some (j.ctx, j.id) else none

/-- ARRAY_BIND (R159): the context of the work that is granted first. -/
def execArrayBind (a : Nat) (s : State) : Out :=
  .next
    (if s.isHeld (arraySrc a) || s.lent a || (s.arrBound a).isSome then s
    else match s.wanted a, s.chooseOffer a (s.coreOffers a fun _ => true) with
      | some (c, id), _ => s.lend a c id
      | none, none => s
      | none, some o => s.bindArr a o.ctx)

/-- ARRAY_GRANT (R53, R160). -/
def execArrayGrant (a : Nat) (s : State) : Out :=
  .next
    (match s.wanted a with
    | some (c, id) => s.lend a c id
    | none =>
      if s.isHeld (arraySrc a) || s.arrBusy a || s.testDue a then s
      else match s.arrBound a with
        | none => s
        | some c =>
          let os := s.coreOffers a (· == c)
          match s.firstOffer a os with
          | none => s
          | some o => s.arbitrate a os o)

/-! ### Effects of commands (R174-R187, R191) -/

/-- What a command works on: its array, the arrays that its products and its zeroing act on, the core whose space 0 it
reads, its source. -/
structure Site where
  a : Nat
  arrays : List Nat
  core : Nat
  src : MSrc
  rng : W32
  deriving DecidableEq, Repr

def Site.rows (x : Site) : List Nat := maskBits x.src.row
def Site.cols (x : Site) : List Nat := maskBits x.src.col
/-- The arrays on which a command acts (R191). -/
def Site.acts (x : Site) : Instr → List Nat
  | .mmask _ | .mprec _ | .mzero _ | .mmul _ _ _ | .mmulb _ _ | .msca _ _ => x.arrays
  | _ => [x.a]

def Site.product (x : Site) (arr : Nat) (t : ElemTy) (rm : Rnd) (o : MOp) : Product :=
  { arr := arr, arrB := x.a, a := o.f 0 21, b := o.f 21 21, dst := o.f 42 6, k := o.k, t := t, rm := rm, prec := x.src.prec }

/-- A product from chunk `c` upward, or that chunk alone. -/
def State.runProduct (s : State) (x : Site) (t : ElemTy) (rm : Rnd) (o : MOp) (c : Nat) (one : Bool) : State :=
  x.arrays.foldl (fun s arr =>
    let p := x.product arr t rm o
    { s with mem := if one then s.mem.mulChunk p x.rows x.cols c else s.mem.mulFrom p x.rows x.cols c }) s

def State.runBank (s : State) (x : Site) (t : ElemTy) (o : MOp) : State :=
  x.arrays.foldl (fun s arr =>
    s.updArr arr fun y => { y with part := s.mem.mulBank (x.product arr t .rne o) x.rows x.cols y.part }) s

/-- The floors of scratchpad bytes that an MMOVE has overwritten are gone (R220). -/
def State.forget (s : State) (key n : Nat) : State := { s with relFloors := dropFloors s.relFloors key n }

/-- A command other than MSENDT and MRECVT takes effect; the site's source and generator afterwards. -/
def State.runCmd (s : State) (x : Site) : Instr → Site × State
  | .mmask o =>
    if o.opnd.getLsbD 2 then
      let w (k : Nat) : Word := s.mem.readWord (padKey x.core (o.imm.toNat + k))
      ({ x with src := { x.src with row := w 0, col := w 8 } }, s)
    else (x, s)
  | .mprec o => ({ x with src := { x.src with prec := o.f 0 5 } }, s)
  | .mzero o =>
    (x, x.arrays.foldl (fun s arr => { s with mem := s.mem.zeroTiles arr (o.f 0 6) (o.f 6 6 + 1) x.rows x.cols }) s)
  | .mmul t rm o => (x, s.runProduct x t rm o 0 false)
  | .mmulb t o => (x, s.runBank x t o)
  | .msca rm o =>
    (x, x.arrays.foldl (fun s arr =>
      { s with mem := s.mem.scale arr x.a (o.f 0 21) (o.f 21 21) (o.f 42 6) (o.f 48 1) rm x.rows x.cols (s.arr arr).part }) s)
  | .mmove t rm nb o =>
    let form := o.f 54 2
    let key := if form == 0 then padKey x.core (o.f 0 28) else planeKey x.a (o.f 0 21)
    let r := (Mover.mk s.mem x.rng).move x.a (o.f 48 6) t rm nb form key (o.f 32 16) x.rows x.cols
    let s := { s with mem := r.m }
    let s := if form == 0 then
        x.rows.foldl (fun s i => x.cols.foldl (fun s j =>
          s.forget (key + i * o.f 32 16 + elemSpan t (j + 1) - elemSpan t 1) (elemSpan t 1)) s) s
      else s
    ({ x with rng := r.g }, s)
  | .mload t rm nb o =>
    let src := if o.f 28 4 == 0 then padKey x.core (o.f 0 28) else accKey x.a (o.f 0 28)
    let r := (Mover.mk s.mem x.rng).load t ((loadTo (o.imm.toNat / 2 ^ 21)).getD .i8) rm nb (o.f 60 2) src (o.f 32 16)
      (planeKey x.a (o.imm.toNat % 2 ^ 21)) o.k x.rows x.cols
    ({ x with rng := r.g }, { s with mem := r.m })
  | .e8cvt o =>
    let src := if o.f 28 4 == 0 then padKey x.core (o.f 0 28) else planeKey x.a (o.f 0 28)
    (x, { s with mem := s.mem.e8cvt src (planeKey x.a (o.f 32 21)) (o.f 53 6 + 1) })
  | _ => (x, s)

/-- MRECVT takes the oldest slot with its tag (R182); none where no slot matches. -/
def State.receive (s : State) (x : Site) (o : MOp) : Option State :=
  if !(s.arr x.a).hasTile (o.f 24 8) then none
  else
    match takeFirst (·.tag == o.f 24 8) (s.arr x.a).slots with
    | none => none
    | some (t, rest) =>
      some ({ s with mem := s.mem.addTile x.a (o.f 18 6) x.rows x.cols t.row t.col t.data }.updArr x.a fun y =>
        { y with slots := rest })

/-- MSENDT: the tile goes on its way, with who is to be told when it arrives (R181). -/
def State.sendTile (s : State) (x : Site) (o : MOp) (ep uid launch ctx : Nat) (det : Bool)
    (job : Option (Nat × Nat)) : State :=
  let d := o.f 0 18
  s.post
    { kind := .tile (coreArray (epCore d)) ep (o.f 24 8) x.src.row x.src.col (s.mem.tile x.a (o.f 18 6) x.rows x.cols) job
      hdr := mkHdr 0 ctx (arraySrc x.a) launch 2 0 det, dest := d, src := arraySrc x.a,
      floor := s.carried (arraySrc x.a) (arrayDie x.a), ack := some (ep, uid, launch, det) }

/-- A command has been executed on an array (R173, R192). -/
def State.countCmd (s : State) (a : Nat) : State :=
  s.updArr a fun x => { x with since := Nat.min (x.since + 1) 0xFFFF, untested := x.untested + 1, chunkAt := s.now }

def State.countCmds (s : State) (as_ : List Nat) : State := as_.foldl State.countCmd s

/-- The completion of what an array did for a unit: TL falls (R165). -/
def State.tlDown (s : State) (a ep uid : Nat) : State := s.occDown ep uid 3 (s.carried (arraySrc a) (arrayDie a))

/-! ### Jobs (R164, R169, R190) -/

/-- A fault message of an array (R432): cause 0x21 or 0x22. (log 69, DEDUCED) -/
def State.arrayFault (s : State) (a cause ctx ep launch : Nat) (g2 g3 g4 : Nat) : State :=
  s.faultMsg ctx (arrayDie a) (arraySrc a) (arraySrc a)
    { cause := cause, issuer := ep, launch := launch, g2 := BitVec.ofNat 64 g2, g3 := BitVec.ofNat 64 g3,
      g4 := BitVec.ofNat 64 g4 }

/-- (log 69, DEDUCED) -/
def arrayPlace (a : Nat) : Nat := arrayDie a + a % 72 * 256

/-- A job releases the arrays that it runs on. -/
def State.leaveArrays (s : State) (a id : Nat) : State :=
  let b := arrayMate a
  let s := s.updArr a fun x => { x with run := if x.run == some (.job id) then none else x.run }
  if a % 2 == 0 && (s.arr b).loan == some id then s.updArr b fun x => { x with loan := none } else s

/-- The error code that a job ends with: a pair job that one array has run alone is in error (R192). -/
def Job.endCode (j : Job) (err : Nat) : Nat := if err == 0 && j.sole.isSome then 5 else err

/-- The end slate of a job, which stands in the trace before the command that ends it takes effect (R286). -/
def State.tellEnd (s : State) (a : Nat) (j : Job) (err : Nat) : State :=
  let err := j.endCode err
  if j.told == some err then s
  else (s.emit (arraySrc a) (arrayDie a) j.ctx 0x0C1 (j.id + err * 256)).updJob a j.id fun j => { j with told := some err }

/-- A job is done, or in error: it leaves the queue, and its counts fall (R45, R163, R165, R169). -/
def State.endJob (s : State) (a : Nat) (j : Job) (err : Nat) : State :=
  let s := (s.tellEnd a j err).leaveArrays a j.id
  let err := j.endCode err
  let f := s.carried (arraySrc a) (arrayDie a)
  let s := s.updArr a fun x => { x with jobs := x.jobs.filter (·.id != j.id) }
  let rec_ := (s.jobEntry a j.id).record
  let s := s.updEntry a j.id fun e => { e with state := if err == 0 then 4 else 5, err := err, floor := f }
  let s := if err == 0 then s else s.arrayFault a 0x21 j.ctx j.ep j.launch (j.id + err * 256) rec_ (arrayPlace a)
  let s := (s.tlDown a j.ep j.uid).dropAck (s.partOf (epCore j.ep)) j.launch j.det
  match j.cn with
  | none => s
  | some x => s.cnDown (epCore j.ep) (cnOf x) f false

/-- (log 67, DEDUCED) -/
def State.endJobs (s : State) (a err : Nat) : List Job → State
  | [] => s
  | j :: js => State.endJobs (s.endJob a j err) a err js

/-- A record's fields dst, sa and sb as R164 wants them: the record with them so, and whether they stood so. -/
def bareRecord (bs : List Byte) : List Byte × Bool :=
  let r := Raw128.unpack (BitVec.ofNat 128 (leNat bs))
  (leBytes 16 (BitVec.ofNat 128 (leNat bs / 2 ^ 28 * 2 ^ 28 + 0xCC * 2 ^ 20 + leNat bs % 2 ^ 16)).toNat,
    r.dst == 0 && r.sa == 0xC && r.sb == 0xC)

/-- The instruction of a record, or its error code (R164, R169); the record's bytes are those that memory holds when the array
reaches it. (log 164, DESIGN CHOICE) -/
def State.jobRecord (s : State) (a : Nat) (j : Job) : Except Nat Instr :=
  let core := epCore j.ep
  let at_ := j.chain + 16 * (s.jobEntry a j.id).record
  let (bs, bare) := bareRecord (s.mem.readBytes 16 (padKey core at_))
  match decodeBytes bs with
  | .error _ => .error 1
  | .ok (i, rest) =>
    let plain : Except Nat Instr :=
      if !rest.isEmpty then .error 1
      else if !bare then .error 2
      else if !cmdOk false j.src.row j.src.col i || !s.tileOk (s.partOf core) i then .error 3
      else .ok i
    let product (o : MOp) : Except Nat Instr :=
      match plain with
      | .error e => .error e
      | .ok i =>
        match o.gate with
        | none => .ok i
        | some h => if (s.handle (coreCl core * 256 + h)).kind == .barrier then .ok i else .error 4
    match i with
    | .mmask o =>
      match plain with
      | .error e => if e == 1 then .error 1 else if o.opnd.getLsbD 2 then .error e else .error 2
      | .ok i => if o.opnd.getLsbD 2 then .ok i else .error 2
    | .mprec _ | .mzero _ | .msca _ _ | .mrecvt _ | .mmove .. | .mload .. | .e8cvt _ => plain
    | .msendt o =>
      match plain with
      | .error e => .error e
      | .ok i => if s.takesTiles (coreArray (epCore (o.f 0 18))) then .ok i else .error 6
    | .mmul _ _ o | .mmulb _ o => product o
    | _ => .error 1

/-- The gate of a product: its operand fields and element type. -/
def gateOf : Instr → Option (MOp × ElemTy × Nat)
  | .mmul t _ o | .mmulb t o => o.gate.map fun h => (o, t, h)
  | _ => none

def gateKeyOf (j : Job) (h : Nat) : Nat := coreCl (epCore j.ep) * 256 + h

/-- R189: chunk `c` may start. -/
def State.gateHolds (s : State) (j : Job) (o : MOp) (t : ElemTy) (h c : Nat) : Bool :=
  let x := s.handle (gateKeyOf j h)
  (match j.gate with
    | none => false
    | some p => x.count != p) || Nat.min (32 * (c + 1)) o.k * 8 * planesOf t ≤ x.a

def Job.site (a : Nat) (j : Job) : Site := { a := a, arrays := j.arrays a, core := epCore j.ep, src := j.src, rng := j.rng }

/-- The record is done; at the end of the chain the job is done, when its tiles have arrived. -/
def State.nextRecord (s : State) (a id : Nat) (x : Site) (i : Instr) : State :=
  let s := (s.updJob a id fun j => { j with src := x.src, rng := x.rng, gate := none, command := none }).countCmds (x.acts i)
  let s := s.updEntry a id fun e => { e with record := e.record + 1, chunk := 0 }
  match s.findJob a id with
  | none => s
  | some j =>
    if (s.jobEntry a id).record < j.count then s
    else if j.sends == 0 then s.endJob a j 0
    else s.leaveArrays a id

/-- The record at which a job stands, read once when the array reaches it (R164). -/
def State.record (s : State) (a : Nat) (j : Job) : Except Nat Instr :=
  match j.command with
  | some i => .ok i
  | none => s.jobRecord a j

/-- A job's command that takes its whole effect at once. -/
def State.runPlain (s : State) (a : Nat) (j : Job) (x : Site) (i : Instr) : State :=
  match i with
  | .msendt o =>
    let s := s.sendTile x o j.ep j.uid j.launch j.ctx j.det (some (j.id, j.seq))
    (s.updJob a j.id fun j => { j with sends := j.sends + 1 }).nextRecord a j.id x i
  | .mrecvt o =>
    match s.receive x o with
    | none => (s.updJob a j.id fun j => { j with susp := .recv (o.f 24 8) }).leaveArrays a j.id
    | some s => s.nextRecord a j.id x i
  | i =>
    let (y, s) := s.runCmd x i
    s.nextRecord a j.id y i

/-- A gated product's chunk. -/
def State.runChunk (s : State) (a : Nat) (j : Job) (x : Site) (i : Instr) (o : MOp) (c : Nat) : State :=
  let s := match i with
    | .mmul t rm o => s.runProduct x t rm o c true
    | .mmulb t o => s.runBank x t o
    | _ => s
  if c + 1 < chunksOf o.k then
    (s.updEntry a j.id fun e => { e with chunk := c + 1 }).updArr a fun y => { y with chunkAt := s.now }
  else s.nextRecord a j.id x i

/-- The command ends the job: its last record, with no tile of an MSENDT on its way. -/
def State.endsJob (s : State) (a : Nat) (j : Job) (x : Site) (i : Instr) : Bool :=
  let e := s.jobEntry a j.id
  e.record + 1 == j.count && j.sends == 0 &&
    match i, gateOf i with
    | .msendt _, _ => false
    | .mrecvt o, _ => (s.receive x o).isSome
    | _, some (o, _, _) => e.chunk + 1 == chunksOf o.k
    | _, none => true

/-- The running job's next record, or next gated chunk; before the command that ends the job, its end slate, for which the
array waits at this boundary while the share is full (R286). (log 15, DEDUCED) -/
def State.runJob (s : State) (a : Nat) (j : Job) : State :=
  let x := j.site a
  match s.record a j with
  | .error c => s.endJob a j c
  | .ok i =>
    let c := (s.jobEntry a j.id).chunk
    match gateOf i with
    | some (o, t, h) =>
      let j := { j with command := some i, gate := some (j.gate.getD (s.handle (gateKeyOf j h)).count) }
      let s := s.updJob a j.id fun _ => j
      if !s.gateHolds j o t h c then s
      else
        let s := if s.endsJob a j x i then s.tellEnd a j 0 else s
        if s.holding (arraySrc a) then s else s.runChunk a j x i o c
    | none =>
      let s := s.updJob a j.id fun j => { j with command := some i }
      let s := if s.endsJob a j x i then s.tellEnd a j 0 else s
      if s.holding (arraySrc a) then s else s.runPlain a j x i

/-! ### Direct commands -/

def State.dropCmd (s : State) (a : Nat) (c : Cmd) : State :=
  s.updArr a fun x => { x with cmds := x.cmds.filter fun y => !(y.ep == c.ep && y.uid == c.uid && y.idx == c.idx) }

/-- The array is free when its source has neither lease nor commands. -/
def State.settleRun (s : State) (a : Nat) : State :=
  if s.arrBusy a then s else s.updArr a fun x => { x with run := none }

/-- A request of a unit, on its thread or parked, re-enters arbitration (R182). -/
def State.askAgain (s : State) (ep uid : Nat) : State :=
  { s with ids := s.ids + 1 }.updUnit ep uid fun t => { t with lease := .waiting t.leaseCls, leaseSeq := s.ids }

/-- (log 15, DEDUCED; log 68, DEDUCED) -/
def State.runDirect (s : State) (a lead uid : Nat) : State :=
  match sourceCmds (s.arr a).cmds uid with
  | [] => s.settleRun a
  | c :: _ =>
    if !s.cmdTurn c then s.settleRun a
    else
      let x : Site := { a := a, arrays := [a], core := epCore c.ep, src := ⟨c.row, c.col, c.prec⟩, rng := c.rng }
      match c.instr with
      | .msendt o =>
        (((s.sendTile x o c.ep c.uid c.launch c.ctx c.det none).dropCmd a c).countCmd a).settleRun a
      | .mrecvt o =>
        match s.receive x o with
        | none =>
          let s := if s.holds lead uid then s.askAgain lead uid else s
          s.updArr a fun y => { y with run := none }
        | some s => (((s.dropCmd a c).countCmd a).tlDown a c.ep c.uid).settleRun a
      | i =>
        let (y, s) := s.runCmd x i
        let s := if readsMask i then
            s.updUnit c.ep c.uid fun t => { t with msrc := { t.msrc with row := y.src.row, col := y.src.col }, maskPending := false }
          else s
        (((s.dropCmd a c).countCmd a).tlDown a c.ep c.uid).settleRun a

/-- A self-test is due on an array, or it holds a slate: it starts no command. -/
def State.stopsAt (s : State) (a : Nat) : Bool := s.isHeld (arraySrc a) || s.testDue a

/-- ARRAY_COMMAND_COMPLETE (R160): the running source's next command takes its whole effect. An odd array grants itself to
its partner's pair job first (R191). -/
def execArrayCommandComplete (a : Nat) (s : State) : Out :=
  .next
    (match s.wanted a with
    | some (c, id) => s.lend a c id
    | none =>
      if s.isHeld (arraySrc a) || s.testDue a || s.lent a then s
      else match (s.arr a).run with
        | none => s
        | some (.job id) =>
          match s.findJob a id with
          | none => s
          | some j => if (j.arrays a).any s.stopsAt then s else s.runJob a j
        | some (.lease ep uid) => s.runDirect a ep uid)

/-- LEASE_TIMEOUT (R161): no command has been issued for 256 cycles, by a parked holder either; those issued before still
complete. -/
def execLeaseTimeout (a : Nat) (s : State) : Out :=
  .next
    (match (s.arr a).run with
      | some (.lease ep uid) =>
        match s.unitThr ep uid with
        | none => s
        | some t =>
          if t.lease == .held && t.leaseLast + 256 * Config.arithCycle ≤ s.now then
            (s.updUnit ep uid fun t => { t with lease := .off }).settleRun a
          else s
      | _ => s)

/-! ### Gates (R189, R190) -/

/-- The gated product that a job stands at, and whether its chunk may start. -/
def State.atGate (s : State) (a : Nat) (j : Job) : Option (Nat × Bool) :=
  match j.command.bind gateOf with
  | none => none
  | some (o, t, h) => some (h, s.gateHolds j o t h (s.jobEntry a j.id).chunk)

/-- GATE_TIMEOUT: the running job suspends. -/
def execGateTimeout (a : Nat) (s : State) : Out :=
  .next
    (match (s.arr a).run with
      | some (.job id) =>
        match s.findJob a id with
        | none => s
        | some j =>
          match s.atGate a j with
          | some (_, false) =>
            if (s.arr a).chunkAt + 1024 * Config.arithCycle ≤ s.now then
              (s.updJob a id fun j => { j with susp := .gate }).leaveArrays a id
            else s
          | _ => s
      | _ => s)

/-- GATE_OPEN: a suspended job, or one that stopped and whose handle has been re-armed, re-enters arbitration. -/
def execGateOpen (a job : Nat) (s : State) : Out :=
  .next
    (match s.findJob a job with
      | none => s
      | some j =>
        match j.susp, s.atGate a j with
        | .gate, some (h, true) =>
          if (s.jobEntry a job).state == 3 && (s.handle (gateKeyOf j h)).faulted then s
          else s.updJob a job fun j => { j with susp := .no }
        | _, _ => s)

/-- JOB_STOPPED (R190). -/
def execJobStopped (a job : Nat) (s : State) : Out :=
  .next
    (match s.findJob a job with
      | none => s
      | some j =>
        let running := (s.arr a).run == some (.job job)
        match s.atGate a j with
        | some (h, false) =>
          if s.isHeld (arraySrc a) || (!running && j.susp != .gate) || (s.jobEntry a job).state != 2 ||
              !(s.handle (gateKeyOf j h)).faulted then s
          else
            let s := (s.updEntry a job fun e => { e with state := 3 }).updJob a job fun j => { j with susp := .gate }
            let s := if running then s.leaveArrays a job else s
            let e := s.jobEntry a job
            let s := s.emit (arraySrc a) (arrayDie a) j.ctx 0x0C2 (job + e.chunk % 2 ^ 14 * 256)
            s.arrayFault a 0x22 j.ctx j.ep j.launch job e.word.toNat h
        | _ => s)

/-! ### Tiles (R181) -/

/-- A tile's command completes: a direct one lowers TL; a job's counts for its end. -/
def State.tileDone (s : State) (m : Msg) (job : Option (Nat × Nat)) (err : Nat) : State :=
  match m.ack with
  | none => s
  | some (ep, uid, launch, _) =>
    let a := coreArray (epCore ep)
    match job with
    | none =>
      let s := if err == 0 then s
        else s.arrayFault a 0x21 (hdrCtx m.hdr) ep launch (0xFF + err * 256) 0 (arrayPlace a)
      s.tlDown a ep uid
    | some (id, seq) =>
      match s.findJob a id with
      | none => s
      | some j =>
        if j.seq != seq then s
        else if err != 0 then s.endJob a j err
        else
          let j := { j with sends := j.sends - 1 }
          let s := s.updJob a id fun _ => j
          if j.sends == 0 && j.count ≤ (s.jobEntry a id).record then s.endJob a j 0 else s

/-- TILE_ARRIVAL: a slot of the destination takes the tile; an unbound array binds to its context first. -/
def execTileArrival (id : Nat) (s : State) : Out :=
  .next
    (match s.findMsg id with
      | none => s
      | some m =>
        match m.kind with
        | .tile b sender tag row col data job =>
          let other := match s.arrBound b with
            | none => false
            | some c => c != hdrCtx m.hdr
          if s.msgBlocked m || !s.takesTiles b || other || 4 ≤ (s.arr b).slots.length then s
          else
            let s := { s with msgs := s.msgs.filter (·.id != id) }.bindFor b (hdrCtx m.hdr)
            let s := s.updArr b fun x => { x with slots := x.slots ++ [⟨tag, sender, row, col, data⟩] }
            s.tileDone m job 0
        | _ => s)

/-- TILE_DISCARD: the destination takes no tiles any more. -/
def execTileDiscard (id : Nat) (s : State) : Out :=
  .next
    (match s.findMsg id with
      | none => s
      | some m =>
        match m.kind with
        | .tile b _ _ _ _ _ job =>
          if s.takesTiles b then s else { s with msgs := s.msgs.filter (·.id != id) }.tileDone m job 6
        | _ => s)

/-! ### The self-test (R192, R193) -/

/-- Fenced quadrants stand in both column halves. -/
def bothHalves (q : BitVec 4) : Bool := (q.getLsbD 0 || q.getLsbD 2) && (q.getLsbD 1 || q.getLsbD 3)

/-- An array whose quadrants have been fenced leaves pair mode: the pair's jobs go on with the other array alone. One that
is out of service ends what it can no longer run. (log 67, DEDUCED) -/
def State.degrade (s : State) (a : Nat) : State :=
  let e := a - a % 2
  let s := s.updArr e fun x =>
    { x with jobs := mapIf (·.pair) (fun j => { j with sole := some (j.sole.getD (arrayMate a)) }) x.jobs }
  let s := if a == e then s else s.updArr a fun x => { x with loan := none }
  if (s.arr a).mode == 2 then
    (s.endJobs e 5 ((s.arr e).jobs.filter fun j => a != e && j.sole == some a)).endJobs a 5 (s.arr a).jobs
  else s

/-- A self-test has failed in some quadrants: they are fenced (R192). -/
def State.testFailed (s : State) (a : Nat) (failing : BitVec 4) : State :=
  let q := (s.arr a).quads ||| failing
  let s := s.updArr a fun x =>
    { x with untested := 0, fails := Nat.min (x.fails + 1) 255, quads := q, repl := true,
             mode := if bothHalves q then 2 else 1 }
  ((s.emit (arraySrc a) (arrayDie a) ((s.arrBound a).getD 0) 0x0C3 q.toNat).notify 9 [BitVec.ofNat 64 a]).degrade a

/-- ARRAY_SELF_TEST: `failing` names the quadrants that fail. -/
def execArraySelfTest (a : Nat) (failing : BitVec 4) (s : State) : Out :=
  .next
    (if s.isHeld (arraySrc a) || !s.testDue a then s
    else if failing == 0 then s.updArr a fun x => { x with untested := 0, since := 0 }
    else s.testFailed a failing)

end Sys2Proof.Machine
end

