-- ==== Sys2Proof/Machine/Distributor.lean ====
section
/-!
DEFINITION. What the distributors do of themselves (14_scheduling_and_progress.md R293-R311): admission, dealing, dispatch
under the two policies and the heat allowance, and refills.
-/
namespace Sys2Proof.Machine

/-- LAUNCH_ADMISSION (R294): the head of the admission queue is admitted. -/
def execLaunchAdmission (part : Nat) (s : State) : Out := .next (s.admitHead part)

/-! ### Dealing (R300, R317) -/

/-- The next batch of a launch: reissued indices first, then batches that a fence returned, then fresh ones. -/
def Launch.deal (l : Launch) (tag : Nat) : Option (Batch × Launch) :=
  if !l.reissue.isEmpty then
    some (⟨tag, l.reissue.take 64, true⟩, { l with reissue := l.reissue.drop 64 })
  else
    match l.back with
    | b :: r => some (⟨tag, b, true⟩, { l with back := r })
    | [] =>
      let n := Nat.min 64 (imgUnits l.image - l.next)
      if n == 0 then none
      else some (⟨tag, (List.range n).map (l.next + ·), false⟩, { l with next := l.next + n })

/-- Of the launches with undealt batches, the next in admission order after the one dealt last. -/
def nextDealt (last : Nat) (ls : List (Nat × Launch)) : Option (Nat × Launch) :=
  let least (xs : List (Nat × Launch)) : Option (Nat × Launch) :=
    xs.foldl (fun b x => match b with
      | none => some x
      | some y => if x.2.seq < y.2.seq then some x else some y) none
  match least (ls.filter fun (_, l) => last < l.seq) with
  | some x => some x
  | none => least ls

/-- The launches of a partition that have undealt indices. -/
def State.undealt (s : State) (part : Nat) : List (Nat × Launch) :=
  s.launches.filterMap fun (k, l) =>
    if k / 4096 == part && l.inUse && !l.cancelled && !l.state.final &&
        (!l.reissue.isEmpty || !l.back.isEmpty || l.next < imgUnits l.image) then some (k % 4096, l)
    else none

/-- R300: a distributor that holds fewer than sixteen batches asks for another. -/
def State.asks (s : State) (pair : Nat) : Bool := !(s.pair pair).fenced && (s.pair pair).batches.length < 16

/-- The asker whose turn it is: in die-pair order, from the pair after the one dealt to last. (log 149, DEDUCED) -/
def State.nextAsker (s : State) (part : Nat) : Option Nat :=
  let ps := partPairs s.parts part
  let last := (s.schedOf part).askedLast
  match ps.find? fun p => last < p && s.asks p with
  | some p => some p
  | none => ps.find? s.asks

/-- BATCH_DEAL (R300): the master deals one batch to the asker whose turn it is. -/
def execBatchDeal (part pair : Nat) (s : State) : Out :=
  .next
    (if s.nextAsker part != some pair || s.electing part || s.masterHeld part then s
    else
      match nextDealt (s.schedOf part).dealt (s.undealt part) with
      | none => s
      | some (tag, l) =>
        match l.deal tag with
        | none => s
        | some (b, l') =>
          let s := s.setLaunch part tag l'
          let s := s.updSched part fun x => { x with dealt := l.seq, askedLast := pair }
          s.updPair pair fun p => { p with batches := p.batches ++ [b] })

/-! ### The order of ready units (R302-R306) -/

/-- Put an element into a list before the first one that it precedes. -/
def insertBy {α : Type} (before : α → α → Bool) (x : α) : List α → List α
  | [] => [x]
  | y :: ys => if before x y then x :: y :: ys else y :: insertBy before x ys

def sortBy {α : Type} (before : α → α → Bool) : List α → List α
  | [] => []
  | x :: xs => insertBy before x (sortBy before xs)

def readyUnits (p : Pair) : List (Nat × Nat) := p.batches.flatMap fun b => b.units.map fun i => (b.tag, i)

/-- Deadline order on 48 bits, and admission order between equals (R303). -/
def State.edfBefore (s : State) (part : Nat) (a b : Nat × Nat) : Bool :=
  let x := s.launch part a.1
  let y := s.launch part b.1
  if x.deadline == y.deadline then x.seq < y.seq || (x.seq == y.seq && a.2 < b.2)
  else 2 ^ 47 ≤ (x.deadline + 2 ^ 48 - y.deadline) % 2 ^ 48

def State.admBefore (s : State) (part : Nat) (a b : Nat × Nat) : Bool :=
  let x := s.launch part a.1
  let y := s.launch part b.1
  x.seq < y.seq || (x.seq == y.seq && a.2 < b.2)

/-- The XOR of the six 6-bit groups of an address's bits [47:12] (R305). -/
def binOf (a : Nat) : Nat :=
  let h := a / 2 ^ 12 % 2 ^ 36
  (List.range 6).foldl (fun x i => x ^^^ (h / 2 ^ (6 * i) % 64)) 0

def unitBin (l : Launch) (i : Nat) : Nat :=
  binOf ((l.image.getD 3 0) + BitVec.ofNat 64 i * ((l.image.getD 4 0).setWidth 32).signExtend 64).toNat

/-- R302: the policy of a partition. -/
def edfPolicy (n part : Nat) : Bool := (partPairs n part).length ≤ 2

/-- The units that a distributor considers, in order; under locality bins it may first enter a bin (R306). -/
def State.considered (s : State) (part pair : Nat) : List (Nat × Nat) × State :=
  let p := s.pair pair
  let ready := readyUnits p
  if edfPolicy s.parts part then (sortBy (s.edfBefore part) ready, s)
  else
    let snap := p.snap.filter ready.contains
    if !snap.isEmpty then (sortBy (s.admBefore part) snap, s)
    else
      let inBin (c : Nat) : List (Nat × Nat) := ready.filter fun (t, i) => unitBin (s.launch part t) i == c
      match ((List.range 64).map fun k => (p.bin + 1 + k) % 64).find? fun c => !(inBin c).isEmpty with
      | none => ([], s)
      | some c => (sortBy (s.admBefore part) (inBin c), s.updPair pair fun p => { p with bin := c, snap := inBin c })

/-! ### Dispatch (R301, R304, R308) -/

def State.costOf (s : State) (part tag : Nat) : Int :=
  ((s.schedOf part).costs.toArray.getD (s.launch part tag).eclass 0 : Nat) * (1000 : Int)

/-- The first unit that can be paid for and placed: those skipped ahead of it, the unit and its core. -/
def State.choose (s : State) (part pair : Nat) : List (Nat × Nat) → List (Nat × Nat) →
    Option (List (Nat × Nat) × (Nat × Nat) × Nat)
  | _, [] => none
  | skipped, u :: us =>
    if (s.pair pair).allowance < s.costOf part u.1 then State.choose s part pair (skipped ++ [u]) us
    else
      match s.pickCore pair (s.launch part u.1).ctx fun _ => true with
      | none => State.choose s part pair skipped us
      | some c => some (skipped, u, c)

/-- Remove a unit from the batches of a distributor. -/
def dropUnit (u : Nat × Nat) (p : Pair) : Pair :=
  { p with
    batches := (p.batches.map fun b => if b.tag == u.1 then { b with units := b.units.filter (· != u.2) } else b).filter
      fun b => !b.units.isEmpty
    snap := p.snap.filter (· != u), skips := p.skips.filter (fun (t, i, _) => (t, i) != u)
    pinned := p.pinned.filter (· != u) }

/-- The unit's index word (R37, R300). -/
def indexWord (im : List Word) (i : Nat) : Word :=
  let x := imgX im
  let y := imgY im
  BitVec.ofNat 64 (i % x + i / x % y * 2 ^ 21 + i / (x * y) * 2 ^ 42)

/-- R304: a late unit: slate 0x180 and an entry of the late queue. -/
def State.lateUnit (s : State) (part pair tag i : Nat) : State :=
  let l := s.launch part tag
  let now := s.ctime pair / 16 % 2 ^ 48
  let late := (now + 2 ^ 48 - l.deadline) % 2 ^ 48
  if late < 1 || 2 ^ 47 ≤ late then s
  else
    let s := s.emit (distributorSrc pair) pair l.ctx 0x180 tag
    let q := s.schedOf part
    if 256 ≤ (q.lateNext + 2 ^ 32 - q.lateDone) % 2 ^ 32 then
      s.updSched part fun q => { q with lateLost := (q.lateLost + 1) % 2 ^ 32 }
    else
      let bs := leBytes 8 (indexWord l.image i).toNat ++ leBytes 8 (late * 2 ^ 16 + tag)
      let s := { s with mem := s.mem.writeBytes bs (lateKey part (q.lateNext % 256 * 16)) }
      let s := s.updSched part fun q => { q with lateNext := (q.lateNext + 1) % 2 ^ 32 }
      s.notify 13 [BitVec.ofNat 64 part]

/-- Dispatch a unit to a core: charged, counted, and sent as the class-3 message of R37. -/
def State.dispatch (s : State) (part pair : Nat) (u : Nat × Nat) (core : Nat) : State :=
  let (tag, i) := u
  let l := s.launch part tag
  let s := s.updPair pair fun p =>
    let p := dropUnit u p
    { p with allowance := max (-(2 ^ 40 : Int)) (p.allowance - s.costOf part tag), lastCore := core % 1024 }
  let s := if edfPolicy s.parts part then s.lateUnit part pair tag i else s
  let s := s.updLaunch part tag fun l =>
    { l with dispatched := l.dispatched + 1, started := l.started + 1, state := .running }
  let s := if s.undispatched part tag then s else s.updLaunch part tag fun l => { l with pool := false }
  let src := distributorSrc pair
  s.post
    { hdr := mkHdr (imgHandler l.image) l.ctx src tag 3 7 false
      dest := coreEp core ((s.freeThread core).getD 0)
      payload := indexWord l.image i :: (l.image.drop 10).take 6, src := src
      floor := Nat.max (s.carried src pair) l.start }

/-- Skip counts rise; a unit that reaches 64 is pinned unless another one is (R308). -/
def State.skipUnits (s : State) (pair : Nat) : List (Nat × Nat) → State
  | [] => s
  | (t, i) :: us =>
    let p := s.pair pair
    let old := ((p.skips.find? fun (a, b, _) => a == t && b == i).map (·.2.2)).getD 0
    let n := Nat.min 64 (old + 1)
    let rest := p.skips.filter fun (a, b, _) => !(a == t && b == i)
    State.skipUnits (s.updPair pair fun p => { p with skips := rest ++ [(t, i, n)] }) pair us


/-- UNIT_DISPATCH (R301, R308): one unit, after the refill of its cycle (R311); a distributor that holds a slate does nothing
(R286). -/
def execUnitDispatch (pair : Nat) (s : State) : Out :=
  let part := pairPart s.parts pair
  .next
    (if (s.pair pair).fenced || 8 ≤ pair || s.isHeld (distributorSrc pair) || s.refills < s.refillsDue then s
    else
      match (s.pair pair).pinned with
      | some u =>
        if (s.pair pair).allowance < s.costOf part u.1 then s
        else
          match s.pickCore pair (s.launch part u.1).ctx fun _ => true with
          | none => s
          | some c => (s.dispatch part pair u c).pinNext part pair
      | none =>
        let (us, s) := s.considered part pair
        match s.choose part pair [] us with
        | none => s
        | some (skipped, u, c) => ((s.dispatch part pair u c).skipUnits pair skipped).pinNext part pair)

/-! ### Refills (R307, R309) -/

/-- ALLOWANCE_REFILL (R307): one microsecond's refill of every pair, once it has passed. -/
def execAllowanceRefill (s : State) : Out :=
  .next
    (if s.refillsDue ≤ s.refills then s
    else s.refillOnce)

end Sys2Proof.Machine
end

