-- ==== Sys2Proof/Machine/Trace.lean ====
section
/-!
DEFINITION. The trace fabric and the time base (12_trace_fabric.md R279-R288): the trace instructions, held slates, sinks
and their set-up, draining into rings, registers that take effect die by die, and the discipline of `ctime`.
-/
namespace Sys2Proof.Machine

/-- Every die of the package. -/
def allDies : List Nat := (List.range 32).filter fun d => d != 18 && d != 19

/-- The I/O die whose security processor acts: die 16, or its replica (R442). -/
def State.securityDie (s : State) : Nat := if s.fenced.contains 16 then 17 else 16
/-- The replica takes over a fenced I/O die's service state; requests to that state wait (R442). -/
def State.takingOver (s : State) (die : Nat) : Bool := s.fenced.contains die && !s.failover
/-- The security processor does nothing now. -/
def State.securityHeld (s : State) : Bool := s.isHeld (securitySrc s.securityDie) || s.takingOver 16
/-- A slate of the security processor. (log 127, DEDUCED) -/
def State.emitSecurity (s : State) (ctx code payload : Nat) (ext : Option (Word × Word)) : State :=
  s.emitX (securitySrc s.securityDie) s.securityDie ctx code payload ext true

/-- The I/O die that serves a die's trace buffer (R280, R441). -/
def State.bufferDie (s : State) (die : Nat) : Nat :=
  let d := traceDie die
  if s.fenced.contains d then (if d == 16 then 17 else 16) else d

/-! ### The trace instructions (R285) -/

/-- End a trace instruction: a pushed time, or nothing. -/
def Thread.endTrace (t : Thread) (push : Option (Dst × Word)) : Thread :=
  match push with
  | none => t.advance 8
  | some (d, v) => (t.result d v).advance 8

/-- A trace instruction's slate has been formed: the instruction is complete, or its thread waits with the slate held. -/
def State.endTraced (s : State) (i : Instr) (push : Option (Dst × Word)) : State :=
  if s.holding s.cur then s.upd fun t => { t with wait := .slate push i } else s.upd (·.endTrace push)

/-- TEV. -/
def execTev (ev : BitVec 6) (a : Src) (s : State) : Out :=
  .next
    (if (s.sinksFor (epDie s.cur) s.myCtx 0).isEmpty then s.done 8
    else (s.emitX s.cur (epDie s.cur) s.myCtx ev.toNat (fld (s.raw 0 a) 0 22) none false).endTraced (.tev ev a) none)

/-- TEVX. -/
def execTevx (ev : BitVec 6) (payload : BitVec 22) (a b : Src) (s : State) : Out :=
  let x := s.raw 0 a
  let y := s.raw 0 b
  .next
    (if (s.sinksFor (epDie s.cur) s.myCtx 0).isEmpty then s.done 8
    else
      (s.emitX s.cur (epDie s.cur) s.myCtx ev.toNat payload.toNat (some (x, y)) false).endTraced (.tevx ev payload a b) none)

/-- TSREAD (R220). -/
def execTsread (dst : Dst) (s : State) : Out :=
  let (v, s) := s.stamp s.cur (epDie s.cur)
  .next (s.finish dst (BitVec.ofNat 64 v) 8)

/-- TMARK: the time is pushed whether or not the class is enabled. -/
def execTmark (dst : Dst) (payload : BitVec 22) (s : State) : Out :=
  let die := epDie s.cur
  let c := s.myCtx
  let (t, s) := s.stamp s.cur die
  .next
    ((s.form s.cur s.cur die c 0x040 payload.toNat none t (s.hides c) false).endTraced (.tmark dst payload)
      (some (dst, BitVec.ofNat 64 t)))

/-! ### Held slates (R280, R286) -/

def Held.room (s : State) (h : Held) : Bool :=
  let sh := s.share h.die h.tenant
  !s.sinkOn h.die h.tenant || !sh.lossless || h.slate.slots + (if h.full then 1 else 0) ≤ sh.room

/-- A held slate enters its share with its original time, and behind it the stall slate. A sink that has been set up again
as lossy meanwhile takes it as any other. -/
def State.releaseHeld (s : State) (h : Held) : State :=
  let src := fld h.slate.low 22 18
  if !s.sinkOn h.die h.tenant then s
  else if !(s.share h.die h.tenant).lossless then s.admitSlate h.src src h.die h.tenant h.ctx h.slate h.completes
  else
    let s := s.pushSlates h.die h.tenant [h.slate]
    if h.full then
      let (t, s) := s.stamp src h.die
      let (x, s) := s.sideSlate h.die h.tenant t 0x2C0 h.ctx src
        (Nat.min ((s.now - h.since) * 1000 / Config.usTicks) 0x3FFFFF)
      s.pushSlates h.die h.tenant [x]
    else s

def State.releaseAll (s : State) : List Held → State
  | [] => s
  | h :: hs => State.releaseAll (s.releaseHeld h) hs

/-- Launches of a partition whose completion waited. -/
def State.settleLaunches (s : State) (part : Nat) : List Nat → State
  | [] => s
  | t :: ts => State.settleLaunches (s.settleLaunch part t) part ts

/-- A distributor that is a master and holds nothing any more: the launches whose completion it held complete (R286). -/
def State.resumeMaster (s : State) (who : Nat) : State :=
  match (List.range 8).find? fun p => distributorSrc p == who with
  | none => s
  | some p =>
    let part := pairPart s.parts p
    if s.masterOf part == p then s.settleLaunches part (s.launchTags part) else s

/-- An emitter that holds nothing any more resumes: its trace instruction ends, in a gang for the leader's followers too.
The stall, up to 100 µs, does not count for its watchdog (R50, R286, R437). -/
def State.resumeEmitter (s : State) (who since : Nat) : State :=
  if s.isHeld who then s
  else if !validEp who then s.resumeMaster who
  else
    let s := s.updThr who fun t => { t with stalled := t.stalled + Nat.min (s.now - since) (100 * Config.usTicks) }
    match (s.thr who).wait with
    | .slate push i => s.forward (s.updThr who fun t => ({ t with wait := .none }).endTrace push) who i
    | _ => s

/-- SLATE_ADMIT_HELD: an emitter's oldest held slate, or all copies of a trace instruction's one. -/
def execSlateAdmitHeld (who : Nat) (s : State) : Out :=
  .next
    (match s.held.filter (·.src == who) with
      | [] => s
      | h :: hs =>
        if h.completes then
          if h.room s then
            match takeFirst (·.src == who) s.held with
            | none => s
            | some (_, rest) => ({ s with held := rest }.releaseHeld h).resumeEmitter who h.since
          else s
        else if (h :: hs).all (·.room s) then
          ({ s with held := s.held.filter (·.src != who) }.releaseAll (h :: hs)).resumeEmitter who h.since
        else s)

/-- Held slates that satisfy `p` are discarded, and their emitters resume (R283, R286). -/
def State.dropHeld (s : State) (p : Held → Bool) : State :=
  go (s.held.filter p) { s with held := s.held.filter fun h => !p h }
where
  go : List Held → State → State
    | [], s => s
    | h :: hs, s => go hs (s.resumeEmitter h.src h.since)

/-! ### Sinks (R283) -/

def State.sink (s : State) (k : Nat) : Sink := nget {} s.sinks k
/-- The dies on which a sink has shares: those of its partition; all of them for the host's. (log 74, DEDUCED) -/
def State.sinkDies (s : State) (tenant ctx : Nat) : List Nat :=
  if tenant == 0 then allDies else partDies s.parts (s.ctx ctx).part

/-- Segments of a die's buffer: 128, or 64 while one I/O die serves both (R280, R441). -/
def State.segments (s : State) : Nat := if s.fenced.contains 16 || s.fenced.contains 17 then 64 else 128

/-- Segments of a die that other sinks hold. -/
def State.takenSegs (s : State) (die sink : Nat) : Nat :=
  (s.shares.filter fun (k, _) => k % 32 == die && k / 32 != sink).foldl (fun n (_, x) => n + x.segs) 0

/-- A range is covered without a gap by live nodes of a context that carry write rights. -/
def coveredBy (t : NMap Node) (ctx hi : Nat) : Nat → Nat → Bool
  | 0, lo => decide (hi ≤ lo)
  | k + 1, lo =>
    if hi ≤ lo then true
    else match t.find? fun (_, n) => n.ctx == ctx && n.state == .live && n.covers lo && n.rights / 2 % 2 == 1 with
      | none => false
      | some (_, n) => coveredBy t ctx hi k (n.vbase + n.size)

/-- Set up a sink with the two register values, if R283 allows it. -/
def State.openSink (s : State) (tenant ctx : Nat) (tsink tsinkc : Word) : Option State :=
  let base := fld tsink 0 57
  let lg := fld tsinkc 0 5
  let segs := fld tsinkc 9 7 + 1
  let dies := s.sinkDies tenant ctx
  let old := s.sink tenant
  if lg < 12 || 30 < lg || base % 2 ^ lg != 0 || (old.valid && old.ctx != ctx) ||
      !coveredBy s.nodes ctx (base + 2 ^ lg) (s.nodes.length + 1) base ||
      dies.any (fun d => s.segments < s.takenSegs d tenant + segs) then none
  else
    let x : Sink :=
      { valid := true, base := base, lg := lg, segs := segs, lossless := tsinkc.getLsbD 8, ctx := ctx, tenant := tenant }
    let s := { s with sinks := nset s.sinks tenant x }
    some (open_ segs (tsinkc.getLsbD 8) tenant dies s)
where
  open_ (segs : Nat) (lossless : Bool) (tenant : Nat) : List Nat → State → State
    | [], s => s
    | d :: ds, s =>
      open_ segs lossless tenant ds
        (s.setShare d tenant { s.share d tenant with segs := segs, lossless := lossless, faulted := false })

/-- The shares of a sink under another number. -/
def moveShares (a b : Nat) : NMap Share → NMap Share
  | [] => []
  | (k, x) :: r => if k / 32 == a then nset (moveShares a b r) (b * 32 + k % 32) x else nset (moveShares a b r) k x

/-- A sink that is being torn down is gone when its shares have drained (R283). (log 75, DEDUCED) -/
def State.endSinks (s : State) : State :=
  let gone := (s.sinks.filter fun (k, x) =>
    x.closing && s.shares.all fun (j, sh) => j / 32 != k || sh.slates.isEmpty).map (·.1)
  { s with sinks := s.sinks.filter (fun (k, _) => !gone.contains k)
           shares := s.shares.filter fun (j, _) => !gone.contains (j / 32) }

/-- Shares of a closing sink whose batch has faulted: the drain tries it no more (R281). -/
def State.dropFaulted (s : State) (k : Nat) : State :=
  { s with shares := s.shares.map fun (j, sh) => (j, if j / 32 == k && sh.faulted then { sh with slates := [] } else sh) }

/-- Tear a sink down: held slates are discarded, the shares drain to the ring under a number of this model's own.
(log 75, DEDUCED) -/
def State.closeSink (s : State) (tenant : Nat) : State :=
  let k := 256 + s.ids
  let x := s.sink tenant
  let s := s.dropHeld fun h => h.tenant == tenant
  ({ s with
    ids := s.ids + 1
    sinks := nset (ndel s.sinks tenant) k { x with valid := false, closing := true }
    shares := moveShares tenant k s.shares }.dropFaulted k).endSinks

/-- The fields of the sink registers; reserved bits read as zero. -/
def tsinkBits (v : Word) : Word := BitVec.ofNat 64 (v.toNat / 2 ^ 63 * 2 ^ 63 + fld v 0 57)
def tsinkcBits (v : Word) : Word := BitVec.ofNat 64 (fld v 8 8 * 2 ^ 8 + fld v 0 5)

/-- SRW to `sr.tsink`. -/
def execSrwTsink (a : Src) (s : State) : Out :=
  let v := s.raw 0 a
  let c := s.myCtx
  let tn := s.tenantOf c
  let die := epDie s.cur
  let w := tsinkBits v
  let dies := partDies s.parts s.myPart
  .next
    (if v.getLsbD 63 then
      match s.openSink tn c v (s.sysReg .tsinkc tn die) with
      | none => s.raise 0x06 v
      | some s => (s.writeReg .tsink tn w die dies).done 8
    else
      let s := if (s.sink tn).valid && (s.sink tn).ctx == c then s.closeSink tn else s
      (s.writeReg .tsink tn w die dies).done 8)

/-! ### Draining (R281, R282) -/

/-- How the drain's writes end: translated, the one whose translation fails, or a wait for a walk, a page or a line
(R217, R219, R373). -/
inductive DrainEnd where
  | ok (ls : List (Landing × List Byte))
  | failed (va : Nat) (bs : List Byte) (f : TransFault)
  | waits
  deriving DecidableEq, Repr

/-- The number that an I/O die's drain waits for walks under. -/
def drainWalk (die : Nat) : Nat := 2 ^ 42 + die

/-- The drain's writes, translated by its own die's walker pool. -/
def State.drainLands (s : State) (ctx die : Nat) : List (Nat × List Byte) → DrainEnd × State
  | [] => (.ok [], s)
  | (va, bs) :: r =>
    let who := drainWalk die
    if s.isHeld (walkerSrc die) then (.waits, s)
    else if !s.mayWalk die who ctx va && 384 ≤ (s.walkQ die).length then (.waits, s.joinWalk die who ctx va)
    else
      let (e, s) := (s.leaveWalk die who).translate ctx va bs.length .write false die
      match e with
      | .error f => (.failed va bs f, s)
      | .ok l =>
        if s.barred l.phys bs.length true then (.waits, s.askFor l.phys bs.length true)
        else
          match State.drainLands s ctx die r with
          | (.ok ls, s) => (.ok ((l, bs) :: ls), s)
          | x => x

/-- The writes of a batch leave, by the drain of an I/O die; through a Scallink window as frames (R464). -/
def State.landAll (s : State) (ctx src : Nat) : List (Landing × List Byte) → State
  | [] => s
  | (l, bs) :: r => State.landAll (s.engineLand ctx src 0 true l bs) ctx src r

/-- Every connection that the writes of a batch leave by can take its frames (R463). -/
def State.linksFit (s : State) (ls : List (Landing × List Byte)) : Bool :=
  let conns := ls.filterMap fun (l, _) => match s.place l.phys with
    | .link c _ => some c
    | _ => none
  conns.all fun c => (nget ({} : Conn) s.conns c).unacked.length + (conns.filter (· == c)).length ≤ 256

/-- The slots that a batch writes: `free` slots are free, `k` slates may go; pad slates have the low word and time given.
The writes by slot, the count after them, and the slates that stay. -/
def drainPlan (n : Nat) (pad : Slate) : Nat → Nat → Nat → List Slate → List (Nat × List Byte) × Nat × List Slate
  | 0, _, p, xs => ([], p, xs)
  | _ + 1, _, p, [] => ([], p, [])
  | k + 1, free, p, x :: xs =>
    let skip := if x.slots == 2 && p % n == n - 1 then 1 else 0
    if free < x.slots + skip then ([], p, x :: xs)
    else
      let q := p + skip
      let bs := x.bytes
      let here := (if skip == 1 then [(p % n, pad.bytes)] else []) ++ [(q % n, bs.take 16)] ++
        (if x.slots == 2 then [((q + 1) % n, bs.drop 16)] else [])
      let (ws, p, rest) := drainPlan n pad k (free - x.slots - skip) (q + x.slots) xs
      (here ++ ws, p, rest)

/-- The payloads of the drops and the stall slates of a batch. -/
def payloadsOf (code : Nat) (xs : List Slate) : Nat :=
  (xs.filter fun x => fld x.low 52 12 == code).foldl (fun n x => n + fld x.low 0 22) 0

/-- The drain's fault: the batch is not written; the pager of the sink's context is told once an episode. A sink that is
being torn down is not tried again (R281). -/
def State.drainFault (s : State) (die sink va n : Nat) (f : TransFault) (access detail : Nat) : State :=
  let io := s.bufferDie die
  let x := s.sink sink
  let sh := s.share die sink
  let s := s.setShare die sink { sh with faulted := true }
  let s := if sh.faulted then s else s.transFault x.ctx io f access (drainSrc io) 0 va n (BitVec.ofNat 64 detail)
  if x.closing then (s.dropFaulted sink).endSinks else s

/-- The floor that a release at the consumed count carries, where the count stands in device memory. -/
def State.countFloor (s : State) (ctx die va : Nat) : Nat :=
  match (s.translate ctx va 8 .read false die).1 with
  | .ok l => topFloor s.relFloors (physKey l.phys) 8
  | .error _ => 0

/-- One batch of up to 64 slates of a share. (log 76, DEDUCED) -/
def State.drain (s : State) (die sink : Nat) : State :=
  let x := s.sink sink
  let sh := s.share die sink
  let io := s.bufferDie die
  let src := drainSrc io
  if sh.slates.isEmpty || !(x.valid || x.closing) then s
  else
    match s.farRead (drainWalk io) x.ctx (x.base + 8) 8 io with
    | (.waits, s) => s
    | (.failed f, s) => s.drainFault die sink (x.base + 8) 8 f 0 0
    | (.ok bs, s) =>
      let s := s.raiseFloor src (s.countFloor x.ctx io (x.base + 8))
      let n := 2 ^ x.lg / 16 - 4
      let (t, s1) := s.stamp src io
      let pad : Slate := ⟨t, slateLow 0x2C5 0 src 0, none⟩
      let (ws, p, rest) := drainPlan n pad 64 (n - (x.produced - leNat bs)) x.produced sh.slates
      if ws.isEmpty then s
      else
        let s := if ws.any (fun (_, bs) => bs == pad.bytes) then s1 else s
        let gone := sh.slates.take (sh.slates.length - rest.length)
        let y := { x with produced := p, drops := x.drops + payloadsOf 0x2C1 gone, stall := x.stall + payloadsOf 0x2C0 gone }
        let all := ws.map (fun (i, bs) => (x.base + 64 + i * 16, bs)) ++
          [(x.base + 16, leBytes 8 (y.drops % 2 ^ 64)), (x.base + 24, leBytes 8 (y.stall % 2 ^ 64)),
           (x.base, leBytes 8 (p % 2 ^ 64))]
        match s.drainLands x.ctx io all with
        | (.waits, s) => s
        | (.failed va bs f, s) => s.drainFault die sink va bs.length f 1 (leNat (bs.take 8))
        | (.ok ls, s) =>
          if !s.linksFit ls then s
          else
          let s := s.landAll x.ctx src ls
          let s := match ls.getLast? with
            | some (l, _) => s.releaseAt (physKey l.phys) 8 (s.carried src io)
            | none => s
          let sh := s.share die sink
          { s.setShare die sink { sh with slates := rest, faulted := false } with sinks := nset s.sinks sink y }.endSinks

/-- TRACE_DRAIN. -/
def execTraceDrain (die sink : Nat) (s : State) : Out :=
  .next (if (s.share die sink).faulted then s else s.drain die sink)

/-- TRACE_DRAIN_RETRY. -/
def execTraceDrainRetry (die sink : Nat) (s : State) : Out :=
  .next (if (s.share die sink).faulted then s.drain die sink else s)

/-! ### Registers of contexts and tenants on other dies (R279, R445) -/

/-- The first write that has yet to take effect on a die; writes of one register keep their order. -/
def takeWrite (die : Nat) : List RegWrite → Option (RegWrite × List RegWrite)
  | [] => none
  | w :: ws =>
    if w.dies.contains die then
      let rest := w.dies.filter (· != die)
      some (w, if rest.isEmpty then ws else { w with dies := rest } :: ws)
    else match takeWrite die ws with
      | none => none
      | some (x, ys) => some (x, w :: ys)

/-- TAKES_EFFECT_ON_DIE. (log 77, DEDUCED) -/
def execTakesEffectOnDie (die : Nat) (s : State) : Out :=
  .next
    (match takeWrite die s.regLog with
      | none => s
      | some (w, rest) =>
        if w.tell == some die && s.isHeld (securitySrc die) then s
        else
          let s := { s with regLog := rest }.setReg w.reg w.owner die w.value
          if w.tell == some die then s.emit (securitySrc die) die 0 0x2C4 w.owner else s)

/-! ### The trace page (R458) -/

/-- The result word of a request page: done, value, status. -/
def State.result (s : State) (page : Nat) : Word := nget (BitVec.ofNat 64 (2 ^ 63)) s.results page
def State.setResult (s : State) (page value status : Nat) : State :=
  { s with results := nset s.results page (BitVec.ofNat 64 (2 ^ 63 + value % 2 ^ 32 * 2 ^ 8 + status % 256)) }
/-- A request that has been accepted and not yet finished. -/
def State.setBusy (s : State) (page : Nat) : State := { s with results := nset s.results page 0 }
/-- The completion of a Deferrable Memory Write to a control page (R458, R461). -/
def State.controlEnd (s : State) (page slot : Nat) (st : WriteEnd) : State := { s with busOut := s.busOut ++ [.control page slot st] }
/-- A request is accepted, which completes its write, and finishes at once; or stays in progress. -/
def State.pageAnswer (s : State) (page value status : Nat) : State := (s.controlEnd page 0 .successful).setResult page value status
def State.pageAccept (s : State) (page : Nat) : State := (s.controlEnd page 0 .successful).setBusy page
/-- A request that its page does not take: the host tries again while another is in progress; otherwise it waits. -/
def State.turnAway (s : State) (page : Nat) : State :=
  if s.boot.state == 2 && !(s.result page).getLsbD 63 then s.controlEnd page 0 .retry else s
/-- A copy to a host address. -/
def State.copyOut (s : State) (bus : Nat) (bs : List Byte) : State := { s with busOut := s.busOut ++ [.host bus bs] }
/-- Every page answers, and the page has no request in progress (R458, R468); none runs during a takeover (R442, R459). -/
def State.pageOpen (s : State) (page : Nat) : Bool :=
  s.boot.state == 2 && (s.result page).getLsbD 63 && !s.takingOver 16 && !s.takingOver 17

/-- WRITE_HMASK. (log 77, DEDUCED) -/
def execWriteHmask (tenant : Nat) (mask : BitVec 16) (port : Nat) (s : State) : Out :=
  .next
    (if !s.pageOpen 1 then s.turnAway 1
    else if 256 ≤ tenant || 2 ≤ port then s.pageAnswer 1 0 0xFF
    else
      let w : RegWrite := ⟨.hmask, tenant, mask.setWidth 64, allDies, some (16 + port)⟩
      { s with regLog := s.regLog ++ [w] }.pageAnswer 1 0 0)

/-- CONFIG_HOST_SINK: as a write of the two registers by the named context; their reserved bits are ignored (R2). -/
def execConfigHostSink (tsink tsinkc : Word) (ctx : Nat) (s : State) : Out :=
  let write (s : State) : State :=
    ((s.writeReg .tsinkc 0 (tsinkcBits tsinkc) s.securityDie allDies).writeReg .tsink 0 (tsinkBits tsink) s.securityDie
      allDies).pageAnswer 1 0 0
  .next
    (if !s.pageOpen 1 then s.turnAway 1
    else if !(s.ctx ctx).inUse || ctx == 0 then s.pageAnswer 1 0 1
    else if tsink.getLsbD 63 then
      match s.openSink 0 ctx tsink tsinkc with
      | none => s.pageAnswer 1 0 1
      | some s => write s
    else write (if (s.sink 0).valid && (s.sink 0).ctx == ctx then s.closeSink 0 else s))

/-- READ_LAST_REEL (R288): 64 KiB to a host address, and the next-slot index. -/
def execReadLastReel (die bus : Nat) (s : State) : Out :=
  .next
    (if !s.pageOpen 1 then s.turnAway 1
    else if !allDies.contains die then s.pageAnswer 1 0 1
    else (s.pageAnswer 1 (nget 0 s.reelNext die) 0).copyOut bus (s.mem.readBytes 0x10000 (reelKey die 0)))

/-! ### The time base (R287, R466) -/

/-- Time passes. While the base is locked or in holdover, `ctime` runs faster or slower by the rate, in parts per 10^9; it
never moves backwards (R31, R32), and after a first lock ahead of its reference it loses what it is ahead by (R287).
(log 6, DESIGN CHOICE; log 78, DEDUCED; log 129, DESIGN CHOICE) -/
def State.passTime (s : State) (n : Nat) : State :=
  let k : Int := 17 * 10 ^ 9
  let c := s.timeBase.rate * (s.now + n : Nat) / k - s.timeBase.rate * (s.now : Nat) / k
  let d : Int := ((s.now + n) / Config.ctimeTicks : Nat) - (s.now / Config.ctimeTicks : Nat)
  let m := match s.timeBase.behind with
    | none => max c (-d)
    | some b => max (max c (-d)) (-(b : Int))
  { s with
    now := s.now + n, ctimeOff := s.ctimeOff + m, sensors := some s.free, free := s.free + 39
    timeBase := { s.timeBase with behind := s.timeBase.behind.map (· - m.natAbs) } }

/-- The telemetry page's power words (R470), in mW: word 0 for the package, words 1 to 6 for the consumers of R24. The
readings are open. (log 129, DESIGN CHOICE) -/
def State.powerWord (s : State) (k : Nat) : Nat :=
  match s.sensors with
  | some n => if k < 7 then fld (Config.freeWord (n + k)) 0 32 else 0
  | none => 0

/-- The telemetry page's temperature of a die (R470), in units of 0.125 C, 16 bits; dies 18 and 19 do not exist and read zero.
(log 129, DESIGN CHOICE) -/
def State.dieTemp (s : State) (die : Nat) : Nat :=
  match s.sensors with
  | some n => if die == 18 || die == 19 then 0 else fld (Config.freeWord (n + 7 + die)) 0 16
  | none => 0

/-- A change of the time base's state: slate 0x2C2, and the claimant of source 11. -/
def State.setBase (s : State) (b : TimeBase) : State :=
  let s := { s with timeBase := b }.emitSecurity 0 0x2C2 b.state none
  s.notify 11 [BitVec.ofNat 64 b.state]

/-- A rate within 100 parts per million, as the discipline of the clock may choose it. (log 78, DEDUCED) -/
def rateOf (w : Word) : Int := max (-100000) (min 100000 w.toInt)

/-- PTP_SYNC: one sync interval with its measured offset, reference less `ctime`, in `ctime` units.
(log 78, DEDUCED) -/
def execPtpSync (offset : Int) (valid : Bool) (s : State) : Out :=
  let b := s.timeBase
  .next
    (if s.securityHeld || fld s.boot.time 0 2 == 0 then s
    else if !valid then { s with timeBase := { b with good := 0 } }
    else
      match b.state with
      | 1 =>
        let good := if b.good != 0 && (offset - b.firstOffset).natAbs ≤ 800 then b.good + 1 else 1
        let b := { b with good := good, firstOffset := if good == 1 then offset else b.firstOffset, lastSync := s.now }
        if good < 16 then { s with timeBase := b }
        else
          let step := !b.stepped && 0 < offset
          let late := !b.stepped && offset < 0
          let (w, s) := s.freeValue
          let s := s.setBase { b with state := 2, stepped := true, rate := if late then -100000 else rateOf w,
                                      behind := if late then some offset.natAbs else none }
          if step then
            { s with ctimeOff := s.ctimeOff + offset }.emitSecurity 0 0x2C3 0 (some (BitVec.ofInt 64 offset, 0))
          else s
      | 2 =>
        let late := b.behind.isSome && offset < 0
        let (w, s) := s.freeValue
        { s with timeBase := { b with lastSync := s.now, rate := if late then -100000 else rateOf w,
                                      behind := if late then some offset.natAbs else none } }
      | _ => s.setBase { b with state := 1, good := 1, firstOffset := offset, lastSync := s.now, rate := 0 })

/-- TIMEBASE_HOLDOVER: 4 s without a valid sync while locked; the last rate is held. -/
def execTimebaseHoldover (s : State) : Out :=
  let b := s.timeBase
  .next
    (if !s.securityHeld && b.state == 2 && b.lastSync + 4000000 * Config.usTicks ≤ s.now then
      s.setBase { b with state := 3, good := 0, behind := none }
    else s)

/-- TIME_CONTROL_WRITE: a change of source or port returns the base to free-run; a valid reference then makes it acquire.
(log 78, DEDUCED) -/
def execTimeControlWrite (v : Word) (s : State) : Out :=
  let w := BitVec.ofNat 64 (fld v 16 8 * 2 ^ 16 + fld v 8 4 * 2 ^ 8 + fld v 4 1 * 16 + fld v 0 2)
  let old := s.boot.time
  let moved := fld w 0 2 != fld old 0 2 || fld w 8 4 != fld old 8 4
  .next
    (if fld v 0 2 == 3 || 128 ≤ fld v 16 8 || s.securityHeld then s
    else
      let s := { s with boot := { s.boot with time := w } }
      if moved && s.timeBase.state != 0 then
        s.setBase { s.timeBase with state := 0, good := 0, rate := 0, behind := none }
      else s)

end Sys2Proof.Machine
end

