-- ==== Sys2Proof/Machine/System.lean ====
section
/-!
DEFINITION. The system instructions and the steps of traps, teams and watchdogs (21_traps_and_recovery.md R420-R437,
R443-R447; R61-R64, R76). Taking a trap and returning from one are the operations of `Ops`.
-/
namespace Sys2Proof.Machine

/-! ### Traps -/

/-- The reserved-instruction fault of an instruction outside the mode that it needs (R426). -/
def State.reserved (s : State) : State :=
  s.raise 0x01 (fetchDetail s.mem s.curCore s.me.regs.pc.toNat)

/-- TRAP: its epc is the next instruction. -/
def execTrap (code : BitVec 16) (s : State) : Out :=
  .next (s.raiseAt 0x35 false (code.setWidth 64) (nextPc s.me.regs.pc 8))

/-- BRK: its epc is itself. -/
def execBrk (code : BitVec 16) (s : State) : Out := .next (s.raise 0x36 (code.setWidth 64))

/-- The cause that a fetch or decode error is reported with (R76, R420). -/
def DecodeError.cause : DecodeError → Nat
  | .fetchAddress => 0x03
  | .fetchWindow => 0x02
  | .repetition => 0x04
  | .lengthCode | .unassigned | .engine | .illegalField => 0x01

def DecodeError.detail (e : DecodeError) (d0 : Word) : Word :=
  match e with
  | .fetchWindow | .repetition => 0
  | .fetchAddress | .lengthCode | .unassigned | .engine | .illegalField => d0

/-- RESERVED_INSTRUCTION (R76, R77): no instruction stands at the pc. -/
def execReservedInstruction (err : DecodeError) (epc : W32) (d0 : Word) (s : State) : Out :=
  .next (s.raiseAt (DecodeError.cause err) false (DecodeError.detail err d0) epc)

/-- ERET (R426, R430): a gang's members return together. -/
def execEret (s : State) : Out :=
  let t := s.me
  .next
    (if !t.trap then s.reserved
    else match t.gang with
      | none => s.returnTrap s.cur
      | some g =>
        let s := s.upd fun t => { t with eretDone := true }
        let ms := gangMembers g s.cur
        if ms.all fun m => (s.thr m).trap && (s.thr m).eretDone then s.returnTraps ms else s)

/-- The words of a replay entry (R425). -/
def RqEntry.word (e : RqEntry) (i : BitVec 2) : Word := e.words.getD i.toNat 0

/-- RQREAD. -/
def execRqread (dst : Dst) (entry : Fin 16) (word : BitVec 2) (s : State) : Out :=
  .next (if !s.me.trap then s.reserved else s.finish dst ((s.me.rq.getD entry.val {}).word word) 8)

/-- An entry with one word written (R444). -/
def RqEntry.write (e : RqEntry) (i : BitVec 2) (v : Word) : RqEntry :=
  if i == 0 then { e with valid := v.getLsbD 63, given := v.getLsbD 62 }
  else if i == 1 then { e with a := v }
  else if i == 2 then { e with b := v }
  else { e with c := v }

/-- RQWRITE (R444). -/
def execRqwrite (a : Src) (entry : Fin 16) (word : BitVec 2) (s : State) : Out :=
  let v := s.raw 0 a
  let e := s.me.rq.getD entry.val {}
  .next
    (if !s.me.trap then s.reserved
    else if word == 0 && v.getLsbD 63 && !e.valid then s.raise 0x06 v
    else (s.upd fun t => { t with rq := t.rq.set entry.val (e.write word v) }).done 8)

/-- TRAP_ENTRY (R423): the handler is entered when the thread has drained; a fatal trap retires the unit at once. -/
def execTrapEntry (ep : Nat) (s : State) : Out :=
  let t := s.thr ep
  .next
    (match t.trapPend with
      | none => s
      | some (cw, d0, epc) =>
        if !t.busy || t.wait == .gangHalt || t.rback.isSome || s.isHeld ep then s
        else if s.fatal ep then
          (s.coreFault ep
            { cause := 0x27, g2 := cw, g3 := if t.trap then t.cause else 0, g4 := epc.setWidth 64 }).retireAll true
            (s.membersOf ep)
        else if t.drained then s.enterTrap ep cw d0 epc
        else s)

/-- GANG_FOLLOWER_FAULT (R430). -/
def execGangFollowerFault (ep : Nat) (s : State) : Out :=
  let t := s.thr ep
  .next
    (match t.trapPend, t.wait with
      | some (cw, _, epc), .gangHalt =>
        let ms := s.membersOf ep
        let lost := ms.any fun m => (s.thr m).ovf
        let s := s.coreFault ep
          { cause := if lost then 0x28 else 0x2A, g2 := BitVec.ofNat 64 ep, g3 := cw, g4 := epc.setWidth 64 }
        if lost then s.retireAll true ms else s.updThr ep fun t => { t with trapPend := none }
      | _, _ => s)

/-- PREEMPT (R428), with the status of the request; the requester is named as R439 names an owner. (log 161, DESIGN CHOICE) -/
def execPreempt (req : PreemptRequest) (s : State) : Out :=
  let t := s.thr req.ep
  let k := s.core (epCore req.ep)
  .next
    (if !s.pageOpen 5 then s.turnAway 5
    else if !t.busy then s.pageAnswer 5 0 1
    else if !k.tvec.getLsbD 63 || !k.tframe.getLsbD 63 then s.pageAnswer 5 0 2
    else if t.preempt.isSome then s.pageAnswer 5 0 3
    else (s.updThr req.ep fun t => { t with preempt := some req.by_ }).pageAnswer 5 0 0)

/-! ### Small ones -/

/-- NOP (R79). -/
def execNop (s : State) : Out := .next (s.done 8)
/-- FILL (R79). -/
def execFill (s : State) : Out := .next (s.done 8)

/-- HALT (R447): the thread, or the whole gang. -/
def execHalt (s : State) : Out :=
  let ms := if s.me.trap then [s.cur] else s.membersOf s.cur
  .next ((s.coreFault s.cur { cause := 0x2B, g2 := s.me.regs.pc.setWidth 64 }).setWaits .halted ms)

/-- A purge of a context is asked for (R438); the page that asks is told at its end. A purge in progress stays as it is. -/
def State.startKill (s : State) (ctx reason : Nat) (page : Option Nat) : State :=
  let c := s.ctx ctx
  let c : Ctx := { c with kill := some (c.kill.getD (reason, 0)), killers := c.killers ++ page.toList }
  { s with ctxs := nset s.ctxs ctx c }

/-- KILL: the thread goes no further (R443). -/
def execKill (reason : BitVec 16) (s : State) : Out :=
  .next (if (s.ctx s.myCtx).kill.isSome then s else s.startKill s.myCtx reason.toNat none)

/-! ### System registers (R445) -/

def Regs.mask (r : Regs) (i : Nat) : Word := (if i % 2 == 0 then r.maRow else r.maCol).toArray.getD (i / 2) 0

/-- What SRR reads. -/
def State.sysRead (s : State) (reg : Nat) : Word :=
  let t := s.me
  let r := t.regs
  let k := s.core s.curCore
  let c := s.myCtx
  let die := epDie s.cur
  let tn := s.tenantOf c
  match reg with
  | 0x000 => BitVec.ofNat 64 c
  | 0x001 => BitVec.ofNat 64 s.curCore
  | 0x002 => t.cause
  | 0x003 => t.epc.setWidth 64
  | 0x004 => r.pix.setWidth 64
  | 0x005 => t.occ.word
  | 0x006 => r.rng.setWidth 64
  | 0x007 => r.vl.setWidth 64
  | 0x008 | 0x009 | 0x00A | 0x00B | 0x00C | 0x00D | 0x00E | 0x00F => r.mask (reg - 8)
  | 0x010 => r.ba.setWidth 64
  | 0x011 => r.gtouch
  | 0x012 => t.tstat
  | 0x020 => k.htab
  | 0x021 => k.spill
  | 0x022 => k.heap
  | 0x023 => k.tvec
  | 0x024 => k.tframe
  | 0x030 => s.sysReg .pager c die
  | 0x031 => s.sysReg .tmask tn die
  | 0x032 => s.sysReg .tsink tn die
  | 0x033 => s.sysReg .tsinkc tn die
  | _ => s.sysReg .wdog c die

/-- SRR. -/
def execSrr (dst : Dst) (reg : BitVec 12) (s : State) : Out := .next (s.finish dst (s.sysRead reg.toNat) 8)

/-- Registers that SRW may write, but for `sr.tsink`. -/
def writable (reg : Nat) : Bool :=
  (6 ≤ reg && reg ≤ 0x10) || (0x22 ≤ reg && reg ≤ 0x24) || reg == 0x30 || reg == 0x31 || reg == 0x33 || reg == 0x34

/-- A value that the register takes (R115, R135, R150, R244, R421, R431). The checks of `sr.vl` and `sr.ba` are made on all 64
bits of the value; the other registers ignore their reserved bits. (log 19, DEDUCED; log 26, DEDUCED; log 154, DESIGN CHOICE) -/
def State.sysOk (s : State) (reg : Nat) (v : Word) : Bool :=
  let k := s.core s.curCore
  let pad := padSize s.curCore
  let lo := fld v 0 32
  match reg with
  | 0x007 => 1 ≤ v.toNat && v.toNat ≤ 64
  | 0x010 => v.toNat < 2 ^ 35
  | 0x022 => k.blocks.isEmpty && lo % 64 == 0 && fld v 32 20 % 64 == 0 && lo + fld v 32 20 ≤ pad
  | 0x023 => lo % 4 == 0 && lo < pad
  | 0x024 => lo % 0x800 == 0 && lo + 0x4000 ≤ 0x60000
  | 0x030 =>
    !v.getLsbD 63 ||
      s.threadOf s.myPart (fld v 0 18)
  | _ => true

/-- The register with the value written, reserved bits zero (R2). -/
def State.sysWrite (s : State) (reg : Nat) (v : Word) : State :=
  let c := s.myCtx
  let tn := s.tenantOf c
  let die := epDie s.cur
  let dies := partDies s.parts s.myPart
  let core (f : Core → Core) : State := s.updCore s.curCore f
  match reg with
  | 0x006 => s.updRegs fun r => { r with rng := rngWrite (v.setWidth 32) }
  | 0x007 => s.updRegs fun r => { r with vl := v.setWidth 7 }
  | 0x008 => s.updRegs fun r => { r with maRow := r.maRow.set 0 v }
  | 0x009 => s.updRegs fun r => { r with maCol := r.maCol.set 0 v }
  | 0x00A => s.updRegs fun r => { r with maRow := r.maRow.set 1 v }
  | 0x00B => s.updRegs fun r => { r with maCol := r.maCol.set 1 v }
  | 0x00C => s.updRegs fun r => { r with maRow := r.maRow.set 2 v }
  | 0x00D => s.updRegs fun r => { r with maCol := r.maCol.set 2 v }
  | 0x00E => s.updRegs fun r => { r with maRow := r.maRow.set 3 v }
  | 0x00F => s.updRegs fun r => { r with maCol := r.maCol.set 3 v }
  | 0x010 => s.updRegs fun r => { r with ba := v.setWidth 35 }
  | 0x022 => core fun k => { k with heap := v &&& BitVec.ofNat 64 (2 ^ 52 - 1) }
  | 0x023 => core fun k => { k with tvec := v &&& BitVec.ofNat 64 (2 ^ 63 + 2 ^ 32 - 1) }
  | 0x024 => core fun k => { k with tframe := v &&& BitVec.ofNat 64 (2 ^ 63 + 2 ^ 32 - 1) }
  | 0x030 => s.writeReg .pager c (v &&& BitVec.ofNat 64 (2 ^ 63 + 0xFFF * 2 ^ 32 + 0x3FFFF)) die dies
  | 0x031 => (s.writeReg .tmask tn (v &&& 0xFFFF) die dies).emitMe 0x2C4 tn
  | 0x033 => s.writeReg .tsinkc tn (v &&& 0xFF1F) die dies
  | _ => s.writeReg .wdog c (v &&& 0xFFFFFFFF) die dies

/-- SRW, but for `sr.tsink`. (log 26, DEDUCED) -/
def execSrw (a : Src) (reg : BitVec 12) (s : State) : Out :=
  let v := s.raw 0 a
  let r := reg.toNat
  .next (if !writable r || !s.sysOk r v then s.raise 0x06 v else (s.sysWrite r v).done 8)

/-! ### Teams (R433-R436, R446) -/

/-- The threads of a context in a team. -/
def State.teamOf (s : State) (ctx : Nat) (team : Team) : List Nat :=
  (s.threads.filter fun (e, t) => t.busy && t.team == team && s.ctxOf (epCore e) == ctx).map (·.1)

/-- The undo entries of a core's members applied, newest first, and discarded (R436). -/
def State.undo (s : State) (c : Nat) (ms : List Nat) : State :=
  let mine (u : Undo) : Bool := ms.contains (coreEp c u.thread)
  let s := ((s.core c).undo.filter mine).foldr
    (fun u s => { s with mem := s.mem.writeWord (padKey c u.addr) u.old,
                         relFloors := dropFloors s.relFloors (padKey c u.addr) 8 }) s
  s.updCore c fun k => { k with undo := k.undo.filter fun u => !mine u }

def State.undos (s : State) (ms : List Nat) : List Nat → State
  | [] => s
  | c :: cs => State.undos (s.undo c ms) ms cs

/-- A member goes back to its checkpoint. A halted one stays halted (R447). -/
def Thread.restore (t : Thread) (c : Ckpt) : Thread :=
  { t with regs := c.regs, gang := c.gang, rep := c.rep, shift := c.shift, ahead := [], pend := [], late := [], slow := [], ovf := false,
           trap := false, trapPend := none, eretDone := false, rq := List.replicate 16 {}, fences := [], onHandle := none,
           ckptAt := none, trapCkpt := none, rback := none, wait := if t.wait == .halted then .halted else .none }

/-- A member goes back to its checkpoint, its undo entries applied. -/
def State.rollback (s : State) (m : Nat) : State :=
  let s := s.dropLdaq m (s.thr m).wait
  match (s.thr m).ckpt with
  | none => s.updThr m fun t => { t with rback := none }
  | some c => s.updThr m (·.restore c)

def State.restores (s : State) : List Nat → State
  | [] => s
  | m :: ms => State.restores (s.rollback m) ms

/-- Steps 3 and 4 of R436. (log 29, DEDUCED) -/
def State.rollbacks (s : State) (ms : List Nat) : State := (s.undos ms (ms.map epCore)).restores ms

/-- Members stop for the rollback that a thread asks for. -/
def State.stopTeam (s : State) (by_ : Nat) : List Nat → State
  | [] => s
  | m :: ms => State.stopTeam (s.updThr m fun t => { t with rback := some by_ }) by_ ms

/-- RBACK (R436, R446): it waits until the members' loads have drained. (log 29, DEDUCED) -/
def execRback (dst : Dst) (a : Src) (s : State) : Out :=
  let e := fld (s.raw 0 a) 0 18
  let team := (s.thr e).team
  let ms := s.teamOf s.myCtx team
  .next
    (if !validEp e || team == .none || !ms.contains e || ms.contains s.cur then s.finish dst 2 8
    else if ms.any (fun m => (s.thr m).rback.any (· != s.cur)) then s.finish dst 3 8
    else if ms.any fun m => (s.thr m).ovf then s.finish dst 1 8
    else if ms.all fun m => (s.thr m).drained then
      let s := s.rollbacks ms
      (s.emitMe 0x302 (ms.length % 256)).finish dst (BitVec.ofNat 64 (ms.length % 256 * 256)) 8
    else s.stopTeam s.cur ms)

/-! ### Watchdogs (R437) -/

/-- The stall of an emitter that still holds a slate, up to 100 µs. -/
def State.stallNow (s : State) (ep : Nat) : Nat :=
  match s.held.find? (·.src == ep) with
  | none => 0
  | some h => Nat.min (s.now - h.since) (100 * Config.usTicks)

/-- A unit that started at `start` has run longer than the limit of its context. (log 30, DEDUCED) -/
def State.overtime (s : State) (ep start stalled : Nat) : Bool :=
  let lim := fld (s.sysReg .wdog (s.ctxOf (epCore ep)) (epDie ep)) 0 32
  lim != 0 && lim * Config.usTicks + stalled < s.now - start

def State.hang (s : State) (ep start launch : Nat) (pc : W32) : State :=
  s.faultMsg (s.ctxOf (epCore ep)) (epDie ep) (niSrc (epDie ep)) (coreEp (epCore ep) 0)
    { cause := 0x29, issuer := ep, launch := launch, g2 := BitVec.ofNat 64 ((s.now - start) / Config.usTicks),
      g3 := pc.setWidth 64 }

/-- WATCHDOG_EXPIRY: the unit of a thread, once for a whole gang; else one that is parked on its core.
(log 30, DEDUCED) -/
def execWatchdogExpiry (ep : Nat) (s : State) : Out :=
  let t := s.thr ep
  let core := epCore ep
  .next
    (if t.busy && !t.hung && s.leaderOf ep == ep && s.overtime ep t.unit.start (t.stalled + s.stallNow ep) then
      (s.updThr ep fun t => { t with hung := true }).hang ep t.unit.start t.unit.launch t.regs.pc
    else match (s.core core).park.find? fun p => !p.th.hung && s.overtime ep p.th.unit.start p.th.stalled with
      | none => s
      | some p =>
        let u := p.th.unit
        let s := s.updCore core fun k =>
          { k with park := mapIf (·.th.unit.uid == u.uid) (fun p => { p with th := { p.th with hung := true } }) k.park }
        s.hang ep u.start u.launch p.th.regs.pc)

end Sys2Proof.Machine
end

