-- ==== Sys2Proof/Machine/PublicKey.lean ====
section
/-!
DEFINITION. The public-key standards that 20_sealing_egress_scroll.md names (R398-R418): ML-KEM-768 (FIPS 203), its key
generation and decapsulation, and ML-DSA-44 (FIPS 204), its key generation, signing and verification. Polynomials are lists of
256 coefficients, each below the standard's modulus; names are the standards'.
-/
namespace Sys2Proof.Machine

/-! ### Polynomials -/

abbrev Poly := List Nat

def powMod (q : Nat) : Nat → Nat → Nat → Nat
  | 0, _, _ => 1
  | k + 1, b, e => (if e % 2 == 1 then b else 1) * powMod q k (b * b % q) (e / 2) % q

/-- The `k` low bits of `n` in the other order. -/
def bitRev : Nat → Nat → Nat
  | 0, _ => 0
  | k + 1, n => n % 2 * 2 ^ k + bitRev k (n / 2)

def addPoly (q : Nat) (f g : Poly) : Poly := List.zipWith (fun a b => (a + b) % q) f g
def subPoly (q : Nat) (f g : Poly) : Poly := List.zipWith (fun a b => (a + (q - b)) % q) f g
def scalePoly (q c : Nat) (f : Poly) : Poly := f.map (c * · % q)

/-- The transform below node `i` of its tree: each level splits at a root of unity, `root` to the bit-reversed number of the
node. -/
def nttAt (q root bits : Nat) : Nat → Nat → Poly → Poly
  | 0, _, f => f
  | k + 1, i, f =>
    let h := f.length / 2
    let t := scalePoly q (powMod q 16 root (bitRev bits i)) (f.drop h)
    nttAt q root bits k (2 * i) (addPoly q (f.take h) t) ++ nttAt q root bits k (2 * i + 1) (subPoly q (f.take h) t)

/-- Its inverse, up to the power of 2 that each level leaves; the root's order is 2 * 2^`bits`. -/
def invNttAt (q root bits : Nat) : Nat → Nat → Poly → Poly
  | 0, _, f => f
  | k + 1, i, f =>
    let h := f.length / 2
    let l := invNttAt q root bits k (2 * i) (f.take h)
    let r := invNttAt q root bits k (2 * i + 1) (f.drop h)
    addPoly q l r ++ scalePoly q (powMod q 16 root (2 * 2 ^ bits - bitRev bits i)) (subPoly q l r)

/-- Numbers of `d` bits, the first lowest, as one number, and back: the standards' order of bits. -/
def packBits (d : Nat) (f : List Nat) : Nat := f.foldr (fun c z => c % 2 ^ d + 2 ^ d * z) 0
def unpackBits (d : Nat) : Nat → Nat → List Nat
  | 0, _ => []
  | k + 1, n => n % 2 ^ d :: unpackBits d k (n / 2 ^ d)

/-- ByteEncode and SimpleBitPack of 256 coefficients of `d` bits, and the way back. -/
def packPoly (d : Nat) (f : Poly) : List Byte := leBytes (32 * d) (packBits d f)
def unpackPoly (d : Nat) (bs : List Byte) : Poly := unpackBits d 256 (leNat (bs.take (32 * d)))

/-- `k` polynomials that stand one behind the other, `n` bytes each. -/
def unpackPolys (d k n : Nat) (bs : List Byte) : List Poly := (chunks n k bs).map (unpackPoly d)

/-- The sum of products of two vectors in the transformed domain. -/
def dotPoly (q : Nat) (mul : Poly → Poly → Poly) (f g : List Poly) : Poly :=
  (List.zipWith mul f g).foldl (addPoly q) (List.replicate 256 0)

/-! ### ML-KEM-768 (FIPS 203): k = 3, η1 = η2 = 2, du = 10, dv = 4 -/

def kemQ : Nat := 3329

def kemNtt (f : Poly) : Poly := nttAt kemQ 17 7 7 1 f
def kemInvNtt (f : Poly) : Poly := scalePoly kemQ 3303 (invNttAt kemQ 17 7 7 1 f)

/-- BaseCaseMultiply on each pair of coefficients. -/
def kemPairs : Nat → Poly → Poly → Poly
  | i, a :: b :: f, c :: d :: g =>
    (a * c + b * d % kemQ * powMod kemQ 16 17 (2 * bitRev 7 i + 1)) % kemQ :: (a * d + b * c) % kemQ :: kemPairs (i + 1) f g
  | _, _, _ => []
def kemMul (f g : Poly) : Poly := kemPairs 0 f g

/-- SampleNTT, of 280 draws of two. (log 93, DESIGN CHOICE) -/
def sampleNtt (seed : List Byte) : Poly := ((unpackBits 12 560 (leNat (shake128 seed 5))).filter (· < kemQ)).take 256

def kemA (rho : List Byte) (i j : Nat) : Poly := sampleNtt (rho ++ [BitVec.ofNat 8 j, BitVec.ofNat 8 i])

/-- SamplePolyCBD of η = 2 on PRF(s, n). -/
def samplePoly (s : List Byte) (n : Nat) : Poly :=
  (unpackBits 4 256 (leNat (shake (s ++ [BitVec.ofNat 8 n]) 128))).map fun x =>
    (x % 2 + x / 2 % 2 + kemQ - (x / 4 % 2 + x / 8)) % kemQ

def compress (d x : Nat) : Nat := (2 ^ (d + 1) * x + kemQ) / (2 * kemQ) % 2 ^ d
def decompress (d y : Nat) : Nat := (2 * kemQ * y + 2 ^ d) / 2 ^ (d + 1)

/-- The encapsulation key and the vector ŝ of a seed d (K-PKE.KeyGen). -/
def kemKeys (d : List Byte) : List Byte × List Poly :=
  let g := sha3Long (d ++ [3])
  let rho := g.take 32
  let sigma := g.drop 32
  let s := (List.range 3).map fun i => kemNtt (samplePoly sigma i)
  let t := (List.range 3).map fun i =>
    addPoly kemQ (dotPoly kemQ kemMul ((List.range 3).map (kemA rho i)) s) (kemNtt (samplePoly sigma (3 + i)))
  (t.flatMap (packPoly 12) ++ rho, s)

/-- K-PKE.Encrypt. -/
def kemEncrypt (ek m r : List Byte) : List Byte :=
  let t := unpackPolys 12 3 384 ek
  let rho := ek.drop 1152
  let y := (List.range 3).map fun i => kemNtt (samplePoly r i)
  let u := (List.range 3).map fun i =>
    addPoly kemQ (kemInvNtt (dotPoly kemQ kemMul ((List.range 3).map fun j => kemA rho j i) y)) (samplePoly r (3 + i))
  let v := addPoly kemQ (addPoly kemQ (kemInvNtt (dotPoly kemQ kemMul t y)) (samplePoly r 6))
    ((unpackPoly 1 m).map (decompress 1))
  (u.flatMap fun f => packPoly 10 (f.map (compress 10))) ++ packPoly 4 (v.map (compress 4))

/-- K-PKE.Decrypt. -/
def kemDecrypt (s : List Poly) (c : List Byte) : List Byte :=
  let u := (unpackPolys 10 3 320 c).map fun f => kemNtt (f.map (decompress 10))
  let v := (unpackPoly 4 (c.drop 960)).map (decompress 4)
  packPoly 1 ((subPoly kemQ v (kemInvNtt (dotPoly kemQ kemMul s u))).map (compress 1))

/-- The public key of a 64-byte seed d ‖ z. (log 94, PRESUMED) -/
def mlKemPublic (seed : List Byte) : List Byte := (kemKeys (seed.take 32)).1

/-- ML-KEM.Decaps with the key of a seed: the shared secret, from z where the ciphertext is not its own. (log 94, PRESUMED) -/
def mlKemDecap (seed c : List Byte) : List Byte :=
  let k := kemKeys (seed.take 32)
  let m := kemDecrypt k.2 c
  let g := sha3Long (m ++ sha3 k.1)
  if kemEncrypt k.1 m (g.drop 32) == c then g.take 32 else shake (seed.drop 32 ++ c) 32

/-! ### ML-DSA-44 (FIPS 204): k = l = 4, d = 13, τ = 39, γ1 = 2^17, γ2 = (q - 1) / 88, η = 2, β = 78, ω = 80 -/

def dsaQ : Nat := 8380417
def gamma1 : Nat := 2 ^ 17
def gamma2 : Nat := 95232

def dsaNtt (f : Poly) : Poly := nttAt dsaQ 1753 8 8 1 f
def dsaInvNtt (f : Poly) : Poly := scalePoly dsaQ 8347681 (invNttAt dsaQ 1753 8 8 1 f)
def dsaMul (f g : Poly) : Poly := List.zipWith (fun a b => a * b % dsaQ) f g

/-- RejNTTPoly, of 336 draws. (log 93, DESIGN CHOICE) -/
def rejNtt (seed : List Byte) : Poly :=
  (((unpackBits 24 336 (leNat (shake128 seed 6))).map (· % 2 ^ 23)).filter (· < dsaQ)).take 256

/-- RejBoundedPoly of η = 2, of 1,088 draws. (log 93, DESIGN CHOICE) -/
def rejBounded (seed : List Byte) : Poly :=
  (((unpackBits 4 1088 (leNat (shake seed 544))).filter (· < 15)).map fun z => (dsaQ + 2 - z % 5) % dsaQ).take 256

/-- The matrix Â (ExpandA). -/
def expandA (rho : List Byte) : List (List Poly) :=
  (List.range 4).map fun r => (List.range 4).map fun s => rejNtt (rho ++ [BitVec.ofNat 8 s, BitVec.ofNat 8 r])

/-- Â times a transformed vector, transformed back. -/
def timesA (a : List (List Poly)) (v : List Poly) : List Poly := a.map fun row => dsaInvNtt (dotPoly dsaQ dsaMul row v)

/-- A coefficient's absolute value between -q/2 and q/2, and the largest of a vector. -/
def absMod (x : Nat) : Nat := if dsaQ / 2 < x then dsaQ - x else x
def normOf (v : List Poly) : Nat := v.flatten.foldl (fun m x => Nat.max m (absMod x)) 0

/-- A coefficient without its low part; `Decompose` takes what rounds up to q - 1 as 0. -/
def withoutLow (r : Nat) : Nat :=
  let lo := r % (2 * gamma2)
  if gamma2 < lo then r + 2 * gamma2 - lo else r - lo
/-- HighBits and LowBits. -/
def highBits (r : Nat) : Nat := if withoutLow r == dsaQ - 1 then 0 else withoutLow r / (2 * gamma2)
def lowBits (r : Nat) : Int := if withoutLow r == dsaQ - 1 then (r : Int) - dsaQ else (r : Int) - withoutLow r

/-- UseHint. -/
def useHint (h : Bool) (r : Nat) : Nat :=
  if !h then highBits r else if 0 < lowBits r then (highBits r + 1) % 44 else (highBits r + 43) % 44

/-- SampleInBall. (log 93, DESIGN CHOICE) -/
def ballStep (q signs : Nat) (i : Nat) : List Nat → Poly → List Nat × Poly
  | [], c => ([], c)
  | j :: js, c =>
    if j ≤ i then
      (js, (c.set i (c.getD j 0)).set j (if signs.testBit (i + 39 - 256) then q - 1 else 1))
    else ballStep q signs i js c
def sampleInBall (seed : List Byte) : Poly :=
  let s := natsOf (shake seed 271)
  ((List.range 39).foldl (fun x k => ballStep dsaQ (bytesNat (s.take 8)) (217 + k) x.1 x.2) (s.drop 8, List.replicate 256 0)).2

/-- The private values of a 32-byte seed: ρ, K, s1, s2 and t. -/
structure DsaKey where
  rho : List Byte
  key : List Byte
  s1 : List Poly
  s2 : List Poly
  t : List Poly
  deriving DecidableEq, Repr

def dsaKey (seed : List Byte) : DsaKey :=
  let h := shake (seed ++ [4, 4]) 128
  let sec := (h.drop 32).take 64
  let s (r : Nat) : Poly := rejBounded (sec ++ [BitVec.ofNat 8 r, 0])
  let s1 := (List.range 4).map s
  let s2 := (List.range 4).map fun r => s (4 + r)
  { rho := h.take 32, key := h.drop 96, s1 := s1, s2 := s2,
    t := List.zipWith (addPoly dsaQ) (timesA (expandA (h.take 32)) (s1.map dsaNtt)) s2 }

/-- Power2Round: the high part t1, and t0 modulo q. -/
def roundUp (r : Nat) : Nat := (r + 4095) / 2 ^ 13
def roundLow (r : Nat) : Nat := (r + dsaQ - roundUp r * 2 ^ 13) % dsaQ

def DsaKey.public (k : DsaKey) : List Byte := k.rho ++ k.t.flatMap fun f => packPoly 10 (f.map roundUp)

/-- The public key of a 32-byte seed. (log 94, PRESUMED) -/
def mlDsaPublic (seed : List Byte) : List Byte := (dsaKey seed).public

/-- μ: the hash of the public key's hash with the message under its context string. -/
def dsaMu (pk ctx msg : List Byte) : List Byte :=
  shake (shake pk 64 ++ [0, BitVec.ofNat 8 ctx.length] ++ ctx ++ msg) 64

def w1Bytes (w : List Poly) : List Byte := w.flatMap fun f => packPoly 6 f

/-- ExpandMask of round κ. -/
def expandMask (seed : List Byte) (kappa : Nat) : List Poly :=
  (List.range 4).map fun r =>
    (unpackBits 18 256 (leNat (shake (seed ++ leBytes 2 (kappa + r)) 576))).map fun x => (gamma1 + dsaQ - x) % dsaQ

/-- HintBitPack. -/
def hintBytes (h : List (List Bool)) : List Byte :=
  let pos (p : List Bool) : List Nat := (List.range 256).filter fun j => p.getD j false
  let all := h.flatMap pos
  let ends := (List.range h.length).map fun i => ((h.take (i + 1)).flatMap pos).length
  bytesOf ((all ++ List.replicate (80 - all.length) 0) ++ ends)

/-- The rounds of signing, from κ on; none where the bound of rounds is reached. -/
def signRounds (k : DsaKey) (a : List (List Poly)) (mu seed : List Byte) : Nat → Nat → Option (List Byte)
  | 0, _ => none
  | n + 1, kappa =>
    let y := expandMask seed kappa
    let w := timesA a (y.map dsaNtt)
    let ct := shake (mu ++ w1Bytes (w.map (·.map highBits))) 32
    let c := dsaNtt (sampleInBall ct)
    let by_ (v : List Poly) : List Poly := v.map fun f => dsaInvNtt (dsaMul c (dsaNtt f))
    let z := List.zipWith (addPoly dsaQ) y (by_ k.s1)
    let r := List.zipWith (subPoly dsaQ) w (by_ k.s2)
    let ct0 := by_ (k.t.map (·.map roundLow))
    let moved := List.zipWith (addPoly dsaQ) r ct0
    let hint := List.zipWith (List.zipWith fun x y => highBits x != highBits y) r moved
    if gamma1 - 78 ≤ normOf z || (r.flatten.any fun x => gamma2 - 78 ≤ (lowBits x).natAbs) || gamma2 ≤ normOf ct0 ||
        80 < (hint.flatten.filter id).length then signRounds k a mu seed n (kappa + 4)
    else some (ct ++ (z.flatMap fun f => packPoly 18 (f.map fun x => (gamma1 + dsaQ - x) % dsaQ)) ++ hintBytes hint)

/-- ML-DSA.Sign with the key of a seed: context string, message and the 32 random bytes of the hedged variant; of at most 814
rounds. (log 94, PRESUMED; log 93, DESIGN CHOICE) -/
def mlDsaSign (seed ctx msg rnd : List Byte) : List Byte :=
  let k := dsaKey seed
  let mu := dsaMu k.public ctx msg
  (signRounds k (expandA k.rho) mu (shake (k.key ++ rnd ++ mu) 64) 814 0).getD []

/-- HintBitUnpack of one polynomial from its positions, which rise; none where they do not. -/
def hintPoly (ps : List Nat) : Option (List Bool) :=
  if (List.zip ps (ps.drop 1)).all fun (x, y) => x < y then some ((List.range 256).map ps.contains) else none

def hintPolys (ys : List Nat) : Nat → List Nat → Option (List (List Bool))
  | from_, [] => if (ys.drop from_).all (· == 0) then some [] else none
  | from_, e :: es =>
    if e < from_ || 80 < e then none
    else do
      let h ← hintPoly ((ys.take e).drop from_)
      let hs ← hintPolys ys e es
      pure (h :: hs)

/-- ML-DSA.Verify of a signature with the empty context string. (log 94, PRESUMED) -/
def mlDsaVerify (pk msg sig : List Byte) : Bool :=
  let t := unpackPolys 10 4 320 (pk.drop 32)
  let ct := sig.take 32
  let z := (unpackPolys 18 4 576 (sig.drop 32)).map fun f => f.map fun x => (gamma1 + dsaQ - x) % dsaQ
  let hs := natsOf (sig.drop 2336)
  match hintPolys (hs.take 80) 0 (hs.drop 80) with
  | none => false
  | some h =>
    let c := dsaNtt (sampleInBall ct)
    let w := (List.zip (expandA (pk.take 32)) t).map fun (row, f) =>
      dsaInvNtt (subPoly dsaQ (dotPoly dsaQ dsaMul row (z.map dsaNtt)) (dsaMul c (dsaNtt (scalePoly dsaQ (2 ^ 13) f))))
    let w1 := List.zipWith (List.zipWith useHint) h w
    pk.length == 1312 && sig.length == 2420 && normOf z < gamma1 - 78 && shake (dsaMu pk [] msg ++ w1Bytes w1) 32 == ct

end Sys2Proof.Machine
end

