-- ==== Sys2Proof/Machine/Sealing.lean ====
section
/-!
DEFINITION. Sealing, egress meters and the Scroll (20_sealing_egress_scroll.md R398-R418): the identity, key packages and
the key page's requests, meters at the ports, and the log with its checkpoints, staging and ring.
-/
namespace Sys2Proof.Machine

/-! ### The identity (R398) -/

def secretBytes : List Byte := leBytes 32 Config.deviceSecret.toNat
def signSeed : List Byte := shake (secretBytes ++ ascii "sign") 32
def kemSeed : List Byte := shake (secretBytes ++ ascii "kem") 64
/-- A signature of a seed's key is 2,420 bytes long (R415, R418). (log 93, DESIGN CHOICE) -/
def signBy (seed ctx body : List Byte) : List Byte :=
  (mlDsaSign seed ctx body (leBytes 32 (Config.signRandom ctx body).toNat) ++ List.replicate 2420 0).take 2420
def sign (use : String) (body : List Byte) : List Byte := signBy signSeed (ascii use) body
/-- The issuing key's signature over the hash of both public keys (R398). (log 93, DESIGN CHOICE) -/
def certificateOf (signKey kemKey : List Byte) : List Byte :=
  signBy (leBytes 32 Config.issuingSeed.toNat) [] (sha3 (signKey ++ kemKey))
def signPublic : List Byte := mlDsaPublic signSeed
def kemPublic : List Byte := mlKemPublic kemSeed
def deviceId : List Byte := sha3 kemPublic

/-! ### The reserved extents (R369, R412, R449, R468) -/

/-- The Scroll ring has 2^`ringLog` entries. -/
def State.ringLog (s : State) : Nat := 12 + fld s.boot.cfg 16 4
/-- (log 95, DEDUCED) -/
def State.ringBase (s : State) : Nat := shareSize s.parts - 64 * 2 ^ s.ringLog
/-- The checkpoint area lies below the ring, one signature in 2,432 bytes. (log 95, DEDUCED) -/
def State.ckptBase (s : State) : Nat := s.ringBase - 2432 * 2 ^ (s.ringLog - 8)
/-- The tree's overflow extent lies below it. (log 95, DEDUCED) -/
def State.reservedBase (s : State) : Nat := s.ckptBase - 2 ^ (20 + fld s.boot.cfg 12 4)
/-- A physical range meets a reserved extent. -/
def State.reserved_ (s : State) (a n : Nat) : Bool := s.reservedBase < a + n && a < shareSize s.parts

/-! ### The Scroll (R412-R416) -/

/-- An entry's 64 bytes. -/
def entryBytes (seq time typ tenant ctx slot : Nat) (detail : Word) (prev : List Byte) : List Byte :=
  leBytes 8 seq ++ leBytes 8 time ++ leBytes 8 (typ + tenant * 2 ^ 8 + ctx * 2 ^ 16 + slot * 2 ^ 32) ++
    leBytes 8 detail.toNat ++ prev

/-- Staging takes `k` more entries, with the checkpoint that they bring. -/
def State.scrollFits (s : State) (k : Nat) : Bool :=
  s.scroll.staging.length + k + (if 255 ≤ s.scroll.since + k then 1 else 0) ≤ 4096

/-- One entry into staging; full staging is told to its claimant (R439). -/
def State.stageEntry (s : State) (typ tenant ctx slot : Nat) (detail : Word) : State :=
  let d := s.securityDie
  let (t, s) := s.stamp (securitySrc d) d
  let c := s.scroll
  let e := entryBytes c.seq t typ tenant ctx slot detail c.prev
  let s := { s with scroll := { c with seq := c.seq + 1, prev := sha3 e, since := c.since + 1, staging := c.staging ++ [(c.seq, e)] } }
  if s.scroll.staging.length == 4096 then s.notify 12 [BitVec.ofNat 64 c.seq] else s

/-- A checkpoint (R415): its entry, its signature beside the ring, slate 0x341. -/
def State.checkpoint (s : State) : State :=
  let c := s.scroll
  let s := s.stageEntry 0x01 0 0 0 (BitVec.ofNat 64 (c.ckpts % 2 ^ 32 * 2 ^ 32 + c.lost % 2 ^ 32))
  let e := (s.scroll.staging.getLast?.map (·.2)).getD []
  let a := s.ckptBase + c.ckpts % 2 ^ (s.ringLog - 8) * 2432
  let s := s.putBytes (physKey a) (sign "scroll" e)
  let s := { s with scroll := { s.scroll with ckpts := c.ckpts + 1, since := 0, lost := 0 } }
  s.emitSecurity 0 0x341 (c.ckpts % 2 ^ 22) (some (BitVec.ofNat 64 c.seq, BitVec.ofNat 64 (leNat (c.prev.take 8))))

/-- An entry, and the checkpoint that follows every 255th. -/
def State.scrollEntry (s : State) (typ tenant ctx slot : Nat) (detail : Word) : State :=
  let s := s.stageEntry typ tenant ctx slot detail
  if 255 ≤ s.scroll.since then s.checkpoint else s

/-- STAGING_DRAIN: the oldest entry goes to the ring, unless it would overwrite an unarchived one. -/
def execStagingDrain (s : State) : Out :=
  .next
    (match s.scroll.staging with
      | [] => s
      | (q, e) :: rest =>
        let n := 2 ^ s.ringLog
        if s.boot.state == 2 && !s.takingOver 16 && (q < n || s.scroll.archived.any (q - n ≤ ·)) then
          { s with scroll := { s.scroll with staging := rest } }.putBytes (physKey (s.ringBase + q % n * 64)) e
        else s)

/-- ARCHIVED_SEQ_WRITE (R416). -/
def execArchivedSeqWrite (seq : Nat) (s : State) : Out :=
  .next
    (if s.boot.state == 2 && !s.takingOver 16 then { s with scroll := { s.scroll with archived := some seq } } else s)

/-- CHECKPOINT_REQUEST (R415). -/
def execCheckpointRequest (s : State) : Out :=
  .next
    (if !s.pageOpen 4 || s.securityHeld then s.turnAway 4
    else if 4096 ≤ s.scroll.staging.length then s.pageAnswer 4 0 8
    else s.checkpoint.pageAnswer 4 0 0)

/-- The Scroll entry and the slate of an attach or a detach; the slate's fields are left open. (log 103, DEDUCED) -/
def State.tellDebug (s : State) (ctx q : Nat) (on : Bool) : State :=
  let s := s.scrollEntry 0x0A (s.tenantOf ctx) ctx 0 (BitVec.ofNat 64 (q % 256 * 256 + if on then 1 else 0))
  let (a, s) := s.freeValue
  let (b, s) := s.freeValue
  let (c, s) := s.freeValue
  if on then s.emitSecurity ctx 0x342 (fld a 0 22) (some (b, c)) else s

/-! ### Key packages (R400-R402) -/

def pkgId (p : List Byte) : List Byte := (p.drop 8).take 32
def pkgCipher (p : List Byte) : List Byte := (p.drop 40).take 1088
def pkgNonce (p : List Byte) : List Byte := (p.drop 1128).take 12
def pkgKey (p : List Byte) : List Byte := (p.drop 1140).take 64
def pkgTag (p : List Byte) : List Byte := (p.drop 1204).take 16
def pkgPolicyBytes (p : List Byte) : List Byte := (p.drop 1220).take 128
def pkgPolicy (p : List Byte) : List Word := wordsOf 16 (pkgPolicyBytes p)
def pkgOwner (p : List Byte) : List Byte := (p.drop 1348).take 1312
def pkgSig (p : List Byte) : List Byte := (p.drop 2660).take 2420
def pkgOwnerHash (p : List Byte) : List Byte := sha3 (pkgOwner p)

/-- Status 1: the magic, the reserved bits of R401, the budget and the window; of an update or a revocation, also the fields
that are all zero. (log 96, DEDUCED) -/
def pkgFormBad (update : Bool) (p : List Byte) : Bool :=
  let w (i : Nat) : Nat := ((pkgPolicy p).getD i 0).toNat
  p.length != 5080 || leNat (p.take 8) != 0x31534B484A524F42 || 256 ≤ w 1 || 2 ^ 32 ≤ w 3 || 16 ≤ w 5 || w 5 % 2 == 1 ||
    (List.range 10).any (fun i => w (6 + i) != 0) || w 2 % 64 != 0 || w 3 == 0 ||
    (update && ((p.drop 40).take 1180).any (· != 0))

/-- The checks that every package passes first: statuses 1, 2 and 3. (log 96, DEDUCED) -/
def pkgStatus (update : Bool) (p : List Byte) : Nat :=
  if pkgFormBad update p then 1
  else if pkgId p != deviceId then 2
  else if !mlDsaVerify (pkgOwner p) (p.take 2660) (pkgSig p) then 3
  else 0

/-- The key of a load package, when the tag holds (R400); FIPS 203 decapsulates a ciphertext of another key to a secret that
the tag does not fit. -/
def pkgOpen (p : List Byte) : Option (List Byte) :=
  gcmOpen (shake (mlKemDecap kemSeed (pkgCipher p) ++ ascii "wrap") 32) (pkgNonce p) (pkgPolicyBytes p) (pkgKey p) (pkgTag p)

def KeySlot.serial (k : KeySlot) : Word := k.word 0
def KeySlot.tenant (k : KeySlot) : Nat := fld (k.word 1) 0 8
def KeySlot.budget (k : KeySlot) : Nat := (k.word 2).toNat
/-- The window in force on the meters' die, by a slot's own length (R409). -/
def State.windowNow (s : State) (k : KeySlot) : Nat := s.ctime s.securityDie / (fld (k.word 3) 0 32 * 16000)

/-- The slate of an accepted request. -/
def State.keySlate (s : State) (code slot : Nat) (k : KeySlot) : State :=
  s.emitSecurity 0 code (slot + k.tenant * 256) (some (BitVec.ofNat 64 (leNat (k.owner.take 8)), k.serial))

/-- The translations that accesses and pieces in flight have used. -/
def State.landings (s : State) : List Landing :=
  s.reqs.filterMap (·.land) ++ s.channels.flatMap fun (_, c) => c.pins.flatMap fun p => p.src.toList ++ p.dst.toList

/-- The dies, in rising order, whose walkers hold an entry that satisfies `p`, or that a landing in flight names. -/
def State.usingDies (s : State) (p : Cached → Bool) (q : Landing → Bool) : List Nat :=
  (List.range 32).filter fun d => (s.cacheOf d).any p || s.landings.any fun l => l.die == d && q l

/-- A slot is emptied (R402, R407): its cached translations are dropped in one round of the walker dies, and the request
ends with the last acknowledgement. -/
def State.emptySlot (s : State) (slot : Nat) : State :=
  let s := { s with keys := nset s.keys slot { s.keySlot slot with gone := true } }
  match s.usingDies (fun e => e.sealed && e.slot == slot) (fun l => l.sealed && l.slot == slot) with
  | [] => { s with keys := ndel s.keys slot }.pageAnswer 4 0 0
  | dies =>
    let op : TreeOp :=
      { id := s.ids, part := 0, asker := .host 0, ctx := 0, fin := .revoke slot, set := [], marks := [], dies := some dies,
        round := none, after := [], floor := 0 }
    { s with treeOps := s.treeOps ++ [op], ids := s.ids + 1 }.pageAccept 4

/-- KEY_LOAD. (log 97, DEDUCED) -/
def execKeyLoad (slot : Nat) (pkg : List Byte) (s : State) : Out :=
  .next
    (if !s.pageOpen 4 || s.securityHeld then s.turnAway 4
    else if 256 ≤ slot then s.pageAnswer 4 0 0xFF
    else if pkgStatus false pkg != 0 then s.pageAnswer 4 0 (pkgStatus false pkg)
    else match pkgOpen pkg with
      | none => s.pageAnswer 4 0 4
      | some key =>
        if s.slotLoaded slot then s.pageAnswer 4 0 5
        else if !s.scrollFits 1 then s.pageAnswer 4 0 8
        else
          let k : KeySlot := { key := key, owner := pkgOwnerHash pkg, policy := pkgPolicy pkg }
          let s := s.scrollEntry 0x02 k.tenant 0 slot k.serial
          let k := { k with left := k.budget, window := s.windowNow k }
          ({ s with keys := nset s.keys slot k }.keySlate 0x340 slot k).pageAnswer 4 0 0)

/-- A slot under a new policy. What its meter still admits until the next window is open, within both budgets.
(log 99, DEDUCED) -/
def State.newPolicy (s : State) (slot : Nat) (policy : List Word) : State :=
  let old := s.keySlot slot
  let k := { old with policy := policy }
  let (w, s) := s.freeValue
  let most := Nat.min (old.left + old.lot) k.budget
  let k := { k with left := w.toNat % (most / 64 + 1) * 64, lot := 0, window := s.windowNow k, told := [] }
  { s with keys := nset s.keys slot k }.keySlate 0x343 slot k

/-- KEY_UPDATE: a policy update or an owner's revocation. (log 97, DEDUCED) -/
def execKeyUpdate (slot : Nat) (pkg : List Byte) (s : State) : Out :=
  let old := s.keySlot slot
  let k : KeySlot := { policy := pkgPolicy pkg }
  .next
    (if !s.pageOpen 4 || s.securityHeld then s.turnAway 4
    else if 256 ≤ slot then s.pageAnswer 4 0 0xFF
    else if pkgStatus true pkg != 0 then s.pageAnswer 4 0 (pkgStatus true pkg)
    else if !s.slotLoaded slot || old.owner != pkgOwnerHash pkg then s.pageAnswer 4 0 5
    else if k.serial.toNat ≤ old.serial.toNat then s.pageAnswer 4 0 6
    else if !s.scrollFits 1 then s.pageAnswer 4 0 8
    else if (k.word 5).getLsbD 3 then
      let s := s.scrollEntry 0x04 old.tenant 0 slot (BitVec.ofNat 64 (2 ^ 63 + fld k.serial 0 63))
      (s.keySlate 0x343 slot { old with policy := k.policy }).emptySlot slot
    else
      ((s.scrollEntry 0x03 k.tenant 0 slot k.serial).newPolicy slot k.policy).pageAnswer 4 0 0)

/-- HOST_ERASE. (log 98, DEDUCED) -/
def execHostErase (slot : Nat) (s : State) : Out :=
  let old := s.keySlot slot
  .next
    (if !s.pageOpen 4 || s.securityHeld then s.turnAway 4
    else if 256 ≤ slot then s.pageAnswer 4 0 0xFF
    else if s.nodes.any fun (_, n) => n.sealed && n.slot == slot && n.state != .dead then s.pageAnswer 4 0 7
    else if !s.scrollFits 1 then s.pageAnswer 4 0 8
    else
      let s := s.scrollEntry 0x04 old.tenant 0 slot (BitVec.ofNat 64 (fld old.serial 0 63))
      (s.keySlate 0x343 slot old).emptySlot slot)

/-- KEY_PUBLIC_COPY: both public keys and the certificate, to a host address. -/
def execKeyPublicCopy (bus : Nat) (s : State) : Out :=
  .next
    (if !s.pageOpen 4 || s.securityHeld then s.turnAway 4
    else (s.pageAnswer 4 0 0).copyOut bus (signPublic ++ kemPublic ++ certificateOf signPublic kemPublic))

/-- The owner key hashes of all slots, in slot order (R418). -/
def State.ownerHashes (s : State) : List Byte :=
  (List.range 256).flatMap fun i => if s.slotLoaded i then (s.keySlot i).owner else List.replicate 32 0

/-- ATTESTATION (R418): the report and its signature, to a host address. -/
def execAttestation (nonce : List Byte) (bus : Nat) (s : State) : Out :=
  let body := nonce ++ deviceId ++ s.boot.measure ++ leBytes 8 (s.ctime s.securityDie % 2 ^ 64) ++
    leBytes 8 (s.scroll.seq - 1) ++ s.scroll.prev ++ sha3 s.ownerHashes ++ leBytes 8 s.parts
  .next
    (if !s.pageOpen 4 || s.securityHeld then s.turnAway 4
    else if nonce.length != 32 then s.pageAnswer 4 0 0xFF
    else (s.pageAnswer 4 0 0).copyOut bus (body ++ sign "attest" body))

/-! ### Contexts that are metered (R408) -/

/-- Slots added to those that a context is charged to. -/
def State.chargeTo (s : State) (ctx : Nat) (slots : List Nat) : State :=
  let old := (s.meteredSlots ctx).getD []
  { s with metered := nset s.metered ctx (old ++ slots.filter (fun x => !old.contains x)) }

/-- A context receives a derivation: under which meters it comes to stand, and which context it is told to come from. -/
def State.metersFor (s : State) (sctx : Nat) (isSealed : Bool) (slot : Nat) : List Nat :=
  (if isSealed then [slot] else []) ++ (s.meteredSlots sctx).getD []

/-- The entry that a derivation brings when the receiver is not metered yet. -/
def State.becomesMetered (s : State) (sctx rctx : Nat) (isSealed : Bool) : Bool :=
  (s.meteredSlots rctx).isNone && (isSealed || (s.meteredSlots sctx).isSome)

/-- The receiver comes under the meters (R408, R413). -/
def State.enterMeters (s : State) (sctx rctx : Nat) (isSealed : Bool) (slot : Nat) : State :=
  let slots := s.metersFor sctx isSealed slot
  if !isSealed && (s.meteredSlots sctx).isNone then s
  else
    let s := if s.becomesMetered sctx rctx isSealed then
        s.scrollEntry 0x0B (s.tenantOf rctx) rctx (slots.getD 0 0) (BitVec.ofNat 64 (if isSealed then 0 else sctx))
      else s
    s.chargeTo rctx slots

/-! ### Meters (R409-R411) -/

/-- The emitter of a meter port's slates: the port; for the debug port, the security processor. -/
def State.portSrc (s : State) (port : Nat) : Nat :=
  if port < 16 then mkEp (portDie port) 3 (port % 8) 0
  else if port == 18 then securitySrc s.securityDie
  else pcieSrc (portDie port)

/-- The port's die spends from a lot, not from the meter itself. -/
def State.usesLot (s : State) (port : Nat) : Bool := port != 18 && portDie port != s.securityDie

def State.meterCurrent (s : State) (slot : Nat) : Bool :=
  !s.slotLoaded slot || s.windowNow (s.keySlot slot) == (s.keySlot slot).window

/-- The meter of a slot has 64 bytes left for a port. An emptied slot passes nothing. (log 101, DEDUCED) -/
def State.meterHas (s : State) (port slot : Nat) : Bool :=
  let k := s.keySlot slot
  s.slotLoaded slot && (64 ≤ k.left || (s.usesLot port && 64 ≤ k.lot))

/-- Take 64 bytes; the second die fetches its next lot when it has none. -/
def State.meterTake (s : State) (port slot : Nat) : State :=
  let k := s.keySlot slot
  let k :=
    if !s.usesLot port then { k with left := k.left - 64 }
    else if 64 ≤ k.lot then { k with lot := k.lot - 64 }
    else
      let lot := Nat.min 4096 k.left
      { k with left := k.left - lot, lot := lot - 64 }
  { s with keys := nset s.keys slot k }

def State.metersTake (s : State) (port : Nat) : List Nat → State
  | [] => s
  | k :: ks => State.metersTake (s.meterTake port k) port ks

/-- Frames that a meter has held and that leave now: those of each connection that had not left in `old`. -/
def State.sendWaiting (s old : State) : List (Nat × Conn) → State
  | [] => s
  | (k, c) :: r =>
    State.sendWaiting (s.putFrames k ((s.framesOut c.unacked).drop (old.framesOut c.unacked).length)) old r

/-- One beat of an operation has passed; with the last one its frame leaves. -/
def State.beatPassed (s : State) (b : Beats) : State :=
  let s := s.metersTake b.port ((s.meteredSlots b.ctx).getD [])
  match takeFirst (·.id == b.id) s.beats with
  | none => s
  | some (x, rest) =>
    if x.left ≤ 1 then { s with beats := rest }.sendWaiting s s.conns
    else { s with beats := mapFirst (fun y => { y with left := y.left - 1, held := false }) s.beats }
where
  mapFirst (f : Beats → Beats) : List Beats → List Beats
    | [] => []
    | y :: ys => if y.id == b.id then f y :: ys else y :: mapFirst f ys

/-- A beat waits in hold queues. -/
def State.setHeld (s : State) (id port : Nat) : State :=
  { s with beats := mapIf (fun x => x.id == id && x.port == port) (fun x => { x with held := true }) s.beats }

/-- The meters that hold a beat, but for those that have told of it in this window already. -/
def State.untold (s : State) (b : Beats) : List Nat :=
  ((s.meteredSlots b.ctx).getD []).filter fun i =>
    !s.meterHas b.port i && s.slotLoaded i && !(s.keySlot i).told.contains b.port

/-- The first beat that a meter holds at a port in a window has to be told: its entry is asked for (R411, R413). -/
def State.noteHold (s : State) (b : Beats) : State :=
  let new := (s.untold b).filter fun i => !s.scroll.queued.any fun (_, j, p) => j == i && p == b.port
  { s with scroll := { s.scroll with queued := s.scroll.queued ++ new.map fun i => (b.id, i, b.port) } }

/-- A beat that finds a meter empty: it is held now where its meters have told, else once their entries stand (R414). -/
def State.holdBeat (s : State) (b : Beats) : State := if (s.untold b).isEmpty then s.setHeld b.id b.port else s.noteHold b

/-- The meters cannot be asked while an I/O die's service state is taken over (R442). -/
def State.metersAway (s : State) : Bool := s.takingOver 16 || s.takingOver 17

/-- EGRESS_BEAT: the next beat of an operation meets its meters. -/
def execEgressBeat (id : Nat) (s : State) : Out :=
  .next
    (match s.beats.find? (·.id == id) with
      | none => s
      | some b =>
        let slots := (s.meteredSlots b.ctx).getD []
        if b.held || s.isHeld (s.portSrc b.port) || !slots.all s.meterCurrent || s.metersAway then s
        else if slots.all (s.meterHas b.port) then s.beatPassed b
        else s.holdBeat b)

/-- SCROLL_APPEND: the entry of a meter's hold, which takes effect with it: the beat is held, and slate 0x281 tells of it.
Where staging has no room the entry is dropped and counted, and the meter holds its beat all the same (R411, R414, R416). -/
def execScrollAppend (s : State) : Out :=
  .next
    (match s.scroll.queued with
      | [] => s
      | (id, slot, port) :: rest =>
        if s.securityHeld || s.isHeld (s.portSrc port) then s
        else
          let s := { s with scroll := { s.scroll with queued := rest } }
          match s.beats.find? fun b => b.id == id && b.port == port with
          | none => s
          | some b =>
            let k := s.keySlot slot
            if !(s.untold b).contains slot then s
            else
              let s := if s.scrollFits 1 then
                  s.scrollEntry 0x09 (s.tenantOf b.ctx) b.ctx slot (BitVec.ofNat 64 (port * 2 ^ 56 + k.window % 2 ^ 56))
                else { s with scroll := { s.scroll with lost := s.scroll.lost + 1 } }
              let s := { s with keys := nset s.keys slot { k with told := k.told ++ [port] } }.setHeld id port
              s.emit (s.portSrc port) (portDie port) b.ctx 0x281 port)

/-- Held beats of one operation pass as far as the meters allow. -/
def State.passHeld (s : State) (b : Beats) : Nat → State
  | 0 => s
  | n + 1 =>
    let slots := (s.meteredSlots b.ctx).getD []
    if slots.all s.meterCurrent && slots.all (s.meterHas b.port) then State.passHeld (s.beatPassed b) b n else s

/-- Those that are left of each operation stay held, by the new window. (log 100, DEDUCED) -/
def State.passAll (s : State) : List Beats → State
  | [] => s
  | b :: bs =>
    let s := (s.passHeld b b.left).setHeld b.id b.port
    State.passAll (if s.beats.any fun x => x.id == b.id && x.port == b.port then s.noteHold b else s) bs

/-- The ports at which the window start has emptied the hold queue of a slot's meter: slate 0x282. (log 100, DEDUCED) -/
def State.tellReleased (s : State) (slot : Nat) : List Beats → State
  | [] => s
  | b :: bs =>
    let waits (x : Beats) : Bool := x.held && x.port == b.port && ((s.meteredSlots x.ctx).getD []).contains slot
    State.tellReleased
      (if bs.any (·.port == b.port) || (s.beats.any waits && !s.meterHas b.port slot) then s
      else s.emit (s.portSrc b.port) (portDie b.port) b.ctx 0x282 b.port) slot bs

/-- METER_WINDOW: a slot's next window. -/
def execMeterWindow (slot : Nat) (s : State) : Out :=
  let k := s.keySlot slot
  .next
    (if s.meterCurrent slot || s.securityHeld then s
    else
      let held := s.beats.filter fun b => b.held && ((s.meteredSlots b.ctx).getD []).contains slot
      let mine := held.filter fun b => !s.meterHas b.port slot
      let s := { s with keys := nset s.keys slot { k with window := s.windowNow k, left := k.budget, lot := 0, told := [] } }
      (s.passAll held).tellReleased slot mine)

/-- The meter word of a slot, as the key page shows it (R411). -/
def State.meterWord (s : State) (slot : Nat) : Word :=
  let k := s.keySlot slot
  let held := (s.beats.filter fun b => b.held && ((s.meteredSlots b.ctx).getD []).contains slot).foldl (fun n b => n + b.left) 0
  BitVec.ofNat 64 ((if held == 0 then 0 else 2 ^ 63) + Nat.min held 0xFFFFFF * 2 ^ 32 +
    Nat.min ((k.left + k.lot) / 64) 0xFFFFFFFF)

end Sys2Proof.Machine
end

