-- ==== Sys2Proof/Machine/Tree.lean ====
section
/-!
DEFINITION. The tree units (18_address_spaces.md R368, R377-R394): the address-space instructions, derivations, windows,
withdrawals with their invalidation rounds, grants, flushes, queries, and the handover of a shared page (R217).
-/
namespace Sys2Proof.Machine

/-- The I/O die that serves a partition's tree unit (R368, R442). -/
def State.treeDieOf (s : State) (part : Nat) : Nat :=
  let d := treeDie part
  if s.fenced.contains d then (if d == 16 then 17 else 16) else d

/-- The emitter of a tree unit's slates: the walker pool of its die. -/
def State.treePool (s : State) (part : Nat) : Nat := walkerSrc (s.treeDieOf part)

/-- A slate of a tree unit. -/
def State.emitTree (s : State) (part ctx code payload : Nat) (ext : Option (Word × Word)) : State :=
  s.emitX (s.treePool part) (s.treeDieOf part) ctx code payload ext true

def State.treeFloor (s : State) (part : Nat) : Nat := s.carried (s.treePool part) (s.treeDieOf part)

/-! ### Answers -/

/-- The status word of R390 and R391: a number, and an outcome. -/
def treeWord (n outcome : Nat) : Word := BitVec.ofNat 64 (n % 2 ^ 22 * 2 ^ 8 + outcome % 256)

/-- Answer an operation; `acq` raises the floor of the unit that waits (R220, R387, R394). -/
def State.answerTree (s : State) (a : Asker) (v : Word) (acq : Option Nat) : State :=
  match a with
  | .nobody => s
  | .host _ => s.setResult 0 (fld v 8 32) (fld v 0 8)
  | .thread ep uid pend _ =>
    let s := s.answer ep uid pend v
    match acq with
    | none => s
    | some f => s.raiseUnit ep uid f

/-- The launch tag that a message of an operation carries. -/
def Asker.launch : Asker → Nat
  | .thread _ _ _ l => l
  | .host _ | .nobody => 0

/-- R378: the notification of a link or a move, to the endpoint and the handler of the receiver's window. It carries the floor
of the sender's release and the tree unit's own (R220). -/
def State.notifyMap (s : State) (part : Nat) (m : TreeMsg) (rctx win ep handler cookie node : Nat) (n : Node) (moved : Bool) :
    State :=
  let g1 := cookie % 2 ^ 32 * 2 ^ 32 + m.ctx * 2 ^ 20 + win * 2 ^ 14 + (if moved then 2 ^ 13 else 0) +
    (if n.sealed then 2 ^ 12 else 0) + n.slot * 16
  let g3 := node * 2 ^ 42 + n.rights * 32 + n.lg
  let d := s.treeDieOf part
  s.post
    { hdr := mkHdr handler rctx (treeSrc d) m.asker.launch 2 4 true, dest := ep, src := treeSrc d,
      floor := Nat.max m.floor (s.treeFloor part),
      payload := [BitVec.ofNat 64 g1, BitVec.ofNat 64 n.vbase, BitVec.ofNat 64 g3, BitVec.ofNat 64 (s.ctime d)] }

/-- The slate of a `MAP` or `GRANT`, from the thread that issued it. (log 85, DEDUCED) -/
def State.emitMap (s : State) (a : Asker) (ctx code : Nat) (n : Node) : State :=
  match a with
  | .thread ep _ _ _ =>
    s.emitExt ep (epDie ep) ctx code 0 (BitVec.ofNat 64 n.vbase) (BitVec.ofNat 64 (n.lg * 8 + n.rights))
  | .host _ | .nobody => s

/-! ### Withdrawals, and their end (R379-R387) -/

def TreeEnd.isUnmap : TreeEnd → Bool
  | .unmap .. => true
  | _ => false
def TreeEnd.isGrant : TreeEnd → Bool
  | .grant .. => true
  | _ => false

/-- The nodes whose cached entries an operation drops (R383, R386, R394, R407). -/
def State.opNodes (s : State) (o : TreeOp) : List Nat :=
  match o.fin with
  | .unmap .. | .grant .. | .flush => o.set
  | .handover page _ => (s.nodes.filter fun (_, n) => n.phys < (page + 1) * 2 ^ 16 && page * 2 ^ 16 < n.phys + n.size).map (·.1)
  | .revoke slot => (s.nodes.filter fun (_, n) => n.sealed && n.slot == slot).map (·.1)

def State.delNodes (s : State) : List Nat → State
  | [] => s
  | i :: is => State.delNodes { s with nodes := ndel s.nodes i } is

/-- The end of an `UNMAP`: its nodes are freed, slate 0x203, and the answer (R387, R391). -/
def State.endUnmap (s : State) (o : TreeOp) (count va : Nat) (async : Option (Nat × Nat)) : State :=
  let s := (s.delNodes o.set).emitTree o.part o.ctx 0x203 (Nat.min count 0x3FFFFF) none
  let w := treeWord (Nat.min count 0x3FFFFF) 0
  let f := s.treeFloor o.part
  match async with
  | none => s.answerTree o.asker w (some f)
  | some (ep, handler) =>
    let d := s.treeDieOf o.part
    s.post { hdr := mkHdr handler o.ctx (treeSrc d) o.asker.launch 2 3 true, dest := ep, src := treeSrc d, floor := f,
             payload := [w, BitVec.ofNat 64 va, BitVec.ofNat 64 (s.ctime d)] }

/-- Step 3 of R379: the move; or outcome 6 where a withdrawal has taken the node. (log 84, DEDUCED; log 86, DEDUCED) -/
def State.endGrant (s : State) (o : TreeOp) (win base rights cookie rctx ep handler : Nat) : State :=
  let i := o.set.getD 0 0
  let x := s.node i
  if o.after != [] || s.withdrawn x then
    (s.emitTree o.part o.ctx 0x205 0 (some (BitVec.ofNat 64 x.vbase, 0))).answerTree o.asker (treeWord 0 6) none
  else
    let y := { x with ctx := rctx, vbase := base, rights := rights, wmask := [], state := .live }
    let s := if x.sealed then
        s.scrollEntry 0x07 (s.tenantOf rctx) o.ctx x.slot (BitVec.ofNat 64 (i * 2 ^ 42))
      else s
    let s := s.enterMeters o.ctx rctx x.sealed x.slot
    let s := (s.setNode i y).emitMap o.asker o.ctx 0x201 y
    let m : TreeMsg := ⟨o.asker, o.ctx, .query 0 0, o.floor⟩
    (s.notifyMap o.part m rctx win ep handler cookie i y true).answerTree o.asker (treeWord i 0) none

/-- An operation has had its last acknowledgement. -/
def State.endOp (s : State) (o : TreeOp) : State :=
  let s := { s with treeOps := s.treeOps.filter (·.id != o.id) }
  match o.fin with
  | .unmap count va async => s.endUnmap o count va async
  | .grant win base rights cookie rctx ep handler => s.endGrant o win base rights cookie rctx ep handler
  | .flush => s.answerTree o.asker 0 (some (s.treeFloor o.part))
  | .handover page toHost => { s with shared := nset s.shared page toHost, migFaults := s.migFaults.filter (· != page) }
  | .revoke slot => { s with keys := ndel s.keys slot }.setResult 4 0 0

/-- The Scroll entries of a link or a move: the seal's, and that of a receiver which becomes metered (R413). -/
def State.moveEntries (s : State) (sctx rctx : Nat) (x : Node) : Nat :=
  (if x.sealed then 1 else 0) + if s.becomesMetered sctx rctx x.sealed then 1 else 0

/-- The Scroll entries that the end of an operation brings. -/
def State.endEntries (s : State) (o : TreeOp) : Nat :=
  match o.fin with
  | .grant _ _ _ _ rctx _ _ =>
    let x := s.node (o.set.getD 0 0)
    if o.after != [] || s.withdrawn x then 0 else s.moveEntries o.ctx rctx x
  | _ => 0

/-- All rounds of an operation are over, and the withdrawals that it follows (R381). -/
def TreeOp.over (o : TreeOp) : Bool :=
  o.round.isNone && o.marks.isEmpty && o.dies == some [] && (o.fin.isGrant || o.after.isEmpty)

/-- An operation whose round has been acknowledged: a grant that has lost its node has no further round (R379). -/
def TreeOp.acked (o : TreeOp) : TreeOp :=
  { o with round := none, dies := if o.fin.isGrant && o.after != [] then some [] else o.dies }

/-- An operation that is over may end now: the emitter of its partition's tree unit holds no slate (R286) and no takeover runs
(R442), and the Scroll takes the entries that its end brings (R416). -/
def State.mayEnd (s : State) (o : TreeOp) : Bool :=
  let k := s.endEntries o
  (k == 0 || (!s.securityHeld && s.scrollFits k)) &&
    (match o.fin with
      | .unmap .. | .grant .. | .flush => !s.isHeld (s.treePool o.part) && !s.takingOver (treeDie o.part)
      | .handover .. | .revoke _ => true)

/-- Operations that follow a withdrawal no longer wait for it; one that only waited for it ends with it. -/
def State.endOps (s : State) (o : TreeOp) : Nat → State
  | 0 => s.endOp o
  | fuel + 1 =>
    let s := s.endOp o
    if o.fin.isUnmap then
      let s := { s with treeOps := mapIf (fun p => p.fin.isUnmap) (fun p => { p with after := p.after.filter (· != o.id) }) s.treeOps }
      match s.treeOps.find? fun p => p.fin.isUnmap && p.over && s.mayEnd p with
      | none => s
      | some p => State.endOps s p fuel
    else s

def State.finishOp (s : State) (o : TreeOp) : State := s.endOps o s.treeOps.length

def State.findOp (s : State) (id : Nat) : Option TreeOp := s.treeOps.find? (·.id == id)
def State.setOp (s : State) (o : TreeOp) : State := { s with treeOps := mapIf (·.id == o.id) (fun _ => o) s.treeOps }

/-- A new operation, which ends now where it has neither marks nor rounds. -/
def State.startOp (s : State) (o : TreeOp) : State :=
  let s := { s with treeOps := s.treeOps ++ [{ o with id := s.ids }], ids := s.ids + 1 }
  let o := { o with id := s.ids - 1 }
  if o.dies == some [] then s.finishOp o else s

/-! ### What an operation at the head of the queue does -/

/-- What a derivation comes to (R377, R406, R460): its outcome, or the source node and the receiver's window. -/
def State.deriveCheck (s : State) (part : Nat) (grant : Bool) (sctx : Nat) (x : Option (Nat × Node)) (va lg rctx win off rights : Nat) :
    Except Nat (Nat × Node × Window) :=
  match x with
  | none => .error 1
  | some (i, x) =>
    let size := 2 ^ (6 + lg)
    let w := nfind s.windows (rctx * 64 + win)
    let k := s.keySlot x.slot
    if x.vbase + x.size < va + size then .error 1
    else if x.state == .dead || s.withdrawn x then .error 6
    else if !grant && sctx != 0 && x.rights / 4 % 2 == 0 then .error 2
    else if grant && (va != x.vbase || lg != x.lg || x.state == .pending) then .error 8
    else if !grant && x.state == .pending then .error 8
    else if rctx == 0 || !(s.ctx rctx).inUse || (s.ctx rctx).kill.isSome || (s.ctx rctx).part != part || rctx == sctx then .error 5
    else match w with
      | none => .error 4
      | some w =>
        let base := w.base + off
        let admits := if sctx == 0 then w.host else w.anyCtx || w.src == sctx
        let promised := s.treeOps.any fun o => match o.fin with
          | .grant _ b _ _ c _ _ => c == rctx && b < base + size && base < b + (s.node (o.set.getD 0 0)).size
          | _ => false
        if !admits || off % size != 0 || 2 ^ (6 + w.lgw) < off + size || s.meetsLive rctx base size || promised then .error 4
        else if rights &&& x.rights != rights || rights &&& w.maxr != rights ||
            (sctx == 0 && 2 ^ 46 ≤ x.phys && rights &&& 2 != rights) then .error 3
        else if !grant && (2 ^ 22 ≤ s.nodes.length || x.depth == 31) then .error 7
        else if x.sealed && ((s.ctx rctx).tenant != k.tenant || !s.slotLoaded x.slot || s.slotExpired x.slot (s.treeDieOf part)) then
          .error 9
        else .ok (i, x, w)

/-- The source of a derivation. -/
def State.source (s : State) (ctx : Nat) : TreeKind → Option (Nat × Node)
  | .derive _ va .. => s.cover ctx va
  | .rootMap i .. => (nfind s.nodes i).bind fun n => if n.depth == 0 then some (i, n) else none
  | _ => none

/-- Check the derivation of a message. -/
def State.checkMsg (s : State) (part : Nat) (m : TreeMsg) : Except Nat (Nat × Node × Window) :=
  match m.kind with
  | .derive g va lg rctx win off rights _ => s.deriveCheck part g m.ctx (s.source m.ctx m.kind) va lg rctx win off rights
  | .rootMap i rctx win off rights =>
    let n := s.node i
    s.deriveCheck part false 0 (s.source 0 m.kind) n.vbase n.lg rctx win off rights
  | _ => .error 1

/-- The link of a derived node (R377). (log 84, DEDUCED) -/
def State.link (s : State) (part : Nat) (m : TreeMsg) (i : Nat) (x : Node) (w : Window) (va lg rctx win off rights cookie : Nat) :
    State :=
  let j := freshKey 0 s.nodes
  let y : Node :=
    { part := part, ctx := rctx, vbase := w.base + off, lg := lg, phys := x.phys + (va - x.vbase), rights := rights,
      sealed := x.sealed, slot := x.slot, depth := x.depth + 1, parent := some i, seq := x.nextSeq }
  let s := if x.sealed then
      s.scrollEntry 0x06 (s.tenantOf rctx) m.ctx x.slot (BitVec.ofNat 64 (j * 2 ^ 42))
    else s
  let s := s.enterMeters m.ctx rctx x.sealed x.slot
  let s := (s.setNode i { x with nextSeq := x.nextSeq + 1 }).setNode j y
  let s := s.emitMap m.asker m.ctx 0x200 y
  (s.notifyMap part m rctx win w.ep w.handler cookie j y false).answerTree m.asker (treeWord j 0) none

/-- The union of the walker masks of a set, in rising order. (log 88, DEDUCED) -/
def State.maskedDies (s : State) (set : List Nat) : List Nat :=
  (List.range 32).filter fun d => !s.fenced.contains d && set.any fun i => (s.node i).wmask.contains d

/-- A derivation that has passed its checks. (log 88, DEDUCED) -/
def State.derive (s : State) (part : Nat) (m : TreeMsg) (i : Nat) (x : Node) (w : Window) : State :=
  match m.kind with
  | .derive false va lg rctx win off rights cookie => s.link part m i x w va lg rctx win off rights cookie
  | .derive true _ _ rctx win off rights cookie =>
    (s.setNode i { x with state := .pending }).startOp
      { id := 0, part := part, asker := m.asker, ctx := m.ctx, fin := .grant win (w.base + off) rights cookie rctx w.ep w.handler,
        set := [i],
        marks := [], dies := some (s.maskedDies [i]), round := none, after := [], floor := m.floor }
  | .rootMap _ rctx win off rights => s.link part m i x w x.vbase x.lg rctx win off rights 0
  | _ => s

/-- The receiver that a derivation names. -/
def TreeKind.receiver : TreeKind → Nat
  | .derive _ _ _ rctx .. => rctx
  | .rootMap _ rctx .. => rctx
  | _ => 0

/-- The node that a withdrawal names: its index and node, the self flag, and the outcome where it names none.
(log 87, DEDUCED) -/
def State.target (s : State) (m : TreeMsg) : Except Nat (Nat × Node × Bool) :=
  let pick (x : Option (Nat × Node)) (self : Bool) : Except Nat (Nat × Node × Bool) :=
    match x with
    | none => .error 1
    | some (i, n) => if n.state != .live || s.withdrawn n then .error 2 else .ok (i, n, self)
  match m.kind with
  | .unmap va self _ =>
    match s.nodes.find? fun (_, n) => n.ctx == m.ctx && n.vbase == va && n.state != .dead with
    | some x => pick (some x) self
    | none => pick (s.nodes.find? fun (_, n) => n.ctx == m.ctx && n.vbase == va) self
  | .rootUnmap i self => pick ((nfind s.nodes i).bind fun n => if n.depth == 0 then some (i, n) else none) self
  | .purge i => (nfind s.nodes i).elim (.error 1) fun n => if s.withdrawn n then .error 2 else .ok (i, n, true)
  | _ => .error 1

/-- The range of a root (R449, R455): whether it may stand, and whether it may be sealed. -/
def State.rootRange (s : State) (part phys size : Nat) : Bool × Bool :=
  if phys < 2 ^ 40 then (sharePart s.parts phys size == some part && !(part == 0 && s.reserved_ phys size), true)
  else if 2 ^ 44 ≤ phys && phys < 3 * 2 ^ 44 then
    let port := phys / 2 ^ 44 - 1
    let off := phys % 2 ^ 44
    (match s.outWindow port off with
      | none => false
      | some (i, w, _) =>
        (s.tableEntry 1 port i).1 == w && off + size ≤ fld w 0 44 + 2 ^ (12 + fld w 44 6) && (fld w 50 8).testBit part, false)
  else (2 ^ 46 ≤ phys && phys + size ≤ 2 ^ 47, false)

/-- The whole range of a sealed root encrypts zeros (R403). -/
def State.sealZero (s : State) (slot g : Nat) : Nat → State
  | 0 => s
  | n + 1 => (State.sealZero s slot g n).setGranule slot (g + n) (List.replicate 64 0)

/-- The status of a root creation (R403, R405, R460): its fields, its range, its seal, the room in the tree. What a CXL decoder
exports cannot be sealed. (log 90, DEDUCED; log 108, DEDUCED) -/
def State.rootStatus (s : State) (part phys lg : Nat) (isSealed : Bool) (slot tenant : Nat) : Nat :=
  let size := 2 ^ (6 + lg)
  let (ok, sealable) := s.rootRange part phys size
  let k := s.keySlot slot
  if 25 ≤ lg || 2 ^ 48 ≤ phys || s.parts ≤ part || 256 ≤ slot || 256 ≤ tenant || phys % size != 0 then 0xFF
  else if !ok then 1
  else if isSealed && (!sealable || !s.slotLoaded slot || k.tenant != tenant || s.slotExpired slot (s.treeDieOf part) ||
      s.decoderMeets phys size) then 9
  else if 2 ^ 22 ≤ s.nodes.length then 7
  else 0

/-- A root stands: a sealed one behind its Scroll entry, with its range at encrypted zeros (R403, R413). -/
def State.makeRoot (s : State) (part phys lg : Nat) (isSealed : Bool) (slot tenant : Nat) : Nat × State :=
  let i := freshKey 0 s.nodes
  let s := if isSealed then
      (s.scrollEntry 0x05 tenant 0 slot (BitVec.ofNat 64 phys)).sealZero slot (phys / 64) (2 ^ (6 + lg) / 64)
    else s
  (i, s.setNode i
    { part := part, ctx := 0, vbase := phys, lg := lg, phys := phys, rights := 7, sealed := isSealed,
      slot := if isSealed then slot else 0 })

/-- Scroll entries that the operation at the head brings: it is held while they do not fit (R416). -/
def State.headEntries (s : State) (part : Nat) (m : TreeMsg) : Nat :=
  match m.kind with
  | .derive grant .. =>
    match s.checkMsg part m with
    | .error _ => 0
    | .ok (i, x, _) => if grant && !(s.maskedDies [i]).isEmpty then 0 else s.moveEntries m.ctx m.kind.receiver x
  | .rootMap .. =>
    match s.checkMsg part m with
    | .error _ => 0
    | .ok (_, x, _) => s.moveEntries m.ctx m.kind.receiver x
  | .createRoot phys lg slot tenant => if s.rootStatus part phys lg true slot tenant == 0 then 1 else 0
  | .unmap .. | .rootUnmap .. | .purge _ =>
    match s.target m with
    | .error _ => 0
    | .ok (_, n, _) => if n.sealed then 1 else 0
  | _ => 0

/-- A tree unit is held by a sealed operation that the Scroll cannot take, and performs nothing else; or by the slate of
its die's pool. -/
def State.treeStuck (s : State) (part : Nat) : Bool :=
  s.isHeld (s.treePool part) || s.takingOver (treeDie part) ||
    (match nget [] s.treeQ part with
      | [] => false
      | m :: _ => let k := s.headEntries part m; k != 0 && (s.securityHeld || !s.scrollFits k)) ||
    s.treeOps.any fun o => o.part == part && o.over && o.fin.isGrant

/-- The head of a tree unit's queue, taken. -/
def State.treeHead (s : State) (part : Nat) (p : TreeKind → Bool) : Option (TreeMsg × State) :=
  match nget [] s.treeQ part with
  | [] => none
  | m :: rest => if p m.kind && !s.treeStuck part then some (m, { s with treeQ := nset s.treeQ part rest }) else none

def TreeKind.derives : TreeKind → Bool
  | .derive .. | .rootMap .. | .createRoot .. => true
  | _ => false
def TreeKind.withdraws : TreeKind → Bool
  | .unmap .. | .rootUnmap .. | .purge _ => true
  | _ => false
def TreeKind.isWindow : TreeKind → Bool
  | .openWindow .. | .closeWindow _ => true
  | _ => false
def TreeKind.reads : TreeKind → Bool
  | .query .. | .flush .. => true
  | _ => false

/-- A sealed root creation that the Scroll has held, and that may be made now (R416). -/
def State.heldRoot (s : State) (part phys lg slot tenant : Nat) : State :=
  let st := s.rootStatus part phys lg true slot tenant
  if st != 0 then s.setResult 0 0 st
  else
    let (i, s) := s.makeRoot part phys lg true slot tenant
    s.setResult 0 i 0

/-- DERIVE (R377), and the root creation that the Scroll has held. -/
def execDerive (part : Nat) (s : State) : Out :=
  .next
    (match s.treeHead part TreeKind.derives with
      | none => s
      | some (m, s) =>
        match m.kind, s.checkMsg part m with
        | .createRoot phys lg slot tenant, _ => s.heldRoot part phys lg slot tenant
        | _, .ok (i, x, w) => s.derive part m i x w
        | _, .error c =>
          let base := match m.kind with
            | .derive _ va .. => va
            | .rootMap i .. => (s.node i).vbase
            | _ => 0
          let s := if c == 6 then s.emitTree part m.ctx 0x205 0 (some (BitVec.ofNat 64 base, 0)) else s
          s.answerTree m.asker (treeWord 0 c) none)

/-- The withdrawn set is fixed (R380-R382): the marks, the operation, the earlier withdrawals that it follows. -/
def State.withdraw (s : State) (part : Nat) (m : TreeMsg) (i : Nat) (n : Node) (self : Bool) (va : Nat) (async : Option (Nat × Nat)) :
    State :=
  let all := postOrder s.nodes 32 i
  let all := if self then all else all.dropLast
  let earlier := s.treeOps.filter fun o => o.fin.isUnmap && o.set.any all.contains
  let mine := all.filter fun j => !earlier.any fun o => o.set.contains j
  let s := if n.sealed then
      s.scrollEntry 0x08 (s.tenantOf n.ctx) m.ctx n.slot (BitVec.ofNat 64 (i * 2 ^ 42 + Nat.min all.length 0x3FFFFF))
    else s
  let s := s.setNode i (if self then { n with selfMark := true } else { n with descMark := some n.nextSeq })
  let s := s.emitTree part m.ctx 0x202 0 (some (BitVec.ofNat 64 i, 0))
  let id := s.ids
  let s := { s with
    ids := s.ids + 1
    treeOps := mapIf (fun o => o.fin.isGrant && o.set.any all.contains) (fun o => { o with after := o.after ++ [id] }) s.treeOps ++
      [{ id := id, part := part, asker := m.asker, ctx := m.ctx, fin := .unmap all.length va async, set := mine, marks := mine,
         dies := none, round := none, after := earlier.map (·.id), floor := m.floor }] }
  match async with
  | none => s
  | some _ => s.answerTree m.asker (treeWord (Nat.min all.length 0x3FFFFF) 0) none

/-- UNMAP_EFFECT (R380). -/
def execUnmapEffect (part : Nat) (s : State) : Out :=
  .next
    (match s.treeHead part TreeKind.withdraws with
      | none => s
      | some (m, s) =>
        match s.target m with
        | .error c => s.answerTree m.asker (treeWord 0 c) none
        | .ok (i, n, self) =>
          match m.kind with
          | .unmap va _ async => s.withdraw part m i n self va async
          | _ => s.withdraw part m i n self n.vbase none)

/-- DEAD_MARKS (R383): the next node of a withdrawal is marked dead; after the last one the dies of its rounds stand. -/
def execDeadMarks (op : Nat) (s : State) : Out :=
  .next
    (match s.findOp op with
      | none => s
      | some o =>
        if o.dies.isSome || s.treeStuck o.part then s
        else
          let s := match o.marks with
            | [] => s
            | i :: _ => s.setNode i { s.node i with state := .dead }
          let o := { o with marks := o.marks.drop 1 }
          let o := if o.marks.isEmpty then { o with dies := some (s.maskedDies o.set) } else o
          let s := s.setOp o
          if o.over then s.finishOp o else s)

/-- INVALIDATION_ROUND (R383): the drop instant at the next die. -/
def execInvalidationRound (op : Nat) (s : State) : Out :=
  .next
    (match s.findOp op with
      | none => s
      | some o =>
        match o.dies, o.round with
        | some (d :: ds), none =>
          if s.treeStuck o.part || s.isHeld (walkerSrc d) then s
          else
            let nodes := s.opNodes o
            let old := s.cacheOf d
            let kept := old.filter fun e => !nodes.contains e.node
            let used (l : Landing) : Bool := l.die == d && nodes.contains l.node
            let uses := (s.reqs.filter fun r => r.land.any used).map (·.id) ++
              s.channels.flatMap fun (_, c) => (c.pins.filter fun p => p.src.any used || p.dst.any used).map (·.id)
            (s.setCache d kept).setOp { o with dies := some ds, round := some ⟨d, s.now, uses, nodes, old.length - kept.length⟩ }
        | _, _ => s)

/-- An access or a copy piece that used a dropped entry is still in flight. -/
def State.stillUses (s : State) (r : Round) : Bool :=
  let used (l : Landing) : Bool := l.die == r.die && r.nodes.contains l.node
  r.uses.any fun id =>
    s.reqs.any (fun q => q.id == id && q.land.any used) ||
      s.channels.any fun (_, c) => c.pins.any fun p => p.id == id && (p.src.any used || p.dst.any used)

/-- INVALIDATION_ACK (R383): the round of a die is over; after the last one the operation ends. -/
def execInvalidationAck (op : Nat) (s : State) : Out :=
  .next
    (match s.findOp op with
      | none => s
      | some o =>
        match o.round with
        | none =>
          -- an operation that has been held ends when nothing holds it any more
          if o.over && s.mayEnd o then s.finishOp o else s
        | some r =>
          if s.stillUses r || s.isHeld (walkerSrc r.die) then s
          else
            let s := s.emit (walkerSrc r.die) r.die o.ctx 0x241 (Nat.min r.count 0x3FFFFF)
            let o := o.acked
            let s := s.setOp o
            if o.over && s.mayEnd o then s.finishOp o else s)

/-- MIGRATION_HANDOVER (R217, R386): a page goes to the host or comes back once the walkers have dropped it. -/
def execMigrationHandover (page : Nat) (toHost : Bool) (s : State) : Out :=
  .next
    (if nget false s.shared page == toHost || s.handingOver page || 2 ^ 24 ≤ page then s
    else
      let nodes := (s.nodes.filter fun (_, n) => n.phys < (page + 1) * 2 ^ 16 && page * 2 ^ 16 < n.phys + n.size).map (·.1)
      let dies := s.usingDies (fun e => nodes.contains e.node) (fun l => nodes.contains l.node)
      s.startOp
        { id := 0, part := 0, asker := .nobody, ctx := 0, fin := .handover page toHost, set := [], marks := [],
          dies := some dies, round := none, after := [], floor := 0 })

/-! ### Windows (R372, R392) -/

/-- The outcome of opening a window. (log 89, DEDUCED) -/
def State.openOutcome (s : State) (part ctx win : Nat) (w : Window) : Nat :=
  let size := 2 ^ (6 + w.lgw)
  let meets (v : Window) : Bool := v.base < w.base + size && w.base < v.base + 2 ^ (6 + v.lgw)
  if (nfind s.windows (ctx * 64 + win)).isSome then 1
  else if w.base % size != 0 || 2 ^ 57 < w.base + size then 2
  else if s.windows.any (fun (k, v) => k / 64 == ctx && meets v) || s.meetsLive ctx w.base size then 3
  else if !(isService w.ep || ((isSmall w.ep || isMemCore w.ep) && s.partOf (epCore w.ep) == part)) then 4
  else 0

/-- WINDOW_CHANGE. -/
def execWindowChange (part : Nat) (s : State) : Out :=
  .next
    (match s.treeHead part TreeKind.isWindow with
      | none => s
      | some (m, s) =>
        match m.kind with
        | .openWindow win w =>
          let c := s.openOutcome part m.ctx win w
          let s := if c == 0 then { s with windows := nset s.windows (m.ctx * 64 + win) w } else s
          s.answerTree m.asker (BitVec.ofNat 64 c) none
        | .closeWindow win =>
          let k := m.ctx * 64 + win
          if (nfind s.windows k).isNone then s.answerTree m.asker 1 none
          else { s with windows := ndel s.windows k }.answerTree m.asker 0 none
        | _ => s)

/-! ### Queries and flushes (R393, R394) -/

/-- What MQUERY pushes. (log 91, DEDUCED) -/
def State.queryWord (s : State) (ctx va sel : Nat) : Word :=
  match s.cover ctx va with
  | none => 0
  | some (i, n) =>
    if sel == 1 then BitVec.ofNat 64 n.vbase
    else if sel == 2 then BitVec.ofNat 64 ((childrenOf s.nodes i).filter (·.2.state == .live)).length
    else
      BitVec.ofNat 64 ((if n.state != .dead then 2 ^ 63 else 0) + (if s.withdrawn n then 2 ^ 62 else 0) +
        (if n.state == .pending then 2 ^ 61 else 0) + n.depth * 2 ^ 56 + (if n.sealed then 2 ^ 55 else 0) + n.slot * 2 ^ 47 +
        n.rights * 2 ^ 44 + n.lg * 2 ^ 39 + i)

/-- The rounds of a flush: at every walker die of the partition that holds an entry of the nodes. -/
def State.flush (s : State) (part : Nat) (m : TreeMsg) (va lg : Nat) : State :=
  let set := (s.nodes.filter fun (_, n) => n.ctx == m.ctx && n.meets va (2 ^ (6 + lg))).map (·.1)
  if set.isEmpty then s.answerTree m.asker 1 none
  else
    let dies := (s.usingDies (fun e => set.contains e.node) (fun l => set.contains l.node)).filter (partDies s.parts part).contains
    s.startOp
      { id := 0, part := part, asker := m.asker, ctx := m.ctx, fin := .flush, set := set, marks := [], dies := some dies,
        round := none, after := [], floor := m.floor }

/-- A read at a tree unit: MQUERY, or the start of XFLUSH. -/
def State.treeRead (s : State) (part : Nat) : State :=
  match s.treeHead part TreeKind.reads with
  | none => s
  | some (m, s) =>
    match m.kind with
    | .query va sel => s.answerTree m.asker (s.queryWord m.ctx va sel) none
    | .flush va lg => s.flush part m va lg
    | _ => s

/-! ### The instructions (R389-R394) -/

/-- The scope at which an operation's push is an acquire (R387, R394). -/
def TreeKind.acquires : TreeKind → Option Scope
  | .unmap _ _ none => some .sys
  | .flush .. => some .dev
  | _ => none

/-- Send an operation to the partition's tree unit; its push is reserved. -/
def State.sendTree (s : State) (dst : Dst) (kind : TreeKind) : State :=
  let f := s.carried s.cur (epDie s.cur)
  let (id, s) := s.reserve dst true kind.acquires
  let m : TreeMsg := ⟨.thread s.cur s.me.unit.uid id s.me.unit.launch, s.myCtx, kind, f⟩
  { s with treeQ := nset s.treeQ s.myPart (nget [] s.treeQ s.myPart ++ [m]) }.done 16

/-- The far address of an address-space instruction, a multiple of `size`, or the fault's cause (R389). -/
def farArg (v : Word) (size : Nat) : Except Nat Nat :=
  if fld v 57 7 != 0 then .error 0x0A else if v.toNat % size != 0 then .error 0x0B else .ok v.toNat

/-- MAP and GRANT. -/
def State.mapOrGrant (s : State) (grant : Bool) (dst : Dst) (a b : Src) (cookie : W32) (rctx : BitVec 12) (win : BitVec 6)
    (lg : BitVec 5) (rights : BitVec 3) : State :=
  let va := s.raw cookie a
  let off := s.raw cookie b
  let size := 2 ^ (6 + lg.toNat)
  match farArg va size with
  | .error c => s.raise c va
  | .ok v =>
    if off.toNat % size != 0 then s.raise 0x0B off
    else s.sendTree dst (.derive grant v lg.toNat rctx.toNat win.toNat off.toNat rights.toNat cookie.toNat)

/-- MAP. -/
def execMap (dst : Dst) (a b : Src) (cookie : W32) (rctx : BitVec 12) (win : BitVec 6) (lg : BitVec 5) (rights : BitVec 3)
    (s : State) : Out := .next (s.mapOrGrant false dst a b cookie rctx win lg rights)

/-- GRANT. -/
def execGrant (dst : Dst) (a b : Src) (cookie : W32) (rctx : BitVec 12) (win : BitVec 6) (lg : BitVec 5) (rights : BitVec 3)
    (s : State) : Out := .next (s.mapOrGrant true dst a b cookie rctx win lg rights)

/-- UNMAP.sync: it pushes at completion. -/
def execUnmap (dst : Dst) (a : Src) (self : Bool) (s : State) : Out :=
  let va := s.raw 0 a
  .next
    (match farArg va 1 with
      | .error c => s.raise c va
      | .ok v => s.sendTree dst (.unmap v self none))

/-- UNMAP.async: it pushes at its effect instant. -/
def execUnmapAsync (dst : Dst) (a : Src) (self : Bool) (ep : BitVec 18) (handler : BitVec 12) (s : State) : Out :=
  let va := s.raw 0 a
  .next
    (match farArg va 1 with
      | .error c => s.raise c va
      | .ok v =>
        if !s.threadOf s.myPart ep.toNat then s.raise 0x05 (ep.setWidth 64)
        else s.sendTree dst (.unmap v self (some (ep.toNat, handler.toNat))))

/-- ACCEPT, op 1: open. (log 89, DEDUCED) -/
def execAcceptOpen (dst : Dst) (a : Src) (win : BitVec 6) (lgw : BitVec 6) (maxr : BitVec 3) (src : BitVec 12) (host : Bool)
    (ep : BitVec 18) (handler : BitVec 12) (s : State) : Out :=
  let va := s.raw 0 a
  .next
    (match farArg va 1 with
      | .error c => s.raise c va
      | .ok v =>
        s.sendTree dst (.openWindow win.toNat
          { base := v, lgw := lgw.toNat, maxr := maxr.toNat, src := src.toNat, anyCtx := src == 0, host := host,
            ep := ep.toNat, handler := handler.toNat }))

/-- ACCEPT, op 0: close. -/
def execAcceptClose (dst : Dst) (_a : Src) (win : BitVec 6) (s : State) : Out := .next (s.sendTree dst (.closeWindow win.toNat))

/-- MQUERY. -/
def execMquery (dst : Dst) (a : Src) (sel : BitVec 2) (s : State) : Out :=
  let va := s.raw 0 a
  .next
    (match farArg va 1 with
      | .error c => s.raise c va
      | .ok v => s.sendTree dst (.query v sel.toNat))

/-- XFLUSH. -/
def execXflush (dst : Dst) (a : Src) (lg : BitVec 5) (s : State) : Out :=
  let va := s.raw 0 a
  .next
    (match farArg va (2 ^ (6 + lg.toNat)) with
      | .error c => s.raise c va
      | .ok v => s.sendTree dst (.flush v lg.toNat))

end Sys2Proof.Machine
end

