-- ==== Sys2Proof/Machine/Kill.lean ====
section
/-!
DEFINITION. The purge of a context, and the fencing of a die with what follows it (21_traps_and_recovery.md R438-R442,
14_scheduling_and_progress.md R315-R318).
-/
namespace Sys2Proof.Machine

/-! ### KILL (R438) -/

/-- The cores that are bound to a context. -/
def State.coresOf (s : State) (ctx : Nat) : List Nat := (s.cores.filter fun (_, k) => k.bound == some ctx).map (·.1)

/-- Threads of a list of cores at their state after reset; the cores unbind, and their scratchpads will be zeroed. -/
def State.resetCores (s : State) : List Nat → State
  | [] => s
  | c :: cs =>
    let s := { s with threads := nkeep (fun e _ => epCore e != c) s.threads }
    State.resetCores (s.setCore c { clock := (s.core c).clock }) cs

/-- An array without the work of a context: the entries of its jobs are idle. One that served it has unbound, and will be
zeroed before it serves another. -/
def Arr.purge (x : Arr) (ctx : Nat) : Arr :=
  let mine (id : Nat) : Bool := x.jobs.any fun j => j.id == id && j.ctx == ctx
  let serves := x.ctx == some ctx
  { x with
    jobs := x.jobs.filter (·.ctx != ctx)
    table := x.table.filter fun (id, _) => !mine id
    cmds := x.cmds.filter (·.ctx != ctx)
    slots := if serves then [] else x.slots
    run := x.run.filter fun
      | .job id => !mine id
      | .lease .. => !serves
    offered := x.offered.filter fun id => !mine id
    loan := if serves then none else x.loan
    bound := x.bound && !serves
    ctx := x.ctx.filter (· != ctx) }

/-- A copy channel whose chain ends: the pieces in hand that go to far memory and that no meter holds are written yet, and
nothing waits for them any more (R258, R318, R438). (log 53, DEDUCED) -/
def Channel.cutChain (c : Channel) (held : Nat → Bool) : Channel :=
  let ps := c.pins.filter fun p => p.dst.isSome && !held p.id
  if ps.isEmpty then { queue := c.queue, code := c.code }
  else
    { c with pieces := ps, ending := true, stopped := false, waiting := false, owed := none
             kick := c.kick.map fun q => { q with uid := 0, det := true, cn := none } }

/-- A copy channel without the chains of a context. -/
def Channel.purge (c : Channel) (ctx : Nat) (held : Nat → Bool) : Channel :=
  let c := { c with queue := c.queue.filter (·.ctx != ctx) }
  if c.kick.any (·.ctx == ctx) then c.cutChain held else c

/-- The accesses that a purge leaves: those of other contexts, and writes that have reached their memory core or their host, as
accesses of no unit (R438). -/
def State.purgeReqs (s : State) (ctx : Nat) : List Req :=
  s.reqs.filterMap fun r =>
    if r.ctx != ctx then some r
    else if r.kind.writes && r.pad.isNone && r.land.isSome && !s.metersHold r.id then
      some { r with uid := 0, det := true, acq := false, holds := false }
    else none

def Adm.ctx : Adm → Nat
  | .parked _ _ _ _ c _ _ => c
  | .edge c .. => c

/-- The tags of a context's launches. -/
def State.tagsOf (s : State) (part ctx : Nat) : List Nat :=
  (s.launchTags part).filter fun t => (s.launch part t).inUse && (s.launch part t).ctx == ctx

/-- Records in use, freed: their indices go back where they have not yet. -/
def State.freeLaunches (s : State) (part : Nat) : List Nat → State
  | [] => s
  | t :: ts =>
    let s := if (s.launch part t).state.final then s else s.giveIndex 1 part t
    State.freeLaunches { s with launches := ndel s.launches (launchKey part t) } part ts

def State.freeLevels (s : State) (lvl part ctx : Nat) : List Nat → State
  | [] => s
  | i :: is =>
    let g := s.level lvl part i
    State.freeLevels
      (if g.inUse && g.ctx == ctx then
        let s := if g.state.final then s else s.giveIndex lvl part i
        { s with levels := ndel s.levels (levelKey lvl part i) }
      else s) lvl part ctx is

def Pair.purge (p : Pair) (tags : List Nat) : Pair :=
  { p with
    batches := p.batches.filter fun b => !tags.contains b.tag
    snap := p.snap.filter fun (t, _) => !tags.contains t
    skips := p.skips.filter fun (t, _, _) => !tags.contains t
    pinned := p.pinned.filter fun (t, _) => !tags.contains t }

/-- The distributors free what they hold of a context. -/
def State.purgeLaunches (s : State) (part ctx : Nat) : State :=
  let tags := s.tagsOf part ctx
  let s := { s with
    pairs := nmap (fun k (p : Pair) => if pairPart s.parts k == part then p.purge tags else p) s.pairs
    adm := nset s.adm part ((nget [] s.adm part).filter (·.ctx != ctx)) }
  let s := s.freeLaunches part tags
  let s := s.freeLevels 2 part ctx (s.levelIndices 2 part)
  let s := s.freeLevels 3 part ctx (s.levelIndices 3 part)
  (s.freeLevels 4 part ctx (s.levelIndices 4 part)).pinAll part (partPairs s.parts part)

/-- The sinks of a killed context are torn down as by a write of `sr.tsink` with valid = 0 (R283). (log 79, DEDUCED) -/
def State.closeSinks (s : State) : List Nat → State
  | [] => s
  | k :: ks =>
    let dies := s.sinkDies k (s.sink k).ctx
    let die := s.securityDie
    let w := BitVec.ofNat 64 (fld (s.sysReg .tsink k die) 0 57)
    State.closeSinks ((s.closeSink k).writeReg .tsink k w die dies) ks

/-- The walk pools without those that ask for nothing any more: accesses and channels that are gone (R373). -/
def State.dropWalks (s : State) : State :=
  let asks (who : Nat) : Bool :=
    if who < 2 ^ 40 then s.reqs.any (·.id == who)
    else if who < 2 ^ 41 then (nget {} s.channels (who - 2 ^ 40)).kick.isSome
    else if who < 2 ^ 42 then s.msgs.any fun m => bindWalk (epCore m.dest) == who
    else true
  { s with walks := nmap (fun _ (q : List Nat) => q.filter asks) s.walks }

/-- Frames numbered afresh from `n` on. -/
def renumber : Nat → List Frame → List Frame
  | _, [] => []
  | n, f :: fs => { f with seq := n % 2 ^ 32 } :: renumber (n + 1) fs

/-- Connections without the frames of a context that a meter holds: these have not left, and no number of theirs is taken
(R411, R438). -/
def State.orphanFrames (s : State) (ctx : Nat) : NMap Conn :=
  nmap (fun _ (c : Conn) =>
    let out := s.framesOut c.unacked
    let held := c.unacked.drop out.length
    let n := (held.head?.map (·.seq)).getD c.sendSeq
    let held := renumber n (held.filter (·.ctx != ctx))
    { c with unacked := out ++ held, sendSeq := (n + held.length) % 2 ^ 32 }) s.conns

/-- A debug read of a context whose word a meter holds: the word is discarded, and the page answers with any status but 0
(R411, R458). (log 107, DEDUCED) -/
def State.dropDebugRead (s : State) (ctx : Nat) : State :=
  if s.debugWait.any fun (id, _) => s.beats.any fun b => b.id == id && b.ctx == ctx then
    let (w, s) := s.freeValue
    { s with debugWait := none }.setResult 7 (fld w 8 32) (1 + fld w 0 8 % 255)
  else s

/-- An instance that is reserved for a stage of the context is released (R344). -/
def State.freeInst (s : State) (ctx e : Nat) (t : Thread) : Thread :=
  { t with inst := t.inst.filter fun n => (s.stage (s.partOf (epCore e)) n).ctx != ctx }

/-- Every part of the package lets go of a context: cores, arrays, copy units, distributors, interfaces, walkers.
(log 53, DEDUCED; log 79, DEDUCED) -/
def State.purge (s : State) (ctx : Nat) : State :=
  let part := (s.ctx ctx).part
  let s := s.dropHeld (·.ctx == ctx)
  let s := s.closeSinks ((nkeep (fun _ (x : Sink) => x.valid && x.ctx == ctx) s.sinks).map (·.1))
  let s := (s.resetCores (s.coresOf ctx)).dropDebugRead ctx
  let s := { s with
    msgs := s.msgs.filter fun m => hdrCtx m.hdr != ctx
    reqs := s.purgeReqs ctx
    beats := s.beats.filter (·.ctx != ctx)
    channels := nmap (fun _ (c : Channel) => c.purge ctx s.metersHold) s.channels
    arrays := nmap (fun _ (a : Arr) => a.purge ctx) s.arrays
    threads := nmap (fun e (t : Thread) => s.freeInst ctx e t) s.threads
    stages := nkeep (fun _ (g : Stage) => g.ctx != ctx) s.stages
    caches := nmap (fun _ (c : List Cached) => c.filter fun e => e.ctx != ctx) s.caches
    treeQ := nmap (fun _ (q : List TreeMsg) => q.filter fun m => m.ctx != ctx || m.asker == Asker.nobody) s.treeQ
    conns := s.orphanFrames ctx }
  s.dropWalks.purgeLaunches part ctx

def State.setKill (s : State) (ctx phase : Nat) : State :=
  let c := s.ctx ctx
  { s with ctxs := nset s.ctxs ctx { c with kill := c.kill.map fun (r, _) => (r, phase) } }

def Ctx.phase (c : Ctx) : Option Nat := c.kill.map (·.2)

/-- KILL_SWEEP. (log 53, DEDUCED) -/
def execKillSweep (ctx : Nat) (s : State) : Out :=
  .next (if (s.ctx ctx).phase == some 0 then (s.purge ctx).setKill ctx 1 else s)

/-- The nodes of a context that no withdrawal holds or awaits, in the order of their bases. -/
def State.leftNodes (s : State) (ctx : Nat) : List Nat :=
  let asked := (nget [] s.treeQ (s.ctx ctx).part).filterMap fun m => match m.kind with
    | .purge i => some i
    | _ => none
  let ns := s.nodes.filter fun (i, n) => n.ctx == ctx && n.state == .live && !s.withdrawn n && !asked.contains i
  (sortBy (fun a b => a.2.vbase ≤ b.2.vbase) ns).map (·.1)

/-- KILL_CONFIRM: the withdrawals are given to the tree unit. -/
def execKillConfirm (ctx : Nat) (s : State) : Out :=
  .next
    (match (s.ctx ctx).phase with
      | none | some 0 => s
      | some _ =>
        let part := (s.ctx ctx).part
        let ms := (s.leftNodes ctx).map fun i => (⟨.nobody, ctx, .purge i, 0⟩ : TreeMsg)
        { s.purge ctx with treeQ := nset (s.purge ctx).treeQ part (nget [] (s.purge ctx).treeQ part ++ ms) }.setKill ctx 2)

/-- The request pages that asked for the purge are told. -/
def State.tellKillers (s : State) : List Nat → State
  | [] => s
  | p :: ps => State.tellKillers (s.setResult p 0 0) ps

/-- Debug requesters lose their attachment with the context (R413, R471). -/
def State.detachAll (s : State) (ctx : Nat) : List Nat → State
  | [] => s
  | q :: qs => State.detachAll ({ s with debug := ndel s.debug q }.tellDebug ctx q false) ctx qs

/-- Everything that is kept under the context's identifier, back at its reset value: a later context of this number is another
one to every core and array (R34, R159). -/
def State.forgetCtx (s : State) (ctx : Nat) : State :=
  { s with
    windows := nkeep (fun k _ => k / 64 != ctx) s.windows
    regs := nkeep (fun k _ => !(k / 32 % 4096 == ctx && k / 32 / 4096 ≤ SysReg.wdog.code)) s.regs
    regLog := s.regLog.filter fun w => !(w.owner == ctx && w.reg.code ≤ SysReg.wdog.code)
    metered := ndel s.metered ctx
    sinks := nkeep (fun _ (x : Sink) => x.ctx != ctx) s.sinks
    shares := nkeep (fun k _ => !s.sinks.any fun (j, x) => j == k / 32 && x.ctx == ctx) s.shares
    pages := nkeep (fun _ (p : SubPage) => p.ctx != ctx) s.pages
    reqs := s.reqs.filter (·.ctx != ctx)
    cores := nmap (fun _ (k : Core) => { k with prev := k.prev.filter (· != ctx) }) s.cores
    arrays := nmap (fun _ (x : Arr) => { x with ctx := x.ctx.filter (· != ctx) }) s.arrays
    ctxs := ndel s.ctxs ctx }

/-- KILL_COMPLETE: no node is left and no operation names the context, and the Scroll takes the entries of the debug
attachments that end with it (R414). (log 53, DEDUCED) -/
def execKillComplete (ctx : Nat) (s : State) : Out :=
  let c := s.ctx ctx
  let gives (o : TreeOp) : Bool := match o.fin with
    | .grant _ _ _ _ r _ _ => r == ctx
    | _ => false
  .next
    (if c.phase != some 2 || s.nodes.any (fun (_, n) => n.ctx == ctx) || s.treeOps.any (fun o => o.ctx == ctx || gives o) ||
        (nget [] s.treeQ c.part).any (·.ctx == ctx) || s.securityHeld then s
    else
      let qs := (nkeep (fun _ x => x == ctx) s.debug).map (·.1)
      if !qs.isEmpty && !s.scrollFits qs.length then s
      else
      let s := (s.purge ctx).detachAll ctx qs
      let s := s.emitSecurity 0 0x301 ctx (some (BitVec.ofNat 64 (((c.kill.map (·.1)).getD 0) % 2 ^ 16), 0))
      let s := s.notify 14 [BitVec.ofNat 64 ctx]
      (s.forgetCtx ctx).tellKillers c.killers)

/-! ### Fencing (R440, R441) -/

def realDie (d : Nat) : Bool := d < 32 && d != 18 && d != 19

/-- A cause of R440: the security processor is to fence the die. -/
def State.wantFence (s : State) (die : Nat) (asked : Bool) : State :=
  if !realDie die || s.fenced.contains die || s.toFence.any (fun (d, a) => d == die && a == asked) then s
  else { s with toFence := s.toFence ++ [(die, asked)] }

/-- UNCORRECTABLE_ERROR. -/
def execUncorrectableError (die : Nat) (s : State) : Out := .next (s.wantFence die false)
/-- HEARTBEAT_LOSS. -/
def execHeartbeatLoss (die : Nat) (s : State) : Out := .next (s.wantFence die false)
/-- THERMAL_TRIP. -/
def execThermalTrip (die : Nat) (s : State) : Out := .next (s.wantFence die false)

/-- An open stage with an instance on a lost pair stops routing, and the records held there are discarded; those of units
count as exited with error (R441, R45). -/
def State.loseEntries (s : State) (part ep qbase : Nat) : List QEntry → State
  | [] => s
  | q :: qs =>
    let h := (s.entryWords ep qbase q).getD 0 0
    State.loseEntries (s.countExit part (hdrLaunch h) (hdrDet h) true) part ep qbase qs

def State.loseInsts (s : State) (part qbase pair : Nat) : NMap Inst → State
  | [] => s
  | (ep, x) :: r => State.loseInsts (if epDie ep == pair then s.loseEntries part ep qbase x.queue else s) part qbase pair r

def State.deadStages (s : State) (pair : Nat) : NMap Stage → State
  | [] => s
  | (k, g) :: r =>
    State.deadStages
      (if g.isOpen && g.insts.any (fun (ep, _) => epDie ep == pair) then
        let s := s.loseInsts (k / 64) g.qbase pair g.insts
        let insts := nmap (fun ep (x : Inst) => if epDie ep == pair then { x with queue := [] } else x) g.insts
        s.setStage (k / 64) (k % 64) { g with dead := true, insts := insts }
      else s) pair r

/-- A die of a pair is lost: the pair leaves dispatch, and the survivors elect (R315, R316). (log 51, DEDUCED) -/
def State.losePair (s : State) (pair : Nat) : State :=
  let part := pairPart s.parts pair
  let s := s.updPair pair fun p => { p with fenced := true, allowance := 0 }
  let s := { s with elections := nset s.elections part s.now }
  s.deadStages pair s.stages

/-- The units of a thread's core that wait spilled count as exited with error. -/
def State.loseSpilled (s : State) (core : Nat) : Nat → State
  | 0 => s
  | n + 1 =>
    let s := State.loseSpilled s core n
    let h := s.mem.readWord (padKey core ((s.core core).spillAddr n))
    s.countExit (s.partOf core) (hdrLaunch h) (hdrDet h) true

/-- Units of threads count as exited with error, one for each unit. -/
def State.loseUnits (s : State) : List Nat → List (Nat × Thread) → State
  | _, [] => s
  | seen, (e, t) :: r =>
    if !t.busy || seen.contains t.unit.uid then State.loseUnits s seen r
    else State.loseUnits (s.countExit (s.partOf (epCore e)) t.unit.launch t.unit.det true) (t.unit.uid :: seen) r

def State.losePark (s : State) (core : Nat) : List ParkSlot → State
  | [] => s
  | p :: ps => State.losePark (s.countExit (s.partOf core) p.th.unit.launch p.th.unit.det true) core ps

/-- The cores of a die, with their units counted as exited with error. -/
def State.loseCores (s : State) : List Nat → State
  | [] => s
  | c :: cs =>
    let s := s.loseSpilled c (s.core c).spilled.length
    let s := s.losePark c (s.core c).park
    let s := s.loseUnits [] (s.threads.filter fun (e, _) => epCore e == c)
    State.loseCores (s.resetCores [c]) cs

/-- A landing lies at a channel of a base die. -/
def State.landsAt (s : State) (die : Nat) (l : Landing) : Bool :=
  match s.place l.phys with
  | .hbm ch => 20 + ch / 32 == die
  | _ => false

/-- The walker die that tells of a landing which a fence has taken: the one that translated, or the next (R373, R441). -/
def State.toldBy (s : State) (part : Nat) (l : Landing) : Nat := walkerFrom s part 12 l.die

/-- Accesses that had been translated to a lost die's channels fault as one that is translated now, and are settled as R375
gives (R441). -/
def State.loseReqs (s : State) (die : Nat) : List Req → State
  | [] => s
  | r :: rs =>
    State.loseReqs
      (match r.land with
        | some l =>
          if r.pad.isNone && s.landsAt die l then
            (s.transFault r.ctx (s.toldBy (s.ctx r.ctx).part l) { cause := 0x2C, node := some l.node, lost := die } r.kind.code
              r.ep r.launch r.va r.size r.detail).settleReq r
          else s
        | none => s) die rs

/-- Copies with a piece at a lost die's channels stop with status 4 (R254, R441). -/
def State.loseCopies (s : State) (die : Nat) : List (Nat × Channel) → State
  | [] => s
  | (k, c) :: rest =>
    let hit (l : Option Landing) : Bool := l.any (s.landsAt die)
    State.loseCopies
      (match c.kick, c.words, c.pins.find? fun p => hit p.src || hit p.dst with
        | some q, some ws, some p =>
          if c.ending then s.setChannel k ({ c with pieces := c.pieces.filter fun p => !(hit p.src || hit p.dst) }).endPiece
          else
            let (acc, l) : Nat × Option Landing := if hit p.src then (3, p.src) else (4, p.dst)
            let va := match sidesAt (epCore q.ep) ws p.off with
              | some (.far v, _, _) => if acc == 3 then v else 0
              | _ => 0
            let va := match acc, sidesAt (epCore q.ep) ws p.off with
              | 4, some (_, .far v, _) => v
              | _, _ => va
            let w := s.toldBy (s.ctx q.ctx).part (l.getD ⟨0, false, 0, 20, 0⟩)
            (s.stopChannel k q 4 none).transFault q.ctx w { cause := 0x2C, node := l.map (·.node), lost := die } acc q.ep q.launch
              va p.len (BitVec.ofNat 64 c.ref)
        | _, _, _ => s) die rest

/-- A base die is lost: accesses to its channels fault, its memory cores' threads retire with error, and no round waits for its
walkers. -/
def State.loseBase (s : State) (die : Nat) : State :=
  let s := (s.loseReqs die s.reqs).loseCopies die s.channels
  let s := s.loseCores ((s.cores.map (·.1)).filter fun c => coreDie c == die)
  { s with
    caches := ndel s.caches die
    walks := ndel s.walks die
    treeOps := s.treeOps.map fun o =>
      { o with dies := o.dies.map fun ds => ds.filter (· != die), round := o.round.filter (·.die != die) } }

/-- Shares of a sink cut in proportion to the smaller buffer; the slates of a lost buffer count as drops (R441).
(log 80, DEDUCED) -/
def State.cutShares (s : State) (io : Nat) : State :=
  let lost := s.shares.filter fun (k, _) => traceDie (k % 32) == io
  let drops (sink : Nat) : Nat := (lost.filter fun (k, _) => k / 32 == sink).foldl (fun n (_, x) => n + x.slates.length) 0
  { s with
    shares := nmap (fun k (x : Share) =>
      { x with segs := if x.segs == 0 then 0 else Nat.max 1 (x.segs / 2)
               slates := if traceDie (k % 32) == io then [] else x.slates }) s.shares
    sinks := nmap (fun k (x : Sink) => { x with drops := x.drops + drops k }) s.sinks }

/-- An I/O die is lost: its ports, service cores and their claims, and its trace buffers (R439, R441). -/
def State.loseIo (s : State) (die : Nat) : State :=
  let s := s.cutShares die
  let base := if die == 16 then 0x10 else 0x20
  let gone (q : Nat) : Bool := if die == 16 then q < 8 || q == 16 else (8 ≤ q && q < 16) || q == 17
  { s with
    links := s.links.filter fun q => !gone q
    claims := nmap (fun _ o => if base ≤ o && o < base + 16 then 1 else o) s.claims
    caches := ndel s.caches die
    walks := ndel s.walks die
    failover := false
    treeOps := s.treeOps.map fun o =>
      { o with dies := o.dies.map fun ds => ds.filter (· != die), round := o.round.filter (·.die != die) } }

/-- The security processor fences a die: slates 0x380 and 0x381, the health word, the claimant, the die's losses.
(log 51, DEDUCED) -/
def State.fenceDie (s : State) (die : Nat) : State :=
  let s := { s with fenced := s.fenced ++ [die], boot := { s.boot with repl := true } }
  let s := (s.emitSecurity 0 0x380 die none).emitSecurity 0 0x381 die none
  let s := s.notify 8 [BitVec.ofNat 64 die]
  if isVDie die then s.losePair die
  else if isMDie die then s.losePair (die - 8)
  else if isIoDie die then s.loseIo die
  else s.loseBase die

/-- DIE_FENCE. -/
def execDieFence (die : Nat) (s : State) : Out :=
  .next
    (if !s.toFence.any (·.1 == die) || s.isHeld (securitySrc s.securityDie) then s
    else
      let asked := s.toFence.any fun (d, a) => d == die && a
      let s := { s with toFence := s.toFence.filter (·.1 != die) }
      let s := if s.fenced.contains die then s else s.fenceDie die
      if asked then s.setResult 5 0 0 else s)

/-- SERVICE_FAILOVER (R442): the replica has taken the service state over, and re-reads the ring entries that were not
acknowledged. -/
def execServiceFailover (die : Nat) (s : State) : Out :=
  .next (if isIoDie die && s.takingOver die then { s with failover := true }.notify 15 [BitVec.ofNat 64 die] else s)

/-! ### The election and the reissue (R316-R318) -/

/-- The linear number of an index word. -/
def linearOf (im : List Word) (w : Word) : Nat := fld w 0 21 + imgX im * (fld w 21 21 + imgY im * fld w 42 21)

/-- A unit of the lost V-die: one that a distributor dispatched is reissued, any other counts as exited with error.
(log 48, DEDUCED) -/
def State.reissue (s : State) (part : Nat) (hdr index : Word) : State :=
  let tag := hdrLaunch hdr
  if hdrDet hdr then s
  else if hdrClass hdr != 3 then s.countExit part tag false true
  else
    let m := s.masterOf part
    let l := s.launch part tag
    let s := s.updLaunch part tag fun l =>
      { l with started := l.started - 1, dispatched := l.dispatched - 1
               reissue := if l.cancelled then l.reissue else l.reissue ++ [linearOf l.image index] }
    let s := if l.cancelled then s.settleLaunch part tag else s
    if !l.cancelled then s.emit (distributorSrc m) m l.ctx 0x183 tag else s

/-- Units on threads and in park slots, each once, whatever its members (R51, R317). -/
def State.reissueUnits (s : State) (part : Nat) : List Nat → List UnitId → State
  | _, [] => s
  | seen, u :: r =>
    if seen.contains u.uid then State.reissueUnits s part seen r
    else State.reissueUnits (s.reissue part u.hdr u.index) part (u.uid :: seen) r

def State.reissueSpilled (s : State) (part core : Nat) : Nat → State
  | 0 => s
  | n + 1 =>
    let s := State.reissueSpilled s part core n
    let a := padKey core ((s.core core).spillAddr n)
    s.reissue part (s.mem.readWord a) (s.mem.readWord (a + 8))

/-- The units that run, or are parked, on the cores of a list. -/
def State.unitsOn (s : State) (cores : List Nat) : List UnitId :=
  cores.flatMap (fun c => (s.core c).park.map (·.th.unit)) ++
    (s.threads.filter fun (e, t) => t.busy && cores.contains (epCore e)).map (·.2.unit)

def State.reissueQueues (s : State) (part : Nat) : List Nat → State
  | [] => s
  | c :: cs => State.reissueQueues (s.reissueSpilled part c (s.core c).spilled.length) part cs

def State.reissueCores (s : State) (part : Nat) (cores : List Nat) : State :=
  let s := s.reissueQueues part cores
  (s.reissueUnits part [] (s.unitsOn cores)).resetCores cores

/-- Units that messages of a fenced die would have started count as exited with error, and an acknowledgement that they owed
is no longer waited for (R317, R318). (log 155, DEDUCED) -/
def State.loseMsgs (s : State) (part : Nat) : List Msg → State
  | [] => s
  | m :: ms =>
    let s := match m.kind with
      | .unit => s.countExit part (hdrLaunch m.hdr) (hdrDet m.hdr) true
      | _ => s
    let s := match m.ack, m.kind with
      | some (_, _, launch, det), .unit => s.dropAck part launch det
      | _, _ => s
    State.loseMsgs s part ms

def State.reissueMsgs (s : State) (part : Nat) : List Msg → State
  | [] => s
  | m :: ms => State.reissueMsgs (s.reissue part m.hdr (m.payload.getD 0 0)) part ms

/-- Operations inside the lost die are discarded: their launches no longer wait for them. -/
def State.dropAcks (s : State) (part : Nat) : List (Nat × Bool) → State
  | [] => s
  | (l, det) :: r => State.dropAcks (s.dropAck part l det) part r

/-- Batches of the lost distributor return to the head of their launches' undealt batches. (log 48, DEDUCED) -/
def State.returnBatches (s : State) (part : Nat) : List Batch → State
  | [] => s
  | b :: bs =>
    (State.returnBatches s part bs).updLaunch part b.tag fun l => if l.cancelled then l else { l with back := b.units :: l.back }

/-- A copy record that has left a lost pair for its walker: both of its sides are far, and a lost copy unit has had all of its
pieces translated. It completes normally, and nothing follows it (R318). -/
def Channel.atWalker (c : Channel) (unitLost : Bool) (q : Kick) (ws : List Word) : Bool :=
  let far (x : Word) : Bool := match spotAt (epCore q.ep) x 0 4 false with
    | some (.far _) => true
    | _ => false
  c.moving ws && !c.ending && far (recSrc ws) && far (recDst ws) && (!unitLost || recBytes ws ≤ c.next)

/-- The channel of a lost pair after the election: the record at its walker, or the pieces of one that is cut (R317, R318); and
the kicks whose acknowledgements are no longer waited for. -/
def State.settleChannel (s : State) (k : Nat) (c : Channel) : Channel × List Kick :=
  let lost (q : Kick) : Bool := s.fenced.contains (channelDie k) || s.fenced.contains (epDie q.ep)
  let queue := c.queue.filter fun q => !lost q
  let gone := c.queue.filter lost
  match c.kick with
  | none => ({ c with queue := queue }, gone)
  | some q =>
    if !lost q then ({ c with queue := queue }, gone)
    else match c.words with
      | some ws =>
        if c.atWalker (s.fenced.contains (channelDie k)) q ws then
          let q' := if s.fenced.contains (epDie q.ep) then { q with uid := 0, cn := none } else q
          ({ c with queue := queue, kick := some q', words := some (ws.set 0 0) }, gone)
        else (({ c with queue := queue }).cutChain s.metersHold, q :: gone)
      | none => (({ c with queue := queue }).cutChain s.metersHold, q :: gone)

/-- The work of one lost pair. (log 50, DEDUCED; log 52, DEDUCED) -/
def State.settlePair (s : State) (part pair : Nat) : State :=
  let p := s.pair pair
  let s := s.returnBatches part p.batches
  let s := s.updPair pair fun p => { p with batches := [], snap := [], skips := [], pinned := none }
  let a := s.arrays.filter fun (k, _) => k / 72 == pair
  let ch := s.channels.filter fun (k, _) => k / 8 / 72 == pair
  let acks := a.flatMap (fun (_, x) => x.jobs.map fun j => (j.launch, j.det)) ++
    ch.flatMap fun (k, c) => (s.settleChannel k c).2.map fun q => (q.launch, q.det)
  let s := { s with
    arrays := nmap (fun k (x : Arr) =>
      if k / 72 == pair then
        { x with jobs := [], cmds := [], run := none, slots := [], ctx := none, bound := false, offered := none, loan := none }
      else x) s.arrays
    channels := nmap (fun k (c : Channel) => if k / 8 / 72 == pair then (s.settleChannel k c).1 else c) s.channels }
  let s := s.dropAcks part acks
  if !s.fenced.contains pair then s
  else
    let inside (r : Req) : Bool := epDie r.ep == pair && r.land.isNone && !r.sent
    let dealt (m : Msg) : Bool := hdrClass m.hdr == 3 && epDie m.dest == pair
    let sent (m : Msg) : Bool := m.buffer.any fun c => coreDie c == pair
    let lost := s.reqs.filter inside
    let msgs := s.msgs
    let s := { s with
      adm := nset s.adm part ((nget [] s.adm part).filter fun
        | .parked _ core .. => coreDie core != pair
        | .edge .. => true)
      reqs := s.reqs.filter fun r => !inside r
      msgs := s.msgs.filter fun m => !dealt m && !sent m }.dropWalks
    let s := s.dropAcks part ((lost.filter fun r => r.kind.acked && !r.own).map fun r => (r.launch, r.det))
    let s := (s.loseMsgs part (msgs.filter sent)).reissueMsgs part (msgs.filter dealt)
    s.reissueCores part ((s.cores.map (·.1)).filter fun c => coreDie c == pair)

def State.settlePairs (s : State) (part : Nat) : List Nat → State
  | [] => s
  | p :: ps => State.settlePairs (if (s.pair p).fenced then s.settlePair part p else s) part ps

/-- MASTER_ELECTION: a distributor that holds a slate takes the office later (R286). (log 49, DEDUCED) -/
def execMasterElection (part : Nat) (s : State) : Out :=
  .next
    (if (nfind s.elections part).isNone then s
    else
      match (partPairs s.parts part).find? fun p => !(s.pair p).fenced with
      | none => s
      | some m =>
        if s.isHeld (distributorSrc m) then s
        else
        let f := s.floor (distributorSrc (s.masterOf part))
        let s := { s with elections := ndel s.elections part, masters := nset s.masters part m }.raiseFloor (distributorSrc m) f
        let s := s.emit (distributorSrc m) m 0 0x182 m
        let s := s.settlePairs part (partPairs s.parts part)
        s.settleLaunches part (s.launchTags part))

end Sys2Proof.Machine
end

