-- ==== Sys2Proof/Machine/Host.lean ====
section
/-!
DEFINITION. The control pages, submission pages and the debug port (22_host_peers_bringup.md R450-R461, R469-R471; R26, R309,
R428, R438-R440).
-/
namespace Sys2Proof.Machine

/-- A status, and a result value, that the manual leaves open for a request that is refused: any status but 0.
(log 107, DEDUCED) -/
def State.refuse (s : State) (page : Nat) : State :=
  let (w, s) := s.freeValue
  s.pageAnswer page (fld w 8 32) (1 + fld w 0 8 % 255)

/-! ### The host page (R460) -/

/-- A legal value of `sr.pager` for a partition (R431). -/
def State.pagerOk (s : State) (part : Nat) (v : Word) : Bool :=
  fld v 44 19 == 0 && fld v 18 14 == 0 && (!v.getLsbD 63 || s.threadOf part (fld v 0 18))

/-- An endpoint that a window's notifications may name (R392). -/
def State.noticeOk (s : State) (part e : Nat) : Bool :=
  isService e || s.threadOf part e

def State.setRegs (s : State) (r : SysReg) (owner : Nat) (v : Word) : List Nat → State
  | [] => s
  | d :: ds => State.setRegs (s.setReg r owner d v) r owner v ds

/-- The job, phase and graph that a context begins with, all open, where the partition has records free. The manual gives the
host no other way to a graph that a first page could be bound to. (log 125, DEDUCED) -/
def State.firstGraph (s : State) (part ctx : Nat) : State :=
  if !s.hasIndex 2 part || !s.hasIndex 3 part then s
  else match s.takeIndex 4 part with
    | none => s
    | some (i, s) =>
      let s := s.updLevel 4 part i fun _ => { inUse := true, ctx := ctx, seq := s.admSeq }
      let (_, ph, s) := { s with admSeq := s.admSeq + 1 }.createLevel part ctx 3 i
      (s.createLevel part ctx 2 ph).2.2

/-- CREATE_CONTEXT: a context of a tenant, with its pager and its window 0 (R26, R372, R431). (log 125, DEDUCED) -/
def execCreateContext (tenant part : Nat) (pager : Word) (ep handler : Nat) (s : State) : Out :=
  .next
    (if !s.pageOpen 0 then s.turnAway 0
    else if tenant == 0 || 256 ≤ tenant || s.parts ≤ part || !s.pagerOk part pager || !s.noticeOk part ep || 4096 ≤ handler then
      s.pageAnswer 0 0 0xFF
    else
      let c := freshKey 1 s.ctxs
      if 4096 ≤ c then s.pageAnswer 0 0 2
      else
        let s := { s with
          ctxs := nset s.ctxs c { inUse := true, tenant := tenant, part := part }
          windows := nset s.windows (c * 64) { host := true, ep := ep, handler := handler } }
        ((s.firstGraph part c).setRegs .pager c pager (partDies s.parts part)).pageAnswer 0 c 0)

/-- A purge that a request page waits for. -/
def State.killFrom (s : State) (page ctx : Nat) : State :=
  if ctx == 0 || !(s.ctx ctx).inUse then s.refuse page
  else (s.startKill ctx (((s.ctx ctx).kill.map (·.1)).getD 0) (some page)).pageAccept page

/-- DESTROY_CONTEXT. -/
def execDestroyContext (ctx : Nat) (s : State) : Out := .next (if !s.pageOpen 0 then s.turnAway 0 else s.killFrom 0 ctx)

/-- CREATE_ROOT: the tree unit performs it at once; a sealed creation whose entry the Scroll cannot take now holds the unit
until it can (R416), and the page waits. (log 90, DEDUCED; log 108, DEDUCED) -/
def execCreateRoot (phys lg part : Nat) (isSealed : Bool) (slot tenant : Nat) (s : State) : Out :=
  let st := s.rootStatus part phys lg isSealed slot tenant
  .next
    (if !s.pageOpen 0 || s.treeStuck part then s.turnAway 0
    else if st != 0 then s.pageAnswer 0 0 st
    else if isSealed && (s.securityHeld || !s.scrollFits 1) then
      { s with treeQ := nset s.treeQ part (⟨.host 0, 0, .createRoot phys lg slot tenant, 0⟩ :: nget [] s.treeQ part) }.pageAccept 0
    else
      let (i, s) := s.makeRoot part phys lg isSealed slot tenant
      s.pageAnswer 0 i 0)

/-- An operation of the host page goes to a tree unit; the page is busy until it answers. -/
def State.hostTree (s : State) (node : Nat) (kind : TreeKind) : State :=
  let part := (s.node node).part
  let m : TreeMsg := ⟨.host 0, 0, kind, s.ctime (s.treeDieOf part)⟩
  { s with treeQ := nset s.treeQ part (nget [] s.treeQ part ++ [m]) }.pageAccept 0

/-- MAP_ROOT. (log 90, DEDUCED) -/
def execMapRoot (node ctx win off rights : Nat) (s : State) : Out :=
  .next
    (if !s.pageOpen 0 then s.turnAway 0
    else if 2 ^ 22 ≤ node || 4096 ≤ ctx || 64 ≤ win || 2 ^ 57 ≤ off || 8 ≤ rights then s.pageAnswer 0 0 0xFF
    else s.hostTree node (.rootMap node ctx win off rights))

/-- UNMAP_ROOT. -/
def execUnmapRoot (node : Nat) (self : Bool) (s : State) : Out :=
  .next
    (if !s.pageOpen 0 then s.turnAway 0
    else if 2 ^ 22 ≤ node then s.pageAnswer 0 0 0xFF
    else s.hostTree node (.rootUnmap node self))

/-- A context that takes new records. -/
def State.live (s : State) (ctx : Nat) : Bool := ctx != 0 && (s.ctx ctx).inUse && (s.ctx ctx).kill.isNone

/-- CREATE_JOB. -/
def execCreateJob (ctx : Nat) (s : State) : Out :=
  let part := (s.ctx ctx).part
  .next
    (if !s.pageOpen 0 then s.turnAway 0
    else if !s.live ctx then s.pageAnswer 0 0 8
    else match s.takeIndex 4 part with
      | none => s.pageAnswer 0 0 2
      | some (i, s) =>
        let s := s.updLevel 4 part i fun _ => { inUse := true, ctx := ctx, seq := s.admSeq }
        { s with admSeq := s.admSeq + 1 }.pageAnswer 0 i 0)

/-- CLOSE_JOB. -/
def execCloseJob (ctx job : Nat) (s : State) : Out :=
  .next
    (if !s.pageOpen 0 then s.turnAway 0
    else
      let (c, s) := s.closeLevel (s.ctx ctx).part ctx 4 job
      s.pageAnswer 0 job c)

def pageKey (port page : Nat) : Nat := port * 2048 + page

/-- BIND_PAGE (R450). -/
def execBindPage (port page : Nat) (bind : Bool) (ctx graph : Nat) (vec : Bool) (s : State) : Out :=
  .next
    (if !s.pageOpen 0 then s.turnAway 0
    else if 2 ≤ port || 2048 ≤ page then s.pageAnswer 0 0 0xFF
    else if !bind then { s with pages := ndel s.pages (pageKey port page) }.pageAnswer 0 0 0
    else if !s.live ctx || !s.hasRecord (s.ctx ctx).part ctx 2 graph then s.pageAnswer 0 0 8
    else
      let p : SubPage := { bound := true, ctx := ctx, graph := graph, vec := vec }
      { s with pages := nset s.pages (pageKey port page) p }.pageAnswer 0 0 0)

/-! ### Tables (R453, R455, R457, R462) -/

def rangesMeet (a n b m : Nat) : Bool := a < b + m && b < a + n

/-- An inbound window's words: shape and place. -/
def State.inboundOk (s : State) (w0 w1 : Word) : Bool :=
  let lg := fld w0 44 6
  let size := 2 ^ (12 + lg)
  fld w0 50 12 == 0 && fld w0 40 4 == 0 && fld w1 48 16 == 0 && lg ≤ 28 && (w0.getLsbD 62 || 4 ≤ lg) && fld w0 0 40 % size == 0 &&
    w1.toNat % size == 0 && (sharePart s.parts w1.toNat size).isSome

def outboundOk (w0 w1 : Word) : Bool :=
  let lg := fld w0 44 6
  let size := 2 ^ (12 + lg)
  fld w0 58 5 == 0 && lg ≤ 32 && fld w0 0 44 % size == 0 && w1.toNat % size == 0

/-- A decoder: word 0 valid and lg as an inbound window's, word 1 the device extent, word 2 the host physical base.
(log 105, PRESUMED) -/
def State.decoderOk (s : State) (w0 w1 w2 : Word) : Bool :=
  let size := 2 ^ (12 + fld w0 44 6)
  let a := w1.toNat
  fld w0 44 6 ≤ 28 && a % size == 0 && w2.toNat % size == 0 && (sharePart s.parts a size).isSome &&
    !s.nodes.any (fun (_, n) => n.parent.isNone && n.sealed && rangesMeet n.phys n.size a size) &&
    !(s.tables.any fun (k, w, b, _) =>
      k / 8192 == 0 && w.getLsbD 63 && rangesMeet b.toNat (2 ^ (12 + fld w 44 6)) a size)

def connOk (w0 w1 w2 : Word) : Bool :=
  fld w0 60 2 == 0 && fld w0 12 4 == 0 && fld w1 60 4 == 0 && fld w2 57 7 == 0 && fld w2 0 6 == 0

/-- Another valid entry of the same table and port whose range, `lo` bits wide, meets this one's. -/
def State.entryMeets (s : State) (table port index : Nat) (w0 : Word) (bits : Nat) : Bool :=
  s.tables.any fun (k, w, _, _) =>
    k / 4096 == table * 2 + port && k % 4096 != index && w.getLsbD 63 &&
      rangesMeet (fld w 0 bits) (2 ^ (12 + fld w 44 6)) (fld w0 0 bits) (2 ^ (12 + fld w0 44 6))

/-- A reserved bit is set in an entry's words (R453, R455, R460, R462). A decoder's word 0 has its fields where an inbound window's
stand. (log 105, PRESUMED) -/
def entryReserved (table : Nat) (w0 w1 w2 : Word) : Bool :=
  match table with
  | 0 => fld w0 50 12 != 0 || fld w0 40 4 != 0 || fld w1 48 16 != 0
  | 1 => fld w0 58 5 != 0
  | 3 => fld w0 60 2 != 0 || fld w0 12 4 != 0 || fld w1 60 4 != 0 || fld w2 57 7 != 0
  | _ => false

/-- The status of a table write. A decoder's extent is in no inbound window, whichever is written first (R457). An entry that is
not valid names nothing: beyond its reserved bits it is stored unchecked. (log 105, PRESUMED; log 157, DESIGN CHOICE) -/
def State.tableStatus (s : State) (table port index : Nat) (w0 w1 w2 : Word) : Nat :=
  let valid := w0.getLsbD 63
  if entryReserved table w0 w1 w2 then 0xFF
  else if table == 0 then
    if 2 ≤ port || 64 ≤ index || (valid && !s.inboundOk w0 w1) then 0xFF
    else if valid && (s.entryMeets 0 port index w0 40 || s.decoderMeets w1.toNat (2 ^ (12 + fld w0 44 6))) then 3 else 0
  else if table == 1 then
    let old := (s.tableEntry 1 port index).1
    let base := (1 + port) * 2 ^ 44 + fld old 0 44
    if 2 ≤ port || 64 ≤ index || (valid && !outboundOk w0 w1) then 0xFF
    else if valid && s.entryMeets 1 port index w0 44 then 3
    else if old.getLsbD 63 && s.nodes.any (fun (_, n) => rangesMeet n.phys n.size base (2 ^ (12 + fld old 44 6))) then 7
    else 0
  else if table == 2 then
    if 2 ≤ port || 16 ≤ index || (valid && !s.decoderOk w0 w1 w2) then 0xFF
    else if valid && s.tables.any (fun (k, w, _, b) =>
        k / 4096 == 4 + port && k % 4096 != index && w.getLsbD 63 &&
          rangesMeet b.toNat (2 ^ (12 + fld w 44 6)) w2.toNat (2 ^ (12 + fld w0 44 6))) then 3
    else 0
  else if table == 3 then
    if port != 0 || 4096 ≤ index || (valid && !connOk w0 w1 w2) then 0xFF
    else if valid && s.tables.any (fun (k, w, _, _) =>
        k / 4096 == 6 && k % 4096 != index && w.getLsbD 63 && fld w 0 12 == fld w0 0 12 && fld w 32 16 == fld w0 32 16) then 3
    else 0
  else 0xFF

/-- What a failed frame carried comes to its end with cause 0x25 (R325, R463, R464). -/
def State.failFrame (s : State) (conn : Nat) (f : Frame) : State :=
  match f.op with
  | none => s
  | some id =>
    match s.findPiece id with
    | some (k, p) => s.failPiece conn k p
    | none =>
      match s.findReq id with
      | none => s
      | some r => if f.message then s.failReq conn r (BitVec.ofNat 64 f.dest) else s.failWrite conn r

def State.failFrames (s : State) (conn : Nat) : List Frame → State
  | [] => s
  | f :: fs => State.failFrames (s.failFrame conn f) conn fs

/-- Every unacknowledged frame of a connection fails. (log 109, DEDUCED) -/
def State.failConn (s : State) (conn : Nat) : State :=
  let c := nget ({} : Conn) s.conns conn
  { s with conns := nset s.conns conn { c with unacked := [], retries := 0 } }.failFrames conn c.unacked

/-- WRITE_TABLE_ENTRY. A connection that is written starts afresh, with `down` clear. (log 109, DEDUCED) -/
def execWriteTableEntry (table port index : Nat) (w0 w1 w2 : Word) (s : State) : Out :=
  let st := s.tableStatus table port index w0 w1 w2
  .next
    (if !s.pageOpen 0 then s.turnAway 0
    else if st != 0 then s.pageAnswer 0 0 st
    else
      let s := if table == 3 then s.failConn index else s
      let w0 := if table == 3 then w0 &&& BitVec.ofNat 64 (2 ^ 64 - 1 - 2 ^ 62) else w0
      { s with
        tables := nset s.tables (tableKey table port index) (w0, w1, w2)
        conns := if table == 3 then ndel s.conns index else s.conns }.pageAnswer 0 0 0)

/-! ### The control page (R428, R438-R440, R467) -/

/-- HOST_KILL. -/
def execHostKill (ctx : Nat) (s : State) : Out := .next (if !s.pageOpen 5 then s.turnAway 5 else s.killFrom 5 ctx)

/-- HOST_FENCE: the page waits for the fence. -/
def execHostFence (die : Nat) (s : State) : Out :=
  .next
    (if !s.pageOpen 5 then s.turnAway 5
    else if !realDie die then s.refuse 5
    else if s.fenced.contains die then s.pageAnswer 5 0 0
    else (s.wantFence die true).pageAccept 5)

def ownerOk (o : Nat) : Bool := o ≤ 1 || (0x10 ≤ o && o < 0x30)

/-- CLAIM_WRITE (R439). -/
def execClaimWrite (source owner writer : Nat) (s : State) : Out :=
  let old := nget 1 s.claims source
  .next
    (if !s.pageOpen 5 then s.turnAway 5
    else if 16 ≤ source then s.pageAnswer 5 0 2
    else if !ownerOk owner then s.pageAnswer 5 0 0xFF
    else if (owner == 0 && old == writer) || (owner != 0 && old == 0) then
      { s with claims := nset s.claims source owner }.pageAnswer 5 0 0
    else s.pageAnswer 5 0 1)

/-! ### Call rings (R461) -/

/-- CALL_SUBMIT: the header's src takes the host form, of the I/O die that has received it. (log 126, DEDUCED; log 136,
DESIGN CHOICE) -/
def execCallSubmit (page : CallPage) (words : List Word) (s : State) : Out :=
  let port := page.port
  let core := page.core
  let h := words.getD 0 0
  let src := hostSrc (16 + port)
  let h := BitVec.ofNat 64 (h.toNat / 2 ^ 40 * 2 ^ 40 + src * 2 ^ 22 + h.toNat % 2 ^ 22)
  .next
    (if s.boot.state != 2 || 2 ≤ port || s.fenced.contains (16 + port) || 32 ≤ core || words.length != 16 ||
        (words.drop 8).any (· != 0) || s.takingOver (16 + core / 16) then s
    else if s.ringFull core then s.controlEnd 6 core .retry
    else (s.ringPut core (h :: (words.drop 1).take 7)).controlEnd 6 core .successful)

/-- CALL_RING_CONSUME: the consumer's index moves on. (log 136, DESIGN CHOICE) -/
def execCallRingConsume (core count : Nat) (s : State) : Out :=
  let c := nget 0 s.callCons core
  .next
    (if core < 32 && !s.takingOver (16 + core / 16) && c + count ≤ nget 0 s.callProd core then
      { s with callCons := nset s.callCons core (c + count) }
    else s)

/-! ### Submission pages (R450-R452) -/

def State.subPage (s : State) (port page : Nat) : SubPage := nget {} s.pages (pageKey port page)

/-- The completion of a Deferrable Memory Write goes back to the host (R451). -/
def State.completeWrite (s : State) (port page : Nat) (st : WriteEnd) : State :=
  { s with busOut := s.busOut ++ [.deferred port page st] }

/-- A submission's end (R295, R450, R451): the page's status word, and behind it the completion; after outcome 2 the host tries
again. -/
def State.submitted (s : State) (port page outcome tag : Nat) : State :=
  let p := s.subPage port page
  let p := if outcome == 0 then { p with count := (p.count + 1) % 2 ^ 32, tag := tag, outcome := 0 }
    else { p with outcome := outcome }
  { s with pages := nset s.pages (pageKey port page) p }.completeWrite port page
    (if outcome == 2 then .retry else .successful)

/-- What a submission page cannot take is completed with Unsupported Request: an unbound page, or a wrong length (R451). -/
def State.cannotTake (s : State) (port page : Nat) (record : List Word) : Bool :=
  !(s.subPage port page).bound || record.length != 16

/-- A port that takes no submission: while the device boots nothing answers, and in recovery every access to BAR0 completes with
Unsupported Request (R468). -/
def State.portClosed (s : State) (port page : Nat) : State :=
  if s.boot.state == 4 then s.completeWrite port page .unsupported else s

/-- The floor that a host's submission carries: the port's own (R220). -/
def State.portFloor (s : State) (port : Nat) : Nat := s.carried (pcieSrc (16 + port)) (16 + port)

/-- The image that a write to a submission page carries, if the page can take it. -/
def State.imageOf (s : State) (port page : Nat) : PageWrite → Option (List Word)
  | .image ws => if s.cannotTake port page ws then none else some ws
  | .elsewhere => none

/-- SUBMIT_LAUNCH (R451): the master's answer ends it; one that is stalled, or reads the image yet, answers later. A write
elsewhere in the page cannot be taken; a port lost with its I/O die takes nothing (R441). -/
def execSubmitLaunch (port page : Nat) (write : PageWrite) (s : State) : Out :=
  let p := s.subPage port page
  .next
    (if s.fenced.contains (16 + port) then s
    else if s.boot.state != 2 then s.portClosed port page
    else
      match s.imageOf port page write with
      | none => s.completeWrite port page .unsupported
      | some image =>
        let part := (s.ctx p.ctx).part
        if s.masterHeld part then s
        else
          let (q, s) := (s.toldMaster part (s.portFloor port)).requestLaunch part p.ctx (some p.graph) image
            (some (pageKey port page))
          if q.waits then s else s.submitted port page q.outcome q.tag)

/-- The outcome of a message record (R452). -/
def State.messageOutcome (s : State) (port : Nat) (p : SubPage) (r : List Word) : Nat :=
  let w0 := r.getD 0 0
  let w1 := r.getD 1 0
  let part := (s.ctx p.ctx).part
  let l := s.launch part (fld w0 18 12)
  let d := fld w0 0 18
  if fld w0 34 30 != 0 || fld w0 30 2 != 0 || fld w1 3 49 != 0 || (r.drop 9).any (· != 0) || fld w0 32 2 % 2 == 1 then 6
  else if !l.inUse || l.ctx != p.ctx || l.state != .running then 8
  else if !validEp d || !(isService d || s.partOf (epCore d) == part) then 10
  else if 64 ≤ (s.msgs.filter (·.src == hostSrc (16 + port))).length then 2
  else 0

/-- SUBMIT_MESSAGE. (log 126, DEDUCED) -/
def execSubmitMessage (port page : Nat) (record : List Word) (s : State) : Out :=
  let p := s.subPage port page
  .next
    (if s.fenced.contains (16 + port) then s
    else if s.boot.state != 2 then s.portClosed port page
    else if s.cannotTake port page record then s.completeWrite port page .unsupported
    else
      let c := s.messageOutcome port p record
      if c != 0 then s.submitted port page c 0
      else
        let w0 := record.getD 0 0
        let w1 := record.getD 1 0
        let die := 16 + port
        let tag := fld w0 18 12
        let d := fld w0 0 18
        let s := if isService d then s else s.countStart (s.ctx p.ctx).part tag false
        (s.post
          { hdr := mkHdr (fld w1 52 12) p.ctx (hostSrc die) tag (fld w0 32 2) (fld w1 0 3) false, dest := d, src := hostSrc die,
            payload := (record.drop 2).take (fld w1 0 3), floor := s.portFloor port }).submitted port page 0 0)

/-! ### The debug port (R471) -/

/-- The context that a debug requester is attached to. -/
def State.attached (s : State) (q : Nat) : Option Nat := nfind s.debug q

/-- Debug reads of a metered context are refused unless every policy allows them (R411). (log 103, DEDUCED) -/
def State.dbgOk (s : State) (ctx : Nat) : Bool :=
  ((s.meteredSlots ctx).getD []).all fun i => s.slotLoaded i && ((s.keySlot i).word 5).getLsbD 2

/-- DEBUG_ATTACH: it waits while the Scroll has no room. -/
def execDebugAttach (ctx requester : Nat) (s : State) : Out :=
  .next
    (if !s.pageOpen 7 || s.securityHeld then s.turnAway 7
    else if !s.live ctx || !s.dbgOk ctx || (s.attached requester).isSome then s.refuse 7
    else if !s.scrollFits 1 then s
    else ({ s with debug := nset s.debug requester ctx }.tellDebug ctx requester true).pageAnswer 7 0 0)

/-- DEBUG_DETACH. -/
def execDebugDetach (requester : Nat) (s : State) : Out :=
  .next
    (if !s.pageOpen 7 || s.securityHeld then s.turnAway 7
    else match s.attached requester with
      | none => s.refuse 7
      | some ctx =>
        if !s.scrollFits 1 then s
        else ({ s with debug := ndel s.debug requester }.tellDebug ctx requester false).pageAnswer 7 0 0)

/-- A thread that the debug port may look into. -/
def Thread.stopped (t : Thread) : Bool := t.busy && (t.wait == .halted || t.trap)

/-- The registers of a stopped thread by number: wet 0-3, nib 4-11, main 12-43, pointer 44-51, accumulator lanes 52-115, masks
116-123 in the order of `sr` 0x008, then ba, vl, pix, pc, rng, gtouch, cause, epc, occ, tstat. (log 106, DEDUCED) -/
def Thread.debugReg (t : Thread) (i : Nat) : Word :=
  let r := t.regs
  if i < 4 then r.w.toArray.getD i 0
  else if i < 12 then r.k.toArray.getD (i - 4) 0
  else if i < 44 then r.g.toArray.getD (i - 12) 0
  else if i < 52 then r.p.toArray.getD (i - 44) 0
  else if i < 116 then (r.acc.toArray.getD (i - 52) 0).setWidth 64
  else if i < 124 then r.mask (i - 116)
  else match i with
    | 124 => r.ba.setWidth 64
    | 125 => r.vl.setWidth 64
    | 126 => r.pix.setWidth 64
    | 127 => r.pc.setWidth 64
    | 128 => r.rng.setWidth 64
    | 129 => r.gtouch
    | 130 => t.cause
    | 131 => t.epc.setWidth 64
    | 132 => t.occ.word
    | _ => t.tstat

def setAt {α : Type} {n : Nat} (v : Vector α n) (i : Nat) (x : α) : Vector α n := v.mapFinIdx fun j y _ => if j == i then x else y

/-- The same register written, but for occ and tstat, which are only read; a value outside its register's range is cut to
its width, its reserved bits are ignored (R2),
and vl stays within 1-64.
(log 106, DEDUCED) -/
def Thread.debugSet (t : Thread) (i : Nat) (v : Word) : Thread :=
  let r := t.regs
  if i < 4 then { t with regs := { r with w := setAt r.w i v } }
  else if i < 12 then { t with regs := { r with k := setAt r.k (i - 4) v } }
  else if i < 44 then { t with regs := { r with g := setAt r.g (i - 12) v } }
  else if i < 52 then { t with regs := { r with p := setAt r.p (i - 44) (v &&& BitVec.ofNat 64 (2 ^ 48 - 1)) } }
  else if i < 116 then { t with regs := { r with acc := setAt r.acc (i - 52) (v.setWidth 32) } }
  else if i < 124 then
    if i % 2 == 0 then { t with regs := { r with maRow := setAt r.maRow ((i - 116) / 2) v } }
    else { t with regs := { r with maCol := setAt r.maCol ((i - 116) / 2) v } }
  else match i with
    | 124 => { t with regs := { r with ba := v.setWidth 35 } }
    | 125 => if 1 ≤ v.toNat && v.toNat ≤ 64 then { t with regs := { r with vl := v.setWidth 7 } } else t
    | 126 => { t with regs := { r with pix := v.setWidth 32 } }
    | 127 => { t with regs := { r with pc := v.setWidth 32 &&& 0xFFFFFFFC } }
    | 128 => { t with regs := { r with rng := rngWrite (v.setWidth 32) } }
    | 129 => { t with regs := { r with gtouch := v &&& BitVec.ofNat 64 (2 ^ 64 - 2 ^ 48 + 2 ^ 37 - 1) } }
    | 130 => { t with cause := v &&& 0x100FF }
    | 131 => { t with epc := v.setWidth 32 }
    | _ => t

/-- A core of the requester's context, and a place on it that exists. -/
def State.debugAt (s : State) (q core addr : Nat) (reg : Option (Nat × Nat)) : Option Nat :=
  match s.attached q with
  | none => none
  | some c =>
    if (s.core core).bound != some c then none
    else match reg with
      | none => if addr % 8 == 0 && addr + 8 ≤ padSize core then some c else none
      | some (t, i) => if t < 8 && i < 134 then some c else none

/-- DEBUG_READ. A metered context's word passes meter port 18 first (R410, R411). -/
def execDebugRead (requester core addr : Nat) (reg : Option (Nat × Nat)) (s : State) : Out :=
  .next
    (match s.debugWait with
      | some (id, v) =>
        if s.metersHold id then s
        else { s with debugWait := none, debugWord := v }.setResult 7 (fld v 0 32) 0
      | none =>
        if !s.pageOpen 7 then s.turnAway 7
        else match s.debugAt requester core addr reg with
          | none => s.refuse 7
          | some c =>
            let ready := match reg with
              | none => true
              | some (t, _) => (s.thr (coreEp core t)).stopped
            if !ready || !s.dbgOk c then s.refuse 7
            else
              let v := match reg with
                | none => s.mem.readWord (padKey core addr)
                | some (t, i) => (s.thr (coreEp core t)).debugReg i
              if (s.meteredSlots c).isSome then
                let b : Beats := { id := s.ids, ctx := c, port := 18, left := 1 }
                { s with beats := s.beats ++ [b], debugWait := some (s.ids, v), ids := s.ids + 1 }.pageAccept 7
              else { s with debugWord := v }.pageAnswer 7 (fld v 0 32) 0)

/-- DEBUG_WRITE: of a stopped thread's register, or of a core on which no thread runs. (log 106, DEDUCED) -/
def execDebugWrite (requester core addr : Nat) (reg : Option (Nat × Nat)) (v : Word) (s : State) : Out :=
  .next
    (if !s.pageOpen 7 then s.turnAway 7
    else match s.debugAt requester core addr reg with
      | none => s.refuse 7
      | some _ =>
        match reg with
        | none =>
          if (List.range 8).any fun t => (s.thr (coreEp core t)).busy && !(s.thr (coreEp core t)).stopped then s.refuse 7
          else (s.putBytes (padKey core addr) (leBytes 8 v.toNat)).pageAnswer 7 0 0
        | some (t, i) =>
          if !(s.thr (coreEp core t)).stopped then s.refuse 7
          else (s.updThr (coreEp core t) (·.debugSet i v)).pageAnswer 7 0 0)

def State.resumeHalted (s : State) : List Nat → State
  | [] => s
  | m :: ms =>
    State.resumeHalted
      (s.updThr m fun t => if t.wait == .halted then ({ t with wait := .none }).advance 8 else t) ms

/-- DEBUG_RESUME: at the instruction after HALT; a halted gang resumes whole. (log 106, DEDUCED) -/
def execDebugResume (requester ep : Nat) (s : State) : Out :=
  .next
    (if !s.pageOpen 7 then s.turnAway 7
    else if s.attached requester == none || (s.core (epCore ep)).bound != s.attached requester ||
        (s.thr ep).wait != .halted then s.refuse 7
    else (s.resumeHalted (if (s.thr ep).trap then [ep] else s.membersOf ep)).pageAnswer 7 0 0)

/-! ### Register pages (R304, R309, R454, R458, R463, R470) -/

def State.ceiling (s : State) (part cap : Nat) : Nat :=
  1024 * (1000 * cap / ((partPairs s.parts part).filter fun p => !(s.pair p).fenced).length)

/-- SCHED_WORD_WRITE (R309). -/
def execSchedWordWrite (part : Nat) (v : Word) (s : State) : Out :=
  let cap := fld v 0 12
  let hor := fld v 32 16
  .next
    (if s.boot.state != 2 || s.parts ≤ part || cap == 0 || 3400 < cap || hor == 0 ||
        (s.schedOf part).costs.toList.any (fun c => s.ceiling part cap < c * 1000) then s
    else s.updSched part fun x => { x with horizon := hor, cap := some cap })

/-- CLASS_COST_WRITE (R309). -/
def execClassCostWrite (part cls : Nat) (v : Word) (s : State) : Out :=
  let c := fld v 0 20
  .next
    (if s.boot.state != 2 || s.parts ≤ part || 8 ≤ cls || s.ceiling part (s.capOf part) < c * 1000 then s
    else s.updSched part fun x => { x with costs := setAt x.costs cls c })

/-- LATE_CONSUMED_WRITE (R304). -/
def execLateConsumedWrite (part : Nat) (v : Word) (s : State) : Out :=
  let q := s.schedOf part
  let n := fld v 0 32
  .next
    (if s.boot.state != 2 || s.parts ≤ part || 256 < (q.lateNext + 2 ^ 32 - n) % 2 ^ 32 then s
    else s.updSched part fun x => { x with lateDone := n })

/-- SELF_TEST_INTERVAL_WRITE (R173, R470). (log 72, DEDUCED) -/
def execSelfTestIntervalWrite (v : Word) (s : State) : Out :=
  let a := fld v 16 10
  let n := fld v 0 16
  let w := BitVec.ofNat 64 (fld v 0 26)
  .next
    (if s.boot.state != 2 then s
    else if 576 ≤ a then { s with teleSel := w }
    else
      { s with teleSel := w }.updArr a fun x => { x with interval := if n != 0 && n < 64 then 64 else n })

/-- The word that the telemetry page shows at an offset (R470). (log 129, DESIGN CHOICE) -/
def State.telemetry (s : State) (off : Nat) : Word :=
  let v : Nat :=
    if off < 0x040 then s.powerWord (off / 8)
    else if off < 0x140 then s.dieTemp ((off - 0x040) / 8)
    else if off < 0x240 then nget 0 s.seu ((off - 0x140) / 8)
    else if off == 0x240 then s.teleSel.toNat
    else if off == 0x248 then (s.mstat (fld s.teleSel 16 10) 0).toNat
    else nget 0 s.perr (16 + (off - 0x250) / 8)
  BitVec.ofNat 64 v

/-- REGISTER_WRITE: the EtherType takes a value; every other register without a row of its own is only read. -/
def execRegisterWrite (page offset : Nat) (v : Word) (s : State) : Out :=
  .next (if page == 8 && offset == 0x010 then { s with boot := { s.boot with ether := v.setWidth 16 } } else s)

/-- ECC_CORRECTED_ERROR (R440, R470). -/
def execEccCorrectedError (die : Nat) (s : State) : Out :=
  .next (if realDie die then { s with seu := nset s.seu die (Nat.min (nget 0 s.seu die + 1) 0xFFFFFFFF) } else s)

/-- MSIX_TABLE_WRITE (R448, R454): an entry's message address and data and its mask; unmasking sends what is pending. The address
is a multiple of 4. (log 104, PRESUMED) -/
def execMsixTableWrite (port vector : Nat) (entry : MsixEntry) (s : State) : Out :=
  let k := port * 2048 + vector
  .next
    (if s.boot.state != 2 || 2 ≤ port || s.fenced.contains (16 + port) || 2048 ≤ vector then s
    else
      let s := { s with msixMsg := nset s.msixMsg k (entry.addr &&& BitVec.ofNat 64 (2 ^ 64 - 4), entry.data) }
      if entry.mask then { s with msixOn := ndel s.msixOn k }
      else
        let s := { s with msixOn := nset s.msixOn k true }
        if s.msixPend.contains k then { s with msixPend := s.msixPend.filter (· != k) }.sendVector port vector else s)

/-! ### What the register pages show -/

/-- The status word of a submission page (R450). -/
def SubPage.word (p : SubPage) : Word := BitVec.ofNat 64 (p.count * 2 ^ 32 + p.tag * 2 ^ 8 + p.outcome)

/-- The health word (R469). -/
def State.health (s : State) : Word :=
  let degraded := !s.fenced.isEmpty || s.arrays.any fun (_, x) => x.mode != 0
  let st := if s.boot.state == 2 && degraded then 3 else s.boot.state
  BitVec.ofNat 64 (st * 2 ^ 60 + (if s.boot.repl || s.arrays.any (fun (_, x) => x.repl) then 2 ^ 59 else 0) +
    s.boot.fail * 2 ^ 48 + s.fenced.foldl (fun n d => n + 2 ^ d) 0)

/-- The scheduling word (R309) and the allowance of a pair (R307). -/
def State.schedWord (s : State) (part : Nat) : Word := BitVec.ofNat 64 ((s.schedOf part).horizon * 2 ^ 32 + s.capOf part)
def State.allowanceWord (s : State) (pair : Nat) : Word := BitVec.ofNat 64 ((s.pair pair).allowance % (2 ^ 41 : Int)).toNat

end Sys2Proof.Machine
end

