-- ==== Sys2Proof/Machine/Links.lean ====
section
/-!
DEFINITION. What arrives at the ports: accesses through inbound windows (R453, R218, R405), CXL.mem requests (R219, R457), a
function level reset (R448), Scallink frames and retransmission (R462-R464), link state.
-/
namespace Sys2Proof.Machine

/-! ### Inbound windows -/

/-- The inbound window of a port that holds a range of BAR2: its mode bit and the device physical address.
(log 138, DEDUCED) -/
def State.inWindow (s : State) (port addr n : Nat) : Option (Bool × Nat) :=
  match (List.range 64).find? fun i =>
      let w := (s.tableEntry 0 port i).1
      w.getLsbD 63 && fld w 0 40 ≤ addr && addr + n ≤ fld w 0 40 + 2 ^ (12 + fld w 44 6) with
  | none => none
  | some i =>
    let (w, b, _) := s.tableEntry 0 port i
    some (w.getLsbD 62, b.toNat + (addr - fld w 0 40))

/-- A completion goes back to the requester. -/
def State.complete (s : State) (port addr : Nat) (data : Option (List Byte)) : State :=
  { s with busOut := s.busOut ++ [.completion port addr data] }

/-- Slate 0x283 of a port: a discarded or refused access of a requester. (log 115, DEDUCED) -/
def State.tellAccess (s : State) (port phys requester : Nat) : State :=
  s.emitExt (pcieSrc (16 + port)) (16 + port) 0 0x283 0 (BitVec.ofNat 64 phys) (BitVec.ofNat 64 requester)

/-- An access that nothing serves: Unsupported Request for a read, and a discarded write.
(log 114, DEDUCED; log 116, DEDUCED) -/
def State.unserved (s : State) (port addr : Nat) (write : Bool) : State :=
  if write then s.portError port else s.complete port addr none

/-- The channel that serves an address can be reached (R441). (log 116, DEDUCED) -/
def State.reachable (s : State) (phys : Nat) : Bool :=
  match s.place phys with
  | .hbm ch => !s.fenced.contains (20 + ch / 32)
  | _ => false

/-- The host's write of device memory: a sealed root's range and the reserved extents take nothing (R405, R412), and the port
counts what it discards (R470). (log 114, DEDUCED) -/
def State.hostWrite (s : State) (port phys requester : Nat) (bs : List Byte) : State :=
  if s.sealedIn phys bs.length then (s.tellAccess port phys requester).portError port
  else if s.reserved_ phys bs.length then s.portError port
  else s.putBytes (physKey phys) bs

/-- A page that belongs to the host and is not on its way (R217). -/
def State.hostPage (s : State) (page : Nat) : Bool := nget false s.shared page && !s.handingOver page

/-- The part of an access that is performed next: to the end of its 64-byte granule (R212), or, where nothing of it is performed,
to the end of the device-owned page or of the sealed range's granules that it meets first. -/
def State.nextPart (s : State) (open_ : Bool) (phys n : Nat) : Nat :=
  if !open_ && !s.hostPage (phys / 2 ^ 16) then Nat.min n (2 ^ 16 - phys % 2 ^ 16) else Nat.min n (64 - phys % 64)

/-- The next part of an access through a BAR takes its place, or it waits for a recall (R219). What is left of it, if anything.
(log 138, DEDUCED) -/
def State.inboundPart (s : State) (port : Nat) (x : Inbound) : List Inbound × State :=
  let n := if x.write then x.data.length else x.len
  let rest (m : Nat) : List Inbound :=
    if n ≤ m then [] else [{ x with addr := x.addr + m, data := x.data.drop m, len := x.len - m }]
  match s.inWindow port x.addr n with
  | none => ([], s.unserved port x.addr x.write)
  | some (open_, phys) =>
    let m := s.nextPart open_ phys n
    if !s.reachable phys then (rest m, s.unserved port x.addr x.write)
    else if !open_ && !s.hostPage (phys / 2 ^ 16) then
      (rest m, (if x.write then s.portError port else s.complete port x.addr (some (List.replicate m (BitVec.allOnes 8)))).tellAccess
        port phys x.requester)
    else if s.lineHeld phys m x.write then ([x], s.recallLines phys m x.write)
    else if x.write then (rest m, s.hostWrite port phys x.requester (x.data.take m))
    else (rest m, s.complete port x.addr (some (s.mem.readBytes m (physKey phys))))

/-- A PCIe port is lost with its I/O die (R441). -/
def State.portLost (s : State) (port : Nat) : Bool := s.fenced.contains (16 + port)

/-- INBOUND_ACCESS: an access arrives, behind those of its port that are not done; one of no bytes lets the first of them go on.
Each is performed granule by granule, in arrival order (R212, R453). A line that hosts hold is recalled first (R219).
(log 138, DEDUCED) -/
def execInboundAccess (port addr : Nat) (write : Bool) (data : List Byte) (len requester : Nat) (s : State) : Out :=
  let x : Inbound := ⟨addr, write, data, len, requester⟩
  let n := if write then data.length else len
  let queue := nget [] s.inbound port
  .next
    (if 2 ≤ port || s.portLost port || s.isHeld (pcieSrc (16 + port)) then s
    else if s.boot.state != 2 then (if n == 0 then s else s.unserved port addr write)
    else match (if n == 0 then queue else queue ++ [x]) with
      | [] => s
      | y :: ys =>
        if queue.isEmpty || n == 0 then
          let (left, s) := s.inboundPart port y
          { s with inbound := nset s.inbound port (left ++ ys) }
        else { s with inbound := nset s.inbound port (y :: ys) })

/-! ### CXL.mem -/

/-- The device address that a port's decoders give a host physical address (R457). (log 105, PRESUMED) -/
def State.decoded (s : State) (port addr : Nat) : Option Nat :=
  match (List.range 16).find? fun i =>
      let (w, _, b) := s.tableEntry 2 port i
      w.getLsbD 63 && b.toNat ≤ addr && addr < b.toNat + 2 ^ (12 + fld w 44 6) with
  | none => none
  | some i =>
    let (_, a, b) := s.tableEntry 2 port i
    some (a.toNat + (addr - b.toNat))

/-- The directory's entry of a line (R219). -/
def State.lineOf (s : State) (line : Nat) : List Nat × Bool := nget ([], false) s.directory line

/-- A line's holders; a host that no longer holds it has answered its snoop. (log 117, DEDUCED) -/
def State.setLine (s : State) (line : Nat) (ports : List Nat) (excl : Bool) : State :=
  { s with
    directory := if ports.isEmpty then ndel s.directory line else nset s.directory line (ports, excl)
    granted := if ports.isEmpty then s.granted.filter (· != line) else s.granted
    recalls := s.recalls.filter fun (l, p) => l != line || ports.contains p }

/-- A host comes to hold a line, which is then the most recently granted one. -/
def State.grantLine (s : State) (line : Nat) (ports : List Nat) (excl : Bool) : State :=
  let s := s.setLine line ports excl
  { s with granted := s.granted.filter (· != line) ++ [line] }

/-- The line that a full directory recalls before it grants a new one: the least recently granted (R219). -/
def State.oldLine (s : State) (line : Nat) : Option Nat :=
  match s.granted with
  | [] => none
  | g :: _ => if (s.lineOf line).1.isEmpty && Config.directoryLines ≤ s.directory.length then some g else none

/-- A host reads a line and comes to hold it, unless another host's hold, or an older line of a full directory, has to be
recalled first. -/
def State.cxlRead (s : State) (port addr phys : Nat) (excl : Bool) : State :=
  let line := phys / 64
  let (ports, ex) := s.lineOf line
  let others := ports.filter (· != port)
  if !others.isEmpty && (excl || ex) then s.snoopLines [(line, others, ex)]
  else
    match s.oldLine line with
    | some g => s.snoopLines [(g, s.lineOf g)]
    | none =>
      (s.grantLine line (others ++ [port]) (excl || (ex && ports.contains port))).complete port addr
        (some (s.mem.readBytes 64 (physKey phys)))

/-- A host writes a line back, or answers a back-invalidate snoop without data; it keeps its hold when `excl` says so. -/
def State.cxlWrite (s : State) (port phys : Nat) (excl : Bool) (data : List Byte) : State :=
  let (ports, ex) := s.lineOf (phys / 64)
  let others := ports.filter (· != port)
  if !data.isEmpty && !others.isEmpty then s.snoopLines [(phys / 64, others, ex)]
  else
    let s := if data.isEmpty || s.reserved_ phys 64 then s else s.putBytes (physKey phys) data
    if excl && ports.contains port then s else s.setLine (phys / 64) others (ex && !ports.contains port)

/-- CXL_MEM_REQUEST: one line. A line of a sealed root is never granted (R405). (log 117, DEDUCED) -/
def execCxlMemRequest (port addr : Nat) (write excl : Bool) (data : List Byte) (s : State) : Out :=
  .next
    (if 2 ≤ port || !s.boot.cfg.getLsbD (8 + port) || s.boot.state != 2 || addr % 64 != 0 ||
        !(data.isEmpty || data.length == 64) || s.portLost port || s.isHeld (pcieSrc (16 + port)) then s
    else match s.decoded port addr with
      | none => s.unserved port addr write
      | some phys =>
        if !s.reachable phys then s.unserved port addr write
        else if (s.sealedRoot phys).isSome then
          if write then (s.tellAccess port phys port).portError port else s.complete port addr (some (s.mem.readBytes 64 (physKey phys)))
        else if write then s.cxlWrite port phys excl data
        else s.cxlRead port addr phys excl)

/-! ### Function Level Reset -/

/-- FUNCTION_LEVEL_RESET: the port's page bindings, windows and MSI-X table, and nothing else. (log 118, DEDUCED) -/
def execFunctionLevelReset (port : Nat) (s : State) : Out :=
  let keep (k : Nat) : Bool := k / 2048 != port
  .next
    (if 2 ≤ port then s
    else
      { s with
        pages := nkeep (fun k _ => keep k) s.pages
        tables := nkeep (fun k _ => k / 4096 != port && k / 4096 != 2 + port) s.tables
        msixOn := nkeep (fun k _ => keep k) s.msixOn
        msixMsg := nkeep (fun k _ => keep k) s.msixMsg
        inbound := ndel s.inbound port
        msixPend := s.msixPend.filter keep })

/-! ### Scallink (R462-R464) -/

/-- The acknowledgement of a frame ends what it carried. -/
def State.settleFrame (s : State) (f : Frame) : State :=
  match f.op with
  | none => s
  | some id =>
    match s.findPiece id with
    | some (k, p) => s.pieceOn k p p.len
    | none =>
      match s.findReq id with
      | none => s
      | some r =>
        match r.kind with
        | .entry _ _ page => (s.endReq r).pageVector page
        | _ => s.endReq r

def State.settleFrames (s : State) : List Frame → State
  | [] => s
  | f :: fs => State.settleFrames (s.settleFrame f) fs

/-- The unacknowledged frames that a cumulative acknowledgement covers, and the others. -/
def State.ackSplit (s : State) (ack : Nat) : List Frame → List Frame × List Frame
  | [] => ([], [])
  | f :: fs =>
    let d := (ack + 2 ^ 32 - f.seq) % 2 ^ 32
    if d != 0 && d < 2 ^ 31 && s.frameOut f then
      let (a, b) := State.ackSplit s ack fs
      (f :: a, b)
    else ([], f :: fs)

/-- The far end has acknowledged the frames before `ack`; when it refuses the next one, that frame and all after it fail,
and the next frame takes the refused one's number. (log 110, DEDUCED) -/
def State.takeAck (s : State) (conn ack : Nat) (refused : Bool) : State :=
  let c := nget ({} : Conn) s.conns conn
  let (done, left) := s.ackSplit ack c.unacked
  let c := if done.isEmpty then c else { c with retries := 0, sentAt := s.now }
  let hit := refused && (left.head?.any fun f => f.seq == ack % 2 ^ 32 && s.frameOut f)
  let c := if hit then { c with unacked := [], sendSeq := ack % 2 ^ 32 } else { c with unacked := left }
  let s := { s with conns := nset s.conns conn c }.settleFrames done
  if hit then s.failFrames conn left else s

/-- An arriving message is delivered at its destination under the local context and launch; its acceptance there counts it
as started and acknowledges the frame (R462). -/
def State.linkMessage (s : State) (conn : Nat) (hdr : Word) (dest : Nat) (words : List Word) : State :=
  let (w0, w1, _) := s.tableEntry 3 0 conn
  let lctx := fld w0 0 12
  let tag := fld w1 48 12
  let part := (s.ctx lctx).part
  let l := s.launch part tag
  let die := s.connDie conn
  if !validEp dest || !(isService dest || s.partOf (epCore dest) == part) || !l.inUse || l.ctx != lctx || l.state != .running then
    s.refuseFrame conn
  else
    s.post
      { hdr := mkHdr (hdrHandler hdr) lctx (scallinkSrc die) tag (hdrClass hdr) (hdrWords hdr) false, dest := dest,
        src := scallinkSrc die, payload := (words ++ List.replicate 7 0).take (hdrWords hdr),
        floor := s.carried (s.portSrc ((s.connPort conn).getD 0)) die, link := some conn }

/-- The number that a connection's arriving write waits for walks under. -/
def linkWalk (conn : Nat) : Nat := 2 ^ 43 + conn

/-- An arriving write is translated under the local context's tree, and becomes an access in flight that is performed granule by
granule; the frame is acknowledged with its last (R464). A fault goes to that context's pager and refuses the frame. The remote
agent's endpoint and launch are left open in the fault message. (log 111, DEDUCED; log 112, DEDUCED) -/
def State.linkWrite (s : State) (conn : Nat) (addr n : Nat) (words : List Word) : State :=
  let lctx := fld (s.tableEntry 3 0 conn).1 0 12
  let die := s.connDie conn
  let bs := (words.flatMap fun (w : Word) => leBytes 8 w.toNat).take n
  if s.isHeld (walkerSrc die) || bs.isEmpty then s
  else if !s.mayWalk die (linkWalk conn) lctx addr && 384 ≤ (s.walkQ die).length then s.joinWalk die (linkWalk conn) lctx addr
  else
    let (r, s1) := (s.leaveWalk die (linkWalk conn)).translate lctx addr bs.length .write false die
    match r with
    | .error f =>
      let (a, s1) := s1.freeValue
      let (b, s1) := s1.freeValue
      (s1.transFault lctx die f 1 (fld a 0 18) (fld b 0 12) addr bs.length (words.getD 0 0)).refuseFrame conn
    | .ok l =>
      if s1.hostOwned l.phys then s1.askFor l.phys bs.length true
      else
        let (id, s1) := s1.fresh
        let r : Req :=
          { id := id, ep := scallinkSrc die, uid := 0, ctx := lctx, launch := 0, det := true, kind := .remote conn bs, va := addr,
            size := bs.length, sc := .sys, land := some l }
        { s1 with reqs := s1.reqs ++ [r] }.charge id lctx l.phys bs.length

/-- A message or a write of a connection has not come to its end. -/
def State.connBusy (s : State) (conn : Nat) : Bool :=
  s.msgs.any (·.link == some conn) || s.reqs.any fun r => match r.kind with
    | .remote c _ => c == conn
    | _ => false

/-- A frame that is next in order is performed or refused; an earlier one is a duplicate, and is acknowledged again; nothing
comes while a message of the connection waits at its destination, or a write of it is under way. (log 110, DEDUCED) -/
def State.takeFrame (s : State) (conn seq : Nat) (message : Bool) (hdr : Word) (dest addr : Nat) (words : List Word) : State :=
  let w := (s.tableEntry 3 0 conn).1
  let c := nget ({} : Conn) s.conns conn
  if s.connBusy conn then s
  else if seq % 2 ^ 32 != c.recvSeq then s.putAck conn c.recvSeq false
  else if !w.getLsbD 63 || !(s.ctx (fld w 0 12)).inUse then s.refuseFrame conn
  else if message then s.linkMessage conn hdr dest words
  else s.linkWrite conn addr (Nat.min hdr.toNat 4096) words

/-- SCALLINK_FRAME. Every frame carries an acknowledgement, and the refusal that comes with one. -/
def execScallinkFrame (conn seq : Nat) (message : Bool) (hdr : Word) (dest addr : Nat) (words : List Word) (ackOnly : Bool)
    (ackSeq : Nat) (refused : Bool) (s : State) : Out :=
  .next
    (if s.boot.state != 2 || 4096 ≤ conn || (s.connPort conn).isNone || s.isHeld (scallinkSrc (s.connDie conn)) then s
    else
      let s := s.takeAck conn ackSeq refused
      if ackOnly then s else s.takeFrame conn seq message hdr dest addr words)

/-- SCALLINK_RETRANSMIT: after 20 µs the unacknowledged frames go out again; after the 16th time they fail, and the
connection is down. -/
def execScallinkRetransmit (conn : Nat) (s : State) : Out :=
  let c := nget ({} : Conn) s.conns conn
  .next
    (match c.unacked with
      | [] => s
      | f :: _ =>
        if !s.frameOut f || s.now < c.sentAt + 20 * Config.usTicks then s
        else if c.retries < 16 then
          { s with conns := nset s.conns conn { c with retries := c.retries + 1, sentAt := s.now } }.putFrames conn
            (s.framesOut c.unacked)
        else
          let (w0, w1, w2) := s.tableEntry 3 0 conn
          { s with tables := nset s.tables (tableKey 3 0 conn) (w0 ||| BitVec.ofNat 64 (2 ^ 62), w1, w2) }.failConn conn)

/-- LINK_STATE: Ethernet ports 0-15, PCIe ports 16 and 17. -/
def execLinkState (port : Nat) (up : Bool) (s : State) : Out :=
  let die := portDie port
  .next
    (if 18 ≤ port || s.fenced.contains die || s.links.contains port == up || s.isHeld (s.portSrc port) then s
    else
      let s := { s with links := if up then s.links ++ [port] else s.links.filter (· != port) }
      (s.emit (s.portSrc port) die 0 0x280 (if up then 1 else 0)).notify 10
        [BitVec.ofNat 64 (port * 2 + if up then 1 else 0)])

end Sys2Proof.Machine
end

