-- ==== Sys2Proof/Machine/Boot.lean ====
section
/-!
DEFINITION. Reset and signed boot (22_host_peers_bringup.md R467, R468): power-on and warm reset, the boot configuration,
the end of bring-up, and the recovery buffer.
-/
namespace Sys2Proof.Machine

/-! ### Signed boot (R417, R468) -/

/-- The images in the order of R417, verified and measured from `i` on; `k` distinguishes one boot from another. The first
whose signature fails puts the device into recovery. -/
def bootImages (k : Nat) : Nat → Boot → Boot
  | 0, b => { b with state := 1 }
  | n + 1, b =>
    let i := 4 - n
    if Config.imageGood (4 * k + i) then bootImages k n { b with measure := sha3 (b.measure ++ Config.imageHash (4 * k + i)) }
    else { b with state := 4, fail := i }

/-- Steps 1 to 4: the images, and the PCIe links of dies that are not fenced. (log 122, DESIGN CHOICE) -/
def State.startBoot (s : State) : State :=
  { s with
    boot := bootImages s.free 4 { s.boot with measure := List.replicate 32 0 }
    free := s.free + 1
    links := [16, 17].filter fun q => !s.fenced.contains (portDie q) }

/-- What stands outside the device or only counts this model's own events. (log 121, DEDUCED) -/
def State.bare (s : State) : State :=
  { agenda := s.agenda, turn := s.turn, cur := s.cur, free := s.free, uids := s.uids, ids := s.ids, notices := s.notices,
    busOut := s.busOut }

/-- POWER_ON_RESET: everything is cleared but the recovery buffer that an image may have been written to.
(log 121, DEDUCED) -/
def execPowerOnReset (s : State) : Out :=
  let r : State := { s.bare with mem := s.mem.keep fun a => 2 ^ 54 ≤ a && a < 2 ^ 55 }
  .next r.startBoot

/-- An array's fields that a warm reset keeps (R173). -/
def Arr.kept (x : Arr) : Arr := { fails := x.fails, quads := x.quads, mode := x.mode, repl := x.repl }

/-- The device after a warm reset: `ctime`, fences, last reels, the Scroll and the fields marked "kept" stay, and each emitter
still stamps above its latest slate (R276); HBM4E is scrubbed when its training ends. -/
def State.warm (s : State) : State :=
  { s.bare with
    mem := s.mem.keep fun a => a < 2 ^ 48 || (2 ^ 55 ≤ a && a < 2 ^ 56)
    now := s.now, ctimeOff := s.ctimeOff, refills := s.refills, stamps := s.stamps
    reelNext := s.reelNext, fenced := s.fenced, seu := s.seu, failover := s.failover
    pairs := nmap (fun _ (p : Pair) => { fenced := p.fenced }) s.pairs
    arrays := nmap (fun _ (x : Arr) => x.kept) s.arrays
    scroll := { s.scroll with queued := [] }
    timeBase := { stepped := s.timeBase.stepped }
    boot := { repl := s.boot.repl } }

/-- WARM_RESET by the reset pin. -/
def execWarmReset (s : State) : Out := .next s.warm.startBoot

/-- WARM_RESET by a request of the control page, which takes none while it has one in progress (R458). -/
def execWarmResetRequest (s : State) : Out :=
  .next (if s.pageOpen 5 then (s.controlEnd 5 0 .successful).warm.startBoot else s.turnAway 5)

/-! ### Configuration and bring-up (R468) -/

/-- A release is refused with node 0xFFFF, an extent out of range or a reserved bit. -/
def releaseOk (cfg : Word) : Bool :=
  fld cfg 32 16 != 0xFFFF && fld cfg 16 4 ≤ 12 && fld cfg 12 4 ≤ 8 && fld cfg 48 15 == 0 && fld cfg 20 12 == 0 &&
    fld cfg 10 2 == 0 && fld cfg 2 6 == 0

/-- BOOT_RELEASE: a write of the boot configuration; reserved bits of one that does not release are ignored (R2).
(log 124, DEDUCED) -/
def execBootRelease (cfg : Word) (s : State) : Out :=
  .next
    (if s.boot.state != 1 || s.boot.cfg.getLsbD 63 then s
    else if !cfg.getLsbD 63 then { s with boot := { s.boot with cfg := cfg &&& 0xFFFF000FF303 } }
    else if !releaseOk cfg then s
    else { s with boot := { s.boot with cfg := cfg }, parts := 2 ^ fld cfg 0 2 })

/-- The scrub: HBM4E outside the Scroll ring and its checkpoint area (R371, R467). (log 123, DEDUCED) -/
def State.scrub (s : State) : State :=
  { s with mem := s.mem.keep fun a => 2 ^ 48 ≤ a || (s.ckptBase ≤ a && a < shareSize s.parts) }

/-- The Scroll begins, or goes on, with a checkpoint; where staging is full, the next entry that fits brings it.
(log 123, DEDUCED) -/
def State.openScroll (s : State) : State :=
  let s := if s.scroll.seq == 0 then { s with scroll := { s.scroll with prev := s.boot.measure } } else s
  if s.scroll.staging.length < 4096 then s.checkpoint else { s with scroll := { s.scroll with since := 255 } }

/-- The self-tests of the first `n` arrays at boot; which quadrants fail is open, as it is of any self-test (R192, R468).
(log 122, DESIGN CHOICE) -/
def State.bootTests (s : State) : Nat → State
  | 0 => s
  | n + 1 =>
    let s := State.bootTests s n
    let (w, s) := s.freeValue
    if fld w 0 4 == 0 then s else s.testFailed n (w.setWidth 4)

/-- BOOT_READY: training has ended, well or not, and the arrays have been tested. (log 122, DESIGN CHOICE) -/
def execBootReady (s : State) : Out :=
  .next
    (if s.boot.state != 1 || !s.boot.cfg.getLsbD 63 then s
    else
      let (w, s) := s.freeValue
      if w.getLsbD 0 then { s with boot := { s.boot with state := 4, fail := 5 } }
      else ({ s with boot := { s.boot with state := 2 } }.scrub.bootTests 576).openScroll)

/-! ### Recovery (R468) -/

/-- RECOVERY_OFFSET_WRITE. -/
def execRecoveryOffsetWrite (off : Word) (s : State) : Out :=
  .next
    (if s.boot.state == 4 && off.toNat % 8 == 0 && off.toNat < 2 ^ 24 then
      { s with boot := { s.boot with recOff := off.toNat } }
    else s)

/-- RECOVERY_DATA_WRITE. (log 124, DEDUCED) -/
def execRecoveryDataWrite (v : Word) (s : State) : Out :=
  let a := s.boot.recOff
  .next
    (if s.boot.state == 4 && a < 2 ^ 24 then
      { s with mem := s.mem.writeWord (recoveryKey a) v, boot := { s.boot with recOff := a + 8 } }
    else s)

end Sys2Proof.Machine
end

