-- ==== Sys2Proof/Machine/Control.lean ====
section
/-!
DEFINITION. Control transfers and repetition (R75, R129-R131).
-/
namespace Sys2Proof.Machine

/-- The four entries of the return-address stack after a call (R130). -/
def rasPush (ras : List W32) (a : W32) : List W32 := (a :: ras).take 4

/-- BR (R129). -/
def execBr (c : Cond) (a b : Src) (off : W32) (s : State) : Out :=
  let pc := s.me.regs.pc
  .next (if condHolds c (s.raw 0 a) (s.raw 0 b) then s.goto (pc + off) else s.done 8)
/-- J (R130). -/
def execJ (off : W32) (s : State) : Out := .next (s.goto (s.me.regs.pc + off))
/-- The transfer lands: the target passes R62 and R63, or the thread follows its leader. -/
def State.lands (s : State) (target : W32) : Bool :=
  s.me.follows || (target.toNat % 4 == 0 && target.toNat < padSize s.curCore && target.toNat % 32 != 28)
/-- JL (R130): the address of the next instruction is pushed, and kept on the return-address stack. -/
def execJl (dst : Dst) (off : W32) (s : State) : Out :=
  let pc := s.me.regs.pc
  let next := nextPc pc 8
  .next
    (if s.lands (pc + off) then
      (s.upd fun t =>
        let t := t.result dst (next.setWidth 64)
        { t with regs := { t.regs with ras := rasPush t.regs.ras next } }).goto (pc + off)
    else s.goto (pc + off))
/-- JR (R130): a[63:32] is ignored. -/
def execJr (a : Src) (imm : W32) (s : State) : Out := .next (s.goto ((s.raw imm a).setWidth 32))
/-- RET (R130): as JR; the return-address stack is popped, and where it names the target the delay is one cycle (R122).
(log 135, DEDUCED) -/
def execRet (a : Src) (imm : W32) (s : State) : Out :=
  let target := (s.raw imm a).setWidth 32
  .next
    (if s.lands target then
      (s.updRegs fun r => { r with ras := r.ras.drop 1 }).gotoIn target
        (if s.me.regs.ras.head? == some target then 1 else 2)
    else s.goto target)
/-- LOOP (R130): a - 1 is pushed; the transfer is taken where it is not zero. -/
def execLoop (dst : Dst) (a : Src) (off : W32) (s : State) : Out :=
  let v := s.raw 0 a - 1
  let target := s.me.regs.pc + off
  .next
    (if v == 0 then s.finish dst v 8
    else if s.lands target then (s.upd (·.result dst v)).goto target
    else s.goto target)

/-- REP (R75, R131): the whole body is fetched before pass 0, or the repetition fault is raised at the REP. -/
def execRep (n : BitVec 16) (len : BitVec 4) (stag : BitVec 3) (s : State) : Out :=
  let imm : W32 := (0 : BitVec 9) ++ stag ++ len ++ n
  let pc := s.me.regs.pc
  .next
    (match repAt s.mem s.curCore imm (nextPc pc 8) with
      | none => s.raise 0x04 0
      | some r =>
        s.upd fun t =>
          { t with rep := some r, shift := 0, retired := t.retired + 1, regs := { t.regs with pc := r.start, pix := 0 } })

end Sys2Proof.Machine
end

