-- ==== Sys2Proof/Machine/Float.lean ====
section
/-!
DEFINITION. Scalar floating point (R132-R134).
-/
namespace Sys2Proof.Machine

/-- A two-source floating-point instruction (R132): it rounds once and takes more than one cycle. -/
def State.fpLate2 (s : State) (i : Instr) (t : ElemTy) (o : Op2) : State :=
  s.finishLate i o.dst (s.fp t o.imm o.a) (s.fp t o.imm o.b) s.w0
def State.fpLate1 (s : State) (i : Instr) (o : Op1) : State := s.finishLate i o.dst (s.fp .f32 o.imm o.a) 0 s.w0
/-- The code of a scalar floating-point result as a register value (R99). -/
def fpWord (c : Nat) : Word := BitVec.ofNat 64 c

/-- FADD (R132). -/
def execFadd (t : FTy) (rm : Rnd) (ftz : Bool) (o : Op2) (s : State) : Out :=
  .next (s.fpLate2 (.fadd t rm ftz o) (fElem t) o)
/-- FSUB (R132). -/
def execFsub (t : FTy) (rm : Rnd) (ftz : Bool) (o : Op2) (s : State) : Out :=
  .next (s.fpLate2 (.fsub t rm ftz o) (fElem t) o)
/-- FMUL (R132). -/
def execFmul (t : FTy) (rm : Rnd) (ftz : Bool) (o : Op2) (s : State) : Out :=
  .next (s.fpLate2 (.fmul t rm ftz o) (fElem t) o)
/-- FFMA (R132): a * b + w0, one rounding. -/
def execFfma (t : FTy) (rm : Rnd) (ftz : Bool) (o : Op2) (s : State) : Out :=
  .next (s.fpLate2 (.ffma t rm ftz o) (fElem t) o)
/-- FDIV (R132). -/
def execFdiv (rm : Rnd) (ftz : Bool) (o : Op2) (s : State) : Out := .next (s.fpLate2 (.fdiv rm ftz o) .f32 o)
/-- FSQRT (R132): the exact value rounded once. -/
def execFsqrt (rm : Rnd) (ftz : Bool) (o : Op1) (s : State) : Out := .next (s.fpLate1 (.fsqrt rm ftz o) o)
/-- FEXP2 (R132): the exact value rounded once. -/
def execFexp2 (rm : Rnd) (ftz : Bool) (o : Op1) (s : State) : Out := .next (s.fpLate1 (.fexp2 rm ftz o) o)
/-- FLOG2 (R132): the exact value rounded once. -/
def execFlog2 (rm : Rnd) (ftz : Bool) (o : Op1) (s : State) : Out := .next (s.fpLate1 (.flog2 rm ftz o) o)
/-- FRSQ (R132): the exact value rounded once. -/
def execFrsq (rm : Rnd) (ftz : Bool) (o : Op1) (s : State) : Out := .next (s.fpLate1 (.frsq rm ftz o) o)
/-- FMIN and FMAX (R133). -/
def State.fpMm (s : State) (wantMax : Bool) (t : FTy) (ftz : Bool) (o : Op2) : State :=
  s.finish o.dst
    (fpWord (fpMinMax wantMax ftz (fElem t) (s.fp (fElem t) o.imm o.a).toNat (s.fp (fElem t) o.imm o.b).toNat)) 8
/-- FMIN (R133). -/
def execFmin (t : FTy) (ftz : Bool) (o : Op2) (s : State) : Out := .next (s.fpMm false t ftz o)
/-- FMAX (R133). -/
def execFmax (t : FTy) (ftz : Bool) (o : Op2) (s : State) : Out := .next (s.fpMm true t ftz o)
/-- FABS (R133). -/
def execFabs (t : FTy) (ftz : Bool) (o : Op1) (s : State) : Out :=
  .next (s.finish o.dst (fpWord (fpAbs ftz (fElem t) ((s.fp (fElem t) o.imm o.a).toNat % 2 ^ elemBits (fElem t)))) 8)
/-- FNEG (R133). -/
def execFneg (t : FTy) (ftz : Bool) (o : Op1) (s : State) : Out :=
  .next (s.finish o.dst (fpWord (fpNeg ftz (fElem t) ((s.fp (fElem t) o.imm o.a).toNat % 2 ^ elemBits (fElem t)))) 8)
/-- FCMP (R133): 1 where the relation holds. -/
def execFcmp (t : FTy) (r : Rel) (ftz : Bool) (o : Op2) (s : State) : Out :=
  .next
    (s.finish o.dst
      (boolWord (fpRel r (fpIn ftz (fElem t) (s.fp (fElem t) o.imm o.a).toNat)
        (fpIn ftz (fElem t) (s.fp (fElem t) o.imm o.b).toNat))) 8)
/-- FCVT (R134). (log 18, DEDUCED) -/
def execFcvt (ty : ElemTy) (rm : Rnd) (nan : Bool) (src : BitVec 6) (dst : Dst) (a : Src) (s : State) : Out :=
  .next (s.finishLate (.fcvt ty rm nan src dst a) dst (s.fp (fcvtSource src) 0 a) 0 s.w0)

end Sys2Proof.Machine
end

