-- ==== Sys2Proof/Machine/Integer.lean ====
section
/-!
DEFINITION. The integer instructions and the moves (06_scalar_vector_instructions.md R121-R128).
-/
namespace Sys2Proof.Machine

/-- A two-source integer instruction of one cycle (R121, R123). -/
def State.int2 (s : State) (f : IntTy → Word → Word → Word) (t : IntTy) (o : Op2) : State :=
  s.finish o.dst (f t (s.int t o.imm o.a) (s.int t o.imm o.b)) 8

/-- A one-source integer instruction of one cycle. -/
def State.int1 (s : State) (f : IntTy → Word → Word) (t : IntTy) (o : Op1) : State :=
  s.finish o.dst (f t (s.int t o.imm o.a)) 8

/-- A two-source integer instruction whose result takes longer (R122). -/
def State.intLate (s : State) (i : Instr) (t : IntTy) (o : Op2) : State :=
  s.finishLate i o.dst (s.int t o.imm o.a) (s.int t o.imm o.b) s.w0

/-- ADD (R123): the sum modulo 2^w. -/
def execAdd (t : IntTy) (o : Op2) (s : State) : Out := .next (s.int2 aluAdd t o)
/-- ADDI (R123): a + b * s over all 64 bits, s the size of the type. -/
def execAddi (t : IntTy) (o : Op2) (s : State) : Out := .next (s.int2 aluAddi t o)
/-- SUB (R123). -/
def execSub (t : IntTy) (o : Op2) (s : State) : Out := .next (s.int2 aluSub t o)
/-- NEG (R123). -/
def execNeg (t : IntTy) (o : Op1) (s : State) : Out := .next (s.int1 aluNeg t o)
/-- AND (R123). -/
def execAnd (t : IntTy) (o : Op2) (s : State) : Out := .next (s.int2 aluAnd t o)
/-- OR (R123). -/
def execOr (t : IntTy) (o : Op2) (s : State) : Out := .next (s.int2 aluOr t o)
/-- XOR (R123). -/
def execXor (t : IntTy) (o : Op2) (s : State) : Out := .next (s.int2 aluXor t o)
/-- ANDN (R123): a AND NOT b. -/
def execAndn (t : IntTy) (o : Op2) (s : State) : Out := .next (s.int2 aluAndn t o)
/-- NOT (R123). -/
def execNot (t : IntTy) (o : Op1) (s : State) : Out := .next (s.int1 aluNot t o)
/-- SHL (R123): by b mod w. -/
def execShl (t : IntTy) (o : Op2) (s : State) : Out := .next (s.int2 aluShl t o)
/-- SHR (R123): a read unsigned, by b mod w. -/
def execShr (t : IntTy) (o : Op2) (s : State) : Out := .next (s.int2 aluShr t o)
/-- ROTL (R123). -/
def execRotl (t : IntTy) (o : Op2) (s : State) : Out := .next (s.int2 aluRotl t o)
/-- CLZ (R123). -/
def execClz (t : IntTy) (o : Op1) (s : State) : Out := .next (s.int1 aluClz t o)
/-- CTZ (R123). -/
def execCtz (t : IntTy) (o : Op1) (s : State) : Out := .next (s.int1 aluCtz t o)
/-- POPC (R123). -/
def execPopc (t : IntTy) (o : Op1) (s : State) : Out := .next (s.int1 aluPopc t o)
/-- SEQ (R123): 1 where the sources are equal at the type. -/
def execSeq (t : IntTy) (o : Op2) (s : State) : Out := .next (s.int2 aluSeq t o)
/-- BFX (R125): the field of a that b places. -/
def execBfx (t : IntTy) (o : Op2) (s : State) : Out := .next (s.int2 aluBfx t o)
/-- MIN (R123), signed. -/
def execMin (t : IntTy) (o : Op2) (s : State) : Out := .next (s.int2 aluMin t o)
/-- MAX (R123), signed. -/
def execMax (t : IntTy) (o : Op2) (s : State) : Out := .next (s.int2 aluMax t o)
/-- SLT (R123), signed. -/
def execSlt (t : IntTy) (o : Op2) (s : State) : Out := .next (s.int2 aluSlt t o)
/-- SHRA (R123). -/
def execShra (t : IntTy) (o : Op2) (s : State) : Out := .next (s.int2 aluShra t o)
/-- SEXT (R123): to 64 bits. -/
def execSext (t : IntTy) (o : Op1) (s : State) : Out := .next (s.int1 aluExt t o)
/-- MINN (R123), unsigned. -/
def execMinn (t : IntTy) (o : Op2) (s : State) : Out := .next (s.int2 aluMin t o)
/-- MAXN (R123), unsigned. -/
def execMaxn (t : IntTy) (o : Op2) (s : State) : Out := .next (s.int2 aluMax t o)
/-- SLTN (R123), unsigned. -/
def execSltn (t : IntTy) (o : Op2) (s : State) : Out := .next (s.int2 aluSlt t o)
/-- ZEXT (R123): to 64 bits. -/
def execZext (t : IntTy) (o : Op1) (s : State) : Out := .next (s.int1 aluExt t o)
/-- SEL (R126): a where w0[0] is 1, else b. -/
def execSel (t : IntTy) (o : Op2) (s : State) : Out :=
  .next (s.finish o.dst (aluSel t s.w0 (s.int t o.imm o.a) (s.int t o.imm o.b)) 8)
/-- BFI (R125): the field placed by b in w0 replaced by the low bits of a. -/
def execBfi (t : IntTy) (o : Op2) (s : State) : Out :=
  .next (s.finish o.dst (aluBfi t s.w0 (s.int t o.imm o.a) (s.int t o.imm o.b)) 8)
/-- MUL (R123): the low w bits of the product. -/
def execMul (t : IntTy) (o : Op2) (s : State) : Out := .next (s.intLate (.mul t o) t o)
/-- MULH (R123): the high part, signed. -/
def execMulh (t : IntTy) (o : Op2) (s : State) : Out := .next (s.intLate (.mulh t o) t o)
/-- MULHN (R123): the high part, unsigned. -/
def execMulhn (t : IntTy) (o : Op2) (s : State) : Out := .next (s.intLate (.mulhn t o) t o)
/-- DIV (R124). -/
def execDiv (t : IntTy) (o : Op2) (s : State) : Out := .next (s.intLate (.div t o) t o)
/-- REM (R124). -/
def execRem (t : IntTy) (o : Op2) (s : State) : Out := .next (s.intLate (.rem t o) t o)
/-- DIVN (R124). -/
def execDivn (t : IntTy) (o : Op2) (s : State) : Out := .next (s.intLate (.divn t o) t o)
/-- REMN (R124). -/
def execRemn (t : IntTy) (o : Op2) (s : State) : Out := .next (s.intLate (.remn t o) t o)
/-- LI (R127): the immediate sign-extended. -/
def execLi (dst : Dst) (imm : W32) (s : State) : Out := .next (s.finish dst (aluLi imm) 8)
/-- LIH (R127): imm * 2^32 + a[31:0]. -/
def execLih (dst : Dst) (a : Src) (imm : W32) (s : State) : Out := .next (s.finish dst (aluLih (s.raw imm a) imm) 8)

/-- MOVK (R128): a nib register takes a main register; nothing is pushed. -/
def execMovk (g : Fin 32) (k : Fin 8) (s : State) : Out :=
  .next ((s.upd fun t => { t with regs := { t.regs with k := t.regs.k.set (renamed t.shift k) t.regs.g[g] } }).done 8)
/-- MOVG (R128): a main register takes a source. -/
def execMovg (g : Fin 32) (a : Src) (imm : W32) (s : State) : Out :=
  let v := s.raw imm a
  .next ((s.updRegs fun r => { r with g := r.g.set g v }).done 8)
/-- The main file after MOVM: `cnt` registers from `dst` take the old values from `src` (R57, R128). -/
def movGroup (g : Vector Word 32) (src dst cnt : Nat) : Vector Word 32 :=
  Vector.ofFn fun i => if dst ≤ i.val ∧ i.val < dst + cnt then g.toArray.getD (src + (i.val - dst)) 0 else g[i]
/-- MOVM (R128). -/
def execMovm (src dst : Fin 32) (cnt : BitVec 5) (s : State) : Out :=
  .next ((s.updRegs fun r => { r with g := movGroup r.g src.val dst.val (cnt.toNat + 1) }).done 8)

end Sys2Proof.Machine
end

