-- ==== Sys2Proof/Machine/Vector.lean ====
section
/-!
DEFINITION. The vector instructions, the pointer instructions and bit-granular access (06_scalar_vector_instructions.md
R135-R153).
-/
namespace Sys2Proof.Machine

/-! ### Elements in memory -/

/-- The bytes of one element. -/
def elemBytes (t : ElemTy) : Nat := Nat.max 1 (elemHalf t / 2)

/-- The code of the element of lane `l` from base `b`, read by thread `ep` in space `sp` (R138, R141). -/
def State.laneLoad (s : State) (sp : Nat) (t : ElemTy) (b : W32) (l : Nat) : Nat × State :=
  let a := laneAddr t (b.toNat % 2 ^ 28) l
  let (v, s) :=
    if sp == 0 then s.padLoad s.cur s.curCore a (elemBytes t)
    else (s.mem.readNat (elemBytes t) (accKey (coreArray s.curCore) a), s)
  (if t == .f4 then v / 16 ^ (l % 2) % 16 else v, s)

/-- A write of `n` bytes in space 0 or in the accumulator memory. -/
def State.vecStore (s : State) (sp a n v : Nat) : State :=
  if sp == 0 then s.padStore s.cur s.curCore a n v
  else { s with mem := s.mem.writeNat n (accKey (coreArray s.curCore) a) v }

/-- The element of lane `l` written; a 4-bit element keeps the other half of its byte (R138). -/
def State.laneStore (s : State) (sp : Nat) (t : ElemTy) (b : W32) (l v : Nat) : State :=
  let a := laneAddr t (b.toNat % 2 ^ 28) l
  if t == .f4 then
    let old := if sp == 0 then (s.mem.read (padKey s.curCore a)).toNat
      else (s.mem.read (accKey (coreArray s.curCore) a)).toNat
    s.vecStore sp a 1 (if l % 2 == 0 then old / 16 * 16 + v % 16 else v % 16 * 16 + old % 16)
  else s.vecStore sp a (elemBytes t) v

/-- The elements of the active lanes, in lane order: each lane on a guard is one touch. (log 171, DESIGN CHOICE) -/
def State.lanesLoad (s : State) (sp : Nat) (t : ElemTy) (b : W32) : List Nat → List (Nat × Nat) × State
  | [] => ([], s)
  | l :: ls =>
    let (v, s) := s.laneLoad sp t b l
    let (vs, s) := State.lanesLoad s sp t b ls
    ((l, v) :: vs, s)

def State.lanesStore (s : State) (sp : Nat) (t : ElemTy) (b : W32) : List (Nat × Nat) → State
  | [] => s
  | (l, v) :: ls => State.lanesStore (s.laneStore sp t b l v) sp t b ls

/-- The value of a lane in a list of lanes. -/
def laneOf (vs : List (Nat × W32)) (l : Nat) : W32 := nget 0 vs l

/-- `acc` with the listed lanes replaced. -/
def accSet (acc : Vector W32 64) (vs : List (Nat × W32)) : Vector W32 64 :=
  Vector.ofFn fun i => (nfind vs i.val).getD acc[i]

/-! ### Modifiers (R71, R72) -/

def ctlRnd (c : BitVec 5) : Rnd :=
  match (c.extractLsb' 0 3).toNat with
  | 0 => .rne
  | 1 => .rtz
  | 2 => .rup
  | 3 => .rdn
  | 4 => .rna
  | _ => .rsr
def ctlFtz (c : BitVec 5) : Bool := c.getLsbD 3
def ctlNan (c : BitVec 5) : Bool := c.getLsbD 4

/-- Lanes computed in rising order, each with the generator as the lanes before it left it (R117). -/
def laneFold (steps : Bool) (f : W32 → Nat → W32) : W32 → List Nat → List (Nat × W32) × W32
  | g, [] => ([], g)
  | g, l :: ls =>
    let v := f g l
    let (vs, g) := laneFold steps f (if steps then stepRng g else g) ls
    ((l, v) :: vs, g)

/-! ### The shape of a vector instruction (R140) -/

/-- The memory operands of an instruction (R138): of several that fail, the first one's fault is raised.
(log 159, DESIGN CHOICE) -/
def checkAll (core : Nat) (t : ElemTy) (p : Vector Word 8) (active : List Nat) :
    List (Fin 8) → Option (Nat × Word)
  | [] => none
  | i :: is =>
    match checkVec core t (ptrBase p[i]) active with
    | .error e => some e
    | .ok _ => checkAll core t p active is

/-- The source lanes: `acc`, or memory at a pointer (R139). (log 14, DEDUCED) -/
def State.vecSrc (s : State) (t : ElemTy) (mem : Bool) (p : Fin 8) (active : List Nat) : List (Nat × W32) × State :=
  if mem then
    let b := ptrBase s.me.regs.p[p]
    let (vs, s) := s.lanesLoad (b.toNat / 2 ^ 28) t b active
    (vs.map fun (l, v) => (l, BitVec.ofNat 32 v), s)
  else (active.map fun l => (l, s.me.regs.acc.toArray.getD l 0), s)

/-- The destination lanes: `acc`, or memory at a pointer. (log 14, DEDUCED) -/
def State.vecDst (s : State) (t : ElemTy) (mem : Bool) (p : Fin 8) (vs : List (Nat × W32)) : State :=
  if mem then
    let b := ptrBase s.me.regs.p[p]
    s.lanesStore (b.toNat / 2 ^ 28) t b (vs.map fun (l, v) => (l, v.toNat))
  else s.updRegs fun r => { r with acc := accSet r.acc vs }

/-- The checks of a vector instruction, then its effect, or the precise fault (R138, R140). -/
def State.vecGuard (s : State) (t : ElemTy) (active : List Nat) (ptrs : List (Fin 8)) (f : State → State) : State :=
  match checkAll s.curCore t s.me.regs.p active ptrs with
  | some (cause, d0) => s.raise cause d0
  | none => f s

/-- The end: the pointers used advance once, and the instruction is complete. -/
def State.vecDone (s : State) (ptrs : List (Fin 8)) : State := (s.updRegs fun r => r.stepPtrs ptrs).done 12

/-- An elementwise instruction of type `t` (R143-R145): `f` maps the generator's state, a lane number and the operands
to the lane's result; `steps` says whether each lane steps the generator. -/
def State.vecMap (s : State) (t : LaneTy) (o : VOp) (hasB steps : Bool) (f : W32 → Nat → W32 → W32 → W32) : State :=
  let active := s.me.regs.lanes o.mask
  let ptrs := usedPtrs o hasB
  let w0 : W32 := s.w0.setWidth 32
  s.vecGuard (laneElem t) active ptrs fun s =>
    let (as, s) := s.vecSrc (laneElem t) o.asel o.pa active
    let (bs, s) := if hasB && !o.bsel then s.vecSrc (laneElem t) true o.pb active else (active.map fun l => (l, w0), s)
    let (vs, g) := laneFold steps (fun g l => f g l (laneOf as l) (laneOf bs l)) s.me.regs.rng active
    let s := s.vecDst (laneElem t) o.dsel o.pd vs
    (s.updRegs fun r => { r with rng := g }).vecDone ptrs

/-- Whether a lane of this type steps the generator under these modifiers (R116). -/
def laneSteps (t : LaneTy) (c : BitVec 5) : Bool := t == .f32 && ctlRnd c == .rsr

/-! ### Elementwise instructions (R143) -/

/-- VADD. -/
def execVadd (t : LaneTy) (o : VOp) (s : State) : Out :=
  .next (s.vecMap t o true (laneSteps t o.ctl) fun g _ x y => laneAdd t (ctlRnd o.ctl) (ctlFtz o.ctl) g x y)
/-- VSUB. -/
def execVsub (t : LaneTy) (o : VOp) (s : State) : Out :=
  .next (s.vecMap t o true (laneSteps t o.ctl) fun g _ x y => laneSub t (ctlRnd o.ctl) (ctlFtz o.ctl) g x y)
/-- VMUL. -/
def execVmul (t : LaneTy) (o : VOp) (s : State) : Out :=
  .next (s.vecMap t o true (laneSteps t o.ctl) fun g _ x y => laneMul t (ctlRnd o.ctl) (ctlFtz o.ctl) g x y)
/-- VMIN. -/
def execVmin (t : LaneTy) (o : VOp) (s : State) : Out :=
  .next (s.vecMap t o true false fun _ _ x y => laneMinMax false t x y)
/-- VMAX. -/
def execVmax (t : LaneTy) (o : VOp) (s : State) : Out :=
  .next (s.vecMap t o true false fun _ _ x y => laneMinMax true t x y)
/-- VABS. -/
def execVabs (t : LaneTy) (o : VOp) (s : State) : Out := .next (s.vecMap t o false false fun _ _ x _ => laneAbs t x)
/-- VAND. -/
def execVand (t : LaneTy) (o : VOp) (s : State) : Out := .next (s.vecMap t o true false fun _ _ x y => x &&& y)
/-- VOR. -/
def execVor (t : LaneTy) (o : VOp) (s : State) : Out := .next (s.vecMap t o true false fun _ _ x y => x ||| y)
/-- VXOR. -/
def execVxor (t : LaneTy) (o : VOp) (s : State) : Out := .next (s.vecMap t o true false fun _ _ x y => x ^^^ y)
/-- VSHL. -/
def execVshl (t : LaneTy) (o : VOp) (s : State) : Out := .next (s.vecMap t o true false fun _ _ x y => laneShl x y)
/-- VSHR. -/
def execVshr (t : LaneTy) (o : VOp) (s : State) : Out := .next (s.vecMap t o true false fun _ _ x y => laneShr t x y)
/-- VFMA: A * B + acc, one rounding. -/
def execVfma (o : VOp) (s : State) : Out :=
  let acc := s.me.regs.acc
  let v (x : W32) : XVal := laneVal (ctlFtz o.ctl) .f32 x
  .next
    (s.vecMap .f32 o true (laneSteps .f32 o.ctl) fun g l x y =>
      laneRound (ctlRnd o.ctl) (ctlFtz o.ctl) g (fpFma (ctlRnd o.ctl) (v x) (v y) (v (acc.toArray.getD l 0))))
/-- VEXP2. -/
def execVexp2 (o : VOp) (s : State) : Out :=
  .next (s.vecMap .f32 o false (laneSteps .f32 o.ctl) fun g _ x _ =>
    laneRound (ctlRnd o.ctl) (ctlFtz o.ctl) g (laneVal (ctlFtz o.ctl) .f32 x).exp2)
/-- VRSQ. -/
def execVrsq (o : VOp) (s : State) : Out :=
  .next (s.vecMap .f32 o false (laneSteps .f32 o.ctl) fun g _ x _ =>
    laneRound (ctlRnd o.ctl) (ctlFtz o.ctl) g (laneVal (ctlFtz o.ctl) .f32 x).rsqrt)
/-- VRCP. -/
def execVrcp (o : VOp) (s : State) : Out :=
  .next (s.vecMap .f32 o false (laneSteps .f32 o.ctl) fun g _ x _ =>
    laneRound (ctlRnd o.ctl) (ctlFtz o.ctl) g ((XVal.ofInt 1).div (laneVal (ctlFtz o.ctl) .f32 x)))
/-- VSCL (R144). -/
def execVscl (t : LaneTy) (o : VOp) (s : State) : Out :=
  .next (s.vecMap t o true (laneSteps t o.ctl) fun g _ x y => laneScale t (ctlRnd o.ctl) (ctlFtz o.ctl) g x y)

/-! ### Selecting and building lanes (R145) -/

/-- VSEL: A where bit l of ma(s).col is 1, else B. -/
def execVsel (t : LaneTy) (sm : Fin 4) (o : VOp) (s : State) : Out :=
  let m := s.me.regs.maCol[sm]
  .next (s.vecMap t o true false fun _ l x y => if m.getLsbD l then x else y)

/-- VBCAST: one value to every active lane: w0, or element 0 of memory, the only element read. -/
def execVbcast (t : LaneTy) (o : VOp) (s : State) : Out :=
  let active := s.me.regs.lanes o.mask
  let ptrs := usedPtrs o false
  let w0 : W32 := s.w0.setWidth 32
  .next
    (match checkAll s.curCore (laneElem t) s.me.regs.p (if active.isEmpty then [] else [0]) (if o.asel then [o.pa] else []),
        checkAll s.curCore (laneElem t) s.me.regs.p active (if o.dsel then [o.pd] else []) with
      | some (c, d), _ => s.raise c d
      | none, some (c, d) => s.raise c d
      | none, none =>
        let (vs, s) :=
          if o.asel then s.vecSrc (laneElem t) true o.pa (if active.isEmpty then [] else [0]) else ([(0, w0)], s)
        (s.vecDst (laneElem t) o.dsel o.pd (active.map fun l => (l, laneOf vs 0))).vecDone ptrs)

/-- VPERM: acc of lane B mod 64 when that lane is active, else 0; the low six bits of B's word, an .f32 one too.
(log 158, DESIGN CHOICE) -/
def execVperm (t : LaneTy) (o : VOp) (s : State) : Out :=
  let active := s.me.regs.lanes o.mask
  let acc := s.me.regs.acc
  .next
    (s.vecMap t { o with asel := false } true false fun _ _ _ y =>
      let j := y.toNat % 64
      if active.contains j then acc.toArray.getD j 0 else 0)

/-- VIDX: start + lane * step. -/
def execVidx (t : LaneTy) (m : Fin 4) (pd : Fin 8) (dsel : Bool) (start : W32) (stp : BitVec 16) (ctl : BitVec 5)
    (s : State) : Out :=
  let active := s.me.regs.lanes m
  let ptrs := if dsel then [pd] else []
  let value (g : W32) (l : Nat) : W32 :=
    let v : Int := start.toInt + (l : Int) * stp.toInt
    match t with
    | .f32 => laneRound (ctlRnd ctl) (ctlFtz ctl) g (XVal.ofInt v)
    | .i32 | .n32 => BitVec.ofInt 32 v
  .next
    (s.vecGuard (laneElem t) active ptrs fun s =>
      let (vs, g) := laneFold (laneSteps t ctl) value s.me.regs.rng active
      ((s.vecDst (laneElem t) dsel pd vs).updRegs fun r => { r with rng := g }).vecDone ptrs)

/-! ### Compare and reduce (R146, R147) -/

/-- The value whose listed bits are 1. -/
def bitsOf : List Nat → Word
  | [] => 0
  | l :: ls => bitsOf ls ||| BitVec.ofNat 64 (2 ^ l)

/-- VCMP: the bitmap of the active lanes where the relation holds is pushed, and written to a mask where asked. -/
def execVcmp (t : LaneTy) (r : Rel) (wr : Option (Fin 4)) (o : VOp) (s : State) : Out :=
  let active := s.me.regs.lanes o.mask
  let ptrs := usedPtrs { o with dsel := false } true
  let w0 : W32 := s.w0.setWidth 32
  .next
    (s.vecGuard (laneElem t) active ptrs fun s =>
      let (as, s) := s.vecSrc (laneElem t) o.asel o.pa active
      let (bs, s) := if o.bsel then (active.map fun l => (l, w0), s) else s.vecSrc (laneElem t) true o.pb active
      let v := bitsOf (active.filter fun l => laneRel r t (laneOf as l) (laneOf bs l))
      let s := s.upd fun th => th.result .wet v
      let s := match wr with
        | none => s
        | some m => s.updRegs fun r => { r with maCol := r.maCol.set m v }
      s.vecDone ptrs)

/-- Combine (R147): the other one where one is absent. -/
def combine (steps : Bool) (f : W32 → W32 → W32 → W32) (g : W32) : Option W32 → Option W32 → Option W32 × W32
  | none, y => (y, g)
  | x, none => (x, g)
  | some x, some y => (some (f g x y), if steps then stepRng g else g)

/-- One level of the tree, in increasing j. -/
def treeLevel (steps : Bool) (f : W32 → W32 → W32 → W32) : W32 → List (Option W32) → List (Option W32) × W32
  | g, x :: y :: r =>
    let (v, g) := combine steps f g x y
    let (vs, g) := treeLevel steps f g r
    (v :: vs, g)
  | g, r => (r, g)

def treeReduce (steps : Bool) (f : W32 → W32 → W32 → W32) : Nat → W32 → List (Option W32) → List (Option W32) × W32
  | 0, g, r => (r, g)
  | k + 1, g, r =>
    let (r, g) := treeLevel steps f g r
    treeReduce steps f k g r

def redIdentity (op : RedOp) (t : LaneTy) : W32 :=
  match op, t with
  | .add, _ => 0
  | .min, .f32 => 0x7F800000
  | .min, .i32 => 0x7FFFFFFF
  | .min, .n32 => 0xFFFFFFFF
  | .max, .f32 => 0xFF800000
  | .max, .i32 => 0x80000000
  | .max, .n32 => 0

/-- VRED: the fixed tree over 64 lanes; the result is pushed. -/
def execVred (t : LaneTy) (op : RedOp) (o : VOp) (s : State) : Out :=
  let active := s.me.regs.lanes o.mask
  let ptrs := if o.asel then [o.pa] else []
  let f (g x y : W32) : W32 :=
    match op with
    | .add => laneAdd t (ctlRnd o.ctl) (ctlFtz o.ctl) g x y
    | .min => laneMinMax false t x y
    | .max => laneMinMax true t x y
  .next
    (s.vecGuard (laneElem t) active ptrs fun s =>
      let (as, s) := s.vecSrc (laneElem t) o.asel o.pa active
      let leaves := (List.range 64).map fun l => if active.contains l then some (laneOf as l) else none
      let (r, g) := treeReduce (ctlRnd o.ctl == .rsr) f 6 s.me.regs.rng leaves
      let v := ((r.getD 0 none).getD (redIdentity op t))
      (s.upd fun th =>
        let th := th.result .wet (extend 32 (t == .i32) v.toNat)
        { th with regs := { th.regs with rng := g } }).vecDone ptrs)

/-! ### Moving and converting (R142) -/

/-- An element widened exactly into a 32-bit lane. -/
def widen (t : ElemTy) (c : Nat) : W32 :=
  match t with
  | .i8 => BitVec.ofInt 32 (signedOf 8 c)
  | .i16 => BitVec.ofInt 32 (signedOf 16 c)
  | .n8 | .n16 | .i32 | .n32 | .f32 => BitVec.ofNat 32 c
  | _ => BitVec.ofNat 32 (roundTo (decodeElem t c) .f32 .rne false 0)

/-- VLA. -/
def execVla (t : ElemTy) (m : Fin 4) (pa : Fin 8) (_ctl : BitVec 5) (s : State) : Out :=
  let active := s.me.regs.lanes m
  .next
    (s.vecGuard t active [pa] fun s =>
      let b := ptrBase s.me.regs.p[pa]
      let (vs, s) := s.lanesLoad (b.toNat / 2 ^ 28) t b active
      (s.updRegs fun r => { r with acc := accSet r.acc (vs.map fun (l, v) => (l, widen t v)) }).vecDone [pa])

/-- A lane as VSA and VCVT read it: .i32, .n32, or .f32 with .ftz (R103). -/
def laneAs (t : LaneTy) (ftz : Bool) (x : W32) : XVal :=
  match t with
  | .f32 => laneVal ftz .f32 x
  | .i32 | .n32 => XVal.ofInt (laneInt t x)

/-- The lane type that VSA reads for an element type. -/
def vsaLane : ElemTy → LaneTy
  | .i8 | .i16 | .i32 | .i64 => .i32
  | .n8 | .n16 | .n32 | .n64 => .n32
  | _ => .f32

/-- One rounding to an element type under the modifiers. -/
def narrow (t : ElemTy) (ctl : BitVec 5) (g : W32) (x : XVal) : Nat :=
  roundFtz (ctlFtz ctl) x t (ctlRnd ctl) (ctlNan ctl) (rngDraw g)

/-- VSA. -/
def execVsa (t : ElemTy) (m : Fin 4) (pd : Fin 8) (ctl : BitVec 5) (s : State) : Out :=
  let active := s.me.regs.lanes m
  let acc := s.me.regs.acc
  .next
    (s.vecGuard t active [pd] fun s =>
      let (vs, g) := laneFold (ctlRnd ctl == .rsr)
        (fun g l => BitVec.ofNat 32 (narrow t ctl g (laneAs (vsaLane t) (ctlFtz ctl) (acc.toArray.getD l 0))))
        s.me.regs.rng active
      ((s.vecDst t true pd vs).updRegs fun r => { r with rng := g }).vecDone [pd])

/-- A rounded value back in 32-bit form. -/
def lane32 (t : ElemTy) (c : Nat) : W32 :=
  match vsaLane t with
  | .i32 => BitVec.ofInt 32 (signedOf (elemBits t) c)
  | .n32 => BitVec.ofNat 32 c
  | .f32 => BitVec.ofNat 32 (roundTo (decodeElem t c) .f32 .rne false 0)

def cvtLane (src : BitVec 2) : LaneTy :=
  match src.toNat with
  | 0 => .f32
  | 1 => .i32
  | _ => .n32

/-- VCVT: each active lane of acc rounded once to the type and stored back in 32-bit form. -/
def execVcvt (t : ElemTy) (m : Fin 4) (src : BitVec 2) (ctl : BitVec 5) (s : State) : Out :=
  let active := s.me.regs.lanes m
  let acc := s.me.regs.acc
  let (vs, g) := laneFold (ctlRnd ctl == .rsr)
    (fun g l => lane32 t (narrow t ctl g (laneAs (cvtLane src) (ctlFtz ctl) (acc.toArray.getD l 0)))) s.me.regs.rng active
  .next ((s.updRegs fun r => { r with acc := accSet r.acc vs, rng := g }).done 12)

/-! ### Gather and scatter (R148): one active lane at a time, from `sr.pix` -/

/-- The next active lane at or above the progress index, and whether others follow. -/
def State.nextLane (s : State) (m : Fin 4) : Option (Nat × Bool) :=
  match (s.me.regs.lanes m).filter (fun l => s.me.regs.pix.toNat ≤ l) with
  | [] => none
  | l :: ls => some (l, ls.isEmpty)

/-- The address that an index names: base + 4 * idx modulo 2^32. -/
def State.indexed (s : State) (p pb : Fin 8) (l : Nat) : W32 × State :=
  let b := ptrBase s.me.regs.p[pb]
  let (i, s) := s.laneLoad (b.toNat / 2 ^ 28) .i32 b l
  (ptrBase s.me.regs.p[p] + 4 * BitVec.ofNat 32 i, s)

/-- The checks before the first lane: both bases, and the index operand whole (R138, R148). -/
def State.longCheck (s : State) (m : Fin 4) (p pb : Fin 8) (wordsFirst : Bool) : Option (Nat × Word) :=
  let words := checkAll s.curCore .i32 s.me.regs.p [] [p]
  let index := checkAll s.curCore .i32 s.me.regs.p (s.me.regs.lanes m) [pb]
  if wordsFirst then words.or index else index.or words

/-- VGATH and VSCAT: the bases and the index operand are checked whole, each lane's address when the lane is processed. `f`
moves one word between a checked address and a lane. A lane reads its index when it is processed.
(log 145, DESIGN CHOICE) -/
def State.longStep (s : State) (m : Fin 4) (p pb : Fin 8) (wordsFirst : Bool) (f : State → Nat → W32 → Nat → State) :
    State :=
  let ptrs := [p, pb]
  match s.longCheck m p pb wordsFirst with
  | some (c, d) => s.raise c d
  | none =>
    match s.nextLane m with
    | none => s.vecDone ptrs
    | some (l, last) =>
      let (a, s1) := s.indexed p pb l
      match checkVec s.curCore .i32 a [0] with
      | .error (c, d) => (s.updRegs fun r => { r with pix := BitVec.ofNat 32 l }).raise c d
      | .ok sp =>
        let s := f s1 sp a l
        if last then s.vecDone ptrs else s.updRegs fun r => { r with pix := BitVec.ofNat 32 (l + 1) }

/-- VGATH. -/
def execVgath (_t : LaneTy) (m : Fin 4) (pa pb : Fin 8) (_ctl : BitVec 5) (s : State) : Out :=
  .next
    (s.longStep m pa pb true fun s sp a l =>
      let (v, s) := s.laneLoad sp .i32 a 0
      s.updRegs fun r => { r with acc := accSet r.acc [(l, BitVec.ofNat 32 v)] })

/-- VSCAT: where two lanes name one address, the higher lane's value remains. -/
def execVscat (_t : LaneTy) (m : Fin 4) (pb pd : Fin 8) (_ctl : BitVec 5) (s : State) : Out :=
  .next (s.longStep m pd pb false fun s sp a l => s.laneStore sp .i32 a 0 (s.me.regs.acc.toArray.getD l 0).toNat)

/-! ### Pointers (R149) -/

/-- PSET. -/
def execPset (pd : Fin 8) (base : W32) (stride : BitVec 16) (wet : Bool) (s : State) : Out :=
  let b := if wet then s.w0.setWidth 32 + base else base
  let v : Word := (0 : BitVec 16) ++ stride ++ b
  .next ((s.updRegs fun r => { r with p := r.p.set pd v }).done 12)
/-- PADV. -/
def execPadv (pd : Fin 8) (v : W32) (s : State) : Out :=
  .next ((s.updRegs fun r => { r with p := r.p.set pd (r.p[pd].extractLsb' 32 32 ++ (r.p[pd].setWidth 32 + v)) }).done 12)
/-- PGET. -/
def execPget (pa : Fin 8) (s : State) : Out := .next (s.finish .wet s.me.regs.p[pa] 12)

/-! ### Bit-granular access (R150-R153) -/

/-- BASET. -/
def execBaset (bytes : W32) (bit : BitVec 3) (wet : Bool) (s : State) : Out :=
  let v := bytes.toNat * 8 + bit.toNat + if wet then s.w0.toNat % 2 ^ 35 else 0
  .next ((s.updRegs fun r => { r with ba := BitVec.ofNat 35 v }).done 12)

/-- The field from `ba` leaves space 0 (R151). -/
def bitsOutside (core ba width : Nat) : Bool := 8 * padSize core < ba + width

/-- The 8-byte word at `a`, for a field whose first byte there is `first` (R152, R248). -/
def State.fieldLoad (s : State) (a first : Nat) : Nat × State :=
  if (s.core s.curCore).guarded a then (0, s.touch s.cur false first) else s.padLoad s.cur s.curCore a 8

/-- LDB: the 8-byte words that hold the field are read, one bank after the other (R152). -/
def execLdb (width : BitVec 6) (sgn : Bool) (s : State) : Out :=
  let ba := s.me.regs.ba.toNat
  let w := width.toNat
  .next
    (if bitsOutside s.curCore ba w then s.raise 0x09 (BitVec.ofNat 64 ba)
    else
      let a := ba / 64 * 8
      let (lo, s) := s.fieldLoad a (ba / 8)
      let (hi, s) := if 64 < ba % 64 + w then s.fieldLoad (a + 8) (a + 8) else (0, s)
      let v := (lo + hi * 2 ^ 64) / 2 ^ (ba % 64) % 2 ^ w
      (s.upd fun t =>
        let t := t.result .wet (extend w sgn v)
        { t with regs := { t.regs with ba := t.regs.ba + BitVec.ofNat 35 w } }).done 12)

/-- STB's update of the word at `a`, whose first touched byte is `first`. -/
def State.fieldStore (s : State) (a first mask v : Nat) : State :=
  if (s.core s.curCore).guarded a then s.touch s.cur true first
  else s.padStore s.cur s.curCore a 8 (maskIn (s.mem.readNat 8 (padKey s.curCore a)) mask v)

/-- STB: each 8-byte word touched is updated as one read-modify-write; the update of a straddling field's second word is
an access in flight of its own, so that another thread may find one word new and the other old (R153). -/
def execStb (width : BitVec 6) (s : State) : Out :=
  let ba := s.me.regs.ba.toNat
  let w := width.toNat
  .next
    (if bitsOutside s.curCore ba w then s.raise 0x09 (BitVec.ofNat 64 ba)
    else
      let a := ba / 64 * 8
      let mask := (2 ^ w - 1) * 2 ^ (ba % 64)
      let v := s.w0.toNat % 2 ^ w * 2 ^ (ba % 64)
      let s := s.fieldStore a (ba / 8) (mask % 2 ^ 64) (v % 2 ^ 64)
      let s := if 64 < ba % 64 + w then
          let (id, s) := s.fresh
          s.requestOwn (s.newReq id (.bits (mask / 2 ^ 64) (v / 2 ^ 64)) none (a + 8) 8 .thr false false 0)
        else s
      (s.updRegs fun r => { r with ba := r.ba + BitVec.ofNat 35 w }).done 12)

end Sys2Proof.Machine
end

