-- ==== Sys2Proof/Machine/Dispatch.lean ====
section
/-!
DEFINITION. The dispatcher: one arm per row of the opcode table, each one direct call of that row's meaning.
-/
namespace Sys2Proof.Machine

def exec (i : Instr) (s : State) : Host.Outcome State Fault Refusal :=
  match i with
  | .add a0 a1 => Sys2Proof.Machine.execAdd a0 a1 s
  | .addi a0 a1 => Sys2Proof.Machine.execAddi a0 a1 s
  | .sub a0 a1 => Sys2Proof.Machine.execSub a0 a1 s
  | .neg a0 a1 => Sys2Proof.Machine.execNeg a0 a1 s
  | .mul a0 a1 => Sys2Proof.Machine.execMul a0 a1 s
  | .and a0 a1 => Sys2Proof.Machine.execAnd a0 a1 s
  | .or a0 a1 => Sys2Proof.Machine.execOr a0 a1 s
  | .xor a0 a1 => Sys2Proof.Machine.execXor a0 a1 s
  | .andn a0 a1 => Sys2Proof.Machine.execAndn a0 a1 s
  | .not a0 a1 => Sys2Proof.Machine.execNot a0 a1 s
  | .shl a0 a1 => Sys2Proof.Machine.execShl a0 a1 s
  | .shr a0 a1 => Sys2Proof.Machine.execShr a0 a1 s
  | .rotl a0 a1 => Sys2Proof.Machine.execRotl a0 a1 s
  | .clz a0 a1 => Sys2Proof.Machine.execClz a0 a1 s
  | .ctz a0 a1 => Sys2Proof.Machine.execCtz a0 a1 s
  | .popc a0 a1 => Sys2Proof.Machine.execPopc a0 a1 s
  | .seq a0 a1 => Sys2Proof.Machine.execSeq a0 a1 s
  | .sel a0 a1 => Sys2Proof.Machine.execSel a0 a1 s
  | .bfx a0 a1 => Sys2Proof.Machine.execBfx a0 a1 s
  | .bfi a0 a1 => Sys2Proof.Machine.execBfi a0 a1 s
  | .mulh a0 a1 => Sys2Proof.Machine.execMulh a0 a1 s
  | .div a0 a1 => Sys2Proof.Machine.execDiv a0 a1 s
  | .rem a0 a1 => Sys2Proof.Machine.execRem a0 a1 s
  | .min a0 a1 => Sys2Proof.Machine.execMin a0 a1 s
  | .max a0 a1 => Sys2Proof.Machine.execMax a0 a1 s
  | .slt a0 a1 => Sys2Proof.Machine.execSlt a0 a1 s
  | .shra a0 a1 => Sys2Proof.Machine.execShra a0 a1 s
  | .sext a0 a1 => Sys2Proof.Machine.execSext a0 a1 s
  | .mulhn a0 a1 => Sys2Proof.Machine.execMulhn a0 a1 s
  | .divn a0 a1 => Sys2Proof.Machine.execDivn a0 a1 s
  | .remn a0 a1 => Sys2Proof.Machine.execRemn a0 a1 s
  | .minn a0 a1 => Sys2Proof.Machine.execMinn a0 a1 s
  | .maxn a0 a1 => Sys2Proof.Machine.execMaxn a0 a1 s
  | .sltn a0 a1 => Sys2Proof.Machine.execSltn a0 a1 s
  | .zext a0 a1 => Sys2Proof.Machine.execZext a0 a1 s
  | .li a0 a1 => Sys2Proof.Machine.execLi a0 a1 s
  | .lih a0 a1 a2 => Sys2Proof.Machine.execLih a0 a1 a2 s
  | .movk a0 a1 => Sys2Proof.Machine.execMovk a0 a1 s
  | .movg a0 a1 a2 => Sys2Proof.Machine.execMovg a0 a1 a2 s
  | .movm a0 a1 a2 => Sys2Proof.Machine.execMovm a0 a1 a2 s
  | .br a0 a1 a2 a3 => Sys2Proof.Machine.execBr a0 a1 a2 a3 s
  | .j a0 => Sys2Proof.Machine.execJ a0 s
  | .jl a0 a1 => Sys2Proof.Machine.execJl a0 a1 s
  | .jr a0 a1 => Sys2Proof.Machine.execJr a0 a1 s
  | .ret a0 a1 => Sys2Proof.Machine.execRet a0 a1 s
  | .loop a0 a1 a2 => Sys2Proof.Machine.execLoop a0 a1 a2 s
  | .rep a0 a1 a2 => Sys2Proof.Machine.execRep a0 a1 a2 s
  | .fadd a0 a1 a2 a3 => Sys2Proof.Machine.execFadd a0 a1 a2 a3 s
  | .fsub a0 a1 a2 a3 => Sys2Proof.Machine.execFsub a0 a1 a2 a3 s
  | .fmul a0 a1 a2 a3 => Sys2Proof.Machine.execFmul a0 a1 a2 a3 s
  | .ffma a0 a1 a2 a3 => Sys2Proof.Machine.execFfma a0 a1 a2 a3 s
  | .fdiv a0 a1 a2 => Sys2Proof.Machine.execFdiv a0 a1 a2 s
  | .fsqrt a0 a1 a2 => Sys2Proof.Machine.execFsqrt a0 a1 a2 s
  | .fexp2 a0 a1 a2 => Sys2Proof.Machine.execFexp2 a0 a1 a2 s
  | .flog2 a0 a1 a2 => Sys2Proof.Machine.execFlog2 a0 a1 a2 s
  | .frsq a0 a1 a2 => Sys2Proof.Machine.execFrsq a0 a1 a2 s
  | .fmin a0 a1 a2 => Sys2Proof.Machine.execFmin a0 a1 a2 s
  | .fmax a0 a1 a2 => Sys2Proof.Machine.execFmax a0 a1 a2 s
  | .fabs a0 a1 a2 => Sys2Proof.Machine.execFabs a0 a1 a2 s
  | .fneg a0 a1 a2 => Sys2Proof.Machine.execFneg a0 a1 a2 s
  | .fcmp a0 a1 a2 a3 => Sys2Proof.Machine.execFcmp a0 a1 a2 a3 s
  | .fcvt a0 a1 a2 a3 a4 a5 => Sys2Proof.Machine.execFcvt a0 a1 a2 a3 a4 a5 s
  | .ld a0 a1 a2 a3 a4 a5 => Sys2Proof.Machine.execLd a0 a1 a2 a3 a4 a5 s
  | .st a0 a1 a2 a3 a4 a5 => Sys2Proof.Machine.execSt a0 a1 a2 a3 a4 a5 s
  | .ldaq a0 a1 a2 a3 a4 a5 => Sys2Proof.Machine.execLdaq a0 a1 a2 a3 a4 a5 s
  | .strl a0 a1 a2 a3 a4 => Sys2Proof.Machine.execStrl a0 a1 a2 a3 a4 s
  | .ldp a0 a1 a2 a3 a4 a5 => Sys2Proof.Machine.execLdp a0 a1 a2 a3 a4 a5 s
  | .stp a0 a1 a2 a3 a4 a5 => Sys2Proof.Machine.execStp a0 a1 a2 a3 a4 a5 s
  | .amo a0 a1 a2 a3 a4 a5 a6 => Sys2Proof.Machine.execAmo a0 a1 a2 a3 a4 a5 a6 s
  | .cas a0 a1 a2 a3 a4 a5 => Sys2Proof.Machine.execCas a0 a1 a2 a3 a4 a5 s
  | .fence a0 a1 a2 => Sys2Proof.Machine.execFence a0 a1 a2 s
  | .waitc a0 a1 a2 a3 => Sys2Proof.Machine.execWaitc a0 a1 a2 a3 s
  | .waitcn a0 a1 => Sys2Proof.Machine.execWaitcn a0 a1 s
  | .cnset a0 a1 a2 a3 => Sys2Proof.Machine.execCnset a0 a1 a2 a3 s
  | .cnget a0 a1 => Sys2Proof.Machine.execCnget a0 a1 s
  | .galloc a0 a1 a2 => Sys2Proof.Machine.execGalloc a0 a1 a2 s
  | .gfree a0 => Sys2Proof.Machine.execGfree a0 s
  | .send a0 a1 a2 a3 a4 => Sys2Proof.Machine.execSend a0 a1 a2 a3 a4 s
  | .exit a0 => Sys2Proof.Machine.execExit a0 s
  | .yield a0 => Sys2Proof.Machine.execYield a0 s
  | .park a0 a1 => Sys2Proof.Machine.execPark a0 a1 s
  | .wake a0 => Sys2Proof.Machine.execWake a0 s
  | .launch a0 a1 => Sys2Proof.Machine.execLaunch a0 a1 s
  | .launchW a0 a1 => Sys2Proof.Machine.execLaunchW a0 a1 s
  | .graphCreate a0 a1 => Sys2Proof.Machine.execGraphCreate a0 a1 s
  | .graphClose a0 a1 => Sys2Proof.Machine.execGraphClose a0 a1 s
  | .phaseCreate a0 a1 => Sys2Proof.Machine.execPhaseCreate a0 a1 s
  | .phaseClose a0 a1 => Sys2Proof.Machine.execPhaseClose a0 a1 s
  | .jobClose a0 a1 => Sys2Proof.Machine.execJobClose a0 a1 s
  | .cancel a0 a1 a2 => Sys2Proof.Machine.execCancel a0 a1 a2 s
  | .lvwait a0 a1 a2 => Sys2Proof.Machine.execLvwait a0 a1 a2 s
  | .lvread a0 a1 a2 a3 => Sys2Proof.Machine.execLvread a0 a1 a2 a3 s
  | .fuse a0 a1 => Sys2Proof.Machine.execFuse a0 a1 s
  | .split => Sys2Proof.Machine.execSplit s
  | .laneid a0 => Sys2Proof.Machine.execLaneid a0 s
  | .coord a0 a1 => Sys2Proof.Machine.execCoord a0 a1 s
  | .spillq a0 a1 => Sys2Proof.Machine.execSpillq a0 a1 s
  | .jobset a0 a1 a2 => Sys2Proof.Machine.execJobset a0 a1 a2 s
  | .stageCreate a0 a1 => Sys2Proof.Machine.execStageCreate a0 a1 s
  | .stageClose a0 a1 => Sys2Proof.Machine.execStageClose a0 a1 s
  | .stageThresh a0 a1 a2 => Sys2Proof.Machine.execStageThresh a0 a1 a2 s
  | .keysend a0 a1 a2 => Sys2Proof.Machine.execKeysend a0 a1 a2 s
  | .splitok a0 a1 a2 => Sys2Proof.Machine.execSplitok a0 a1 a2 s
  | .mergeok => Sys2Proof.Machine.execMergeok s
  | .krtread a0 a1 a2 => Sys2Proof.Machine.execKrtread a0 a1 a2 s
  | .qdep a0 a1 => Sys2Proof.Machine.execQdep a0 a1 s
  | .tev a0 a1 => Sys2Proof.Machine.execTev a0 a1 s
  | .tevx a0 a1 a2 a3 => Sys2Proof.Machine.execTevx a0 a1 a2 a3 s
  | .tsread a0 => Sys2Proof.Machine.execTsread a0 s
  | .tmark a0 a1 => Sys2Proof.Machine.execTmark a0 a1 s
  | .trap a0 => Sys2Proof.Machine.execTrap a0 s
  | .eret => Sys2Proof.Machine.execEret s
  | .rqread a0 a1 a2 => Sys2Proof.Machine.execRqread a0 a1 a2 s
  | .rqwrite a0 a1 a2 => Sys2Proof.Machine.execRqwrite a0 a1 a2 s
  | .srr a0 a1 => Sys2Proof.Machine.execSrr a0 a1 s
  | .srw a0 a1 => Sys2Proof.Machine.execSrw a0 a1 s
  | .srwTsink a0 => Sys2Proof.Machine.execSrwTsink a0 s
  | .ckpt a0 a1 => Sys2Proof.Machine.execCkpt a0 a1 s
  | .rback a0 a1 => Sys2Proof.Machine.execRback a0 a1 s
  | .kill a0 => Sys2Proof.Machine.execKill a0 s
  | .nop => Sys2Proof.Machine.execNop s
  | .fill => Sys2Proof.Machine.execFill s
  | .brk a0 => Sys2Proof.Machine.execBrk a0 s
  | .halt => Sys2Proof.Machine.execHalt s
  | .vla a0 a1 a2 a3 => Sys2Proof.Machine.execVla a0 a1 a2 a3 s
  | .vsa a0 a1 a2 a3 => Sys2Proof.Machine.execVsa a0 a1 a2 a3 s
  | .vcvt a0 a1 a2 a3 => Sys2Proof.Machine.execVcvt a0 a1 a2 a3 s
  | .vadd a0 a1 => Sys2Proof.Machine.execVadd a0 a1 s
  | .vsub a0 a1 => Sys2Proof.Machine.execVsub a0 a1 s
  | .vmul a0 a1 => Sys2Proof.Machine.execVmul a0 a1 s
  | .vmin a0 a1 => Sys2Proof.Machine.execVmin a0 a1 s
  | .vmax a0 a1 => Sys2Proof.Machine.execVmax a0 a1 s
  | .vred a0 a1 a2 => Sys2Proof.Machine.execVred a0 a1 a2 s
  | .vcmp a0 a1 a2 a3 => Sys2Proof.Machine.execVcmp a0 a1 a2 a3 s
  | .vbcast a0 a1 => Sys2Proof.Machine.execVbcast a0 a1 s
  | .vscl a0 a1 => Sys2Proof.Machine.execVscl a0 a1 s
  | .vsel a0 a1 a2 => Sys2Proof.Machine.execVsel a0 a1 a2 s
  | .vidx a0 a1 a2 a3 a4 a5 a6 => Sys2Proof.Machine.execVidx a0 a1 a2 a3 a4 a5 a6 s
  | .vperm a0 a1 => Sys2Proof.Machine.execVperm a0 a1 s
  | .vgath a0 a1 a2 a3 a4 => Sys2Proof.Machine.execVgath a0 a1 a2 a3 a4 s
  | .vscat a0 a1 a2 a3 a4 => Sys2Proof.Machine.execVscat a0 a1 a2 a3 a4 s
  | .vabs a0 a1 => Sys2Proof.Machine.execVabs a0 a1 s
  | .vand a0 a1 => Sys2Proof.Machine.execVand a0 a1 s
  | .vor a0 a1 => Sys2Proof.Machine.execVor a0 a1 s
  | .vxor a0 a1 => Sys2Proof.Machine.execVxor a0 a1 s
  | .vshl a0 a1 => Sys2Proof.Machine.execVshl a0 a1 s
  | .vshr a0 a1 => Sys2Proof.Machine.execVshr a0 a1 s
  | .vfma a0 => Sys2Proof.Machine.execVfma a0 s
  | .vexp2 a0 => Sys2Proof.Machine.execVexp2 a0 s
  | .vrsq a0 => Sys2Proof.Machine.execVrsq a0 s
  | .vrcp a0 => Sys2Proof.Machine.execVrcp a0 s
  | .pset a0 a1 a2 a3 => Sys2Proof.Machine.execPset a0 a1 a2 a3 s
  | .padv a0 a1 => Sys2Proof.Machine.execPadv a0 a1 s
  | .pget a0 => Sys2Proof.Machine.execPget a0 s
  | .baset a0 a1 a2 => Sys2Proof.Machine.execBaset a0 a1 a2 s
  | .ldb a0 a1 => Sys2Proof.Machine.execLdb a0 a1 s
  | .stb a0 => Sys2Proof.Machine.execStb a0 s
  | .chain a0 a1 a2 a3 => Sys2Proof.Machine.execChain a0 a1 a2 a3 s
  | .chainResume a0 => Sys2Proof.Machine.execChainResume a0 s
  | .cstat a0 a1 => Sys2Proof.Machine.execCstat a0 a1 s
  | .hcfg a0 a1 => Sys2Proof.Machine.execHcfg a0 a1 s
  | .hcfgRearm a0 => Sys2Proof.Machine.execHcfgRearm a0 s
  | .hacq a0 a1 => Sys2Proof.Machine.execHacq a0 a1 s
  | .hrel a0 a1 => Sys2Proof.Machine.execHrel a0 a1 s
  | .hstate a0 => Sys2Proof.Machine.execHstate a0 s
  | .rpost a0 a1 => Sys2Proof.Machine.execRpost a0 a1 s
  | .rtake a0 => Sys2Proof.Machine.execRtake a0 s
  | .barr a0 a1 => Sys2Proof.Machine.execBarr a0 a1 s
  | .bexp a0 a1 => Sys2Proof.Machine.execBexp a0 a1 s
  | .btest a0 => Sys2Proof.Machine.execBtest a0 s
  | .bwait a0 => Sys2Proof.Machine.execBwait a0 s
  | .mlease a0 => Sys2Proof.Machine.execMlease a0 s
  | .mrel => Sys2Proof.Machine.execMrel s
  | .mjob a0 a1 a2 => Sys2Proof.Machine.execMjob a0 a1 a2 s
  | .mmask a0 => Sys2Proof.Machine.execMmask a0 s
  | .mprec a0 => Sys2Proof.Machine.execMprec a0 s
  | .mzero a0 => Sys2Proof.Machine.execMzero a0 s
  | .mmul a0 a1 a2 => Sys2Proof.Machine.execMmul a0 a1 a2 s
  | .mmulb a0 a1 => Sys2Proof.Machine.execMmulb a0 a1 s
  | .msca a0 a1 => Sys2Proof.Machine.execMsca a0 a1 s
  | .msendt a0 => Sys2Proof.Machine.execMsendt a0 s
  | .mrecvt a0 => Sys2Proof.Machine.execMrecvt a0 s
  | .mmove a0 a1 a2 a3 => Sys2Proof.Machine.execMmove a0 a1 a2 a3 s
  | .mload a0 a1 a2 a3 => Sys2Proof.Machine.execMload a0 a1 a2 a3 s
  | .mtest a0 a1 a2 => Sys2Proof.Machine.execMtest a0 a1 a2 s
  | .mstat a0 a1 => Sys2Proof.Machine.execMstat a0 a1 s
  | .e8cvt a0 => Sys2Proof.Machine.execE8cvt a0 s
  | .map a0 a1 a2 a3 a4 a5 a6 a7 => Sys2Proof.Machine.execMap a0 a1 a2 a3 a4 a5 a6 a7 s
  | .grant a0 a1 a2 a3 a4 a5 a6 a7 => Sys2Proof.Machine.execGrant a0 a1 a2 a3 a4 a5 a6 a7 s
  | .unmap a0 a1 a2 => Sys2Proof.Machine.execUnmap a0 a1 a2 s
  | .unmapAsync a0 a1 a2 a3 a4 => Sys2Proof.Machine.execUnmapAsync a0 a1 a2 a3 a4 s
  | .acceptOpen a0 a1 a2 a3 a4 a5 a6 a7 a8 => Sys2Proof.Machine.execAcceptOpen a0 a1 a2 a3 a4 a5 a6 a7 a8 s
  | .acceptClose a0 a1 a2 => Sys2Proof.Machine.execAcceptClose a0 a1 a2 s
  | .mquery a0 a1 a2 => Sys2Proof.Machine.execMquery a0 a1 a2 s
  | .xflush a0 a1 a2 => Sys2Proof.Machine.execXflush a0 a1 a2 s
  | .xld a0 a1 a2 a3 => Sys2Proof.Machine.execXld a0 a1 a2 a3 s
  | .xst a0 a1 a2 a3 => Sys2Proof.Machine.execXst a0 a1 a2 a3 s
  | .xburst a0 a1 a2 a3 a4 a5 => Sys2Proof.Machine.execXburst a0 a1 a2 a3 a4 a5 s
  | .planew a0 a1 a2 => Sys2Proof.Machine.execPlanew a0 a1 a2 s
  | .mbox a0 a1 a2 => Sys2Proof.Machine.execMbox a0 a1 a2 s
  | .crec a0 a1 a2 a3 => Sys2Proof.Machine.execCrec a0 a1 a2 a3 s
  | .sendx a0 a1 a2 a3 a4 a5 a6 a7 => Sys2Proof.Machine.execSendx a0 a1 a2 a3 a4 a5 a6 a7 s
  | .reservedInstruction a0 a1 a2 => Sys2Proof.Machine.execReservedInstruction a0 a1 a2 s
  | .messageArrival a0 => Sys2Proof.Machine.execMessageArrival a0 s
  | .coreBind a0 => Sys2Proof.Machine.execCoreBind a0 s
  | .sendBufferRetry a0 => Sys2Proof.Machine.execSendBufferRetry a0 s
  | .launchAdmission a0 => Sys2Proof.Machine.execLaunchAdmission a0 s
  | .batchDeal a0 a1 => Sys2Proof.Machine.execBatchDeal a0 a1 s
  | .unitDispatch a0 => Sys2Proof.Machine.execUnitDispatch a0 s
  | .dispatchRetry a0 => Sys2Proof.Machine.execDispatchRetry a0 s
  | .allowanceRefill => Sys2Proof.Machine.execAllowanceRefill s
  | .masterElection a0 => Sys2Proof.Machine.execMasterElection a0 s
  | .arrayGrant a0 => Sys2Proof.Machine.execArrayGrant a0 s
  | .arrayBind a0 => Sys2Proof.Machine.execArrayBind a0 s
  | .arrayCommandComplete a0 => Sys2Proof.Machine.execArrayCommandComplete a0 s
  | .leaseTimeout a0 => Sys2Proof.Machine.execLeaseTimeout a0 s
  | .gateTimeout a0 => Sys2Proof.Machine.execGateTimeout a0 s
  | .gateOpen a0 a1 => Sys2Proof.Machine.execGateOpen a0 a1 s
  | .jobStopped a0 a1 => Sys2Proof.Machine.execJobStopped a0 a1 s
  | .tileArrival a0 => Sys2Proof.Machine.execTileArrival a0 s
  | .tileDiscard a0 => Sys2Proof.Machine.execTileDiscard a0 s
  | .arraySelfTest a0 a1 => Sys2Proof.Machine.execArraySelfTest a0 a1 s
  | .chainStart a0 a1 => Sys2Proof.Machine.execChainStart a0 a1 s
  | .copyPiece a0 a1 a2 => Sys2Proof.Machine.execCopyPiece a0 a1 a2 s
  | .recordComplete a0 a1 => Sys2Proof.Machine.execRecordComplete a0 a1 s
  | .channelStop a0 a1 => Sys2Proof.Machine.execChannelStop a0 a1 s
  | .barrierPhase a0 => Sys2Proof.Machine.execBarrierPhase a0 s
  | .barrierAggregate a0 => Sys2Proof.Machine.execBarrierAggregate a0 s
  | .barrierCompletionMsg a0 => Sys2Proof.Machine.execBarrierCompletionMsg a0 s
  | .ldaqReload a0 => Sys2Proof.Machine.execLdaqReload a0 s
  | .parkTimeout a0 => Sys2Proof.Machine.execParkTimeout a0 s
  | .yieldReturn a0 => Sys2Proof.Machine.execYieldReturn a0 s
  | .wakeArrival a0 => Sys2Proof.Machine.execWakeArrival a0 s
  | .ldpArrival a0 => Sys2Proof.Machine.execLdpArrival a0 s
  | .farAccessTranslate a0 => Sys2Proof.Machine.execFarAccessTranslate a0 s
  | .farAccessAck a0 a1 => Sys2Proof.Machine.execFarAccessAck a0 a1 s
  | .derive a0 => Sys2Proof.Machine.execDerive a0 s
  | .unmapEffect a0 => Sys2Proof.Machine.execUnmapEffect a0 s
  | .deadMarks a0 => Sys2Proof.Machine.execDeadMarks a0 s
  | .invalidationRound a0 => Sys2Proof.Machine.execInvalidationRound a0 s
  | .invalidationAck a0 => Sys2Proof.Machine.execInvalidationAck a0 s
  | .pinCancel a0 a1 => Sys2Proof.Machine.execPinCancel a0 a1 s
  | .migrationHandover a0 a1 => Sys2Proof.Machine.execMigrationHandover a0 a1 s
  | .slateAdmitHeld a0 => Sys2Proof.Machine.execSlateAdmitHeld a0 s
  | .traceDrain a0 a1 => Sys2Proof.Machine.execTraceDrain a0 a1 s
  | .traceDrainRetry a0 a1 => Sys2Proof.Machine.execTraceDrainRetry a0 a1 s
  | .ptpSync a0 a1 => Sys2Proof.Machine.execPtpSync a0 a1 s
  | .timebaseHoldover => Sys2Proof.Machine.execTimebaseHoldover s
  | .stageOverload a0 a1 a2 => Sys2Proof.Machine.execStageOverload a0 a1 a2 s
  | .stageTableApply a0 a1 a2 => Sys2Proof.Machine.execStageTableApply a0 a1 a2 s
  | .interfaceAck a0 a1 a2 => Sys2Proof.Machine.execInterfaceAck a0 a1 a2 s
  | .endMarker a0 => Sys2Proof.Machine.execEndMarker a0 s
  | .stageUnderload a0 a1 a2 => Sys2Proof.Machine.execStageUnderload a0 a1 a2 s
  | .mergeStart a0 a1 a2 => Sys2Proof.Machine.execMergeStart a0 a1 a2 s
  | .trapEntry a0 => Sys2Proof.Machine.execTrapEntry a0 s
  | .gangFollowerFault a0 => Sys2Proof.Machine.execGangFollowerFault a0 s
  | .watchdogExpiry a0 => Sys2Proof.Machine.execWatchdogExpiry a0 s
  | .killSweep a0 => Sys2Proof.Machine.execKillSweep a0 s
  | .killConfirm a0 => Sys2Proof.Machine.execKillConfirm a0 s
  | .killComplete a0 => Sys2Proof.Machine.execKillComplete a0 s
  | .dieFence a0 => Sys2Proof.Machine.execDieFence a0 s
  | .uncorrectableError a0 => Sys2Proof.Machine.execUncorrectableError a0 s
  | .heartbeatLoss a0 => Sys2Proof.Machine.execHeartbeatLoss a0 s
  | .thermalTrip a0 => Sys2Proof.Machine.execThermalTrip a0 s
  | .serviceFailover a0 => Sys2Proof.Machine.execServiceFailover a0 s
  | .meterWindow a0 => Sys2Proof.Machine.execMeterWindow a0 s
  | .egressBeat a0 => Sys2Proof.Machine.execEgressBeat a0 s
  | .scrollAppend => Sys2Proof.Machine.execScrollAppend s
  | .stagingDrain => Sys2Proof.Machine.execStagingDrain s
  | .keyLoad a0 a1 => Sys2Proof.Machine.execKeyLoad a0 a1 s
  | .keyUpdate a0 a1 => Sys2Proof.Machine.execKeyUpdate a0 a1 s
  | .hostErase a0 => Sys2Proof.Machine.execHostErase a0 s
  | .keyPublicCopy a0 => Sys2Proof.Machine.execKeyPublicCopy a0 s
  | .checkpointRequest => Sys2Proof.Machine.execCheckpointRequest s
  | .attestation a0 a1 => Sys2Proof.Machine.execAttestation a0 a1 s
  | .archivedSeqWrite a0 => Sys2Proof.Machine.execArchivedSeqWrite a0 s
  | .createContext a0 a1 a2 a3 a4 => Sys2Proof.Machine.execCreateContext a0 a1 a2 a3 a4 s
  | .destroyContext a0 => Sys2Proof.Machine.execDestroyContext a0 s
  | .createRoot a0 a1 a2 a3 a4 a5 => Sys2Proof.Machine.execCreateRoot a0 a1 a2 a3 a4 a5 s
  | .mapRoot a0 a1 a2 a3 a4 => Sys2Proof.Machine.execMapRoot a0 a1 a2 a3 a4 s
  | .unmapRoot a0 a1 => Sys2Proof.Machine.execUnmapRoot a0 a1 s
  | .createJob a0 => Sys2Proof.Machine.execCreateJob a0 s
  | .closeJob a0 a1 => Sys2Proof.Machine.execCloseJob a0 a1 s
  | .bindPage a0 a1 a2 a3 a4 a5 => Sys2Proof.Machine.execBindPage a0 a1 a2 a3 a4 a5 s
  | .writeTableEntry a0 a1 a2 a3 a4 a5 => Sys2Proof.Machine.execWriteTableEntry a0 a1 a2 a3 a4 a5 s
  | .writeHmask a0 a1 a2 => Sys2Proof.Machine.execWriteHmask a0 a1 a2 s
  | .configHostSink a0 a1 a2 => Sys2Proof.Machine.execConfigHostSink a0 a1 a2 s
  | .readLastReel a0 a1 => Sys2Proof.Machine.execReadLastReel a0 a1 s
  | .preempt a0 => Sys2Proof.Machine.execPreempt a0 s
  | .hostKill a0 => Sys2Proof.Machine.execHostKill a0 s
  | .hostFence a0 => Sys2Proof.Machine.execHostFence a0 s
  | .warmReset => Sys2Proof.Machine.execWarmReset s
  | .warmResetRequest => Sys2Proof.Machine.execWarmResetRequest s
  | .claimWrite a0 a1 a2 => Sys2Proof.Machine.execClaimWrite a0 a1 a2 s
  | .callSubmit a0 a1 => Sys2Proof.Machine.execCallSubmit a0 a1 s
  | .debugAttach a0 a1 => Sys2Proof.Machine.execDebugAttach a0 a1 s
  | .debugRead a0 a1 a2 a3 => Sys2Proof.Machine.execDebugRead a0 a1 a2 a3 s
  | .debugWrite a0 a1 a2 a3 a4 => Sys2Proof.Machine.execDebugWrite a0 a1 a2 a3 a4 s
  | .debugResume a0 a1 => Sys2Proof.Machine.execDebugResume a0 a1 s
  | .debugDetach a0 => Sys2Proof.Machine.execDebugDetach a0 s
  | .submitLaunch a0 a1 a2 => Sys2Proof.Machine.execSubmitLaunch a0 a1 a2 s
  | .submitMessage a0 a1 a2 => Sys2Proof.Machine.execSubmitMessage a0 a1 a2 s
  | .inboundAccess a0 a1 a2 a3 a4 a5 => Sys2Proof.Machine.execInboundAccess a0 a1 a2 a3 a4 a5 s
  | .cxlMemRequest a0 a1 a2 a3 a4 => Sys2Proof.Machine.execCxlMemRequest a0 a1 a2 a3 a4 s
  | .functionLevelReset a0 => Sys2Proof.Machine.execFunctionLevelReset a0 s
  | .outboundReadTimeout a0 => Sys2Proof.Machine.execOutboundReadTimeout a0 s
  | .scallinkFrame a0 a1 a2 a3 a4 a5 a6 a7 a8 a9 => Sys2Proof.Machine.execScallinkFrame a0 a1 a2 a3 a4 a5 a6 a7 a8 a9 s
  | .scallinkRetransmit a0 => Sys2Proof.Machine.execScallinkRetransmit a0 s
  | .linkState a0 a1 => Sys2Proof.Machine.execLinkState a0 a1 s
  | .powerOnReset => Sys2Proof.Machine.execPowerOnReset s
  | .bootRelease a0 => Sys2Proof.Machine.execBootRelease a0 s
  | .bootReady => Sys2Proof.Machine.execBootReady s
  | .recoveryOffsetWrite a0 => Sys2Proof.Machine.execRecoveryOffsetWrite a0 s
  | .recoveryDataWrite a0 => Sys2Proof.Machine.execRecoveryDataWrite a0 s
  | .timeControlWrite a0 => Sys2Proof.Machine.execTimeControlWrite a0 s
  | .schedWordWrite a0 a1 => Sys2Proof.Machine.execSchedWordWrite a0 a1 s
  | .classCostWrite a0 a1 a2 => Sys2Proof.Machine.execClassCostWrite a0 a1 a2 s
  | .lateConsumedWrite a0 a1 => Sys2Proof.Machine.execLateConsumedWrite a0 a1 s
  | .selfTestIntervalWrite a0 => Sys2Proof.Machine.execSelfTestIntervalWrite a0 s
  | .registerWrite a0 a1 a2 => Sys2Proof.Machine.execRegisterWrite a0 a1 a2 s
  | .eccCorrectedError a0 => Sys2Proof.Machine.execEccCorrectedError a0 s
  | .msixTableWrite a0 a1 a2 => Sys2Proof.Machine.execMsixTableWrite a0 a1 a2 s
  | .callRingConsume a0 a1 => Sys2Proof.Machine.execCallRingConsume a0 a1 s
  | .windowChange a0 => Sys2Proof.Machine.execWindowChange a0 s
  | .takesEffectOnDie a0 => Sys2Proof.Machine.execTakesEffectOnDie a0 s

end Sys2Proof.Machine
end

