-- ==== Sys2Proof/Machine/Step.lean ====
section
/-!
DEFINITION. One step of the package: the next move is a thread's turn, a step of another part, a node read at a tree unit,
an access of a service core, or the passing of time.
-/
namespace Sys2Proof.Machine

/-- (log 4, DESIGN CHOICE; log 133, DESIGN CHOICE; log 137, DESIGN CHOICE; log 139, DEDUCED) -/
def step (s : State) : Host.Outcome State Fault Refusal :=
  let (m, s) := s.nextMove
  match m with
  | .thread ep =>
    match s.issue ep with
    | .wait s => .next s
    | .run i s1 =>
      if !s.hasTurn ep then .next s
      else match exec i s1 with
      | .next t => .next (s1.forward (s1.recordSlow (t.settleRng ep i) ep i) ep i)
      | .fault f => .fault f
      | .refused r => .refused r
  | .event i => if isEvent i then exec i s else .refused .notAnEvent
  | .time n => .next (s.passTime n)
  | .treeRead part => .next (s.treeRead part)
  | .service core ctx va n store order => .next (s.serviceAccess core ctx va n store order)

/-- (log 3, DEDUCED) -/
def State.withFetchWord (s : State) (nbits w : Nat) : State := s.placeWord nbits w

end Sys2Proof.Machine
end

