-- ==== Sys2Proof/Safety.lean ====
section
/-!
DEFINITION. The terms that statements use: what a safe state is, what an instruction pushes, and what it leaves alone.
-/
namespace Sys2Proof.Machine

/-! ### Safe states -/

/-- Memory is in its canonical form. -/
def Safe (s : State) : Prop := s.mem.wf = true

/-! ### What an instruction leaves alone -/

/-- Nothing but threads has changed, and no thread but the acting one: every other register of the package, every byte of
memory, every message, table and queue is as before. -/
def OnlyMe (s t : State) : Prop :=
  { t with threads := s.threads } = s ∧ ∀ ep, ep ≠ s.cur → t.thr ep = s.thr ep

/-- Of the acting thread's registers only those that a push or a nib destination names, the pc and `pix` may differ; of the
rest of the thread only where it stands. `late` and `retired` are the model's own. -/
def KeepsRegs (s t : State) : Prop :=
  { t.me.regs with w := s.me.regs.w, k := s.me.regs.k, pc := s.me.regs.pc, pix := s.me.regs.pix, rng := s.me.regs.rng } =
    s.me.regs ∧
  { t.me with regs := s.me.regs, pushes := s.me.pushes, late := s.me.late, retired := s.me.retired, rep := s.me.rep,
              shift := s.me.shift, onHandle := s.me.onHandle, ckptAt := s.me.ckptAt } = s.me

/-- No push and no register written but the pc: the frame of an instruction without a result. When the thread may issue next
is said apart (`Jumped`, `Passed`). -/
def KeepsAllRegs (s t : State) : Prop :=
  { t.me.regs with pc := s.me.regs.pc, pix := s.me.regs.pix } = s.me.regs ∧
  { t.me with regs := s.me.regs, issueAt := s.me.issueAt, retired := s.me.retired, rep := s.me.rep, shift := s.me.shift,
              onHandle := s.me.onHandle, ckptAt := s.me.ckptAt } = s.me

/-- Every byte of memory outside `n` bytes from `a` reads as before. -/
def SameBut (s t : State) (a n : Nat) : Prop := ∀ x, x < a ∨ a + n ≤ x → t.mem.read x = s.mem.read x

/-! ### What an instruction does to its thread -/

/-- Push (R56) with the copy of R69: `v` is w0 and the others move up; the destination's nib register takes it too. -/
def Pushed (s t : State) (d : Dst) (v : Word) : Prop :=
  t.me.regs.w = #v[v, s.me.regs.w[0], s.me.regs.w[1], s.me.regs.w[2]] ∧
    ∀ j : Fin 8, t.me.regs.k[j] = if s.me.renamedDst d = .nib j then v else s.me.regs.k[j]

/-- The instruction is over (R62): outside a repetition the pc stands at the next instruction. -/
def Over (s t : State) (len : Nat) : Prop :=
  s.me.rep = none → t.me.regs.pc = nextPc s.me.regs.pc len ∧ t.me.regs.pix = 0 ∧ t.me.rep = none

/-- A scalar result: the push, the pc, and nothing else. -/
def Result (s t : State) (d : Dst) (v : Word) (len : Nat) : Prop :=
  Pushed s t d v ∧ Over s t len ∧ KeepsRegs s t ∧ OnlyMe s t

/-- No result: the pc moves and nothing else changes. -/
def Passed (s t : State) (len : Nat) : Prop :=
  Over s t len ∧ KeepsAllRegs s t ∧ t.me.issueAt = s.me.issueAt ∧ OnlyMe s t

/-! ### The integer instructions (R123-R127) -/

/-- The low bits of a source that count at a type (R123). -/
def typed (t : IntTy) (a : Word) : BitVec (intBits t) := a.setWidth (intBits t)
/-- A typed result as a register value (R99). -/
def grown (t : IntTy) (v : BitVec (intBits t)) : Word := if t.signed then v.signExtend 64 else v.setWidth 64

/-- R125: bit `i` of the field that BFX extracts, before its extension; the field's width is `n`. -/
def fieldBits (t : IntTy) (a b : Word) : Word := ((typed t a).setWidth 64 >>> (b.toNat % 64))
/-- R125: the width of a field. -/
def fieldSize (b : Word) : Nat := Nat.min ((b.extractLsb' 8 7).toNat) 64

/-- The table of R123 with R124-R127: the destination of each integer instruction and the value that it pushes, in
operations on words of the type's width. -/
def integerTable (s : State) : Instr → Option (Dst × Word)
  | .add t o => two t o fun a b => grown t (a + b)
  | .addi t o =>
    let b := typed t (s.int t o.imm o.b)
    some (o.dst, s.int t o.imm o.a + grown t b * BitVec.ofNat 64 (intBytes t))
  | .sub t o => two t o fun a b => grown t (a - b)
  | .neg t o => one t o fun a => grown t (-a)
  | .mul t o => two t o fun a b => grown t (a * b)
  | .and t o => two t o fun a b => grown t (a &&& b)
  | .or t o => two t o fun a b => grown t (a ||| b)
  | .xor t o => two t o fun a b => grown t (a ^^^ b)
  | .andn t o => two t o fun a b => grown t (a &&& ~~~b)
  | .not t o => one t o fun a => grown t (~~~a)
  | .shl t o => shift t o fun a n => grown t (a <<< n)
  | .shr t o => shift t o fun a n => grown t (a >>> n)
  | .rotl t o => shift t o fun a n => grown t (a.rotateLeft n)
  | .clz t o => one t o fun a => grown t a.clz
  | .ctz t o => one t o fun a => grown t a.ctz
  | .popc t o => one t o fun a => grown t a.cpop
  | .seq t o => two t o fun a b => if a = b then 1 else 0
  | .sel t o => two t o fun a b => grown t (if s.w0.getLsbD 0 then a else b)
  | .bfx t o =>
    let b := s.int t o.imm o.b
    let f := fieldBits t (s.int t o.imm o.a) b
    let n := fieldSize b
    some (o.dst, grown t (typed t
      (if n = 0 then 0 else if t.signed then (f.setWidth n).signExtend 64 else (f.setWidth n).setWidth 64)))
  | .bfi t o =>
    let b := s.int t o.imm o.b
    let lo := b.toNat % 64
    let hi := Nat.min (lo + fieldSize b) (intBits t)
    let mask : Word := BitVec.ofNat 64 (2 ^ (hi - lo) - 1) <<< lo
    some (o.dst, grown t (typed t ((s.w0 &&& ~~~mask) ||| ((s.int t o.imm o.a <<< lo) &&& mask))))
  | .mulh t o => high t o
  | .mulhn t o => high t o
  | .div t o => two t o fun a b => grown t (if b = 0 then -1 else a.sdiv b)
  | .rem t o => two t o fun a b => grown t (if b = 0 then a else a.srem b)
  | .divn t o => two t o fun a b => grown t (if b = 0 then -1 else a / b)
  | .remn t o => two t o fun a b => grown t (if b = 0 then a else a % b)
  | .min t o => two t o fun a b => grown t (if a.slt b then a else b)
  | .max t o => two t o fun a b => grown t (if a.slt b then b else a)
  | .minn t o => two t o fun a b => grown t (if a.ult b then a else b)
  | .maxn t o => two t o fun a b => grown t (if a.ult b then b else a)
  | .slt t o => two t o fun a b => if a.slt b then 1 else 0
  | .sltn t o => two t o fun a b => if a.ult b then 1 else 0
  | .shra t o => shift t o fun a n => grown t (a.sshiftRight n)
  | .sext t o => one t o fun a => a.signExtend 64
  | .zext t o => one t o fun a => a.setWidth 64
  | .li d imm => some (d, imm.signExtend 64)
  | .lih d a imm => some (d, (imm.setWidth 64 <<< 32) + (s.raw imm a &&& 0xFFFFFFFF))
  | _ => none
where
  two (t : IntTy) (o : Op2) (f : BitVec (intBits t) → BitVec (intBits t) → Word) : Option (Dst × Word) :=
    some (o.dst, f (typed t (s.int t o.imm o.a)) (typed t (s.int t o.imm o.b)))
  one (t : IntTy) (o : Op1) (f : BitVec (intBits t) → Word) : Option (Dst × Word) :=
    some (o.dst, f (typed t (s.int t o.imm o.a)))
  shift (t : IntTy) (o : Op2) (f : BitVec (intBits t) → Nat → Word) : Option (Dst × Word) :=
    some (o.dst, f (typed t (s.int t o.imm o.a)) ((s.int t o.imm o.b).toNat % intBits t))
  high (t : IntTy) (o : Op2) : Option (Dst × Word) :=
    let x := s.int t o.imm o.a
    let y := s.int t o.imm o.b
    let w := intBits t
    some (o.dst,
      if t.signed then
        (((typed t x).signExtend (2 * w) * (typed t y).signExtend (2 * w)).extractLsb' w w).signExtend 64
      else (((typed t x).setWidth (2 * w) * (typed t y).setWidth (2 * w)).extractLsb' w w).setWidth 64)

/-! ### Control transfers (R62, R63, R129, R130) -/

/-- R129: whether BR is taken. -/
def branchTaken (c : Cond) (a b : Word) : Bool :=
  match c with
  | .eq => decide (a.toNat = b.toNat)
  | .ne => decide (a.toNat ≠ b.toNat)
  | .lt => decide (a.toInt < b.toInt)
  | .ge => decide (b.toInt ≤ a.toInt)
  | .ltn => decide (a.toNat < b.toNat)
  | .gen => decide (b.toNat ≤ a.toNat)
  | .z => decide (a.toNat = 0)
  | .nz => decide (a.toNat ≠ 0)

/-- R62, R63: a target that a taken transfer may go to: aligned, inside the core's space 0, not at window offset 28. -/
def Lands (s : State) (target : W32) : Prop :=
  target.toNat % 4 = 0 ∧ target.toNat < padSize s.curCore ∧ target.toNat % 32 ≠ 28

/-- The pc is at the target, the thread issues next `delay` cycles later than it would (R122), and nothing but the thread has
changed. -/
def Jumped (s t : State) (target : W32) (delay : Nat) : Prop :=
  t.me.regs.pc = target ∧ t.me.regs.pix = 0 ∧ t.me.issueAt = (s.core s.curCore).clock + 1 + delay ∧ OnlyMe s t

/-- R75: the instructions of a repetition's body, each with its address, in sequential fetch order from `pc`: every one of 8
bytes, none that a body may not hold; `z` is the address after them. -/
def repBody (m : Memory) (core : Nat) : List (W32 × Instr) → W32 → W32 → Prop
  | [], pc, z => z = pc
  | (a, i) :: l, pc, z =>
    a = pc ∧ fetchAt m core pc.toNat = .ok (i, 8) ∧ notInBody i = false ∧ repBody m core l (nextPc pc 8) z

/-! ### Scalar floating point (R132-R134) -/

/-- R116: StepRng. -/
def rngStep (x : W32) : W32 :=
  let x := x ^^^ (x * BitVec.ofNat 32 (2 ^ 13))
  let x := x ^^^ BitVec.ofNat 32 (x.toNat / 2 ^ 17)
  x ^^^ (x * BitVec.ofNat 32 (2 ^ 5))

/-- The exact results of R132, the choices of R133 and the conversion of R134: destination, value pushed, and the rounding
mode of an instruction that rounds. `g` is the generator before the instruction. -/
def floatTable (s : State) : Instr → Option (Dst × Word × Option Rnd)
  | .fadd t rm z o => two t rm z o fun a b => fpAdd rm a b
  | .fsub t rm z o => two t rm z o fun a b => fpSub rm a b
  | .fmul t rm z o => two t rm z o fun a b => a.mul b
  | .ffma t rm z o => two t rm z o fun a b => (a.mul b).add (rm == .rdn) (fpIn z (fElem t) s.w0.toNat)
  | .fdiv rm z o => two .f32 rm z o fun a b => a.div b
  | .fsqrt rm z o => one rm z o XVal.sqrt
  | .fexp2 rm z o => one rm z o XVal.exp2
  | .flog2 rm z o => one rm z o XVal.log2
  | .frsq rm z o => one rm z o XVal.rsqrt
  | .fmin t z o => pick false t z o
  | .fmax t z o => pick true t z o
  | .fabs t z o => some (o.dst, BitVec.ofNat 64 (held t z (s.fp (fElem t) o.imm o.a) % 2 ^ (elemBits (fElem t) - 1)), none)
  | .fneg t z o =>
    let c := held t z (s.fp (fElem t) o.imm o.a)
    let top := 2 ^ (elemBits (fElem t) - 1)
    some (o.dst, BitVec.ofNat 64 (if c < top then c + top else c - top), none)
  | .fcmp t r z o =>
    let a := fpIn z (fElem t) (s.fp (fElem t) o.imm o.a).toNat
    let b := fpIn z (fElem t) (s.fp (fElem t) o.imm o.b).toNat
    let nan := a.isNan || b.isNan
    let c := a.cmp b
    let holds : Bool :=
      match r with
      | .eq => !nan && c == 0
      | .ne => nan || c != 0
      | .lt => !nan && c < 0
      | .le => !nan && c ≤ 0
      | .gt => !nan && 0 < c
      | .ge => !nan && 0 ≤ c
      | .un => nan
      | .ord => !nan
    some (o.dst, if holds then 1 else 0, none)
  | .fcvt ty rm nb src d a =>
    let from_ := fcvtSource src
    let c := roundTo (decodeElem from_ ((s.fp from_ 0 a).toNat % 2 ^ elemBits from_)) ty rm nb
      ((rngStep s.me.regs.rng).toNat / 256)
    some (d, extend (elemBits ty) (elemSigned ty) c, some rm)
  | _ => none
where
  /-- RoundTo of the exact result, with `.ftz` (R103, R132). -/
  rounded (t : FTy) (rm : Rnd) (z : Bool) (x : XVal) : Word :=
    extend (elemBits (fElem t)) false (roundFtz z x (fElem t) rm false ((rngStep s.me.regs.rng).toNat / 256))
  two (t : FTy) (rm : Rnd) (z : Bool) (o : Op2) (f : XVal → XVal → XVal) : Option (Dst × Word × Option Rnd) :=
    some (o.dst, rounded t rm z (f (fpIn z (fElem t) (s.fp (fElem t) o.imm o.a).toNat)
      (fpIn z (fElem t) (s.fp (fElem t) o.imm o.b).toNat)), some rm)
  one (rm : Rnd) (z : Bool) (o : Op1) (f : XVal → XVal) : Option (Dst × Word × Option Rnd) :=
    some (o.dst, rounded .f32 rm z (f (fpIn z .f32 (s.fp .f32 o.imm o.a).toNat)), some rm)
  /-- The code of a source once `.ftz` has made its subnormals zero (R103, R133). -/
  held (t : FTy) (z : Bool) (a : Word) : Nat := ftzCode z (fElem t) (a.toNat % 2 ^ elemBits (fElem t))
  /-- R133: a NaN yields the other operand, two the canonical NaN, and -0 counts as less than +0. -/
  pick (wantMax : Bool) (t : FTy) (z : Bool) (o : Op2) : Option (Dst × Word × Option Rnd) :=
    let a := s.fp (fElem t) o.imm o.a
    let b := s.fp (fElem t) o.imm o.b
    let x := fpIn z (fElem t) a.toNat
    let y := fpIn z (fElem t) b.toNat
    let below : Bool := x.cmp y < 0 || (x.cmp y == 0 && x.sign && !y.sign)
    let above : Bool := 0 < x.cmp y || (x.cmp y == 0 && !x.sign && y.sign)
    let c := if x.isNan && y.isNan then qnan (fElem t)
      else if x.isNan then held t z b
      else if y.isNan then held t z a
      else if wantMax then (if above then held t z a else held t z b)
      else (if below then held t z a else held t z b)
    some (o.dst, BitVec.ofNat 64 c, none)

/-! ### Accesses (R222-R235) -/

/-- What a near load, store or atomic may leave different outside its register results: its own bytes, the undo entry of a
team (R435), a guard touch and the floors of an acquire or a release. Nothing else of the package changes. -/
def NearFrame (s t : State) : Prop :=
  { t with threads := s.threads, mem := s.mem, cores := s.cores, relFloors := s.relFloors, floors := s.floors } = s ∧
  (∀ ep, ep ≠ s.cur → t.thr ep = s.thr ep) ∧
  (∀ c, { t.core c with undo := (s.core c).undo } = s.core c) ∧
  { t.me with regs := s.me.regs, pushes := s.me.pushes, retired := s.me.retired, rep := s.me.rep, shift := s.me.shift,
              onHandle := s.me.onHandle, ckptAt := s.me.ckptAt, ovf := s.me.ovf } = s.me ∧
  { t.me.regs with w := s.me.regs.w, k := s.me.regs.k, pc := s.me.regs.pc, pix := s.me.regs.pix,
                   gtouch := s.me.regs.gtouch } = s.me.regs

/-- The pushes and nib registers are as before. -/
def NoPush (s t : State) : Prop := t.me.regs.w = s.me.regs.w ∧ t.me.regs.k = s.me.regs.k

/-- No byte of memory changes, but that a walker pool which fills up emits a slate, and a last reel may take it (R278, R288,
R373): the last reels stand from 2^55 up. -/
def ReelsOnly (s t : State) : Prop :=
  ((∀ die, (s.walkQ die).length ≠ 384) → t.mem = s.mem) ∧ (Safe s → ∀ x, x < 2 ^ 55 → t.mem.read x = s.mem.read x)

/-- An access has been put in flight behind those already there, with its count up (R59, R229) and no byte changed. -/
def InFlight (s t : State) (kind : ReqKind) (peer : Option Nat) (va size : Nat) (acq rel : Bool) : Prop :=
  ∃ r : Req, t.reqs = s.reqs ++ [r] ∧ r.kind = kind ∧ r.peer = peer ∧ r.va = va ∧ r.size = size ∧ r.acq = acq ∧
    r.rel = rel ∧ r.ep = s.cur ∧ r.uid = s.me.unit.uid ∧ r.ctx = s.myCtx ∧ r.launch = s.me.unit.launch ∧ r.land = none ∧
    r.own = false ∧ t.me.occ = s.me.occ.up kind.count ∧ ReelsOnly s t ∧ t.cores = s.cores ∧ t.msgs = s.msgs ∧
    ∀ ep, ep ≠ s.cur → t.thr ep = s.thr ep

/-- A push that an answer will fill (R122): the slot reads 0 until then, and the nib register named keeps its value. -/
def Reserved (s t : State) (d : Dst) (tree : Bool) (acq : Option Scope := none) : Prop :=
  t.me.regs.w = #v[(0 : Word), s.me.regs.w[0], s.me.regs.w[1], s.me.regs.w[2]] ∧ t.me.regs.k = s.me.regs.k ∧
    ∃ id, t.me.pend = s.me.pend ++
      [⟨id, some s.me.pushes, (match s.me.renamedDst d with | .wet => none | .nib j => some j), tree, none, acq⟩]

/-- The value of a pending result has arrived (R122): in its wet slot, unless it has left the file, and in its nib register;
the thread's other registers and its other pending results are as before. -/
def Arrived (s t : State) (ep : Nat) (p : Pend) (v : Word) : Prop :=
  (∀ i : Fin 4, (t.thr ep).regs.w[i] = match p.push with
    | none => (s.thr ep).regs.w[i]
    | some x => if i.val = wetPos (s.thr ep).pushes x then v else (s.thr ep).regs.w[i]) ∧
  (∀ j : Fin 8, (t.thr ep).regs.k[j] = if p.nib = some j then v else (s.thr ep).regs.k[j]) ∧
  { (t.thr ep).regs with w := (s.thr ep).regs.w, k := (s.thr ep).regs.k } = (s.thr ep).regs ∧
  (t.thr ep).pend = (s.thr ep).pend.filter (·.id != p.id)

/-- No thread but the acting one has changed. -/
def OthersSame (s t : State) : Prop := ∀ ep, ep ≠ s.cur → t.thr ep = s.thr ep

/-- R234: what AMO writes, from the old value and the operand, both cut to the type. -/
def atomicTable (ty : IntTy) (op : AmoOp) (old b : Nat) : Nat :=
  let w := intBits ty
  let less : Bool := if ty.signed then (BitVec.ofNat w old).slt (BitVec.ofNat w b) else old < b
  match op with
  | .swap => b
  | .add => (old + b) % 2 ^ w
  | .and => old &&& b
  | .or => old ||| b
  | .xor => old ^^^ b
  | .min => if less then old else b
  | .max => if less then b else old
  | .incw => if b ≤ old then 0 else old + 1

/-- `n` little-endian bytes at a near address of the acting core, as a value of a type (R99, R227). -/
def nearValue (s : State) (t : IntTy) (x : Nat) : Word :=
  extend (intBits t) t.signed (s.mem.readNat (intBytes t) (padKey s.curCore x))

/-! ### Vector instructions (R136-R147) -/

/-- Where element `l` of four bytes from base `b` stands in memory: the own scratchpad, or the octet's accumulators. -/
def vecKey (s : State) (b : W32) (l : Nat) : Nat :=
  let a := b.toNat % 2 ^ 28 + 4 * l
  if b.toNat / 2 ^ 28 = 0 then padKey s.curCore a else accKey (coreArray s.curCore) a

/-- The element there; a guard granule reads as zero (R247). -/
def vecWord (s : State) (b : W32) (l : Nat) : W32 :=
  if b.toNat / 2 ^ 28 = 0 ∧ (s.core s.curCore).guarded (b.toNat % 2 ^ 28 + 4 * l) = true then 0
  else BitVec.ofNat 32 (s.mem.readNat 4 (vecKey s b l))

/-- Operands A and B of a lane (R139). -/
def vecA (s : State) (o : VOp) (l : Nat) : W32 :=
  if o.asel then vecWord s (s.me.regs.p[o.pa].setWidth 32) l else s.me.regs.acc.toArray.getD l 0
def vecB (s : State) (o : VOp) (l : Nat) : W32 :=
  if o.bsel then s.w0.setWidth 32 else vecWord s (s.me.regs.p[o.pb].setWidth 32) l

/-- The generator after `n` steps (R117). -/
def rngAfterSteps (g : W32) : Nat → W32
  | 0 => g
  | n + 1 => rngStep (rngAfterSteps g n)

/-- One elementwise instruction: its type, operands, whether it has an operand B, whether its lanes step the generator, and
the lane's result from the generator, the lane number and the operands. -/
structure Lanewise where
  ty : LaneTy
  op : VOp
  hasB : Bool
  steps : Bool
  f : W32 → Nat → W32 → W32 → W32

/-! Moving and converting (R142): elements of any type. -/

/-- Where the element of lane `l` from base `b` stands in memory. -/
def elemKey (s : State) (t : ElemTy) (b : W32) (l : Nat) : Nat :=
  let a := b.toNat % 2 ^ 28 + l * elemBits t / 8
  if b.toNat / 2 ^ 28 = 0 then padKey s.curCore a else accKey (coreArray s.curCore) a

/-- The element's code there; a guard granule reads as zero (R247). -/
def vecCode (s : State) (t : ElemTy) (b : W32) (l : Nat) : Nat :=
  let v :=
    if b.toNat / 2 ^ 28 = 0 ∧ (s.core s.curCore).guarded (b.toNat % 2 ^ 28 + l * elemBits t / 8) = true then 0
    else s.mem.readNat (Nat.max 1 (elemBits t / 8)) (elemKey s t b l)
  if elemBits t = 4 then v / 16 ^ (l % 2) % 16 else v

/-- An element widened exactly into a lane. -/
def widened (t : ElemTy) (c : Nat) : W32 :=
  match t with
  | .i8 => (BitVec.ofNat 8 c).signExtend 32
  | .i16 => (BitVec.ofNat 16 c).signExtend 32
  | .n8 | .n16 | .i32 | .n32 | .f32 => BitVec.ofNat 32 c
  | _ => BitVec.ofNat 32 (roundTo (decodeElem t c) .f32 .rne false 0)

/-- The value of a lane that VSA and VCVT round: an integer of the lane's type, or an .f32 value under .ftz (R103). -/
def laneExact (t : LaneTy) (ctl : BitVec 5) (x : W32) : XVal :=
  match t with
  | .f32 => fpIn (ctlFtz ctl) .f32 x.toNat
  | .i32 => XVal.ofInt x.toInt
  | .n32 => XVal.ofInt x.toNat

/-- One rounding of a lane to an element type, with one draw (R116). -/
def laneCode (t : ElemTy) (ctl : BitVec 5) (g : W32) (x : XVal) : Nat :=
  roundFtz (ctlFtz ctl) x t (ctlRnd ctl) (ctlNan ctl) ((rngStep g).toNat / 256)

/-! Comparing and reducing (R146, R147). -/

/-- Whether a relation holds between two lanes. -/
def laneHolds (r : Rel) (t : LaneTy) (x y : W32) : Bool :=
  match t with
  | .f32 =>
    let a := fpIn false .f32 x.toNat
    let b := fpIn false .f32 y.toNat
    let nan := a.isNan || b.isNan
    let c := a.cmp b
    match r with
    | .eq => !nan && c == 0
    | .ne => nan || c != 0
    | .lt => !nan && c < 0
    | .le => !nan && c ≤ 0
    | .gt => !nan && 0 < c
    | .ge => !nan && 0 ≤ c
    | .un => nan
    | .ord => !nan
  | .i32 => ints r (x == y) (x.slt y)
  | .n32 => ints r (x == y) (x.ult y)
where
  ints (r : Rel) (same less : Bool) : Bool :=
    match r with
    | .eq => same
    | .ne => !same
    | .lt => less
    | .le => less || same
    | .gt => !less && !same
    | .ge => !less
    | .un => false
    | .ord => true

/-- R147: the operation of a reduction; `g` is the generator that an .f32 sum draws from. -/
def redStep (t : LaneTy) (op : RedOp) (ctl : BitVec 5) (g x y : W32) : W32 :=
  match op, t with
  | .add, .f32 =>
    BitVec.ofNat 32 (roundFtz (ctlFtz ctl) (fpAdd (ctlRnd ctl) (fpIn (ctlFtz ctl) .f32 x.toNat) (fpIn (ctlFtz ctl) .f32 y.toNat))
      .f32 (ctlRnd ctl) false ((rngStep g).toNat / 256))
  | .add, _ => x + y
  | .min, .f32 => BitVec.ofNat 32 (fpMinMax false false .f32 x.toNat y.toNat)
  | .min, .i32 => if y.slt x then y else x
  | .min, .n32 => if y.ult x then y else x
  | .max, .f32 => BitVec.ofNat 32 (fpMinMax true false .f32 x.toNat y.toNat)
  | .max, .i32 => if x.slt y then y else x
  | .max, .n32 => if x.ult y then y else x

/-- R147: node (k, j) of the tree. -/
def redNode (f : W32 → W32 → W32) (leaf : Nat → Option W32) : Nat → Nat → Option W32
  | 0, j => leaf j
  | k + 1, j =>
    match redNode f leaf k (2 * j), redNode f leaf k (2 * j + 1) with
    | none, y => y
    | some x, none => some x
    | some x, some y => some (f x y)

/-- R147: the result of no lane. -/
def redNothing (op : RedOp) (t : LaneTy) : W32 :=
  match op, t with
  | .add, _ => 0
  | .min, .f32 => 0x7F800000
  | .min, .i32 => BitVec.ofNat 32 (2 ^ 31 - 1)
  | .min, .n32 => BitVec.ofNat 32 (2 ^ 32 - 1)
  | .max, .f32 => 0xFF800000
  | .max, .i32 => BitVec.ofNat 32 (2 ^ 31)
  | .max, .n32 => 0

/-- R142-R145: what each instruction that works lane by lane computes in a lane. -/
def vectorTable (s : State) : Instr → Option Lanewise
  | .vadd t o => some ⟨t, o, true, draws t o, fun g _ x y =>
      if t = .f32 then rnd o g (fpAdd (ctlRnd o.ctl) (val o x) (val o y)) else x + y⟩
  | .vsub t o => some ⟨t, o, true, draws t o, fun g _ x y =>
      if t = .f32 then rnd o g (fpSub (ctlRnd o.ctl) (val o x) (val o y)) else x - y⟩
  | .vmul t o => some ⟨t, o, true, draws t o, fun g _ x y =>
      if t = .f32 then rnd o g ((val o x).mul (val o y)) else x * y⟩
  | .vmin t o => some ⟨t, o, true, false, fun _ _ x y =>
      match t with
      | .f32 => BitVec.ofNat 32 (fpMinMax false false .f32 x.toNat y.toNat)
      | .i32 => if y.slt x then y else x
      | .n32 => if y.ult x then y else x⟩
  | .vmax t o => some ⟨t, o, true, false, fun _ _ x y =>
      match t with
      | .f32 => BitVec.ofNat 32 (fpMinMax true false .f32 x.toNat y.toNat)
      | .i32 => if x.slt y then y else x
      | .n32 => if x.ult y then y else x⟩
  | .vabs t o => some ⟨t, o, false, false, fun _ _ x _ =>
      if t = .f32 then (if (val o x).isNan then 0x7FC00000 else x &&& 0x7FFFFFFF) else if x.slt 0 then -x else x⟩
  | .vand t o => some ⟨t, o, true, false, fun _ _ x y => x &&& y⟩
  | .vor t o => some ⟨t, o, true, false, fun _ _ x y => x ||| y⟩
  | .vxor t o => some ⟨t, o, true, false, fun _ _ x y => x ^^^ y⟩
  | .vshl t o => some ⟨t, o, true, false, fun _ _ x y => x <<< (y.toNat % 32)⟩
  | .vshr t o => some ⟨t, o, true, false, fun _ _ x y =>
      if t = .i32 then x.sshiftRight (y.toNat % 32) else x >>> (y.toNat % 32)⟩
  | .vfma o => some ⟨.f32, o, true, draws .f32 o, fun g l x y =>
      rnd o g (((val o x).mul (val o y)).add (ctlRnd o.ctl == .rdn) (val o (s.me.regs.acc.toArray.getD l 0)))⟩
  | .vexp2 o => some ⟨.f32, o, false, draws .f32 o, fun g _ x _ => rnd o g (val o x).exp2⟩
  | .vrsq o => some ⟨.f32, o, false, draws .f32 o, fun g _ x _ => rnd o g (val o x).rsqrt⟩
  | .vrcp o => some ⟨.f32, o, false, draws .f32 o, fun g _ x _ => rnd o g ((XVal.ofInt 1).div (val o x))⟩
  | .vscl t o => some ⟨t, o, true, draws t o, fun g _ x y =>
      match t with
      | .f32 => rnd o g ((val o x).mul (.fin false 1 y.toInt false))
      | .i32 => if y.slt 0 then BitVec.ofInt 32 (x.toInt / 2 ^ (-y.toInt).toNat) else x <<< y.toNat
      | .n32 => if y.slt 0 then BitVec.ofNat 32 (x.toNat / 2 ^ (-y.toInt).toNat) else x <<< y.toNat⟩
  | .vsel t sm o => some ⟨t, o, true, false, fun _ l x y => if s.me.regs.maCol[sm].getLsbD l then x else y⟩
  | .vperm t o => some ⟨t, o, true, false, fun _ _ _ y =>
      let j := y.toNat % 64
      if j < s.me.regs.vl.toNat ∧ s.me.regs.maCol[o.mask].getLsbD j = true then s.me.regs.acc.toArray.getD j 0 else 0⟩
  | .vidx t m pd dsel start stp ctl => some ⟨t, ⟨m, 0, 0, pd, false, false, dsel, ctl⟩, false, t == .f32 && ctlRnd ctl == .rsr,
      fun g l _ _ =>
        if t = .f32 then laneBits .f32 ctl g (XVal.ofInt (start.toInt + (l : Int) * stp.toInt))
        else start + BitVec.ofNat 32 l * stp.signExtend 32⟩
  | .vcvt t m src ctl => some ⟨.n32, ⟨m, 0, 0, 0, false, false, false, ctl⟩, false, ctlRnd ctl == .rsr, fun g _ x _ =>
      lane32 t (laneCode t ctl g (laneExact (if src = 0 then .f32 else if src = 1 then .i32 else .n32) ctl x))⟩
  | _ => none
where
  /-- A lane as an exact .f32 value under the modifiers (R103). -/
  val (o : VOp) (x : W32) : XVal := fpIn (ctlFtz o.ctl) .f32 x.toNat
  /-- RoundTo of an exact result, with one draw (R103, R116). -/
  rnd (o : VOp) (g : W32) (x : XVal) : W32 :=
    BitVec.ofNat 32 (roundFtz (ctlFtz o.ctl) x .f32 (ctlRnd o.ctl) false ((rngStep g).toNat / 256))
  /-- The same from the modifiers alone. -/
  laneBits (t : ElemTy) (ctl : BitVec 5) (g : W32) (x : XVal) : W32 :=
    BitVec.ofNat 32 (roundFtz (ctlFtz ctl) x t (ctlRnd ctl) false ((rngStep g).toNat / 256))
  /-- R116: an .f32 instruction under .rsr steps the generator in each lane. -/
  draws (t : LaneTy) (o : VOp) : Bool := t == .f32 && ctlRnd o.ctl == .rsr

/-! ### Array commands (R168, R174-R187) -/

/-- The command that an instruction of the direct form issues, from its operand fields. -/
def directOf : Instr → Option (MOp × (MOp → Instr))
  | .mmask o => some (o, .mmask)
  | .mprec o => some (o, .mprec)
  | .mzero o => some (o, .mzero)
  | .mmul t rm o => some (o, .mmul t rm)
  | .mmulb t o => some (o, .mmulb t)
  | .msca rm o => some (o, .msca rm)
  | .msendt o => some (o, .msendt)
  | .mrecvt o => some (o, .mrecvt)
  | .mmove t rm nan o => some (o, .mmove t rm nan)
  | .mload t rm nan o => some (o, .mload t rm nan)
  | .e8cvt o => some (o, .e8cvt)
  | _ => none

/-- A direct command that the array is about to execute: the head of the running lease's commands, in its members' turn. -/
def AtHead (s : State) (a : Nat) (c : Cmd) : Prop :=
  a < 576 ∧ c.ep < 2 ^ 18 ∧
  s.wanted a = none ∧ s.lent a = false ∧ s.isHeld (arraySrc a) = false ∧ s.testDue a = false ∧
    (s.arr a).run = some (.lease c.lead c.uid) ∧
    (∃ rest, sourceCmds (s.arr a).cmds c.uid = c :: rest) ∧ s.cmdTurn c = true

/-- R160, R165: a direct command has been executed: it is gone from the array, and TL of its unit has fallen. -/
def Executed (s t : State) (a : Nat) (c : Cmd) : Prop :=
  (∀ y, y ∈ (t.arr a).cmds ↔ y ∈ (s.arr a).cmds ∧ ¬ (y.ep = c.ep ∧ y.uid = c.uid ∧ y.idx = c.idx)) ∧
    (s.unitHere c.ep c.uid = true → (t.thr c.ep).occ = (s.thr c.ep).occ.down 3)

/-! ### Address-space instructions (R389-R394) -/

/-- What an address-space instruction asks its tree unit for, and its operands: the far address and the offset, which are
multiples of `align`, and the endpoint that is to be told. -/
structure TreeAsk where
  dst : Dst
  va : Word
  off : Word
  align : Nat
  ep : Option (BitVec 18)
  kind : TreeKind

def treeTable (s : State) : Instr → Option TreeAsk
  | .map d a b c rctx win lg r =>
    some ⟨d, s.raw c a, s.raw c b, 2 ^ (6 + lg.toNat), none, .derive false (s.raw c a).toNat lg.toNat rctx.toNat win.toNat
      (s.raw c b).toNat r.toNat c.toNat⟩
  | .grant d a b c rctx win lg r =>
    some ⟨d, s.raw c a, s.raw c b, 2 ^ (6 + lg.toNat), none, .derive true (s.raw c a).toNat lg.toNat rctx.toNat win.toNat
      (s.raw c b).toNat r.toNat c.toNat⟩
  | .unmap d a self => some ⟨d, s.raw 0 a, 0, 1, none, .unmap (s.raw 0 a).toNat self none⟩
  | .unmapAsync d a self ep h =>
    some ⟨d, s.raw 0 a, 0, 1, some ep, .unmap (s.raw 0 a).toNat self (some (ep.toNat, h.toNat))⟩
  | .acceptOpen d a win lgw maxr src host ep h =>
    some ⟨d, s.raw 0 a, 0, 1, none, .openWindow win.toNat
      { base := (s.raw 0 a).toNat, lgw := lgw.toNat, maxr := maxr.toNat, src := src.toNat, anyCtx := src == 0,
        host := host, ep := ep.toNat, handler := h.toNat }⟩
  | .acceptClose d _ win => some ⟨d, 0, 0, 1, none, .closeWindow win.toNat⟩
  | .mquery d a sel => some ⟨d, s.raw 0 a, 0, 1, none, .query (s.raw 0 a).toNat sel.toNat⟩
  | .xflush d a lg => some ⟨d, s.raw 0 a, 0, 2 ^ (6 + lg.toNat), none, .flush (s.raw 0 a).toNat lg.toNat⟩
  | _ => none

/-- The unit that asked for a tree operation gets its answer (R389), if it is still on its thread. -/
def Answers (s t : State) (m : TreeMsg) (v : Word) : Prop :=
  ∀ ep uid id l, m.asker = .thread ep uid id l → s.unitHere ep uid = true → t.thr ep = (s.thr ep).answer id v

/-! ### Request pages (R458) -/

/-- R458: the request page that an operation of the host comes through. -/
def requestPage : Instr → Option Nat
  | .createContext .. | .destroyContext .. | .createRoot .. | .mapRoot .. | .unmapRoot .. | .createJob .. | .closeJob ..
  | .bindPage .. | .writeTableEntry .. => some 0
  | .writeHmask .. | .configHostSink .. | .readLastReel .. => some 1
  | .keyLoad .. | .keyUpdate .. | .hostErase .. | .keyPublicCopy .. | .attestation .. | .checkpointRequest => some 4
  | .preempt .. | .hostKill .. | .hostFence .. | .claimWrite .. | .warmResetRequest => some 5
  | .debugAttach .. | .debugDetach .. | .debugRead .. | .debugWrite .. | .debugResume .. => some 7
  | _ => none

/-! ### Rollback (R436) -/

/-- The undo entries of a team's members, those of one core oldest first: the place in memory of each word, and its value. -/
def undoWords (s : State) (ms : List Nat) : List (Nat × Word) :=
  (ms.map epCore).eraseDups.reverse.flatMap fun c =>
    ((s.core c).undo.filter fun u => ms.contains (coreEp c u.thread)).map fun u => (padKey c u.addr, u.old)

/-! ### Messages (R36-R41) -/

/-- A message in its turn whose unit can start at once on thread `th` of its core, at `entry`. -/
def Startable (s : State) (m : Msg) (th : Nat) (entry : W32) (ec : Nat) : Prop :=
  let core := epCore m.dest
  m.kind = .unit ∧ m.link = none ∧ m.ack = none ∧ isService m.dest = false ∧ s.fenced.contains (epDie m.dest) = false ∧
    s.msgBlocked m = false ∧ s.isHeld (niWho core) = false ∧ (s.core core).bound = some (hdrCtx m.hdr) ∧
    (s.thr m.dest).inst = none ∧ s.freeThread core = some th ∧ (s.core core).spilled = [] ∧ (s.core core).park = [] ∧
    (hdrDet m.hdr = true ∨ (s.launch (s.partOf core) (hdrLaunch m.hdr)).cancelled = false) ∧
    s.handlerOf core (hdrHandler m.hdr) = some (entry, ec)

/-- StartUnit (R40): the unit of the message runs on thread `th`, every register at its value at unit start. -/
def Started (s t : State) (m : Msg) (th : Nat) (entry : W32) : Prop :=
  let ep := coreEp (epCore m.dest) th
  let r := (t.thr ep).regs
  t.msgs = s.msgs.filter (·.id != m.id) ∧ (t.thr ep).busy = true ∧ (t.thr ep).unit.hdr = m.hdr ∧
    (t.thr ep).unit.uid = s.uids ∧ r.pc = entry ∧ r.g[0] = m.hdr ∧
    (∀ i : Fin 32, 1 ≤ i.val → r.g[i] = if i.val ≤ hdrWords m.hdr then m.payload.getD (i.val - 1) 0 else 0) ∧
    { r with g := (({} : Regs)).g, pc := 0, rng := rngReset } = ({} : Regs) ∧
    (t.thr ep).occ = {} ∧ (t.thr ep).gang = none ∧ (t.thr ep).trap = false ∧
    ∀ e, e ≠ ep → t.thr e = s.thr e

end Sys2Proof.Machine
end

