-- ==== Sys2Proof/Certificates/Slice0/Obligations.lean ====
section
/-!
DEFINITION. The statements for the provers, each a proposition about the model; OBLIGATIONS.json lists them.
-/
open Sys2Proof Sys2Proof.Machine

/-! ### Scalar instructions -/

/-- R123, R124, R126 and R127: each integer instruction completes in every state and pushes the value of its table,
with the pc at the next instruction and nothing else changed. -/
def Obligations.IntegerResults : Prop :=
  ∀ (i : Instr) (s : State) (d : Dst) (v : Word), i.wf = true → integerTable s i = some (d, v) →
    ∃ t, exec i s = .next t ∧ Result s t d v 8

/-- R128: MOVK, MOVG and MOVM copy between the files, read their sources first, and push nothing; their fields stand
where the table has them, and an encoding with an illegal field value decodes to no instruction. -/
def Obligations.MovesBetweenFiles : Prop :=
  (∀ (s : State) (g : Fin 32) (k : Fin 8), ∃ t, exec (.movk g k) s = .next t ∧
    (∀ j : Fin 8, t.me.regs.k[j] = if j = renamed s.me.shift k then s.me.regs.g[g] else s.me.regs.k[j]) ∧
    { t.me.regs with k := s.me.regs.k, pc := s.me.regs.pc, pix := s.me.regs.pix } = s.me.regs ∧
    Over s t 8 ∧ OnlyMe s t) ∧
  (∀ (s : State) (g : Fin 32) (a : Src) (imm : W32), ∃ t, exec (.movg g a imm) s = .next t ∧
    (∀ j : Fin 32, t.me.regs.g[j] = if j = g then s.raw imm a else s.me.regs.g[j]) ∧
    { t.me.regs with g := s.me.regs.g, pc := s.me.regs.pc, pix := s.me.regs.pix } = s.me.regs ∧
    Over s t 8 ∧ OnlyMe s t) ∧
  (∀ (s : State) (a d : Fin 32) (n : BitVec 5), a.val + n.toNat < 32 → d.val + n.toNat < 32 →
    ∃ t, exec (.movm a d n) s = .next t ∧
      (∀ (i : Nat) (hi : i < 32), t.me.regs.g[i] =
        if d.val ≤ i ∧ i ≤ d.val + n.toNat then s.me.regs.g.getD (a.val + (i - d.val)) 0 else s.me.regs.g[i]) ∧
      { t.me.regs with g := s.me.regs.g, pc := s.me.regs.pc, pix := s.me.regs.pix } = s.me.regs ∧
      Over s t 8 ∧ OnlyMe s t) ∧
  (∀ r : Raw64,
    let plain := r.minor.toNat < 32 ∧ r.sb = 0 ∧ r.mod = 0
    (r.major = 0x26 → plain → r.sa = 0 → r.imm = 0 → ∀ k : Fin 8, r.dst.toNat = 4 + k.val →
      decodeEnc (.e64 r) = .ok (.movk (Fin.ofNat 32 r.minor.toNat) k)) ∧
    (r.major = 0x27 → plain → r.dst = 0 → ∀ a, Src.ofBits r.sa = .ok a → (r.imm = 0 ∨ a = .imm) →
      decodeEnc (.e64 r) = .ok (.movg (Fin.ofNat 32 r.minor.toNat) a r.imm)) ∧
    (r.major = 0x28 → plain → r.dst = 0 → r.sa = 0 → ∀ (d : Fin 32) (n : BitVec 5),
      r.imm.toNat = d.val + 2 ^ 8 * n.toNat → r.minor.toNat + n.toNat < 32 → d.val + n.toNat < 32 →
      decodeEnc (.e64 r) = .ok (.movm (Fin.ofNat 32 r.minor.toNat) d n)) ∧
    ((r.major = 0x26 ∧ (r.dst.toNat < 4 ∨ 11 < r.dst.toNat)) ∨ (r.major = 0x27 ∧ r.dst ≠ 0) ∨
        (r.major = 0x28 ∧ (32 < r.minor.toNat + (r.imm.extractLsb' 8 5).toNat + 1 ∨
          32 < (r.imm.extractLsb' 0 5).toNat + (r.imm.extractLsb' 8 5).toNat + 1)) →
      ∃ x, decodeEnc (.e64 r) = .error x))

/-- R50, R62, R63, R129, R130: a transfer that is taken and lands goes to its target; JL and LOOP push, JL also enters
the return-address stack and RET leaves it; a transfer not taken is the next instruction; a follower ignores the
transfer that its own operands would take; a taken transfer to a misaligned target or to one outside the scratchpad
raises cause 0x03, to window offset 28 cause 0x02, at the target, and pushes nothing. The model's own choices in it,
and no rules of the manual, by rows of the assumption log: log 19 (branch targets and the trap handler of a memory
core use the size of its own buffer; a fetch and the trap frames end at 0x6_0000 on every core); log 20 (A taken
transfer to an address past the scratchpad faults at the transfer); log 21 (A transfer to window offset 28 faults at
its target); log 31 (gang followers run exactly their skew behind their leader, and a follower's own transfers do not
steer it); log 135 (the return-address stack decides no result but the cycles of a RET). -/
def Obligations.ControlTransfers : Prop :=
  ((∀ (s : State) (c : Cond) (a b : Src) (off : W32), s.me.follows = false →
     branchTaken c (s.raw 0 a) (s.raw 0 b) = true → Lands s (s.me.regs.pc + off) →
     ∃ t, exec (.br c a b off) s = .next t ∧ Jumped s t (s.me.regs.pc + off) 2 ∧ KeepsAllRegs s t) ∧
   (∀ (s : State) (c : Cond) (a b : Src) (off : W32), branchTaken c (s.raw 0 a) (s.raw 0 b) = false →
     ∃ t, exec (.br c a b off) s = .next t ∧ Passed s t 8) ∧
   (∀ (s : State) (off : W32), s.me.follows = false → Lands s (s.me.regs.pc + off) →
     ∃ t, exec (.j off) s = .next t ∧ Jumped s t (s.me.regs.pc + off) 2 ∧ KeepsAllRegs s t) ∧
   (∀ (s : State) (d : Dst) (off : W32), s.me.follows = false → Lands s (s.me.regs.pc + off) →
     ∃ t, exec (.jl d off) s = .next t ∧ Jumped s t (s.me.regs.pc + off) 2 ∧
       Pushed s t d ((nextPc s.me.regs.pc 8).setWidth 64) ∧
       t.me.regs.ras = (nextPc s.me.regs.pc 8 :: s.me.regs.ras).take 4) ∧
   (∀ (s : State) (a : Src) (imm : W32), s.me.follows = false → Lands s ((s.raw imm a).setWidth 32) →
     ∃ t, exec (.jr a imm) s = .next t ∧ Jumped s t ((s.raw imm a).setWidth 32) 2 ∧ KeepsAllRegs s t) ∧
   (∀ (s : State) (a : Src) (imm : W32), s.me.follows = false → Lands s ((s.raw imm a).setWidth 32) →
     ∃ t, exec (.ret a imm) s = .next t ∧
       Jumped s t ((s.raw imm a).setWidth 32) (if s.me.regs.ras.head? = some ((s.raw imm a).setWidth 32) then 1 else 2) ∧
       t.me.regs.ras = s.me.regs.ras.drop 1 ∧ t.me.regs.w = s.me.regs.w ∧ t.me.regs.k = s.me.regs.k) ∧
   (∀ (s : State) (d : Dst) (a : Src) (off : W32), s.me.follows = false → s.raw 0 a ≠ 1 →
     Lands s (s.me.regs.pc + off) →
     ∃ t, exec (.loop d a off) s = .next t ∧ Jumped s t (s.me.regs.pc + off) 2 ∧ Pushed s t d (s.raw 0 a - 1)) ∧
   (∀ (s : State) (d : Dst) (a : Src) (off : W32), s.raw 0 a = 1 →
     ∃ t, exec (.loop d a off) s = .next t ∧ Result s t d 0 8)) ∧
  (∀ (s : State) (c : Cond) (a b : Src) (off imm : W32) (d : Dst), s.me.follows = true →
     (∃ t, exec (.br c a b off) s = .next t ∧ Passed s t 8) ∧ (∃ t, exec (.j off) s = .next t ∧ Passed s t 8) ∧
     (∃ t, exec (.jr a imm) s = .next t ∧ Passed s t 8) ∧
     (s.raw 0 a ≠ 1 → ∃ t, exec (.loop d a off) s = .next t ∧ Pushed s t d (s.raw 0 a - 1) ∧ Over s t 8)) ∧
  (∀ (s : State) (a b : Src) (off imm : W32) (c : Cond) (d : Dst) (target : W32), s.me.follows = false →
     let all (t : State) : Prop :=
       (s.me.regs.pc + off = target →
         exec (.j off) s = .next t ∧ exec (.jl d off) s = .next t ∧
         (branchTaken c (s.raw 0 a) (s.raw 0 b) = true → exec (.br c a b off) s = .next t) ∧
         (s.raw 0 a ≠ 1 → exec (.loop d a off) s = .next t)) ∧
       ((s.raw imm a).setWidth 32 = target → exec (.jr a imm) s = .next t ∧ exec (.ret a imm) s = .next t)
     (target.toNat % 4 ≠ 0 ∨ padSize s.curCore ≤ target.toNat → all (s.raise 0x03 (target.setWidth 64))) ∧
     (target.toNat % 32 = 28 → target.toNat < padSize s.curCore → all (s.raiseAt 0x02 false 0 target)))

/-- R75: a REP whose body fetches starts pass 0 at the next instruction; with a count of 0 or a body that R75 forbids
it raises the repetition fault. The model's own choices in it, and no rules of the manual, by rows of the assumption
log: log 142 (A word of a repetition's body that is fetched and is no instruction stands there until it is reached;
one of 96 or 128 bits makes REP raise cause 0x04). -/
def Obligations.Repetition : Prop :=
  (∀ (s : State) (n : BitVec 16) (len : BitVec 4) (stag : BitVec 3) (body : List (W32 × Instr)) (z : W32),
    n ≠ 0 → body.length = len.toNat + 1 → repBody s.mem s.curCore body (nextPc s.me.regs.pc 8) z →
    ∃ t, exec (.rep n len stag) s = .next t ∧
      t.me.rep = some ⟨(0 : BitVec 9) ++ stag ++ len ++ n, nextPc s.me.regs.pc 8, body, 0, 0, z⟩ ∧
      t.me.regs.pc = nextPc s.me.regs.pc 8 ∧ t.me.shift = 0 ∧ NoPush s t ∧ OnlyMe s t) ∧
  (∀ (s : State) (n : BitVec 16) (len : BitVec 4) (stag : BitVec 3) (r : Rep),
    repAt s.mem s.curCore ((0 : BitVec 9) ++ stag ++ len ++ n) (nextPc s.me.regs.pc 8) = some r →
    ∃ t, exec (.rep n len stag) s = .next t ∧ t.me.rep = some r ∧ r.pass = 0 ∧ r.idx = 0 ∧ r.passes = n.toNat ∧
      r.stagger = stag.toNat ∧ r.body.length = len.toNat + 1 ∧ t.me.regs.pc = nextPc s.me.regs.pc 8 ∧
      t.me.shift = 0 ∧ OnlyMe s t) ∧
  (∀ (s : State) (len : BitVec 4) (stag : BitVec 3), exec (.rep 0 len stag) s = .next (s.raise 0x04 0)) ∧
  (∀ (s : State) (n : BitVec 16) (len : BitVec 4) (stag : BitVec 3) (l : List (W32 × Instr)) (z : W32) (i : Instr) (k : Nat),
    l.length ≤ len.toNat → repBody s.mem s.curCore l (nextPc s.me.regs.pc 8) z →
    fetchAt s.mem s.curCore z.toNat = .ok (i, k) → (k ≠ 8 ∨ notInBody i = true) →
    exec (.rep n len stag) s = .next (s.raise 0x04 0)) ∧
  (∀ (t : Thread) (r : Rep) (len : Nat), t.rep = some r → r.body[r.idx + 1]? = none →
    (r.pass + 1 < r.passes → (t.advance len).rep = some { r with pass := r.pass + 1, idx := 0 } ∧
      (t.advance len).regs.pc = r.start ∧ (t.advance len).shift = (r.pass + 1) * r.stagger % 8) ∧
    (r.passes ≤ r.pass + 1 → (t.advance len).rep = none ∧ (t.advance len).regs.pc = r.after ∧
      (t.advance len).shift = 0))

/-- R132-R134 and R117: each scalar floating-point instruction completes in every state and pushes the exact result of
its table rounded once; only an instruction that rounds stochastically steps the generator; and the special cases of
the table of R132 hold at every operand that a row covers (`x` is a finite operand that is not zero). The model's own
choices in it, and no rules of the manual, by rows of the assumption log: log 18 (FCVT's specifier 0xE reads the lane
or endpoint identity as for other scalar instructions); log 22 (results of more than one cycle are known by the core's
own cycle count); log 130 (exp2 and log2 are rounded from fixed-point values of 224 fraction bits). -/
def Obligations.FloatResults : Prop :=
  (∀ (i : Instr) (s : State) (d : Dst) (v : Word) (rm : Option Rnd), floatTable s i = some (d, v, rm) →
     ∃ t, exec i s = .next t ∧ Result s t d v 8 ∧
       t.me.regs.rng = if rm = some .rsr then rngStep s.me.regs.rng else s.me.regs.rng) ∧
  (∀ (rm : Rnd) (z : Bool) (g : W32) (o : Op2) (u : Op1) (c : Word),
     let fdiv a b := lateValue (.fdiv rm z o) (BitVec.ofNat 64 a) (BitVec.ofNat 64 b) c g
     let fsqrt a := lateValue (.fsqrt rm z u) (BitVec.ofNat 64 a) 0 c g
     let frsq a := lateValue (.frsq rm z u) (BitVec.ofNat 64 a) 0 c g
     let fexp2 a := lateValue (.fexp2 rm z u) (BitVec.ofNat 64 a) 0 c g
     let flog2 a := lateValue (.flog2 rm z u) (BitVec.ofNat 64 a) 0 c g
     (∀ x sx sy : Nat, (if z then 0x00800000 else 1) ≤ x → x < 0x7F800000 → sx < 2 → sy < 2 →
       fdiv (sx * 2 ^ 31 + x) (sy * 2 ^ 31) = BitVec.ofNat 64 ((sx + sy) % 2 * 2 ^ 31 + 0x7F800000) ∧
       fdiv (sx * 2 ^ 31 + x) (sy * 2 ^ 31 + 0x7F800000) = BitVec.ofNat 64 ((sx + sy) % 2 * 2 ^ 31)) ∧
     (∀ sx sy : Nat, sx < 2 → sy < 2 → fdiv (sx * 2 ^ 31) (sy * 2 ^ 31) = 0x7FC00000 ∧
       fdiv (sx * 2 ^ 31 + 0x7F800000) (sy * 2 ^ 31 + 0x7F800000) = 0x7FC00000) ∧
     fsqrt 0x80000000 = 0x80000000 ∧ fsqrt 0x7F800000 = 0x7F800000 ∧
     (∀ x : Nat, (if z then 0x80800000 else 0x80000001) ≤ x → x ≤ 0xFF800000 → fsqrt x = 0x7FC00000 ∧ frsq x = 0x7FC00000 ∧ flog2 x = 0x7FC00000) ∧
     frsq 0 = 0x7F800000 ∧ frsq 0x80000000 = 0xFF800000 ∧ frsq 0x7F800000 = 0 ∧
     fexp2 0xFF800000 = 0 ∧ fexp2 0x7F800000 = 0x7F800000 ∧
     flog2 0 = 0xFF800000 ∧ flog2 0x80000000 = 0xFF800000 ∧ flog2 0x3F800000 = 0 ∧ flog2 0x7F800000 = 0x7F800000)

/-! ### Memory instructions -/

/-- R227: a load of the own scratchpad or buffer pushes the value of its bytes at the type; one in a guard granule
pushes zero and is a touch (R247). LDAQ does so where its condition holds on the value, and parks where it fails
(R231). The model's own choices in it, and no rules of the manual, by rows of the assumption log: log 9 (memory order
is one single order, and near accesses of a core happen at issue in program order). -/
def Obligations.NearLoads : Prop :=
  (∀ (s : State) (ty : IntTy) (sc : Scope) (acq : Bool) (d : Dst) (a : Src) (off : W32) (x : Nat),
    checkRef s.curCore (reachLoad s.curCore) (s.ea a off) (intBytes ty) = .ok (.pad x) →
    ∃ t, exec (.ld ty sc acq d a off) s = .next t ∧ Over s t 8 ∧ NearFrame s t ∧ t.mem = s.mem ∧
      ((s.core s.curCore).guarded x = false → Pushed s t d (nearValue s ty x) ∧
        t.me.regs.gtouch = s.me.regs.gtouch) ∧
      ((s.core s.curCore).guarded x = true → Pushed s t d 0 ∧
        t.me.regs.gtouch = touched s.me.regs.gtouch false x)) ∧
  (∀ (s : State) (ty : IntTy) (sc : Scope) (c : Cond) (d : Dst) (a b : Src) (x : Nat),
    checkRef s.curCore (reachLoad s.curCore) (s.raw 0 a) (intBytes ty) = .ok (.pad x) →
    let v := if (s.core s.curCore).guarded x then 0 else nearValue s ty x
    (branchTaken c v (s.raw 0 b) = true →
      ∃ t, exec (.ldaq ty sc c d a b) s = .next t ∧ Pushed s t d v ∧ Over s t 8 ∧ NearFrame s t ∧ t.mem = s.mem) ∧
    (branchTaken c v (s.raw 0 b) = false →
      ∃ t, exec (.ldaq ty sc c d a b) s = .next t ∧ t.me.wait = .reload ∧ NoPush s t ∧
        t.me.regs.pc = s.me.regs.pc ∧ OnlyMe s t))

/-- R227, R232: a store to the own scratchpad or buffer writes the low bytes of its datum and no other byte; one in a
guard granule writes nothing. A release waits while accesses of its unit that stand before it at its scope are in
flight (R230). The model's own choices in it, and no rules of the manual, by rows of the assumption log: log 9 (memory
order is one single order, and near accesses of a core happen at issue in program order). -/
def Obligations.NearStores : Prop :=
  ∀ (s : State) (ty : IntTy) (sc : Scope) (rel : Bool) (a b : Src) (off : W32) (x : Nat), Safe s →
    checkRef s.curCore (reachStore s.curCore) (s.ea a off) (intBytes ty) = .ok (.pad x) →
    ((s.relWaits sc = false ∨ rel = false) →
      ∃ t, exec (.st ty sc rel a b off) s = .next t ∧ Over s t 8 ∧ NoPush s t ∧ NearFrame s t ∧
        ((s.core s.curCore).guarded x = false →
          t.mem.readNat (intBytes ty) (padKey s.curCore x) = (s.raw 0 b).toNat % 2 ^ intBits ty ∧
          SameBut s t (padKey s.curCore x) (intBytes ty)) ∧
        ((s.core s.curCore).guarded x = true → t.mem = s.mem ∧
          t.me.regs.gtouch = touched s.me.regs.gtouch true x)) ∧
    (s.relWaits sc = false → (s.core s.curCore).guarded x = false →
      ∃ t, exec (.strl ty sc a b off) s = .next t ∧ Over s t 8 ∧ NoPush s t ∧ NearFrame s t ∧
        t.mem.readNat (intBytes ty) (padKey s.curCore x) = (s.raw 0 b).toNat % 2 ^ intBits ty ∧
        SameBut s t (padKey s.curCore x) (intBytes ty)) ∧
    (s.ownReqs s.cur = [] → s.relWaits sc = false) ∧
    (s.relWaits sc = true →
      (∃ t r, exec (.st ty sc true a b off) s = .next t ∧ t.reqs = s.reqs ++ [r] ∧ r.own = true ∧ r.rel = true ∧
        r.va = x ∧ t.mem = s.mem ∧ t.me.occ = s.me.occ ∧ t.me.wait = s.me.wait) ∧
      (∃ t r, exec (.strl ty sc a b off) s = .next t ∧ t.reqs.length = s.reqs.length + 1 ∧ t.reqs.getLast? = some r ∧
        r.own = true ∧ r.va = x ∧ t.mem = s.mem ∧ t.me.wait = .op r.id))

/-- R233-R235: an atomic on the own scratchpad reads its old value, writes the new one and pushes the old; CAS writes
only where the old value is the expected one; a release among them waits for the accesses in flight that stand before
it. The model's own choices in it, and no rules of the manual, by rows of the assumption log: log 9 (memory order is
one single order, and near accesses of a core happen at issue in program order). -/
def Obligations.NearAtomics : Prop :=
  ∀ (s : State) (ty : IntTy) (sc : Scope) (o : Ord) (op : AmoOp) (d : Dst) (a b : Src) (x : Nat), Safe s →
    checkRef s.curCore (reachAtomic s.curCore) (s.raw 0 a) (intBytes ty) = .ok (.pad x) →
    let waits := (o = .rel ∨ o = .ar) ∧ s.relWaits sc = true
    let k := padKey s.curCore x
    let old := s.mem.readNat (intBytes ty) k
    (waits → (∃ t r, exec (.amo ty sc o op d a b) s = .next t ∧ Reserved s t d false ∧ t.reqs = s.reqs ++ [r] ∧
        r.own = true ∧ r.rel = true ∧ r.va = x ∧ t.mem = s.mem ∧ t.me.occ = s.me.occ) ∧
      (∃ t r, exec (.cas ty sc o d a b) s = .next t ∧ Reserved s t d false ∧ t.reqs = s.reqs ++ [r] ∧
        r.own = true ∧ r.rel = true ∧ r.va = x ∧ t.mem = s.mem ∧ t.me.occ = s.me.occ)) ∧
    (¬ waits →
    ((s.core s.curCore).guarded x = true →
      (∃ t, exec (.amo ty sc o op d a b) s = .next t ∧ Pushed s t d 0 ∧ Over s t 8 ∧ NearFrame s t ∧ t.mem = s.mem) ∧
      (∃ t, exec (.cas ty sc o d a b) s = .next t ∧ Pushed s t d 0 ∧ Over s t 8 ∧ NearFrame s t ∧ t.mem = s.mem)) ∧
    ((s.core s.curCore).guarded x = false →
    (∃ t, exec (.amo ty sc o op d a b) s = .next t ∧ Pushed s t d (nearValue s ty x) ∧ Over s t 8 ∧ NearFrame s t ∧
      t.mem.readNat (intBytes ty) k = atomicTable ty op old ((s.raw 0 b).toNat % 2 ^ intBits ty) ∧
      SameBut s t k (intBytes ty)) ∧
    (∃ t, exec (.cas ty sc o d a b) s = .next t ∧ Pushed s t d (nearValue s ty x) ∧ Over s t 8 ∧ NearFrame s t ∧
      SameBut s t k (intBytes ty) ∧
      (old = s.w0.toNat % 2 ^ intBits ty → t.mem.readNat (intBytes ty) k = (s.raw 0 b).toNat % 2 ^ intBits ty) ∧
      (old ≠ s.w0.toNat % 2 ^ intBits ty → t.mem = s.mem))))

/-- R228, R229, R231-R233: an access to far memory or to a peer's scratchpad is put in flight; its count rises, no
byte changes yet, and the thread goes on, but for LDAQ and STRL, which hold it. The model's own choices in it, and no
rules of the manual, by rows of the assumption log: log 9 (memory order is one single order, and near accesses of a
core happen at issue in program order). -/
def Obligations.FarAccessesIssue : Prop :=
  ∀ (s : State) (ty : IntTy) (sc : Scope) (f : Bool) (o : Ord) (op : AmoOp) (c : Cond) (k : Fin 8) (d : Dst) (a b : Src)
    (off : W32) (va p : Nat) (q : Option Nat), s.me.occ.ld < 63 → s.me.occ.st < 63 →
    let n := intBytes ty
    let datum := BitVec.ofNat 64 ((s.raw 0 b).toNat % 2 ^ intBits ty)
    (checkRef s.curCore (reachLoad s.curCore) (s.ea a off) n = .ok (.far va) →
      ∃ t, exec (.ld ty sc f d a off) s = .next t ∧ InFlight s t (.load ty) none va n f false ∧
        Reserved s t d false ∧ Over s t 8) ∧
    (checkRef s.curCore (reachStore s.curCore) (s.ea a off) n = .ok (.far va) →
      (∃ t, exec (.st ty sc f a b off) s = .next t ∧ InFlight s t (.store n datum) none va n false f ∧ NoPush s t ∧
        Over s t 8) ∧
      (∃ t r, exec (.strl ty sc a b off) s = .next t ∧ t.reqs.getLast? = some r ∧ r.kind = .store n datum ∧ r.va = va ∧
        r.rel = true ∧ r.holds = true ∧ t.me.wait = .op r.id ∧ t.me.occ = s.me.occ.up 1 ∧ ReelsOnly s t)) ∧
    (checkRef s.curCore (reachPeer s.curCore) (s.ea a off) n = .ok (.peer p va) →
      (∃ t, exec (.ldp ty sc f k a off) s = .next t ∧ InFlight s t (.load ty) (some p) va n f false ∧ NoPush s t ∧
        (∃ id, t.me.pend.getLast? = some ⟨id, none, some (renamed s.me.shift k), false, none, none⟩) ∧ Over s t 8) ∧
      (∃ t, exec (.stp ty sc f a b off) s = .next t ∧ InFlight s t (.store n datum) (some p) va n false f ∧
        NoPush s t ∧ Over s t 8)) ∧
    (checkRef s.curCore (reachLoad s.curCore) (s.raw 0 a) n = .ok (.far va) →
      ∃ t, exec (.ldaq ty sc c d a b) s = .next t ∧ InFlight s t (.ldaq ty c (s.raw 0 b) d) none va n true false ∧
        NoPush s t ∧ t.me.regs.pc = s.me.regs.pc ∧ ∃ id, t.me.wait = .ldaq id) ∧
    (checkRef s.curCore (reachAtomic s.curCore) (s.raw 0 a) n =
        .ok (match q with | none => .far va | some c => .peer c va) →
      (∃ t, exec (.amo ty sc o op d a b) s = .next t ∧
        InFlight s t (.amo ty op (s.raw 0 b)) q va n (o == .acq || o == .ar) (o == .rel || o == .ar) ∧
        Reserved s t d false ∧ Over s t 8) ∧
      (∃ t, exec (.cas ty sc o d a b) s = .next t ∧
        InFlight s t (.cas ty (BitVec.ofNat 64 (s.w0.toNat % 2 ^ intBits ty)) datum) q va n
          (o == .acq || o == .ar) (o == .rel || o == .ar) ∧
        Reserved s t d false ∧ Over s t 8))

/-- R222-R224: a misaligned reference raises cause 0x0B, and one that leaves its space or names one that the
instruction does not reach raises 0x0A, at the instruction with the reference as its detail. The model's own choices
in it, and no rules of the manual, by rows of the assumption log: log 170 (A reference that is misaligned and leaves
its space raises the alignment fault). -/
def Obligations.AccessFaults : Prop :=
  (∀ (s : State) (ty : IntTy) (sc : Scope) (f : Bool) (o : Ord) (op : AmoOp) (c : Cond) (k : Fin 8) (d : Dst) (a b : Src)
      (off : W32) (e : Nat),
    let n := intBytes ty
    (checkRef s.curCore (reachLoad s.curCore) (s.ea a off) n = .error e →
      exec (.ld ty sc f d a off) s = .next (s.raise e (s.ea a off))) ∧
    (checkRef s.curCore (reachStore s.curCore) (s.ea a off) n = .error e →
      exec (.st ty sc f a b off) s = .next (s.raise e (s.ea a off)) ∧
      exec (.strl ty sc a b off) s = .next ((s.raise e (s.ea a off)))) ∧
    (checkRef s.curCore (reachPeer s.curCore) (s.ea a off) n = .error e →
      exec (.ldp ty sc f k a off) s = .next (s.raise e (s.ea a off)) ∧
      exec (.stp ty sc f a b off) s = .next (s.raise e (s.ea a off))) ∧
    (checkRef s.curCore (reachLoad s.curCore) (s.raw 0 a) n = .error e →
      exec (.ldaq ty sc c d a b) s = .next (s.raise e (s.raw 0 a))) ∧
    (checkRef s.curCore (reachAtomic s.curCore) (s.raw 0 a) n = .error e →
      exec (.amo ty sc o op d a b) s = .next (s.raise e (s.raw 0 a)) ∧
      exec (.cas ty sc o d a b) s = .next (s.raise e (s.raw 0 a)))) ∧
  (∀ (core : Nat) (r : Reach) (x n : Nat), n = 1 ∨ n = 2 ∨ n = 4 ∨ n = 8 → x < 2 ^ 28 →
    (r.own = false → checkRef core r (BitVec.ofNat 64 x) n = .error 0x0A) ∧
    (r.own = true → x % n ≠ 0 → checkRef core r (BitVec.ofNat 64 x) n = .error 0x0B) ∧
    (r.own = true → x % n = 0 → padSize core < x + n → checkRef core r (BitVec.ofNat 64 x) n = .error 0x0A) ∧
    (r.own = true → x % n = 0 → x + n ≤ padSize core → checkRef core r (BitVec.ofNat 64 x) n = .ok (.pad x))) ∧
  (∀ (core : Nat) (r : Reach) (va n : Nat), n = 1 ∨ n = 2 ∨ n = 4 ∨ n = 8 → va < 2 ^ 57 →
    let ea := BitVec.ofNat 64 (2 ^ 63 + va)
    (r.far = false → checkRef core r ea n = .error 0x0A) ∧
    (r.far = true → va % n ≠ 0 → checkRef core r ea n = .error 0x0B) ∧
    (r.far = true → va % n = 0 → checkRef core r ea n = .ok (.far va)))

/-- R237-R239, R242, R243: a fence holds later operations for the accesses in flight of its predecessor set; the waits
go on when every count is at or below its threshold, and wait otherwise; the counters are written and read by their
word. The model's own choices in it, and no rules of the manual, by rows of the assumption log: log 10 (the scope of
each operation that encodes none); log 12 (an operation that takes its place at issue waits until the accesses that it
orders after are done). -/
def Obligations.FencesWaitsCounters : Prop :=
  (∀ (s : State) (sc : Scope) (p q : BitVec 5), ∃ t, exec (.fence sc p q) s = .next t ∧ NoPush s t ∧ Over s t 8 ∧
    OnlyMe s t ∧ ∀ r, r ∈ s.ownReqs s.cur → r.kind.classes &&& p.toNat ≠ 0 →
      ∃ ids, (ids, q.toNat, sc) ∈ t.me.fences ∧ r.id ∈ ids) ∧
  (∀ (s : State) (ld st cp tl : BitVec 6), s.me.occ.ld ≤ ld.toNat → s.me.occ.st ≤ st.toNat → s.me.occ.cp ≤ cp.toNat →
    s.me.occ.tl ≤ tl.toNat →
    ∃ t, exec (.waitc ld st cp tl) s = .next t ∧ Over s t 8 ∧ KeepsAllRegs s t ∧ OthersSame s t ∧
      { t with threads := s.threads, floors := s.floors } = s) ∧
  (∀ (s : State) (ld st cp tl : BitVec 6), (ld.toNat < s.me.occ.ld ∨ st.toNat < s.me.occ.st ∨ cp.toNat < s.me.occ.cp ∨
    tl.toNat < s.me.occ.tl) → exec (.waitc ld st cp tl) s = .next s) ∧
  (∀ (s : State) (x : Fin 16) (n : BitVec 10), (s.core s.curCore).cn[x].toNat ≤ n.toNat →
    ∃ t, exec (.waitcn x n) s = .next t ∧ Over s t 8 ∧ KeepsAllRegs s t ∧ OthersSame s t ∧
      { t with threads := s.threads, floors := s.floors } = s) ∧
  (∀ (s : State) (x : Fin 16) (n : BitVec 10), n.toNat < (s.core s.curCore).cn[x].toNat →
    exec (.waitcn x n) s = .next s) ∧
  (∀ (s : State) (d : Dst) (x : Fin 16) (v : BitVec 10) (r : Option Src),
    let old := (s.core s.curCore).cn[x].toNat + if (s.core s.curCore).uf.getLsbD x.val then 1024 else 0
    (∃ t, exec (.cnset d x v r) s = .next t ∧ Pushed s t d (BitVec.ofNat 64 old) ∧ Over s t 8 ∧ KeepsRegs s t ∧
      { t with threads := s.threads, cores := s.cores } = s ∧ (∀ c, c ≠ s.curCore → t.core c = s.core c) ∧
      (∀ y : Fin 16, (t.core s.curCore).cn[y] = if y = x then
        (match r with | none => v | some a => (s.raw 0 a).setWidth 10) else (s.core s.curCore).cn[y]) ∧
      (∀ y : Fin 16, (t.core s.curCore).uf.getLsbD y.val = ((s.core s.curCore).uf.getLsbD y.val && y != x))) ∧
    (∃ t, exec (.cnget d x) s = .next t ∧ Result s t d (BitVec.ofNat 64 old) 8))

/-- R244-R246: GALLOC places a block in the heap that meets no live block and pushes where its bytes start, or pushes
zero; GFREE takes a block away by that address, any other address of the core's scratchpad or buffer raises cause
0x0C, and any other reference cause 0x0A (R222, R223). -/
def Obligations.Heap : Prop :=
  (∀ (s : State) (d : Dst) (a : Src) (imm : W32),
    let k := s.core s.curCore
    let n := (s.srcOf (imm.setWidth 64) a).toNat
    let l := 64 * ((n + 63) / 64) + 128
    ∃ t, exec (.galloc d a imm) s = .next t ∧ Over s t 8 ∧ KeepsRegs s t ∧
      { t with threads := s.threads, cores := s.cores } = s ∧
      ((∃ o, (t.core s.curCore).blocks = k.blocks ++ [(o, l)] ∧ Pushed s t d (BitVec.ofNat 64 (o + 64)) ∧
          fld k.heap 0 32 ≤ o ∧ o + l ≤ fld k.heap 0 32 + fld k.heap 32 20 ∧
          ∀ b m, (b, m) ∈ k.blocks → b + m ≤ o ∨ o + l ≤ b) ∨
        (t.core s.curCore = k ∧ Pushed s t d 0))) ∧
  (∀ (s : State) (d : Dst) (a : Src) (imm : W32),
    let k := s.core s.curCore
    let n := (s.srcOf (imm.setWidth 64) a).toNat
    let l := 64 * ((n + 63) / 64) + 128
    0 < n → n + 128 ≤ fld k.heap 32 20 → k.blocks.length < 64 → k.blocks = [] → l ≤ fld k.heap 32 20 →
    ∃ t, exec (.galloc d a imm) s = .next t ∧ (t.core s.curCore).blocks = [(fld k.heap 0 32, l)]) ∧
  (∀ (s : State) (a : Src) (o l : Nat), (o, l) ∈ (s.core s.curCore).blocks → (s.raw 0 a).toNat = o + 64 →
    o + 64 < padSize s.curCore →
    ∃ t, exec (.gfree a) s = .next t ∧ Over s t 8 ∧ NoPush s t ∧ { t with threads := s.threads, cores := s.cores } = s ∧
      ∀ b, b ∈ (t.core s.curCore).blocks ↔ b ∈ (s.core s.curCore).blocks ∧ b.1 ≠ o) ∧
  (∀ (s : State) (a : Src), (s.raw 0 a).toNat < padSize s.curCore →
    (∀ b, b ∈ (s.core s.curCore).blocks → b.1 + 64 ≠ (s.raw 0 a).toNat) →
    exec (.gfree a) s = .next (s.raise 0x0C (s.raw 0 a))) ∧
  (∀ (s : State) (a : Src), padSize s.curCore ≤ (s.raw 0 a).toNat →
    exec (.gfree a) s = .next (s.raise 0x0A (s.raw 0 a)))
/-! ### Accesses in flight -/

/-- R374, R375: a far access whose translation succeeds gets its landing and stays in flight; one whose translation
fails sends its fault message to the pager, lands nowhere, and is over. The model's own choices in it, and no rules of
the manual, by rows of the assumption log: log 82 (A walk ends at the step of its request's translation). -/
def Obligations.FarTranslation : Prop :=
  ∀ (s : State) (id : Nat) (r : Req), s.findReq id = some r → r.peer = none → r.own = false → r.sent = false →
    r.land = none →
    let die := s.walkerDie (epDie r.ep) (s.partOf (epCore r.ep))
    let x := (s.leaveWalk die id).translate r.ctx r.va r.size r.kind.access r.kind.atomic die
    (s.mayWalk die id r.ctx r.va = false →
      ∃ t, exec (.farAccessTranslate id) s = .next t ∧ t.reqs = s.reqs ∧ t.threads = s.threads ∧ t.msgs = s.msgs ∧
        ReelsOnly s t ∧ (s.cached r.ctx r.va die = false → id ∈ t.walkQ die)) ∧
    (s.mayWalk die id r.ctx r.va = true →
    (∀ l, x.1 = .ok l → x.2.hostOwned l.phys = false →
      ∃ t, exec (.farAccessTranslate id) s = .next t ∧
        t.findReq id = some { r with land := some l, migrating := false,
                                     sc := if (x.2.place l.phys).outside then .sys else r.sc } ∧
        t.mem = s.mem ∧ t.threads = s.threads ∧ t.msgs = s.msgs) ∧
    (∀ l, x.1 = .ok l → x.2.hostOwned l.phys = true →
      ∃ t, exec (.farAccessTranslate id) s = .next t ∧ t.findReq id = some { r with migrating := true } ∧
        t.mem = s.mem ∧ t.threads = s.threads ∧
        (l.phys / 2 ^ 16 ∈ t.migFaults ∨ x.2.handingOver (l.phys / 2 ^ 16) = true)) ∧
    (∀ f n v, x.1 = .error f → r.kind = .store n v → f.cause < 256 → (s.sysReg .pager r.ctx die).getLsbD 63 = true →
      s.unitAlive r.ep r.uid = true → (r.det = true ∨ 1 < (s.launch (s.partOf (epCore r.ep)) r.launch).acks) →
      ∃ t m, exec (.farAccessTranslate id) s = .next t ∧ t.findReq id = none ∧ t.msgs = s.msgs ++ [m] ∧
        m.dest = fld (s.sysReg .pager r.ctx die) 0 18 ∧ hdrClass m.hdr = 2 ∧
        (m.payload.getD 0 0).extractLsb' 56 8 = BitVec.ofNat 8 f.cause))

/-- R228, R229, R374: a load in flight that is in its order takes the bytes of HBM4E at its landing, or of the peer's
scratchpad, and its value arrives in the registers that it reserved; no byte changes. The model's own choices in it,
and no rules of the manual, by rows of the assumption log: log 9 (memory order is one single order, and near accesses
of a core happen at issue in program order); log 14 (an access of at most 64 bytes, and a vector operand, is performed
in one step); log 119 (bytes read from a host's or a peer's memory are inputs). -/
def Obligations.LoadsArrive : Prop :=
  ∀ (s : State) (id : Nat) (r : Req) (ty : IntTy) (p : Pend) (rest : List Pend) (data : List Byte),
    s.findReq id = some r → r.kind = .load ty → r.own = false → s.reqReady r data = true → s.unitHere r.ep r.uid = true →
    takeFirst (·.id == id) (s.thr r.ep).pend = some (p, rest) → (s.thr r.ep).keeps p = false →
    (∀ (l : Landing) (ch : Nat), r.peer = none → r.land = some l → s.place l.phys = .hbm ch →
      let v := extend (intBits ty) ty.signed (leNat (s.physRead l r.size))
      ∃ t, exec (.farAccessAck id data) s = .next t ∧ t.findReq id = none ∧ t.mem = s.mem ∧ Arrived s t r.ep p v) ∧
    (∀ c : Nat, r.peer = some c → r.land = none → (s.core c).guarded r.va = false → data = [] → r.size ≤ 8 →
      let v := extend (intBits ty) ty.signed (s.mem.readNat r.size (padKey c r.va))
      (∃ t, exec (.ldpArrival id) s = .next t ∧ t.findReq id = none ∧ t.mem = s.mem ∧ Arrived s t r.ep p v) ∧
      (∃ t, exec (.farAccessAck id data) s = .next t ∧ t.findReq id = none ∧ t.mem = s.mem ∧ Arrived s t r.ep p v))

/-- R229, R230, R405: a store in flight that is in its order writes its bytes at its landing and no other, and is
over: its count falls. The model's own choices in it, and no rules of the manual, by rows of the assumption log: log 9
(memory order is one single order, and near accesses of a core happen at issue in program order); log 14 (an access of
at most 64 bytes, and a vector operand, is performed in one step). -/
def Obligations.StoresArrive : Prop :=
  ∀ (s : State) (id n ch : Nat) (r : Req) (v : Word) (l : Landing) (data : List Byte), Safe s →
    s.findReq id = some r → r.kind = .store n v → n = r.size → n ≤ 8 → r.own = false → r.peer = none →
    r.land = some l → s.place l.phys = .hbm ch → l.sealed = false → s.sealedIn l.phys n = false →
    s.reqReady r data = true →
    (r.det = true ∨ 1 < (s.launch (s.partOf (epCore r.ep)) r.launch).acks) →
    ∃ t, exec (.farAccessAck id data) s = .next t ∧ t.findReq id = none ∧
      t.mem.readNat n (physKey l.phys) = v.toNat % 256 ^ n ∧ SameBut s t (physKey l.phys) n ∧
      (s.unitHere r.ep r.uid = true → (t.thr r.ep).occ = (s.thr r.ep).occ.down 1)

/-- R231, R261, R262, R456, R470: the reload of a parked LDAQ lets its thread go on; a read that a port does not
answer in time is over with all ones, no byte changed, and the port's error count one higher. A memory core's engine
transfers are put in flight with their count; PLANEW has no plane store there to reach and raises cause 0x0A; a near
MBOX stores its four bytes; a near CREC copies its record and pushes its top word. The model's own choices in it, and
no rules of the manual, by rows of the assumption log: log 54 (the detail word of MBOX and XST translation faults is
the first eight bytes stored); log 55 (CREC accepts a record in the core's own buffer and completes at once); log 56
(XBURST demands 4-byte alignment and raises the memory-alignment fault without it); log 57 (the detail of a PLANEW
fault is its sb operand); log 120 (an outbound read may time out at any moment). -/
def Obligations.EnginesAndReloads : Prop :=
  ((∀ (s : State) (ep : Nat), (s.thr ep).wait = .reload →
     ∃ t, exec (.ldaqReload ep) s = .next t ∧ t.thr ep = { s.thr ep with wait := .none } ∧
       { t with threads := s.threads } = s) ∧
   (∀ (s : State) (id port bus : Nat) (r : Req) (l : Landing) (ty : IntTy) (p : Pend) (rest : List Pend),
     s.findReq id = some r → r.kind = .load ty → r.size = intBytes ty → r.peer = none → r.land = some l →
     s.place l.phys = .bus port bus →
     s.reqReady r (List.replicate r.size (BitVec.allOnes 8)) = true → s.unitHere r.ep r.uid = true →
     takeFirst (·.id == id) (s.thr r.ep).pend = some (p, rest) → (s.thr r.ep).keeps p = false → r.own = false →
     ∃ t, exec (.outboundReadTimeout id) s = .next t ∧ t.findReq id = none ∧ t.mem = s.mem ∧
       Arrived s t r.ep p (if ty.signed then BitVec.allOnes 64 else BitVec.ofNat 64 (2 ^ intBits ty - 1)) ∧
       nget 0 t.perr (16 + port) = Nat.min (nget 0 s.perr (16 + port) + 1) 0xFFFFFFFF)) ∧
  (∀ (s : State) (a b : Src) (sc : Scope) (f : Bool) (d : Dst) (len7 : BitVec 7) (len : BitVec 13) (ep : BitVec 18)
     (va x r : Nat), s.me.busy = true → s.me.occ.ld < 63 → s.me.occ.st < 63 →
     let both := checkBoth s.curCore reachFar reachLocal (s.raw 0 a) (s.raw 0 b) 64 64
     let burst := checkBoth s.curCore reachRecord reachRecord (s.raw 0 a) (s.raw 0 b) len.toNat 4
     let record := checkBoth s.curCore reachRecord reachLocal (s.raw 0 a) (s.raw 0 b) 64 64
     (both = .ok (.far va, .pad x) →
       (∃ t, exec (.xld a b sc f) s = .next t ∧ InFlight s t (.lineIn x false) none va 64 f false ∧ NoPush s t ∧
         Over s t 16) ∧
       (∃ t, exec (.xst a b sc f) s = .next t ∧
         InFlight s t (.lineOut (s.unitRead s.cur s.me.unit.uid s.curCore 16 x).1) none va 64 false f ∧ NoPush s t ∧
         Over s t 16)) ∧
     (burst = .ok (.far va, .pad x) → inPage va len.toNat = true →
       ∃ t, exec (.xburst a b len sc ep false) s = .next t ∧
         InFlight s t (.burstIn x len.toNat) none va len.toNat false false ∧ NoPush s t ∧ Over s t 16) ∧
     (burst = .ok (.pad x, .far va) → inPage va len.toNat = true →
       ∃ t, exec (.xburst a b len sc ep false) s = .next t ∧
         InFlight s t (.burstOut (s.unitRead s.cur s.me.unit.uid s.curCore (len.toNat / 4) x).1) none va len.toNat
           false false ∧ NoPush s t ∧ Over s t 16) ∧
     (checkSpan s.curCore reachFar (s.raw 0 a) len.toNat 4 = .ok (.far va) →
       checkSpan (epCore ep.toNat) reachLocal (s.raw 0 b) len.toNat 4 = .ok (.pad x) → x + len.toNat ≤ 0x60000 →
       inPage va len.toNat = true →
       ∃ t, exec (.xburst a b len sc ep true) s = .next t ∧
         InFlight s t (.burstRemote ep.toNat x len.toNat) none va len.toNat false false ∧ NoPush s t ∧ Over s t 16) ∧
     exec (.planew a b len7) s = .next (s.raise 0x0A (s.raw 0 b)) ∧
     (checkRef s.curCore reachRecord (s.raw 0 a) 4 = .ok (.far va) →
       ∃ t, exec (.mbox a b sc) s = .next t ∧
         InFlight s t (.store 4 (BitVec.ofNat 64 ((s.raw 0 b).toNat % 2 ^ 32))) none va 4 false true ∧ NoPush s t ∧
         Over s t 16) ∧
     (checkRef s.curCore reachRecord (s.raw 0 a) 4 = .ok (.pad x) → s.relWaits sc = true →
       ∃ t r, exec (.mbox a b sc) s = .next t ∧ t.reqs = s.reqs ++ [r] ∧ r.own = true ∧ r.rel = true ∧ r.va = x ∧
         t.mem = s.mem ∧ t.me.occ = s.me.occ ∧ NoPush s t ∧ Over s t 16) ∧
     (Safe s → checkRef s.curCore reachRecord (s.raw 0 a) 4 = .ok (.pad x) → s.relWaits sc = false →
       (s.core s.curCore).guarded x = false →
       ∃ t, exec (.mbox a b sc) s = .next t ∧ t.mem.readNat 4 (padKey s.curCore x) = (s.raw 0 b).toNat % 2 ^ 32 ∧
         SameBut s t (padKey s.curCore x) 4 ∧ NoPush s t ∧ Over s t 16 ∧ NearFrame s t) ∧
     (record = .ok (.far va, .pad x) →
       ∃ t, exec (.crec d a b sc) s = .next t ∧ InFlight s t (.lineIn x true) none va 64 true false ∧
         Reserved s t d false ∧ Over s t 16) ∧
     (Safe s → record = .ok (.pad r, .pad x) → (s.core s.curCore).blocks = [] →
       ∃ t, exec (.crec d a b sc) s = .next t ∧ Over s t 16 ∧ NearFrame s t ∧
         Pushed s t d (s.mem.readWord (padKey s.curCore (r + 56))) ∧
         t.mem.readBytes 64 (padKey s.curCore x) = s.mem.readBytes 64 (padKey s.curCore r) ∧
         SameBut s t (padKey s.curCore x) 64))

/-! ### Messages -/

/-- R319, R320, R321, R324, R325: a send to an endpoint that the partition reaches, with room in the send buffer, puts
one message in flight behind the others, with the thread's registers as its payload, and counts the unit that it
starts; any other destination raises cause 0x05, and a full buffer makes the send wait. SENDX takes its payload from
the scratchpad; with an acknowledgement ST rises until the acceptance; to another package it is a frame of the
connection, and without a connection it tells the pager with cause 0x25. The model's own choices in it, and no rules
of the manual, by rows of the assumption log: log 113 (SENDX stalls on a connection with 256 unacknowledged frames).
-/
def Obligations.Sends : Prop :=
  (∀ (s : State) (a : Src) (h : BitVec 12) (n : BitVec 3) (g : Fin 32) (sys : Bool),
     let d := fld (s.raw 0 a) 0 18
     let cls := if sys then 2 else 0
     (s.destOk d = true → s.bufferFull = false →
       ∃ t m, exec (.send a h n g sys) s = .next t ∧ t.msgs = s.msgs ++ [m] ∧ m.kind = .unit ∧ m.dest = d ∧
         m.hdr = mkHdr h.toNat s.myCtx s.cur s.me.unit.launch cls n.toNat s.me.unit.det ∧
         m.payload = (List.range n.toNat).map (fun i => s.me.regs.g.toArray.getD (g.val + i) 0) ∧ m.refused = false ∧
         Over s t 8 ∧ KeepsAllRegs s t ∧ OthersSame s t ∧ t.mem = s.mem ∧
         (s.me.unit.det = false → isService d = false →
           (t.launch s.myPart s.me.unit.launch).started = (s.launch s.myPart s.me.unit.launch).started + 1)) ∧
     (s.destOk d = false → exec (.send a h n g sys) s = .next (s.raise 0x05 (BitVec.ofNat 64 d))) ∧
     (s.destOk d = true → s.bufferFull = true → exec (.send a h n g sys) s = .next s)) ∧
  (∀ (s : State) (a : Src) (off : W32) (d : BitVec 18) (h : BitVec 12) (n : BitVec 3) (sys ack : Bool) (node : BitVec 16)
     (x : Nat),
     checkSpan s.curCore reachLocal (s.ea a off) (8 * n.toNat) 8 = .ok (.pad x) → x + 8 * n.toNat ≤ 0x60000 →
     s.me.occ.st < 63 →
     let here := node = 0xFFFF ∨ node.toNat = s.nodeNumber
     let words := (s.padReads s.cur n.toNat x).1
     (here → s.destOk d.toNat = true → s.bufferFull = false →
       ∃ t m, exec (.sendx a off d h n sys node ack) s = .next t ∧ t.msgs = s.msgs ++ [m] ∧ m.dest = d.toNat ∧
         m.payload = words ∧ hdrHandler m.hdr = h.toNat ∧ Over s t 16 ∧ NoPush s t ∧ t.mem = s.mem ∧
         m.ack.isSome = ack ∧ t.me.occ = if ack then s.me.occ.up 1 else s.me.occ) ∧
     (∀ c : Nat, ¬ here → s.connectionTo s.myCtx node.toNat = some c → s.connFull c = false →
       (s.tableEntry 3 0 c).1.getLsbD 62 = false →
       ∃ t f, exec (.sendx a off d h n sys node ack) s = .next t ∧
         (nget {} t.conns c).unacked = (nget {} s.conns c).unacked ++ [f] ∧ f.dest = d.toNat ∧ f.words = words ∧
         f.message = true ∧ t.me.occ = s.me.occ.up 1 ∧ t.msgs = s.msgs ∧ Over s t 16 ∧ NoPush s t) ∧
     (¬ here → s.connectionTo s.myCtx node.toNat = none →
       (s.sysReg .pager s.myCtx (epDie s.cur)).getLsbD 63 = true → s.me.unit.det = true → s.me.busy = true →
       ∃ t m, exec (.sendx a off d h n sys node ack) s = .next t ∧ t.msgs = s.msgs ++ [m] ∧
         m.dest = fld (s.sysReg .pager s.myCtx (epDie s.cur)) 0 18 ∧
         (m.payload.getD 0 0).extractLsb' 56 8 = 0x25 ∧ t.me.occ = s.me.occ ∧ Over s t 16))

/-- R40, R322: a message in its turn, whose core is bound to its context and has a free thread and no spilled message,
starts its unit there: the handler's entry, the header and the payload in the main registers, every other register at
its value at unit start. Held messages that are offered again, to a core or by a distributor, start theirs the same
way. -/
def Obligations.MessagesStartUnits : Prop :=
  ∀ (s : State) (id th : Nat) (m : Msg) (entry : W32) (ec : Nat), s.findMsg id = some m → Startable s m th entry ec →
    (m.refused = false → ∃ t, exec (.messageArrival id) s = .next t ∧ Started s t m th entry) ∧
    (m.refused = true → hdrClass m.hdr ≠ 3 → ∃ t, exec (.sendBufferRetry id) s = .next t ∧ Started s t m th entry) ∧
    (m.refused = true → hdrClass m.hdr = 3 → ∃ t, exec (.dispatchRetry id) s = .next t ∧ Started s t m th entry)

/-- R34, R39, R40, R41, R322, R330, R461: where no thread is free the message goes behind the spilled ones, or is
refused and held when the queue is full; one that names a bad handler starts no unit and takes no place, and the pager
is told with cause 0x20; a service core's message goes to its call ring. A message for an unbound core binds it to the
message's context with the launch's tables, its scratchpad zeroed when it last served another context, and stays in
flight; an image that cannot be reached leaves the core unbound and takes the message with it, and the pager is told
with cause 0x26. The model's own choices in it, and no rules of the manual, by rows of the assumption log: log 34
(parked units resume before spilled messages start when a thread becomes free); log 126 (A submission's message for a
core takes the port's host endpoint as its src, and a call ring's entry is taken by the service core's die); log 144
(A detached message binds an unbound core under the launch that its header names); log 169 (A bad handler is looked at
before a cancelled launch when a message arrives, and after it at the head of the spill queue). -/
def Obligations.MessagesThatWait : Prop :=
  (∀ (s : State) (id : Nat) (m : Msg), s.findMsg id = some m → m.kind = .unit → m.refused = false → m.link = none →
     m.ack = none → s.fenced.contains (epDie m.dest) = false → s.msgBlocked m = false →
     s.isHeld (niWho (epCore m.dest)) = false →
     let core := epCore m.dest
     let k := s.core core
     let live (h : Word) : Prop := hdrDet h = true ∨ (s.launch (s.partOf core) (hdrLaunch h)).cancelled = false
     (isService m.dest = false → k.bound = some (hdrCtx m.hdr) → (s.thr m.dest).inst = none → s.freeThread core = none →
       ((s.handlerOf core (hdrHandler m.hdr)).isSome = true →
         (Safe s → k.spilled.length < k.spillCap →
           live (if k.spilled = [] then m.hdr else s.mem.readWord (padKey core (k.spillAddr 0))) →
           ∃ t, exec (.messageArrival id) s = .next t ∧
             t.msgs = s.msgs.filter (·.id != m.id) ∧ (t.core core).spilled = k.spilled ++ [m.floor]) ∧
         (k.spillCap ≤ k.spilled.length → ∃ t, exec (.messageArrival id) s = .next t ∧
           t.findMsg id = some { m with refused := true } ∧ t.mem = s.mem ∧ t.threads = s.threads ∧
           t.cores = s.cores)) ∧
       (s.handlerOf core (hdrHandler m.hdr) = none → hdrDet m.hdr = true → k.spilled = [] →
         (s.sysReg .pager (hdrCtx m.hdr) (epDie m.dest)).getLsbD 63 = true →
         ∃ t f, exec (.messageArrival id) s = .next t ∧ t.msgs = s.msgs.filter (·.id != m.id) ++ [f] ∧
           f.dest = fld (s.sysReg .pager (hdrCtx m.hdr) (epDie m.dest)) 0 18 ∧
           (f.payload.getD 0 0).extractLsb' 56 8 = 0x20 ∧ (t.core core).spilled = [] ∧ t.threads = s.threads)) ∧
     (isService m.dest = true → s.ringFull (serviceIndex m.dest) = false →
       ∃ t, exec (.messageArrival id) s = .next t ∧ t.msgs = s.msgs.filter (·.id != m.id) ∧
         nget 0 t.callProd (serviceIndex m.dest) = nget 0 s.callProd (serviceIndex m.dest) + 1 ∧ t.threads = s.threads)) ∧
  (∀ (s : State) (id : Nat) (m : Msg), Safe s → s.findMsg id = some m → m.kind = .unit → isService m.dest = false →
     (s.core (epCore m.dest)).bound = none → s.msgBlocked m = false →
     let core := epCore m.dest
     let im := (s.launch (s.partOf core) (hdrLaunch m.hdr)).image
     (fld (im.getD 5 0) 32 20 = 0 →
       ∃ t, exec (.coreBind id) s = .next t ∧ t.msgs = s.msgs ∧ t.threads = s.threads ∧
         (t.core core).bound = some (hdrCtx m.hdr) ∧ (t.core core).htab = im.getD 6 0 ∧
         (t.core core).spill = im.getD 7 0 ∧ (t.core core).cn = Vector.replicate 16 0 ∧ (t.core core).heap = 0 ∧
         (t.core core).tvec = 0 ∧ (t.core core).tframe = 0 ∧
         (∀ x, (s.core core).prev ≠ some (hdrCtx m.hdr) → x < padSize core → t.mem.read (padKey core x) = 0) ∧
         (∀ x, (s.core core).prev = some (hdrCtx m.hdr) → t.mem.read x = s.mem.read x)) ∧
     (fld (im.getD 5 0) 32 20 ≠ 0 → (im.getD 8 0).getLsbD 63 = false → m.ack = none → m.link = none →
       hdrDet m.hdr = true → (s.sysReg .pager (hdrCtx m.hdr) (coreDie core)).getLsbD 63 = true →
       ∃ t f, exec (.coreBind id) s = .next t ∧ (t.core core).bound = none ∧
         t.msgs = (s.msgs ++ [f]).filter (·.id != m.id) ∧ (f.payload.getD 0 0).extractLsb' 56 8 = 0x26))

/-- R326-R328: WAKE is a control message; PARK takes a wake that has come, or waits for one until its deadline and
pushes whether it came; YIELD waits for its time or for the other threads' turns. A gang may not park. The model's own
choices in it, and no rules of the manual, by rows of the assumption log: log 47 (A WAKE reaches a parked thread only
while its core is bound to the sender's context). -/
def Obligations.YieldParkWake : Prop :=
  (∀ (s : State) (a : Src), s.destOk (fld (s.raw 0 a) 0 18) = true → s.bufferFull = false →
    ∃ t m, exec (.wake a) s = .next t ∧ t.msgs = s.msgs ++ [m] ∧ m.kind = .wake ∧ m.dest = fld (s.raw 0 a) 0 18 ∧
      Passed s { t with msgs := s.msgs, ids := s.ids } 8) ∧
  (∀ (s : State) (d : Dst) (c : W32), s.me.gang = none →
    (s.me.wake = true → ∃ t, exec (.park d c) s = .next t ∧ Pushed s t d 0 ∧ Over s t 8 ∧ t.me.wake = false ∧
      t.mem = s.mem) ∧
    (s.me.wake = false → ∃ t, exec (.park d c) s = .next t ∧ OnlyMe s t ∧ NoPush s t ∧
      t.me.wait = .park d (if c = 0 then none else some (s.now + c.toNat * Config.arithCycle)))) ∧
  (∀ (s : State) (d : Dst) (c : W32), s.me.gang ≠ none → exec (.park d c) s = .next (s.raise 0x31 0)) ∧
  (∀ (s : State) (ep till : Nat) (d : Dst), (s.thr ep).wait = .park d (some till) → till ≤ s.now →
    ∃ t, exec (.parkTimeout ep) s = .next t ∧ (t.thr ep).wait = .none ∧ (t.thr ep).regs.w[0] = 1 ∧ t.mem = s.mem ∧
      (t.thr ep).wake = (s.thr ep).wake) ∧
  (∀ (s : State) (c : BitVec 16), s.me.follows = true → ∃ t, exec (.yield c) s = .next t ∧ Passed s t 8) ∧
  (∀ (s : State) (c : BitVec 16), s.me.follows = false →
    ∃ t, exec (.yield c) s = .next t ∧ OnlyMe s t ∧ NoPush s t ∧ Over s t 8 ∧
      ∃ owed, t.me.wait = .yield (s.now + c.toNat * coreCycle s.curCore) owed c.toNat ∧
        ∀ u, u ∈ owed ↔ c = 0 ∧ u < 8 ∧ coreEp s.curCore u ≠ s.cur ∧ (s.thr (coreEp s.curCore u)).ready = true) ∧
  (∀ (s : State) (ep till c : Nat) (owed : List Nat), (s.thr ep).wait = .yield till owed c →
    ((c ≠ 0 ∧ till ≤ s.now) ∨ (c = 0 ∧ ∀ u, u ∈ owed → (s.thr (coreEp (epCore ep) u)).ready = false)) →
    ∃ t, exec (.yieldReturn ep) s = .next t ∧ t.thr ep = { s.thr ep with wait := .none } ∧
      { t with threads := s.threads } = s) ∧
  (∀ (s : State) (id : Nat) (m : Msg), s.findMsg id = some m → m.kind = .wake → s.msgBlocked m = false →
    (s.core (epCore m.dest)).bound = some (hdrCtx m.hdr) → m.ack = none → m.link = none → (s.thr m.dest).busy = true →
    ∃ t, exec (.wakeArrival id) s = .next t ∧ t.msgs = s.msgs.filter (·.id != m.id) ∧ t.mem = s.mem ∧
      (∀ d till, (s.thr m.dest).wait = .park d till →
        (t.thr m.dest).wait = .none ∧ (t.thr m.dest).regs.w[0] = 0 ∧ (t.thr m.dest).wake = false) ∧
      ((s.thr m.dest).wait = .none → (t.thr m.dest).wake = true ∧ (t.thr m.dest).regs = (s.thr m.dest).regs))

/-- R42, R248: EXIT of a unit on one thread frees the thread and counts the unit as exited, with an error where it
says so, where a guard touch stands unreported, or where a member had one. -/
def Obligations.Exits : Prop :=
  ∀ (s : State) (err : Bool), s.me.gang = none → s.me.routine = .none → s.hasMates s.cur = false → s.me.entryOf = none →
    (s.core s.curCore).spilled = [] → (s.core s.curCore).park = [] → (s.tellExit s.cur err).holding s.cur = false →
    let bad := err || s.me.regs.gtouch.getLsbD 63 || s.me.unitErr
    let l := s.launch s.myPart s.me.unit.launch
    ∃ t, exec (.exit err) s = .next t ∧ t.me = s.me.freed ∧ OthersSame s t ∧
      (s.me.unit.det = false →
        (t.launch s.myPart s.me.unit.launch).exited = l.exited + 1 ∧
        (t.launch s.myPart s.me.unit.launch).errors = if bad then Nat.min (l.errors + 1) 0xFFFF else l.errors) ∧
      (s.me.unit.det = true → t.launches = s.launches)
/-! ### Launches, records and gangs -/

/-- R294, R329-R333, R296: LAUNCH takes the image at its reference, asks the master and pushes the status word of the
answer; an admitted launch has a record in use with that image; LAUNCH.w does the same, but where admission is not
possible now it leaves its thread for the park store, with its request in the admission queue. The model's own choices
in it, and no rules of the manual, by rows of the assumption log: log 143 (A launch image whose destination is not
aligned to 64 bytes is accepted). -/
def Obligations.LaunchInstructions : Prop :=
  ∀ (s : State) (d : Dst) (a : Src) (x : Nat), imageRef s.curCore (s.raw 0 a) = .ok x →
    let im := (s.padReads s.cur 16 x).1
    let s1 := (s.padReads s.cur 16 x).2
    let q := (s1.askLaunch im).1
    s.masterHeld s.myPart = false → q.waits = false →
    (∃ t, exec (.launch d a) s = .next t ∧ Pushed s t d q.word ∧ Over s t 8 ∧ OthersSame s t ∧ t.cores = s.cores ∧
      (q.outcome = 0 → (t.launch s.myPart q.tag).inUse = true ∧ (t.launch s.myPart q.tag).image = im ∧
        (t.launch s.myPart q.tag).ctx = s.myCtx ∧ (t.launch s.myPart q.tag).graph = q.graph)) ∧
    (s.me.gang = none → q.outcome ≠ 2 →
      ∃ t, exec (.launchW d a) s = .next t ∧ Pushed s t d q.word ∧ Over s t 8 ∧ OthersSame s t) ∧
    (s.me.gang = none → q.outcome = 2 → (s.core s.curCore).park = [] → (s.core s.curCore).spilled = [] →
      (parkedLaunches (nget [] s.adm s.myPart)).length < 4032 →
      ∃ t p, exec (.launchW d a) s = .next t ∧ t.me.busy = false ∧ (t.core s.curCore).park = [p] ∧
        p.th.unit = s.me.unit ∧ { p.th.regs with gtouch := s.me.regs.gtouch } = s.me.regs ∧ p.dst = d ∧
        p.req = some s.ids ∧ p.floor = s.floor s.cur ∧
        nget [] t.adm s.myPart = nget [] s.adm s.myPart ++
          [.parked s.ids s.curCore s.me.unit.uid s.ownLaunch s.myCtx q.graph im])

/-- R295, R316, R332: the outcomes of a request for admission, the first that holds in this order, an election before
all; every one but 0 and 1 leaves the state as it was. The model's own choices in it, and no rules of the manual, by
rows of the assumption log: log 38 (during an election every launch request is answered 2 before it is looked at); log
39 (A launch by a detached unit with no graph named ends with outcome 8); log 143 (A launch image whose destination is
not aligned to 64 bytes is accepted). -/
def Obligations.LaunchOutcomes : Prop :=
  ∀ (s : State) (part ctx : Nat) (own : Option Nat) (im : List Word) (page : Option Nat),
    let q := s.requestLaunch part ctx own im page
    (s.electing part = true → q.1.outcome = 2 ∧ q.1.waits = false ∧ q.2 = s) ∧
    (s.electing part = false →
    (imageOk im = false → q = ({ outcome := 6, graph := (targetGraph im own).getD 0 }, s)) ∧
    (imageOk im = true → targetGraph im own = none → q = ({ outcome := 8 }, s)) ∧
    (∀ g, imageOk im = true → targetGraph im own = some g →
      let G := s.level 2 part g
      (s.hasRecord part ctx 2 g = false → q.1.outcome = 8 ∧ q.2 = s) ∧
      (s.hasRecord part ctx 2 g = true → (G.closed = true ∨ s.deadLevel part g = true) → q.1.outcome = 4 ∧ q.2 = s) ∧
      (s.hasRecord part ctx 2 g = true → G.closed = false → s.deadLevel part g = false → imgNamed im = true →
        (nget Slot.empty G.slots (imgSlot im)).isEmpty = false → q.1.outcome = 7 ∧ q.2 = s) ∧
      (s.hasRecord part ctx 2 g = true → G.closed = false → s.deadLevel part g = false → imgNamed im = true →
        (nget Slot.empty G.slots (imgSlot im)).isEmpty = true → (imgPred im).toNat < 2 ^ imgSlot im →
        edgesMet G (imgPred im) = false →
        q.1.outcome = 1 ∧ (q.2.level 2 part g).children = G.children + 1 ∧
          nget Slot.empty (q.2.level 2 part g).slots (imgSlot im) = .held im (imgPred im) page) ∧
      (s.hasRecord part ctx 2 g = true → G.closed = false → s.deadLevel part g = false → imgNamed im = false →
        (nget [] s.adm part ≠ [] ∨ s.phaseReady part g = false) → q.1.outcome = 2 ∧ q.1.waits = false ∧ q.2 = s) ∧
      (s.hasRecord part ctx 2 g = true → G.closed = false → s.deadLevel part g = false →
        (imgNamed im = false ∨ ((nget Slot.empty G.slots (imgSlot im)).isEmpty = true ∧
          (imgPred im).toNat < 2 ^ imgSlot im ∧ edgesMet G (imgPred im) = true)) →
        nget [] s.adm part = [] → s.phaseReady part g = true →
        (s.takeIndex 1 part = none → q.1.outcome = 2 ∧ q.1.waits = false ∧ q.2 = s) ∧
        (∀ tag s1, s.takeIndex 1 part = some (tag, s1) → (s1.classOfImage part ctx im).1 = none →
          q.1.outcome = 2 ∧ q.1.waits = true) ∧
        (∀ tag s1 ec, s.takeIndex 1 part = some (tag, s1) → (s1.classOfImage part ctx im).1 = some ec →
          q.1.outcome = 0 ∧ q.1.tag = tag ∧ q.1.graph = g ∧ (q.2.launch part tag).inUse = true ∧
            (q.2.launch part tag).image = im ∧ (q.2.launch part tag).eclass = ec ∧
            (q.2.level 2 part g).children = G.children + 1))))

/-- R47, R334, R335, R336: GRAPH and PHASE create a record under an open parent and push its index, or push the
refusal and change nothing; they close a record, and a closed record stays closed. CANCEL marks the record that it
names and drops what is not dispatched, or pushes why it is refused; LVWAIT waits until its record is complete; LVREAD
pushes the word that it selects. The model's own choices in it, and no rules of the manual, by rows of the assumption
log: log 35 (the lowest free index names a new record of levels 1 to 4 until all have been used, then the least
recently freed); log 36 (the pending or running state of an incomplete graph, phase or job is a free value); log 37
(the error counts of levels 2 to 4 add up those of their children, saturating); log 46 (LVWAIT raises the waiter's
floor to that of the completed record). -/
def Obligations.LevelInstructions : Prop :=
  (∀ (s : State) (d : Dst) (a : Src),
     let n := (s.raw 0 a).toNat
     let made (i lvl : Nat) (t : State) : Prop :=
       (t.level lvl s.myPart i).inUse = true ∧ (t.level lvl s.myPart i).ctx = s.myCtx ∧
         (t.level lvl s.myPart i).parent = n ∧ (t.level lvl s.myPart i).closed = false ∧
         (t.level (lvl + 1) s.myPart n).children = (s.level (lvl + 1) s.myPart n).children + 1 ∧
         Pushed s t d (statusWord 0 0 i 0) ∧ Over s t 8 ∧ OthersSame s t ∧ t.mem = s.mem
     let job := s.level 4 s.myPart (s.level 3 s.myPart n).parent
     (∀ i s1, s.hasRecord s.myPart s.myCtx 3 n = true → (s.level 3 s.myPart n).shut = false → job.cancelled = false →
       job.state.final = false → s.takeIndex 2 s.myPart = some (i, s1) → i < 1024 →
       ∃ t, exec (.graphCreate d a) s = .next t ∧ made i 2 t) ∧
     (∀ i s1, s.hasRecord s.myPart s.myCtx 4 n = true → (s.level 4 s.myPart n).shut = false →
       s.takeIndex 3 s.myPart = some (i, s1) → i < 1024 → ∃ t, exec (.phaseCreate d a) s = .next t ∧ made i 3 t) ∧
     (s.hasRecord s.myPart s.myCtx 3 n = false →
       ∃ t, exec (.graphCreate d a) s = .next t ∧ Result s t d (statusWord 8 0 0 0) 8) ∧
     (s.hasRecord s.myPart s.myCtx 4 n = false →
       ∃ t, exec (.phaseCreate d a) s = .next t ∧ Result s t d (statusWord 8 0 0 0) 8) ∧
     (s.hasRecord s.myPart s.myCtx 2 n = true → ∃ t, exec (.graphClose d a) s = .next t ∧
       (t.level 2 s.myPart n).closed = true ∧ Pushed s t d (statusWord 0 0 0 0) ∧ Over s t 8) ∧
     (s.hasRecord s.myPart s.myCtx 3 n = true → ∃ t, exec (.phaseClose d a) s = .next t ∧
       (t.level 3 s.myPart n).closed = true ∧ Pushed s t d (statusWord 0 0 0 0) ∧ Over s t 8) ∧
     (s.hasRecord s.myPart s.myCtx 4 n = true → ∃ t, exec (.jobClose d a) s = .next t ∧
       (t.level 4 s.myPart n).closed = true ∧ Pushed s t d (statusWord 0 0 0 0) ∧ Over s t 8)) ∧
  (∀ (s : State) (d : Dst) (lvl : BitVec 3) (sel : BitVec 2) (r : Option Src),
     ((lvl = 0 ∨ 4 < lvl.toNat) → ∃ t, exec (.cancel d lvl r) s = .next t ∧ Result s t d (statusWord 5 0 0 0) 8) ∧
     (s.namedRecord lvl.toNat r = none → 1 ≤ lvl.toNat → lvl.toNat ≤ 4 →
       ∃ t, exec (.cancel d lvl r) s = .next t ∧ Result s t d (statusWord 8 0 0 0) 8) ∧
     (s.namedRecord lvl.toNat r = none →
       (∃ t, exec (.lvread d lvl sel r) s = .next t ∧ Result s t d (BitVec.allOnes 64) 8) ∧
       (s.me.gang = none → ∃ t, exec (.lvwait d lvl r) s = .next t ∧ Result s t d (BitVec.allOnes 64) 8)) ∧
     (∀ i, s.namedRecord lvl.toNat r = some i →
       (s.recordFinal s.myPart lvl.toNat i = true →
         ∃ t, exec (.cancel d lvl r) s = .next t ∧ Result s t d (statusWord 9 0 0 0) 8) ∧
       (lvl = 1 → s.recordFinal s.myPart 1 i = false → ∃ t, exec (.cancel d lvl r) s = .next t ∧
         Pushed s t d (statusWord 0 0 0 0) ∧ Over s t 8 ∧ (t.launch s.myPart i).cancelled = true ∧
         (t.launch s.myPart i).next = imgUnits (s.launch s.myPart i).image ∧ (t.launch s.myPart i).back = [] ∧
         (t.launch s.myPart i).pool = false) ∧
       (lvl = 1 → s.me.gang = none → s.containsMe 1 i = false → (s.launch s.myPart i).state.final = true →
         ∃ t, exec (.lvwait d lvl r) s = .next t ∧ Pushed s t d ((s.launch s.myPart i).word 0) ∧ Over s t 8 ∧
           t.mem = s.mem ∧ OthersSame s t) ∧
       (lvl ≠ 1 → s.me.gang = none → s.containsMe lvl.toNat i = false → s.recordFinal s.myPart lvl.toNat i = true →
         ∃ t b, exec (.lvwait d lvl r) s = .next t ∧ Pushed s t d ((s.level lvl.toNat s.myPart i).word b) ∧ Over s t 8 ∧
           t.mem = s.mem ∧ OthersSame s t) ∧
       (s.me.gang = none → s.containsMe lvl.toNat i = true →
         ∃ t, exec (.lvwait d lvl r) s = .next t ∧ Result s t d (BitVec.allOnes 64) 8) ∧
       (s.me.gang = none → s.containsMe lvl.toNat i = false → s.recordFinal s.myPart lvl.toNat i = false →
         exec (.lvwait d lvl r) s = .next s) ∧
       (lvl ≠ 1 → sel = 0 → ∃ t b, exec (.lvread d lvl sel r) s = .next t ∧
         Pushed s t d ((s.level lvl.toNat s.myPart i).word b) ∧ Over s t 8 ∧ t.mem = s.mem ∧ OthersSame s t) ∧
       (lvl = 1 → sel ≠ 3 → ∃ t, exec (.lvread d lvl sel r) s = .next t ∧
         Result s t d ((s.launch s.myPart i).word sel.toNat) 8) ∧
       (lvl ≠ 1 → sel ≠ 0 → ∃ t, exec (.lvread d lvl sel r) s = .next t ∧ Result s t d (BitVec.allOnes 64) 8)))

/-- R48, R49, R50, R51, R337, R338, R339, R340, R341: FUSE of a leader whose other positions are all claimable makes
one gang: each member at the leader's place with the leader's main registers; one that cannot be made pushes why.
SPLIT takes every member out of its gang. LANEID and COORD push where the thread stands, SPILLQ and JOBSET set what
their core holds and push the answer. The model's own choices in it, and no rules of the manual, by rows of the
assumption log: log 27 (SPLIT ends the gang's team and its members' checkpoints, and a gang's CKPT keeps its team);
log 28 (FUSE claims threads of cores that are unbound or bound to the gang's context, with nothing spilled); log 41
(SPILLQ answers 1 before 2 when both hold); log 146 (FUSE binds the unbound cores of the threads that it claims). -/
def Obligations.Gangs : Prop :=
  ((∀ (s : State) (d : Dst) (n : BitVec 4), (Instr.fuse d n).wf = true → isVDie (coreDie s.curCore) = true →
     corePos s.curCore % n.toNat = 0 → s.me.gang = none →
     let g : Gang := ⟨s.ids, n.toNat, corePos s.curCore, corePos s.curCore⟩
     let others := (gangMembers g s.cur).filter (· != s.cur)
     let bound := s.bindMembers s.myCtx s.me.unit.launch others
     (others.all (s.claimable s.myCtx) = true → bound.1 = true →
       ∃ t, exec (.fuse d n) s = .next t ∧ Pushed s t d 0 ∧ Over s t 8 ∧ t.me.gang = some g ∧
         (∀ m, m ∈ others → (t.thr m).busy = true ∧ (t.thr m).gang = some { g with pos := corePos (epCore m) } ∧
           (t.thr m).regs.g = s.me.regs.g ∧ (t.thr m).regs.pc = t.me.regs.pc ∧ (t.thr m).unit = s.me.unit) ∧
         (∀ m, m ≠ s.cur → m ∉ others → t.thr m = s.thr m)) ∧
     (others.all (s.claimable s.myCtx) = true → bound.1 = false →
       ∃ t, exec (.fuse d n) s = .next t ∧ Pushed s t d 1 ∧ Over s t 8 ∧ OthersSame s t ∧ t.me.gang = none) ∧
     ((∀ m, m ∈ others → (s.core (epCore m)).bound = some s.myCtx) → bound = (true, s)) ∧
     (others.all (s.claimable s.myCtx) = false → ∃ t, exec (.fuse d n) s = .next t ∧ Result s t d 1 8)) ∧
   (∀ (s : State) (d : Dst) (n : BitVec 4), isVDie (coreDie s.curCore) = false →
     ∃ t, exec (.fuse d n) s = .next t ∧ Result s t d 2 8) ∧
   (∀ (s : State) (d : Dst) (n : BitVec 4), isVDie (coreDie s.curCore) = true →
     (corePos s.curCore % n.toNat ≠ 0 ∨ s.me.gang ≠ none) → exec (.fuse d n) s = .next (s.raise 0x31 0)) ∧
   (∀ (s : State) (g : Gang), s.me.gang = some g →
     ∃ t, exec .split s = .next t ∧ ∀ m, m ∈ gangMembers g s.cur →
       (t.thr m).gang = none ∧ (t.thr m).team = .none ∧ (t.thr m).ahead = []) ∧
   (∀ s : State, s.me.gang = none → exec .split s = .next (s.raise 0x31 0))) ∧
  (∀ (s : State) (d : Dst) (a : Src) (share : BitVec 5) (cls : Bool),
     let c := s.curCore
     let k := s.core c
     (∃ t, exec (.laneid d) s = .next t ∧ Result s t d (match s.me.gang with
       | none => 0
       | some g => BitVec.ofNat 64 (g.pos - g.leader)) 8) ∧
     (∃ t, exec (.coord d false) s = .next t ∧ Result s t d (BitVec.ofNat 64 s.cur) 8) ∧
     (isVDie (coreDie c) = true → ∃ t, exec (.coord d true) s = .next t ∧ Result s t d (BitVec.ofNat 64
       (s.myPart * 2 ^ 32 + coreDie c * 2 ^ 20 + coreCluster c * 2 ^ 18 + corePos c * 2 ^ 15 + coreOctet c * 2 ^ 8 +
         corePeer c)) 8) ∧
     (k.spilled ≠ [] → ∃ t, exec (.spillq d a) s = .next t ∧ Result s t d 1 8) ∧
     (k.spilled = [] → spillqOk c (s.raw 0 a) = false → ∃ t, exec (.spillq d a) s = .next t ∧ Result s t d 2 8) ∧
     (k.spilled = [] → spillqOk c (s.raw 0 a) = true → ∃ t, exec (.spillq d a) s = .next t ∧
       Result s { t with cores := s.cores } d 0 8 ∧ t.core c = { k with spill := s.raw 0 a, spillHead := 0 } ∧
       ∀ e, e ≠ c → t.core e = s.core e) ∧
     (isVDie (coreDie c) = false → ∃ t, exec (.jobset d share cls) s = .next t ∧ Result s t d 0x100 8) ∧
     (isVDie (coreDie c) = true → ∃ t, exec (.jobset d share cls) s = .next t ∧
       Result s { t with cores := s.cores } d (BitVec.ofNat 64 (k.share.toNat + if k.jobCls then 32 else 0)) 8 ∧
       t.core c = { k with share := share, jobCls := cls } ∧ ∀ e, e ≠ c → t.core e = s.core e))

/-! ### The distributors of themselves -/

/-- R294, R300: the head of the admission queue is admitted when a record is free, no election runs, the master is not
stalled and its reading of the energy class is done; the master deals at most 64 undealt indices to the distributor
whose turn it is, one that holds fewer than sixteen batches, the fresh ones in linear order. The model's own choices
in it, and no rules of the manual, by rows of the assumption log: log 40 (A parked LAUNCH.w is validated again at its
admission); log 149 (distributors that ask for batches are served in cyclic die-pair order). -/
def Obligations.AdmissionAndDealing : Prop :=
  (∀ (s s1 : State) (part ctx graph slot tag ec : Nat) (im : List Word) (page : Option Nat) (rest : List Adm),
    s.electing part = false → s.masterHeld part = false → nget [] s.adm part = .edge ctx graph slot im page :: rest →
    s.takeIndex 1 part = some (tag, s1) → (s1.classOfImage part ctx im).1 = some ec →
    ∃ t, exec (.launchAdmission part) s = .next t ∧ nget [] t.adm part = rest ∧ (t.launch part tag).inUse = true ∧
      (t.launch part tag).image = im ∧ (t.launch part tag).graph = graph ∧ (t.launch part tag).ctx = ctx ∧
      (t.launch part tag).eclass = ec ∧ nget Slot.empty (t.level 2 part graph).slots slot = .running tag ∧
      t.threads = s.threads ∧ t.cores = s.cores) ∧
  (∀ (s : State) (part pair tag : Nat) (l l' : Launch) (b : Batch), s.nextAsker part = some pair →
    s.electing part = false → s.masterHeld part = false →
    nextDealt (s.schedOf part).dealt (s.undealt part) = some (tag, l) → l.deal tag = some (b, l') →
    ∃ t, exec (.batchDeal part pair) s = .next t ∧ (t.pair pair).batches = (s.pair pair).batches ++ [b] ∧
      t.launch part tag = l' ∧ (t.schedOf part).dealt = l.seq ∧ (t.schedOf part).askedLast = pair ∧
      { t with pairs := s.pairs, launches := s.launches, sched := s.sched } = s ∧ b.units.length ≤ 64 + l.back.flatten.length) ∧
  (∀ (s : State) (part pair : Nat), s.nextAsker part = some pair → pair ∈ partPairs s.parts part ∧
    (s.pair pair).fenced = false ∧ (s.pair pair).batches.length < 16) ∧
  (∀ (l : Launch) (tag : Nat), l.reissue = [] → l.back = [] → l.next < imgUnits l.image →
    let n := Nat.min 64 (imgUnits l.image - l.next)
    l.deal tag = some (⟨tag, (List.range n).map (l.next + ·), false⟩, { l with next := l.next + n }))

/-- R301, R308, R310, R311, R37: a dispatch, once its cycle's refill is done, takes the first unit in the
distributor's order that it can pay for and place, the pinned one if there is one: its launch counts it dispatched and
started, the allowance pays its class cost, and one class-3 message carries its index to the core. -/
def Obligations.Dispatch : Prop :=
  ∀ (s s1 : State) (pair tag i core : Nat), pair < 8 → (s.pair pair).fenced = false →
    s.isHeld (distributorSrc pair) = false → s.refillsDue ≤ s.refills →
    let part := pairPart s.parts pair
    let l := s.launch part tag
    ((s1 = s ∧ (s.pair pair).pinned = some (tag, i) ∧ s.costOf part tag ≤ (s.pair pair).allowance ∧
        s.pickCore pair l.ctx (fun _ => true) = some core) ∨
      (∃ us sk, (s.pair pair).pinned = none ∧ s.considered part pair = (us, s1) ∧
        s1.choose part pair [] us = some (sk, (tag, i), core))) →
    ∃ t m, exec (.unitDispatch pair) s = .next t ∧ t.msgs = s.msgs ++ [m] ∧ hdrClass m.hdr = 3 ∧
      epCore m.dest = core ∧ m.payload.head? = some (indexWord l.image i) ∧
      m.payload.drop 1 = (l.image.drop 10).take 6 ∧
      (t.launch part tag).dispatched = l.dispatched + 1 ∧ (t.launch part tag).started = l.started + 1 ∧
      (t.launch part tag).state = .running ∧
      (t.pair pair).allowance = max (-(2 ^ 40 : Int)) ((s.pair pair).allowance - s.costOf part tag) ∧
      (t.pair pair).lastCore = core % 1024

/-- R286, R307, R309, R315, R316, R317, R318: each microsecond of `ctime` that has passed is due a refill, which adds
the pair's share of the cap, up to 1,024 of them, and none to a fenced pair. An election makes the lowest unfenced
pair the master, once that distributor holds no slate; a lost distributor keeps no batch and no pin, and its batches
stand at the head of their launches' undealt batches after the election. The model's own choices in it, and no rules
of the manual, by rows of the assumption log: log 48 (A batch whose distributor is lost returns to its launch, and a
reissued unit lowers the dispatched and the started count); log 50 (work in the queues of a lost die pair's arrays and
channels is discarded at the election). -/
def Obligations.RefillsAndElections : Prop :=
  (∀ s : State, s.refills < s.refillsDue →
     ∃ t, exec .allowanceRefill s = .next t ∧ t.refills = s.refills + 1 ∧
       { t with pairs := s.pairs, refills := s.refills } = s ∧
       ∀ p, p < 8 →
         let r := s.refillOf (pairPart s.parts p)
         ((s.pair p).fenced = true → t.pair p = s.pair p) ∧
         ((s.pair p).fenced = false →
           t.pair p = { s.pair p with allowance := min ((1024 * r : Nat) : Int) ((s.pair p).allowance + r) })) ∧
  ((∀ (s : State) (part tag : Nat) (bs : List Batch), (s.launch part tag).cancelled = false →
     ((s.returnBatches part bs).launch part tag).back =
       (bs.filter (·.tag == tag)).map (·.units) ++ (s.launch part tag).back) ∧
   ∀ (s : State) (part m : Nat), (nfind s.elections part).isSome = true →
     (partPairs s.parts part).find? (fun p => !(s.pair p).fenced) = some m →
     (s.isHeld (distributorSrc m) = true → exec (.masterElection part) s = .next s) ∧
     (s.isHeld (distributorSrc m) = false →
     ∃ t, exec (.masterElection part) s = .next t ∧ t.elections = ndel s.elections part ∧ t.masters = nset s.masters part m ∧
       (∀ tag, (s.launch part tag).cancelled = false →
         (t.launch part tag).back =
           (((partPairs s.parts part).filter fun p => (s.pair p).fenced).reverse.flatMap fun p =>
             ((s.pair p).batches.filter (·.tag == tag)).map (·.units)) ++ (s.launch part tag).back) ∧
       (∀ p, p ∈ partPairs s.parts part → (s.pair p).fenced = true →
         (t.pair p).batches = [] ∧ (t.pair p).pinned = none) ∧
       (∀ p, p ∈ partPairs s.parts part → (s.pair p).fenced = false → t.pair p = s.pair p)))

/-! ### Stages -/

/-- R346-R349, R356-R358, R360: the stage instructions: a created stage is open with its instances claimed, or the
refusal is pushed and nothing changes; a threshold is exchanged; a closed stage takes no more records; a keyed record
goes to the endpoint of the sender's own copy of the table. The model's own choices in it, and no rules of the manual,
by rows of the assumption log: log 44 (STAGE create answers the first failing check of 1, 2, 3, 4); log 128 (the high
bits of a stage number operand raise the stage fault 0x32); log 168 (STAGE threshold with sb = 0xD reads imm, which is
2). -/
def Obligations.StageInstructions : Prop :=
  ∀ (s : State) (d : Dst) (a b : Src) (sel : BitVec 5) (n6 : BitVec 6) (k : BitVec 3) (g0 : Fin 32),
    let v := s.raw 0 a
    (∀ n, (s.createStage v).1 = .ok n → ∃ t, exec (.stageCreate d a) s = .next t ∧ Pushed s t d (BitVec.ofNat 64 n) ∧
      Over s t 8 ∧ n < 64 ∧ (s.stage s.myPart n).isOpen = false ∧ (t.stage s.myPart n).isOpen = true ∧
      (t.stage s.myPart n).ctx = s.myCtx ∧ (t.stage s.myPart n).mode = 0 ∧
      ∀ r, r ∈ (t.stage s.myPart n).table → (t.thr r.ep).inst = some n) ∧
    (∀ c, (s.createStage v).1 = .error c → ∃ t, exec (.stageCreate d a) s = .next t ∧
      Result s t d (BitVec.ofNat 64 (0x100 + c)) 8) ∧
    (64 ≤ v.toNat → exec (.stageClose d a) s = .next (s.raise 0x32 v) ∧
      exec (.stageThresh d a b) s = .next (s.raise 0x32 v) ∧ exec (.krtread d a sel) s = .next (s.raise 0x32 v)) ∧
    (v.toNat < 64 → s.ownStage v = none →
      (∃ t, exec (.stageClose d a) s = .next t ∧ Result s t d 0x105 8) ∧
      (∃ t, exec (.stageThresh d a b) s = .next t ∧ Result s t d 0x105 8) ∧
      (∃ t, exec (.krtread d a sel) s = .next t ∧ Result s t d (BitVec.ofNat 64 (2 ^ 64 - 1)) 8)) ∧
    (∀ n, v.toNat < 64 → s.ownStage v = some n →
      let g := s.stage s.myPart n
      (∀ e x, (e, x) ∈ g.insts → (x.queue ≠ [] ∨ s.instRuns e = true) →
        ∃ t, exec (.stageClose d a) s = .next t ∧ Pushed s t d 0 ∧ Over s t 8 ∧ OthersSame s t ∧
          (t.stage s.myPart n).closing = true ∧ (t.stage s.myPart n).table = g.table) ∧
      (g.mode = 0 → (∀ e x, (e, x) ∈ g.insts → x.queue = [] ∧ s.instRuns e = false) →
        (s.stageBound s.myPart n = false →
          ∃ t, exec (.stageClose d a) s = .next t ∧ (t.stage s.myPart n).isOpen = false) ∧
        (s.stageBound s.myPart n = true → ∃ t, exec (.stageClose d a) s = .next t ∧ Pushed s t d 0 ∧ Over s t 8 ∧
          (t.stage s.myPart n).closing = true ∧ (t.stage s.myPart n).table = g.table)) ∧
      (∃ t, exec (.stageThresh d a b) s = .next t ∧ Pushed s t d (BitVec.ofNat 64 g.thresh) ∧ Over s t 8 ∧
        OthersSame s t ∧ { t with threads := s.threads, stages := s.stages } = s ∧
        (t.stage s.myPart n).thresh = if fld (s.raw 2 b) 0 16 = 0 then 256 else fld (s.raw 2 b) 0 16) ∧
      (∃ t, exec (.krtread d a sel) s = .next t ∧ Result s t d
        (if sel.toNat = 16 then g.header else match g.table[sel.toNat]? with
          | none => 0
          | some r => BitVec.ofNat 64 (2 ^ 63 + (if r.moving then 2 ^ 62 else 0) + r.ep * 2 ^ 32 + r.lo)) 8)) ∧
    (∃ t w, exec (.qdep d a) s = .next t ∧ Result s t d w 8 ∧
      (2 ^ 18 ≤ v.toNat → w = 0) ∧
      (∀ n, v.toNat < 2 ^ 18 → s.partOf (epCore v.toNat) = s.myPart → (s.thr v.toNat).inst = some n → n < 64 →
        (s.stage s.myPart n).isOpen = true → (s.stage s.myPart n).ctx = s.myCtx →
        w.getLsbD 63 = true ∧ fld w 0 16 = Nat.min ((s.stage s.myPart n).inst v.toNat).depth 0xFFFF ∧
          fld w 50 6 = n)) ∧
    (let g := s.stage s.myPart n6.toNat
     (g.isOpen = false ∨ g.closing = true ∨ g.dead = true ∨ g.ctx ≠ s.myCtx →
       exec (.keysend n6 k g0) s = .next (s.raise 0x32 (BitVec.ofNat 64 n6.toNat))) ∧
     (g.isOpen = true → g.closing = false → g.dead = false → g.ctx = s.myCtx → s.bufferFull = false →
       ∃ t m, exec (.keysend n6 k g0) s = .next t ∧ t.msgs = s.msgs ++ [m] ∧ m.kind = .keyed n6.toNat ∧
         m.payload = s.me.regs.mains g0 k.toNat ∧ hdrClass m.hdr = 1 ∧
         m.dest = routeOf (g.copy s.curCore) (fld (m.payload.getD 0 0) 0 32) ∧ NoPush s t ∧ Over s t 8 ∧
         OthersSame s t))

/-- R350, R351, R353, R354, R359: SPLITOK of a split routine whose state messages have run switches the table and
opens the clone; it waits for them before; a key outside the range abandons the split with 1; MERGEOK ends the merge;
outside their routines both raise cause 0x32. The stage's own steps: an overload makes a clone with the upper half of
the head record's range; interfaces apply and acknowledge a change of the table, and the last acknowledgement ends it,
after a split with the end marker that makes the clone steady; an underload gives a clone's ranges back to its parent,
and the quiescent clone runs the merge routine. The model's own choices in it, and no rules of the manual, by rows of
the assumption log: log 42 (the src of a unit that a stage's home starts is a free value, and its det bit is the
creator's); log 43 (choosing a core for a clone does not move the distributor's rotation); log 45 (A closing stage
ends when nothing more can come to it from its own queues); log 148 (A merge entry starts only after the end marker of
the clone's own split has come). -/
def Obligations.StageSteps : Prop :=
  (∀ (s : State) (d : Dst) (a : Src) (imm : W32) (n : Nat),
     let g := s.stage s.myPart n
     let x := g.inst s.myInst
     let key := fld (s.raw imm a) 0 32
     (s.me.routine = .split n → s.me.splitOk = false → g.lo < key → key < g.hi → x.sent = x.ran → s.ownReqs s.cur = [] →
       ∃ t, exec (.splitok d a imm) s = .next t ∧ Pushed s t d 0 ∧ Over s t 8 ∧ t.me.splitOk = true ∧
         (t.stage s.myPart n).epoch = (g.epoch + 1) % 2 ^ 16 ∧ (t.stage s.myPart n).change = some { old := g.table } ∧
         (t.stage s.myPart n).table = insertRange ⟨key, g.clone, true⟩ g.table ∧
         ((t.stage s.myPart n).inst g.clone).state = .opening) ∧
     (s.me.routine = .split n → s.me.splitOk = false → g.lo < key → key < g.hi →
       (x.sent ≠ x.ran ∨ s.ownReqs s.cur ≠ []) → exec (.splitok d a imm) s = .next s) ∧
     (s.me.routine = .split n → s.me.splitOk = false → (key ≤ g.lo ∨ g.hi ≤ key) → s.me.busy = true → g.closing = false →
       ∃ t, exec (.splitok d a imm) s = .next t ∧ Pushed s t d 1 ∧ Over s t 8 ∧ t.me.splitOk = true ∧
         (t.stage s.myPart n).mode = 0 ∧ (t.stage s.myPart n).change = none) ∧
     (s.me.routine = .split n → s.me.splitOk = true →
       exec (.splitok d a imm) s = .next (s.raise 0x32 (BitVec.ofNat 64 n))) ∧
     (s.me.routine = .merge n → s.me.splitOk = false → x.sent = x.ran → s.me.busy = true → g.closing = false →
       ∃ t, exec .mergeok s = .next t ∧ NoPush s t ∧ Over s t 8 ∧ t.me.splitOk = true ∧ (t.stage s.myPart n).mode = 0 ∧
         (t.stage s.myPart n).change = none) ∧
     (s.me.routine = .merge n → s.me.splitOk = false → x.sent ≠ x.ran → exec .mergeok s = .next s) ∧
     (s.me.routine = .none →
       exec (.splitok d a imm) s = .next (s.raise 0x32 (BitVec.ofNat 64 (s.me.inst.getD 0))) ∧
       exec .mergeok s = .next (s.raise 0x32 (BitVec.ofNat 64 (s.me.inst.getD 0))))) ∧
  (∀ (s : State) (part n ep : Nat),
     let g := s.stage part n
     let x := g.inst ep
     (∀ p core, g.isOpen = true → g.closing = false → g.dead = false → g.mode = 0 → x.state = .steady →
       s.dwelt g x.aboveSince = true → (s.thr ep).inst = some n → g.table.length < 16 → s.instRuns ep = true →
       let cls := ((s.handlerOf (epCore ep) g.rech).map (·.2)).getD 0
       s.richestPair part (((s.schedOf part).costs.toArray.getD cls 0 : Nat) * 1000) = some p →
       s.pickCore p g.ctx (fun c => !s.hasInst c) = some core → (s.core core).bound.isSome = true →
       let c := coreEp core ((s.freeThread core).getD 0)
       let i := coverIdx g.table (s.headKey g ep)
       c ≠ ep →
       ∃ t, exec (.stageOverload part n ep) s = .next t ∧ (t.stage part n).mode = 1 ∧ (t.stage part n).orig = ep ∧
         (t.stage part n).clone = c ∧ (t.thr c).inst = some n ∧ ((t.stage part n).inst c).state = .receiving ∧
         (t.stage part n).key = rangeLo g.table i + (rangeHi g.table i - rangeLo g.table i) / 2 ∧
         ((t.stage part n).inst ep).queue.length = x.queue.length + 1) ∧
     (∀ c core, g.change = some c → (s.stageCores part).contains core = true → c.applied.any (·.1 == core) = false →
       ∃ t, exec (.stageTableApply part n core) s = .next t ∧ { t with stages := s.stages } = s ∧
         (t.stage part n).change = some { c with applied := c.applied ++ [(core, s.ids)] }) ∧
     (∀ c core f, g.change = some c → c.applied.find? (·.1 == core) = some (core, f) → c.acked.contains core = false →
       s.oldRecords part n core f = false →
       ((s.stageCores part).all (c.acked ++ [core]).contains = false →
         ∃ t, exec (.interfaceAck part n core) s = .next t ∧ { t with stages := s.stages } = s ∧
           (t.stage part n).change = some { c with acked := c.acked ++ [core] }) ∧
       ((s.stageCores part).all (c.acked ++ [core]).contains = true → g.mode = 1 → g.closing = false →
         ∃ t m, exec (.interfaceAck part n core) s = .next t ∧ t.msgs = s.msgs ++ [m] ∧ m.kind = .stage n 1 0 0 ∧
           m.dest = g.clone ∧ (t.stage part n).change = none ∧ (t.stage part n).mode = 0) ∧
       ((s.stageCores part).all (c.acked ++ [core]).contains = true → g.mode ≠ 1 →
         ∃ t, exec (.interfaceAck part n core) s = .next t ∧ { t with stages := s.stages } = s ∧
           (t.stage part n).change = none ∧ (t.stage part n).mode = g.mode)) ∧
     (∀ m id lo hi, s.findMsg id = some m → m.kind = .stage n 1 lo hi → s.msgBlocked m = false → m.link = none →
       m.ack = none → s.partOf (epCore m.dest) = part → g.closing = false →
       ∃ t, exec (.endMarker id) s = .next t ∧ t.msgs = s.msgs.filter (·.id != m.id) ∧ t.threads = s.threads ∧
         ((t.stage part n).inst m.dest).state = .steady) ∧
     (∀ p, x.parent = some p → p ≠ ep → g.isOpen = true → g.closing = false → g.dead = false → g.mode = 0 →
       (s.thr ep).inst = some n → g.insts.any (fun (_, y) => y.parent == some ep) = false →
       s.dwelt g x.belowSince = true →
       ∃ t, exec (.stageUnderload part n ep) s = .next t ∧ { t with stages := s.stages } = s ∧
         (t.stage part n).mode = 2 ∧ (t.stage part n).orig = p ∧ (t.stage part n).clone = ep ∧
         ((t.stage part n).inst p).state = .merging ∧ (t.stage part n).epoch = (g.epoch + 1) % 2 ^ 16) ∧
     (∀ entry ec, g.isOpen = true → g.dead = false → g.mode = 2 → ep = g.clone → g.change = none →
       s.instRuns ep = false → x.queue = [] → x.state = .steady → s.handlerOf (epCore ep) (g.mrgh % 2 ^ 12) = some (entry, ec) →
       s.partOf (epCore ep) = part → g.det = true →
       ∃ t, exec (.mergeStart part n ep) s = .next t ∧ (t.thr ep).busy = true ∧ (t.thr ep).routine = .merge n ∧
         (t.thr ep).regs.pc = entry ∧ (t.thr ep).regs.g[1] = BitVec.ofNat 64 g.orig ∧
         (t.thr ep).regs.g[2] = BitVec.ofNat 64 n))

/-! ### Traps and the system instructions -/

/-- R76, R420, R423, R424, R426, R443, R444: taking a trap: a drained thread outside trap mode, with valid handler and
frame registers, saves the cause word and the epc, enters trap mode at the handler, whose first instruction issues 40
cycles after the drain, and finds its registers in its frame; no other thread changes. TRAP, BRK and a word that is no
instruction trap with their causes; a trap that waited is entered when its thread has drained, and a fatal one retires
the unit and tells the pager. ERET outside trap mode is a reserved instruction; in trap mode, from a frame that holds
what R424 says, every register that the frame holds comes back from it and the thread leaves trap mode; a frame that
does not is a fatal trap of cause 0x06 that waits to retire the unit. The model's own choices in it, and no rules of
the manual, by rows of the assumption log: log 22 (results of more than one cycle are known by the core's own cycle
count); log 23 (A re-injected replay entry keeps its distance, and gives a free value where its address no longer
holds an instruction); log 24 (ERET fetches a repetition's body again); log 25 (answers of a tree unit, a distributor
or a stage home that come in trap mode are delivered at ERET). -/
def Obligations.Traps : Prop :=
  (∀ (s : State) (cause : Nat) (imp : Bool) (d0 : Word) (epc : W32), s.me.gang = none → s.me.drained = true →
     s.fatal s.cur = false → s.me.late = [] → s.me.pend = [] →
     let k := s.core s.curCore
     let t := s.raiseAt cause imp d0 epc
     t.me.cause = causeWord cause imp ∧ t.me.epc = epc ∧ t.me.trap = true ∧ t.me.trapPend = none ∧ t.me.rep = none ∧
       t.me.regs.pc = k.tvec.setWidth 32 ∧
       { t.me.regs with pc := s.me.regs.pc, pix := s.me.regs.pix, gtouch := s.me.regs.gtouch } = s.me.regs ∧
       t.me.regs.pix = 0 ∧ t.me.regs.gtouch = 0 ∧ t.me.issueAt = s.me.drainAt k.clock + 40 ∧ t.me.unit = s.me.unit ∧ t.me.occ = s.me.occ ∧ OthersSame s t ∧
       t.msgs = s.msgs ∧ t.reqs = s.reqs ∧
       (Safe s → k.blocks = [] → frameBase k s.cur + 0x368 ≤ 2 ^ 20 → s.cur < 2 ^ 18 → ∀ i, i < 109 →
         t.mem.readWord (padKey s.curCore (frameBase k s.cur + 8 * i)) =
           (frameWords (causeWord cause imp) d0 epc { s.me with rq := List.replicate 16 {} }).getD i 0)) ∧
  (∀ (s : State) (code : BitVec 16) (e : DecodeError) (epc : W32) (d0 : Word),
     exec (.trap code) s = .next (s.raiseAt 0x35 false (code.setWidth 64) (nextPc s.me.regs.pc 8)) ∧
     exec (.brk code) s = .next (s.raiseAt 0x36 false (code.setWidth 64) s.me.regs.pc) ∧
     exec (.reservedInstruction e epc d0) s = .next (s.raiseAt
       (match e with
         | .fetchAddress => 0x03
         | .fetchWindow => 0x02
         | .repetition => 0x04
         | _ => 0x01) false
       (match e with
         | .fetchWindow | .repetition => 0
         | _ => d0) epc) ∧
     (∀ (ep : Nat) (cw w : Word) (p : W32), (s.thr ep).trapPend = some (cw, w, p) → (s.thr ep).busy = true →
       (s.thr ep).wait ≠ .gangHalt → (s.thr ep).rback = none → s.isHeld ep = false →
       (s.fatal ep = false → (s.thr ep).drained = true → ∃ t, exec (.trapEntry ep) s = .next t ∧ t = s.enterTrap ep cw w p ∧
         (t.thr ep).cause = cw ∧ (t.thr ep).epc = p ∧ (t.thr ep).trap = true) ∧
       (s.fatal ep = false → (s.thr ep).drained = false → exec (.trapEntry ep) s = .next s) ∧
       (s.fatal ep = true → (s.sysReg .pager (s.ctxOf (epCore ep)) (epDie ep)).getLsbD 63 = true →
         ∃ t m, exec (.trapEntry ep) s = .next t ∧ m ∈ t.msgs ∧ (m.payload.getD 0 0).extractLsb' 56 8 = 0x27 ∧
           m.payload.getD 1 0 = cw ∧ m.payload.getD 3 0 = p.setWidth 64))) ∧
  (∀ s : State, s.me.gang = none →
     (s.me.trap = false → exec .eret s = .next (s.raiseAt 0x01 false
       (s.mem.readWord (padKey s.curCore s.me.regs.pc.toNat)) s.me.regs.pc)) ∧
     (let k := s.core s.curCore
      let f := (List.range 109).map fun i => s.mem.readWord (padKey s.curCore (frameBase k s.cur + 8 * i))
      s.me.trap = true → k.blocks = [] → frameBad s.mem s.curCore f = true →
        ∃ t, exec .eret s = .next t ∧ t.me = { s.me with trapPend := some (0x06, 0, s.me.regs.pc), wait := .none } ∧
          t.mem = s.mem ∧ OthersSame s t) ∧
     (let k := s.core s.curCore
      let f := (List.range 109).map fun i => s.mem.readWord (padKey s.curCore (frameBase k s.cur + 8 * i))
      s.me.trap = true → k.blocks = [] → frameBad s.mem s.curCore f = false → (∀ e, e ∈ s.me.rq → e.valid = false) →
        (∀ p, p ∈ s.me.pend → p.val = none) →
        ∃ t, exec .eret s = .next t ∧ t.me.trap = false ∧ t.me.regs = frameRegs f s.me.regs.gtouch ∧
          t.me.regs.pc = (f.getD 1 0).setWidth 32 ∧ t.me.rq = List.replicate 16 {} ∧ t.mem = s.mem ∧ OthersSame s t ∧
          t.me.unit = s.me.unit ∧ t.me.occ = s.me.occ))

/-- R79, R425, R443-R447, R2: NOP and FILL only move the pc; the replay queue is read and written in trap mode and
nowhere else; SRR reads a register without effect; SRW writes an allowed value to one, keeps reserved bits zero, and
raises cause 0x06 for a value or a register that it may not write; HALT stops the thread where it is and tells the
pager; KILL asks for the purge of the context, and its thread goes no further. The model's own choices in it, and no
rules of the manual, by rows of the assumption log: log 26 (an illegal endpoint written to sr.pager raises the
register-value fault); log 154 (A value of sr.vl or sr.ba is checked on all of its 64 bits). -/
def Obligations.SystemInstructions : Prop :=
  ∀ (s : State) (d : Dst) (a : Src) (e : Fin 16) (w : BitVec 2) (reg : BitVec 12) (reason : BitVec 16),
    let v := s.raw 0 a
    (∃ t, exec .nop s = .next t ∧ Passed s t 8) ∧ (∃ t, exec .fill s = .next t ∧ Passed s t 8) ∧
    (s.me.trap = false → exec (.rqread d e w) s = .next s.reserved ∧ exec (.rqwrite a e w) s = .next s.reserved) ∧
    (s.me.trap = true →
      (∃ t, exec (.rqread d e w) s = .next t ∧ Result s t d ((s.me.rq.getD e.val {}).words.getD w.toNat 0) 8) ∧
      (w = 0 → v.getLsbD 63 = true → (s.me.rq.getD e.val {}).valid = false →
        exec (.rqwrite a e w) s = .next (s.raise 0x06 v)) ∧
      (w ≠ 0 → s.me.rq.length = 16 → ∃ t, exec (.rqwrite a e w) s = .next t ∧ Over s t 8 ∧ NoPush s t ∧ OnlyMe s t ∧
        (∀ j : Fin 16, j ≠ e → t.me.rq.getD j.val {} = s.me.rq.getD j.val {}) ∧
        (t.me.rq.getD e.val {}).words.getD w.toNat 0 = v)) ∧
    (∃ t, exec (.srr d reg) s = .next t ∧ Result s t d (s.sysRead reg.toNat) 8) ∧
    (writable reg.toNat = false ∨ s.sysOk reg.toNat v = false → exec (.srw a reg) s = .next (s.raise 0x06 v)) ∧
    (writable reg.toNat = true → s.sysOk reg.toNat v = true → ∃ t, exec (.srw a reg) s = .next t ∧ Over s t 8 ∧
      NoPush s t ∧ OthersSame s t ∧ t.msgs = s.msgs ∧
      (reg = 0x007 → t.me.regs.vl = v.setWidth 7 ∧ OnlyMe s t) ∧
      (reg = 0x010 → t.me.regs.ba = v.setWidth 35 ∧ OnlyMe s t) ∧
      (reg = 0x006 → (v.setWidth 32 : W32) ≠ 0 → t.me.regs.rng = v.setWidth 32 ∧ OnlyMe s t) ∧
      (reg = 0x023 → (t.core s.curCore).tvec = v &&& 0x80000000FFFFFFFF ∧ t.threads = (s.done 8).threads) ∧
      (reg = 0x024 → (t.core s.curCore).tframe = v &&& 0x80000000FFFFFFFF) ∧
      (reg = 0x030 → t.sysReg .pager s.myCtx (epDie s.cur) = v &&& 0x80000FFF0003FFFF) ∧
      (reg = 0x034 → t.sysReg .wdog s.myCtx (epDie s.cur) = v &&& 0xFFFFFFFF)) ∧
    (v.getLsbD 63 = false → s.holding s.cur = false → ∃ t, exec (.srwTsink a) s = .next t ∧
      (t.sysReg .tsink (s.tenantOf s.myCtx) (epDie s.cur)).getLsbD 63 = false ∧ NoPush s t ∧
      ((s.sink (s.tenantOf s.myCtx)).valid = false → Over s t 8 ∧ OthersSame s t ∧ t.sinks = s.sinks)) ∧
    (∀ u, v.getLsbD 63 = true →
      s.openSink (s.tenantOf s.myCtx) s.myCtx v (s.sysReg .tsinkc (s.tenantOf s.myCtx) (epDie s.cur)) = some u →
      ∃ t, exec (.srwTsink a) s = .next t ∧ NoPush s t ∧ Over s t 8 ∧ OthersSame s t ∧
        t.sysReg .tsink (s.tenantOf s.myCtx) (epDie s.cur) = v &&& 0x81FFFFFFFFFFFFFF ∧
        (t.sink (s.tenantOf s.myCtx)).valid = true ∧ (t.sink (s.tenantOf s.myCtx)).ctx = s.myCtx) ∧
    (v.getLsbD 63 = true →
      s.openSink (s.tenantOf s.myCtx) s.myCtx v (s.sysReg .tsinkc (s.tenantOf s.myCtx) (epDie s.cur)) = none →
      exec (.srwTsink a) s = .next (s.raise 0x06 v)) ∧
    (s.me.gang = none → (s.sysReg .pager s.myCtx (epDie s.cur)).getLsbD 63 = true → ∃ t m, exec .halt s = .next t ∧
      t.me = { s.me with wait := .halted } ∧ t.msgs = s.msgs ++ [m] ∧
      m.dest = fld (s.sysReg .pager s.myCtx (epDie s.cur)) 0 18 ∧ (m.payload.getD 0 0).extractLsb' 56 8 = 0x2B ∧
      t.mem = s.mem ∧ OthersSame s t) ∧
    ((s.ctx s.myCtx).kill = none → ∃ t, exec (.kill reason) s = .next t ∧ { t with ctxs := s.ctxs } = s ∧
      (t.ctx s.myCtx).kill = some (reason.toNat, 0)) ∧
    ((s.ctx s.myCtx).kill.isSome = true → exec (.kill reason) s = .next s)

/-- R428, R430, R433-R437, R446: a pre-emption is accepted for a running thread with handler and frame; a follower's
fault tells the pager; RBACK refuses an endpoint outside a team and its own team, and else takes the drained members
back to their checkpoints and gives every byte that an undo entry of theirs covers the value of the oldest such entry,
and no other byte of memory changes but in the last reels; an overtime unit is reported once. The model's own choices
in it, and no rules of the manual, by rows of the assumption log: log 29 (RBACK stops its team's members and restores
them in one step once they have stopped); log 30 (watchdog time counts parked units, and a parked unit's report names
the endpoint that parked); log 31 (gang followers run exactly their skew behind their leader, and a follower's own
transfers do not steer it); log 161 (the requester in the detail of cause 0x34 is the owner code of R439). -/
def Obligations.TeamsAndWatchdogs : Prop :=
  ∀ (s : State) (d : Dst) (a : Src) (ep by_ : Nat),
    (s.pageOpen 5 = true →
      (∃ t, exec (.preempt ⟨ep, by_⟩) s = .next t ∧ t.mem = s.mem ∧ t.cores = s.cores ∧ (t.result 5).getLsbD 63 = true) ∧
      ((s.thr ep).busy = false →
        ∃ t, exec (.preempt ⟨ep, by_⟩) s = .next t ∧ fld (t.result 5) 0 8 = 1 ∧ t.threads = s.threads) ∧
      ((s.thr ep).busy = true → (s.core (epCore ep)).tvec.getLsbD 63 = true → (s.core (epCore ep)).tframe.getLsbD 63 = true →
        ((s.thr ep).preempt = none → ∃ t, exec (.preempt ⟨ep, by_⟩) s = .next t ∧ fld (t.result 5) 0 8 = 0 ∧
          t.thr ep = { s.thr ep with preempt := some by_ }) ∧
        ((s.thr ep).preempt ≠ none →
          ∃ t, exec (.preempt ⟨ep, by_⟩) s = .next t ∧ fld (t.result 5) 0 8 = 3 ∧ t.threads = s.threads))) ∧
    (∀ (cw w : Word) (p : W32), (s.thr ep).trapPend = some (cw, w, p) → (s.thr ep).wait = .gangHalt →
      (s.membersOf ep).any (fun m => (s.thr m).ovf) = false →
      (s.sysReg .pager (s.ctxOf (epCore ep)) (epDie ep)).getLsbD 63 = true →
      ∃ t m, exec (.gangFollowerFault ep) s = .next t ∧ t.msgs = s.msgs ++ [m] ∧
        (m.payload.getD 0 0).extractLsb' 56 8 = 0x2A ∧ m.payload.getD 2 0 = cw ∧
        t.thr ep = { s.thr ep with trapPend := none }) ∧
    (let e := fld (s.raw 0 a) 0 18
     let ms := s.teamOf s.myCtx (s.thr e).team
     (validEp e = false ∨ (s.thr e).team = .none ∨ ms.contains e = false ∨ ms.contains s.cur = true →
       ∃ t, exec (.rback d a) s = .next t ∧ Result s t d 2 8) ∧
     (validEp e = true → (s.thr e).team ≠ .none → ms.contains e = true → ms.contains s.cur = false →
       (∀ m, m ∈ ms → (s.thr m).rback = none) →
       ((∃ m, m ∈ ms ∧ (s.thr m).ovf = true) → ∃ t, exec (.rback d a) s = .next t ∧ Result s t d 1 8) ∧
       ((∀ m, m ∈ ms → (s.thr m).ovf = false ∧ (s.thr m).drained = true) → ms.length < 256 →
         ∃ t, exec (.rback d a) s = .next t ∧ Pushed s t d (BitVec.ofNat 64 (ms.length * 256)) ∧ Over s t 8 ∧
           (∀ m c, m ∈ ms → (s.thr m).ckpt = some c → (t.thr m).regs = c.regs ∧ (t.thr m).trap = false ∧
             (t.thr m).trapPend = none ∧ (t.thr m).late = [] ∧ (t.thr m).slow = []) ∧
           (Safe s → ∀ x, x < 2 ^ 55 → t.mem.read x =
             match (undoWords s ms).find? fun (k, _) => k ≤ x && x < k + 8 with
             | some (k, v) => (v >>> (8 * (x - k))).setWidth 8
             | none => s.mem.read x) ∧
           (∀ m, m ∉ ms → m ≠ s.cur → t.thr m = s.thr m)) ∧
       ((∃ m, m ∈ ms ∧ (s.thr m).drained = false) → (∀ m, m ∈ ms → (s.thr m).ovf = false) →
         ∃ t, exec (.rback d a) s = .next t ∧ t.me = s.me ∧ t.mem = s.mem ∧
           ∀ m, m ∈ ms → (t.thr m).rback = some s.cur))) ∧
    (∀ (c : Nat) (ms : List Nat),
     let us := (s.core c).undo.filter fun u => ms.contains (coreEp c u.thread)
     Safe s → us.Pairwise (fun x y => x.addr + 8 ≤ y.addr ∨ y.addr + 8 ≤ x.addr) →
       ∀ u, u ∈ us → (s.undo c ms).mem.readWord (padKey c u.addr) = u.old) ∧
    (let t0 := s.thr ep
     t0.busy = true → t0.hung = false → s.leaderOf ep = ep →
       s.overtime ep t0.unit.start (t0.stalled + s.stallNow ep) = true →
       (s.sysReg .pager (s.ctxOf (epCore ep)) (epDie ep)).getLsbD 63 = true →
       ∃ t m, exec (.watchdogExpiry ep) s = .next t ∧ t.msgs = s.msgs ++ [m] ∧
         (m.payload.getD 0 0).extractLsb' 56 8 = 0x29 ∧ t.thr ep = { t0 with hung := true } ∧ t.mem = s.mem)
/-! ### Trace and time -/

/-- R273, R276, R280, R285, R286: a trace instruction passes when no sink takes its class; else it forms its slate
with its stamp, which enters a share with room; a full lossless share holds the thread, whose instruction ends when
the slate is admitted. TSREAD and TMARK push the stamp. The model's own choices in it, and no rules of the manual, by
rows of the assumption log: log 73 (A trace instruction's slate is admitted to every sink or held for all). -/
def Obligations.TraceInstructions : Prop :=
  ∀ (s : State) (ev : BitVec 6) (pay : BitVec 22) (a b : Src) (d : Dst) (k : Nat),
    let die := epDie s.cur
    let time := Nat.max (s.ctime die) (s.floor s.cur + 1)
    let sh := s.share die k
    let hide := k == 0 && s.hides s.myCtx
    let plain := hostCopy hide time ev.toNat s.myCtx s.cur (fld (s.raw 0 a) 0 22) none
    let long := hostCopy hide time (ev.toNat ||| 0x400) s.myCtx s.cur pay.toNat (some (s.raw 0 a, s.raw 0 b))
    let mark := hostCopy hide time 0x040 s.myCtx s.cur pay.toNat none
    (s.sinksFor die s.myCtx 0 = [] → (∃ t, exec (.tev ev a) s = .next t ∧ Passed s t 8) ∧
      ∃ t, exec (.tevx ev pay a b) s = .next t ∧ Passed s t 8) ∧
    (∃ t, exec (.tsread d) s = .next t ∧ Pushed s t d (BitVec.ofNat 64 time) ∧ Over s t 8 ∧ KeepsRegs s t ∧
      t.floor s.cur = time ∧ { t with threads := s.threads, floors := s.floors } = s) ∧
    (s.sinksFor die s.myCtx 1 = [] → ∃ t, exec (.tmark d pay) s = .next t ∧ (s.holding s.cur = false →
      Pushed s t d (BitVec.ofNat 64 time) ∧ Over s t 8 ∧ KeepsRegs s t ∧
      { t with threads := s.threads, floors := s.floors } = s)) ∧
    (s.holding s.cur = false → s.sinkOn die k = true → (sh.lossless = true ∨ sh.drops = 0) → 2 ≤ sh.room →
      (s.sinksFor die s.myCtx 0 = [k] →
        (∃ t, exec (.tev ev a) s = .next t ∧ (t.share die k).slates = sh.slates ++ [plain] ∧ Over s t 8 ∧
          KeepsAllRegs s t ∧ OthersSame s t ∧ (k ≠ 0 → t.mem = s.mem) ∧ t.floor s.cur = time) ∧
        (∃ t, exec (.tevx ev pay a b) s = .next t ∧ (t.share die k).slates = sh.slates ++ [long] ∧ Over s t 8 ∧
          KeepsAllRegs s t ∧ OthersSame s t ∧ (k ≠ 0 → t.mem = s.mem) ∧ t.floor s.cur = time)) ∧
      (s.sinksFor die s.myCtx 1 = [k] → ∃ t, exec (.tmark d pay) s = .next t ∧
        (t.share die k).slates = sh.slates ++ [mark] ∧ Pushed s t d (BitVec.ofNat 64 time) ∧ Over s t 8 ∧ KeepsRegs s t ∧
        OthersSame s t ∧ (k ≠ 0 → t.mem = s.mem))) ∧
    (s.sinkOn die k = true → sh.lossless = true → sh.room = 0 → s.sinksFor die s.myCtx 0 = [k] →
      ∃ t h, exec (.tev ev a) s = .next t ∧ t.held = s.held ++ [h] ∧ h.slate = plain ∧ h.src = s.cur ∧ h.full = true ∧
        t.me = { s.me with wait := .slate none (.tev ev a) } ∧ t.shares = s.shares) ∧
    (∀ (who : Nat) (h : Held), s.held = [h] → h.src = who → h.room s = true → s.fenced = [] → validEp who = true →
      ∃ t, exec (.slateAdmitHeld who) s = .next t ∧ t.held = [] ∧
        (∀ i, (s.thr who).wait = .slate none i → (s.thr who).rep = none → (t.thr who).wait = .none ∧
          (t.thr who).regs.pc = nextPc (s.thr who).regs.pc 8) ∧
        (s.sinkOn h.die h.tenant = true → (s.share h.die h.tenant).lossless = true →
          ∃ xs, (t.share h.die h.tenant).slates = (s.share h.die h.tenant).slates ++ h.slate :: xs)) ∧
    (∀ (who : Nat) (h : Held), s.held = [h] → h.src = who → h.room s = false → exec (.slateAdmitHeld who) s = .next s)

/-- R281, R282, R287, R288, R445, R458, R466: a batch of a share is written to its ring with the header behind it, and
leaves the share; a drain that faults stops and is tried again; a register's write reaches each die in its turn; the
trace page writes masks, opens and closes the host's sink, and gives out a last reel. The discipline of `ctime`: the
sixteenth good interval locks the base, four seconds without one while it is locked make it hold over, a lost
reference restarts the count, and a change of source or of port, and no other, returns it to free run. The model's own
choices in it, and no rules of the manual, by rows of the assumption log: log 76 (the drain of a trace buffer passes
no egress meter); log 77 (A write of a trace mask is told and takes effect die by die); log 78 (the rate of the time
base is free within 100 parts per million, but for the first lock). -/
def Obligations.TraceFabric : Prop :=
  (∀ (s : State) (die k : Nat),
     let sh := s.share die k
     let x := s.sink k
     let io := s.bufferDie die
     (∀ bs s1, x.valid = true → s.sinks.all (fun (_, y) => !y.closing) = true → x.closing = false →
       s.farRead (drainWalk io) x.ctx (x.base + 8) 8 io = (.ok bs, s1) → leNat bs = x.produced →
       12 ≤ x.lg → x.lg ≤ 30 → x.produced < 2 ^ 64 →
       (∀ y n, sh.slates = [y] → y.ext = none → n = 2 ^ x.lg / 16 - 4 →
         let t0 := s1.raiseFloor (drainSrc io) (s1.countFloor x.ctx io (x.base + 8))
         let ws := [(x.base + 64 + x.produced % n * 16, y.bytes),
           (x.base + 16, leBytes 8 ((x.drops + payloadsOf 0x2C1 [y]) % 2 ^ 64)),
           (x.base + 24, leBytes 8 ((x.stall + payloadsOf 0x2C0 [y]) % 2 ^ 64)),
           (x.base, leBytes 8 ((x.produced + 1) % 2 ^ 64))]
         y.bytes ≠ (⟨(t0.stamp (drainSrc io) io).1, slateLow 0x2C5 0 (drainSrc io) 0, none⟩ : Slate).bytes →
         ∀ ls u, t0.drainLands x.ctx io ws = (.ok ls, u) → u.linksFit ls = true →
         (sh.faulted = false → ∃ t, exec (.traceDrain die k) s = .next t ∧ (t.share die k).slates = [] ∧
           (t.sink k).produced = x.produced + 1 ∧ (t.share die k).faulted = false ∧ t.mem = (u.landAll x.ctx (drainSrc io) ls).mem) ∧
         (sh.faulted = true → ∃ t, exec (.traceDrainRetry die k) s = .next t ∧ (t.share die k).slates = [] ∧
           (t.sink k).produced = x.produced + 1 ∧ (t.share die k).faulted = false ∧ t.mem = (u.landAll x.ctx (drainSrc io) ls).mem))) ∧
     (∀ f s1, sh.slates ≠ [] → x.valid = true → x.closing = false → sh.faulted = false →
       s.farRead (drainWalk io) x.ctx (x.base + 8) 8 io = (.failed f, s1) →
       ∃ t xs, exec (.traceDrain die k) s = .next t ∧ (t.share die k).faulted = true ∧
         (t.share die k).slates = sh.slates ++ xs) ∧
     (∀ w rest, takeWrite die s.regLog = some (w, rest) → (w.tell ≠ some die ∨ s.isHeld (securitySrc die) = false) →
       ∃ t, exec (.takesEffectOnDie die) s = .next t ∧ t.sysReg w.reg w.owner die = w.value ∧ t.regLog = rest ∧
         t.threads = s.threads ∧ (w.tell ≠ some die → t.mem = s.mem)) ∧
     (∀ (tn port : Nat) (m : BitVec 16), s.pageOpen 1 = true → tn < 256 → port < 2 →
       ∃ t, exec (.writeHmask tn m port) s = .next t ∧
         t.regLog = s.regLog ++ [⟨.hmask, tn, m.setWidth 64, allDies, some (16 + port)⟩] ∧ fld (t.result 1) 0 8 = 0 ∧
         t.threads = s.threads ∧ t.mem = s.mem) ∧
     (∀ (w c : Word) (ctx : Nat), s.pageOpen 1 = true → (s.ctx ctx).inUse = true → ctx ≠ 0 →
       (∀ u, w.getLsbD 63 = true → s.openSink 0 ctx w c = some u → ∃ t, exec (.configHostSink w c ctx) s = .next t ∧
         (t.sink 0).valid = true ∧ (t.sink 0).ctx = ctx ∧ fld (t.result 1) 0 8 = 0 ∧
         t.sysReg .tsink 0 s.securityDie = w &&& 0x81FFFFFFFFFFFFFF) ∧
       (w.getLsbD 63 = true → s.openSink 0 ctx w c = none → ∃ t, exec (.configHostSink w c ctx) s = .next t ∧
         fld (t.result 1) 0 8 = 1 ∧ t.sinks = s.sinks) ∧
       (w.getLsbD 63 = false → ∃ t, exec (.configHostSink w c ctx) s = .next t ∧
         (t.sysReg .tsink 0 s.securityDie).getLsbD 63 = false)) ∧
     (∀ bus : Nat, s.pageOpen 1 = true → allDies.contains die = true → ∃ t, exec (.readLastReel die bus) s = .next t ∧
       t.busOut = s.busOut ++ [.control 1 0 .successful, .host bus (s.mem.readBytes 0x10000 (reelKey die 0))] ∧
       { t with busOut := s.busOut, results := s.results } = s ∧
       fld (t.result 1) 8 32 = nget 0 s.reelNext die % 2 ^ 32)) ∧
  (∀ (s : State) (off : Int) (v : Word),
     let b := s.timeBase
     (fld s.boot.time 0 2 ≠ 0 → s.securityHeld = false →
       (∃ t, exec (.ptpSync off false) s = .next t ∧ { t with timeBase := b } = s ∧ t.timeBase = { b with good := 0 }) ∧
       (b.state = 1 → b.good = 15 → (off - b.firstOffset).natAbs ≤ 800 → ∃ t, exec (.ptpSync off true) s = .next t ∧
         t.timeBase.state = 2 ∧ t.timeBase.lastSync = s.now ∧ -100000 ≤ t.timeBase.rate ∧ t.timeBase.rate ≤ 100000 ∧
         t.threads = s.threads ∧ t.now = s.now ∧
         (t.ctimeOff = if b.stepped = false ∧ 0 < off then s.ctimeOff + off else s.ctimeOff) ∧
         (b.stepped = false → off < 0 → t.timeBase.rate = -100000 ∧ t.timeBase.behind = some off.natAbs)) ∧
       (b.state = 2 → ∃ t, exec (.ptpSync off true) s = .next t ∧ t.timeBase.state = 2 ∧ t.timeBase.lastSync = s.now ∧
         -100000 ≤ t.timeBase.rate ∧ t.timeBase.rate ≤ 100000 ∧ t.ctimeOff = s.ctimeOff ∧ t.threads = s.threads) ∧
       (b.state = 1 → b.good = 0 → ∃ t, exec (.ptpSync off true) s = .next t ∧
         t.timeBase = { b with good := 1, firstOffset := off, lastSync := s.now } ∧ { t with timeBase := b } = s) ∧
       (b.state = 0 ∨ b.state = 3 → ∃ t, exec (.ptpSync off true) s = .next t ∧ t.timeBase.state = 1 ∧
         t.timeBase.good = 1 ∧ t.ctimeOff = s.ctimeOff)) ∧
     (s.securityHeld = false →
       (b.state = 2 → b.lastSync + 4000000 * Config.usTicks ≤ s.now → ∃ t, exec .timebaseHoldover s = .next t ∧
         t.timeBase = { b with state := 3, good := 0, behind := none } ∧ t.ctimeOff = s.ctimeOff) ∧
       (b.state ≠ 2 → exec .timebaseHoldover s = .next s) ∧
       (fld v 0 2 ≠ 3 → fld v 16 8 < 128 → ∃ t, exec (.timeControlWrite v) s = .next t ∧
         t.boot.time = BitVec.ofNat 64 (fld v 16 8 * 2 ^ 16 + fld v 8 4 * 2 ^ 8 + fld v 4 1 * 16 + fld v 0 2) ∧
         (fld v 0 2 ≠ fld s.boot.time 0 2 → b.state ≠ 0 → t.timeBase.state = 0 ∧ t.timeBase.rate = 0) ∧
         (fld v 8 4 ≠ fld s.boot.time 8 4 → b.state ≠ 0 → t.timeBase.state = 0 ∧ t.timeBase.rate = 0) ∧
         (fld v 0 2 = fld s.boot.time 0 2 → fld v 8 4 = fld s.boot.time 8 4 → t.timeBase = b)) ∧
       (fld v 0 2 = 3 ∨ 128 ≤ fld v 16 8 → exec (.timeControlWrite v) s = .next s)))

/-! ### Kill and recovery -/

/-- R384, R438, R440, R441, R442: the purge of a context: the sweep resets its cores' threads, unbinds the cores, and
discards its messages and its accesses but for writes that have been translated, which complete; the confirmation
gives the withdrawal of its nodes to the tree unit; at the end its record is back at reset, the claimant is told, and
the pages that asked get their answer. A cause of a fence is kept for the security processor, which fences the die:
its pair leaves dispatch with no allowance and an election begins, and the claimant is told; a replica takes over the
service state of a fenced I/O die. The model's own choices in it, and no rules of the manual, by rows of the
assumption log: log 51 (fencing only the M-die of a pair leaves the counts of units on the V-die as they are until the
election); log 52 (only untranslated far accesses and all peer accesses of a lost pair count as lost with it); log 53
(KILL resets the context's threads in the step of its sweep); log 155 (units that messages in a fenced die's send
buffers would have started count as exited with error). -/
def Obligations.PurgesAndFences : Prop :=
  (∀ (s : State) (ctx : Nat),
     let c := s.ctx ctx
     let gone (t : State) : Prop :=
       (∀ m, m ∈ t.msgs → hdrCtx m.hdr ≠ ctx) ∧
       (∀ r, r ∈ t.reqs → r.ctx = ctx → r.kind.writes = true ∧ r.pad = none ∧ r.land.isSome = true ∧ r.holds = false) ∧
       (∀ k, (t.core k).bound ≠ some ctx) ∧ ∀ ep, (s.core (epCore ep)).bound = some ctx → t.thr ep = {}
     (c.phase = some 0 → ∃ t, exec (.killSweep ctx) s = .next t ∧ gone t ∧ (t.ctx ctx).phase = some 1) ∧
     (c.phase ≠ some 0 → exec (.killSweep ctx) s = .next s) ∧
     (c.phase = some 1 → ∃ t, exec (.killConfirm ctx) s = .next t ∧ gone t ∧ (t.ctx ctx).phase = some 2) ∧
     (c.phase = some 2 → s.nodes.any (fun (_, n) => n.ctx == ctx) = false → s.treeOps = [] → nget [] s.treeQ c.part = [] →
       s.securityHeld = false → NMap.wf s.ctxs = true → (∀ q c, (q, c) ∈ s.debug → c ≠ ctx) →
       ∃ t, exec (.killComplete ctx) s = .next t ∧ t.ctx ctx = {} ∧ (14, nget 1 s.claims 14, [BitVec.ofNat 64 ctx]) ∈ t.notices ∧
         ∀ p, p ∈ c.killers → (t.result p).getLsbD 63 = true ∧ fld (t.result p) 0 8 = 0) ∧
     (c.phase = some 2 → s.nodes.any (fun (_, n) => n.ctx == ctx) = true → exec (.killComplete ctx) s = .next s)) ∧
  (∀ (s : State) (die : Nat),
     (realDie die = true → s.fenced.contains die = false → s.toFence.any (fun (d, a) => d == die && a == false) = false →
       ∀ i, i ∈ [Instr.uncorrectableError die, Instr.heartbeatLoss die, Instr.thermalTrip die] →
         ∃ t, exec i s = .next t ∧ t.toFence = s.toFence ++ [(die, false)] ∧ { t with toFence := s.toFence } = s) ∧
     (s.fenced.contains die = true → ∀ i, i ∈ [Instr.uncorrectableError die, Instr.heartbeatLoss die, Instr.thermalTrip die] →
       exec i s = .next s) ∧
     (s.toFence.any (·.1 == die) = true → s.isHeld (securitySrc s.securityDie) = false → s.fenced.contains die = false →
       ∃ t, exec (.dieFence die) s = .next t ∧ t.fenced = s.fenced ++ [die] ∧ t.toFence.any (·.1 == die) = false ∧
         t.boot.repl = true ∧ (8, nget 1 s.claims 8, [BitVec.ofNat 64 die]) ∈ t.notices ∧
         (isVDie die = true → (t.pair die).fenced = true ∧ (t.pair die).allowance = 0 ∧
           (nfind t.elections (pairPart s.parts die)).isSome = true) ∧
         (isVDie die = false → isMDie die = true → (t.pair (die - 8)).fenced = true ∧ (t.pair (die - 8)).allowance = 0 ∧
           (nfind t.elections (pairPart s.parts (die - 8))).isSome = true)) ∧
     (s.toFence.any (·.1 == die) = false → exec (.dieFence die) s = .next s) ∧
     (isIoDie die = true → s.takingOver die = true → ∃ t, exec (.serviceFailover die) s = .next t ∧ t.failover = true ∧
       t.notices = s.notices ++ [(15, nget 1 s.claims 15, [BitVec.ofNat 64 die])] ∧
       { t with failover := s.failover, notices := s.notices } = s))

/-! ### Vector, pointer and bit instructions -/

/-- R136, R138-R140, R143-R145: an elementwise instruction whose operands pass the checks gives every active lane the
result of its table from the old operands, leaves every other lane alone, advances each pointer that it used once, and
pushes nothing; an operand that fails a check raises its fault. The model's own choices in it, and no rules of the
manual, by rows of the assumption log: log 159 (the operands of a vector instruction are checked in the order pa, pb,
pd). -/
def Obligations.VectorResults : Prop :=
  ∀ (i : Instr) (s : State) (w : Lanewise), i.wf = true → Safe s → vectorTable s i = some w →
    let o := w.op
    let active := (List.range 64).filter fun l => l < s.me.regs.vl.toNat && s.me.regs.maCol[o.mask].getLsbD l
    let ptrs := usedPtrs o w.hasB
    let gen (l : Nat) : W32 := rngAfterSteps s.me.regs.rng (if w.steps then (active.filter (· < l)).length else 0)
    let v (l : Nat) : W32 := w.f (gen l) l (vecA s o l) (vecB s o l)
    let base : W32 := s.me.regs.p[o.pd].setWidth 32
    match checkAll s.curCore (laneElem w.ty) s.me.regs.p active ptrs with
    | some (c, d0) => exec i s = .next (s.raise c d0)
    | none => ∃ t, exec i s = .next t ∧ Over s t 12 ∧ NoPush s t ∧ OthersSame s t ∧
        t.me.regs.p = (s.me.regs.stepPtrs ptrs).p ∧ t.me.regs.g = s.me.regs.g ∧ t.me.unit = s.me.unit ∧
        t.me.regs.rng = rngAfterSteps s.me.regs.rng (if w.steps then active.length else 0) ∧
        (o.dsel = false → t.mem = s.mem ∧
          ∀ l : Fin 64, t.me.regs.acc[l] = if active.contains l.val then v l.val else s.me.regs.acc[l]) ∧
        (o.dsel = true → t.me.regs.acc = s.me.regs.acc ∧
          (∀ x, (∀ l, l ∈ active → x < vecKey s base l ∨ vecKey s base l + 4 ≤ x) → t.mem.read x = s.mem.read x) ∧
          ((s.core s.curCore).blocks = [] → ∀ l, l ∈ active → vecWord t base l = v l))

/-- R137, R138, R142, R145, R146, R147, R148: the vector instructions of other shapes, at every type, operand and
modifier: VLA widens elements exactly, VSA rounds each lane once into memory, VBCAST repeats one value, VCMP pushes
the bitmap of the lanes where its relation holds and may keep it in a mask, VRED pushes the result of the tree; a lane
that is not active keeps its value. Under .rsr the generator steps once for each rounding of VSA and each combination
of VRED (whose .f32 sum is then not stated). VGATH and VSCAT move one lane a step, from `sr.pix`: the lane's own word,
the others as they were; the last lane, or no lane left, ends the instruction, with `sr.pix` at 0 and the pointers
advanced once; a lane whose address fails a check faults with `sr.pix` at it, and a base that fails one faults before
any lane. The model's own choices in it, and no rules of the manual, by rows of the assumption log: log 145 (A VSCAT
or VGATH lane reads its index when the lane is processed); log 158 (VPERM on .f32 takes the low six bits of the bit
pattern); log 159 (the operands of a vector instruction are checked in the order pa, pb, pd). -/
def Obligations.VectorMoves : Prop :=
  (∀ (s : State) (m : Fin 4) (p : Fin 8) (o : VOp) (ctl : BitVec 5) (e : ElemTy) (ty : LaneTy),
     let lanes (m : Fin 4) := (List.range 64).filter fun l => l < s.me.regs.vl.toNat && s.me.regs.maCol[m].getLsbD l
     let base (p : Fin 8) : W32 := s.me.regs.p[p].setWidth 32
     let acc := s.me.regs.acc
     let open_ := (s.core s.curCore).blocks = [] ∧ Safe s
     let steps (t : State) (n : Nat) : Prop :=
       t.me.regs.rng = rngAfterSteps s.me.regs.rng n
     let quiet (t : State) (ps : List (Fin 8)) : Prop := Over s t 12 ∧ OthersSame s t ∧ t.me.regs.g = s.me.regs.g ∧
       t.me.regs.k = s.me.regs.k ∧ t.me.regs.p = (s.me.regs.stepPtrs ps).p
     (checkAll s.curCore e s.me.regs.p (lanes m) [p] = none →
       ((Instr.vla e m p ctl).wf = true → ∃ t, exec (.vla e m p ctl) s = .next t ∧ quiet t [p] ∧ t.me.regs.w = s.me.regs.w ∧
         t.mem = s.mem ∧ steps t 0 ∧ ∀ l : Fin 64,
           t.me.regs.acc[l] = if (lanes m).contains l.val then widened e (vecCode s e (base p) l.val) else acc[l]) ∧
       ((Instr.vsa e m p ctl).wf = true → ∃ t, exec (.vsa e m p ctl) s = .next t ∧ quiet t [p] ∧ t.me.regs.w = s.me.regs.w ∧
         t.me.regs.acc = acc ∧ steps t (if ctlRnd ctl = .rsr then (lanes m).length else 0) ∧
         (open_ → (∀ l : Fin 64, (lanes m).contains l.val = true →
           vecCode t e (base p) l.val = laneCode e ctl
             (rngAfterSteps s.me.regs.rng (if ctlRnd ctl = .rsr then ((lanes m).filter (· < l.val)).length else 0))
             (laneExact (vsaLane e) ctl acc[l]) % 2 ^ elemBits e) ∧
           ∀ x, (∀ l, l ∈ lanes m → x < elemKey s e (base p) l ∨ elemKey s e (base p) l + Nat.max 1 (elemBits e / 8) ≤ x) →
             t.mem.read x = s.mem.read x))) ∧
     (∀ c d, checkAll s.curCore e s.me.regs.p (lanes m) [p] = some (c, d) →
       exec (.vla e m p ctl) s = .next (s.raise c d) ∧ exec (.vsa e m p ctl) s = .next (s.raise c d)) ∧
     (let active := lanes o.mask
      checkAll s.curCore (laneElem ty) s.me.regs.p (if active = [] then [] else [0]) (if o.asel then [o.pa] else []) = none →
       checkAll s.curCore (laneElem ty) s.me.regs.p active (if o.dsel then [o.pd] else []) = none →
       let v : W32 := if o.asel then vecWord s (base o.pa) 0 else s.w0.setWidth 32
       ∃ t, exec (.vbcast ty o) s = .next t ∧ quiet t (usedPtrs o false) ∧ t.me.regs.w = s.me.regs.w ∧ steps t 0 ∧
         (o.dsel = false → t.mem = s.mem ∧
           ∀ l : Fin 64, t.me.regs.acc[l] = if active.contains l.val then v else acc[l]) ∧
         (o.dsel = true → t.me.regs.acc = acc ∧ (open_ → (∀ l, l ∈ active → vecWord t (base o.pd) l = v) ∧
           ∀ x, (∀ l, l ∈ active → x < vecKey s (base o.pd) l ∨ vecKey s (base o.pd) l + 4 ≤ x) →
             t.mem.read x = s.mem.read x))) ∧
     (∀ (r : Rel) (wr : Option (Fin 4)), o.dsel = false →
       let active := lanes o.mask
       (∀ c d, checkAll s.curCore (laneElem ty) s.me.regs.p active (usedPtrs o true) = some (c, d) →
         exec (.vcmp ty r wr o) s = .next (s.raise c d)) ∧
       (checkAll s.curCore (laneElem ty) s.me.regs.p active (usedPtrs o true) = none →
       ∃ t v, exec (.vcmp ty r wr o) s = .next t ∧ quiet t (usedPtrs o true) ∧ steps t 0 ∧
         t.me.regs.w = #v[v, s.me.regs.w[0], s.me.regs.w[1], s.me.regs.w[2]] ∧ t.mem = s.mem ∧ t.me.regs.acc = acc ∧
         (∀ l : Fin 64, v.getLsbD l.val =
           (active.contains l.val && laneHolds r ty (vecA s o l.val) (vecB s o l.val))) ∧
         ∀ j : Fin 4, t.me.regs.maCol[j] = if wr = some j then v else s.me.regs.maCol[j])) ∧
     (∀ op : RedOp,
       let active := lanes o.mask
       let ps := if o.asel then [o.pa] else []
       (∀ c d, checkAll s.curCore (laneElem ty) s.me.regs.p active ps = some (c, d) →
         exec (.vred ty op o) s = .next (s.raise c d)) ∧
       (checkAll s.curCore (laneElem ty) s.me.regs.p active ps = none →
       ∃ t v, exec (.vred ty op o) s = .next t ∧ quiet t ps ∧ t.mem = s.mem ∧ t.me.regs.acc = acc ∧
         steps t (if ctlRnd o.ctl = .rsr then active.length - 1 else 0) ∧
         t.me.regs.w = #v[v, s.me.regs.w[0], s.me.regs.w[1], s.me.regs.w[2]] ∧
         ((ctlRnd o.ctl = .rsr ∧ op = .add ∧ ty = .f32) ∨
           v = extend 32 (ty == .i32) ((redNode (redStep ty op o.ctl s.me.regs.rng)
             (fun l => if active.contains l then some (vecA s o l) else none) 6 0).getD (redNothing op ty)).toNat)))) ∧
  (∀ (s : State) (ty : LaneTy) (m : Fin 4) (p pb : Fin 8) (ctl : BitVec 5),
     let words := checkAll s.curCore .i32 s.me.regs.p [] [p]
     let index := checkAll s.curCore .i32 s.me.regs.p (s.me.regs.lanes m) [pb]
     let left := (s.me.regs.lanes m).filter (fun x => s.me.regs.pix.toNat ≤ x)
     let ends (t : State) : Prop := Over s t 12 ∧ t.me.regs.p = (s.me.regs.stepPtrs [p, pb]).p
     (∀ e, words = some e → exec (.vgath ty m p pb ctl) s = .next (s.raise e.1 e.2)) ∧
     (∀ e, index = some e → exec (.vscat ty m pb p ctl) s = .next (s.raise e.1 e.2)) ∧
     (∀ e, words = none → index = some e → exec (.vgath ty m p pb ctl) s = .next (s.raise e.1 e.2)) ∧
     (∀ e, index = none → words = some e → exec (.vscat ty m pb p ctl) s = .next (s.raise e.1 e.2)) ∧
     (words = none → index = none → left = [] →
       (∃ t, exec (.vgath ty m p pb ctl) s = .next t ∧ ends t ∧ NoPush s t ∧ t.me.regs.acc = s.me.regs.acc ∧ t.mem = s.mem ∧
         OthersSame s t) ∧
       ∃ t, exec (.vscat ty m pb p ctl) s = .next t ∧ ends t ∧ NoPush s t ∧ t.me.regs.acc = s.me.regs.acc ∧ t.mem = s.mem ∧
         OthersSame s t) ∧
     (∀ l ls, words = none → index = none → left = l :: ls →
       let idx := vecWord s (s.me.regs.p[pb].setWidth 32) l
       let a : W32 := s.me.regs.p[p].setWidth 32 + 4 * idx
       let on (t : State) : Prop :=
         if ls = [] then ends t
         else t.me.regs.pc = s.me.regs.pc ∧ t.me.regs.pix.toNat = l + 1 ∧ t.me.regs.p = s.me.regs.p
       (∀ sp, checkVec s.curCore .i32 a [0] = .ok sp →
         (∃ t, exec (.vgath ty m p pb ctl) s = .next t ∧ on t ∧ NoPush s t ∧ t.mem = s.mem ∧ OthersSame s t ∧
           ∀ j : Fin 64, t.me.regs.acc[j] = if j.val = l then vecWord s a 0 else s.me.regs.acc[j]) ∧
         (∃ t, exec (.vscat ty m pb p ctl) s = .next t ∧ on t ∧ NoPush s t ∧ t.me.regs.acc = s.me.regs.acc ∧
           OthersSame s t ∧ (Safe s → (s.core s.curCore).blocks = [] →
             vecWord t a 0 = s.me.regs.acc.toArray.getD l 0 ∧ SameBut s t (vecKey s a 0) 4))) ∧
       (∀ c d, checkVec s.curCore .i32 a [0] = .error (c, d) →
         exec (.vgath ty m p pb ctl) s = .next ((s.updRegs fun r => { r with pix := BitVec.ofNat 32 l }).raise c d) ∧
         exec (.vscat ty m pb p ctl) s = .next ((s.updRegs fun r => { r with pix := BitVec.ofNat 32 l }).raise c d))))

/-- R149-R151, R153: PSET, PADV, PGET and BASET set and read pointers and the bit address; LDB pushes the field at
`ba`, STB writes w0 into it and no other bit, the second word of a straddling field in an update of its own that is in
flight, and both advance `ba`; a field outside the engine's space 0 raises cause 0x09 with `ba` unchanged. -/
def Obligations.PointersAndBits : Prop :=
  ∀ (s : State) (p : Fin 8) (imm : W32) (stride : BitVec 16) (wet sgn : Bool) (bit : BitVec 3) (n : BitVec 6),
    let ba := s.me.regs.ba.toNat
    let k := padKey s.curCore (ba / 64 * 8)
    let two := 64 < ba % 64 + n.toNat
    let lo := s.mem.readNat 8 k
    let hi := if two then s.mem.readNat 8 (k + 8) else 0
    let whole := lo + hi * 2 ^ 64
    let f := whole / 2 ^ (ba % 64) % 2 ^ n.toNat
    let after := whole - f * 2 ^ (ba % 64) + s.w0.toNat % 2 ^ n.toNat * 2 ^ (ba % 64)
    let only (t : State) (g : Regs → Regs) : Prop :=
      Over s t 12 ∧ OnlyMe s t ∧ { t.me.regs with pc := s.me.regs.pc, pix := s.me.regs.pix } = g s.me.regs
    (∃ t, exec (.pset p imm stride wet) s = .next t ∧ only t fun r =>
      let b : W32 := if wet then s.w0.setWidth 32 + imm else imm
      { r with p := r.p.set p ((0 : BitVec 16) ++ stride ++ b) }) ∧
    (∃ t, exec (.padv p imm) s = .next t ∧ only t fun r =>
      { r with p := r.p.set p (r.p[p].extractLsb' 32 32 ++ (r.p[p].extractLsb' 0 32 + imm)) }) ∧
    (∃ t, exec (.pget p) s = .next t ∧ Result s t .wet s.me.regs.p[p] 12) ∧
    (∃ t, exec (.baset imm bit wet) s = .next t ∧ only t fun r =>
      { r with ba := BitVec.ofNat 35 (imm.toNat * 8 + bit.toNat + if wet then s.w0.toNat % 2 ^ 35 else 0) }) ∧
    (8 * padSize s.curCore < ba + n.toNat → exec (.ldb n sgn) s = .next (s.raise 0x09 (BitVec.ofNat 64 ba)) ∧
      exec (.stb n) s = .next (s.raise 0x09 (BitVec.ofNat 64 ba))) ∧
    (ba + n.toNat ≤ 8 * padSize s.curCore → 1 ≤ n.toNat → n.toNat ≤ 32 → Safe s → (s.core s.curCore).blocks = [] →
      (∃ t, exec (.ldb n sgn) s = .next t ∧
        Pushed s t .wet (if sgn then (BitVec.ofNat n.toNat f).signExtend 64 else BitVec.ofNat 64 f) ∧ Over s t 12 ∧
        OnlyMe s t ∧ t.me.regs.ba = s.me.regs.ba + BitVec.ofNat 35 n.toNat) ∧
      (∃ t, exec (.stb n) s = .next t ∧ NoPush s t ∧ Over s t 12 ∧ OthersSame s t ∧
        t.me.regs.ba = s.me.regs.ba + BitVec.ofNat 35 n.toNat ∧ SameBut s t k 8 ∧
        t.mem.readNat 8 k = after % 2 ^ 64 ∧
        (two = false → t.reqs = s.reqs) ∧
        (two = true → ∃ r mask v, t.reqs = s.reqs ++ [r] ∧ r.kind = .bits mask v ∧ r.own = true ∧ r.ep = s.cur ∧
          r.va = ba / 64 * 8 + 8 ∧ r.size = 8 ∧ maskIn hi mask v = after / 2 ^ 64))) ∧
    (∀ (id : Nat) (r : Req) (mask v : Nat) (data : List Byte), Safe s → s.findReq id = some r → r.kind = .bits mask v →
      r.own = true → r.peer = none → r.land = none → r.acq = false → r.rel = false → r.size = 8 →
      mask < 2 ^ 64 → s.reqReady r data = true → (s.core (epCore r.ep)).guarded r.va = false →
      ∃ t, exec (.farAccessAck id data) s = .next t ∧ t.findReq id = none ∧
        t.mem.readNat 8 (padKey (epCore r.ep) r.va) = maskIn (s.mem.readNat 8 (padKey (epCore r.ep) r.va)) mask v ∧
        SameBut s t (padKey (epCore r.ep) r.va) 8)
/-! ### Copy units and handles -/

/-- R212, R249, R252, R255, R256, R257, R259, R286: CHAIN puts one kick behind the others of its channel, with CP and
its counter up, and waits where there is no room; a resume restarts a stopped channel; CSTAT pushes the channel's
state. An idle channel takes its next kick and reads the record at its head, or ends at reference 0; the record's
bytes are walked piece by piece, and a piece moves granule by granule from its source to its destination; a finished
record gives its word 7 back and the walker goes to the next one, or ends; a unit whose start slate is held reads
nothing yet; a failing translation stops the channel where it is. The model's own choices in it, and no rules of the
manual, by rows of the assumption log: log 14 (an access of at most 64 bytes, and a vector operand, is performed in
one step); log 59 (near-to-near copies are cut into pieces of at most 512 bytes); log 60 (A store of a record's status
or mailbox to far memory that fails to translate ends as R375 settles it); log 64 (A free handle is marked faulted by
a record that signals it). -/
def Obligations.Copies : Prop :=
  (∀ (s : State) (ch : Fin 8) (cn : Fin 16) (cen sel : Bool) (head : Option W32),
     let k := s.myChannel ch
     let c := s.channel k
     let core := s.core s.curCore
     (c.queue.length < 8 → s.me.occ.cp < 63 → (cen = true → core.cn[cn] ≠ 1023) →
       ∃ t q, exec (.chain ch cn cen head) s = .next t ∧ t.channel k = { c with queue := c.queue ++ [q] } ∧ q.ep = s.cur ∧
         q.uid = s.me.unit.uid ∧ q.ctx = s.myCtx ∧ q.cn = (if cen then some cn.val else none) ∧
         q.head = (match head with
           | none => s.w0.toNat
           | some v => v.toNat) ∧
         t.me.occ = s.me.occ.up 2 ∧ NoPush s t ∧ Over s t 12 ∧ OthersSame s t ∧ t.mem = s.mem ∧ t.msgs = s.msgs ∧
         ∀ j : Fin 16, (t.core s.curCore).cn[j] = if cen = true ∧ j = cn then core.cn[cn] + 1 else core.cn[j]) ∧
     (8 ≤ c.queue.length ∨ 63 ≤ s.me.occ.cp ∨ (cen = true ∧ core.cn[cn] = 1023) →
       exec (.chain ch cn cen head) s = .next s) ∧
     (∃ t, exec (.chainResume ch) s = .next t ∧ t.channel k = { c with stopped := false } ∧ NoPush s t ∧ Over s t 12 ∧
       OthersSame s t ∧ t.mem = s.mem ∧ t.cores = s.cores) ∧
     (∃ t, exec (.cstat ch sel) s = .next t ∧ Result s t .wet
       (if sel then (if c.kick.isSome then BitVec.ofNat 64 c.ref else 0)
        else BitVec.ofNat 64 (c.progress % 2 ^ 32 * 2 ^ 32 + c.code % 256 * 2 ^ 24 + c.queue.length * 2 ^ 8 +
          (if c.kick.isNone then 0 else if c.stopped then 3 else if c.waiting then 2 else 1))) 12)) ∧
  (∀ (s : State) (cu n : Nat),
     let k := cu * 8 + n
     let c := s.channel k
     s.isHeld (channelSrc k) = false →
     (c.kick = none → c.queue = [] → exec (.chainStart cu n) s = .next s) ∧
     (∀ q rest, c.kick = none → c.queue = q :: rest →
       let taken := s.setChannel k { c with queue := rest, kick := some q, ref := q.head, words := none, stopped := false }
       let told := (taken.raiseFloor (channelSrc k) q.floor).emit (channelSrc k) (channelDie k) q.ctx 0x100 n
       (told.isHeld (channelSrc k) = true → exec (.chainStart cu n) s = .next told) ∧
       (told.isHeld (channelSrc k) = false →
       (q.head = 0 → ∃ t, exec (.chainStart cu n) s = .next t ∧ (t.channel k).kick = none ∧ (t.channel k).queue = rest) ∧
       (∀ core off, spotAt (epCore q.ep) (BitVec.ofNat 64 q.head) 0 64 false = some (.pad core off) → q.head ≠ 0 →
         q.head % 64 = 0 → core < 2 ^ 20 → (s.core core).blocks = [] →
         let ws := (List.range 8).map fun i => s.mem.readWord (padKey core (off + 8 * i))
         recOwn ws = true → recCen ws = false → ∃ t, exec (.chainStart cu n) s = .next t ∧
           (t.channel k).kick = some q ∧ (t.channel k).queue = rest ∧ (t.channel k).ref = q.head ∧
           (t.channel k).words = some ws ∧ (t.channel k).progress = 0 ∧
           (t.channel k).status = s.recStatus (epCore q.ep) ws))) ∧
     (∀ q ws sc so dc dO m, c.kick = some q → c.words = some ws → c.moving ws = true →
       (c.pieces = [] → c.sides (epCore q.ep) ws = some (.pad sc so, .pad dc dO, m) →
         ∃ t, exec (.copyPiece cu n []) s = .next t ∧ t.mem = s.mem ∧ t.threads = s.threads ∧
         t.channel k = { c with pieces := [{ id := s.ids, off := c.progress, src := none, dst := none, len := Nat.min m 512 }] }) ∧
       (∀ p : Piece, Safe s → c.pieces = [p] → c.sides (epCore q.ep) ws = none →
         sidesAt (epCore q.ep) ws p.off = some (.pad sc so, .pad dc dO, m) → p.src = none → p.dst = none →
         p.sent = false → c.ending = false → p.done < p.len → p.len % 4 = 0 → p.done % 4 = 0 → dO % 4 = 0 →
         s.metersHold p.id = false → (s.core sc).blocks = [] → (s.core dc).blocks = [] →
         let g := Nat.min (p.len - p.done) (64 - (dO + p.done) % 64)
         ∃ t, exec (.copyPiece cu n []) s = .next t ∧
           t.mem.readBytes g (padKey dc (dO + p.done)) = s.mem.readBytes g (padKey sc (so + p.done)) ∧
           SameBut s t (padKey dc (dO + p.done)) g ∧ t.threads = s.threads ∧
           t.channel k = if p.off = c.progress ∧ p.len ≤ p.done + g then
               { c with progress := c.progress + p.len, pieces := [] }
             else { c with pieces := [{ p with done := p.done + g }] })) ∧
     (∀ q ws, c.kick = some q → c.words = some ws → c.finished ws = true →
       (c.charged = false → s.meteredSlots q.ctx = none → ∃ t, exec (.recordComplete cu n) s = .next t ∧
         t.channel k = { c with charged := true } ∧ { t with channels := s.channels } = s) ∧
       (∀ core off, Safe s → c.charged = true → c.stored = false → s.metersHold (channelId k) = false → c.status = 0 → recordHen ws = false →
         recCen ws = false → recMen ws = false →
         spotAt (epCore q.ep) (BitVec.ofNat 64 c.ref + 56) 0 8 false = some (.pad core off) →
         (s.core core).blocks = [] →
         (recNext ws ≠ 0 → ∃ t, exec (.recordComplete cu n) s = .next t ∧
           t.mem.readWord (padKey core off) = recWord7 ws 0 false ∧ SameBut s t (padKey core off) 8 ∧
           (t.channel k).kick = some q ∧ (t.channel k).ref = (recNext ws).toNat ∧ (t.channel k).words = none ∧
           t.threads = s.threads) ∧
         (recNext ws = 0 → ∃ t, exec (.recordComplete cu n) s = .next t ∧ (t.channel k).kick = none ∧
           (t.channel k).queue = c.queue))) ∧
     (∀ q ws a b m f acc va r u, c.kick = some q → c.words = some ws → c.moving ws = true → c.pieces = [] →
       c.sides (epCore q.ep) ws = some (a, b, m) → s.tryPiece k q a b m = (.bad f acc va r, u) → c.waiting = false → c.ending = false →
       ∃ t, exec (.channelStop cu n) s = .next t ∧ (t.channel k).stopped = true ∧ (t.channel k).code = 4 ∧
         (t.channel k).progress = c.progress ∧ (t.channel k).kick = some q ∧ (t.channel k).words = some ws))

/-- R263, R264, R268-R270: the handle instructions on buffers and rings: a configuration of an idle handle, an
acquire, a release, a post and a take move the handle's state as their rules say; a handle of another kind, and a
state that the instruction does not expect, raise cause 0x0D; HSTATE pushes the handle's word; a rearm takes the
faulted mark away and lets the channels that stopped on the handle go on; a faulted one raises 0x0E where the
instruction waits; an acquire or a take that finds nothing waits. The model's own choices in it, and no rules of the
manual, by rows of the assumption log: log 32 (the handle-faulted fault is raised by an instruction that waits, not by
one that does not touch the faulted part); log 64 (A free handle is marked faulted by a record that signals it); log
172 (A record with hold = 0 fills a buffer whatever its state). -/
def Obligations.BuffersAndRings : Prop :=
  ∀ (s : State) (h : BitVec 8) (cfg : W32) (cons : Bool) (m : BitVec 13),
    let k := s.hkey h
    let x := s.handle k
    let bad := s.raise 0x0D (h.setWidth 64)
    let waits : State := s.upd fun t => { t with onHandle := some k }
    let u := s.clockHandle k
    (u.handleIdle k = true →
      (cfg.toNat / 2 ^ 30 = 0 ∨ cfg.toNat / 2 ^ 30 = 1 → ∃ t, exec (.hcfg h cfg) s = .next t ∧ NoPush s t ∧ Over s t 12 ∧
        OthersSame s t ∧ { t with threads := s.threads, handles := u.handles } = u ∧
        t.handle k = { kind := if cfg.toNat / 2 ^ 30 = 0 then .free else .buffer }) ∧
      (cfg.toNat / 2 ^ 30 = 2 → ∃ t, exec (.hcfg h cfg) s = .next t ∧ NoPush s t ∧ Over s t 12 ∧ OthersSame s t ∧
        t.handle k = { kind := .ring, n := cfg.toNat % 2 ^ 12 + 1, free := cfg.toNat % 2 ^ 12 + 1 }) ∧
      (cfg.toNat / 2 ^ 30 = 3 → s.maskOk (cfg.toNat % 2 ^ 8) (cfg.toNat % 2 ^ 12 / 2 ^ 8) = true →
        ∃ t, exec (.hcfg h cfg) s = .next t ∧ NoPush s t ∧ Over s t 12 ∧ OthersSame s t ∧
          t.handle k = { kind := .barrier, mask := cfg.toNat % 2 ^ 8, master := cfg.toNat % 2 ^ 12 / 2 ^ 8 })) ∧
    (u.handleIdle k = false → exec (.hcfg h cfg) s = .next (u.raise 0x0D (h.setWidth 64))) ∧
    (∃ t, exec (.hcfgRearm h) s = .next t ∧ NoPush s t ∧ Over s t 12 ∧ OthersSame s t ∧ t.mem = s.mem ∧
      t.handle k = { x with faulted := false } ∧
      ∀ c, channelCl c = k / 256 → (s.channel c).stopped = true → (s.channel c).names (k % 256) = true →
        (t.channel c).stopped = false) ∧
    (x.kind ≠ .buffer → exec (.hacq h cons) s = .next bad ∧ exec (.hrel h cons) s = .next bad) ∧
    (x.kind = .buffer →
      (x.faulted = true → exec (.hacq h cons) s = .next (s.raise 0x0E x.word)) ∧
      (x.faulted = false → x.buf = (if cons then 2 else 0) →
        let y := { x with buf := if cons then 3 else 1 }
        ∃ t, exec (.hacq h cons) s = .next t ∧ t.handle k = y ∧ Pushed s t .wet y.word ∧ Over s t 12 ∧ OthersSame s t ∧
          (cons = true → x.floor ≤ t.floor s.cur) ∧
          { t with threads := s.threads, handles := s.handles, floors := s.floors } = s) ∧
      (x.faulted = false → x.buf ≠ (if cons then 2 else 0) → exec (.hacq h cons) s = .next waits) ∧
      (x.buf = (if cons then 3 else 1) → ∃ t, exec (.hrel h cons) s = .next t ∧
        t.handle k = { x with buf := if cons then 0 else 2, floor := if cons then x.floor else Nat.max x.floor s.myFloor } ∧
        NoPush s t ∧ Over s t 12 ∧ OthersSame s t ∧ { t with threads := s.threads, handles := s.handles } = s) ∧
      (x.buf ≠ (if cons then 3 else 1) → exec (.hrel h cons) s = .next bad)) ∧
    (∃ t, exec (.hstate h) s = .next t ∧ Pushed s t .wet (u.handle k).word ∧ Over s t 12 ∧ OthersSame s t ∧
      { t with threads := s.threads } = u ∧ (x.kind ≠ .barrier → u = s)) ∧
    (x.kind ≠ .ring → exec (.rpost h m) s = .next bad ∧ exec (.rtake h) s = .next bad) ∧
    (x.kind = .ring →
      (x.free + m.toNat ≤ x.n → ∃ t, exec (.rpost h m) s = .next t ∧ NoPush s t ∧ Over s t 12 ∧ OthersSame s t ∧
        t.handle k = { x with free := x.free + m.toNat, floor := Nat.max x.floor s.myFloor }) ∧
      (x.n < x.free + m.toNat → exec (.rpost h m) s = .next bad) ∧
      (x.faulted = true → exec (.rtake h) s = .next (s.raise 0x0E x.word)) ∧
      (x.faulted = false → 0 < x.filled → ∃ t, exec (.rtake h) s = .next t ∧
        t.handle k = { x with filled := x.filled - 1, head := (x.head + 1) % x.n } ∧
        Pushed s t .wet (BitVec.ofNat 64 x.head) ∧ Over s t 12 ∧ OthersSame s t) ∧
      (x.faulted = false → x.filled = 0 → exec (.rtake h) s = .next waits))

/-- R248, R265-R267, R433, R434: barriers: arrivals and expectations, the push of the phase count at once or once it
has moved, CKPT's two halves, the phase with what it takes away, and the messages of a barrier over several dies; an
arrival of a thread with a recorded guard touch raises the imprecise cause 0x33 first, but behind the precise 0x0E of
a faulted handle. The model's own choices in it, and no rules of the manual, by rows of the assumption log: log 32
(the handle-faulted fault is raised by an instruction that waits, not by one that does not touch the faulted part);
log 62 (A barrier expectation that is posted during a cycle lands in the next one when its arrivals are already met);
log 63 (A BARR or BTEST of another die's member reaches the first cluster handle that matches). -/
def Obligations.Barriers : Prop :=
  ∀ (s : State) (h : BitVec 8) (n : W32) (d : Dst) (k2 id : Nat) (m : Msg) (e mem mask master : Nat),
    let k := s.hkey h
    let u := s.clockHandle k
    let y := u.handle k
    let bad := s.raise 0x0D (h.setWidth 64)
    ((s.handle k).kind ≠ .barrier → exec (.barr h n) s = .next bad ∧ exec (.bexp h n) s = .next bad ∧
      exec (.btest h) s = .next bad ∧ exec (.bwait h) s = .next bad ∧ exec (.ckpt d h) s = .next bad) ∧
    ((s.handle k).kind = .barrier →
      (s.me.regs.gtouch.getLsbD 63 = true → exec (.barr h n) s = .next (u.raiseAt 0x33 true 0 s.me.regs.pc)) ∧
      (s.me.regs.gtouch.getLsbD 63 = false →
        (∃ t, exec (.barr h n) s = .next t ∧ NoPush s t ∧ Over s t 12 ∧ OthersSame s t ∧ t.mem = s.mem ∧
          (y.a + n.toNat < 2 ^ 32 → (t.handle k).a = y.a + n.toNat ∧ (t.handle k).faulted = y.faulted) ∧
          (2 ^ 32 ≤ y.a + n.toNat → y.faulted = false → (t.handle k).a = y.a ∧ (t.handle k).faulted = true ∧
            (t.handle k).fstatus = 9)) ∧
        (y.faulted = false → y.count ≠ s.w0.toNat % 2 ^ 32 → ∃ t, exec (.bwait h) s = .next t ∧
          Pushed s t .wet (BitVec.ofNat 64 y.count) ∧ Over s t 12 ∧ OthersSame s t ∧ t.handles = u.handles) ∧
        (y.faulted = false → y.count = s.w0.toNat % 2 ^ 32 →
          exec (.bwait h) s = .next (u.upd fun t => { t with onHandle := some k })) ∧
        (y.faulted = false → s.me.ckptAt = none → ∃ t, exec (.ckpt d h) s = .next t ∧
          t.me = { s.me with ckptAt := some (BitVec.ofNat 64 y.count), onHandle := some k } ∧
          (y.a + 1 < 2 ^ 32 → (t.handle k).a = y.a + 1))) ∧
      (y.faulted = true → exec (.bwait h) s = .next (u.raise 0x0E y.word) ∧
        (s.me.ckptAt = none → exec (.ckpt d h) s = .next (u.raise 0x0E y.word))) ∧
      (y.faulted = false → s.me.regs.gtouch.getLsbD 63 = true →
        exec (.bwait h) s = .next (u.raiseAt 0x33 true 0 s.me.regs.pc) ∧
        (s.me.ckptAt = none → exec (.ckpt d h) s = .next (u.raiseAt 0x33 true 0 s.me.regs.pc))) ∧
      (∃ t, exec (.bexp h n) s = .next t ∧ NoPush s t ∧ Over s t 12 ∧ OthersSame s t ∧ t.mem = s.mem ∧
        (y.e + y.posted + n.toNat < 2 ^ 32 → t.handle k = { y with posted := y.posted + n.toNat })) ∧
      (∃ t, exec (.btest h) s = .next t ∧ Pushed s t .wet (BitVec.ofNat 64 y.count) ∧ Over s t 12 ∧ OthersSame s t ∧
        y.floor ≤ t.floor s.cur ∧ t.handles = u.handles) ∧
      (∀ w, s.me.ckptAt = some w → y.faulted = false → y.count ≠ w.toNat → ∃ t c, exec (.ckpt d h) s = .next t ∧
        Pushed s t d (BitVec.ofNat 64 y.count) ∧ Over s t 8 ∧ t.me.ckpt = some c ∧ c.regs = t.me.regs ∧ t.me.ovf = false ∧
        OthersSame s t ∧ ∀ z, z ∈ (t.core s.curCore).undo → z.thread ≠ epThread s.cur)) ∧
    (let x := s.handle k2
     x.kind = .barrier → x.e ≠ 0 → x.e ≤ x.a → x.mask = 0 → ∃ t, exec (.barrierPhase k2) s = .next t ∧
       { t with handles := s.handles } = s ∧ (t.handle k2).a = x.a - x.e ∧ (t.handle k2).count = (x.count + 1) % 2 ^ 32 ∧
       (t.handle k2).e = x.posted ∧ (t.handle k2).posted = 0 ∧ x.arrFloor ≤ (t.handle k2).floor) ∧
    (s.findMsg id = some m → ∀ k3,
      (m.kind = .aggregate e mem mask master → s.crossHandle master e mask master = some k3 →
        ∃ t, exec (.barrierAggregate id) s = .next t ∧ t.msgs = s.msgs.filter (·.id != id) ∧
          (t.handle k3).aggs = mem :: (s.handle k3).aggs ∧ (t.handle k3).count = (s.handle k3).count ∧
          t.threads = s.threads ∧ t.mem = s.mem) ∧
      (m.kind = .completion e mem mask master → s.crossHandle mem e mask master = some k3 →
        ∃ t, exec (.barrierCompletionMsg id) s = .next t ∧ t.msgs = s.msgs.filter (·.id != id) ∧
          (t.handle k3).count = ((s.handle k3).count + 1) % 2 ^ 32 ∧ (t.handle k3).reported = false ∧
          t.threads = s.threads ∧ t.mem = s.mem))
/-! ### Matrix arrays -/

/-- R161, R163, R165, R168-R173: a direct command with legal fields, under a held lease with room, joins the array's
commands with its effective operands, and TL rises; illegal fields raise cause 0x0F, an array out of service 0x30;
without a lease the command asks for one and waits. MLEASE asks, MREL gives up; MJOB queues a job and pushes its
number, or pushes why not; MTEST and MSTAT push what they read. The model's own choices in it, and no rules of the
manual, by rows of the assumption log: log 70 (MJOB answers 0x102 for a full queue before 0x101 for a bad argument);
log 71 (A gang's lease counts commands by their index in the instruction stream, and MREL counts for the leader); log
131 (MPREC, MMASK and the other source registers apply to the commands issued after them); log 152 (A reserved bit of
the effective operand of MJOB or MTEST raises the matrix-operand fault); log 153 (A pair job from a core of an odd
octet answers 0x101); log 163 (MSTAT's next field is the plain counter). -/
def Obligations.TensorInstructions : Prop :=
  ∀ (s : State) (i : Instr) (o : MOp) (f : MOp → Instr) (cls : Bool) (d : Dst) (off : Src) (opnd : Word) (sel : BitVec 2),
    s.me.gang = none →
    let a := coreArray s.curCore
    let x := s.arr a
    let me := s.me
    let c := f { off := .zero, ioff := .zero, imm := o.imm + (s.raw 0 o.ioff).setWidth 32, opnd := o.opnd + s.raw 0 o.off }
    let e := opnd + s.raw 0 off
    (directOf i = some (o, f) → me.maskPending = false →
      let legal := cmdOk true me.msrc.row me.msrc.col c && s.tileOk s.myPart c
      (legal = false → exec i s = .next (s.raise 0x0F 0)) ∧
      (legal = true → x.mode = 2 → exec i s = .next (s.raise 0x30 0)) ∧
      (legal = true → x.mode ≠ 2 → (tileDest c).any (fun q => !s.takesTiles q) = false →
        (me.lease = .off → ∃ t w, exec i s = .next t ∧ t.me.lease = .waiting w ∧ t.me.regs = me.regs ∧
          (∀ b, { t.arr b with bound := (s.arr b).bound } = s.arr b) ∧ OthersSame s t) ∧
        (me.lease = .held → (63 ≤ me.occ.tl ∨ me.leaseBase + 16 ≤ me.leaseCmds) → exec i s = .next s) ∧
        (me.lease = .held → me.occ.tl < 63 → me.leaseCmds < me.leaseBase + 16 →
          ∃ t q, exec i s = .next t ∧ NoPush s t ∧ Over s t 16 ∧ OthersSame s t ∧ t.mem = s.mem ∧ t.msgs = s.msgs ∧
            t.me.occ = me.occ.up 3 ∧ q.instr = c ∧ q.ep = s.cur ∧ q.uid = me.unit.uid ∧ q.row = me.msrc.row ∧
            q.col = me.msrc.col ∧ q.prec = me.msrc.prec ∧ q.rng = me.regs.rng ∧ q.idx = me.leaseCmds ∧
            ∀ y, y ∈ (t.arr a).cmds ↔ y = q ∨ y ∈ x.cmds))) ∧
    (∃ t, exec (.mlease cls) s = .next t ∧ NoPush s t ∧ Over s t 16 ∧ OthersSame s t ∧
      (∀ b, { t.arr b with bound := (s.arr b).bound } = s.arr b) ∧
      t.me.leaseCls = cls ∧ t.me.lease = if me.lease = .held then .held else .waiting cls) ∧
    (∃ t, exec .mrel s = .next t ∧ NoPush s t ∧ Over s t 16 ∧ OthersSame s t ∧ t.me.lease = .off ∧ t.arrays = s.arrays) ∧
    (e.toNat < 2 ^ 47 → fld e 0 32 < 2 ^ 28 → fld e 0 32 % 16 = 0 → fld e 0 32 + 16 * (fld e 32 8 + 1) ≤ 0x60000 →
      let eligible := e.getLsbD 46 = true → a % 2 = 0 ∧ x.mode = 0 ∧ (s.arr (arrayMate a)).mode = 0
      let cn := cnOf (fld e 40 4)
      let tag := e.getLsbD 44
      let full := s.queueFull a s.curCore = true ∨ 63 ≤ me.occ.tl ∨ (tag = true ∧ (s.core s.curCore).cn[cn] = 1023)
      (x.mode = 2 → ∃ t, exec (.mjob d off opnd) s = .next t ∧ Result s t d 0x102 16) ∧
      (x.mode ≠ 2 → ¬ eligible → ∃ t, exec (.mjob d off opnd) s = .next t ∧ Result s t d 0x101 16) ∧
      (x.mode ≠ 2 → eligible → full → exec (.mjob d off opnd) s = .next s) ∧
      (x.mode ≠ 2 → eligible → ¬ full →
        ∃ t j, exec (.mjob d off opnd) s = .next t ∧ Pushed s t d (BitVec.ofNat 64 x.nextId) ∧ Over s t 16 ∧ OthersSame s t ∧
          (t.arr a).jobs = x.jobs ++ [j] ∧ j.id = x.nextId ∧ j.ep = s.cur ∧ j.chain = fld e 0 32 ∧
          j.count = fld e 32 8 + 1 ∧ j.cls = e.getLsbD 45 ∧ j.pair = e.getLsbD 46 ∧
          j.cn = (if tag then some cn.val else none) ∧
          (∀ c : Fin 16, (t.core s.curCore).cn[c] =
            if tag = true ∧ c = cn then (s.core s.curCore).cn[c] + 1 else (s.core s.curCore).cn[c]) ∧
          (t.jobEntry a x.nextId).state = 1 ∧ t.me.occ = me.occ.up 3 ∧ t.mem = s.mem)) ∧
    (2 ^ 47 ≤ e.toNat ∨ 2 ^ 28 ≤ fld e 0 32 ∨ fld e 0 32 % 16 ≠ 0 ∨ 0x60000 < fld e 0 32 + 16 * (fld e 32 8 + 1) →
      exec (.mjob d off opnd) s = .next (s.raise 0x0F 0)) ∧
    (2 ^ 9 ≤ e.toNat → exec (.mtest d off opnd) s = .next (s.raise 0x0F 0)) ∧
    (e.toNat < 2 ^ 9 →
      let y := s.jobEntry a (fld e 0 8)
      (e.getLsbD 8 = true → (y.state = 1 ∨ y.state = 2) → exec (.mtest d off opnd) s = .next s) ∧
      (e.getLsbD 8 = false ∨ (y.state ≠ 1 ∧ y.state ≠ 2) → ∃ t, exec (.mtest d off opnd) s = .next t ∧ Over s t 16 ∧
        Pushed s t d (BitVec.ofNat 64 (y.chunk % 2 ^ 16 * 2 ^ 32 + y.record % 2 ^ 8 * 2 ^ 16 + y.err % 2 ^ 8 * 2 ^ 8 +
          y.state % 8)) ∧ OthersSame s t ∧ t.arrays = s.arrays ∧ t.mem = s.mem)) ∧
    (sel ≠ 3 → ∃ t, exec (.mstat d sel) s = .next t ∧ Result s t d (s.mstat a sel.toNat) 16) ∧
    exec (.mstat d 3) s = .next (s.raise 0x0F 0)

/-- R53, R159-R161, R163, R189-R191: an array without work binds to the context of the offer that it would grant;
where that context is a new one its stores are zeroed and the entries of ended jobs are idle again; a free bound array
grants the chosen offer, a pair job's once the odd array has granted itself, which it does at a command boundary; an
idle lease and a gate that stays closed time out; a suspended job goes on when its gate opens, and stops where the
gate's handle is faulted. The model's own choices in it, and no rules of the manual, by rows of the assumption log:
log 65 (where an array binds to another context, the job-table entries of jobs that have ended are idle again); log 66
(the odd array grants itself to a pair job at its first command boundary, between the commands of its own grant too);
log 150 (issued commands keep an array bound until they have executed); log 151 (the age of a suspended source that
re-enters arbitration); log 162 (A unit that parks on LAUNCH.w keeps its lease and its direct source). -/
def Obligations.ArrayGrants : Prop :=
  ∀ (s : State) (a : Nat), s.isHeld (arraySrc a) = false →
    let x := s.arr a
    (∀ o, s.lent a = false → s.arrBound a = none → s.wanted a = none →
      s.chooseOffer a (s.coreOffers a fun _ => true) = some o →
      ∃ t, exec (.arrayBind a) s = .next t ∧ (t.arr a).ctx = some o.ctx ∧ (t.arr a).bound = true ∧ t.threads = s.threads ∧
        (x.ctx ≠ some o.ctx → (t.arr a).part = [] ∧ (∀ b, b < 0x200000 → t.mem.read (planeKey a b) = 0) ∧
          ∀ b, b < 0x100000 → t.mem.read (accKey a b) = 0) ∧
        (x.ctx = some o.ctx → t.mem = s.mem ∧ (t.arr a).part = x.part) ∧
        (x.ctx = some o.ctx → ∀ id, t.jobEntry a id = s.jobEntry a id) ∧
        (x.ctx ≠ some o.ctx → NMap.wf x.table = true → ∀ id, t.jobEntry a id =
          if (s.jobEntry a id).state = 1 ∨ (s.jobEntry a id).state = 2 ∨ (s.jobEntry a id).state = 3 then s.jobEntry a id
          else {})) ∧
    (∀ c id, s.wanted a = some (c, id) → (∃ t, exec (.arrayGrant a) s = .next t ∧ (t.arr a).loan = some id ∧
        (t.arr a).ctx = some c ∧ (t.arr a).run = x.run ∧ t.threads = s.threads) ∧
      ∃ t, exec (.arrayCommandComplete a) s = .next t ∧ (t.arr a).loan = some id ∧ (t.arr a).ctx = some c) ∧
    (∀ c o, s.wanted a = none → s.arrBusy a = false → s.testDue a = false → s.arrBound a = some c →
      let os := s.coreOffers a (· == c)
      let mate := arrayMate a
      s.firstOffer a os = some o →
      ((∀ id, s.pairOffer a o = some id → (s.arr mate).loan = some id ∨ s.agrees mate o.ctx = true) →
        ∃ t, exec (.arrayGrant a) s = .next t ∧ (t.arr a).run = some o.what ∧
          (t.arr a).turn = (if o.cls then x.turn else (o.pos + 1) % 8) ∧
          (t.arr a).turn1 = (if o.cls then (o.pos + 1) % 8 else x.turn1) ∧
          (∀ id, o.what = .job id → (t.jobEntry a id).state = 2) ∧
          (∀ id, s.pairOffer a o = some id → (t.arr mate).loan = some id) ∧
          (∀ ep uid u w, o.what = .lease ep uid → s.unitThr ep uid = some u → u.lease = .waiting w →
            ∃ v, t.unitThr ep uid = some v ∧ v.lease = .held ∧ v.regs = u.regs)) ∧
      (∀ id, s.pairOffer a o = some id → (s.arr mate).loan ≠ some id → s.agrees mate o.ctx = false →
        s.chooseOffer a (os.filter fun p => p.pos != o.pos && (s.pairOffer a p).isNone) = none →
        ∃ t, exec (.arrayGrant a) s = .next t ∧ { t with arrays := s.arrays } = s ∧
          t.arr a = { x with offered := some id } ∧ t.arr mate = s.arr mate)) ∧
    (∀ ep uid u, x.run = some (.lease ep uid) → s.unitThr ep uid = some u → u.lease = .held →
      (u.leaseLast + 256 * Config.arithCycle ≤ s.now → ∃ t v, exec (.leaseTimeout a) s = .next t ∧
        t.unitThr ep uid = some v ∧ v.lease = .off ∧ v.regs = u.regs ∧ t.mem = s.mem) ∧
      (s.now < u.leaseLast + 256 * Config.arithCycle → exec (.leaseTimeout a) s = .next s)) ∧
    (∀ id j h, x.run = some (.job id) → s.findJob a id = some j → s.atGate a j = some (h, false) →
      x.chunkAt + 1024 * Config.arithCycle ≤ s.now → ∃ t, exec (.gateTimeout a) s = .next t ∧ (t.arr a).run = none ∧
        (t.arr a).jobs = mapIf (·.id == id) (fun j => { j with susp := .gate }) x.jobs ∧ { t with arrays := s.arrays } = s ∧
        (a % 2 = 0 → (t.arr (arrayMate a)).loan ≠ some id)) ∧
    (∀ id j h, s.findJob a id = some j → j.susp = .gate → s.atGate a j = some (h, true) →
      ((s.jobEntry a id).state ≠ 3 ∨ (s.handle (gateKeyOf j h)).faulted = false) →
      ∃ t, exec (.gateOpen a id) s = .next t ∧ { t with arrays := s.arrays } = s ∧
        (t.arr a).jobs = mapIf (·.id == id) (fun j => { j with susp := .no }) x.jobs) ∧
    (∀ id j h, s.findJob a id = some j → (j.susp = .gate ∨ x.run = some (.job id)) → s.atGate a j = some (h, false) →
      (s.jobEntry a id).state = 2 →
      (s.handle (gateKeyOf j h)).faulted = true → ∃ t, exec (.jobStopped a id) s = .next t ∧
        (t.jobEntry a id).state = 3 ∧ (t.arr a).run ≠ some (.job id) ∧ t.threads = s.threads)

/-- R162, R163, R164, R165, R166, R174, R175, R176, R177, R178, R179, R180, R181, R182, R187, R191, R192, R193: what
commands do when the array executes them: MZERO zeroes the masked elements of its tiles, MMUL adds the exact sum of a
chunk with one rounding, MMASK, MPREC and the others take their effect on memory and on their source, MSENDT sends the
masked tile, MRECVT waits for a tile with its tag; each leaves the array's commands, and TL falls. A job's record
counts, and the last one ends the job with state 4. A job runs its records one after the other and ends with state 4,
or with state 5 and a record's error; a tile enters a slot of an array that is free for its context, and its sender's
command completes; one for an array that takes none is discarded with error 6; a self-test clears the counts, or
fences quadrants. The model's own choices in it, and no rules of the manual, by rows of the assumption log: log 15 (A
direct command or a job chunk executes in one step); log 67 (A pair job whose array has lost a quadrant goes on with
the other array alone and ends in error 5); log 68 (direct commands that were issued before an array went out of
service still execute, but no MRECVT does); log 164 (A job's record is what memory holds when the array reaches it).
-/
def Obligations.ArrayCommands : Prop :=
  (∀ (s : State) (a : Nat) (c : Cmd) (o : MOp), Safe s → AtHead s a c →
     let rows := maskBits c.row
     let cols := maskBits c.col
     (∀ r, directOf c.instr = some r → (∀ o, c.instr ≠ .msendt o) → (∀ o, c.instr ≠ .mrecvt o) →
       ∃ t, exec (.arrayCommandComplete a) s = .next t ∧ Executed s t a c) ∧
     (c.instr = .mzero o → o.f 0 6 + o.f 6 6 < 64 → ∃ t, exec (.arrayCommandComplete a) s = .next t ∧ Executed s t a c ∧
       ∀ tile i j, tile < 64 → i < 64 → j < 64 → t.mem.acc a tile i j =
         if o.f 0 6 ≤ tile ∧ tile ≤ o.f 0 6 + o.f 6 6 ∧ i ∈ rows ∧ j ∈ cols then 0 else s.mem.acc a tile i j) ∧
     (∀ ty rm, c.instr = .mmul ty rm o → o.k ≤ 32 → ty ≠ .i8 → ty ≠ .i4 → o.f 42 6 < 64 → o.f 0 21 < 0x200000 →
       o.f 21 21 < 0x200000 → a < 2 ^ 16 → ∃ t, exec (.arrayCommandComplete a) s = .next t ∧ Executed s t a c ∧
         ∀ i j, i < 64 → j < 64 →
           let old := s.mem.acc a (o.f 42 6) i j
           let ks := List.range o.k
           t.mem.acc a (o.f 42 6) i j =
             if i ∈ rows ∧ j ∈ cols then
               roundTo ((decodeElem .f32 old).add (rm == .rdn)
                 (chunkSum rm (ks.map fun k => s.mem.aElem a (o.f 0 21) ty (keptOf ty c.prec) i k)
                   (ks.map fun k => s.mem.bElem a (o.f 21 21) ty k j))) .f32 rm false 0
             else old) ∧
     (c.instr = .e8cvt o → o.f 28 4 = 0 → ∃ t, exec (.arrayCommandComplete a) s = .next t ∧ Executed s t a c ∧
       ∀ e, e ≤ o.f 53 6 → (t.mem.elem (planeKey a (o.f 32 21)) .bf16 e : Nat) =
         e8ToBf16 (s.mem.read (padKey (epCore c.ep) (o.f 0 28 + e))).toNat % 2 ^ 16) ∧
     (c.instr = .msendt o → ∃ t m, exec (.arrayCommandComplete a) s = .next t ∧ t.msgs = s.msgs ++ [m] ∧ m.dest = o.f 0 18 ∧
       m.kind = .tile (coreArray (epCore (o.f 0 18))) c.ep (o.f 24 8) c.row c.col (s.mem.tile a (o.f 18 6) rows cols) none ∧
       c ∉ (t.arr a).cmds ∧ t.mem = s.mem ∧ t.threads = s.threads) ∧
     (c.instr = .mrecvt o → (s.arr a).hasTile (o.f 24 8) = false → ∃ t, exec (.arrayCommandComplete a) s = .next t ∧
       (t.arr a).run = none ∧ (t.arr a).cmds = (s.arr a).cmds ∧ t.mem = s.mem) ∧
     (∀ y rest, c.instr = .mrecvt o → (s.arr a).mode ≠ 2 → (s.arr a).slots = y :: rest → y.tag = o.f 24 8 →
       ∃ t, exec (.arrayCommandComplete a) s = .next t ∧ Executed s t a c ∧ (t.arr a).slots = rest ∧
         (c.det = true → t.mem = s.mem.addTile a (o.f 18 6) rows cols y.row y.col y.data))) ∧
  (∀ (s : State) (a : Nat), s.isHeld (arraySrc a) = false →
     (∀ id j i, s.wanted a = none → s.lent a = false → s.testDue a = false → (s.arr a).run = some (.job id) →
       s.findJob a id = some j → j.id = id → (j.arrays a).any s.stopsAt = false → j.command = none →
       (∀ e, s.jobRecord a j = .error e → e ≠ 0 → ∃ t, exec (.arrayCommandComplete a) s = .next t ∧
         (t.jobEntry a id).state = 5 ∧ (t.jobEntry a id).err = e ∧ (∀ y, y ∈ (t.arr a).jobs → y.id ≠ id)) ∧
       (∀ o, i = .mprec o → s.jobRecord a j = .ok i → j.sends = 0 →
         ((s.jobEntry a id).record + 1 < j.count → ∃ t, exec (.arrayCommandComplete a) s = .next t ∧
           (t.jobEntry a id).record = (s.jobEntry a id).record + 1 ∧ t.mem = s.mem ∧ t.threads = s.threads ∧
           (t.arr a).run = some (.job id)) ∧
         ((s.jobEntry a id).record + 1 = j.count → j.sole = none →
           (j.told = some 0 ∨ s.sinksFor (arrayDie a) j.ctx 3 = []) → ∃ t, exec (.arrayCommandComplete a) s = .next t ∧
           (t.jobEntry a id).state = 4 ∧ (∀ y, y ∈ (t.arr a).jobs → y.id ≠ id)))) ∧
     (∀ id m b ep tag row col data, s.findMsg id = some m → m.kind = .tile b ep tag row col data none →
       (s.msgBlocked m = false → s.takesTiles b = true → (s.arrBound b = none ∨ s.arrBound b = some (hdrCtx m.hdr)) →
         (s.arr b).slots.length < 4 → ∃ t, exec (.tileArrival id) s = .next t ∧
           (t.arr b).slots = (s.arr b).slots ++ [⟨tag, ep, row, col, data⟩] ∧
           (∀ w uid l, m.ack = some (w, uid, l, true) → t.msgs = s.msgs.filter (·.id != id) ∧
             (s.unitHere w uid = true → (t.thr w).occ = (s.thr w).occ.down 3))) ∧
       (s.takesTiles b = false → m.ack = none → ∃ t, exec (.tileDiscard id) s = .next t ∧
         t.msgs = s.msgs.filter (·.id != id) ∧ { t with msgs := s.msgs } = s) ∧
       (∀ w uid l, s.takesTiles b = false → m.ack = some (w, uid, l, true) → s.unitHere w uid = true →
         ∃ t, exec (.tileDiscard id) s = .next t ∧ (t.thr w).occ = (s.thr w).occ.down 3) ∧
       (s.takesTiles b = true → exec (.tileDiscard id) s = .next s)) ∧
     (s.testDue a = true →
       (∃ t, exec (.arraySelfTest a 0) s = .next t ∧ (t.arr a).untested = 0 ∧ (t.arr a).since = 0 ∧
         (t.arr a).mode = (s.arr a).mode ∧ { t with arrays := s.arrays } = s) ∧
       (∀ q, q ≠ 0 → (s.arr a).jobs = [] → (∀ j, j ∈ (s.arr (a - a % 2)).jobs → j.pair = false) →
         ∃ t, exec (.arraySelfTest a q) s = .next t ∧ (t.arr a).quads = (s.arr a).quads ||| q ∧ (t.arr a).repl = true ∧
           (t.arr a).mode = if bothHalves ((s.arr a).quads ||| q) then 2 else 1)) ∧
     (s.testDue a = false → ∀ q, exec (.arraySelfTest a q) s = .next s))

/-! ### Address spaces -/

/-- R368, R389, R391: an address-space instruction whose address is in a space and aligned sends one operation to its
partition's tree unit, behind those already there, and reserves its push for the answer; a wrong address raises cause
0x0A or 0x0B, and a completion endpoint that is no thread of the partition 0x05 (R391). The model's own choices in it,
and no rules of the manual, by rows of the assumption log: log 10 (the scope of each operation that encodes none); log
89 (ACCEPT refuses a misaligned base with outcome 2, and a close names no source). -/
def Obligations.TreeInstructions : Prop :=
  ∀ (s : State) (i : Instr) (k : TreeAsk), treeTable s i = some k →
    (fld k.va 57 7 ≠ 0 → exec i s = .next (s.raise 0x0A k.va)) ∧
    (fld k.va 57 7 = 0 → k.va.toNat % k.align ≠ 0 → exec i s = .next (s.raise 0x0B k.va)) ∧
    (fld k.va 57 7 = 0 → k.va.toNat % k.align = 0 →
      (k.off.toNat % k.align ≠ 0 → exec i s = .next (s.raise 0x0B k.off)) ∧
      (k.off.toNat % k.align = 0 →
        (∀ e, k.ep = some e → s.threadOf s.myPart e.toNat = false → exec i s = .next (s.raise 0x05 (e.setWidth 64))) ∧
        ((∀ e, k.ep = some e → s.threadOf s.myPart e.toNat = true) → ∃ t m, exec i s = .next t ∧
          nget [] t.treeQ s.myPart = nget [] s.treeQ s.myPart ++ [m] ∧ m.kind = k.kind ∧ m.ctx = s.myCtx ∧
          Reserved s t k.dst true k.kind.acquires ∧ Over s t 16 ∧ OthersSame s t ∧ t.mem = s.mem ∧ t.nodes = s.nodes ∧
          t.windows = s.windows ∧ t.msgs = s.msgs)))

/-- R217, R372, R377, R378, R380, R381, R382, R383, R384, R385, R386, R392: at the head of a tree unit's queue a
derivation that passes its checks links the derived node under its source and tells the receiver's endpoint, one that
fails answers its outcome and changes no node; a window is opened or closed with its outcome. A withdrawal marks its
node and starts with the whole set to be marked dead; each dead mark makes one node dead, and the last one settles the
dies of the rounds; a round drops the entries of the set at one die, and its acknowledgement waits for the accesses
that use them, after which a grant that has lost its node ends with outcome 6; a piece that a round has waited for is
cancelled, with its channel stopped; a page is handed over once the walkers have dropped it. The model's own choices
in it, and no rules of the manual, by rows of the assumption log: log 83 (A new mapping takes the lowest free node
index); log 85 (slates 0x200 and 0x201 carry the new mapping's base, and mappings that the host makes emit none); log
87 (A pending grant reserves its target range); log 88 (A GRANT's rounds skip dies that are fenced); log 89 (ACCEPT
refuses a misaligned base with outcome 2, and a close names no source); log 90 (A root node has rights 7; the root of
a Scallink window refuses reads and map-on with outcome 3); log 92 (A migration handover holds the device's accesses
to the page until the ownership flips). -/
def Obligations.TreeOperations : Prop :=
  (∀ (s : State) (part : Nat) (m : TreeMsg) (rest : List TreeMsg), nget [] s.treeQ part = m :: rest →
     s.treeStuck part = false →
     (∀ i x w va lg rctx win off rights cookie, m.kind = .derive false va lg rctx win off rights cookie → x.sealed = false →
       s.meteredSlots m.ctx = none → s.checkMsg part m = .ok (i, x, w) →
       let j := freshKey 0 s.nodes
       ∃ t g, exec (.derive part) s = .next t ∧ nget [] t.treeQ part = rest ∧
         t.node j = { part := part, ctx := rctx, vbase := w.base + off, lg := lg, phys := x.phys + (va - x.vbase),
                      rights := rights, slot := x.slot, depth := x.depth + 1, parent := some i, seq := x.nextSeq } ∧
         (i ≠ j → t.node i = { x with nextSeq := x.nextSeq + 1 }) ∧
         (∀ k, k ≠ i → k ≠ j → t.node k = s.node k) ∧ t.msgs = s.msgs ++ [g] ∧
         g.dest = (nget ({} : Window) s.windows (rctx * 64 + win)).ep ∧ hdrCtx g.hdr = rctx % 2 ^ 12 ∧
         Answers s t m (treeWord j 0)) ∧
     (∀ va lg rctx win off rights cookie, m.kind = .derive true va lg rctx win off rights cookie →
       ∀ i x w, s.checkMsg part m = .ok (i, x, w) → s.maskedDies [i] ≠ [] → ∃ t o, exec (.derive part) s = .next t ∧
         (t.node i).state = .pending ∧ t.treeOps = s.treeOps ++ [o] ∧ o.set = [i] ∧
         o.fin = .grant win (w.base + off) rights cookie rctx w.ep w.handler) ∧
     (∀ phys lg slot tenant, m.kind = .createRoot phys lg slot tenant →
       let st := s.rootStatus part phys lg true slot tenant
       (st ≠ 0 → exec (.derive part) s = .next ({ s with treeQ := nset s.treeQ part rest }.setResult 0 0 st)) ∧
       (st = 0 → ∃ t, exec (.derive part) s = .next t ∧ nget [] t.treeQ part = rest ∧
         t.node (freshKey 0 s.nodes) = { part := part, vbase := phys, lg := lg, phys := phys, rights := 7, sealed := true, slot := slot } ∧
         (∀ k, k ≠ freshKey 0 s.nodes → t.node k = s.node k) ∧ t.threads = s.threads)) ∧
     (∀ c, m.kind.derives = true → (∀ p l k te, m.kind ≠ .createRoot p l k te) → s.checkMsg part m = .error c → c ≠ 6 → ∃ t, exec (.derive part) s = .next t ∧
       nget [] t.treeQ part = rest ∧ t.nodes = s.nodes ∧ t.msgs = s.msgs ∧ Answers s t m (treeWord 0 c)) ∧
     (∀ win w, m.kind = .openWindow win w → ∃ t, exec (.windowChange part) s = .next t ∧ nget [] t.treeQ part = rest ∧
       t.nodes = s.nodes ∧ Answers s t m (BitVec.ofNat 64 (s.openOutcome part m.ctx win w)) ∧
       t.windows = if s.openOutcome part m.ctx win w = 0 then nset s.windows (m.ctx * 64 + win) w else s.windows) ∧
     (∀ win, m.kind = .closeWindow win → ∃ t, exec (.windowChange part) s = .next t ∧ nget [] t.treeQ part = rest ∧
       t.nodes = s.nodes ∧
       ((nfind s.windows (m.ctx * 64 + win)).isSome = true → t.windows = ndel s.windows (m.ctx * 64 + win) ∧
         Answers s t m 0) ∧
       ((nfind s.windows (m.ctx * 64 + win)).isNone = true → t.windows = s.windows ∧ Answers s t m 1)) ∧
     (∀ k, m.kind = k → k.derives = false → exec (.derive part) s = .next s) ∧
     (∀ k, m.kind = k → k.withdraws = false → exec (.unmapEffect part) s = .next s)) ∧
  (∀ s : State,
     (∀ (part : Nat) (m : TreeMsg) (rest : List TreeMsg) (i : Nat) (x : Node) (va : Nat) (self : Bool),
       nget [] s.treeQ part = m :: rest → s.treeStuck part = false → m.kind = .unmap va self none → x.sealed = false →
       s.target m = .ok (i, x, self) → s.treeOps = [] →
       let all := if self then postOrder s.nodes 32 i else (postOrder s.nodes 32 i).dropLast
       ∃ t o, exec (.unmapEffect part) s = .next t ∧ nget [] t.treeQ part = rest ∧ t.treeOps = [o] ∧ o.set = all ∧
         o.marks = all ∧ o.dies = none ∧ o.fin = .unmap all.length va none ∧
         t.node i = (if self then { x with selfMark := true } else { x with descMark := some x.nextSeq }) ∧
         ∀ k, k ≠ i → t.node k = s.node k) ∧
     (∀ (part : Nat) (m : TreeMsg) (rest : List TreeMsg) (c : Nat), nget [] s.treeQ part = m :: rest →
       s.treeStuck part = false → m.kind.withdraws = true → s.target m = .error c →
       ∃ t, exec (.unmapEffect part) s = .next t ∧ nget [] t.treeQ part = rest ∧ t.nodes = s.nodes ∧
         t.treeOps = s.treeOps ∧ Answers s t m (treeWord 0 c)) ∧
     (∀ (id i j : Nat) (is : List Nat) (o : TreeOp), s.findOp id = some o → o.id = id → o.dies = none →
       o.marks = i :: j :: is → s.treeStuck o.part = false → ∃ t, exec (.deadMarks id) s = .next t ∧
         t.node i = { s.node i with state := .dead } ∧ (∀ k, k ≠ i → t.node k = s.node k) ∧
         t.findOp id = some { o with marks := j :: is } ∧ t.msgs = s.msgs) ∧
     (∀ (id d : Nat) (ds : List Nat) (o : TreeOp), s.findOp id = some o → o.id = id → o.dies = some (d :: ds) →
       o.round = none → s.treeStuck o.part = false → s.isHeld (walkerSrc d) = false →
       ∃ t r, exec (.invalidationRound id) s = .next t ∧ t.findOp id = some { o with dies := some ds, round := some r } ∧
         r.die = d ∧ r.since = s.now ∧ (∀ e, e ∈ t.cacheOf d ↔ e ∈ s.cacheOf d ∧ (s.opNodes o).contains e.node = false) ∧
         (∀ q, q ∈ s.reqs → q.land.any (fun l => l.die == d && (s.opNodes o).contains l.node) = true → q.id ∈ r.uses) ∧
         (∀ k c p, (k, c) ∈ s.channels → p ∈ c.pins → (p.src.any (fun l => l.die == d && (s.opNodes o).contains l.node) = true ∨
           p.dst.any (fun l => l.die == d && (s.opNodes o).contains l.node) = true) → p.id ∈ r.uses) ∧ t.nodes = s.nodes) ∧
     (∀ (id : Nat) (o : TreeOp) (r : Round), s.findOp id = some o → o.id = id → o.round = some r →
       (s.stillUses r = true → exec (.invalidationAck id) s = .next s) ∧
       (s.stillUses r = false → s.isHeld (walkerSrc r.die) = false → (∃ d ds, o.dies = some (d :: ds)) → o.after = [] →
         ∃ t, exec (.invalidationAck id) s = .next t ∧ t.findOp id = some { o with round := none } ∧ t.nodes = s.nodes) ∧
       (s.stillUses r = false → s.isHeld (walkerSrc r.die) = false → o.fin.isGrant = true → o.after ≠ [] → ∃ t,
         exec (.invalidationAck id) s = .next t ∧ t.nodes = s.nodes ∧
         (∀ p, t.findOp id = some p → p.round = none ∧ p.dies = some []) ∧
         (∀ ep uid pend l, o.asker = .thread ep uid pend l → s.unitHere ep uid = true → o.marks = [] →
           s.traced r.die o.ctx 9 = false → s.isHeld (s.treePool o.part) = false → s.takingOver (treeDie o.part) = false →
           t.thr ep = (s.thr ep).answer pend (treeWord 0 6))) ∧
       (∀ page host, s.stillUses r = false → s.isHeld (walkerSrc r.die) = false → o.dies = some [] → o.after = [] →
         o.marks = [] → o.fin = .handover page host → ∃ t, exec (.invalidationAck id) s = .next t ∧
           nget false t.shared page = host ∧ t.treeOps = s.treeOps.filter (·.id != id) ∧ t.threads = s.threads)) ∧
     (∀ (page : Nat) (host : Bool), nget false s.shared page ≠ host → s.handingOver page = false → page < 2 ^ 24 →
       s.caches = [] → s.reqs = [] → s.channels = [] → ∃ t, exec (.migrationHandover page host) s = .next t ∧
         nget false t.shared page = host ∧ t.nodes = s.nodes ∧ t.mem = s.mem ∧ t.threads = s.threads) ∧
     (∀ (cu ch : Nat) (q : Kick) (ws : List Word) (p : Piece) (o : TreeOp) (r : Round) (a b : Spot) (n acc : Nat) (l : Landing),
       let k := cu * 8 + ch
       let c := s.channel k
       c.kick = some q → c.words = some ws → c.ending = false → c.pieces = [p] → p.done < p.len →
       sidesAt (epCore q.ep) ws p.off = some (a, b, n) → s.treeOps = [o] → o.round = some r →
       r.uses.contains p.id = true → r.since + 4 * Config.usTicks ≤ s.now → p.pinOf r.die r.nodes = some (acc, l) →
       ∃ t, exec (.pinCancel cu ch) s = .next t ∧ (t.channel k).pieces = [] ∧ (t.channel k).kick = some q ∧
         (t.channel k).stopped = true ∧ (t.channel k).code = 5 ∧ (t.channel k).progress = c.progress))

/-! ### Sealing, egress and the Scroll -/

/-- R400-R402, R406, R407, R418: the key page: a package that opens fills its empty slot with a full budget and one
Scroll entry; one that fails a check gets its status and changes no slot; an update with a higher serial replaces the
policy; an erase empties a slot that no live node uses; the public copy and the attestation go to the host. The
model's own choices in it, and no rules of the manual, by rows of the assumption log: log 93 (the package's secrets
and random bytes are opaque, and the standards' draws are bounded); log 94 (AES, XTS, GCM, SHA3, SHAKE, ML-KEM-768 and
ML-DSA-44 follow their public standards); log 96 (A key package of the wrong length answers status 1, as any malformed
package does); log 97 (the revoke bit in a load is ignored, and an update's cipher fields are zero); log 98 (the host
may erase an empty slot, and every erase waits for its invalidation round); log 99 (after a policy update the rest of
the window's budget is a free value within both budgets). -/
def Obligations.KeyRequests : Prop :=
  ∀ (s : State) (slot : Nat) (pkg nonce : List Byte) (bus : Nat), s.pageOpen 4 = true → s.securityHeld = false →
    (slot < 256 → pkgStatus false pkg ≠ 0 → ∃ t, exec (.keyLoad slot pkg) s = .next t ∧
      { t with results := s.results, busOut := s.busOut } = s ∧ fld (t.result 4) 0 8 = pkgStatus false pkg % 256) ∧
    (slot < 256 → pkgStatus true pkg ≠ 0 → ∃ t, exec (.keyUpdate slot pkg) s = .next t ∧
      { t with results := s.results, busOut := s.busOut } = s ∧ fld (t.result 4) 0 8 = pkgStatus true pkg % 256) ∧
    (slot < 256 → pkgStatus false pkg = 0 → pkgOpen pkg = none → ∃ t, exec (.keyLoad slot pkg) s = .next t ∧ t.keys = s.keys ∧
      fld (t.result 4) 0 8 = 4) ∧
    (∀ key, slot < 256 → pkgStatus false pkg = 0 → pkgOpen pkg = some key →
      (s.slotLoaded slot = true → ∃ t, exec (.keyLoad slot pkg) s = .next t ∧ t.keys = s.keys ∧ fld (t.result 4) 0 8 = 5) ∧
      (s.slotLoaded slot = false → s.scrollFits 1 = true → ∃ t, exec (.keyLoad slot pkg) s = .next t ∧
        t.slotLoaded slot = true ∧ (t.keySlot slot).key = key ∧ (t.keySlot slot).policy = pkgPolicy pkg ∧
        (t.keySlot slot).owner = pkgOwnerHash pkg ∧ (t.keySlot slot).left = ((pkgPolicy pkg).getD 2 0).toNat ∧
        fld (t.result 4) 0 8 = 0 ∧ s.scroll.seq < t.scroll.seq ∧ t.threads = s.threads ∧
        ∀ k, k ≠ slot → t.keySlot k = s.keySlot k)) ∧
    (slot < 256 → pkgStatus true pkg = 0 → s.slotLoaded slot = true → (s.keySlot slot).owner = pkgOwnerHash pkg →
      (((pkgPolicy pkg).getD 0 0).toNat ≤ (s.keySlot slot).serial.toNat → ∃ t, exec (.keyUpdate slot pkg) s = .next t ∧
        t.keys = s.keys ∧ fld (t.result 4) 0 8 = 6) ∧
      ((s.keySlot slot).serial.toNat < ((pkgPolicy pkg).getD 0 0).toNat → s.scrollFits 1 = true →
        ((pkgPolicy pkg).getD 5 0).getLsbD 3 = false → ∃ t, exec (.keyUpdate slot pkg) s = .next t ∧
          (t.keySlot slot).policy = pkgPolicy pkg ∧ (t.keySlot slot).key = (s.keySlot slot).key ∧
          fld (t.result 4) 0 8 = 0 ∧ (t.keySlot slot).left + (t.keySlot slot).lot ≤ ((pkgPolicy pkg).getD 2 0).toNat)) ∧
    (slot < 256 → s.nodes.any (fun (_, n) => n.sealed && n.slot == slot && n.state != .dead) = true →
      ∃ t, exec (.hostErase slot) s = .next t ∧ t.keys = s.keys ∧ fld (t.result 4) 0 8 = 7) ∧
    (slot < 256 → s.nodes = [] → s.caches = [] → s.reqs = [] → s.channels = [] → s.scrollFits 1 = true →
      NMap.wf s.keys = true → ∃ t, exec (.hostErase slot) s = .next t ∧ t.slotLoaded slot = false ∧
        fld (t.result 4) 0 8 = 0 ∧ ∀ k, k ≠ slot → t.keySlot k = s.keySlot k) ∧
    (∃ t, exec (.keyPublicCopy bus) s = .next t ∧ fld (t.result 4) 0 8 = 0 ∧
      t.busOut = s.busOut ++ [.control 4 0 .successful, .host bus (signPublic ++ kemPublic ++ certificateOf signPublic kemPublic)] ∧
      { t with busOut := s.busOut, results := s.results } = s) ∧
    (nonce.length = 32 → ∃ t b, exec (.attestation nonce bus) s = .next t ∧
      t.busOut = s.busOut ++ [.control 4 0 .successful, .host bus (nonce ++ deviceId ++ s.boot.measure ++ b)] ∧ fld (t.result 4) 0 8 = 0 ∧
      { t with busOut := s.busOut, results := s.results } = s) ∧
    (s.scroll.staging.length < 4096 → ∃ t, exec .checkpointRequest s = .next t ∧ fld (t.result 4) 0 8 = 0 ∧
      t.scroll.ckpts = s.scroll.ckpts + 1 ∧ t.scroll.since = 0 ∧ t.scroll.lost = 0 ∧
      t.scroll.staging.length = s.scroll.staging.length + 1) ∧
    (4096 ≤ s.scroll.staging.length → ∃ t, exec .checkpointRequest s = .next t ∧ t.scroll = s.scroll ∧
      fld (t.result 4) 0 8 = 8)

/-- R409-R411, R413-R416: a new window restores a slot's budget; a beat passes with 64 bytes taken from every slot
that it is charged to, or is held, for the first time in a window at a port with a Scroll entry before; that entry
enters staging with the next number and the hash of the last one, or is dropped and counted, and the beat is held
then; the oldest staged entry goes to its place in the ring, once that place has been archived. The model's own
choices in it, and no rules of the manual, by rows of the assumption log: log 95 (the Scroll ring ends at the top of
its extent, with the checkpoint area of 2,432 bytes a signature below it); log 100 (held beats pass in the order of
their holds at a window's start, and slate 0x282 comes when a slot's own queue at a port has emptied); log 101 (A
meter of an emptied slot passes nothing). -/
def Obligations.MetersAndScroll : Prop :=
  ∀ (s : State) (slot id seq : Nat),
    (s.meterCurrent slot = false → s.securityHeld = false → s.beats = [] → ∃ t, exec (.meterWindow slot) s = .next t ∧
      (t.keySlot slot).left = (s.keySlot slot).budget ∧ (t.keySlot slot).lot = 0 ∧ t.meterCurrent slot = true ∧
      { t with keys := s.keys } = s ∧ ∀ k, k ≠ slot → t.keySlot k = s.keySlot k) ∧
    (s.meterCurrent slot = true → exec (.meterWindow slot) s = .next s) ∧
    (∀ b rest, s.beats = b :: rest → b.id = id → b.held = false → s.isHeld (s.portSrc b.port) = false →
      s.metersAway = false → s.meteredSlots b.ctx = some [slot] → s.meterCurrent slot = true → (s.keySlot slot).lot % 64 = 0 →
      (s.meterHas b.port slot = true → ∃ t, exec (.egressBeat id) s = .next t ∧
        (t.keySlot slot).left + (t.keySlot slot).lot + 64 = (s.keySlot slot).left + (s.keySlot slot).lot ∧
        t.beats = (if b.left ≤ 1 then rest else { b with left := b.left - 1, held := false } :: rest) ∧
        { t with beats := s.beats, keys := s.keys, busOut := s.busOut } = s ∧
        ∃ fs, t.busOut = s.busOut ++ fs ∧ (1 < b.left → fs = [])) ∧
      (s.meterHas b.port slot = false → ((s.keySlot slot).told.contains b.port = true ∨ s.slotLoaded slot = false) →
        ∃ t, exec (.egressBeat id) s = .next t ∧ t.beats = { b with held := true } :: t.beats.tail ∧
          { t with beats := s.beats } = s) ∧
      (s.meterHas b.port slot = false → (s.keySlot slot).told.contains b.port = false → s.slotLoaded slot = true →
        s.scroll.queued = [] → exec (.egressBeat id) s =
          .next { s with scroll := { s.scroll with queued := [(id, slot, b.port)] } })) ∧
    (∀ b bs rest, s.beats = b :: bs → s.scroll.queued = (b.id, slot, b.port) :: rest → s.securityHeld = false →
      s.isHeld (s.portSrc b.port) = false → (s.untold b).contains slot = true →
      (s.scrollFits 1 = true → s.scroll.since < 254 → ∃ t e, exec .scrollAppend s = .next t ∧
        t.scroll.staging = s.scroll.staging ++ [(s.scroll.seq, e)] ∧ t.scroll.seq = s.scroll.seq + 1 ∧
        t.scroll.prev = sha3 e ∧ t.scroll.queued = rest ∧
        e = entryBytes s.scroll.seq (Nat.max (s.ctime s.securityDie) (s.floor (securitySrc s.securityDie) + 1)) 0x09
          (s.tenantOf b.ctx) b.ctx slot (BitVec.ofNat 64 (b.port * 2 ^ 56 + (s.keySlot slot).window % 2 ^ 56)) s.scroll.prev ∧
        t.beats.head? = some { b with held := true } ∧ (t.keySlot slot).told = (s.keySlot slot).told ++ [b.port] ∧
        t.threads = s.threads ∧ (s.traced (portDie b.port) b.ctx 10 = false → t.mem = s.mem)) ∧
      (s.scrollFits 1 = false → ∃ t, exec .scrollAppend s = .next t ∧
        t.scroll = { s.scroll with queued := rest, lost := s.scroll.lost + 1 } ∧
        t.beats.head? = some { b with held := true } ∧ t.threads = s.threads)) ∧
    (s.scroll.queued = [] → exec .scrollAppend s = .next s) ∧
    (∀ q e rest, Safe s → s.scroll.staging = (q, e) :: rest → s.boot.state = 2 → s.takingOver 16 = false →
      ((q < 2 ^ s.ringLog ∨ ∃ a, s.scroll.archived = some a ∧ q - 2 ^ s.ringLog ≤ a) → ∃ t, exec .stagingDrain s = .next t ∧
        t.scroll.staging = rest ∧ t.threads = s.threads ∧
        (e.length = 64 → t.mem.readBytes 64 (physKey (s.ringBase + q % 2 ^ s.ringLog * 64)) = e) ∧
        SameBut s t (physKey (s.ringBase + q % 2 ^ s.ringLog * 64)) e.length) ∧
      (2 ^ s.ringLog ≤ q → s.scroll.archived = none → exec .stagingDrain s = .next s)) ∧
    (s.boot.state = 2 → s.takingOver 16 = false → ∃ t, exec (.archivedSeqWrite seq) s = .next t ∧ t.scroll = { s.scroll with archived := some seq } ∧
      { t with scroll := s.scroll } = s)
/-! ### Hosts -/

/-- R372, R431, R438, R440, R450, R453, R455, R460, R462: the host and control pages: contexts, jobs and roots are
made with the first free numbers and answered; a root's map and unmap go to the tree unit; a kill and a fence keep the
page busy; a page is bound to an open graph and unbound; a table entry is written, or refused with its status; a claim
passes from an owner. The model's own choices in it, and no rules of the manual, by rows of the assumption log: log 90
(A root node has rights 7; the root of a Scallink window refuses reads and map-on with outcome 3); log 107 (requests
with illegal page arguments answer status 0xFF, and unstated refusals a free status that is not 0); log 108 (A full
root tree answers status 7); log 125 (CREATE_CONTEXT also makes the context's first job, phase and graph); log 157 (A
table entry that is written with valid = 0 is stored unchecked beyond its reserved bits). -/
def Obligations.HostPages : Prop :=
  ∀ (s : State), s.pageOpen 0 = true →
    (∀ tenant part (pager : Word) ep handler, 1 ≤ tenant → tenant < 256 → part < s.parts → s.pagerOk part pager = true →
      s.noticeOk part ep = true → handler < 4096 → freshKey 1 s.ctxs < 4096 →
      let c := freshKey 1 s.ctxs
      ∃ t, exec (.createContext tenant part pager ep handler) s = .next t ∧
        t.ctx c = { inUse := true, tenant := tenant, part := part } ∧ fld (t.result 0) 0 8 = 0 ∧ fld (t.result 0) 8 32 = c ∧
        nfind t.windows (c * 64) = some { host := true, ep := ep, handler := handler } ∧
        (∀ d, d ∈ partDies s.parts part → t.sysReg .pager c d = pager) ∧ t.threads = s.threads) ∧
    (∀ ctx, ctx ≠ 0 → (s.ctx ctx).inUse = true →
      (∃ t, exec (.destroyContext ctx) s = .next t ∧ (t.ctx ctx).kill.isSome = true ∧ t.result 0 = 0 ∧
        (t.ctx ctx).killers = (s.ctx ctx).killers ++ [0] ∧ { t with ctxs := s.ctxs, results := s.results, busOut := s.busOut } = s) ∧
      (s.pageOpen 5 = true → ∃ t, exec (.hostKill ctx) s = .next t ∧ (t.ctx ctx).kill.isSome = true ∧ t.result 5 = 0 ∧
        (t.ctx ctx).killers = (s.ctx ctx).killers ++ [5] ∧ t.busOut = s.busOut ++ [.control 5 0 .successful])) ∧
    (∀ phys lg part, s.treeStuck part = false → lg < 25 → phys < 2 ^ 48 → part < s.parts → phys % 2 ^ (6 + lg) = 0 →
      (s.rootRange part phys (2 ^ (6 + lg))).1 = true → s.nodes.length < 2 ^ 22 →
      let i := freshKey 0 s.nodes
      ∃ t, exec (.createRoot phys lg part false 0 0) s = .next t ∧ fld (t.result 0) 0 8 = 0 ∧
        t.node i = { part := part, ctx := 0, vbase := phys, lg := lg, phys := phys, rights := 7 } ∧
        (∀ k, k ≠ i → t.node k = s.node k) ∧ { t with nodes := s.nodes, results := s.results, busOut := s.busOut } = s) ∧
    (∀ node ctx win off rights, node < 2 ^ 22 → ctx < 4096 → win < 64 → off < 2 ^ 57 → rights < 8 →
      ∃ t m, exec (.mapRoot node ctx win off rights) s = .next t ∧ t.result 0 = 0 ∧
        t.busOut = s.busOut ++ [.control 0 0 .successful] ∧
        nget [] t.treeQ (s.node node).part = nget [] s.treeQ (s.node node).part ++ [m] ∧
        m.kind = .rootMap node ctx win off rights ∧ { t with treeQ := s.treeQ, results := s.results, busOut := s.busOut } = s) ∧
    (∀ node self, node < 2 ^ 22 → ∃ t m, exec (.unmapRoot node self) s = .next t ∧ t.result 0 = 0 ∧
      nget [] t.treeQ (s.node node).part = nget [] s.treeQ (s.node node).part ++ [m] ∧ m.kind = .rootUnmap node self ∧
      { t with treeQ := s.treeQ, results := s.results, busOut := s.busOut } = s) ∧
    (∀ ctx i u, s.live ctx = true → s.takeIndex 4 (s.ctx ctx).part = some (i, u) →
      ∃ t, exec (.createJob ctx) s = .next t ∧ (t.level 4 (s.ctx ctx).part i).inUse = true ∧
        (t.level 4 (s.ctx ctx).part i).ctx = ctx ∧ (t.level 4 (s.ctx ctx).part i).closed = false ∧
        fld (t.result 0) 0 8 = 0 ∧ fld (t.result 0) 8 32 = i % 2 ^ 32 ∧ t.threads = s.threads) ∧
    (∀ ctx job, ∃ t, exec (.closeJob ctx job) s = .next t ∧ (t.result 0).getLsbD 63 = true ∧ t.threads = s.threads) ∧
    (∀ port page ctx graph vec, port < 2 → page < 2048 →
      (s.live ctx = true → s.hasRecord (s.ctx ctx).part ctx 2 graph = true → ∃ t,
        exec (.bindPage port page true ctx graph vec) s = .next t ∧ fld (t.result 0) 0 8 = 0 ∧
        t.subPage port page = { bound := true, ctx := ctx, graph := graph, vec := vec } ∧
        { t with pages := s.pages, results := s.results, busOut := s.busOut } = s) ∧
      (s.live ctx = false → ∃ t, exec (.bindPage port page true ctx graph vec) s = .next t ∧ fld (t.result 0) 0 8 = 8 ∧
        t.pages = s.pages)) ∧
    (∀ table port index w0 w1 w2, s.tableStatus table port index w0 w1 w2 ≠ 0 →
      ∃ t, exec (.writeTableEntry table port index w0 w1 w2) s = .next t ∧ { t with results := s.results, busOut := s.busOut } = s ∧
        fld (t.result 0) 0 8 = s.tableStatus table port index w0 w1 w2 % 256) ∧
    (∀ table port index w0 w1 w2, s.tableStatus table port index w0 w1 w2 = 0 → table ≠ 3 →
      ∃ t, exec (.writeTableEntry table port index w0 w1 w2) s = .next t ∧ fld (t.result 0) 0 8 = 0 ∧
        t.tableEntry table port index = (w0, w1, w2) ∧ { t with tables := s.tables, conns := s.conns, results := s.results, busOut := s.busOut } = s) ∧
    (∀ die, s.pageOpen 5 = true → realDie die = true →
      (s.fenced.contains die = true → ∃ t, exec (.hostFence die) s = .next t ∧ fld (t.result 5) 0 8 = 0 ∧
        t.toFence = s.toFence) ∧
      (s.fenced.contains die = false → ∃ t, exec (.hostFence die) s = .next t ∧ t.result 5 = 0 ∧
        t.toFence.any (fun (d, a) => d == die && a) = true ∧ { t with toFence := s.toFence, results := s.results, busOut := s.busOut } = s)) ∧
    (∀ source owner writer, s.pageOpen 5 = true → source < 16 → ownerOk owner = true →
      let old := nget 1 s.claims source
      let may := (owner = 0 ∧ old = writer) ∨ (owner ≠ 0 ∧ old = 0)
      (may → ∃ t, exec (.claimWrite source owner writer) s = .next t ∧ nget 1 t.claims source = owner ∧
        fld (t.result 5) 0 8 = 0) ∧
      (¬ may → ∃ t, exec (.claimWrite source owner writer) s = .next t ∧ t.claims = s.claims ∧ fld (t.result 5) 0 8 = 1))

/-- R304, R309, R411, R439, R440, R450-R452, R454, R458, R461, R470, R471: submissions become launches and messages of
their page's context, each with its completion to the host, which tries again after outcome 2, while a request page
has a request in progress, or when a call ring is full; call rings move words to and from service cores, the debug
port attaches, reads and writes a stopped thread or a quiet scratchpad and lets a halted one go on, and the registers
of the pages take the values that they allow. The model's own choices in it, and no rules of the manual, by rows of
the assumption log: log 103 (the host-side checks of a debug attach: fields of slate 0x342 are free, and its Scroll
entry names requester and direction); log 104 (MSI-X vectors are masked at reset, and an entry's message address is a
multiple of 4); log 106 (the numbering of the debug port's registers, its word, and its value are the model's own);
log 107 (requests with illegal page arguments answer status 0xFF, and unstated refusals a free status that is not 0);
log 126 (A submission's message for a core takes the port's host endpoint as its src, and a call ring's entry is taken
by the service core's die). -/
def Obligations.HostRequests : Prop :=
  ∀ s : State, Safe s → s.boot.state = 2 →
    (∀ port page im q u,
      let p := s.subPage port page
      let part := (s.ctx p.ctx).part
      s.fenced.contains (16 + port) = false → p.bound = true → im.length = 16 → s.masterHeld part = false →
      (s.toldMaster part (s.portFloor port)).requestLaunch part p.ctx (some p.graph) im (some (pageKey port page)) = (q, u) →
      q.waits = false → u.pages = s.pages → u.busOut = s.busOut →
      ∃ t, exec (.submitLaunch port page (.image im)) s = .next t ∧ { t with pages := u.pages, busOut := u.busOut } = u ∧
        t.busOut = s.busOut ++ [.deferred port page (if q.outcome = 2 then .retry else .successful)] ∧
        (q.outcome = 0 → t.subPage port page = { p with count := (p.count + 1) % 2 ^ 32, tag := q.tag, outcome := 0 }) ∧
        (q.outcome ≠ 0 → t.subPage port page = { p with outcome := q.outcome })) ∧
    (∀ port page r, s.fenced.contains (16 + port) = false → (s.subPage port page).bound = true → r.length = 16 →
      let c := s.messageOutcome port (s.subPage port page) r
      (c = 0 → ∃ t m, exec (.submitMessage port page r) s = .next t ∧
        t.msgs = s.msgs ++ [m] ∧ m.dest = fld (r.getD 0 0) 0 18 ∧ hdrCtx m.hdr = (s.subPage port page).ctx % 2 ^ 12 ∧
        m.payload = (r.drop 2).take (fld (r.getD 1 0) 0 3) ∧ (t.subPage port page).outcome = 0 ∧ t.threads = s.threads ∧
        t.busOut = s.busOut ++ [.deferred port page .successful]) ∧
      (c = 2 → ∃ t, exec (.submitMessage port page r) s = .next t ∧ { t with pages := s.pages, busOut := s.busOut } = s ∧
        t.subPage port page = { s.subPage port page with outcome := 2 } ∧ t.busOut = s.busOut ++ [.deferred port page .retry])) ∧
    (∀ port page (ws : List Word), s.fenced.contains (16 + port) = false →
      let ends (i : Instr) : Prop := ∃ t, exec i s = .next t ∧ { t with busOut := s.busOut } = s ∧
        t.busOut = s.busOut ++ [.deferred port page .unsupported]
      ends (.submitLaunch port page .elsewhere) ∧ ((s.subPage port page).bound = false ∨ ws.length ≠ 16 →
        ends (.submitLaunch port page (.image ws)) ∧ ends (.submitMessage port page ws))) ∧
    (∀ port page w (ws : List Word), s.fenced.contains (16 + port) = true →
      exec (.submitLaunch port page w) s = .next s ∧ exec (.submitMessage port page ws) s = .next s) ∧
    (∀ port core ws, port < 2 → s.fenced.contains (16 + port) = false → core < 32 → ws.length = 16 →
      (ws.drop 8).any (· != 0) = false → s.ringFull core = false →
      s.takingOver (16 + core / 16) = false → ∃ t, exec (.callSubmit ⟨port, core⟩ ws) s = .next t ∧
        nget 0 t.callProd core = nget 0 s.callProd core + 1 ∧ t.threads = s.threads ∧
        t.busOut = s.busOut ++ [.control 6 core .successful] ∧
        (let h := t.mem.readWord (callKey core (nget 0 s.callProd core % 256 * 64));
          fld h 22 18 = hostSrc (16 + port) ∧ fld h 0 22 = fld (ws.getD 0 0) 0 22 ∧ fld h 40 24 = fld (ws.getD 0 0) 40 24) ∧
        ∀ i, 1 ≤ i → i < 8 → t.mem.readWord (callKey core (nget 0 s.callProd core % 256 * 64 + 8 * i)) = ws.getD i 0) ∧
    (∀ port core ws, port < 2 → s.fenced.contains (16 + port) = false → core < 32 → ws.length = 16 →
      (ws.drop 8).any (· != 0) = false → s.ringFull core = true →
      s.takingOver (16 + core / 16) = false → exec (.callSubmit ⟨port, core⟩ ws) s = .next (s.controlEnd 6 core .retry)) ∧
    (∀ i p, requestPage i = some p → (s.result p).getLsbD 63 = false → s.debugWait = none →
      exec i s = .next (s.controlEnd p 0 .retry)) ∧
    (∀ core n, core < 32 → s.takingOver (16 + core / 16) = false → nget 0 s.callCons core + n ≤ nget 0 s.callProd core → ∃ t,
      exec (.callRingConsume core n) s = .next t ∧ nget 0 t.callCons core = nget 0 s.callCons core + n ∧
      { t with callCons := s.callCons } = s) ∧
    (s.pageOpen 7 = true → s.debugWait = none → s.securityHeld = false → ∀ ctx q core addr th i (v : Word),
      (s.live ctx = true → s.dbgOk ctx = true → s.attached q = none → s.scrollFits 1 = true →
        ∃ t, exec (.debugAttach ctx q) s = .next t ∧ t.attached q = some ctx ∧ fld (t.result 7) 0 8 = 0 ∧
          s.scroll.seq < t.scroll.seq ∧ t.threads = s.threads) ∧
      (s.attached q = some ctx → s.scrollFits 1 = true → NMap.wf s.debug = true →
        ∃ t, exec (.debugDetach q) s = .next t ∧ t.attached q = none ∧ fld (t.result 7) 0 8 = 0 ∧ t.threads = s.threads) ∧
      (s.debugAt q core addr none = some ctx → s.meteredSlots ctx = none → ∃ t, exec (.debugRead q core addr none) s = .next t ∧
        t.debugWord = s.mem.readWord (padKey core addr) ∧ fld (t.result 7) 0 8 = 0 ∧
        { t with debugWord := s.debugWord, results := s.results, busOut := s.busOut } = s) ∧
      (s.debugAt q core addr (some (th, i)) = some ctx → s.meteredSlots ctx = none → (s.thr (coreEp core th)).stopped = true →
        ∃ t, exec (.debugRead q core addr (some (th, i))) s = .next t ∧
          t.debugWord = (s.thr (coreEp core th)).debugReg i ∧ { t with debugWord := s.debugWord, results := s.results, busOut := s.busOut } = s) ∧
      (s.debugAt q core addr none = some ctx → (∀ h, h < 8 → (s.thr (coreEp core h)).busy = false) →
        ∃ t, exec (.debugWrite q core addr none v) s = .next t ∧ t.mem.readWord (padKey core addr) = v ∧
          SameBut s t (padKey core addr) 8 ∧ t.threads = s.threads) ∧
      (s.debugAt q core addr (some (th, i)) = some ctx → (s.thr (coreEp core th)).stopped = true → 12 ≤ i → i < 44 →
        ∃ t, exec (.debugWrite q core addr (some (th, i)) v) s = .next t ∧
          (∀ g : Fin 32, (t.thr (coreEp core th)).regs.g[g] =
            if g.val + 12 = i then v else (s.thr (coreEp core th)).regs.g[g]) ∧ t.mem = s.mem) ∧
      (∀ ep, s.attached q = some ctx → (s.core (epCore ep)).bound = some ctx → (s.thr ep).wait = .halted →
        (s.thr ep).gang = none → (s.thr ep).rep = none → ∃ t, exec (.debugResume q ep) s = .next t ∧
          (t.thr ep).wait = .none ∧ (t.thr ep).regs.pc = nextPc (s.thr ep).regs.pc 8 ∧ t.mem = s.mem)) ∧
    (∀ part (v : Word), part < s.parts → 1 ≤ fld v 0 12 → fld v 0 12 ≤ 3400 → fld v 32 16 ≠ 0 →
      (s.schedOf part).costs.toList.any (fun c => s.ceiling part (fld v 0 12) < c * 1000) = false → ∃ t,
      exec (.schedWordWrite part v) s = .next t ∧ (t.schedOf part).horizon = fld v 32 16 ∧
      (t.schedOf part).cap = some (fld v 0 12) ∧ { t with sched := s.sched } = s) ∧
    (∀ part cls (v : Word), part < s.parts → cls < 8 → fld v 0 20 * 1000 ≤ s.ceiling part (s.capOf part) → ∃ t,
      exec (.classCostWrite part cls v) s = .next t ∧ { t with sched := s.sched } = s ∧
      ∀ j : Fin 8, (t.schedOf part).costs[j] = if j.val = cls then fld v 0 20 else (s.schedOf part).costs[j]) ∧
    (∀ part (v : Word), part < s.parts → ((s.schedOf part).lateNext + 2 ^ 32 - fld v 0 32) % 2 ^ 32 ≤ 256 → ∃ t,
      exec (.lateConsumedWrite part v) s = .next t ∧ (t.schedOf part).lateDone = fld v 0 32 ∧ { t with sched := s.sched } = s) ∧
    (∀ v : Word, fld v 16 10 < 576 → ∃ t, exec (.selfTestIntervalWrite v) s = .next t ∧
      (t.arr (fld v 16 10)).interval = (if fld v 0 16 ≠ 0 ∧ fld v 0 16 < 64 then 64 else fld v 0 16) ∧
      { t with arrays := s.arrays, teleSel := s.teleSel } = s) ∧
    (∀ v : Word, ∃ t, exec (.registerWrite 8 0x010 v) s = .next t ∧ t.boot = { s.boot with ether := v.setWidth 16 } ∧
      { t with boot := s.boot } = s) ∧
    (∀ page off (v : Word), page ≠ 8 ∨ off ≠ 0x010 → exec (.registerWrite page off v) s = .next s) ∧
    (∀ die, realDie die = true → ∃ t, exec (.eccCorrectedError die) s = .next t ∧ { t with seu := s.seu } = s ∧
      nget 0 t.seu die = Nat.min (nget 0 s.seu die + 1) 0xFFFFFFFF) ∧
    (∀ port vec (addr : Word) data, port < 2 → s.fenced.contains (16 + port) = false → vec < 2048 → addr.toNat % 4 = 0 →
      (∃ t, exec (.msixTableWrite port vec ⟨false, addr, data⟩) s = .next t ∧ nget false t.msixOn (port * 2048 + vec) = true ∧
        nget (0, 0) t.msixMsg (port * 2048 + vec) = (addr, data) ∧
        t.busOut = (if s.msixPend.contains (port * 2048 + vec) then s.busOut ++ [.msix port vec addr data] else s.busOut)) ∧
      (NMap.wf s.msixOn = true → ∃ t, exec (.msixTableWrite port vec ⟨true, addr, data⟩) s = .next t ∧
        nget (0, 0) t.msixMsg (port * 2048 + vec) = (addr, data) ∧ nget false t.msixOn (port * 2048 + vec) = false ∧ t.busOut = s.busOut))

/-! ### Links and bring-up -/

/-- R218, R219, R448, R453, R457, R462-R464: an access through an open inbound window reads or writes device memory; a
host's read of a line makes it a holder, unless a full directory has to recall its oldest line first; a function level
reset clears its port's tables and bindings; an arriving message starts its unit's message under the connection's
context, with its frame acknowledged at the acceptance; unacknowledged frames go out again after 20 µs; a port's
change of state is told. The model's own choices in it, and no rules of the manual, by rows of the assumption log: log
109 (A new connection entry starts its connection afresh); log 110 (scallink acknowledgements name the next expected
number, and a refused frame's number is used again); log 116 (an inbound access to a channel of a fenced base die
completes as Unsupported Request, and its write is discarded); log 117 (A host's write of a line is accepted only when
no other host holds the line); log 118 (after a Function Level Reset, translated device accesses in flight find no
outbound window and read all ones); log 138 (an access of a port is performed granule by granule in the order of
arrival, and lies in one window); log 165 (the kinds of Scallink frames are numbered 0, 1 and 2). -/
def Obligations.Links : Prop :=
  ∀ s : State, Safe s → s.boot.state = 2 →
    (∀ port addr phys requester (data : List Byte), port < 2 → s.isHeld (pcieSrc (16 + port)) = false →
      nget [] s.inbound port = [] → s.reachable phys = true → data ≠ [] → s.inWindow port addr data.length = some (true, phys) →
      let m := Nat.min data.length (64 - phys % 64)
      let left (x : Inbound) : List Inbound := if data.length ≤ m then [] else [x]
      (s.lineHeld phys m false = false → ∃ t, exec (.inboundAccess port addr false [] data.length requester) s = .next t ∧
        t.busOut = s.busOut ++ [.completion port addr (some (s.mem.readBytes m (physKey phys)))] ∧
        nget [] t.inbound port = left ⟨addr + m, false, [], data.length - m, requester⟩ ∧
        { t with busOut := s.busOut, inbound := s.inbound } = s) ∧
      (s.lineHeld phys m true = false → s.sealedIn phys m = false → s.reserved_ phys m = false →
        ∃ t, exec (.inboundAccess port addr true data 0 requester) s = .next t ∧
          t.mem.readBytes m (physKey phys) = data.take m ∧ SameBut s t (physKey phys) m ∧
          nget [] t.inbound port = left ⟨addr + m, true, data.drop m, 0, requester⟩ ∧ t.threads = s.threads)) ∧
    (∀ port addr phys, port < 2 → s.boot.cfg.getLsbD (8 + port) = true → addr % 64 = 0 →
      s.isHeld (pcieSrc (16 + port)) = false → s.decoded port addr = some phys → s.reachable phys = true →
      s.sealedRoot phys = none → s.lineOf (phys / 64) = ([], false) →
      (∀ g, s.oldLine (phys / 64) = some g → (s.lineOf g).1 ≠ [] →
        ∃ t, exec (.cxlMemRequest port addr false true []) s = .next t ∧ t.directory = s.directory ∧ t.mem = s.mem ∧
          ∀ p, p ∈ (s.lineOf g).1 → (g, p) ∈ t.recalls) ∧
      (s.oldLine (phys / 64) = none → ∃ t, exec (.cxlMemRequest port addr false true []) s = .next t ∧ t.lineOf (phys / 64) = ([port], true) ∧
        t.busOut = s.busOut ++ [.completion port addr (some (s.mem.readBytes 64 (physKey phys)))] ∧ t.mem = s.mem)) ∧
    (∀ port, port < 2 → ∃ t, exec (.functionLevelReset port) s = .next t ∧
      (∀ page, page < 2048 → t.subPage port page = {} ∧ t.subPage (1 - port) page = s.subPage (1 - port) page) ∧
      (∀ i, i < 4096 → t.tableEntry 0 port i = (0, 0, 0) ∧ t.tableEntry 1 port i = (0, 0, 0) ∧
        t.tableEntry 2 port i = s.tableEntry 2 port i ∧ t.tableEntry 3 0 i = s.tableEntry 3 0 i) ∧
      t.mem = s.mem ∧ t.threads = s.threads ∧ t.nodes = s.nodes ∧ t.ctxs = s.ctxs) ∧
    (∀ conn (hdr : Word) dest (ws : List Word),
      let c := nget ({} : Conn) s.conns conn
      let lctx := fld (s.tableEntry 3 0 conn).1 0 12
      let tag := fld (s.tableEntry 3 0 conn).2.1 48 12
      let part := (s.ctx lctx).part
      conn < 4096 → (s.connPort conn).isSome = true → s.isHeld (scallinkSrc (s.connDie conn)) = false → c.unacked = [] →
      s.connBusy conn = false → (s.tableEntry 3 0 conn).1.getLsbD 63 = true →
      (s.ctx lctx).inUse = true → isService dest = false → validEp dest = true → s.partOf (epCore dest) = part →
      (s.launch part tag).inUse = true → (s.launch part tag).ctx = lctx → (s.launch part tag).state = .running →
      (∃ t m, exec (.scallinkFrame conn c.recvSeq true hdr dest 0 ws false 0 false) s = .next t ∧
        (c.recvSeq < 2 ^ 32 → t.msgs = s.msgs ++ [m] ∧ m.dest = dest ∧ m.link = some conn ∧ hdrCtx m.hdr = lctx ∧
          hdrHandler m.hdr = hdrHandler hdr ∧ m.payload = (ws ++ List.replicate 7 0).take (hdrWords hdr) ∧
          t.launches = s.launches ∧ t.busOut = s.busOut)) ∧
      (∀ n, n % 2 ^ 32 ≠ c.recvSeq → ∃ t, exec (.scallinkFrame conn n true hdr dest 0 ws false 0 false) s = .next t ∧
        t.msgs = s.msgs ∧
        t.busOut = s.busOut ++ [.ethernet ((s.connPort conn).getD 0) conn (s.frameHead conn 2 0 c.recvSeq) false none])) ∧
    (∀ id m conn th entry ec, s.findMsg id = some m → m.refused = false → m.link = some conn → s.staleLink m = none →
      Startable s { m with link := none } th entry ec → ∃ t, exec (.messageArrival id) s = .next t ∧
        (let part := s.partOf (epCore m.dest);
          (t.launch part (hdrLaunch m.hdr)).started = (s.launch part (hdrLaunch m.hdr)).started + 1) ∧
        (nget ({} : Conn) t.conns conn).recvSeq = ((nget ({} : Conn) s.conns conn).recvSeq + 1) % 2 ^ 32) ∧
    (∀ conn f fs,
      let c := nget ({} : Conn) s.conns conn
      c.unacked = f :: fs → s.frameOut f = true →
      (c.sentAt + 20 * Config.usTicks ≤ s.now → c.retries < 16 → ∃ t, exec (.scallinkRetransmit conn) s = .next t ∧
        nget {} t.conns conn = { c with retries := c.retries + 1, sentAt := s.now } ∧
        { t with conns := s.conns, busOut := s.busOut } = s ∧
        ∀ port, s.connPort conn = some port → ∃ fr, t.busOut = s.busOut ++
          .ethernet port conn (s.frameHead conn (if f.message then 0 else 1) f.seq c.recvSeq) false (some f) :: fr) ∧
      (c.sentAt + 20 * Config.usTicks ≤ s.now → 16 ≤ c.retries → ∃ t, exec (.scallinkRetransmit conn) s = .next t ∧
        (nget ({} : Conn) t.conns conn).unacked = [] ∧ (t.tableEntry 3 0 conn).1.getLsbD 62 = true) ∧
      (s.now < c.sentAt + 20 * Config.usTicks → exec (.scallinkRetransmit conn) s = .next s)) ∧
    (∀ port up, port < 18 → s.fenced.contains (portDie port) = false → s.links.contains port ≠ up →
      s.isHeld (s.portSrc port) = false → ∃ t, exec (.linkState port up) s = .next t ∧
        t.links = (if up then s.links ++ [port] else s.links.filter (· != port)) ∧ t.threads = s.threads ∧
        t.notices = s.notices ++ [(10, nget 1 s.claims 10, [BitVec.ofNat 64 (port * 2 + if up then 1 else 0)])])

/-- R467-R469: power-on clears everything but the recovery buffer and begins the boot; a warm reset keeps HBM4E until
its scrub, the fences and `ctime`; the configuration is released once, with the partition count; the end of training
opens the Scroll or puts the device into recovery; in recovery the buffer takes words in order. The model's own
choices in it, and no rules of the manual, by rows of the assumption log: log 121 (A power-on reset keeps the recovery
buffer's bytes, and what has left the package stays recorded); log 122 (each boot's image checks, the training's
outcome and the arrays' self-tests are free values); log 123 (the boot scrub keeps the ring and checkpoint range of
the new configuration); log 124 (A write of the boot word without release is stored, a refused release leaves the
word, and recovery data past 16 MiB is discarded). -/
def Obligations.Boot : Prop :=
  ∀ (s : State) (cfg v : Word), Safe s →
    (∃ t, exec .powerOnReset s = .next t ∧ t.threads = [] ∧ t.cores = [] ∧ t.ctxs = [] ∧ t.nodes = [] ∧ t.msgs = [] ∧
      t.reqs = [] ∧ t.fenced = [] ∧ t.parts = ({} : State).parts ∧ t.now = 0 ∧ t.links = [16, 17] ∧
      (t.boot.state = 1 ∨ t.boot.state = 4) ∧
      ∀ x, t.mem.read x = if 2 ^ 54 ≤ x ∧ x < 2 ^ 55 then s.mem.read x else 0) ∧
    (s.pageOpen 5 = true → ∃ t u, exec .warmResetRequest s = .next t ∧ exec .warmReset s = .next u ∧
      t.busOut = s.busOut ++ [.control 5 0 .successful] ∧ { t with busOut := u.busOut } = u) ∧
    (∃ t, exec .warmReset s = .next t ∧ t.threads = [] ∧ t.cores = [] ∧ t.ctxs = [] ∧ t.nodes = [] ∧ t.msgs = [] ∧
      t.fenced = s.fenced ∧ t.now = s.now ∧ t.ctimeOff = s.ctimeOff ∧ t.scroll = { s.scroll with queued := [] } ∧
      (t.boot.state = 1 ∨ t.boot.state = 4) ∧ (∀ p, (t.pair p).fenced = (s.pair p).fenced ∧ (t.pair p).batches = []) ∧
      ∀ x, t.mem.read x = if x < 2 ^ 48 ∨ (2 ^ 55 ≤ x ∧ x < 2 ^ 56) then s.mem.read x else 0) ∧
    (s.boot.state = 1 → s.boot.cfg.getLsbD 63 = false →
      (cfg.getLsbD 63 = false → ∃ t, exec (.bootRelease cfg) s = .next t ∧
        t.boot = { s.boot with cfg := cfg &&& 0x0000FFFF000FF303 } ∧
        { t with boot := s.boot } = s) ∧
      (cfg.getLsbD 63 = true → releaseOk cfg = true → ∃ t, exec (.bootRelease cfg) s = .next t ∧
        t.boot = { s.boot with cfg := cfg } ∧ t.parts = 2 ^ fld cfg 0 2 ∧ { t with boot := s.boot, parts := s.parts } = s) ∧
      (cfg.getLsbD 63 = true → releaseOk cfg = false → exec (.bootRelease cfg) s = .next s)) ∧
    (s.boot.state ≠ 1 → exec (.bootRelease cfg) s = .next s ∧ exec .bootReady s = .next s) ∧
    (s.boot.state = 1 → s.boot.cfg.getLsbD 63 = true → (∀ a, (s.arr a).jobs = []) → ∃ t, exec .bootReady s = .next t ∧ t.threads = s.threads ∧
      ((t.boot.state = 4 ∧ t.boot.fail = 5) ∨
       (t.boot.state = 2 ∧ (s.scroll.staging.length < 4096 → t.scroll.ckpts = s.scroll.ckpts + 1 ∧
         ∀ x, x < s.ckptBase → t.mem.read x = 0)))) ∧
    (s.boot.state = 4 →
      (v.toNat % 8 = 0 → v.toNat < 2 ^ 24 → ∃ t, exec (.recoveryOffsetWrite v) s = .next t ∧
        t.boot = { s.boot with recOff := v.toNat } ∧ { t with boot := s.boot } = s) ∧
      (s.boot.recOff < 2 ^ 24 → ∃ t, exec (.recoveryDataWrite v) s = .next t ∧
        t.mem.readWord (recoveryKey s.boot.recOff) = v ∧ SameBut s t (recoveryKey s.boot.recOff) 8 ∧
        t.boot = { s.boot with recOff := s.boot.recOff + 8 } ∧ t.threads = s.threads)) ∧
    (s.boot.state ≠ 4 → exec (.recoveryDataWrite v) s = .next s ∧ exec (.recoveryOffsetWrite v) s = .next s)
/-! ### The machine as a whole -/

/-- R61, R62, R75, R76, R82, R122, R123: on a thread's turn, the instruction that the bytes at its pc encode runs, as
`exec` says, on the state in which the thread's clock has advanced to it, and what its stochastic results still owe
the generator follows (`settleRng`), and a result of another latency than a scalar's is noted with the cycle of its
arrival (`recordSlow`); a word that does not decode runs as the reserved instruction of its failing check, and a
repetition runs its body. A thread that another one of its core is ahead of, and one whose instruction has to wait,
leaves things as they are. Other moves run their event. The model's own choices in it, and no rules of the manual, by
rows of the assumption log: log 4 (the order in which the parts of the package move is free); log 22 (results of more
than one cycle are known by the core's own cycle count); log 31 (gang followers run exactly their skew behind their
leader, and a follower's own transfers do not steer it). -/
def Obligations.StepRunsDecoded : Prop :=
  (∀ (m : Memory) (core pc : Nat) (i : Instr) (e : Enc), i.wf = true → encode i = some e →
    (∀ j, j < e.size → m.read (padKey core pc + j) = e.bytes.getD j 0) → pc + e.size ≤ 0x60000 →
    pc % 32 + e.size ≤ 32 → e.runsOn (engineOf core) = true → fetchAt m core pc = .ok (i, e.size)) ∧
  (∀ (s : State) (ep : Nat), s.nextMove.1 = .thread ep →
    let t := s.thr ep
    let u (i : Instr) := (({ s.nextMove.2 with cur := ep } : State).tookTurn ep (List.range 8)).tick ep i
    let goes (i : Instr) := t.conflicts i = false ∧ ({ s with cur := ep } : State).orderHolds ep i = false
    let runs (i : Instr) : Prop := step s =
      match exec i (u i) with
      | .next v => .next ((u i).recordSlow (v.settleRng ep i) ep i)
      | x => x
    t.busy = true → s.fenced.contains (epDie ep) = false → t.trapPend = none → s.isHeld ep = false → t.wait = .none →
    t.rback = none → (t.preempt = none ∨ t.trap = true) → (t.gang = none ∨ t.trap = true) →
    (s.nextMove.2.hasTurn ep = true →
      (t.rep = none →
        (∀ i n, fetchAt s.mem (epCore ep) t.regs.pc.toNat = .ok (i, n) → goes i → runs i) ∧
        (∀ x, fetchAt s.mem (epCore ep) t.regs.pc.toNat = .error x → x ≠ .fetchAddress → x ≠ .fetchWindow →
          let i := Instr.reservedInstruction x t.regs.pc (fetchDetail s.mem (epCore ep) t.regs.pc.toNat)
          goes i → runs i)) ∧
      (∀ r a i, t.rep = some r → r.body[r.idx]? = some (a, i) → goes i → runs i)) ∧
    (∀ i n, t.rep = none → fetchAt s.mem (epCore ep) t.regs.pc.toNat = .ok (i, n) →
      (goes i → s.nextMove.2.hasTurn ep = false → step s = .next s.nextMove.2) ∧
      (¬ goes i → step s = .next (({ s.nextMove.2 with cur := ep } : State).tookTurn ep (List.range 8))))) ∧
  (∀ (s : State) (i : Instr), s.nextMove.1 = .event i → isEvent i = true → step s = exec i s.nextMove.2) ∧
  (∀ (s : State) (x : Move) (r : List Move), s.agenda = x :: r → s.nextMove = (x, { s with agenda := r }))

/-- R61, R66, R72-R74: decoding is the inverse of encoding, in both directions: every well-formed instruction is read
back from its own bytes, with whatever follows left over, and every word that decodes is the one encoding of a
well-formed instruction. The model's own choices in it, and no rules of the manual, by rows of the assumption log: log
17 (LOOP and FCVT refuse specifier 0xD as a source); log 132 (STAGE forms 0 and 1 require sb to be zero, and MJOB and
MTEST refuse specifiers 0xD and 0xE). -/
def Obligations.DecodeEncode : Prop :=
  (∀ (i : Instr) (e : Enc) (rest : List Byte), i.wf = true → encode i = some e →
    decodeEnc e = .ok i ∧ decodeBytes (e.bytes ++ rest) = .ok (i, rest)) ∧
  (∀ (e : Enc) (i : Instr), decodeEnc e = .ok i → i.wf = true ∧ encode i = some e)

/-- R64: the words of all zeros and all ones are no instructions, and no word of the 96-bit or 128-bit class whose
major is unassigned is one, whatever its other bits; each raises the reserved-instruction fault, cause 0x01, at its
address. -/
def Obligations.UnassignedWords : Prop :=
  (∀ (m : Memory) (core pc : Nat), pc + 8 ≤ 0x60000 → pc % 32 + 8 ≤ 32 →
    (m.readNat 8 (padKey core pc) = 0 → fetchAt m core pc = .error .unassigned) ∧
    (m.readNat 8 (padKey core pc) = 2 ^ 64 - 1 → fetchAt m core pc = .error .lengthCode)) ∧
  (∀ r : Raw96, (0x1B ≤ r.major.toNat ∧ r.major.toNat < 0x40) ∨ (0x46 ≤ r.major.toNat ∧ r.major.toNat < 0x60) ∨
    0x6C ≤ r.major.toNat → decodeEnc (.e96 r) = .error .unassigned) ∧
  (∀ r : Raw128, (0x10 ≤ r.major.toNat ∧ r.major.toNat < 0x20) ∨ (0x26 ≤ r.major.toNat ∧ r.major.toNat < 0x30) ∨
    (0x36 ≤ r.major.toNat ∧ r.major.toNat < 0x40) ∨ 0x41 ≤ r.major.toNat → decodeEnc (.e128 r) = .error .unassigned) ∧
  (∀ (s : State) (x : DecodeError) (pc : W32) (d : Word), x = .unassigned ∨ x = .lengthCode ∨ x = .engine →
    exec (.reservedInstruction x pc d) s = .next (s.raiseAt 0x01 false d pc))

/-- The words that the manual itself writes out decode to the instructions that it names beside them (R71, R75, R128,
R130, R134, R143, R183, R226, R233, R254, R268, R320, R390, R391), and the two words of R64 decode to none. -/
def Obligations.DecodeWords : Prop :=
  decodeTableWord 64 0x000000050D570804 = some (.add .i32 ⟨.nib 3, .nib 1, .imm, 5⟩) ∧
  decodeTableWord 64 0x00130008000000D8 = some (.rep 8 3 1) ∧
  decodeTableWord 64 0x00000206000010A0 = some (.movm 4 6 2) ∧
  decodeTableWord 64 0xFFFFFFE8007700D4 = some (.loop (.nib 3) (.nib 3) 0xFFFFFFE8) ∧
  decodeTableWord 64 0x0000002200503538 = some (.fcvt .t8 .rne false 0x22 .wet (.nib 1)) ∧
  decodeTableWord 96 0x00000000000000014811005D = some (.vfma ⟨0, 1, 2, 0, true, false, false, 0⟩) ∧
  decodeTableWord 128 0x001F0C0200000000000000000CC0201A =
    some (.mmul .bf16 .rne ⟨.zero, .zero, 0, 0x001F0C0200000000⟩) ∧
  decodeTableWord 64 0x0000001000692980 = some (.ld .i32 .cl false (.nib 5) (.nib 2) 0x10) ∧
  decodeTableWord 64 0x000000001546399C = some (.cas .n32 .cl .acq (.nib 2) (.nib 0) (.nib 1)) ∧
  decodeTableWord 96 0x000000000000035200000181 = some (.chain 2 5 true none) ∧
  decodeTableWord 96 0x0000000000000009000001AD = some (.bwait 9) ∧
  decodeTableWord 64 0x0002300700700200 = some (.send (.nib 3) 7 3 4 false) ∧
  decodeTableWord 128 0x00000000018030420000000706570082 = some (.map (.nib 3) (.nib 1) (.nib 2) 7 0x042 3 0 3) ∧
  decodeTableWord 128 0x0000000000000001000000000089008A = some (.unmap (.nib 5) (.nib 4) true) ∧
  decodeTableWord 64 0x0000000000000000 = none ∧ decodeTableWord 64 0xFFFFFFFFFFFFFFFF = none

/-- Every step keeps memory in its canonical form: addresses strictly rising, and no cell that holds what an unlisted
address reads as. The model's own choices in it, and no rules of the manual, by rows of the assumption log: log 2
(bytes that nothing has written read as zero everywhere). -/
def Obligations.MemoryStaysCanonical : Prop :=
  ∀ s t : State, Safe s → step s = .next t → Safe t

/-- R30, R399, R440, R467: what reset leaves: memory in its canonical form with nothing listed, `ctime` at zero, no
unit, no message and no launch, no die fenced, and every key slot empty. The model's own choices in it, and no rules
of the manual, by rows of the assumption log: log 1 (reset values that no field map gives: the model takes the empty
or zero value named in the entry); log 2 (bytes that nothing has written read as zero everywhere). -/
def Obligations.SafeAtReset : Prop :=
  Safe State.reset ∧ State.reset.mem = [] ∧ State.reset.now = 0 ∧ State.reset.ctimeOff = 0 ∧
  (∀ ep, (State.reset.thr ep).busy = false) ∧ State.reset.msgs = [] ∧ State.reset.launches = [] ∧
  State.reset.fenced = [] ∧ (∀ k, State.reset.keySlot k = {}) ∧ ∀ x, State.reset.mem.read x = 0
end

