-- ==== Sys2Proof/Laws/Arms.lean ====
section
/-!
SUPPORT. What `exec` is at each constructor: the meaning that its arm calls.
-/
namespace Sys2Proof.Machine

@[simp] theorem exec_add a0 a1 s : exec (.add a0 a1) s = execAdd a0 a1 s := rfl
@[simp] theorem exec_addi a0 a1 s : exec (.addi a0 a1) s = execAddi a0 a1 s := rfl
@[simp] theorem exec_sub a0 a1 s : exec (.sub a0 a1) s = execSub a0 a1 s := rfl
@[simp] theorem exec_neg a0 a1 s : exec (.neg a0 a1) s = execNeg a0 a1 s := rfl
@[simp] theorem exec_mul a0 a1 s : exec (.mul a0 a1) s = execMul a0 a1 s := rfl
@[simp] theorem exec_and a0 a1 s : exec (.and a0 a1) s = execAnd a0 a1 s := rfl
@[simp] theorem exec_or a0 a1 s : exec (.or a0 a1) s = execOr a0 a1 s := rfl
@[simp] theorem exec_xor a0 a1 s : exec (.xor a0 a1) s = execXor a0 a1 s := rfl
@[simp] theorem exec_andn a0 a1 s : exec (.andn a0 a1) s = execAndn a0 a1 s := rfl
@[simp] theorem exec_not a0 a1 s : exec (.not a0 a1) s = execNot a0 a1 s := rfl
@[simp] theorem exec_shl a0 a1 s : exec (.shl a0 a1) s = execShl a0 a1 s := rfl
@[simp] theorem exec_shr a0 a1 s : exec (.shr a0 a1) s = execShr a0 a1 s := rfl
@[simp] theorem exec_rotl a0 a1 s : exec (.rotl a0 a1) s = execRotl a0 a1 s := rfl
@[simp] theorem exec_clz a0 a1 s : exec (.clz a0 a1) s = execClz a0 a1 s := rfl
@[simp] theorem exec_ctz a0 a1 s : exec (.ctz a0 a1) s = execCtz a0 a1 s := rfl
@[simp] theorem exec_popc a0 a1 s : exec (.popc a0 a1) s = execPopc a0 a1 s := rfl
@[simp] theorem exec_seq a0 a1 s : exec (.seq a0 a1) s = execSeq a0 a1 s := rfl
@[simp] theorem exec_sel a0 a1 s : exec (.sel a0 a1) s = execSel a0 a1 s := rfl
@[simp] theorem exec_bfx a0 a1 s : exec (.bfx a0 a1) s = execBfx a0 a1 s := rfl
@[simp] theorem exec_bfi a0 a1 s : exec (.bfi a0 a1) s = execBfi a0 a1 s := rfl
@[simp] theorem exec_mulh a0 a1 s : exec (.mulh a0 a1) s = execMulh a0 a1 s := rfl
@[simp] theorem exec_div a0 a1 s : exec (.div a0 a1) s = execDiv a0 a1 s := rfl
@[simp] theorem exec_rem a0 a1 s : exec (.rem a0 a1) s = execRem a0 a1 s := rfl
@[simp] theorem exec_min a0 a1 s : exec (.min a0 a1) s = execMin a0 a1 s := rfl
@[simp] theorem exec_max a0 a1 s : exec (.max a0 a1) s = execMax a0 a1 s := rfl
@[simp] theorem exec_slt a0 a1 s : exec (.slt a0 a1) s = execSlt a0 a1 s := rfl
@[simp] theorem exec_shra a0 a1 s : exec (.shra a0 a1) s = execShra a0 a1 s := rfl
@[simp] theorem exec_sext a0 a1 s : exec (.sext a0 a1) s = execSext a0 a1 s := rfl
@[simp] theorem exec_mulhn a0 a1 s : exec (.mulhn a0 a1) s = execMulhn a0 a1 s := rfl
@[simp] theorem exec_divn a0 a1 s : exec (.divn a0 a1) s = execDivn a0 a1 s := rfl
@[simp] theorem exec_remn a0 a1 s : exec (.remn a0 a1) s = execRemn a0 a1 s := rfl
@[simp] theorem exec_minn a0 a1 s : exec (.minn a0 a1) s = execMinn a0 a1 s := rfl
@[simp] theorem exec_maxn a0 a1 s : exec (.maxn a0 a1) s = execMaxn a0 a1 s := rfl
@[simp] theorem exec_sltn a0 a1 s : exec (.sltn a0 a1) s = execSltn a0 a1 s := rfl
@[simp] theorem exec_zext a0 a1 s : exec (.zext a0 a1) s = execZext a0 a1 s := rfl
@[simp] theorem exec_li a0 a1 s : exec (.li a0 a1) s = execLi a0 a1 s := rfl
@[simp] theorem exec_lih a0 a1 a2 s : exec (.lih a0 a1 a2) s = execLih a0 a1 a2 s := rfl
@[simp] theorem exec_movk a0 a1 s : exec (.movk a0 a1) s = execMovk a0 a1 s := rfl
@[simp] theorem exec_movg a0 a1 a2 s : exec (.movg a0 a1 a2) s = execMovg a0 a1 a2 s := rfl
@[simp] theorem exec_movm a0 a1 a2 s : exec (.movm a0 a1 a2) s = execMovm a0 a1 a2 s := rfl
@[simp] theorem exec_br a0 a1 a2 a3 s : exec (.br a0 a1 a2 a3) s = execBr a0 a1 a2 a3 s := rfl
@[simp] theorem exec_j a0 s : exec (.j a0) s = execJ a0 s := rfl
@[simp] theorem exec_jl a0 a1 s : exec (.jl a0 a1) s = execJl a0 a1 s := rfl
@[simp] theorem exec_jr a0 a1 s : exec (.jr a0 a1) s = execJr a0 a1 s := rfl
@[simp] theorem exec_ret a0 a1 s : exec (.ret a0 a1) s = execRet a0 a1 s := rfl
@[simp] theorem exec_loop a0 a1 a2 s : exec (.loop a0 a1 a2) s = execLoop a0 a1 a2 s := rfl
@[simp] theorem exec_rep a0 a1 a2 s : exec (.rep a0 a1 a2) s = execRep a0 a1 a2 s := rfl
@[simp] theorem exec_fadd a0 a1 a2 a3 s : exec (.fadd a0 a1 a2 a3) s = execFadd a0 a1 a2 a3 s := rfl
@[simp] theorem exec_fsub a0 a1 a2 a3 s : exec (.fsub a0 a1 a2 a3) s = execFsub a0 a1 a2 a3 s := rfl
@[simp] theorem exec_fmul a0 a1 a2 a3 s : exec (.fmul a0 a1 a2 a3) s = execFmul a0 a1 a2 a3 s := rfl
@[simp] theorem exec_ffma a0 a1 a2 a3 s : exec (.ffma a0 a1 a2 a3) s = execFfma a0 a1 a2 a3 s := rfl
@[simp] theorem exec_fdiv a0 a1 a2 s : exec (.fdiv a0 a1 a2) s = execFdiv a0 a1 a2 s := rfl
@[simp] theorem exec_fsqrt a0 a1 a2 s : exec (.fsqrt a0 a1 a2) s = execFsqrt a0 a1 a2 s := rfl
@[simp] theorem exec_fexp2 a0 a1 a2 s : exec (.fexp2 a0 a1 a2) s = execFexp2 a0 a1 a2 s := rfl
@[simp] theorem exec_flog2 a0 a1 a2 s : exec (.flog2 a0 a1 a2) s = execFlog2 a0 a1 a2 s := rfl
@[simp] theorem exec_frsq a0 a1 a2 s : exec (.frsq a0 a1 a2) s = execFrsq a0 a1 a2 s := rfl
@[simp] theorem exec_fmin a0 a1 a2 s : exec (.fmin a0 a1 a2) s = execFmin a0 a1 a2 s := rfl
@[simp] theorem exec_fmax a0 a1 a2 s : exec (.fmax a0 a1 a2) s = execFmax a0 a1 a2 s := rfl
@[simp] theorem exec_fabs a0 a1 a2 s : exec (.fabs a0 a1 a2) s = execFabs a0 a1 a2 s := rfl
@[simp] theorem exec_fneg a0 a1 a2 s : exec (.fneg a0 a1 a2) s = execFneg a0 a1 a2 s := rfl
@[simp] theorem exec_fcmp a0 a1 a2 a3 s : exec (.fcmp a0 a1 a2 a3) s = execFcmp a0 a1 a2 a3 s := rfl
@[simp] theorem exec_fcvt a0 a1 a2 a3 a4 a5 s : exec (.fcvt a0 a1 a2 a3 a4 a5) s = execFcvt a0 a1 a2 a3 a4 a5 s := rfl
@[simp] theorem exec_ld a0 a1 a2 a3 a4 a5 s : exec (.ld a0 a1 a2 a3 a4 a5) s = execLd a0 a1 a2 a3 a4 a5 s := rfl
@[simp] theorem exec_st a0 a1 a2 a3 a4 a5 s : exec (.st a0 a1 a2 a3 a4 a5) s = execSt a0 a1 a2 a3 a4 a5 s := rfl
@[simp] theorem exec_ldaq a0 a1 a2 a3 a4 a5 s : exec (.ldaq a0 a1 a2 a3 a4 a5) s = execLdaq a0 a1 a2 a3 a4 a5 s := rfl
@[simp] theorem exec_strl a0 a1 a2 a3 a4 s : exec (.strl a0 a1 a2 a3 a4) s = execStrl a0 a1 a2 a3 a4 s := rfl
@[simp] theorem exec_ldp a0 a1 a2 a3 a4 a5 s : exec (.ldp a0 a1 a2 a3 a4 a5) s = execLdp a0 a1 a2 a3 a4 a5 s := rfl
@[simp] theorem exec_stp a0 a1 a2 a3 a4 a5 s : exec (.stp a0 a1 a2 a3 a4 a5) s = execStp a0 a1 a2 a3 a4 a5 s := rfl
@[simp] theorem exec_amo a0 a1 a2 a3 a4 a5 a6 s : exec (.amo a0 a1 a2 a3 a4 a5 a6) s = execAmo a0 a1 a2 a3 a4 a5 a6 s := rfl
@[simp] theorem exec_cas a0 a1 a2 a3 a4 a5 s : exec (.cas a0 a1 a2 a3 a4 a5) s = execCas a0 a1 a2 a3 a4 a5 s := rfl
@[simp] theorem exec_fence a0 a1 a2 s : exec (.fence a0 a1 a2) s = execFence a0 a1 a2 s := rfl
@[simp] theorem exec_waitc a0 a1 a2 a3 s : exec (.waitc a0 a1 a2 a3) s = execWaitc a0 a1 a2 a3 s := rfl
@[simp] theorem exec_waitcn a0 a1 s : exec (.waitcn a0 a1) s = execWaitcn a0 a1 s := rfl
@[simp] theorem exec_cnset a0 a1 a2 a3 s : exec (.cnset a0 a1 a2 a3) s = execCnset a0 a1 a2 a3 s := rfl
@[simp] theorem exec_cnget a0 a1 s : exec (.cnget a0 a1) s = execCnget a0 a1 s := rfl
@[simp] theorem exec_galloc a0 a1 a2 s : exec (.galloc a0 a1 a2) s = execGalloc a0 a1 a2 s := rfl
@[simp] theorem exec_gfree a0 s : exec (.gfree a0) s = execGfree a0 s := rfl
@[simp] theorem exec_send a0 a1 a2 a3 a4 s : exec (.send a0 a1 a2 a3 a4) s = execSend a0 a1 a2 a3 a4 s := rfl
@[simp] theorem exec_exit a0 s : exec (.exit a0) s = execExit a0 s := rfl
@[simp] theorem exec_yield a0 s : exec (.yield a0) s = execYield a0 s := rfl
@[simp] theorem exec_park a0 a1 s : exec (.park a0 a1) s = execPark a0 a1 s := rfl
@[simp] theorem exec_wake a0 s : exec (.wake a0) s = execWake a0 s := rfl
@[simp] theorem exec_launch a0 a1 s : exec (.launch a0 a1) s = execLaunch a0 a1 s := rfl
@[simp] theorem exec_launchW a0 a1 s : exec (.launchW a0 a1) s = execLaunchW a0 a1 s := rfl
@[simp] theorem exec_graphCreate a0 a1 s : exec (.graphCreate a0 a1) s = execGraphCreate a0 a1 s := rfl
@[simp] theorem exec_graphClose a0 a1 s : exec (.graphClose a0 a1) s = execGraphClose a0 a1 s := rfl
@[simp] theorem exec_phaseCreate a0 a1 s : exec (.phaseCreate a0 a1) s = execPhaseCreate a0 a1 s := rfl
@[simp] theorem exec_phaseClose a0 a1 s : exec (.phaseClose a0 a1) s = execPhaseClose a0 a1 s := rfl
@[simp] theorem exec_jobClose a0 a1 s : exec (.jobClose a0 a1) s = execJobClose a0 a1 s := rfl
@[simp] theorem exec_cancel a0 a1 a2 s : exec (.cancel a0 a1 a2) s = execCancel a0 a1 a2 s := rfl
@[simp] theorem exec_lvwait a0 a1 a2 s : exec (.lvwait a0 a1 a2) s = execLvwait a0 a1 a2 s := rfl
@[simp] theorem exec_lvread a0 a1 a2 a3 s : exec (.lvread a0 a1 a2 a3) s = execLvread a0 a1 a2 a3 s := rfl
@[simp] theorem exec_fuse a0 a1 s : exec (.fuse a0 a1) s = execFuse a0 a1 s := rfl
@[simp] theorem exec_split s : exec (.split) s = execSplit s := rfl
@[simp] theorem exec_laneid a0 s : exec (.laneid a0) s = execLaneid a0 s := rfl
@[simp] theorem exec_coord a0 a1 s : exec (.coord a0 a1) s = execCoord a0 a1 s := rfl
@[simp] theorem exec_spillq a0 a1 s : exec (.spillq a0 a1) s = execSpillq a0 a1 s := rfl
@[simp] theorem exec_jobset a0 a1 a2 s : exec (.jobset a0 a1 a2) s = execJobset a0 a1 a2 s := rfl
@[simp] theorem exec_stageCreate a0 a1 s : exec (.stageCreate a0 a1) s = execStageCreate a0 a1 s := rfl
@[simp] theorem exec_stageClose a0 a1 s : exec (.stageClose a0 a1) s = execStageClose a0 a1 s := rfl
@[simp] theorem exec_stageThresh a0 a1 a2 s : exec (.stageThresh a0 a1 a2) s = execStageThresh a0 a1 a2 s := rfl
@[simp] theorem exec_keysend a0 a1 a2 s : exec (.keysend a0 a1 a2) s = execKeysend a0 a1 a2 s := rfl
@[simp] theorem exec_splitok a0 a1 a2 s : exec (.splitok a0 a1 a2) s = execSplitok a0 a1 a2 s := rfl
@[simp] theorem exec_mergeok s : exec (.mergeok) s = execMergeok s := rfl
@[simp] theorem exec_krtread a0 a1 a2 s : exec (.krtread a0 a1 a2) s = execKrtread a0 a1 a2 s := rfl
@[simp] theorem exec_qdep a0 a1 s : exec (.qdep a0 a1) s = execQdep a0 a1 s := rfl
@[simp] theorem exec_tev a0 a1 s : exec (.tev a0 a1) s = execTev a0 a1 s := rfl
@[simp] theorem exec_tevx a0 a1 a2 a3 s : exec (.tevx a0 a1 a2 a3) s = execTevx a0 a1 a2 a3 s := rfl
@[simp] theorem exec_tsread a0 s : exec (.tsread a0) s = execTsread a0 s := rfl
@[simp] theorem exec_tmark a0 a1 s : exec (.tmark a0 a1) s = execTmark a0 a1 s := rfl
@[simp] theorem exec_trap a0 s : exec (.trap a0) s = execTrap a0 s := rfl
@[simp] theorem exec_eret s : exec (.eret) s = execEret s := rfl
@[simp] theorem exec_rqread a0 a1 a2 s : exec (.rqread a0 a1 a2) s = execRqread a0 a1 a2 s := rfl
@[simp] theorem exec_rqwrite a0 a1 a2 s : exec (.rqwrite a0 a1 a2) s = execRqwrite a0 a1 a2 s := rfl
@[simp] theorem exec_srr a0 a1 s : exec (.srr a0 a1) s = execSrr a0 a1 s := rfl
@[simp] theorem exec_srw a0 a1 s : exec (.srw a0 a1) s = execSrw a0 a1 s := rfl
@[simp] theorem exec_srwTsink a0 s : exec (.srwTsink a0) s = execSrwTsink a0 s := rfl
@[simp] theorem exec_ckpt a0 a1 s : exec (.ckpt a0 a1) s = execCkpt a0 a1 s := rfl
@[simp] theorem exec_rback a0 a1 s : exec (.rback a0 a1) s = execRback a0 a1 s := rfl
@[simp] theorem exec_kill a0 s : exec (.kill a0) s = execKill a0 s := rfl
@[simp] theorem exec_nop s : exec (.nop) s = execNop s := rfl
@[simp] theorem exec_fill s : exec (.fill) s = execFill s := rfl
@[simp] theorem exec_brk a0 s : exec (.brk a0) s = execBrk a0 s := rfl
@[simp] theorem exec_halt s : exec (.halt) s = execHalt s := rfl
@[simp] theorem exec_vla a0 a1 a2 a3 s : exec (.vla a0 a1 a2 a3) s = execVla a0 a1 a2 a3 s := rfl
@[simp] theorem exec_vsa a0 a1 a2 a3 s : exec (.vsa a0 a1 a2 a3) s = execVsa a0 a1 a2 a3 s := rfl
@[simp] theorem exec_vcvt a0 a1 a2 a3 s : exec (.vcvt a0 a1 a2 a3) s = execVcvt a0 a1 a2 a3 s := rfl
@[simp] theorem exec_vadd a0 a1 s : exec (.vadd a0 a1) s = execVadd a0 a1 s := rfl
@[simp] theorem exec_vsub a0 a1 s : exec (.vsub a0 a1) s = execVsub a0 a1 s := rfl
@[simp] theorem exec_vmul a0 a1 s : exec (.vmul a0 a1) s = execVmul a0 a1 s := rfl
@[simp] theorem exec_vmin a0 a1 s : exec (.vmin a0 a1) s = execVmin a0 a1 s := rfl
@[simp] theorem exec_vmax a0 a1 s : exec (.vmax a0 a1) s = execVmax a0 a1 s := rfl
@[simp] theorem exec_vred a0 a1 a2 s : exec (.vred a0 a1 a2) s = execVred a0 a1 a2 s := rfl
@[simp] theorem exec_vcmp a0 a1 a2 a3 s : exec (.vcmp a0 a1 a2 a3) s = execVcmp a0 a1 a2 a3 s := rfl
@[simp] theorem exec_vbcast a0 a1 s : exec (.vbcast a0 a1) s = execVbcast a0 a1 s := rfl
@[simp] theorem exec_vscl a0 a1 s : exec (.vscl a0 a1) s = execVscl a0 a1 s := rfl
@[simp] theorem exec_vsel a0 a1 a2 s : exec (.vsel a0 a1 a2) s = execVsel a0 a1 a2 s := rfl
@[simp] theorem exec_vidx a0 a1 a2 a3 a4 a5 a6 s : exec (.vidx a0 a1 a2 a3 a4 a5 a6) s = execVidx a0 a1 a2 a3 a4 a5 a6 s := rfl
@[simp] theorem exec_vperm a0 a1 s : exec (.vperm a0 a1) s = execVperm a0 a1 s := rfl
@[simp] theorem exec_vgath a0 a1 a2 a3 a4 s : exec (.vgath a0 a1 a2 a3 a4) s = execVgath a0 a1 a2 a3 a4 s := rfl
@[simp] theorem exec_vscat a0 a1 a2 a3 a4 s : exec (.vscat a0 a1 a2 a3 a4) s = execVscat a0 a1 a2 a3 a4 s := rfl
@[simp] theorem exec_vabs a0 a1 s : exec (.vabs a0 a1) s = execVabs a0 a1 s := rfl
@[simp] theorem exec_vand a0 a1 s : exec (.vand a0 a1) s = execVand a0 a1 s := rfl
@[simp] theorem exec_vor a0 a1 s : exec (.vor a0 a1) s = execVor a0 a1 s := rfl
@[simp] theorem exec_vxor a0 a1 s : exec (.vxor a0 a1) s = execVxor a0 a1 s := rfl
@[simp] theorem exec_vshl a0 a1 s : exec (.vshl a0 a1) s = execVshl a0 a1 s := rfl
@[simp] theorem exec_vshr a0 a1 s : exec (.vshr a0 a1) s = execVshr a0 a1 s := rfl
@[simp] theorem exec_vfma a0 s : exec (.vfma a0) s = execVfma a0 s := rfl
@[simp] theorem exec_vexp2 a0 s : exec (.vexp2 a0) s = execVexp2 a0 s := rfl
@[simp] theorem exec_vrsq a0 s : exec (.vrsq a0) s = execVrsq a0 s := rfl
@[simp] theorem exec_vrcp a0 s : exec (.vrcp a0) s = execVrcp a0 s := rfl
@[simp] theorem exec_pset a0 a1 a2 a3 s : exec (.pset a0 a1 a2 a3) s = execPset a0 a1 a2 a3 s := rfl
@[simp] theorem exec_padv a0 a1 s : exec (.padv a0 a1) s = execPadv a0 a1 s := rfl
@[simp] theorem exec_pget a0 s : exec (.pget a0) s = execPget a0 s := rfl
@[simp] theorem exec_baset a0 a1 a2 s : exec (.baset a0 a1 a2) s = execBaset a0 a1 a2 s := rfl
@[simp] theorem exec_ldb a0 a1 s : exec (.ldb a0 a1) s = execLdb a0 a1 s := rfl
@[simp] theorem exec_stb a0 s : exec (.stb a0) s = execStb a0 s := rfl
@[simp] theorem exec_chain a0 a1 a2 a3 s : exec (.chain a0 a1 a2 a3) s = execChain a0 a1 a2 a3 s := rfl
@[simp] theorem exec_chainResume a0 s : exec (.chainResume a0) s = execChainResume a0 s := rfl
@[simp] theorem exec_cstat a0 a1 s : exec (.cstat a0 a1) s = execCstat a0 a1 s := rfl
@[simp] theorem exec_hcfg a0 a1 s : exec (.hcfg a0 a1) s = execHcfg a0 a1 s := rfl
@[simp] theorem exec_hcfgRearm a0 s : exec (.hcfgRearm a0) s = execHcfgRearm a0 s := rfl
@[simp] theorem exec_hacq a0 a1 s : exec (.hacq a0 a1) s = execHacq a0 a1 s := rfl
@[simp] theorem exec_hrel a0 a1 s : exec (.hrel a0 a1) s = execHrel a0 a1 s := rfl
@[simp] theorem exec_hstate a0 s : exec (.hstate a0) s = execHstate a0 s := rfl
@[simp] theorem exec_rpost a0 a1 s : exec (.rpost a0 a1) s = execRpost a0 a1 s := rfl
@[simp] theorem exec_rtake a0 s : exec (.rtake a0) s = execRtake a0 s := rfl
@[simp] theorem exec_barr a0 a1 s : exec (.barr a0 a1) s = execBarr a0 a1 s := rfl
@[simp] theorem exec_bexp a0 a1 s : exec (.bexp a0 a1) s = execBexp a0 a1 s := rfl
@[simp] theorem exec_btest a0 s : exec (.btest a0) s = execBtest a0 s := rfl
@[simp] theorem exec_bwait a0 s : exec (.bwait a0) s = execBwait a0 s := rfl
@[simp] theorem exec_mlease a0 s : exec (.mlease a0) s = execMlease a0 s := rfl
@[simp] theorem exec_mrel s : exec (.mrel) s = execMrel s := rfl
@[simp] theorem exec_mjob a0 a1 a2 s : exec (.mjob a0 a1 a2) s = execMjob a0 a1 a2 s := rfl
@[simp] theorem exec_mmask a0 s : exec (.mmask a0) s = execMmask a0 s := rfl
@[simp] theorem exec_mprec a0 s : exec (.mprec a0) s = execMprec a0 s := rfl
@[simp] theorem exec_mzero a0 s : exec (.mzero a0) s = execMzero a0 s := rfl
@[simp] theorem exec_mmul a0 a1 a2 s : exec (.mmul a0 a1 a2) s = execMmul a0 a1 a2 s := rfl
@[simp] theorem exec_mmulb a0 a1 s : exec (.mmulb a0 a1) s = execMmulb a0 a1 s := rfl
@[simp] theorem exec_msca a0 a1 s : exec (.msca a0 a1) s = execMsca a0 a1 s := rfl
@[simp] theorem exec_msendt a0 s : exec (.msendt a0) s = execMsendt a0 s := rfl
@[simp] theorem exec_mrecvt a0 s : exec (.mrecvt a0) s = execMrecvt a0 s := rfl
@[simp] theorem exec_mmove a0 a1 a2 a3 s : exec (.mmove a0 a1 a2 a3) s = execMmove a0 a1 a2 a3 s := rfl
@[simp] theorem exec_mload a0 a1 a2 a3 s : exec (.mload a0 a1 a2 a3) s = execMload a0 a1 a2 a3 s := rfl
@[simp] theorem exec_mtest a0 a1 a2 s : exec (.mtest a0 a1 a2) s = execMtest a0 a1 a2 s := rfl
@[simp] theorem exec_mstat a0 a1 s : exec (.mstat a0 a1) s = execMstat a0 a1 s := rfl
@[simp] theorem exec_e8cvt a0 s : exec (.e8cvt a0) s = execE8cvt a0 s := rfl
@[simp] theorem exec_map a0 a1 a2 a3 a4 a5 a6 a7 s : exec (.map a0 a1 a2 a3 a4 a5 a6 a7) s = execMap a0 a1 a2 a3 a4 a5 a6 a7 s := rfl
@[simp] theorem exec_grant a0 a1 a2 a3 a4 a5 a6 a7 s : exec (.grant a0 a1 a2 a3 a4 a5 a6 a7) s = execGrant a0 a1 a2 a3 a4 a5 a6 a7 s := rfl
@[simp] theorem exec_unmap a0 a1 a2 s : exec (.unmap a0 a1 a2) s = execUnmap a0 a1 a2 s := rfl
@[simp] theorem exec_unmapAsync a0 a1 a2 a3 a4 s : exec (.unmapAsync a0 a1 a2 a3 a4) s = execUnmapAsync a0 a1 a2 a3 a4 s := rfl
@[simp] theorem exec_acceptOpen a0 a1 a2 a3 a4 a5 a6 a7 a8 s : exec (.acceptOpen a0 a1 a2 a3 a4 a5 a6 a7 a8) s = execAcceptOpen a0 a1 a2 a3 a4 a5 a6 a7 a8 s := rfl
@[simp] theorem exec_acceptClose a0 a1 a2 s : exec (.acceptClose a0 a1 a2) s = execAcceptClose a0 a1 a2 s := rfl
@[simp] theorem exec_mquery a0 a1 a2 s : exec (.mquery a0 a1 a2) s = execMquery a0 a1 a2 s := rfl
@[simp] theorem exec_xflush a0 a1 a2 s : exec (.xflush a0 a1 a2) s = execXflush a0 a1 a2 s := rfl
@[simp] theorem exec_xld a0 a1 a2 a3 s : exec (.xld a0 a1 a2 a3) s = execXld a0 a1 a2 a3 s := rfl
@[simp] theorem exec_xst a0 a1 a2 a3 s : exec (.xst a0 a1 a2 a3) s = execXst a0 a1 a2 a3 s := rfl
@[simp] theorem exec_xburst a0 a1 a2 a3 a4 a5 s : exec (.xburst a0 a1 a2 a3 a4 a5) s = execXburst a0 a1 a2 a3 a4 a5 s := rfl
@[simp] theorem exec_planew a0 a1 a2 s : exec (.planew a0 a1 a2) s = execPlanew a0 a1 a2 s := rfl
@[simp] theorem exec_mbox a0 a1 a2 s : exec (.mbox a0 a1 a2) s = execMbox a0 a1 a2 s := rfl
@[simp] theorem exec_crec a0 a1 a2 a3 s : exec (.crec a0 a1 a2 a3) s = execCrec a0 a1 a2 a3 s := rfl
@[simp] theorem exec_sendx a0 a1 a2 a3 a4 a5 a6 a7 s : exec (.sendx a0 a1 a2 a3 a4 a5 a6 a7) s = execSendx a0 a1 a2 a3 a4 a5 a6 a7 s := rfl
@[simp] theorem exec_reservedInstruction a0 a1 a2 s : exec (.reservedInstruction a0 a1 a2) s = execReservedInstruction a0 a1 a2 s := rfl
@[simp] theorem exec_messageArrival a0 s : exec (.messageArrival a0) s = execMessageArrival a0 s := rfl
@[simp] theorem exec_coreBind a0 s : exec (.coreBind a0) s = execCoreBind a0 s := rfl
@[simp] theorem exec_sendBufferRetry a0 s : exec (.sendBufferRetry a0) s = execSendBufferRetry a0 s := rfl
@[simp] theorem exec_launchAdmission a0 s : exec (.launchAdmission a0) s = execLaunchAdmission a0 s := rfl
@[simp] theorem exec_batchDeal a0 a1 s : exec (.batchDeal a0 a1) s = execBatchDeal a0 a1 s := rfl
@[simp] theorem exec_unitDispatch a0 s : exec (.unitDispatch a0) s = execUnitDispatch a0 s := rfl
@[simp] theorem exec_dispatchRetry a0 s : exec (.dispatchRetry a0) s = execDispatchRetry a0 s := rfl
@[simp] theorem exec_allowanceRefill s : exec (.allowanceRefill) s = execAllowanceRefill s := rfl
@[simp] theorem exec_masterElection a0 s : exec (.masterElection a0) s = execMasterElection a0 s := rfl
@[simp] theorem exec_arrayGrant a0 s : exec (.arrayGrant a0) s = execArrayGrant a0 s := rfl
@[simp] theorem exec_arrayBind a0 s : exec (.arrayBind a0) s = execArrayBind a0 s := rfl
@[simp] theorem exec_arrayCommandComplete a0 s : exec (.arrayCommandComplete a0) s = execArrayCommandComplete a0 s := rfl
@[simp] theorem exec_leaseTimeout a0 s : exec (.leaseTimeout a0) s = execLeaseTimeout a0 s := rfl
@[simp] theorem exec_gateTimeout a0 s : exec (.gateTimeout a0) s = execGateTimeout a0 s := rfl
@[simp] theorem exec_gateOpen a0 a1 s : exec (.gateOpen a0 a1) s = execGateOpen a0 a1 s := rfl
@[simp] theorem exec_jobStopped a0 a1 s : exec (.jobStopped a0 a1) s = execJobStopped a0 a1 s := rfl
@[simp] theorem exec_tileArrival a0 s : exec (.tileArrival a0) s = execTileArrival a0 s := rfl
@[simp] theorem exec_tileDiscard a0 s : exec (.tileDiscard a0) s = execTileDiscard a0 s := rfl
@[simp] theorem exec_arraySelfTest a0 a1 s : exec (.arraySelfTest a0 a1) s = execArraySelfTest a0 a1 s := rfl
@[simp] theorem exec_chainStart a0 a1 s : exec (.chainStart a0 a1) s = execChainStart a0 a1 s := rfl
@[simp] theorem exec_copyPiece a0 a1 a2 s : exec (.copyPiece a0 a1 a2) s = execCopyPiece a0 a1 a2 s := rfl
@[simp] theorem exec_recordComplete a0 a1 s : exec (.recordComplete a0 a1) s = execRecordComplete a0 a1 s := rfl
@[simp] theorem exec_channelStop a0 a1 s : exec (.channelStop a0 a1) s = execChannelStop a0 a1 s := rfl
@[simp] theorem exec_barrierPhase a0 s : exec (.barrierPhase a0) s = execBarrierPhase a0 s := rfl
@[simp] theorem exec_barrierAggregate a0 s : exec (.barrierAggregate a0) s = execBarrierAggregate a0 s := rfl
@[simp] theorem exec_barrierCompletionMsg a0 s : exec (.barrierCompletionMsg a0) s = execBarrierCompletionMsg a0 s := rfl
@[simp] theorem exec_ldaqReload a0 s : exec (.ldaqReload a0) s = execLdaqReload a0 s := rfl
@[simp] theorem exec_parkTimeout a0 s : exec (.parkTimeout a0) s = execParkTimeout a0 s := rfl
@[simp] theorem exec_yieldReturn a0 s : exec (.yieldReturn a0) s = execYieldReturn a0 s := rfl
@[simp] theorem exec_wakeArrival a0 s : exec (.wakeArrival a0) s = execWakeArrival a0 s := rfl
@[simp] theorem exec_ldpArrival a0 s : exec (.ldpArrival a0) s = execLdpArrival a0 s := rfl
@[simp] theorem exec_farAccessTranslate a0 s : exec (.farAccessTranslate a0) s = execFarAccessTranslate a0 s := rfl
@[simp] theorem exec_farAccessAck a0 a1 s : exec (.farAccessAck a0 a1) s = execFarAccessAck a0 a1 s := rfl
@[simp] theorem exec_derive a0 s : exec (.derive a0) s = execDerive a0 s := rfl
@[simp] theorem exec_unmapEffect a0 s : exec (.unmapEffect a0) s = execUnmapEffect a0 s := rfl
@[simp] theorem exec_deadMarks a0 s : exec (.deadMarks a0) s = execDeadMarks a0 s := rfl
@[simp] theorem exec_invalidationRound a0 s : exec (.invalidationRound a0) s = execInvalidationRound a0 s := rfl
@[simp] theorem exec_invalidationAck a0 s : exec (.invalidationAck a0) s = execInvalidationAck a0 s := rfl
@[simp] theorem exec_pinCancel a0 a1 s : exec (.pinCancel a0 a1) s = execPinCancel a0 a1 s := rfl
@[simp] theorem exec_migrationHandover a0 a1 s : exec (.migrationHandover a0 a1) s = execMigrationHandover a0 a1 s := rfl
@[simp] theorem exec_slateAdmitHeld a0 s : exec (.slateAdmitHeld a0) s = execSlateAdmitHeld a0 s := rfl
@[simp] theorem exec_traceDrain a0 a1 s : exec (.traceDrain a0 a1) s = execTraceDrain a0 a1 s := rfl
@[simp] theorem exec_traceDrainRetry a0 a1 s : exec (.traceDrainRetry a0 a1) s = execTraceDrainRetry a0 a1 s := rfl
@[simp] theorem exec_ptpSync a0 a1 s : exec (.ptpSync a0 a1) s = execPtpSync a0 a1 s := rfl
@[simp] theorem exec_timebaseHoldover s : exec (.timebaseHoldover) s = execTimebaseHoldover s := rfl
@[simp] theorem exec_stageOverload a0 a1 a2 s : exec (.stageOverload a0 a1 a2) s = execStageOverload a0 a1 a2 s := rfl
@[simp] theorem exec_stageTableApply a0 a1 a2 s : exec (.stageTableApply a0 a1 a2) s = execStageTableApply a0 a1 a2 s := rfl
@[simp] theorem exec_interfaceAck a0 a1 a2 s : exec (.interfaceAck a0 a1 a2) s = execInterfaceAck a0 a1 a2 s := rfl
@[simp] theorem exec_endMarker a0 s : exec (.endMarker a0) s = execEndMarker a0 s := rfl
@[simp] theorem exec_stageUnderload a0 a1 a2 s : exec (.stageUnderload a0 a1 a2) s = execStageUnderload a0 a1 a2 s := rfl
@[simp] theorem exec_mergeStart a0 a1 a2 s : exec (.mergeStart a0 a1 a2) s = execMergeStart a0 a1 a2 s := rfl
@[simp] theorem exec_trapEntry a0 s : exec (.trapEntry a0) s = execTrapEntry a0 s := rfl
@[simp] theorem exec_gangFollowerFault a0 s : exec (.gangFollowerFault a0) s = execGangFollowerFault a0 s := rfl
@[simp] theorem exec_watchdogExpiry a0 s : exec (.watchdogExpiry a0) s = execWatchdogExpiry a0 s := rfl
@[simp] theorem exec_killSweep a0 s : exec (.killSweep a0) s = execKillSweep a0 s := rfl
@[simp] theorem exec_killConfirm a0 s : exec (.killConfirm a0) s = execKillConfirm a0 s := rfl
@[simp] theorem exec_killComplete a0 s : exec (.killComplete a0) s = execKillComplete a0 s := rfl
@[simp] theorem exec_dieFence a0 s : exec (.dieFence a0) s = execDieFence a0 s := rfl
@[simp] theorem exec_uncorrectableError a0 s : exec (.uncorrectableError a0) s = execUncorrectableError a0 s := rfl
@[simp] theorem exec_heartbeatLoss a0 s : exec (.heartbeatLoss a0) s = execHeartbeatLoss a0 s := rfl
@[simp] theorem exec_thermalTrip a0 s : exec (.thermalTrip a0) s = execThermalTrip a0 s := rfl
@[simp] theorem exec_serviceFailover a0 s : exec (.serviceFailover a0) s = execServiceFailover a0 s := rfl
@[simp] theorem exec_meterWindow a0 s : exec (.meterWindow a0) s = execMeterWindow a0 s := rfl
@[simp] theorem exec_egressBeat a0 s : exec (.egressBeat a0) s = execEgressBeat a0 s := rfl
@[simp] theorem exec_scrollAppend s : exec (.scrollAppend) s = execScrollAppend s := rfl
@[simp] theorem exec_stagingDrain s : exec (.stagingDrain) s = execStagingDrain s := rfl
@[simp] theorem exec_keyLoad a0 a1 s : exec (.keyLoad a0 a1) s = execKeyLoad a0 a1 s := rfl
@[simp] theorem exec_keyUpdate a0 a1 s : exec (.keyUpdate a0 a1) s = execKeyUpdate a0 a1 s := rfl
@[simp] theorem exec_hostErase a0 s : exec (.hostErase a0) s = execHostErase a0 s := rfl
@[simp] theorem exec_keyPublicCopy a0 s : exec (.keyPublicCopy a0) s = execKeyPublicCopy a0 s := rfl
@[simp] theorem exec_checkpointRequest s : exec (.checkpointRequest) s = execCheckpointRequest s := rfl
@[simp] theorem exec_attestation a0 a1 s : exec (.attestation a0 a1) s = execAttestation a0 a1 s := rfl
@[simp] theorem exec_archivedSeqWrite a0 s : exec (.archivedSeqWrite a0) s = execArchivedSeqWrite a0 s := rfl
@[simp] theorem exec_createContext a0 a1 a2 a3 a4 s : exec (.createContext a0 a1 a2 a3 a4) s = execCreateContext a0 a1 a2 a3 a4 s := rfl
@[simp] theorem exec_destroyContext a0 s : exec (.destroyContext a0) s = execDestroyContext a0 s := rfl
@[simp] theorem exec_createRoot a0 a1 a2 a3 a4 a5 s : exec (.createRoot a0 a1 a2 a3 a4 a5) s = execCreateRoot a0 a1 a2 a3 a4 a5 s := rfl
@[simp] theorem exec_mapRoot a0 a1 a2 a3 a4 s : exec (.mapRoot a0 a1 a2 a3 a4) s = execMapRoot a0 a1 a2 a3 a4 s := rfl
@[simp] theorem exec_unmapRoot a0 a1 s : exec (.unmapRoot a0 a1) s = execUnmapRoot a0 a1 s := rfl
@[simp] theorem exec_createJob a0 s : exec (.createJob a0) s = execCreateJob a0 s := rfl
@[simp] theorem exec_closeJob a0 a1 s : exec (.closeJob a0 a1) s = execCloseJob a0 a1 s := rfl
@[simp] theorem exec_bindPage a0 a1 a2 a3 a4 a5 s : exec (.bindPage a0 a1 a2 a3 a4 a5) s = execBindPage a0 a1 a2 a3 a4 a5 s := rfl
@[simp] theorem exec_writeTableEntry a0 a1 a2 a3 a4 a5 s : exec (.writeTableEntry a0 a1 a2 a3 a4 a5) s = execWriteTableEntry a0 a1 a2 a3 a4 a5 s := rfl
@[simp] theorem exec_writeHmask a0 a1 a2 s : exec (.writeHmask a0 a1 a2) s = execWriteHmask a0 a1 a2 s := rfl
@[simp] theorem exec_configHostSink a0 a1 a2 s : exec (.configHostSink a0 a1 a2) s = execConfigHostSink a0 a1 a2 s := rfl
@[simp] theorem exec_readLastReel a0 a1 s : exec (.readLastReel a0 a1) s = execReadLastReel a0 a1 s := rfl
@[simp] theorem exec_preempt a0 s : exec (.preempt a0) s = execPreempt a0 s := rfl
@[simp] theorem exec_hostKill a0 s : exec (.hostKill a0) s = execHostKill a0 s := rfl
@[simp] theorem exec_hostFence a0 s : exec (.hostFence a0) s = execHostFence a0 s := rfl
@[simp] theorem exec_warmReset s : exec (.warmReset) s = execWarmReset s := rfl
@[simp] theorem exec_warmResetRequest s : exec (.warmResetRequest) s = execWarmResetRequest s := rfl
@[simp] theorem exec_claimWrite a0 a1 a2 s : exec (.claimWrite a0 a1 a2) s = execClaimWrite a0 a1 a2 s := rfl
@[simp] theorem exec_callSubmit a0 a1 s : exec (.callSubmit a0 a1) s = execCallSubmit a0 a1 s := rfl
@[simp] theorem exec_debugAttach a0 a1 s : exec (.debugAttach a0 a1) s = execDebugAttach a0 a1 s := rfl
@[simp] theorem exec_debugRead a0 a1 a2 a3 s : exec (.debugRead a0 a1 a2 a3) s = execDebugRead a0 a1 a2 a3 s := rfl
@[simp] theorem exec_debugWrite a0 a1 a2 a3 a4 s : exec (.debugWrite a0 a1 a2 a3 a4) s = execDebugWrite a0 a1 a2 a3 a4 s := rfl
@[simp] theorem exec_debugResume a0 a1 s : exec (.debugResume a0 a1) s = execDebugResume a0 a1 s := rfl
@[simp] theorem exec_debugDetach a0 s : exec (.debugDetach a0) s = execDebugDetach a0 s := rfl
@[simp] theorem exec_submitLaunch a0 a1 a2 s : exec (.submitLaunch a0 a1 a2) s = execSubmitLaunch a0 a1 a2 s := rfl
@[simp] theorem exec_submitMessage a0 a1 a2 s : exec (.submitMessage a0 a1 a2) s = execSubmitMessage a0 a1 a2 s := rfl
@[simp] theorem exec_inboundAccess a0 a1 a2 a3 a4 a5 s : exec (.inboundAccess a0 a1 a2 a3 a4 a5) s = execInboundAccess a0 a1 a2 a3 a4 a5 s := rfl
@[simp] theorem exec_cxlMemRequest a0 a1 a2 a3 a4 s : exec (.cxlMemRequest a0 a1 a2 a3 a4) s = execCxlMemRequest a0 a1 a2 a3 a4 s := rfl
@[simp] theorem exec_functionLevelReset a0 s : exec (.functionLevelReset a0) s = execFunctionLevelReset a0 s := rfl
@[simp] theorem exec_outboundReadTimeout a0 s : exec (.outboundReadTimeout a0) s = execOutboundReadTimeout a0 s := rfl
@[simp] theorem exec_scallinkFrame a0 a1 a2 a3 a4 a5 a6 a7 a8 a9 s : exec (.scallinkFrame a0 a1 a2 a3 a4 a5 a6 a7 a8 a9) s = execScallinkFrame a0 a1 a2 a3 a4 a5 a6 a7 a8 a9 s := rfl
@[simp] theorem exec_scallinkRetransmit a0 s : exec (.scallinkRetransmit a0) s = execScallinkRetransmit a0 s := rfl
@[simp] theorem exec_linkState a0 a1 s : exec (.linkState a0 a1) s = execLinkState a0 a1 s := rfl
@[simp] theorem exec_powerOnReset s : exec (.powerOnReset) s = execPowerOnReset s := rfl
@[simp] theorem exec_bootRelease a0 s : exec (.bootRelease a0) s = execBootRelease a0 s := rfl
@[simp] theorem exec_bootReady s : exec (.bootReady) s = execBootReady s := rfl
@[simp] theorem exec_recoveryOffsetWrite a0 s : exec (.recoveryOffsetWrite a0) s = execRecoveryOffsetWrite a0 s := rfl
@[simp] theorem exec_recoveryDataWrite a0 s : exec (.recoveryDataWrite a0) s = execRecoveryDataWrite a0 s := rfl
@[simp] theorem exec_timeControlWrite a0 s : exec (.timeControlWrite a0) s = execTimeControlWrite a0 s := rfl
@[simp] theorem exec_schedWordWrite a0 a1 s : exec (.schedWordWrite a0 a1) s = execSchedWordWrite a0 a1 s := rfl
@[simp] theorem exec_classCostWrite a0 a1 a2 s : exec (.classCostWrite a0 a1 a2) s = execClassCostWrite a0 a1 a2 s := rfl
@[simp] theorem exec_lateConsumedWrite a0 a1 s : exec (.lateConsumedWrite a0 a1) s = execLateConsumedWrite a0 a1 s := rfl
@[simp] theorem exec_selfTestIntervalWrite a0 s : exec (.selfTestIntervalWrite a0) s = execSelfTestIntervalWrite a0 s := rfl
@[simp] theorem exec_registerWrite a0 a1 a2 s : exec (.registerWrite a0 a1 a2) s = execRegisterWrite a0 a1 a2 s := rfl
@[simp] theorem exec_eccCorrectedError a0 s : exec (.eccCorrectedError a0) s = execEccCorrectedError a0 s := rfl
@[simp] theorem exec_msixTableWrite a0 a1 a2 s : exec (.msixTableWrite a0 a1 a2) s = execMsixTableWrite a0 a1 a2 s := rfl
@[simp] theorem exec_callRingConsume a0 a1 s : exec (.callRingConsume a0 a1) s = execCallRingConsume a0 a1 s := rfl
@[simp] theorem exec_windowChange a0 s : exec (.windowChange a0) s = execWindowChange a0 s := rfl
@[simp] theorem exec_takesEffectOnDie a0 s : exec (.takesEffectOnDie a0) s = execTakesEffectOnDie a0 s := rfl

end Sys2Proof.Machine
end

