-- ==== Sys2Proof/Laws/Crypto.lean ====
section
/-!
SUPPORT. How long the byte strings of the standards are: hashes, signatures' parts, GCM tags; and the lengths of polynomials.
-/
namespace Sys2Proof.Machine

@[simp] theorem leBytes_length (n w : Nat) : (leBytes n w).length = n := by
  induction n generalizing w with
  | zero => rfl
  | succ n ih => simp [leBytes, ih]

@[simp] theorem natBytes_length (n w : Nat) : (natBytes n w).length = n := by
  induction n generalizing w with
  | zero => rfl
  | succ n ih => simp [natBytes, ih]

@[simp] theorem beBytes_length (n w : Nat) : (beBytes n w).length = n := by simp [beBytes]
@[simp] theorem natsOf_length (bs : List Byte) : (natsOf bs).length = bs.length := by simp [natsOf]
@[simp] theorem bytesOf_length (ns : List Nat) : (bytesOf ns).length = ns.length := by simp [bytesOf]

/-! ### Sponges -/

theorem keccakRound_length (rc : BitVec 64) (a : List (BitVec 64)) : (keccakRound rc a).length = 25 := by
  simp [keccakRound]

theorem keccakRc_ne_nil : keccakRc ≠ [] := by simp [keccakRc]

/-- A permutation leaves 25 lanes, whatever it is given. -/
@[simp] theorem keccak_length (a : List (BitVec 64)) : (keccak a).length = 25 := by
  have all : ∀ (l s : List (BitVec 64)), l ≠ [] → (l.foldl (fun s rc => keccakRound rc s) s).length = 25 := by
    intro l
    induction l with
    | nil => intro s h; exact absurd rfl h
    | cons rc l ih =>
      intro s _
      cases l with
      | nil => exact keccakRound_length rc s
      | cons x l => rw [List.foldl_cons]; exact ih (keccakRound rc s) (List.cons_ne_nil x l)
  unfold keccak
  exact all keccakRc a keccakRc_ne_nil

theorem absorb_length (rate : Nat) (bs : List (List Byte)) {s : List (BitVec 64)} (h : s.length = 25) :
    (absorb rate bs s).length = 25 := by
  induction bs generalizing s with
  | nil => exact h
  | cons b bs ih => exact ih (keccak_length _)

theorem squeeze_length {rate : Nat} (hr : rate ≤ 200) (k : Nat) {s : List (BitVec 64)} (h : s.length = 25) :
    (squeeze rate k s).length = rate * k := by
  induction k generalizing s with
  | zero => rfl
  | succ k ih =>
    have hb : ((s.flatMap fun v => leBytes 8 v.toNat).take rate).length = rate := by
      simp [List.length_flatMap, h, List.map_const', hr]
    rw [squeeze, List.length_append, hb]
    by_cases hk : k = 0
    · simp [hk]
    · rw [if_neg (by simpa using hk), ih (keccak_length s), Nat.mul_succ, Nat.add_comm]

theorem sponge_length {rate : Nat} (hr : rate ≤ 200) (dom : Byte) (bs : List Byte) (k : Nat) :
    (sponge rate dom bs k).length = rate * k :=
  squeeze_length hr k (absorb_length rate _ (by simp))

@[simp] theorem sha3_length (bs : List Byte) : (sha3 bs).length = 32 := by
  simp [sha3, sponge_length (by decide : 136 ≤ 200)]

@[simp] theorem shake_length (bs : List Byte) (n : Nat) : (shake bs n).length = n := by
  simp only [shake, List.length_take, sponge_length (by decide : 136 ≤ 200)]
  omega

/-! ### AES and GCM -/

theorem chunks_length {α : Type} (n k : Nat) (xs : List α) : (chunks n k xs).length = k := by
  induction k generalizing xs with
  | zero => rfl
  | succ k ih => simp [chunks, ih]

/-- Every chunk has its size where the list is long enough. -/
theorem chunks_size {α : Type} {n k : Nat} {xs : List α} (h : n * k ≤ xs.length) : ∀ c ∈ chunks n k xs, c.length = n := by
  induction k generalizing xs with
  | zero => intro c hc; cases hc
  | succ k ih =>
    intro c hc
    rw [Nat.mul_succ] at h
    rcases List.mem_cons.1 hc with rfl | hc
    · rw [List.length_take]; omega
    · exact ih (by rw [List.length_drop]; omega) c hc

theorem nextKeyWord_length {i rcon : Nat} {ws : List (List Nat)} (h : ∀ w ∈ ws, w.length = 4) (hn : 8 ≤ ws.length) :
    (nextKeyWord i rcon ws).length = 4 := by
  have get (j : Nat) (hj : j < 8) : (ws.getD j []).length = 4 := by
    rw [List.getD_eq_getElem?_getD, List.getElem?_eq_getElem (by omega)]
    exact h _ (List.getElem_mem _)
  have h0 := get 0 (by decide)
  have h7 := get 7 (by decide)
  unfold nextKeyWord xorBytes
  rw [List.length_zipWith, h7]
  by_cases h1 : (i % 8 == 0) = true
  · rw [if_pos h1, List.length_zipWith, List.length_map, List.length_append, List.length_drop, List.length_take, h0]; rfl
  · rw [if_neg h1]
    by_cases h2 : (i % 8 == 4) = true
    · rw [if_pos h2, List.length_map, h0]; rfl
    · rw [if_neg h2, h0]; rfl

theorem keyWords_length (k i rcon : Nat) {ws : List (List Nat)} (h : ∀ w ∈ ws, w.length = 4) (hn : 8 ≤ ws.length) :
    (∀ w ∈ keyWords k i rcon ws, w.length = 4) ∧ (keyWords k i rcon ws).length = ws.length + k := by
  induction k generalizing i rcon ws with
  | zero => exact ⟨h, rfl⟩
  | succ k ih =>
    have := ih (i + 1) (if i % 8 == 0 then xtime rcon else rcon) (ws := nextKeyWord i rcon ws :: ws)
      (fun w hw => by
        rcases List.mem_cons.1 hw with rfl | hw
        · exact nextKeyWord_length h hn
        · exact h w hw)
      (by rw [List.length_cons]; omega)
    exact ⟨this.1, by rw [keyWords, this.2, List.length_cons]; omega⟩

theorem flatten_length {n : Nat} {ws : List (List Nat)} (h : ∀ w ∈ ws, w.length = n) : ws.flatten.length = n * ws.length := by
  induction ws with
  | nil => rfl
  | cons w ws ih =>
    rw [List.flatten_cons, List.length_append, h w List.mem_cons_self, ih fun w hw => h w (List.mem_cons_of_mem _ hw),
      List.length_cons, Nat.mul_succ, Nat.add_comm]

/-- A 32-byte key has round keys of 16 bytes. -/
theorem roundKeys_size {key : List Nat} (h : key.length = 32) : ∀ k ∈ roundKeys key, k.length = 16 := by
  have hw : ∀ w ∈ (chunks 4 8 key).reverse, w.length = 4 := fun w hw => chunks_size (by omega) w (List.mem_reverse.1 hw)
  have hl : (chunks 4 8 key).reverse.length = 8 := by rw [List.length_reverse, chunks_length]
  have := keyWords_length 52 8 1 hw (by omega)
  refine chunks_size ?_
  rw [flatten_length fun w hw => this.1 w (List.mem_reverse.1 hw), List.length_reverse, this.2, hl]
  first | done | decide

theorem aesRounds_length {ks : List (List Nat)} {s : List Nat} (hk : ks ≠ []) (h : ∀ k ∈ ks, k.length = 16) :
    (aesRounds ks s).length = 16 := by
  induction ks generalizing s with
  | nil => exact absurd rfl hk
  | cons k ks ih =>
    cases ks with
    | nil => simp [aesRounds, xorBytes, shiftRows, h k List.mem_cons_self]
    | cons x ks =>
      rw [aesRounds]
      · exact ih (List.cons_ne_nil x ks) fun k hk => h k (List.mem_cons_of_mem _ hk)
      · exact fun h => List.cons_ne_nil x ks h

/-- A tag has 16 bytes. -/
theorem gcmTag_length {key nonce aad cipher : List Byte} (h : key.length = 32) :
    (gcmTag key nonce aad cipher).length = 16 := by
  have hs := roundKeys_size (key := natsOf key) (by simpa using h)
  have hn : (roundKeys (natsOf key)).length = 15 := chunks_length 16 15 _
  have block (s : List Nat) : (aesBlock (roundKeys (natsOf key)) s).length = 16 := by
    unfold aesBlock
    generalize roundKeys (natsOf key) = ks at hs hn
    match ks, hn with
    | k :: x :: ks, _ => exact aesRounds_length (List.cons_ne_nil x ks) fun k hk => hs k (List.mem_cons_of_mem _ hk)
  simp [gcmTag, xorBytes, block]

/-- What a tag was made for opens with it, and with no other tag. -/
theorem gcmOpen_isSome (key nonce aad cipher tag : List Byte) :
    (gcmOpen key nonce aad cipher tag).isSome = (gcmTag key nonce aad cipher == tag) := by
  unfold gcmOpen
  cases h : gcmTag key nonce aad cipher == tag <;> simp

/-! ### Polynomials -/

/-- The transform keeps the number of coefficients. -/
theorem nttAt_length (q root bits k i m : Nat) {f : Poly} (h : f.length = 2 ^ k * m) :
    (nttAt q root bits k i f).length = f.length := by
  induction k generalizing i f with
  | zero => rfl
  | succ k ih =>
    have hh : f.length = 2 ^ k * m + 2 ^ k * m := by rw [h, Nat.pow_succ, Nat.mul_right_comm]; omega
    have hd : f.length / 2 = 2 ^ k * m := by omega
    have h1 (t : Poly) (ht : t.length = 2 ^ k * m) : (addPoly q (f.take (f.length / 2)) t).length = 2 ^ k * m := by
      rw [addPoly, List.length_zipWith, List.length_take, ht]; omega
    have h2 (t : Poly) (ht : t.length = 2 ^ k * m) : (subPoly q (f.take (f.length / 2)) t).length = 2 ^ k * m := by
      rw [subPoly, List.length_zipWith, List.length_take, ht]; omega
    have hs (c : Nat) : (scalePoly q c (f.drop (f.length / 2))).length = 2 ^ k * m := by
      rw [scalePoly, List.length_map, List.length_drop]; omega
    simp only [nttAt, List.length_append, ih (2 * i) (h1 _ (hs _)), ih (2 * i + 1) (h2 _ (hs _)), h1 _ (hs _), h2 _ (hs _)]
    omega

theorem ballStep_length (q signs i : Nat) (js : List Nat) (c : Poly) : (ballStep q signs i js c).2.length = c.length := by
  induction js with
  | nil => rfl
  | cons j js ih =>
    unfold ballStep
    split
    · simp
    · exact ih

@[simp] theorem sampleInBall_length (seed : List Byte) : (sampleInBall seed).length = 256 := by
  have (g : Nat → Nat × Nat × Nat) : ∀ (l : List Nat) (x : List Nat × Poly), x.2.length = 256 →
      (l.foldl (fun x k => ballStep (g k).1 (g k).2.1 (g k).2.2 x.1 x.2) x).2.length = 256 := by
    intro l
    induction l with
    | nil => intro x h; exact h
    | cons k l ih => intro x h; exact ih _ (by rw [ballStep_length, h])
  exact this (fun k => (dsaQ, bytesNat ((natsOf (shake seed 271)).take 8), 217 + k)) _ _ List.length_replicate

end Sys2Proof.Machine
end

