-- ==== Sys2Proof/Laws/Memory.lean ====
section
/-!
SUPPORT. Memory: a read after a write, and the canonical form that every memory operation keeps.
-/
namespace Sys2Proof.Machine

theorem Memory.above_mono {m : Memory} {a b : Nat} (h : Memory.above b m = true) (hab : a ≤ b) :
    Memory.above a m = true := by
  cases m with
  | nil => rfl
  | cons c rest =>
    simp only [Memory.above, Bool.and_eq_true, decide_eq_true_eq] at h ⊢
    exact ⟨⟨by omega, h.1.2⟩, h.2⟩

theorem Memory.wf_of_above {m : Memory} {lo : Nat} (h : Memory.above lo m = true) : Memory.wf m = true := by
  cases m with
  | nil => rfl
  | cons c rest =>
    simp only [Memory.above, Bool.and_eq_true, decide_eq_true_eq] at h
    simp only [Memory.wf, Bool.and_eq_true, decide_eq_true_eq]
    exact ⟨h.1.2, h.2⟩

theorem Memory.above_cons {m : Memory} {lo a : Nat} {b : Byte} (ha : lo < a) (h : Memory.above a m = true) :
    Memory.above lo (Memory.cons a b m) = true := by
  unfold Memory.cons
  split
  · exact Memory.above_mono h (by omega)
  · simp only [Memory.above, Bool.and_eq_true, decide_eq_true_eq]
    exact ⟨⟨ha, by assumption⟩, h⟩

theorem Memory.above_write {m : Memory} {lo a : Nat} (b : Byte) (ha : lo < a) (h : Memory.above lo m = true) :
    Memory.above lo (m.write a b) = true := by
  induction m generalizing lo with
  | nil => exact Memory.above_cons ha rfl
  | cons c rest ih =>
    obtain ⟨j, x⟩ := c
    simp only [Memory.above, Bool.and_eq_true, decide_eq_true_eq] at h
    simp only [Memory.write]
    split
    · apply Memory.above_cons ha
      simp only [Memory.above, Bool.and_eq_true, decide_eq_true_eq]
      exact ⟨⟨by assumption, h.1.2⟩, h.2⟩
    · split
      · rename_i h2; subst h2; exact Memory.above_cons ha h.2
      · simp only [Memory.above, Bool.and_eq_true, decide_eq_true_eq]
        exact ⟨h.1, ih (by omega) h.2⟩

/-- Writing a byte keeps the canonical form. -/
theorem Memory.wf_write {m : Memory} (a : Nat) (b : Byte) (h : Memory.wf m = true) : Memory.wf (m.write a b) = true := by
  cases m with
  | nil => unfold Memory.write Memory.cons; split <;> simp_all [Memory.wf, Memory.above]
  | cons c rest =>
    obtain ⟨j, x⟩ := c
    have hw := h
    simp only [Memory.wf, Bool.and_eq_true, decide_eq_true_eq] at h
    simp only [Memory.write]
    split
    · unfold Memory.cons
      split
      · exact hw
      · simp only [Memory.wf, Memory.above, Bool.and_eq_true, decide_eq_true_eq]
        exact ⟨by assumption, ⟨by assumption, h.1⟩, h.2⟩
    · split
      · rename_i h2; subst h2
        unfold Memory.cons
        split
        · exact Memory.wf_of_above h.2
        · simp only [Memory.wf, Bool.and_eq_true, decide_eq_true_eq]
          exact ⟨by assumption, h.2⟩
      · simp only [Memory.wf, Bool.and_eq_true, decide_eq_true_eq]
        exact ⟨h.1, Memory.above_write b (by omega) h.2⟩

@[simp] theorem Memory.wf_writeBytes (bs : List Byte) (m : Memory) (a : Nat) (h : Memory.wf m = true) :
    Memory.wf (m.writeBytes bs a) = true := by
  induction bs generalizing m a with
  | nil => exact h
  | cons b bs ih => exact ih _ _ (Memory.wf_write a b h)

@[simp] theorem Memory.wf_writeNat (n : Nat) (m : Memory) (a v : Nat) (h : Memory.wf m = true) :
    Memory.wf (m.writeNat n a v) = true := by
  induction n generalizing m a v with
  | zero => exact h
  | succ n ih => exact ih _ _ _ (Memory.wf_write a _ h)

@[simp] theorem Memory.wf_writeWord (m : Memory) (a : Nat) (v : Word) (h : Memory.wf m = true) :
    Memory.wf (m.writeWord a v) = true := Memory.wf_writeNat 8 m a _ h

theorem Memory.above_zero {m : Memory} {lo hi b : Nat} (h : Memory.above b m = true) :
    Memory.above b (Memory.zero lo hi m) = true := by
  induction m generalizing b with
  | nil => rfl
  | cons c rest ih =>
    simp only [Memory.above, Bool.and_eq_true, decide_eq_true_eq] at h
    simp only [Memory.zero]
    split
    · exact Memory.above_mono (ih h.2) (by omega)
    · simp only [Memory.above, Bool.and_eq_true, decide_eq_true_eq]
      exact ⟨h.1, ih h.2⟩

/-- Zeroing a range keeps the canonical form. -/
@[simp] theorem Memory.wf_zero (m : Memory) (lo hi : Nat) (h : Memory.wf m = true) :
    Memory.wf (Memory.zero lo hi m) = true := by
  cases m with
  | nil => rfl
  | cons c rest =>
    simp only [Memory.wf, Bool.and_eq_true, decide_eq_true_eq] at h
    simp only [Memory.zero]
    split
    · exact Memory.wf_of_above (Memory.above_zero h.2)
    · simp only [Memory.wf, Bool.and_eq_true, decide_eq_true_eq]
      exact ⟨h.1, Memory.above_zero h.2⟩

theorem Memory.above_keep {m : Memory} {p : Nat → Bool} {b : Nat} (h : Memory.above b m = true) :
    Memory.above b (Memory.keep p m) = true := by
  induction m generalizing b with
  | nil => rfl
  | cons c rest ih =>
    simp only [Memory.above, Bool.and_eq_true, decide_eq_true_eq] at h
    simp only [Memory.keep]
    split
    · simp only [Memory.above, Bool.and_eq_true, decide_eq_true_eq]
      exact ⟨h.1, ih h.2⟩
    · exact Memory.above_mono (ih h.2) (by omega)

/-- Keeping the bytes of some addresses keeps the canonical form. -/
@[simp] theorem Memory.wf_keep (m : Memory) (p : Nat → Bool) (h : Memory.wf m = true) :
    Memory.wf (Memory.keep p m) = true := by
  cases m with
  | nil => rfl
  | cons c rest =>
    simp only [Memory.wf, Bool.and_eq_true, decide_eq_true_eq] at h
    simp only [Memory.keep]
    split
    · simp only [Memory.wf, Bool.and_eq_true, decide_eq_true_eq]
      exact ⟨h.1, Memory.above_keep h.2⟩
    · exact Memory.wf_of_above (Memory.above_keep h.2)

/-! ### Reading after writing -/

theorem Memory.read_above {m : Memory} {lo a : Nat} (h : Memory.above lo m = true) (ha : a ≤ lo) :
    m.read a = Memory.blank := by
  cases m with
  | nil => rfl
  | cons c rest =>
    simp only [Memory.above, Bool.and_eq_true, decide_eq_true_eq] at h
    rw [Memory.read, if_neg (by omega), if_pos (by omega)]

theorem Memory.read_cons {m : Memory} {a : Nat} (b : Byte) (h : Memory.above a m = true) (x : Nat) :
    (Memory.cons a b m).read x = if x = a then b else m.read x := by
  unfold Memory.cons
  split
  · rename_i hb
    split
    · rename_i hx; rw [hb, hx]; exact Memory.read_above h (by omega)
    · rfl
  · rw [Memory.read]
    by_cases hx : x = a
    · rw [if_pos hx.symm, if_pos hx]
    · rw [if_neg (fun e => hx e.symm), if_neg hx]
      split
      · exact (Memory.read_above h (by omega)).symm
      · rfl

/-- A read after a write: the value at the address written, the old byte elsewhere. -/
theorem Memory.read_write {m : Memory} (h : Memory.wf m = true) (a : Nat) (b : Byte) (x : Nat) :
    (m.write a b).read x = if x = a then b else m.read x := by
  have main : ∀ (m : Memory) (lo : Nat), Memory.above lo m = true →
      (m.write a b).read x = if x = a then b else m.read x := by
    intro m
    induction m with
    | nil => intro lo _; exact Memory.read_cons b rfl x
    | cons c rest ih =>
      obtain ⟨j, y⟩ := c
      intro lo h
      simp only [Memory.above, Bool.and_eq_true, decide_eq_true_eq] at h
      simp only [Memory.write]
      split
      · refine Memory.read_cons b ?_ x
        simp only [Memory.above, Bool.and_eq_true, decide_eq_true_eq]
        exact ⟨⟨by assumption, h.1.2⟩, h.2⟩
      · split
        · rename_i h1 h2; subst h2
          rw [Memory.read_cons b h.2 x]
          split
          · rfl
          · rename_i hx
            rw [Memory.read, if_neg (fun e => hx e.symm)]
            split
            · exact Memory.read_above h.2 (by omega)
            · rfl
        · simp only [Memory.read]
          rw [ih j h.2]
          split
          · split
            · omega
            · rfl
          · split
            · split
              · omega
              · rfl
            · rfl
  cases m with
  | nil => exact main [] 0 rfl
  | cons c rest =>
    obtain ⟨j, y⟩ := c
    simp only [Memory.wf, Bool.and_eq_true, decide_eq_true_eq] at h
    cases j with
    | succ j =>
      refine main _ j ?_
      simp only [Memory.above, Bool.and_eq_true, decide_eq_true_eq]
      exact ⟨⟨by omega, h.1⟩, h.2⟩
    | zero =>
      simp only [Memory.write]
      rw [if_neg (by omega)]
      split
      · rename_i h2; subst h2
        rw [Memory.read_cons b h.2 x]
        split
        · rfl
        · rename_i hx
          rw [Memory.read, if_neg (fun e => hx e.symm), if_neg (by omega)]
      · simp only [Memory.read]
        rw [main rest 0 h.2]
        split
        · split
          · omega
          · rfl
        · rfl

/-- Bytes outside a written range read as before. -/
theorem Memory.read_writeNat_other (n : Nat) {m : Memory} (h : Memory.wf m = true) (a v x : Nat)
    (hx : x < a ∨ a + n ≤ x) : (m.writeNat n a v).read x = m.read x := by
  induction n generalizing m a v with
  | zero => rfl
  | succ n ih =>
    rw [Memory.writeNat, ih (Memory.wf_write a _ h) _ _ (by omega), Memory.read_write h, if_neg (by omega)]

theorem Memory.read_writeBytes_other (bs : List Byte) {m : Memory} (h : Memory.wf m = true) (a x : Nat)
    (hx : x < a ∨ a + bs.length ≤ x) : (m.writeBytes bs a).read x = m.read x := by
  induction bs generalizing m a with
  | nil => rfl
  | cons b bs ih =>
    simp only [List.length_cons] at hx
    rw [Memory.writeBytes, ih (Memory.wf_write a b h) _ (by omega), Memory.read_write h, if_neg (by omega)]

theorem Memory.readNat_congr {m m' : Memory} (n a : Nat) (h : ∀ x, a ≤ x → x < a + n → m'.read x = m.read x) :
    m'.readNat n a = m.readNat n a := by
  induction n generalizing a with
  | zero => rfl
  | succ n ih =>
    simp only [Memory.readNat]
    rw [h a (by omega) (by omega), ih (a + 1) fun x h1 h2 => h x (by omega) (by omega)]

/-- A number read back from where it was written, cut to its bytes. -/
theorem Memory.readNat_writeNat (n : Nat) {m : Memory} (h : Memory.wf m = true) (a v : Nat) :
    (m.writeNat n a v).readNat n a = v % 256 ^ n := by
  induction n generalizing m a v with
  | zero => simp [Memory.readNat, Nat.mod_one]
  | succ n ih =>
    have hw := Memory.wf_write a (BitVec.ofNat 8 v) h
    rw [Memory.readNat, Memory.writeNat, ih hw, Memory.read_writeNat_other n hw _ _ _ (by omega),
      Memory.read_write h, if_pos rfl, Nat.pow_succ, Nat.mul_comm (256 ^ n), Nat.mod_mul]
    simp [BitVec.toNat_ofNat]

end Sys2Proof.Machine
end

