-- ==== Sys2Proof/Laws/Tables.lean ====
section
/-!
SUPPORT. Tables: reading after writing, and the canonical form that every table operation keeps.
-/
namespace Sys2Proof.Machine

section
variable {α : Type}

@[simp] theorem nget_nset_same (d : α) (m : NMap α) (k : Nat) (v : α) : nget d (nset m k v) k = v := by
  induction m with
  | nil => simp [nset, nget]
  | cons c rest ih =>
    simp only [nset]
    split
    · simp [nget]
    · split
      · simp [nget]
      · rw [nget, if_neg (by omega)]; exact ih

theorem nget_nset_other (d : α) (m : NMap α) {k j : Nat} (v : α) (h : j ≠ k) : nget d (nset m k v) j = nget d m j := by
  induction m with
  | nil => simp [nset, nget, h.symm]
  | cons c rest ih =>
    simp only [nset]
    split
    · rw [nget, if_neg h.symm]
    · split
      · rename_i h2; subst h2; simp [nget, h.symm]
      · simp only [nget]; rw [ih]

@[simp] theorem nget_nset (d : α) (m : NMap α) (k j : Nat) (v : α) :
    nget d (nset m k v) j = if j = k then v else nget d m j := by
  split
  · subst j; simp
  · rename_i h; exact nget_nset_other d m v h

theorem nset_nset (m : NMap α) (k : Nat) (u v : α) : nset (nset m k u) k v = nset m k v := by
  induction m with
  | nil => simp [nset]
  | cons c rest ih =>
    simp only [nset]
    split
    · simp [nset]
    · split
      · simp [nset]
      · simp only [nset]; rw [if_neg (by omega), if_neg (by omega), ih]

theorem NMap.above_mono {m : NMap α} {a b : Nat} (h : NMap.above b m = true) (hab : a ≤ b) : NMap.above a m = true := by
  cases m with
  | nil => rfl
  | cons c rest =>
    simp only [NMap.above, Bool.and_eq_true, decide_eq_true_eq] at h ⊢
    exact ⟨by omega, h.2⟩

theorem NMap.above_nset {m : NMap α} {lo k : Nat} (v : α) (hk : lo < k) (h : NMap.above lo m = true) :
    NMap.above lo (nset m k v) = true := by
  induction m generalizing lo with
  | nil => simp [nset, NMap.above, hk]
  | cons c rest ih =>
    simp only [NMap.above, Bool.and_eq_true, decide_eq_true_eq] at h
    simp only [nset]
    split
    · rename_i h2
      simp [NMap.above, hk, h2, h.2]
    · split
      · rename_i h2; subst h2
        simp [NMap.above, h.1, h.2]
      · simp only [NMap.above, Bool.and_eq_true, decide_eq_true_eq]
        exact ⟨h.1, ih (by omega) h.2⟩

theorem NMap.wf_of_above {m : NMap α} {lo : Nat} (h : NMap.above lo m = true) : NMap.wf m = true := by
  cases m with
  | nil => rfl
  | cons c rest =>
    simp only [NMap.above, Bool.and_eq_true] at h
    exact h.2

/-- Writing an entry keeps the keys strictly rising. -/
theorem NMap.wf_nset {m : NMap α} (k : Nat) (v : α) (h : NMap.wf m = true) : NMap.wf (nset m k v) = true := by
  cases m with
  | nil => simp [nset, NMap.wf, NMap.above]
  | cons c rest =>
    simp only [NMap.wf] at h
    simp only [nset]
    split
    · rename_i h2
      simp [NMap.wf, NMap.above, h2, h]
    · split
      · rename_i h2; subst h2; simpa [NMap.wf] using h
      · simp only [NMap.wf]; exact NMap.above_nset v (by omega) h

theorem NMap.above_ndel {m : NMap α} {lo k : Nat} (h : NMap.above lo m = true) : NMap.above lo (ndel m k) = true := by
  induction m generalizing lo with
  | nil => rfl
  | cons c rest ih =>
    simp only [NMap.above, Bool.and_eq_true, decide_eq_true_eq] at h
    simp only [ndel]
    split
    · exact NMap.above_mono h.2 (by omega)
    · simp only [NMap.above, Bool.and_eq_true, decide_eq_true_eq]
      exact ⟨h.1, ih h.2⟩

/-- Removing an entry keeps the keys strictly rising. -/
theorem NMap.wf_ndel {m : NMap α} (k : Nat) (h : NMap.wf m = true) : NMap.wf (ndel m k) = true := by
  cases m with
  | nil => rfl
  | cons c rest =>
    simp only [NMap.wf] at h
    simp only [ndel]
    split
    · exact NMap.wf_of_above h
    · simp only [NMap.wf]; exact NMap.above_ndel h

theorem nget_ndel_other (d : α) (m : NMap α) {k j : Nat} (h : j ≠ k) : nget d (ndel m k) j = nget d m j := by
  induction m with
  | nil => rfl
  | cons c rest ih =>
    simp only [ndel]
    split
    · rename_i h2; subst h2; simp [nget, h.symm]
    · simp only [nget]; rw [ih]

theorem NMap.above_nmap {β : Type} (f : Nat → α → β) {m : NMap α} {lo : Nat} (h : NMap.above lo m = true) :
    NMap.above lo (nmap f m) = true := by
  induction m generalizing lo with
  | nil => rfl
  | cons c rest ih =>
    simp only [NMap.above, nmap, Bool.and_eq_true] at h ⊢
    exact ⟨h.1, ih h.2⟩

/-- Replacing every value keeps the keys. -/
theorem NMap.wf_nmap {β : Type} (f : Nat → α → β) {m : NMap α} (h : NMap.wf m = true) : NMap.wf (nmap f m) = true := by
  cases m with
  | nil => rfl
  | cons c rest => exact NMap.above_nmap f h

theorem NMap.above_nkeep (p : Nat → α → Bool) {m : NMap α} {lo : Nat} (h : NMap.above lo m = true) :
    NMap.above lo (nkeep p m) = true := by
  induction m generalizing lo with
  | nil => rfl
  | cons c rest ih =>
    simp only [NMap.above, Bool.and_eq_true, decide_eq_true_eq] at h
    simp only [nkeep]
    split
    · simp only [NMap.above, Bool.and_eq_true, decide_eq_true_eq]
      exact ⟨h.1, ih h.2⟩
    · exact NMap.above_mono (ih h.2) (by omega)

/-- Keeping some entries keeps the keys strictly rising. -/
theorem NMap.wf_nkeep (p : Nat → α → Bool) {m : NMap α} (h : NMap.wf m = true) : NMap.wf (nkeep p m) = true := by
  cases m with
  | nil => rfl
  | cons c rest =>
    simp only [NMap.wf] at h
    simp only [nkeep]
    split
    · simp only [NMap.wf]; exact NMap.above_nkeep p h
    · exact NMap.wf_of_above (NMap.above_nkeep p h)

/-- What `takeFirst` finds satisfies the predicate. -/
theorem takeFirst_sat {p : α → Bool} {l : List α} {x : α} {r : List α} (h : takeFirst p l = some (x, r)) : p x = true := by
  induction l generalizing r with
  | nil => simp [takeFirst] at h
  | cons y ys ih =>
    simp only [takeFirst] at h
    split at h
    · simp only [Option.some.injEq, Prod.mk.injEq] at h
      rw [← h.1]; assumption
    · split at h
      · simp at h
      · rename_i heq
        simp only [Option.some.injEq, Prod.mk.injEq] at h
        exact ih (heq.trans (by rw [h.1]))

end

end Sys2Proof.Machine
end

