-- ==== Sys2Proof/Laws/State.lean ====
section
/-!
SUPPORT. What the named updates of the state leave alone, one field at a time, and what they write.
-/
namespace Sys2Proof.Machine

@[simp] theorem State.setThr_mem (s : State) (ep : Nat) (t : Thread) : (s.setThr ep t).mem = s.mem := rfl
@[simp] theorem State.setThr_now (s : State) (ep : Nat) (t : Thread) : (s.setThr ep t).now = s.now := rfl
@[simp] theorem State.setThr_ctimeOff (s : State) (ep : Nat) (t : Thread) : (s.setThr ep t).ctimeOff = s.ctimeOff := rfl
@[simp] theorem State.setThr_agenda (s : State) (ep : Nat) (t : Thread) : (s.setThr ep t).agenda = s.agenda := rfl
@[simp] theorem State.setThr_turn (s : State) (ep : Nat) (t : Thread) : (s.setThr ep t).turn = s.turn := rfl
@[simp] theorem State.setThr_cur (s : State) (ep : Nat) (t : Thread) : (s.setThr ep t).cur = s.cur := rfl
@[simp] theorem State.setThr_free (s : State) (ep : Nat) (t : Thread) : (s.setThr ep t).free = s.free := rfl
@[simp] theorem State.setThr_uids (s : State) (ep : Nat) (t : Thread) : (s.setThr ep t).uids = s.uids := rfl
@[simp] theorem State.setThr_ids (s : State) (ep : Nat) (t : Thread) : (s.setThr ep t).ids = s.ids := rfl
@[simp] theorem State.setThr_parts (s : State) (ep : Nat) (t : Thread) : (s.setThr ep t).parts = s.parts := rfl
@[simp] theorem State.setThr_cores (s : State) (ep : Nat) (t : Thread) : (s.setThr ep t).cores = s.cores := rfl
@[simp] theorem State.setThr_msgs (s : State) (ep : Nat) (t : Thread) : (s.setThr ep t).msgs = s.msgs := rfl
@[simp] theorem State.setThr_launches (s : State) (ep : Nat) (t : Thread) : (s.setThr ep t).launches = s.launches := rfl
@[simp] theorem State.setThr_levels (s : State) (ep : Nat) (t : Thread) : (s.setThr ep t).levels = s.levels := rfl
@[simp] theorem State.setThr_frees (s : State) (ep : Nat) (t : Thread) : (s.setThr ep t).frees = s.frees := rfl
@[simp] theorem State.setThr_adm (s : State) (ep : Nat) (t : Thread) : (s.setThr ep t).adm = s.adm := rfl
@[simp] theorem State.setThr_admSeq (s : State) (ep : Nat) (t : Thread) : (s.setThr ep t).admSeq = s.admSeq := rfl
@[simp] theorem State.setThr_refills (s : State) (ep : Nat) (t : Thread) : (s.setThr ep t).refills = s.refills := rfl
@[simp] theorem State.setThr_elections (s : State) (ep : Nat) (t : Thread) : (s.setThr ep t).elections = s.elections := rfl
@[simp] theorem State.setThr_masters (s : State) (ep : Nat) (t : Thread) : (s.setThr ep t).masters = s.masters := rfl
@[simp] theorem State.setThr_pairs (s : State) (ep : Nat) (t : Thread) : (s.setThr ep t).pairs = s.pairs := rfl
@[simp] theorem State.setThr_sched (s : State) (ep : Nat) (t : Thread) : (s.setThr ep t).sched = s.sched := rfl
@[simp] theorem State.setThr_ctxs (s : State) (ep : Nat) (t : Thread) : (s.setThr ep t).ctxs = s.ctxs := rfl
@[simp] theorem State.setThr_floors (s : State) (ep : Nat) (t : Thread) : (s.setThr ep t).floors = s.floors := rfl
@[simp] theorem State.setThr_stamps (s : State) (ep : Nat) (t : Thread) : (s.setThr ep t).stamps = s.stamps := rfl
@[simp] theorem State.setThr_outcome (s : State) (ep : Nat) (t : Thread) : (s.setThr ep t).outcome = s.outcome := rfl
@[simp] theorem State.setThr_relFloors (s : State) (ep : Nat) (t : Thread) : (s.setThr ep t).relFloors = s.relFloors := rfl
@[simp] theorem State.setThr_regs (s : State) (ep : Nat) (t : Thread) : (s.setThr ep t).regs = s.regs := rfl
@[simp] theorem State.setThr_regLog (s : State) (ep : Nat) (t : Thread) : (s.setThr ep t).regLog = s.regLog := rfl
@[simp] theorem State.setThr_shares (s : State) (ep : Nat) (t : Thread) : (s.setThr ep t).shares = s.shares := rfl
@[simp] theorem State.setThr_sinks (s : State) (ep : Nat) (t : Thread) : (s.setThr ep t).sinks = s.sinks := rfl
@[simp] theorem State.setThr_held (s : State) (ep : Nat) (t : Thread) : (s.setThr ep t).held = s.held := rfl
@[simp] theorem State.setThr_reelNext (s : State) (ep : Nat) (t : Thread) : (s.setThr ep t).reelNext = s.reelNext := rfl
@[simp] theorem State.setThr_fenced (s : State) (ep : Nat) (t : Thread) : (s.setThr ep t).fenced = s.fenced := rfl
@[simp] theorem State.setThr_toFence (s : State) (ep : Nat) (t : Thread) : (s.setThr ep t).toFence = s.toFence := rfl
@[simp] theorem State.setThr_claims (s : State) (ep : Nat) (t : Thread) : (s.setThr ep t).claims = s.claims := rfl
@[simp] theorem State.setThr_notices (s : State) (ep : Nat) (t : Thread) : (s.setThr ep t).notices = s.notices := rfl
@[simp] theorem State.setThr_callProd (s : State) (ep : Nat) (t : Thread) : (s.setThr ep t).callProd = s.callProd := rfl
@[simp] theorem State.setThr_callCons (s : State) (ep : Nat) (t : Thread) : (s.setThr ep t).callCons = s.callCons := rfl
@[simp] theorem State.setThr_nodes (s : State) (ep : Nat) (t : Thread) : (s.setThr ep t).nodes = s.nodes := rfl
@[simp] theorem State.setThr_windows (s : State) (ep : Nat) (t : Thread) : (s.setThr ep t).windows = s.windows := rfl
@[simp] theorem State.setThr_caches (s : State) (ep : Nat) (t : Thread) : (s.setThr ep t).caches = s.caches := rfl
@[simp] theorem State.setThr_walks (s : State) (ep : Nat) (t : Thread) : (s.setThr ep t).walks = s.walks := rfl
@[simp] theorem State.setThr_treeQ (s : State) (ep : Nat) (t : Thread) : (s.setThr ep t).treeQ = s.treeQ := rfl
@[simp] theorem State.setThr_treeOps (s : State) (ep : Nat) (t : Thread) : (s.setThr ep t).treeOps = s.treeOps := rfl
@[simp] theorem State.setThr_reqs (s : State) (ep : Nat) (t : Thread) : (s.setThr ep t).reqs = s.reqs := rfl
@[simp] theorem State.setThr_channels (s : State) (ep : Nat) (t : Thread) : (s.setThr ep t).channels = s.channels := rfl
@[simp] theorem State.setThr_handles (s : State) (ep : Nat) (t : Thread) : (s.setThr ep t).handles = s.handles := rfl
@[simp] theorem State.setThr_arrays (s : State) (ep : Nat) (t : Thread) : (s.setThr ep t).arrays = s.arrays := rfl
@[simp] theorem State.setThr_stages (s : State) (ep : Nat) (t : Thread) : (s.setThr ep t).stages = s.stages := rfl
@[simp] theorem State.setThr_keys (s : State) (ep : Nat) (t : Thread) : (s.setThr ep t).keys = s.keys := rfl
@[simp] theorem State.setThr_beats (s : State) (ep : Nat) (t : Thread) : (s.setThr ep t).beats = s.beats := rfl
@[simp] theorem State.setThr_scroll (s : State) (ep : Nat) (t : Thread) : (s.setThr ep t).scroll = s.scroll := rfl
@[simp] theorem State.setThr_metered (s : State) (ep : Nat) (t : Thread) : (s.setThr ep t).metered = s.metered := rfl
@[simp] theorem State.setThr_pages (s : State) (ep : Nat) (t : Thread) : (s.setThr ep t).pages = s.pages := rfl
@[simp] theorem State.setThr_tables (s : State) (ep : Nat) (t : Thread) : (s.setThr ep t).tables = s.tables := rfl
@[simp] theorem State.setThr_msixOn (s : State) (ep : Nat) (t : Thread) : (s.setThr ep t).msixOn = s.msixOn := rfl
@[simp] theorem State.setThr_msixPend (s : State) (ep : Nat) (t : Thread) : (s.setThr ep t).msixPend = s.msixPend := rfl
@[simp] theorem State.setThr_msixMsg (s : State) (ep : Nat) (t : Thread) : (s.setThr ep t).msixMsg = s.msixMsg := rfl
@[simp] theorem State.setThr_busOut (s : State) (ep : Nat) (t : Thread) : (s.setThr ep t).busOut = s.busOut := rfl
@[simp] theorem State.setThr_inbound (s : State) (ep : Nat) (t : Thread) : (s.setThr ep t).inbound = s.inbound := rfl
@[simp] theorem State.setThr_results (s : State) (ep : Nat) (t : Thread) : (s.setThr ep t).results = s.results := rfl
@[simp] theorem State.setThr_shared (s : State) (ep : Nat) (t : Thread) : (s.setThr ep t).shared = s.shared := rfl
@[simp] theorem State.setThr_migFaults (s : State) (ep : Nat) (t : Thread) : (s.setThr ep t).migFaults = s.migFaults := rfl
@[simp] theorem State.setThr_directory (s : State) (ep : Nat) (t : Thread) : (s.setThr ep t).directory = s.directory := rfl
@[simp] theorem State.setThr_granted (s : State) (ep : Nat) (t : Thread) : (s.setThr ep t).granted = s.granted := rfl
@[simp] theorem State.setThr_recalls (s : State) (ep : Nat) (t : Thread) : (s.setThr ep t).recalls = s.recalls := rfl
@[simp] theorem State.setThr_conns (s : State) (ep : Nat) (t : Thread) : (s.setThr ep t).conns = s.conns := rfl
@[simp] theorem State.setThr_links (s : State) (ep : Nat) (t : Thread) : (s.setThr ep t).links = s.links := rfl
@[simp] theorem State.setThr_timeBase (s : State) (ep : Nat) (t : Thread) : (s.setThr ep t).timeBase = s.timeBase := rfl
@[simp] theorem State.setThr_boot (s : State) (ep : Nat) (t : Thread) : (s.setThr ep t).boot = s.boot := rfl
@[simp] theorem State.setThr_teleSel (s : State) (ep : Nat) (t : Thread) : (s.setThr ep t).teleSel = s.teleSel := rfl
@[simp] theorem State.setThr_seu (s : State) (ep : Nat) (t : Thread) : (s.setThr ep t).seu = s.seu := rfl
@[simp] theorem State.setThr_perr (s : State) (ep : Nat) (t : Thread) : (s.setThr ep t).perr = s.perr := rfl
@[simp] theorem State.setThr_sensors (s : State) (ep : Nat) (t : Thread) : (s.setThr ep t).sensors = s.sensors := rfl
@[simp] theorem State.setThr_debug (s : State) (ep : Nat) (t : Thread) : (s.setThr ep t).debug = s.debug := rfl
@[simp] theorem State.setThr_debugWait (s : State) (ep : Nat) (t : Thread) : (s.setThr ep t).debugWait = s.debugWait := rfl
@[simp] theorem State.setThr_debugWord (s : State) (ep : Nat) (t : Thread) : (s.setThr ep t).debugWord = s.debugWord := rfl
@[simp] theorem State.setThr_failover (s : State) (ep : Nat) (t : Thread) : (s.setThr ep t).failover = s.failover := rfl

@[simp] theorem State.updThr_mem (s : State) (ep : Nat) (f : Thread → Thread) : (s.updThr ep f).mem = s.mem := rfl
@[simp] theorem State.updThr_now (s : State) (ep : Nat) (f : Thread → Thread) : (s.updThr ep f).now = s.now := rfl
@[simp] theorem State.updThr_ctimeOff (s : State) (ep : Nat) (f : Thread → Thread) : (s.updThr ep f).ctimeOff = s.ctimeOff := rfl
@[simp] theorem State.updThr_agenda (s : State) (ep : Nat) (f : Thread → Thread) : (s.updThr ep f).agenda = s.agenda := rfl
@[simp] theorem State.updThr_turn (s : State) (ep : Nat) (f : Thread → Thread) : (s.updThr ep f).turn = s.turn := rfl
@[simp] theorem State.updThr_cur (s : State) (ep : Nat) (f : Thread → Thread) : (s.updThr ep f).cur = s.cur := rfl
@[simp] theorem State.updThr_free (s : State) (ep : Nat) (f : Thread → Thread) : (s.updThr ep f).free = s.free := rfl
@[simp] theorem State.updThr_uids (s : State) (ep : Nat) (f : Thread → Thread) : (s.updThr ep f).uids = s.uids := rfl
@[simp] theorem State.updThr_ids (s : State) (ep : Nat) (f : Thread → Thread) : (s.updThr ep f).ids = s.ids := rfl
@[simp] theorem State.updThr_parts (s : State) (ep : Nat) (f : Thread → Thread) : (s.updThr ep f).parts = s.parts := rfl
@[simp] theorem State.updThr_cores (s : State) (ep : Nat) (f : Thread → Thread) : (s.updThr ep f).cores = s.cores := rfl
@[simp] theorem State.updThr_msgs (s : State) (ep : Nat) (f : Thread → Thread) : (s.updThr ep f).msgs = s.msgs := rfl
@[simp] theorem State.updThr_launches (s : State) (ep : Nat) (f : Thread → Thread) : (s.updThr ep f).launches = s.launches := rfl
@[simp] theorem State.updThr_levels (s : State) (ep : Nat) (f : Thread → Thread) : (s.updThr ep f).levels = s.levels := rfl
@[simp] theorem State.updThr_frees (s : State) (ep : Nat) (f : Thread → Thread) : (s.updThr ep f).frees = s.frees := rfl
@[simp] theorem State.updThr_adm (s : State) (ep : Nat) (f : Thread → Thread) : (s.updThr ep f).adm = s.adm := rfl
@[simp] theorem State.updThr_admSeq (s : State) (ep : Nat) (f : Thread → Thread) : (s.updThr ep f).admSeq = s.admSeq := rfl
@[simp] theorem State.updThr_refills (s : State) (ep : Nat) (f : Thread → Thread) : (s.updThr ep f).refills = s.refills := rfl
@[simp] theorem State.updThr_elections (s : State) (ep : Nat) (f : Thread → Thread) : (s.updThr ep f).elections = s.elections := rfl
@[simp] theorem State.updThr_masters (s : State) (ep : Nat) (f : Thread → Thread) : (s.updThr ep f).masters = s.masters := rfl
@[simp] theorem State.updThr_pairs (s : State) (ep : Nat) (f : Thread → Thread) : (s.updThr ep f).pairs = s.pairs := rfl
@[simp] theorem State.updThr_sched (s : State) (ep : Nat) (f : Thread → Thread) : (s.updThr ep f).sched = s.sched := rfl
@[simp] theorem State.updThr_ctxs (s : State) (ep : Nat) (f : Thread → Thread) : (s.updThr ep f).ctxs = s.ctxs := rfl
@[simp] theorem State.updThr_floors (s : State) (ep : Nat) (f : Thread → Thread) : (s.updThr ep f).floors = s.floors := rfl
@[simp] theorem State.updThr_stamps (s : State) (ep : Nat) (f : Thread → Thread) : (s.updThr ep f).stamps = s.stamps := rfl
@[simp] theorem State.updThr_outcome (s : State) (ep : Nat) (f : Thread → Thread) : (s.updThr ep f).outcome = s.outcome := rfl
@[simp] theorem State.updThr_relFloors (s : State) (ep : Nat) (f : Thread → Thread) : (s.updThr ep f).relFloors = s.relFloors := rfl
@[simp] theorem State.updThr_regs (s : State) (ep : Nat) (f : Thread → Thread) : (s.updThr ep f).regs = s.regs := rfl
@[simp] theorem State.updThr_regLog (s : State) (ep : Nat) (f : Thread → Thread) : (s.updThr ep f).regLog = s.regLog := rfl
@[simp] theorem State.updThr_shares (s : State) (ep : Nat) (f : Thread → Thread) : (s.updThr ep f).shares = s.shares := rfl
@[simp] theorem State.updThr_sinks (s : State) (ep : Nat) (f : Thread → Thread) : (s.updThr ep f).sinks = s.sinks := rfl
@[simp] theorem State.updThr_held (s : State) (ep : Nat) (f : Thread → Thread) : (s.updThr ep f).held = s.held := rfl
@[simp] theorem State.updThr_reelNext (s : State) (ep : Nat) (f : Thread → Thread) : (s.updThr ep f).reelNext = s.reelNext := rfl
@[simp] theorem State.updThr_fenced (s : State) (ep : Nat) (f : Thread → Thread) : (s.updThr ep f).fenced = s.fenced := rfl
@[simp] theorem State.updThr_toFence (s : State) (ep : Nat) (f : Thread → Thread) : (s.updThr ep f).toFence = s.toFence := rfl
@[simp] theorem State.updThr_claims (s : State) (ep : Nat) (f : Thread → Thread) : (s.updThr ep f).claims = s.claims := rfl
@[simp] theorem State.updThr_notices (s : State) (ep : Nat) (f : Thread → Thread) : (s.updThr ep f).notices = s.notices := rfl
@[simp] theorem State.updThr_callProd (s : State) (ep : Nat) (f : Thread → Thread) : (s.updThr ep f).callProd = s.callProd := rfl
@[simp] theorem State.updThr_callCons (s : State) (ep : Nat) (f : Thread → Thread) : (s.updThr ep f).callCons = s.callCons := rfl
@[simp] theorem State.updThr_nodes (s : State) (ep : Nat) (f : Thread → Thread) : (s.updThr ep f).nodes = s.nodes := rfl
@[simp] theorem State.updThr_windows (s : State) (ep : Nat) (f : Thread → Thread) : (s.updThr ep f).windows = s.windows := rfl
@[simp] theorem State.updThr_caches (s : State) (ep : Nat) (f : Thread → Thread) : (s.updThr ep f).caches = s.caches := rfl
@[simp] theorem State.updThr_walks (s : State) (ep : Nat) (f : Thread → Thread) : (s.updThr ep f).walks = s.walks := rfl
@[simp] theorem State.updThr_treeQ (s : State) (ep : Nat) (f : Thread → Thread) : (s.updThr ep f).treeQ = s.treeQ := rfl
@[simp] theorem State.updThr_treeOps (s : State) (ep : Nat) (f : Thread → Thread) : (s.updThr ep f).treeOps = s.treeOps := rfl
@[simp] theorem State.updThr_reqs (s : State) (ep : Nat) (f : Thread → Thread) : (s.updThr ep f).reqs = s.reqs := rfl
@[simp] theorem State.updThr_channels (s : State) (ep : Nat) (f : Thread → Thread) : (s.updThr ep f).channels = s.channels := rfl
@[simp] theorem State.updThr_handles (s : State) (ep : Nat) (f : Thread → Thread) : (s.updThr ep f).handles = s.handles := rfl
@[simp] theorem State.updThr_arrays (s : State) (ep : Nat) (f : Thread → Thread) : (s.updThr ep f).arrays = s.arrays := rfl
@[simp] theorem State.updThr_stages (s : State) (ep : Nat) (f : Thread → Thread) : (s.updThr ep f).stages = s.stages := rfl
@[simp] theorem State.updThr_keys (s : State) (ep : Nat) (f : Thread → Thread) : (s.updThr ep f).keys = s.keys := rfl
@[simp] theorem State.updThr_beats (s : State) (ep : Nat) (f : Thread → Thread) : (s.updThr ep f).beats = s.beats := rfl
@[simp] theorem State.updThr_scroll (s : State) (ep : Nat) (f : Thread → Thread) : (s.updThr ep f).scroll = s.scroll := rfl
@[simp] theorem State.updThr_metered (s : State) (ep : Nat) (f : Thread → Thread) : (s.updThr ep f).metered = s.metered := rfl
@[simp] theorem State.updThr_pages (s : State) (ep : Nat) (f : Thread → Thread) : (s.updThr ep f).pages = s.pages := rfl
@[simp] theorem State.updThr_tables (s : State) (ep : Nat) (f : Thread → Thread) : (s.updThr ep f).tables = s.tables := rfl
@[simp] theorem State.updThr_msixOn (s : State) (ep : Nat) (f : Thread → Thread) : (s.updThr ep f).msixOn = s.msixOn := rfl
@[simp] theorem State.updThr_msixPend (s : State) (ep : Nat) (f : Thread → Thread) : (s.updThr ep f).msixPend = s.msixPend := rfl
@[simp] theorem State.updThr_msixMsg (s : State) (ep : Nat) (f : Thread → Thread) : (s.updThr ep f).msixMsg = s.msixMsg := rfl
@[simp] theorem State.updThr_busOut (s : State) (ep : Nat) (f : Thread → Thread) : (s.updThr ep f).busOut = s.busOut := rfl
@[simp] theorem State.updThr_inbound (s : State) (ep : Nat) (f : Thread → Thread) : (s.updThr ep f).inbound = s.inbound := rfl
@[simp] theorem State.updThr_results (s : State) (ep : Nat) (f : Thread → Thread) : (s.updThr ep f).results = s.results := rfl
@[simp] theorem State.updThr_shared (s : State) (ep : Nat) (f : Thread → Thread) : (s.updThr ep f).shared = s.shared := rfl
@[simp] theorem State.updThr_migFaults (s : State) (ep : Nat) (f : Thread → Thread) : (s.updThr ep f).migFaults = s.migFaults := rfl
@[simp] theorem State.updThr_directory (s : State) (ep : Nat) (f : Thread → Thread) : (s.updThr ep f).directory = s.directory := rfl
@[simp] theorem State.updThr_granted (s : State) (ep : Nat) (f : Thread → Thread) : (s.updThr ep f).granted = s.granted := rfl
@[simp] theorem State.updThr_recalls (s : State) (ep : Nat) (f : Thread → Thread) : (s.updThr ep f).recalls = s.recalls := rfl
@[simp] theorem State.updThr_conns (s : State) (ep : Nat) (f : Thread → Thread) : (s.updThr ep f).conns = s.conns := rfl
@[simp] theorem State.updThr_links (s : State) (ep : Nat) (f : Thread → Thread) : (s.updThr ep f).links = s.links := rfl
@[simp] theorem State.updThr_timeBase (s : State) (ep : Nat) (f : Thread → Thread) : (s.updThr ep f).timeBase = s.timeBase := rfl
@[simp] theorem State.updThr_boot (s : State) (ep : Nat) (f : Thread → Thread) : (s.updThr ep f).boot = s.boot := rfl
@[simp] theorem State.updThr_teleSel (s : State) (ep : Nat) (f : Thread → Thread) : (s.updThr ep f).teleSel = s.teleSel := rfl
@[simp] theorem State.updThr_seu (s : State) (ep : Nat) (f : Thread → Thread) : (s.updThr ep f).seu = s.seu := rfl
@[simp] theorem State.updThr_perr (s : State) (ep : Nat) (f : Thread → Thread) : (s.updThr ep f).perr = s.perr := rfl
@[simp] theorem State.updThr_sensors (s : State) (ep : Nat) (f : Thread → Thread) : (s.updThr ep f).sensors = s.sensors := rfl
@[simp] theorem State.updThr_debug (s : State) (ep : Nat) (f : Thread → Thread) : (s.updThr ep f).debug = s.debug := rfl
@[simp] theorem State.updThr_debugWait (s : State) (ep : Nat) (f : Thread → Thread) : (s.updThr ep f).debugWait = s.debugWait := rfl
@[simp] theorem State.updThr_debugWord (s : State) (ep : Nat) (f : Thread → Thread) : (s.updThr ep f).debugWord = s.debugWord := rfl
@[simp] theorem State.updThr_failover (s : State) (ep : Nat) (f : Thread → Thread) : (s.updThr ep f).failover = s.failover := rfl

@[simp] theorem State.upd_mem (s : State) (f : Thread → Thread) : (s.upd f).mem = s.mem := rfl
@[simp] theorem State.upd_now (s : State) (f : Thread → Thread) : (s.upd f).now = s.now := rfl
@[simp] theorem State.upd_ctimeOff (s : State) (f : Thread → Thread) : (s.upd f).ctimeOff = s.ctimeOff := rfl
@[simp] theorem State.upd_agenda (s : State) (f : Thread → Thread) : (s.upd f).agenda = s.agenda := rfl
@[simp] theorem State.upd_turn (s : State) (f : Thread → Thread) : (s.upd f).turn = s.turn := rfl
@[simp] theorem State.upd_cur (s : State) (f : Thread → Thread) : (s.upd f).cur = s.cur := rfl
@[simp] theorem State.upd_free (s : State) (f : Thread → Thread) : (s.upd f).free = s.free := rfl
@[simp] theorem State.upd_uids (s : State) (f : Thread → Thread) : (s.upd f).uids = s.uids := rfl
@[simp] theorem State.upd_ids (s : State) (f : Thread → Thread) : (s.upd f).ids = s.ids := rfl
@[simp] theorem State.upd_parts (s : State) (f : Thread → Thread) : (s.upd f).parts = s.parts := rfl
@[simp] theorem State.upd_cores (s : State) (f : Thread → Thread) : (s.upd f).cores = s.cores := rfl
@[simp] theorem State.upd_msgs (s : State) (f : Thread → Thread) : (s.upd f).msgs = s.msgs := rfl
@[simp] theorem State.upd_launches (s : State) (f : Thread → Thread) : (s.upd f).launches = s.launches := rfl
@[simp] theorem State.upd_levels (s : State) (f : Thread → Thread) : (s.upd f).levels = s.levels := rfl
@[simp] theorem State.upd_frees (s : State) (f : Thread → Thread) : (s.upd f).frees = s.frees := rfl
@[simp] theorem State.upd_adm (s : State) (f : Thread → Thread) : (s.upd f).adm = s.adm := rfl
@[simp] theorem State.upd_admSeq (s : State) (f : Thread → Thread) : (s.upd f).admSeq = s.admSeq := rfl
@[simp] theorem State.upd_refills (s : State) (f : Thread → Thread) : (s.upd f).refills = s.refills := rfl
@[simp] theorem State.upd_elections (s : State) (f : Thread → Thread) : (s.upd f).elections = s.elections := rfl
@[simp] theorem State.upd_masters (s : State) (f : Thread → Thread) : (s.upd f).masters = s.masters := rfl
@[simp] theorem State.upd_pairs (s : State) (f : Thread → Thread) : (s.upd f).pairs = s.pairs := rfl
@[simp] theorem State.upd_sched (s : State) (f : Thread → Thread) : (s.upd f).sched = s.sched := rfl
@[simp] theorem State.upd_ctxs (s : State) (f : Thread → Thread) : (s.upd f).ctxs = s.ctxs := rfl
@[simp] theorem State.upd_floors (s : State) (f : Thread → Thread) : (s.upd f).floors = s.floors := rfl
@[simp] theorem State.upd_stamps (s : State) (f : Thread → Thread) : (s.upd f).stamps = s.stamps := rfl
@[simp] theorem State.upd_outcome (s : State) (f : Thread → Thread) : (s.upd f).outcome = s.outcome := rfl
@[simp] theorem State.upd_relFloors (s : State) (f : Thread → Thread) : (s.upd f).relFloors = s.relFloors := rfl
@[simp] theorem State.upd_regs (s : State) (f : Thread → Thread) : (s.upd f).regs = s.regs := rfl
@[simp] theorem State.upd_regLog (s : State) (f : Thread → Thread) : (s.upd f).regLog = s.regLog := rfl
@[simp] theorem State.upd_shares (s : State) (f : Thread → Thread) : (s.upd f).shares = s.shares := rfl
@[simp] theorem State.upd_sinks (s : State) (f : Thread → Thread) : (s.upd f).sinks = s.sinks := rfl
@[simp] theorem State.upd_held (s : State) (f : Thread → Thread) : (s.upd f).held = s.held := rfl
@[simp] theorem State.upd_reelNext (s : State) (f : Thread → Thread) : (s.upd f).reelNext = s.reelNext := rfl
@[simp] theorem State.upd_fenced (s : State) (f : Thread → Thread) : (s.upd f).fenced = s.fenced := rfl
@[simp] theorem State.upd_toFence (s : State) (f : Thread → Thread) : (s.upd f).toFence = s.toFence := rfl
@[simp] theorem State.upd_claims (s : State) (f : Thread → Thread) : (s.upd f).claims = s.claims := rfl
@[simp] theorem State.upd_notices (s : State) (f : Thread → Thread) : (s.upd f).notices = s.notices := rfl
@[simp] theorem State.upd_callProd (s : State) (f : Thread → Thread) : (s.upd f).callProd = s.callProd := rfl
@[simp] theorem State.upd_callCons (s : State) (f : Thread → Thread) : (s.upd f).callCons = s.callCons := rfl
@[simp] theorem State.upd_nodes (s : State) (f : Thread → Thread) : (s.upd f).nodes = s.nodes := rfl
@[simp] theorem State.upd_windows (s : State) (f : Thread → Thread) : (s.upd f).windows = s.windows := rfl
@[simp] theorem State.upd_caches (s : State) (f : Thread → Thread) : (s.upd f).caches = s.caches := rfl
@[simp] theorem State.upd_walks (s : State) (f : Thread → Thread) : (s.upd f).walks = s.walks := rfl
@[simp] theorem State.upd_treeQ (s : State) (f : Thread → Thread) : (s.upd f).treeQ = s.treeQ := rfl
@[simp] theorem State.upd_treeOps (s : State) (f : Thread → Thread) : (s.upd f).treeOps = s.treeOps := rfl
@[simp] theorem State.upd_reqs (s : State) (f : Thread → Thread) : (s.upd f).reqs = s.reqs := rfl
@[simp] theorem State.upd_channels (s : State) (f : Thread → Thread) : (s.upd f).channels = s.channels := rfl
@[simp] theorem State.upd_handles (s : State) (f : Thread → Thread) : (s.upd f).handles = s.handles := rfl
@[simp] theorem State.upd_arrays (s : State) (f : Thread → Thread) : (s.upd f).arrays = s.arrays := rfl
@[simp] theorem State.upd_stages (s : State) (f : Thread → Thread) : (s.upd f).stages = s.stages := rfl
@[simp] theorem State.upd_keys (s : State) (f : Thread → Thread) : (s.upd f).keys = s.keys := rfl
@[simp] theorem State.upd_beats (s : State) (f : Thread → Thread) : (s.upd f).beats = s.beats := rfl
@[simp] theorem State.upd_scroll (s : State) (f : Thread → Thread) : (s.upd f).scroll = s.scroll := rfl
@[simp] theorem State.upd_metered (s : State) (f : Thread → Thread) : (s.upd f).metered = s.metered := rfl
@[simp] theorem State.upd_pages (s : State) (f : Thread → Thread) : (s.upd f).pages = s.pages := rfl
@[simp] theorem State.upd_tables (s : State) (f : Thread → Thread) : (s.upd f).tables = s.tables := rfl
@[simp] theorem State.upd_msixOn (s : State) (f : Thread → Thread) : (s.upd f).msixOn = s.msixOn := rfl
@[simp] theorem State.upd_msixPend (s : State) (f : Thread → Thread) : (s.upd f).msixPend = s.msixPend := rfl
@[simp] theorem State.upd_msixMsg (s : State) (f : Thread → Thread) : (s.upd f).msixMsg = s.msixMsg := rfl
@[simp] theorem State.upd_busOut (s : State) (f : Thread → Thread) : (s.upd f).busOut = s.busOut := rfl
@[simp] theorem State.upd_inbound (s : State) (f : Thread → Thread) : (s.upd f).inbound = s.inbound := rfl
@[simp] theorem State.upd_results (s : State) (f : Thread → Thread) : (s.upd f).results = s.results := rfl
@[simp] theorem State.upd_shared (s : State) (f : Thread → Thread) : (s.upd f).shared = s.shared := rfl
@[simp] theorem State.upd_migFaults (s : State) (f : Thread → Thread) : (s.upd f).migFaults = s.migFaults := rfl
@[simp] theorem State.upd_directory (s : State) (f : Thread → Thread) : (s.upd f).directory = s.directory := rfl
@[simp] theorem State.upd_granted (s : State) (f : Thread → Thread) : (s.upd f).granted = s.granted := rfl
@[simp] theorem State.upd_recalls (s : State) (f : Thread → Thread) : (s.upd f).recalls = s.recalls := rfl
@[simp] theorem State.upd_conns (s : State) (f : Thread → Thread) : (s.upd f).conns = s.conns := rfl
@[simp] theorem State.upd_links (s : State) (f : Thread → Thread) : (s.upd f).links = s.links := rfl
@[simp] theorem State.upd_timeBase (s : State) (f : Thread → Thread) : (s.upd f).timeBase = s.timeBase := rfl
@[simp] theorem State.upd_boot (s : State) (f : Thread → Thread) : (s.upd f).boot = s.boot := rfl
@[simp] theorem State.upd_teleSel (s : State) (f : Thread → Thread) : (s.upd f).teleSel = s.teleSel := rfl
@[simp] theorem State.upd_seu (s : State) (f : Thread → Thread) : (s.upd f).seu = s.seu := rfl
@[simp] theorem State.upd_perr (s : State) (f : Thread → Thread) : (s.upd f).perr = s.perr := rfl
@[simp] theorem State.upd_sensors (s : State) (f : Thread → Thread) : (s.upd f).sensors = s.sensors := rfl
@[simp] theorem State.upd_debug (s : State) (f : Thread → Thread) : (s.upd f).debug = s.debug := rfl
@[simp] theorem State.upd_debugWait (s : State) (f : Thread → Thread) : (s.upd f).debugWait = s.debugWait := rfl
@[simp] theorem State.upd_debugWord (s : State) (f : Thread → Thread) : (s.upd f).debugWord = s.debugWord := rfl
@[simp] theorem State.upd_failover (s : State) (f : Thread → Thread) : (s.upd f).failover = s.failover := rfl

@[simp] theorem State.updRegs_mem (s : State) (f : Regs → Regs) : (s.updRegs f).mem = s.mem := rfl
@[simp] theorem State.updRegs_now (s : State) (f : Regs → Regs) : (s.updRegs f).now = s.now := rfl
@[simp] theorem State.updRegs_ctimeOff (s : State) (f : Regs → Regs) : (s.updRegs f).ctimeOff = s.ctimeOff := rfl
@[simp] theorem State.updRegs_agenda (s : State) (f : Regs → Regs) : (s.updRegs f).agenda = s.agenda := rfl
@[simp] theorem State.updRegs_turn (s : State) (f : Regs → Regs) : (s.updRegs f).turn = s.turn := rfl
@[simp] theorem State.updRegs_cur (s : State) (f : Regs → Regs) : (s.updRegs f).cur = s.cur := rfl
@[simp] theorem State.updRegs_free (s : State) (f : Regs → Regs) : (s.updRegs f).free = s.free := rfl
@[simp] theorem State.updRegs_uids (s : State) (f : Regs → Regs) : (s.updRegs f).uids = s.uids := rfl
@[simp] theorem State.updRegs_ids (s : State) (f : Regs → Regs) : (s.updRegs f).ids = s.ids := rfl
@[simp] theorem State.updRegs_parts (s : State) (f : Regs → Regs) : (s.updRegs f).parts = s.parts := rfl
@[simp] theorem State.updRegs_cores (s : State) (f : Regs → Regs) : (s.updRegs f).cores = s.cores := rfl
@[simp] theorem State.updRegs_msgs (s : State) (f : Regs → Regs) : (s.updRegs f).msgs = s.msgs := rfl
@[simp] theorem State.updRegs_launches (s : State) (f : Regs → Regs) : (s.updRegs f).launches = s.launches := rfl
@[simp] theorem State.updRegs_levels (s : State) (f : Regs → Regs) : (s.updRegs f).levels = s.levels := rfl
@[simp] theorem State.updRegs_frees (s : State) (f : Regs → Regs) : (s.updRegs f).frees = s.frees := rfl
@[simp] theorem State.updRegs_adm (s : State) (f : Regs → Regs) : (s.updRegs f).adm = s.adm := rfl
@[simp] theorem State.updRegs_admSeq (s : State) (f : Regs → Regs) : (s.updRegs f).admSeq = s.admSeq := rfl
@[simp] theorem State.updRegs_refills (s : State) (f : Regs → Regs) : (s.updRegs f).refills = s.refills := rfl
@[simp] theorem State.updRegs_elections (s : State) (f : Regs → Regs) : (s.updRegs f).elections = s.elections := rfl
@[simp] theorem State.updRegs_masters (s : State) (f : Regs → Regs) : (s.updRegs f).masters = s.masters := rfl
@[simp] theorem State.updRegs_pairs (s : State) (f : Regs → Regs) : (s.updRegs f).pairs = s.pairs := rfl
@[simp] theorem State.updRegs_sched (s : State) (f : Regs → Regs) : (s.updRegs f).sched = s.sched := rfl
@[simp] theorem State.updRegs_ctxs (s : State) (f : Regs → Regs) : (s.updRegs f).ctxs = s.ctxs := rfl
@[simp] theorem State.updRegs_floors (s : State) (f : Regs → Regs) : (s.updRegs f).floors = s.floors := rfl
@[simp] theorem State.updRegs_stamps (s : State) (f : Regs → Regs) : (s.updRegs f).stamps = s.stamps := rfl
@[simp] theorem State.updRegs_outcome (s : State) (f : Regs → Regs) : (s.updRegs f).outcome = s.outcome := rfl
@[simp] theorem State.updRegs_relFloors (s : State) (f : Regs → Regs) : (s.updRegs f).relFloors = s.relFloors := rfl
@[simp] theorem State.updRegs_regs (s : State) (f : Regs → Regs) : (s.updRegs f).regs = s.regs := rfl
@[simp] theorem State.updRegs_regLog (s : State) (f : Regs → Regs) : (s.updRegs f).regLog = s.regLog := rfl
@[simp] theorem State.updRegs_shares (s : State) (f : Regs → Regs) : (s.updRegs f).shares = s.shares := rfl
@[simp] theorem State.updRegs_sinks (s : State) (f : Regs → Regs) : (s.updRegs f).sinks = s.sinks := rfl
@[simp] theorem State.updRegs_held (s : State) (f : Regs → Regs) : (s.updRegs f).held = s.held := rfl
@[simp] theorem State.updRegs_reelNext (s : State) (f : Regs → Regs) : (s.updRegs f).reelNext = s.reelNext := rfl
@[simp] theorem State.updRegs_fenced (s : State) (f : Regs → Regs) : (s.updRegs f).fenced = s.fenced := rfl
@[simp] theorem State.updRegs_toFence (s : State) (f : Regs → Regs) : (s.updRegs f).toFence = s.toFence := rfl
@[simp] theorem State.updRegs_claims (s : State) (f : Regs → Regs) : (s.updRegs f).claims = s.claims := rfl
@[simp] theorem State.updRegs_notices (s : State) (f : Regs → Regs) : (s.updRegs f).notices = s.notices := rfl
@[simp] theorem State.updRegs_callProd (s : State) (f : Regs → Regs) : (s.updRegs f).callProd = s.callProd := rfl
@[simp] theorem State.updRegs_callCons (s : State) (f : Regs → Regs) : (s.updRegs f).callCons = s.callCons := rfl
@[simp] theorem State.updRegs_nodes (s : State) (f : Regs → Regs) : (s.updRegs f).nodes = s.nodes := rfl
@[simp] theorem State.updRegs_windows (s : State) (f : Regs → Regs) : (s.updRegs f).windows = s.windows := rfl
@[simp] theorem State.updRegs_caches (s : State) (f : Regs → Regs) : (s.updRegs f).caches = s.caches := rfl
@[simp] theorem State.updRegs_walks (s : State) (f : Regs → Regs) : (s.updRegs f).walks = s.walks := rfl
@[simp] theorem State.updRegs_treeQ (s : State) (f : Regs → Regs) : (s.updRegs f).treeQ = s.treeQ := rfl
@[simp] theorem State.updRegs_treeOps (s : State) (f : Regs → Regs) : (s.updRegs f).treeOps = s.treeOps := rfl
@[simp] theorem State.updRegs_reqs (s : State) (f : Regs → Regs) : (s.updRegs f).reqs = s.reqs := rfl
@[simp] theorem State.updRegs_channels (s : State) (f : Regs → Regs) : (s.updRegs f).channels = s.channels := rfl
@[simp] theorem State.updRegs_handles (s : State) (f : Regs → Regs) : (s.updRegs f).handles = s.handles := rfl
@[simp] theorem State.updRegs_arrays (s : State) (f : Regs → Regs) : (s.updRegs f).arrays = s.arrays := rfl
@[simp] theorem State.updRegs_stages (s : State) (f : Regs → Regs) : (s.updRegs f).stages = s.stages := rfl
@[simp] theorem State.updRegs_keys (s : State) (f : Regs → Regs) : (s.updRegs f).keys = s.keys := rfl
@[simp] theorem State.updRegs_beats (s : State) (f : Regs → Regs) : (s.updRegs f).beats = s.beats := rfl
@[simp] theorem State.updRegs_scroll (s : State) (f : Regs → Regs) : (s.updRegs f).scroll = s.scroll := rfl
@[simp] theorem State.updRegs_metered (s : State) (f : Regs → Regs) : (s.updRegs f).metered = s.metered := rfl
@[simp] theorem State.updRegs_pages (s : State) (f : Regs → Regs) : (s.updRegs f).pages = s.pages := rfl
@[simp] theorem State.updRegs_tables (s : State) (f : Regs → Regs) : (s.updRegs f).tables = s.tables := rfl
@[simp] theorem State.updRegs_msixOn (s : State) (f : Regs → Regs) : (s.updRegs f).msixOn = s.msixOn := rfl
@[simp] theorem State.updRegs_msixPend (s : State) (f : Regs → Regs) : (s.updRegs f).msixPend = s.msixPend := rfl
@[simp] theorem State.updRegs_msixMsg (s : State) (f : Regs → Regs) : (s.updRegs f).msixMsg = s.msixMsg := rfl
@[simp] theorem State.updRegs_busOut (s : State) (f : Regs → Regs) : (s.updRegs f).busOut = s.busOut := rfl
@[simp] theorem State.updRegs_inbound (s : State) (f : Regs → Regs) : (s.updRegs f).inbound = s.inbound := rfl
@[simp] theorem State.updRegs_results (s : State) (f : Regs → Regs) : (s.updRegs f).results = s.results := rfl
@[simp] theorem State.updRegs_shared (s : State) (f : Regs → Regs) : (s.updRegs f).shared = s.shared := rfl
@[simp] theorem State.updRegs_migFaults (s : State) (f : Regs → Regs) : (s.updRegs f).migFaults = s.migFaults := rfl
@[simp] theorem State.updRegs_directory (s : State) (f : Regs → Regs) : (s.updRegs f).directory = s.directory := rfl
@[simp] theorem State.updRegs_granted (s : State) (f : Regs → Regs) : (s.updRegs f).granted = s.granted := rfl
@[simp] theorem State.updRegs_recalls (s : State) (f : Regs → Regs) : (s.updRegs f).recalls = s.recalls := rfl
@[simp] theorem State.updRegs_conns (s : State) (f : Regs → Regs) : (s.updRegs f).conns = s.conns := rfl
@[simp] theorem State.updRegs_links (s : State) (f : Regs → Regs) : (s.updRegs f).links = s.links := rfl
@[simp] theorem State.updRegs_timeBase (s : State) (f : Regs → Regs) : (s.updRegs f).timeBase = s.timeBase := rfl
@[simp] theorem State.updRegs_boot (s : State) (f : Regs → Regs) : (s.updRegs f).boot = s.boot := rfl
@[simp] theorem State.updRegs_teleSel (s : State) (f : Regs → Regs) : (s.updRegs f).teleSel = s.teleSel := rfl
@[simp] theorem State.updRegs_seu (s : State) (f : Regs → Regs) : (s.updRegs f).seu = s.seu := rfl
@[simp] theorem State.updRegs_perr (s : State) (f : Regs → Regs) : (s.updRegs f).perr = s.perr := rfl
@[simp] theorem State.updRegs_sensors (s : State) (f : Regs → Regs) : (s.updRegs f).sensors = s.sensors := rfl
@[simp] theorem State.updRegs_debug (s : State) (f : Regs → Regs) : (s.updRegs f).debug = s.debug := rfl
@[simp] theorem State.updRegs_debugWait (s : State) (f : Regs → Regs) : (s.updRegs f).debugWait = s.debugWait := rfl
@[simp] theorem State.updRegs_debugWord (s : State) (f : Regs → Regs) : (s.updRegs f).debugWord = s.debugWord := rfl
@[simp] theorem State.updRegs_failover (s : State) (f : Regs → Regs) : (s.updRegs f).failover = s.failover := rfl

@[simp] theorem State.setCore_mem (s : State) (c : Nat) (k : Core) : (s.setCore c k).mem = s.mem := rfl
@[simp] theorem State.setCore_now (s : State) (c : Nat) (k : Core) : (s.setCore c k).now = s.now := rfl
@[simp] theorem State.setCore_ctimeOff (s : State) (c : Nat) (k : Core) : (s.setCore c k).ctimeOff = s.ctimeOff := rfl
@[simp] theorem State.setCore_agenda (s : State) (c : Nat) (k : Core) : (s.setCore c k).agenda = s.agenda := rfl
@[simp] theorem State.setCore_turn (s : State) (c : Nat) (k : Core) : (s.setCore c k).turn = s.turn := rfl
@[simp] theorem State.setCore_cur (s : State) (c : Nat) (k : Core) : (s.setCore c k).cur = s.cur := rfl
@[simp] theorem State.setCore_free (s : State) (c : Nat) (k : Core) : (s.setCore c k).free = s.free := rfl
@[simp] theorem State.setCore_uids (s : State) (c : Nat) (k : Core) : (s.setCore c k).uids = s.uids := rfl
@[simp] theorem State.setCore_ids (s : State) (c : Nat) (k : Core) : (s.setCore c k).ids = s.ids := rfl
@[simp] theorem State.setCore_parts (s : State) (c : Nat) (k : Core) : (s.setCore c k).parts = s.parts := rfl
@[simp] theorem State.setCore_threads (s : State) (c : Nat) (k : Core) : (s.setCore c k).threads = s.threads := rfl
@[simp] theorem State.setCore_msgs (s : State) (c : Nat) (k : Core) : (s.setCore c k).msgs = s.msgs := rfl
@[simp] theorem State.setCore_launches (s : State) (c : Nat) (k : Core) : (s.setCore c k).launches = s.launches := rfl
@[simp] theorem State.setCore_levels (s : State) (c : Nat) (k : Core) : (s.setCore c k).levels = s.levels := rfl
@[simp] theorem State.setCore_frees (s : State) (c : Nat) (k : Core) : (s.setCore c k).frees = s.frees := rfl
@[simp] theorem State.setCore_adm (s : State) (c : Nat) (k : Core) : (s.setCore c k).adm = s.adm := rfl
@[simp] theorem State.setCore_admSeq (s : State) (c : Nat) (k : Core) : (s.setCore c k).admSeq = s.admSeq := rfl
@[simp] theorem State.setCore_refills (s : State) (c : Nat) (k : Core) : (s.setCore c k).refills = s.refills := rfl
@[simp] theorem State.setCore_elections (s : State) (c : Nat) (k : Core) : (s.setCore c k).elections = s.elections := rfl
@[simp] theorem State.setCore_masters (s : State) (c : Nat) (k : Core) : (s.setCore c k).masters = s.masters := rfl
@[simp] theorem State.setCore_pairs (s : State) (c : Nat) (k : Core) : (s.setCore c k).pairs = s.pairs := rfl
@[simp] theorem State.setCore_sched (s : State) (c : Nat) (k : Core) : (s.setCore c k).sched = s.sched := rfl
@[simp] theorem State.setCore_ctxs (s : State) (c : Nat) (k : Core) : (s.setCore c k).ctxs = s.ctxs := rfl
@[simp] theorem State.setCore_floors (s : State) (c : Nat) (k : Core) : (s.setCore c k).floors = s.floors := rfl
@[simp] theorem State.setCore_stamps (s : State) (c : Nat) (k : Core) : (s.setCore c k).stamps = s.stamps := rfl
@[simp] theorem State.setCore_outcome (s : State) (c : Nat) (k : Core) : (s.setCore c k).outcome = s.outcome := rfl
@[simp] theorem State.setCore_relFloors (s : State) (c : Nat) (k : Core) : (s.setCore c k).relFloors = s.relFloors := rfl
@[simp] theorem State.setCore_regs (s : State) (c : Nat) (k : Core) : (s.setCore c k).regs = s.regs := rfl
@[simp] theorem State.setCore_regLog (s : State) (c : Nat) (k : Core) : (s.setCore c k).regLog = s.regLog := rfl
@[simp] theorem State.setCore_shares (s : State) (c : Nat) (k : Core) : (s.setCore c k).shares = s.shares := rfl
@[simp] theorem State.setCore_sinks (s : State) (c : Nat) (k : Core) : (s.setCore c k).sinks = s.sinks := rfl
@[simp] theorem State.setCore_held (s : State) (c : Nat) (k : Core) : (s.setCore c k).held = s.held := rfl
@[simp] theorem State.setCore_reelNext (s : State) (c : Nat) (k : Core) : (s.setCore c k).reelNext = s.reelNext := rfl
@[simp] theorem State.setCore_fenced (s : State) (c : Nat) (k : Core) : (s.setCore c k).fenced = s.fenced := rfl
@[simp] theorem State.setCore_toFence (s : State) (c : Nat) (k : Core) : (s.setCore c k).toFence = s.toFence := rfl
@[simp] theorem State.setCore_claims (s : State) (c : Nat) (k : Core) : (s.setCore c k).claims = s.claims := rfl
@[simp] theorem State.setCore_notices (s : State) (c : Nat) (k : Core) : (s.setCore c k).notices = s.notices := rfl
@[simp] theorem State.setCore_callProd (s : State) (c : Nat) (k : Core) : (s.setCore c k).callProd = s.callProd := rfl
@[simp] theorem State.setCore_callCons (s : State) (c : Nat) (k : Core) : (s.setCore c k).callCons = s.callCons := rfl
@[simp] theorem State.setCore_nodes (s : State) (c : Nat) (k : Core) : (s.setCore c k).nodes = s.nodes := rfl
@[simp] theorem State.setCore_windows (s : State) (c : Nat) (k : Core) : (s.setCore c k).windows = s.windows := rfl
@[simp] theorem State.setCore_caches (s : State) (c : Nat) (k : Core) : (s.setCore c k).caches = s.caches := rfl
@[simp] theorem State.setCore_walks (s : State) (c : Nat) (k : Core) : (s.setCore c k).walks = s.walks := rfl
@[simp] theorem State.setCore_treeQ (s : State) (c : Nat) (k : Core) : (s.setCore c k).treeQ = s.treeQ := rfl
@[simp] theorem State.setCore_treeOps (s : State) (c : Nat) (k : Core) : (s.setCore c k).treeOps = s.treeOps := rfl
@[simp] theorem State.setCore_reqs (s : State) (c : Nat) (k : Core) : (s.setCore c k).reqs = s.reqs := rfl
@[simp] theorem State.setCore_channels (s : State) (c : Nat) (k : Core) : (s.setCore c k).channels = s.channels := rfl
@[simp] theorem State.setCore_handles (s : State) (c : Nat) (k : Core) : (s.setCore c k).handles = s.handles := rfl
@[simp] theorem State.setCore_arrays (s : State) (c : Nat) (k : Core) : (s.setCore c k).arrays = s.arrays := rfl
@[simp] theorem State.setCore_stages (s : State) (c : Nat) (k : Core) : (s.setCore c k).stages = s.stages := rfl
@[simp] theorem State.setCore_keys (s : State) (c : Nat) (k : Core) : (s.setCore c k).keys = s.keys := rfl
@[simp] theorem State.setCore_beats (s : State) (c : Nat) (k : Core) : (s.setCore c k).beats = s.beats := rfl
@[simp] theorem State.setCore_scroll (s : State) (c : Nat) (k : Core) : (s.setCore c k).scroll = s.scroll := rfl
@[simp] theorem State.setCore_metered (s : State) (c : Nat) (k : Core) : (s.setCore c k).metered = s.metered := rfl
@[simp] theorem State.setCore_pages (s : State) (c : Nat) (k : Core) : (s.setCore c k).pages = s.pages := rfl
@[simp] theorem State.setCore_tables (s : State) (c : Nat) (k : Core) : (s.setCore c k).tables = s.tables := rfl
@[simp] theorem State.setCore_msixOn (s : State) (c : Nat) (k : Core) : (s.setCore c k).msixOn = s.msixOn := rfl
@[simp] theorem State.setCore_msixPend (s : State) (c : Nat) (k : Core) : (s.setCore c k).msixPend = s.msixPend := rfl
@[simp] theorem State.setCore_msixMsg (s : State) (c : Nat) (k : Core) : (s.setCore c k).msixMsg = s.msixMsg := rfl
@[simp] theorem State.setCore_busOut (s : State) (c : Nat) (k : Core) : (s.setCore c k).busOut = s.busOut := rfl
@[simp] theorem State.setCore_inbound (s : State) (c : Nat) (k : Core) : (s.setCore c k).inbound = s.inbound := rfl
@[simp] theorem State.setCore_results (s : State) (c : Nat) (k : Core) : (s.setCore c k).results = s.results := rfl
@[simp] theorem State.setCore_shared (s : State) (c : Nat) (k : Core) : (s.setCore c k).shared = s.shared := rfl
@[simp] theorem State.setCore_migFaults (s : State) (c : Nat) (k : Core) : (s.setCore c k).migFaults = s.migFaults := rfl
@[simp] theorem State.setCore_directory (s : State) (c : Nat) (k : Core) : (s.setCore c k).directory = s.directory := rfl
@[simp] theorem State.setCore_granted (s : State) (c : Nat) (k : Core) : (s.setCore c k).granted = s.granted := rfl
@[simp] theorem State.setCore_recalls (s : State) (c : Nat) (k : Core) : (s.setCore c k).recalls = s.recalls := rfl
@[simp] theorem State.setCore_conns (s : State) (c : Nat) (k : Core) : (s.setCore c k).conns = s.conns := rfl
@[simp] theorem State.setCore_links (s : State) (c : Nat) (k : Core) : (s.setCore c k).links = s.links := rfl
@[simp] theorem State.setCore_timeBase (s : State) (c : Nat) (k : Core) : (s.setCore c k).timeBase = s.timeBase := rfl
@[simp] theorem State.setCore_boot (s : State) (c : Nat) (k : Core) : (s.setCore c k).boot = s.boot := rfl
@[simp] theorem State.setCore_teleSel (s : State) (c : Nat) (k : Core) : (s.setCore c k).teleSel = s.teleSel := rfl
@[simp] theorem State.setCore_seu (s : State) (c : Nat) (k : Core) : (s.setCore c k).seu = s.seu := rfl
@[simp] theorem State.setCore_perr (s : State) (c : Nat) (k : Core) : (s.setCore c k).perr = s.perr := rfl
@[simp] theorem State.setCore_sensors (s : State) (c : Nat) (k : Core) : (s.setCore c k).sensors = s.sensors := rfl
@[simp] theorem State.setCore_debug (s : State) (c : Nat) (k : Core) : (s.setCore c k).debug = s.debug := rfl
@[simp] theorem State.setCore_debugWait (s : State) (c : Nat) (k : Core) : (s.setCore c k).debugWait = s.debugWait := rfl
@[simp] theorem State.setCore_debugWord (s : State) (c : Nat) (k : Core) : (s.setCore c k).debugWord = s.debugWord := rfl
@[simp] theorem State.setCore_failover (s : State) (c : Nat) (k : Core) : (s.setCore c k).failover = s.failover := rfl

@[simp] theorem State.updCore_mem (s : State) (c : Nat) (f : Core → Core) : (s.updCore c f).mem = s.mem := rfl
@[simp] theorem State.updCore_now (s : State) (c : Nat) (f : Core → Core) : (s.updCore c f).now = s.now := rfl
@[simp] theorem State.updCore_ctimeOff (s : State) (c : Nat) (f : Core → Core) : (s.updCore c f).ctimeOff = s.ctimeOff := rfl
@[simp] theorem State.updCore_agenda (s : State) (c : Nat) (f : Core → Core) : (s.updCore c f).agenda = s.agenda := rfl
@[simp] theorem State.updCore_turn (s : State) (c : Nat) (f : Core → Core) : (s.updCore c f).turn = s.turn := rfl
@[simp] theorem State.updCore_cur (s : State) (c : Nat) (f : Core → Core) : (s.updCore c f).cur = s.cur := rfl
@[simp] theorem State.updCore_free (s : State) (c : Nat) (f : Core → Core) : (s.updCore c f).free = s.free := rfl
@[simp] theorem State.updCore_uids (s : State) (c : Nat) (f : Core → Core) : (s.updCore c f).uids = s.uids := rfl
@[simp] theorem State.updCore_ids (s : State) (c : Nat) (f : Core → Core) : (s.updCore c f).ids = s.ids := rfl
@[simp] theorem State.updCore_parts (s : State) (c : Nat) (f : Core → Core) : (s.updCore c f).parts = s.parts := rfl
@[simp] theorem State.updCore_threads (s : State) (c : Nat) (f : Core → Core) : (s.updCore c f).threads = s.threads := rfl
@[simp] theorem State.updCore_msgs (s : State) (c : Nat) (f : Core → Core) : (s.updCore c f).msgs = s.msgs := rfl
@[simp] theorem State.updCore_launches (s : State) (c : Nat) (f : Core → Core) : (s.updCore c f).launches = s.launches := rfl
@[simp] theorem State.updCore_levels (s : State) (c : Nat) (f : Core → Core) : (s.updCore c f).levels = s.levels := rfl
@[simp] theorem State.updCore_frees (s : State) (c : Nat) (f : Core → Core) : (s.updCore c f).frees = s.frees := rfl
@[simp] theorem State.updCore_adm (s : State) (c : Nat) (f : Core → Core) : (s.updCore c f).adm = s.adm := rfl
@[simp] theorem State.updCore_admSeq (s : State) (c : Nat) (f : Core → Core) : (s.updCore c f).admSeq = s.admSeq := rfl
@[simp] theorem State.updCore_refills (s : State) (c : Nat) (f : Core → Core) : (s.updCore c f).refills = s.refills := rfl
@[simp] theorem State.updCore_elections (s : State) (c : Nat) (f : Core → Core) : (s.updCore c f).elections = s.elections := rfl
@[simp] theorem State.updCore_masters (s : State) (c : Nat) (f : Core → Core) : (s.updCore c f).masters = s.masters := rfl
@[simp] theorem State.updCore_pairs (s : State) (c : Nat) (f : Core → Core) : (s.updCore c f).pairs = s.pairs := rfl
@[simp] theorem State.updCore_sched (s : State) (c : Nat) (f : Core → Core) : (s.updCore c f).sched = s.sched := rfl
@[simp] theorem State.updCore_ctxs (s : State) (c : Nat) (f : Core → Core) : (s.updCore c f).ctxs = s.ctxs := rfl
@[simp] theorem State.updCore_floors (s : State) (c : Nat) (f : Core → Core) : (s.updCore c f).floors = s.floors := rfl
@[simp] theorem State.updCore_stamps (s : State) (c : Nat) (f : Core → Core) : (s.updCore c f).stamps = s.stamps := rfl
@[simp] theorem State.updCore_outcome (s : State) (c : Nat) (f : Core → Core) : (s.updCore c f).outcome = s.outcome := rfl
@[simp] theorem State.updCore_relFloors (s : State) (c : Nat) (f : Core → Core) : (s.updCore c f).relFloors = s.relFloors := rfl
@[simp] theorem State.updCore_regs (s : State) (c : Nat) (f : Core → Core) : (s.updCore c f).regs = s.regs := rfl
@[simp] theorem State.updCore_regLog (s : State) (c : Nat) (f : Core → Core) : (s.updCore c f).regLog = s.regLog := rfl
@[simp] theorem State.updCore_shares (s : State) (c : Nat) (f : Core → Core) : (s.updCore c f).shares = s.shares := rfl
@[simp] theorem State.updCore_sinks (s : State) (c : Nat) (f : Core → Core) : (s.updCore c f).sinks = s.sinks := rfl
@[simp] theorem State.updCore_held (s : State) (c : Nat) (f : Core → Core) : (s.updCore c f).held = s.held := rfl
@[simp] theorem State.updCore_reelNext (s : State) (c : Nat) (f : Core → Core) : (s.updCore c f).reelNext = s.reelNext := rfl
@[simp] theorem State.updCore_fenced (s : State) (c : Nat) (f : Core → Core) : (s.updCore c f).fenced = s.fenced := rfl
@[simp] theorem State.updCore_toFence (s : State) (c : Nat) (f : Core → Core) : (s.updCore c f).toFence = s.toFence := rfl
@[simp] theorem State.updCore_claims (s : State) (c : Nat) (f : Core → Core) : (s.updCore c f).claims = s.claims := rfl
@[simp] theorem State.updCore_notices (s : State) (c : Nat) (f : Core → Core) : (s.updCore c f).notices = s.notices := rfl
@[simp] theorem State.updCore_callProd (s : State) (c : Nat) (f : Core → Core) : (s.updCore c f).callProd = s.callProd := rfl
@[simp] theorem State.updCore_callCons (s : State) (c : Nat) (f : Core → Core) : (s.updCore c f).callCons = s.callCons := rfl
@[simp] theorem State.updCore_nodes (s : State) (c : Nat) (f : Core → Core) : (s.updCore c f).nodes = s.nodes := rfl
@[simp] theorem State.updCore_windows (s : State) (c : Nat) (f : Core → Core) : (s.updCore c f).windows = s.windows := rfl
@[simp] theorem State.updCore_caches (s : State) (c : Nat) (f : Core → Core) : (s.updCore c f).caches = s.caches := rfl
@[simp] theorem State.updCore_walks (s : State) (c : Nat) (f : Core → Core) : (s.updCore c f).walks = s.walks := rfl
@[simp] theorem State.updCore_treeQ (s : State) (c : Nat) (f : Core → Core) : (s.updCore c f).treeQ = s.treeQ := rfl
@[simp] theorem State.updCore_treeOps (s : State) (c : Nat) (f : Core → Core) : (s.updCore c f).treeOps = s.treeOps := rfl
@[simp] theorem State.updCore_reqs (s : State) (c : Nat) (f : Core → Core) : (s.updCore c f).reqs = s.reqs := rfl
@[simp] theorem State.updCore_channels (s : State) (c : Nat) (f : Core → Core) : (s.updCore c f).channels = s.channels := rfl
@[simp] theorem State.updCore_handles (s : State) (c : Nat) (f : Core → Core) : (s.updCore c f).handles = s.handles := rfl
@[simp] theorem State.updCore_arrays (s : State) (c : Nat) (f : Core → Core) : (s.updCore c f).arrays = s.arrays := rfl
@[simp] theorem State.updCore_stages (s : State) (c : Nat) (f : Core → Core) : (s.updCore c f).stages = s.stages := rfl
@[simp] theorem State.updCore_keys (s : State) (c : Nat) (f : Core → Core) : (s.updCore c f).keys = s.keys := rfl
@[simp] theorem State.updCore_beats (s : State) (c : Nat) (f : Core → Core) : (s.updCore c f).beats = s.beats := rfl
@[simp] theorem State.updCore_scroll (s : State) (c : Nat) (f : Core → Core) : (s.updCore c f).scroll = s.scroll := rfl
@[simp] theorem State.updCore_metered (s : State) (c : Nat) (f : Core → Core) : (s.updCore c f).metered = s.metered := rfl
@[simp] theorem State.updCore_pages (s : State) (c : Nat) (f : Core → Core) : (s.updCore c f).pages = s.pages := rfl
@[simp] theorem State.updCore_tables (s : State) (c : Nat) (f : Core → Core) : (s.updCore c f).tables = s.tables := rfl
@[simp] theorem State.updCore_msixOn (s : State) (c : Nat) (f : Core → Core) : (s.updCore c f).msixOn = s.msixOn := rfl
@[simp] theorem State.updCore_msixPend (s : State) (c : Nat) (f : Core → Core) : (s.updCore c f).msixPend = s.msixPend := rfl
@[simp] theorem State.updCore_msixMsg (s : State) (c : Nat) (f : Core → Core) : (s.updCore c f).msixMsg = s.msixMsg := rfl
@[simp] theorem State.updCore_busOut (s : State) (c : Nat) (f : Core → Core) : (s.updCore c f).busOut = s.busOut := rfl
@[simp] theorem State.updCore_inbound (s : State) (c : Nat) (f : Core → Core) : (s.updCore c f).inbound = s.inbound := rfl
@[simp] theorem State.updCore_results (s : State) (c : Nat) (f : Core → Core) : (s.updCore c f).results = s.results := rfl
@[simp] theorem State.updCore_shared (s : State) (c : Nat) (f : Core → Core) : (s.updCore c f).shared = s.shared := rfl
@[simp] theorem State.updCore_migFaults (s : State) (c : Nat) (f : Core → Core) : (s.updCore c f).migFaults = s.migFaults := rfl
@[simp] theorem State.updCore_directory (s : State) (c : Nat) (f : Core → Core) : (s.updCore c f).directory = s.directory := rfl
@[simp] theorem State.updCore_granted (s : State) (c : Nat) (f : Core → Core) : (s.updCore c f).granted = s.granted := rfl
@[simp] theorem State.updCore_recalls (s : State) (c : Nat) (f : Core → Core) : (s.updCore c f).recalls = s.recalls := rfl
@[simp] theorem State.updCore_conns (s : State) (c : Nat) (f : Core → Core) : (s.updCore c f).conns = s.conns := rfl
@[simp] theorem State.updCore_links (s : State) (c : Nat) (f : Core → Core) : (s.updCore c f).links = s.links := rfl
@[simp] theorem State.updCore_timeBase (s : State) (c : Nat) (f : Core → Core) : (s.updCore c f).timeBase = s.timeBase := rfl
@[simp] theorem State.updCore_boot (s : State) (c : Nat) (f : Core → Core) : (s.updCore c f).boot = s.boot := rfl
@[simp] theorem State.updCore_teleSel (s : State) (c : Nat) (f : Core → Core) : (s.updCore c f).teleSel = s.teleSel := rfl
@[simp] theorem State.updCore_seu (s : State) (c : Nat) (f : Core → Core) : (s.updCore c f).seu = s.seu := rfl
@[simp] theorem State.updCore_perr (s : State) (c : Nat) (f : Core → Core) : (s.updCore c f).perr = s.perr := rfl
@[simp] theorem State.updCore_sensors (s : State) (c : Nat) (f : Core → Core) : (s.updCore c f).sensors = s.sensors := rfl
@[simp] theorem State.updCore_debug (s : State) (c : Nat) (f : Core → Core) : (s.updCore c f).debug = s.debug := rfl
@[simp] theorem State.updCore_debugWait (s : State) (c : Nat) (f : Core → Core) : (s.updCore c f).debugWait = s.debugWait := rfl
@[simp] theorem State.updCore_debugWord (s : State) (c : Nat) (f : Core → Core) : (s.updCore c f).debugWord = s.debugWord := rfl
@[simp] theorem State.updCore_failover (s : State) (c : Nat) (f : Core → Core) : (s.updCore c f).failover = s.failover := rfl

@[simp] theorem State.updPair_mem (s : State) (p : Nat) (f : Pair → Pair) : (s.updPair p f).mem = s.mem := rfl
@[simp] theorem State.updPair_now (s : State) (p : Nat) (f : Pair → Pair) : (s.updPair p f).now = s.now := rfl
@[simp] theorem State.updPair_ctimeOff (s : State) (p : Nat) (f : Pair → Pair) : (s.updPair p f).ctimeOff = s.ctimeOff := rfl
@[simp] theorem State.updPair_agenda (s : State) (p : Nat) (f : Pair → Pair) : (s.updPair p f).agenda = s.agenda := rfl
@[simp] theorem State.updPair_turn (s : State) (p : Nat) (f : Pair → Pair) : (s.updPair p f).turn = s.turn := rfl
@[simp] theorem State.updPair_cur (s : State) (p : Nat) (f : Pair → Pair) : (s.updPair p f).cur = s.cur := rfl
@[simp] theorem State.updPair_free (s : State) (p : Nat) (f : Pair → Pair) : (s.updPair p f).free = s.free := rfl
@[simp] theorem State.updPair_uids (s : State) (p : Nat) (f : Pair → Pair) : (s.updPair p f).uids = s.uids := rfl
@[simp] theorem State.updPair_ids (s : State) (p : Nat) (f : Pair → Pair) : (s.updPair p f).ids = s.ids := rfl
@[simp] theorem State.updPair_parts (s : State) (p : Nat) (f : Pair → Pair) : (s.updPair p f).parts = s.parts := rfl
@[simp] theorem State.updPair_threads (s : State) (p : Nat) (f : Pair → Pair) : (s.updPair p f).threads = s.threads := rfl
@[simp] theorem State.updPair_cores (s : State) (p : Nat) (f : Pair → Pair) : (s.updPair p f).cores = s.cores := rfl
@[simp] theorem State.updPair_msgs (s : State) (p : Nat) (f : Pair → Pair) : (s.updPair p f).msgs = s.msgs := rfl
@[simp] theorem State.updPair_launches (s : State) (p : Nat) (f : Pair → Pair) : (s.updPair p f).launches = s.launches := rfl
@[simp] theorem State.updPair_levels (s : State) (p : Nat) (f : Pair → Pair) : (s.updPair p f).levels = s.levels := rfl
@[simp] theorem State.updPair_frees (s : State) (p : Nat) (f : Pair → Pair) : (s.updPair p f).frees = s.frees := rfl
@[simp] theorem State.updPair_adm (s : State) (p : Nat) (f : Pair → Pair) : (s.updPair p f).adm = s.adm := rfl
@[simp] theorem State.updPair_admSeq (s : State) (p : Nat) (f : Pair → Pair) : (s.updPair p f).admSeq = s.admSeq := rfl
@[simp] theorem State.updPair_refills (s : State) (p : Nat) (f : Pair → Pair) : (s.updPair p f).refills = s.refills := rfl
@[simp] theorem State.updPair_elections (s : State) (p : Nat) (f : Pair → Pair) : (s.updPair p f).elections = s.elections := rfl
@[simp] theorem State.updPair_masters (s : State) (p : Nat) (f : Pair → Pair) : (s.updPair p f).masters = s.masters := rfl
@[simp] theorem State.updPair_sched (s : State) (p : Nat) (f : Pair → Pair) : (s.updPair p f).sched = s.sched := rfl
@[simp] theorem State.updPair_ctxs (s : State) (p : Nat) (f : Pair → Pair) : (s.updPair p f).ctxs = s.ctxs := rfl
@[simp] theorem State.updPair_floors (s : State) (p : Nat) (f : Pair → Pair) : (s.updPair p f).floors = s.floors := rfl
@[simp] theorem State.updPair_stamps (s : State) (p : Nat) (f : Pair → Pair) : (s.updPair p f).stamps = s.stamps := rfl
@[simp] theorem State.updPair_outcome (s : State) (p : Nat) (f : Pair → Pair) : (s.updPair p f).outcome = s.outcome := rfl
@[simp] theorem State.updPair_relFloors (s : State) (p : Nat) (f : Pair → Pair) : (s.updPair p f).relFloors = s.relFloors := rfl
@[simp] theorem State.updPair_regs (s : State) (p : Nat) (f : Pair → Pair) : (s.updPair p f).regs = s.regs := rfl
@[simp] theorem State.updPair_regLog (s : State) (p : Nat) (f : Pair → Pair) : (s.updPair p f).regLog = s.regLog := rfl
@[simp] theorem State.updPair_shares (s : State) (p : Nat) (f : Pair → Pair) : (s.updPair p f).shares = s.shares := rfl
@[simp] theorem State.updPair_sinks (s : State) (p : Nat) (f : Pair → Pair) : (s.updPair p f).sinks = s.sinks := rfl
@[simp] theorem State.updPair_held (s : State) (p : Nat) (f : Pair → Pair) : (s.updPair p f).held = s.held := rfl
@[simp] theorem State.updPair_reelNext (s : State) (p : Nat) (f : Pair → Pair) : (s.updPair p f).reelNext = s.reelNext := rfl
@[simp] theorem State.updPair_fenced (s : State) (p : Nat) (f : Pair → Pair) : (s.updPair p f).fenced = s.fenced := rfl
@[simp] theorem State.updPair_toFence (s : State) (p : Nat) (f : Pair → Pair) : (s.updPair p f).toFence = s.toFence := rfl
@[simp] theorem State.updPair_claims (s : State) (p : Nat) (f : Pair → Pair) : (s.updPair p f).claims = s.claims := rfl
@[simp] theorem State.updPair_notices (s : State) (p : Nat) (f : Pair → Pair) : (s.updPair p f).notices = s.notices := rfl
@[simp] theorem State.updPair_callProd (s : State) (p : Nat) (f : Pair → Pair) : (s.updPair p f).callProd = s.callProd := rfl
@[simp] theorem State.updPair_callCons (s : State) (p : Nat) (f : Pair → Pair) : (s.updPair p f).callCons = s.callCons := rfl
@[simp] theorem State.updPair_nodes (s : State) (p : Nat) (f : Pair → Pair) : (s.updPair p f).nodes = s.nodes := rfl
@[simp] theorem State.updPair_windows (s : State) (p : Nat) (f : Pair → Pair) : (s.updPair p f).windows = s.windows := rfl
@[simp] theorem State.updPair_caches (s : State) (p : Nat) (f : Pair → Pair) : (s.updPair p f).caches = s.caches := rfl
@[simp] theorem State.updPair_walks (s : State) (p : Nat) (f : Pair → Pair) : (s.updPair p f).walks = s.walks := rfl
@[simp] theorem State.updPair_treeQ (s : State) (p : Nat) (f : Pair → Pair) : (s.updPair p f).treeQ = s.treeQ := rfl
@[simp] theorem State.updPair_treeOps (s : State) (p : Nat) (f : Pair → Pair) : (s.updPair p f).treeOps = s.treeOps := rfl
@[simp] theorem State.updPair_reqs (s : State) (p : Nat) (f : Pair → Pair) : (s.updPair p f).reqs = s.reqs := rfl
@[simp] theorem State.updPair_channels (s : State) (p : Nat) (f : Pair → Pair) : (s.updPair p f).channels = s.channels := rfl
@[simp] theorem State.updPair_handles (s : State) (p : Nat) (f : Pair → Pair) : (s.updPair p f).handles = s.handles := rfl
@[simp] theorem State.updPair_arrays (s : State) (p : Nat) (f : Pair → Pair) : (s.updPair p f).arrays = s.arrays := rfl
@[simp] theorem State.updPair_stages (s : State) (p : Nat) (f : Pair → Pair) : (s.updPair p f).stages = s.stages := rfl
@[simp] theorem State.updPair_keys (s : State) (p : Nat) (f : Pair → Pair) : (s.updPair p f).keys = s.keys := rfl
@[simp] theorem State.updPair_beats (s : State) (p : Nat) (f : Pair → Pair) : (s.updPair p f).beats = s.beats := rfl
@[simp] theorem State.updPair_scroll (s : State) (p : Nat) (f : Pair → Pair) : (s.updPair p f).scroll = s.scroll := rfl
@[simp] theorem State.updPair_metered (s : State) (p : Nat) (f : Pair → Pair) : (s.updPair p f).metered = s.metered := rfl
@[simp] theorem State.updPair_pages (s : State) (p : Nat) (f : Pair → Pair) : (s.updPair p f).pages = s.pages := rfl
@[simp] theorem State.updPair_tables (s : State) (p : Nat) (f : Pair → Pair) : (s.updPair p f).tables = s.tables := rfl
@[simp] theorem State.updPair_msixOn (s : State) (p : Nat) (f : Pair → Pair) : (s.updPair p f).msixOn = s.msixOn := rfl
@[simp] theorem State.updPair_msixPend (s : State) (p : Nat) (f : Pair → Pair) : (s.updPair p f).msixPend = s.msixPend := rfl
@[simp] theorem State.updPair_msixMsg (s : State) (p : Nat) (f : Pair → Pair) : (s.updPair p f).msixMsg = s.msixMsg := rfl
@[simp] theorem State.updPair_busOut (s : State) (p : Nat) (f : Pair → Pair) : (s.updPair p f).busOut = s.busOut := rfl
@[simp] theorem State.updPair_inbound (s : State) (p : Nat) (f : Pair → Pair) : (s.updPair p f).inbound = s.inbound := rfl
@[simp] theorem State.updPair_results (s : State) (p : Nat) (f : Pair → Pair) : (s.updPair p f).results = s.results := rfl
@[simp] theorem State.updPair_shared (s : State) (p : Nat) (f : Pair → Pair) : (s.updPair p f).shared = s.shared := rfl
@[simp] theorem State.updPair_migFaults (s : State) (p : Nat) (f : Pair → Pair) : (s.updPair p f).migFaults = s.migFaults := rfl
@[simp] theorem State.updPair_directory (s : State) (p : Nat) (f : Pair → Pair) : (s.updPair p f).directory = s.directory := rfl
@[simp] theorem State.updPair_granted (s : State) (p : Nat) (f : Pair → Pair) : (s.updPair p f).granted = s.granted := rfl
@[simp] theorem State.updPair_recalls (s : State) (p : Nat) (f : Pair → Pair) : (s.updPair p f).recalls = s.recalls := rfl
@[simp] theorem State.updPair_conns (s : State) (p : Nat) (f : Pair → Pair) : (s.updPair p f).conns = s.conns := rfl
@[simp] theorem State.updPair_links (s : State) (p : Nat) (f : Pair → Pair) : (s.updPair p f).links = s.links := rfl
@[simp] theorem State.updPair_timeBase (s : State) (p : Nat) (f : Pair → Pair) : (s.updPair p f).timeBase = s.timeBase := rfl
@[simp] theorem State.updPair_boot (s : State) (p : Nat) (f : Pair → Pair) : (s.updPair p f).boot = s.boot := rfl
@[simp] theorem State.updPair_teleSel (s : State) (p : Nat) (f : Pair → Pair) : (s.updPair p f).teleSel = s.teleSel := rfl
@[simp] theorem State.updPair_seu (s : State) (p : Nat) (f : Pair → Pair) : (s.updPair p f).seu = s.seu := rfl
@[simp] theorem State.updPair_perr (s : State) (p : Nat) (f : Pair → Pair) : (s.updPair p f).perr = s.perr := rfl
@[simp] theorem State.updPair_sensors (s : State) (p : Nat) (f : Pair → Pair) : (s.updPair p f).sensors = s.sensors := rfl
@[simp] theorem State.updPair_debug (s : State) (p : Nat) (f : Pair → Pair) : (s.updPair p f).debug = s.debug := rfl
@[simp] theorem State.updPair_debugWait (s : State) (p : Nat) (f : Pair → Pair) : (s.updPair p f).debugWait = s.debugWait := rfl
@[simp] theorem State.updPair_debugWord (s : State) (p : Nat) (f : Pair → Pair) : (s.updPair p f).debugWord = s.debugWord := rfl
@[simp] theorem State.updPair_failover (s : State) (p : Nat) (f : Pair → Pair) : (s.updPair p f).failover = s.failover := rfl

@[simp] theorem State.updSched_mem (s : State) (p : Nat) (f : Sched → Sched) : (s.updSched p f).mem = s.mem := rfl
@[simp] theorem State.updSched_now (s : State) (p : Nat) (f : Sched → Sched) : (s.updSched p f).now = s.now := rfl
@[simp] theorem State.updSched_ctimeOff (s : State) (p : Nat) (f : Sched → Sched) : (s.updSched p f).ctimeOff = s.ctimeOff := rfl
@[simp] theorem State.updSched_agenda (s : State) (p : Nat) (f : Sched → Sched) : (s.updSched p f).agenda = s.agenda := rfl
@[simp] theorem State.updSched_turn (s : State) (p : Nat) (f : Sched → Sched) : (s.updSched p f).turn = s.turn := rfl
@[simp] theorem State.updSched_cur (s : State) (p : Nat) (f : Sched → Sched) : (s.updSched p f).cur = s.cur := rfl
@[simp] theorem State.updSched_free (s : State) (p : Nat) (f : Sched → Sched) : (s.updSched p f).free = s.free := rfl
@[simp] theorem State.updSched_uids (s : State) (p : Nat) (f : Sched → Sched) : (s.updSched p f).uids = s.uids := rfl
@[simp] theorem State.updSched_ids (s : State) (p : Nat) (f : Sched → Sched) : (s.updSched p f).ids = s.ids := rfl
@[simp] theorem State.updSched_parts (s : State) (p : Nat) (f : Sched → Sched) : (s.updSched p f).parts = s.parts := rfl
@[simp] theorem State.updSched_threads (s : State) (p : Nat) (f : Sched → Sched) : (s.updSched p f).threads = s.threads := rfl
@[simp] theorem State.updSched_cores (s : State) (p : Nat) (f : Sched → Sched) : (s.updSched p f).cores = s.cores := rfl
@[simp] theorem State.updSched_msgs (s : State) (p : Nat) (f : Sched → Sched) : (s.updSched p f).msgs = s.msgs := rfl
@[simp] theorem State.updSched_launches (s : State) (p : Nat) (f : Sched → Sched) : (s.updSched p f).launches = s.launches := rfl
@[simp] theorem State.updSched_levels (s : State) (p : Nat) (f : Sched → Sched) : (s.updSched p f).levels = s.levels := rfl
@[simp] theorem State.updSched_frees (s : State) (p : Nat) (f : Sched → Sched) : (s.updSched p f).frees = s.frees := rfl
@[simp] theorem State.updSched_adm (s : State) (p : Nat) (f : Sched → Sched) : (s.updSched p f).adm = s.adm := rfl
@[simp] theorem State.updSched_admSeq (s : State) (p : Nat) (f : Sched → Sched) : (s.updSched p f).admSeq = s.admSeq := rfl
@[simp] theorem State.updSched_refills (s : State) (p : Nat) (f : Sched → Sched) : (s.updSched p f).refills = s.refills := rfl
@[simp] theorem State.updSched_elections (s : State) (p : Nat) (f : Sched → Sched) : (s.updSched p f).elections = s.elections := rfl
@[simp] theorem State.updSched_masters (s : State) (p : Nat) (f : Sched → Sched) : (s.updSched p f).masters = s.masters := rfl
@[simp] theorem State.updSched_pairs (s : State) (p : Nat) (f : Sched → Sched) : (s.updSched p f).pairs = s.pairs := rfl
@[simp] theorem State.updSched_ctxs (s : State) (p : Nat) (f : Sched → Sched) : (s.updSched p f).ctxs = s.ctxs := rfl
@[simp] theorem State.updSched_floors (s : State) (p : Nat) (f : Sched → Sched) : (s.updSched p f).floors = s.floors := rfl
@[simp] theorem State.updSched_stamps (s : State) (p : Nat) (f : Sched → Sched) : (s.updSched p f).stamps = s.stamps := rfl
@[simp] theorem State.updSched_outcome (s : State) (p : Nat) (f : Sched → Sched) : (s.updSched p f).outcome = s.outcome := rfl
@[simp] theorem State.updSched_relFloors (s : State) (p : Nat) (f : Sched → Sched) : (s.updSched p f).relFloors = s.relFloors := rfl
@[simp] theorem State.updSched_regs (s : State) (p : Nat) (f : Sched → Sched) : (s.updSched p f).regs = s.regs := rfl
@[simp] theorem State.updSched_regLog (s : State) (p : Nat) (f : Sched → Sched) : (s.updSched p f).regLog = s.regLog := rfl
@[simp] theorem State.updSched_shares (s : State) (p : Nat) (f : Sched → Sched) : (s.updSched p f).shares = s.shares := rfl
@[simp] theorem State.updSched_sinks (s : State) (p : Nat) (f : Sched → Sched) : (s.updSched p f).sinks = s.sinks := rfl
@[simp] theorem State.updSched_held (s : State) (p : Nat) (f : Sched → Sched) : (s.updSched p f).held = s.held := rfl
@[simp] theorem State.updSched_reelNext (s : State) (p : Nat) (f : Sched → Sched) : (s.updSched p f).reelNext = s.reelNext := rfl
@[simp] theorem State.updSched_fenced (s : State) (p : Nat) (f : Sched → Sched) : (s.updSched p f).fenced = s.fenced := rfl
@[simp] theorem State.updSched_toFence (s : State) (p : Nat) (f : Sched → Sched) : (s.updSched p f).toFence = s.toFence := rfl
@[simp] theorem State.updSched_claims (s : State) (p : Nat) (f : Sched → Sched) : (s.updSched p f).claims = s.claims := rfl
@[simp] theorem State.updSched_notices (s : State) (p : Nat) (f : Sched → Sched) : (s.updSched p f).notices = s.notices := rfl
@[simp] theorem State.updSched_callProd (s : State) (p : Nat) (f : Sched → Sched) : (s.updSched p f).callProd = s.callProd := rfl
@[simp] theorem State.updSched_callCons (s : State) (p : Nat) (f : Sched → Sched) : (s.updSched p f).callCons = s.callCons := rfl
@[simp] theorem State.updSched_nodes (s : State) (p : Nat) (f : Sched → Sched) : (s.updSched p f).nodes = s.nodes := rfl
@[simp] theorem State.updSched_windows (s : State) (p : Nat) (f : Sched → Sched) : (s.updSched p f).windows = s.windows := rfl
@[simp] theorem State.updSched_caches (s : State) (p : Nat) (f : Sched → Sched) : (s.updSched p f).caches = s.caches := rfl
@[simp] theorem State.updSched_walks (s : State) (p : Nat) (f : Sched → Sched) : (s.updSched p f).walks = s.walks := rfl
@[simp] theorem State.updSched_treeQ (s : State) (p : Nat) (f : Sched → Sched) : (s.updSched p f).treeQ = s.treeQ := rfl
@[simp] theorem State.updSched_treeOps (s : State) (p : Nat) (f : Sched → Sched) : (s.updSched p f).treeOps = s.treeOps := rfl
@[simp] theorem State.updSched_reqs (s : State) (p : Nat) (f : Sched → Sched) : (s.updSched p f).reqs = s.reqs := rfl
@[simp] theorem State.updSched_channels (s : State) (p : Nat) (f : Sched → Sched) : (s.updSched p f).channels = s.channels := rfl
@[simp] theorem State.updSched_handles (s : State) (p : Nat) (f : Sched → Sched) : (s.updSched p f).handles = s.handles := rfl
@[simp] theorem State.updSched_arrays (s : State) (p : Nat) (f : Sched → Sched) : (s.updSched p f).arrays = s.arrays := rfl
@[simp] theorem State.updSched_stages (s : State) (p : Nat) (f : Sched → Sched) : (s.updSched p f).stages = s.stages := rfl
@[simp] theorem State.updSched_keys (s : State) (p : Nat) (f : Sched → Sched) : (s.updSched p f).keys = s.keys := rfl
@[simp] theorem State.updSched_beats (s : State) (p : Nat) (f : Sched → Sched) : (s.updSched p f).beats = s.beats := rfl
@[simp] theorem State.updSched_scroll (s : State) (p : Nat) (f : Sched → Sched) : (s.updSched p f).scroll = s.scroll := rfl
@[simp] theorem State.updSched_metered (s : State) (p : Nat) (f : Sched → Sched) : (s.updSched p f).metered = s.metered := rfl
@[simp] theorem State.updSched_pages (s : State) (p : Nat) (f : Sched → Sched) : (s.updSched p f).pages = s.pages := rfl
@[simp] theorem State.updSched_tables (s : State) (p : Nat) (f : Sched → Sched) : (s.updSched p f).tables = s.tables := rfl
@[simp] theorem State.updSched_msixOn (s : State) (p : Nat) (f : Sched → Sched) : (s.updSched p f).msixOn = s.msixOn := rfl
@[simp] theorem State.updSched_msixPend (s : State) (p : Nat) (f : Sched → Sched) : (s.updSched p f).msixPend = s.msixPend := rfl
@[simp] theorem State.updSched_msixMsg (s : State) (p : Nat) (f : Sched → Sched) : (s.updSched p f).msixMsg = s.msixMsg := rfl
@[simp] theorem State.updSched_busOut (s : State) (p : Nat) (f : Sched → Sched) : (s.updSched p f).busOut = s.busOut := rfl
@[simp] theorem State.updSched_inbound (s : State) (p : Nat) (f : Sched → Sched) : (s.updSched p f).inbound = s.inbound := rfl
@[simp] theorem State.updSched_results (s : State) (p : Nat) (f : Sched → Sched) : (s.updSched p f).results = s.results := rfl
@[simp] theorem State.updSched_shared (s : State) (p : Nat) (f : Sched → Sched) : (s.updSched p f).shared = s.shared := rfl
@[simp] theorem State.updSched_migFaults (s : State) (p : Nat) (f : Sched → Sched) : (s.updSched p f).migFaults = s.migFaults := rfl
@[simp] theorem State.updSched_directory (s : State) (p : Nat) (f : Sched → Sched) : (s.updSched p f).directory = s.directory := rfl
@[simp] theorem State.updSched_granted (s : State) (p : Nat) (f : Sched → Sched) : (s.updSched p f).granted = s.granted := rfl
@[simp] theorem State.updSched_recalls (s : State) (p : Nat) (f : Sched → Sched) : (s.updSched p f).recalls = s.recalls := rfl
@[simp] theorem State.updSched_conns (s : State) (p : Nat) (f : Sched → Sched) : (s.updSched p f).conns = s.conns := rfl
@[simp] theorem State.updSched_links (s : State) (p : Nat) (f : Sched → Sched) : (s.updSched p f).links = s.links := rfl
@[simp] theorem State.updSched_timeBase (s : State) (p : Nat) (f : Sched → Sched) : (s.updSched p f).timeBase = s.timeBase := rfl
@[simp] theorem State.updSched_boot (s : State) (p : Nat) (f : Sched → Sched) : (s.updSched p f).boot = s.boot := rfl
@[simp] theorem State.updSched_teleSel (s : State) (p : Nat) (f : Sched → Sched) : (s.updSched p f).teleSel = s.teleSel := rfl
@[simp] theorem State.updSched_seu (s : State) (p : Nat) (f : Sched → Sched) : (s.updSched p f).seu = s.seu := rfl
@[simp] theorem State.updSched_perr (s : State) (p : Nat) (f : Sched → Sched) : (s.updSched p f).perr = s.perr := rfl
@[simp] theorem State.updSched_sensors (s : State) (p : Nat) (f : Sched → Sched) : (s.updSched p f).sensors = s.sensors := rfl
@[simp] theorem State.updSched_debug (s : State) (p : Nat) (f : Sched → Sched) : (s.updSched p f).debug = s.debug := rfl
@[simp] theorem State.updSched_debugWait (s : State) (p : Nat) (f : Sched → Sched) : (s.updSched p f).debugWait = s.debugWait := rfl
@[simp] theorem State.updSched_debugWord (s : State) (p : Nat) (f : Sched → Sched) : (s.updSched p f).debugWord = s.debugWord := rfl
@[simp] theorem State.updSched_failover (s : State) (p : Nat) (f : Sched → Sched) : (s.updSched p f).failover = s.failover := rfl

@[simp] theorem State.setLaunch_mem (s : State) (p t : Nat) (l : Launch) : (s.setLaunch p t l).mem = s.mem := rfl
@[simp] theorem State.setLaunch_now (s : State) (p t : Nat) (l : Launch) : (s.setLaunch p t l).now = s.now := rfl
@[simp] theorem State.setLaunch_ctimeOff (s : State) (p t : Nat) (l : Launch) : (s.setLaunch p t l).ctimeOff = s.ctimeOff := rfl
@[simp] theorem State.setLaunch_agenda (s : State) (p t : Nat) (l : Launch) : (s.setLaunch p t l).agenda = s.agenda := rfl
@[simp] theorem State.setLaunch_turn (s : State) (p t : Nat) (l : Launch) : (s.setLaunch p t l).turn = s.turn := rfl
@[simp] theorem State.setLaunch_cur (s : State) (p t : Nat) (l : Launch) : (s.setLaunch p t l).cur = s.cur := rfl
@[simp] theorem State.setLaunch_free (s : State) (p t : Nat) (l : Launch) : (s.setLaunch p t l).free = s.free := rfl
@[simp] theorem State.setLaunch_uids (s : State) (p t : Nat) (l : Launch) : (s.setLaunch p t l).uids = s.uids := rfl
@[simp] theorem State.setLaunch_ids (s : State) (p t : Nat) (l : Launch) : (s.setLaunch p t l).ids = s.ids := rfl
@[simp] theorem State.setLaunch_parts (s : State) (p t : Nat) (l : Launch) : (s.setLaunch p t l).parts = s.parts := rfl
@[simp] theorem State.setLaunch_threads (s : State) (p t : Nat) (l : Launch) : (s.setLaunch p t l).threads = s.threads := rfl
@[simp] theorem State.setLaunch_cores (s : State) (p t : Nat) (l : Launch) : (s.setLaunch p t l).cores = s.cores := rfl
@[simp] theorem State.setLaunch_msgs (s : State) (p t : Nat) (l : Launch) : (s.setLaunch p t l).msgs = s.msgs := rfl
@[simp] theorem State.setLaunch_levels (s : State) (p t : Nat) (l : Launch) : (s.setLaunch p t l).levels = s.levels := rfl
@[simp] theorem State.setLaunch_frees (s : State) (p t : Nat) (l : Launch) : (s.setLaunch p t l).frees = s.frees := rfl
@[simp] theorem State.setLaunch_adm (s : State) (p t : Nat) (l : Launch) : (s.setLaunch p t l).adm = s.adm := rfl
@[simp] theorem State.setLaunch_admSeq (s : State) (p t : Nat) (l : Launch) : (s.setLaunch p t l).admSeq = s.admSeq := rfl
@[simp] theorem State.setLaunch_refills (s : State) (p t : Nat) (l : Launch) : (s.setLaunch p t l).refills = s.refills := rfl
@[simp] theorem State.setLaunch_elections (s : State) (p t : Nat) (l : Launch) : (s.setLaunch p t l).elections = s.elections := rfl
@[simp] theorem State.setLaunch_masters (s : State) (p t : Nat) (l : Launch) : (s.setLaunch p t l).masters = s.masters := rfl
@[simp] theorem State.setLaunch_pairs (s : State) (p t : Nat) (l : Launch) : (s.setLaunch p t l).pairs = s.pairs := rfl
@[simp] theorem State.setLaunch_sched (s : State) (p t : Nat) (l : Launch) : (s.setLaunch p t l).sched = s.sched := rfl
@[simp] theorem State.setLaunch_ctxs (s : State) (p t : Nat) (l : Launch) : (s.setLaunch p t l).ctxs = s.ctxs := rfl
@[simp] theorem State.setLaunch_floors (s : State) (p t : Nat) (l : Launch) : (s.setLaunch p t l).floors = s.floors := rfl
@[simp] theorem State.setLaunch_stamps (s : State) (p t : Nat) (l : Launch) : (s.setLaunch p t l).stamps = s.stamps := rfl
@[simp] theorem State.setLaunch_outcome (s : State) (p t : Nat) (l : Launch) : (s.setLaunch p t l).outcome = s.outcome := rfl
@[simp] theorem State.setLaunch_relFloors (s : State) (p t : Nat) (l : Launch) : (s.setLaunch p t l).relFloors = s.relFloors := rfl
@[simp] theorem State.setLaunch_regs (s : State) (p t : Nat) (l : Launch) : (s.setLaunch p t l).regs = s.regs := rfl
@[simp] theorem State.setLaunch_regLog (s : State) (p t : Nat) (l : Launch) : (s.setLaunch p t l).regLog = s.regLog := rfl
@[simp] theorem State.setLaunch_shares (s : State) (p t : Nat) (l : Launch) : (s.setLaunch p t l).shares = s.shares := rfl
@[simp] theorem State.setLaunch_sinks (s : State) (p t : Nat) (l : Launch) : (s.setLaunch p t l).sinks = s.sinks := rfl
@[simp] theorem State.setLaunch_held (s : State) (p t : Nat) (l : Launch) : (s.setLaunch p t l).held = s.held := rfl
@[simp] theorem State.setLaunch_reelNext (s : State) (p t : Nat) (l : Launch) : (s.setLaunch p t l).reelNext = s.reelNext := rfl
@[simp] theorem State.setLaunch_fenced (s : State) (p t : Nat) (l : Launch) : (s.setLaunch p t l).fenced = s.fenced := rfl
@[simp] theorem State.setLaunch_toFence (s : State) (p t : Nat) (l : Launch) : (s.setLaunch p t l).toFence = s.toFence := rfl
@[simp] theorem State.setLaunch_claims (s : State) (p t : Nat) (l : Launch) : (s.setLaunch p t l).claims = s.claims := rfl
@[simp] theorem State.setLaunch_notices (s : State) (p t : Nat) (l : Launch) : (s.setLaunch p t l).notices = s.notices := rfl
@[simp] theorem State.setLaunch_callProd (s : State) (p t : Nat) (l : Launch) : (s.setLaunch p t l).callProd = s.callProd := rfl
@[simp] theorem State.setLaunch_callCons (s : State) (p t : Nat) (l : Launch) : (s.setLaunch p t l).callCons = s.callCons := rfl
@[simp] theorem State.setLaunch_nodes (s : State) (p t : Nat) (l : Launch) : (s.setLaunch p t l).nodes = s.nodes := rfl
@[simp] theorem State.setLaunch_windows (s : State) (p t : Nat) (l : Launch) : (s.setLaunch p t l).windows = s.windows := rfl
@[simp] theorem State.setLaunch_caches (s : State) (p t : Nat) (l : Launch) : (s.setLaunch p t l).caches = s.caches := rfl
@[simp] theorem State.setLaunch_walks (s : State) (p t : Nat) (l : Launch) : (s.setLaunch p t l).walks = s.walks := rfl
@[simp] theorem State.setLaunch_treeQ (s : State) (p t : Nat) (l : Launch) : (s.setLaunch p t l).treeQ = s.treeQ := rfl
@[simp] theorem State.setLaunch_treeOps (s : State) (p t : Nat) (l : Launch) : (s.setLaunch p t l).treeOps = s.treeOps := rfl
@[simp] theorem State.setLaunch_reqs (s : State) (p t : Nat) (l : Launch) : (s.setLaunch p t l).reqs = s.reqs := rfl
@[simp] theorem State.setLaunch_channels (s : State) (p t : Nat) (l : Launch) : (s.setLaunch p t l).channels = s.channels := rfl
@[simp] theorem State.setLaunch_handles (s : State) (p t : Nat) (l : Launch) : (s.setLaunch p t l).handles = s.handles := rfl
@[simp] theorem State.setLaunch_arrays (s : State) (p t : Nat) (l : Launch) : (s.setLaunch p t l).arrays = s.arrays := rfl
@[simp] theorem State.setLaunch_stages (s : State) (p t : Nat) (l : Launch) : (s.setLaunch p t l).stages = s.stages := rfl
@[simp] theorem State.setLaunch_keys (s : State) (p t : Nat) (l : Launch) : (s.setLaunch p t l).keys = s.keys := rfl
@[simp] theorem State.setLaunch_beats (s : State) (p t : Nat) (l : Launch) : (s.setLaunch p t l).beats = s.beats := rfl
@[simp] theorem State.setLaunch_scroll (s : State) (p t : Nat) (l : Launch) : (s.setLaunch p t l).scroll = s.scroll := rfl
@[simp] theorem State.setLaunch_metered (s : State) (p t : Nat) (l : Launch) : (s.setLaunch p t l).metered = s.metered := rfl
@[simp] theorem State.setLaunch_pages (s : State) (p t : Nat) (l : Launch) : (s.setLaunch p t l).pages = s.pages := rfl
@[simp] theorem State.setLaunch_tables (s : State) (p t : Nat) (l : Launch) : (s.setLaunch p t l).tables = s.tables := rfl
@[simp] theorem State.setLaunch_msixOn (s : State) (p t : Nat) (l : Launch) : (s.setLaunch p t l).msixOn = s.msixOn := rfl
@[simp] theorem State.setLaunch_msixPend (s : State) (p t : Nat) (l : Launch) : (s.setLaunch p t l).msixPend = s.msixPend := rfl
@[simp] theorem State.setLaunch_msixMsg (s : State) (p t : Nat) (l : Launch) : (s.setLaunch p t l).msixMsg = s.msixMsg := rfl
@[simp] theorem State.setLaunch_busOut (s : State) (p t : Nat) (l : Launch) : (s.setLaunch p t l).busOut = s.busOut := rfl
@[simp] theorem State.setLaunch_inbound (s : State) (p t : Nat) (l : Launch) : (s.setLaunch p t l).inbound = s.inbound := rfl
@[simp] theorem State.setLaunch_results (s : State) (p t : Nat) (l : Launch) : (s.setLaunch p t l).results = s.results := rfl
@[simp] theorem State.setLaunch_shared (s : State) (p t : Nat) (l : Launch) : (s.setLaunch p t l).shared = s.shared := rfl
@[simp] theorem State.setLaunch_migFaults (s : State) (p t : Nat) (l : Launch) : (s.setLaunch p t l).migFaults = s.migFaults := rfl
@[simp] theorem State.setLaunch_directory (s : State) (p t : Nat) (l : Launch) : (s.setLaunch p t l).directory = s.directory := rfl
@[simp] theorem State.setLaunch_granted (s : State) (p t : Nat) (l : Launch) : (s.setLaunch p t l).granted = s.granted := rfl
@[simp] theorem State.setLaunch_recalls (s : State) (p t : Nat) (l : Launch) : (s.setLaunch p t l).recalls = s.recalls := rfl
@[simp] theorem State.setLaunch_conns (s : State) (p t : Nat) (l : Launch) : (s.setLaunch p t l).conns = s.conns := rfl
@[simp] theorem State.setLaunch_links (s : State) (p t : Nat) (l : Launch) : (s.setLaunch p t l).links = s.links := rfl
@[simp] theorem State.setLaunch_timeBase (s : State) (p t : Nat) (l : Launch) : (s.setLaunch p t l).timeBase = s.timeBase := rfl
@[simp] theorem State.setLaunch_boot (s : State) (p t : Nat) (l : Launch) : (s.setLaunch p t l).boot = s.boot := rfl
@[simp] theorem State.setLaunch_teleSel (s : State) (p t : Nat) (l : Launch) : (s.setLaunch p t l).teleSel = s.teleSel := rfl
@[simp] theorem State.setLaunch_seu (s : State) (p t : Nat) (l : Launch) : (s.setLaunch p t l).seu = s.seu := rfl
@[simp] theorem State.setLaunch_perr (s : State) (p t : Nat) (l : Launch) : (s.setLaunch p t l).perr = s.perr := rfl
@[simp] theorem State.setLaunch_sensors (s : State) (p t : Nat) (l : Launch) : (s.setLaunch p t l).sensors = s.sensors := rfl
@[simp] theorem State.setLaunch_debug (s : State) (p t : Nat) (l : Launch) : (s.setLaunch p t l).debug = s.debug := rfl
@[simp] theorem State.setLaunch_debugWait (s : State) (p t : Nat) (l : Launch) : (s.setLaunch p t l).debugWait = s.debugWait := rfl
@[simp] theorem State.setLaunch_debugWord (s : State) (p t : Nat) (l : Launch) : (s.setLaunch p t l).debugWord = s.debugWord := rfl
@[simp] theorem State.setLaunch_failover (s : State) (p t : Nat) (l : Launch) : (s.setLaunch p t l).failover = s.failover := rfl

@[simp] theorem State.updLaunch_mem (s : State) (p t : Nat) (f : Launch → Launch) : (s.updLaunch p t f).mem = s.mem := rfl
@[simp] theorem State.updLaunch_now (s : State) (p t : Nat) (f : Launch → Launch) : (s.updLaunch p t f).now = s.now := rfl
@[simp] theorem State.updLaunch_ctimeOff (s : State) (p t : Nat) (f : Launch → Launch) : (s.updLaunch p t f).ctimeOff = s.ctimeOff := rfl
@[simp] theorem State.updLaunch_agenda (s : State) (p t : Nat) (f : Launch → Launch) : (s.updLaunch p t f).agenda = s.agenda := rfl
@[simp] theorem State.updLaunch_turn (s : State) (p t : Nat) (f : Launch → Launch) : (s.updLaunch p t f).turn = s.turn := rfl
@[simp] theorem State.updLaunch_cur (s : State) (p t : Nat) (f : Launch → Launch) : (s.updLaunch p t f).cur = s.cur := rfl
@[simp] theorem State.updLaunch_free (s : State) (p t : Nat) (f : Launch → Launch) : (s.updLaunch p t f).free = s.free := rfl
@[simp] theorem State.updLaunch_uids (s : State) (p t : Nat) (f : Launch → Launch) : (s.updLaunch p t f).uids = s.uids := rfl
@[simp] theorem State.updLaunch_ids (s : State) (p t : Nat) (f : Launch → Launch) : (s.updLaunch p t f).ids = s.ids := rfl
@[simp] theorem State.updLaunch_parts (s : State) (p t : Nat) (f : Launch → Launch) : (s.updLaunch p t f).parts = s.parts := rfl
@[simp] theorem State.updLaunch_threads (s : State) (p t : Nat) (f : Launch → Launch) : (s.updLaunch p t f).threads = s.threads := rfl
@[simp] theorem State.updLaunch_cores (s : State) (p t : Nat) (f : Launch → Launch) : (s.updLaunch p t f).cores = s.cores := rfl
@[simp] theorem State.updLaunch_msgs (s : State) (p t : Nat) (f : Launch → Launch) : (s.updLaunch p t f).msgs = s.msgs := rfl
@[simp] theorem State.updLaunch_levels (s : State) (p t : Nat) (f : Launch → Launch) : (s.updLaunch p t f).levels = s.levels := rfl
@[simp] theorem State.updLaunch_frees (s : State) (p t : Nat) (f : Launch → Launch) : (s.updLaunch p t f).frees = s.frees := rfl
@[simp] theorem State.updLaunch_adm (s : State) (p t : Nat) (f : Launch → Launch) : (s.updLaunch p t f).adm = s.adm := rfl
@[simp] theorem State.updLaunch_admSeq (s : State) (p t : Nat) (f : Launch → Launch) : (s.updLaunch p t f).admSeq = s.admSeq := rfl
@[simp] theorem State.updLaunch_refills (s : State) (p t : Nat) (f : Launch → Launch) : (s.updLaunch p t f).refills = s.refills := rfl
@[simp] theorem State.updLaunch_elections (s : State) (p t : Nat) (f : Launch → Launch) : (s.updLaunch p t f).elections = s.elections := rfl
@[simp] theorem State.updLaunch_masters (s : State) (p t : Nat) (f : Launch → Launch) : (s.updLaunch p t f).masters = s.masters := rfl
@[simp] theorem State.updLaunch_pairs (s : State) (p t : Nat) (f : Launch → Launch) : (s.updLaunch p t f).pairs = s.pairs := rfl
@[simp] theorem State.updLaunch_sched (s : State) (p t : Nat) (f : Launch → Launch) : (s.updLaunch p t f).sched = s.sched := rfl
@[simp] theorem State.updLaunch_ctxs (s : State) (p t : Nat) (f : Launch → Launch) : (s.updLaunch p t f).ctxs = s.ctxs := rfl
@[simp] theorem State.updLaunch_floors (s : State) (p t : Nat) (f : Launch → Launch) : (s.updLaunch p t f).floors = s.floors := rfl
@[simp] theorem State.updLaunch_stamps (s : State) (p t : Nat) (f : Launch → Launch) : (s.updLaunch p t f).stamps = s.stamps := rfl
@[simp] theorem State.updLaunch_outcome (s : State) (p t : Nat) (f : Launch → Launch) : (s.updLaunch p t f).outcome = s.outcome := rfl
@[simp] theorem State.updLaunch_relFloors (s : State) (p t : Nat) (f : Launch → Launch) : (s.updLaunch p t f).relFloors = s.relFloors := rfl
@[simp] theorem State.updLaunch_regs (s : State) (p t : Nat) (f : Launch → Launch) : (s.updLaunch p t f).regs = s.regs := rfl
@[simp] theorem State.updLaunch_regLog (s : State) (p t : Nat) (f : Launch → Launch) : (s.updLaunch p t f).regLog = s.regLog := rfl
@[simp] theorem State.updLaunch_shares (s : State) (p t : Nat) (f : Launch → Launch) : (s.updLaunch p t f).shares = s.shares := rfl
@[simp] theorem State.updLaunch_sinks (s : State) (p t : Nat) (f : Launch → Launch) : (s.updLaunch p t f).sinks = s.sinks := rfl
@[simp] theorem State.updLaunch_held (s : State) (p t : Nat) (f : Launch → Launch) : (s.updLaunch p t f).held = s.held := rfl
@[simp] theorem State.updLaunch_reelNext (s : State) (p t : Nat) (f : Launch → Launch) : (s.updLaunch p t f).reelNext = s.reelNext := rfl
@[simp] theorem State.updLaunch_fenced (s : State) (p t : Nat) (f : Launch → Launch) : (s.updLaunch p t f).fenced = s.fenced := rfl
@[simp] theorem State.updLaunch_toFence (s : State) (p t : Nat) (f : Launch → Launch) : (s.updLaunch p t f).toFence = s.toFence := rfl
@[simp] theorem State.updLaunch_claims (s : State) (p t : Nat) (f : Launch → Launch) : (s.updLaunch p t f).claims = s.claims := rfl
@[simp] theorem State.updLaunch_notices (s : State) (p t : Nat) (f : Launch → Launch) : (s.updLaunch p t f).notices = s.notices := rfl
@[simp] theorem State.updLaunch_callProd (s : State) (p t : Nat) (f : Launch → Launch) : (s.updLaunch p t f).callProd = s.callProd := rfl
@[simp] theorem State.updLaunch_callCons (s : State) (p t : Nat) (f : Launch → Launch) : (s.updLaunch p t f).callCons = s.callCons := rfl
@[simp] theorem State.updLaunch_nodes (s : State) (p t : Nat) (f : Launch → Launch) : (s.updLaunch p t f).nodes = s.nodes := rfl
@[simp] theorem State.updLaunch_windows (s : State) (p t : Nat) (f : Launch → Launch) : (s.updLaunch p t f).windows = s.windows := rfl
@[simp] theorem State.updLaunch_caches (s : State) (p t : Nat) (f : Launch → Launch) : (s.updLaunch p t f).caches = s.caches := rfl
@[simp] theorem State.updLaunch_walks (s : State) (p t : Nat) (f : Launch → Launch) : (s.updLaunch p t f).walks = s.walks := rfl
@[simp] theorem State.updLaunch_treeQ (s : State) (p t : Nat) (f : Launch → Launch) : (s.updLaunch p t f).treeQ = s.treeQ := rfl
@[simp] theorem State.updLaunch_treeOps (s : State) (p t : Nat) (f : Launch → Launch) : (s.updLaunch p t f).treeOps = s.treeOps := rfl
@[simp] theorem State.updLaunch_reqs (s : State) (p t : Nat) (f : Launch → Launch) : (s.updLaunch p t f).reqs = s.reqs := rfl
@[simp] theorem State.updLaunch_channels (s : State) (p t : Nat) (f : Launch → Launch) : (s.updLaunch p t f).channels = s.channels := rfl
@[simp] theorem State.updLaunch_handles (s : State) (p t : Nat) (f : Launch → Launch) : (s.updLaunch p t f).handles = s.handles := rfl
@[simp] theorem State.updLaunch_arrays (s : State) (p t : Nat) (f : Launch → Launch) : (s.updLaunch p t f).arrays = s.arrays := rfl
@[simp] theorem State.updLaunch_stages (s : State) (p t : Nat) (f : Launch → Launch) : (s.updLaunch p t f).stages = s.stages := rfl
@[simp] theorem State.updLaunch_keys (s : State) (p t : Nat) (f : Launch → Launch) : (s.updLaunch p t f).keys = s.keys := rfl
@[simp] theorem State.updLaunch_beats (s : State) (p t : Nat) (f : Launch → Launch) : (s.updLaunch p t f).beats = s.beats := rfl
@[simp] theorem State.updLaunch_scroll (s : State) (p t : Nat) (f : Launch → Launch) : (s.updLaunch p t f).scroll = s.scroll := rfl
@[simp] theorem State.updLaunch_metered (s : State) (p t : Nat) (f : Launch → Launch) : (s.updLaunch p t f).metered = s.metered := rfl
@[simp] theorem State.updLaunch_pages (s : State) (p t : Nat) (f : Launch → Launch) : (s.updLaunch p t f).pages = s.pages := rfl
@[simp] theorem State.updLaunch_tables (s : State) (p t : Nat) (f : Launch → Launch) : (s.updLaunch p t f).tables = s.tables := rfl
@[simp] theorem State.updLaunch_msixOn (s : State) (p t : Nat) (f : Launch → Launch) : (s.updLaunch p t f).msixOn = s.msixOn := rfl
@[simp] theorem State.updLaunch_msixPend (s : State) (p t : Nat) (f : Launch → Launch) : (s.updLaunch p t f).msixPend = s.msixPend := rfl
@[simp] theorem State.updLaunch_msixMsg (s : State) (p t : Nat) (f : Launch → Launch) : (s.updLaunch p t f).msixMsg = s.msixMsg := rfl
@[simp] theorem State.updLaunch_busOut (s : State) (p t : Nat) (f : Launch → Launch) : (s.updLaunch p t f).busOut = s.busOut := rfl
@[simp] theorem State.updLaunch_inbound (s : State) (p t : Nat) (f : Launch → Launch) : (s.updLaunch p t f).inbound = s.inbound := rfl
@[simp] theorem State.updLaunch_results (s : State) (p t : Nat) (f : Launch → Launch) : (s.updLaunch p t f).results = s.results := rfl
@[simp] theorem State.updLaunch_shared (s : State) (p t : Nat) (f : Launch → Launch) : (s.updLaunch p t f).shared = s.shared := rfl
@[simp] theorem State.updLaunch_migFaults (s : State) (p t : Nat) (f : Launch → Launch) : (s.updLaunch p t f).migFaults = s.migFaults := rfl
@[simp] theorem State.updLaunch_directory (s : State) (p t : Nat) (f : Launch → Launch) : (s.updLaunch p t f).directory = s.directory := rfl
@[simp] theorem State.updLaunch_granted (s : State) (p t : Nat) (f : Launch → Launch) : (s.updLaunch p t f).granted = s.granted := rfl
@[simp] theorem State.updLaunch_recalls (s : State) (p t : Nat) (f : Launch → Launch) : (s.updLaunch p t f).recalls = s.recalls := rfl
@[simp] theorem State.updLaunch_conns (s : State) (p t : Nat) (f : Launch → Launch) : (s.updLaunch p t f).conns = s.conns := rfl
@[simp] theorem State.updLaunch_links (s : State) (p t : Nat) (f : Launch → Launch) : (s.updLaunch p t f).links = s.links := rfl
@[simp] theorem State.updLaunch_timeBase (s : State) (p t : Nat) (f : Launch → Launch) : (s.updLaunch p t f).timeBase = s.timeBase := rfl
@[simp] theorem State.updLaunch_boot (s : State) (p t : Nat) (f : Launch → Launch) : (s.updLaunch p t f).boot = s.boot := rfl
@[simp] theorem State.updLaunch_teleSel (s : State) (p t : Nat) (f : Launch → Launch) : (s.updLaunch p t f).teleSel = s.teleSel := rfl
@[simp] theorem State.updLaunch_seu (s : State) (p t : Nat) (f : Launch → Launch) : (s.updLaunch p t f).seu = s.seu := rfl
@[simp] theorem State.updLaunch_perr (s : State) (p t : Nat) (f : Launch → Launch) : (s.updLaunch p t f).perr = s.perr := rfl
@[simp] theorem State.updLaunch_sensors (s : State) (p t : Nat) (f : Launch → Launch) : (s.updLaunch p t f).sensors = s.sensors := rfl
@[simp] theorem State.updLaunch_debug (s : State) (p t : Nat) (f : Launch → Launch) : (s.updLaunch p t f).debug = s.debug := rfl
@[simp] theorem State.updLaunch_debugWait (s : State) (p t : Nat) (f : Launch → Launch) : (s.updLaunch p t f).debugWait = s.debugWait := rfl
@[simp] theorem State.updLaunch_debugWord (s : State) (p t : Nat) (f : Launch → Launch) : (s.updLaunch p t f).debugWord = s.debugWord := rfl
@[simp] theorem State.updLaunch_failover (s : State) (p t : Nat) (f : Launch → Launch) : (s.updLaunch p t f).failover = s.failover := rfl

@[simp] theorem State.updLevel_mem (s : State) (l p i : Nat) (f : Level → Level) : (s.updLevel l p i f).mem = s.mem := rfl
@[simp] theorem State.updLevel_now (s : State) (l p i : Nat) (f : Level → Level) : (s.updLevel l p i f).now = s.now := rfl
@[simp] theorem State.updLevel_ctimeOff (s : State) (l p i : Nat) (f : Level → Level) : (s.updLevel l p i f).ctimeOff = s.ctimeOff := rfl
@[simp] theorem State.updLevel_agenda (s : State) (l p i : Nat) (f : Level → Level) : (s.updLevel l p i f).agenda = s.agenda := rfl
@[simp] theorem State.updLevel_turn (s : State) (l p i : Nat) (f : Level → Level) : (s.updLevel l p i f).turn = s.turn := rfl
@[simp] theorem State.updLevel_cur (s : State) (l p i : Nat) (f : Level → Level) : (s.updLevel l p i f).cur = s.cur := rfl
@[simp] theorem State.updLevel_free (s : State) (l p i : Nat) (f : Level → Level) : (s.updLevel l p i f).free = s.free := rfl
@[simp] theorem State.updLevel_uids (s : State) (l p i : Nat) (f : Level → Level) : (s.updLevel l p i f).uids = s.uids := rfl
@[simp] theorem State.updLevel_ids (s : State) (l p i : Nat) (f : Level → Level) : (s.updLevel l p i f).ids = s.ids := rfl
@[simp] theorem State.updLevel_parts (s : State) (l p i : Nat) (f : Level → Level) : (s.updLevel l p i f).parts = s.parts := rfl
@[simp] theorem State.updLevel_threads (s : State) (l p i : Nat) (f : Level → Level) : (s.updLevel l p i f).threads = s.threads := rfl
@[simp] theorem State.updLevel_cores (s : State) (l p i : Nat) (f : Level → Level) : (s.updLevel l p i f).cores = s.cores := rfl
@[simp] theorem State.updLevel_msgs (s : State) (l p i : Nat) (f : Level → Level) : (s.updLevel l p i f).msgs = s.msgs := rfl
@[simp] theorem State.updLevel_launches (s : State) (l p i : Nat) (f : Level → Level) : (s.updLevel l p i f).launches = s.launches := rfl
@[simp] theorem State.updLevel_frees (s : State) (l p i : Nat) (f : Level → Level) : (s.updLevel l p i f).frees = s.frees := rfl
@[simp] theorem State.updLevel_adm (s : State) (l p i : Nat) (f : Level → Level) : (s.updLevel l p i f).adm = s.adm := rfl
@[simp] theorem State.updLevel_admSeq (s : State) (l p i : Nat) (f : Level → Level) : (s.updLevel l p i f).admSeq = s.admSeq := rfl
@[simp] theorem State.updLevel_refills (s : State) (l p i : Nat) (f : Level → Level) : (s.updLevel l p i f).refills = s.refills := rfl
@[simp] theorem State.updLevel_elections (s : State) (l p i : Nat) (f : Level → Level) : (s.updLevel l p i f).elections = s.elections := rfl
@[simp] theorem State.updLevel_masters (s : State) (l p i : Nat) (f : Level → Level) : (s.updLevel l p i f).masters = s.masters := rfl
@[simp] theorem State.updLevel_pairs (s : State) (l p i : Nat) (f : Level → Level) : (s.updLevel l p i f).pairs = s.pairs := rfl
@[simp] theorem State.updLevel_sched (s : State) (l p i : Nat) (f : Level → Level) : (s.updLevel l p i f).sched = s.sched := rfl
@[simp] theorem State.updLevel_ctxs (s : State) (l p i : Nat) (f : Level → Level) : (s.updLevel l p i f).ctxs = s.ctxs := rfl
@[simp] theorem State.updLevel_floors (s : State) (l p i : Nat) (f : Level → Level) : (s.updLevel l p i f).floors = s.floors := rfl
@[simp] theorem State.updLevel_stamps (s : State) (l p i : Nat) (f : Level → Level) : (s.updLevel l p i f).stamps = s.stamps := rfl
@[simp] theorem State.updLevel_outcome (s : State) (l p i : Nat) (f : Level → Level) : (s.updLevel l p i f).outcome = s.outcome := rfl
@[simp] theorem State.updLevel_relFloors (s : State) (l p i : Nat) (f : Level → Level) : (s.updLevel l p i f).relFloors = s.relFloors := rfl
@[simp] theorem State.updLevel_regs (s : State) (l p i : Nat) (f : Level → Level) : (s.updLevel l p i f).regs = s.regs := rfl
@[simp] theorem State.updLevel_regLog (s : State) (l p i : Nat) (f : Level → Level) : (s.updLevel l p i f).regLog = s.regLog := rfl
@[simp] theorem State.updLevel_shares (s : State) (l p i : Nat) (f : Level → Level) : (s.updLevel l p i f).shares = s.shares := rfl
@[simp] theorem State.updLevel_sinks (s : State) (l p i : Nat) (f : Level → Level) : (s.updLevel l p i f).sinks = s.sinks := rfl
@[simp] theorem State.updLevel_held (s : State) (l p i : Nat) (f : Level → Level) : (s.updLevel l p i f).held = s.held := rfl
@[simp] theorem State.updLevel_reelNext (s : State) (l p i : Nat) (f : Level → Level) : (s.updLevel l p i f).reelNext = s.reelNext := rfl
@[simp] theorem State.updLevel_fenced (s : State) (l p i : Nat) (f : Level → Level) : (s.updLevel l p i f).fenced = s.fenced := rfl
@[simp] theorem State.updLevel_toFence (s : State) (l p i : Nat) (f : Level → Level) : (s.updLevel l p i f).toFence = s.toFence := rfl
@[simp] theorem State.updLevel_claims (s : State) (l p i : Nat) (f : Level → Level) : (s.updLevel l p i f).claims = s.claims := rfl
@[simp] theorem State.updLevel_notices (s : State) (l p i : Nat) (f : Level → Level) : (s.updLevel l p i f).notices = s.notices := rfl
@[simp] theorem State.updLevel_callProd (s : State) (l p i : Nat) (f : Level → Level) : (s.updLevel l p i f).callProd = s.callProd := rfl
@[simp] theorem State.updLevel_callCons (s : State) (l p i : Nat) (f : Level → Level) : (s.updLevel l p i f).callCons = s.callCons := rfl
@[simp] theorem State.updLevel_nodes (s : State) (l p i : Nat) (f : Level → Level) : (s.updLevel l p i f).nodes = s.nodes := rfl
@[simp] theorem State.updLevel_windows (s : State) (l p i : Nat) (f : Level → Level) : (s.updLevel l p i f).windows = s.windows := rfl
@[simp] theorem State.updLevel_caches (s : State) (l p i : Nat) (f : Level → Level) : (s.updLevel l p i f).caches = s.caches := rfl
@[simp] theorem State.updLevel_walks (s : State) (l p i : Nat) (f : Level → Level) : (s.updLevel l p i f).walks = s.walks := rfl
@[simp] theorem State.updLevel_treeQ (s : State) (l p i : Nat) (f : Level → Level) : (s.updLevel l p i f).treeQ = s.treeQ := rfl
@[simp] theorem State.updLevel_treeOps (s : State) (l p i : Nat) (f : Level → Level) : (s.updLevel l p i f).treeOps = s.treeOps := rfl
@[simp] theorem State.updLevel_reqs (s : State) (l p i : Nat) (f : Level → Level) : (s.updLevel l p i f).reqs = s.reqs := rfl
@[simp] theorem State.updLevel_channels (s : State) (l p i : Nat) (f : Level → Level) : (s.updLevel l p i f).channels = s.channels := rfl
@[simp] theorem State.updLevel_handles (s : State) (l p i : Nat) (f : Level → Level) : (s.updLevel l p i f).handles = s.handles := rfl
@[simp] theorem State.updLevel_arrays (s : State) (l p i : Nat) (f : Level → Level) : (s.updLevel l p i f).arrays = s.arrays := rfl
@[simp] theorem State.updLevel_stages (s : State) (l p i : Nat) (f : Level → Level) : (s.updLevel l p i f).stages = s.stages := rfl
@[simp] theorem State.updLevel_keys (s : State) (l p i : Nat) (f : Level → Level) : (s.updLevel l p i f).keys = s.keys := rfl
@[simp] theorem State.updLevel_beats (s : State) (l p i : Nat) (f : Level → Level) : (s.updLevel l p i f).beats = s.beats := rfl
@[simp] theorem State.updLevel_scroll (s : State) (l p i : Nat) (f : Level → Level) : (s.updLevel l p i f).scroll = s.scroll := rfl
@[simp] theorem State.updLevel_metered (s : State) (l p i : Nat) (f : Level → Level) : (s.updLevel l p i f).metered = s.metered := rfl
@[simp] theorem State.updLevel_pages (s : State) (l p i : Nat) (f : Level → Level) : (s.updLevel l p i f).pages = s.pages := rfl
@[simp] theorem State.updLevel_tables (s : State) (l p i : Nat) (f : Level → Level) : (s.updLevel l p i f).tables = s.tables := rfl
@[simp] theorem State.updLevel_msixOn (s : State) (l p i : Nat) (f : Level → Level) : (s.updLevel l p i f).msixOn = s.msixOn := rfl
@[simp] theorem State.updLevel_msixPend (s : State) (l p i : Nat) (f : Level → Level) : (s.updLevel l p i f).msixPend = s.msixPend := rfl
@[simp] theorem State.updLevel_msixMsg (s : State) (l p i : Nat) (f : Level → Level) : (s.updLevel l p i f).msixMsg = s.msixMsg := rfl
@[simp] theorem State.updLevel_busOut (s : State) (l p i : Nat) (f : Level → Level) : (s.updLevel l p i f).busOut = s.busOut := rfl
@[simp] theorem State.updLevel_inbound (s : State) (l p i : Nat) (f : Level → Level) : (s.updLevel l p i f).inbound = s.inbound := rfl
@[simp] theorem State.updLevel_results (s : State) (l p i : Nat) (f : Level → Level) : (s.updLevel l p i f).results = s.results := rfl
@[simp] theorem State.updLevel_shared (s : State) (l p i : Nat) (f : Level → Level) : (s.updLevel l p i f).shared = s.shared := rfl
@[simp] theorem State.updLevel_migFaults (s : State) (l p i : Nat) (f : Level → Level) : (s.updLevel l p i f).migFaults = s.migFaults := rfl
@[simp] theorem State.updLevel_directory (s : State) (l p i : Nat) (f : Level → Level) : (s.updLevel l p i f).directory = s.directory := rfl
@[simp] theorem State.updLevel_granted (s : State) (l p i : Nat) (f : Level → Level) : (s.updLevel l p i f).granted = s.granted := rfl
@[simp] theorem State.updLevel_recalls (s : State) (l p i : Nat) (f : Level → Level) : (s.updLevel l p i f).recalls = s.recalls := rfl
@[simp] theorem State.updLevel_conns (s : State) (l p i : Nat) (f : Level → Level) : (s.updLevel l p i f).conns = s.conns := rfl
@[simp] theorem State.updLevel_links (s : State) (l p i : Nat) (f : Level → Level) : (s.updLevel l p i f).links = s.links := rfl
@[simp] theorem State.updLevel_timeBase (s : State) (l p i : Nat) (f : Level → Level) : (s.updLevel l p i f).timeBase = s.timeBase := rfl
@[simp] theorem State.updLevel_boot (s : State) (l p i : Nat) (f : Level → Level) : (s.updLevel l p i f).boot = s.boot := rfl
@[simp] theorem State.updLevel_teleSel (s : State) (l p i : Nat) (f : Level → Level) : (s.updLevel l p i f).teleSel = s.teleSel := rfl
@[simp] theorem State.updLevel_seu (s : State) (l p i : Nat) (f : Level → Level) : (s.updLevel l p i f).seu = s.seu := rfl
@[simp] theorem State.updLevel_perr (s : State) (l p i : Nat) (f : Level → Level) : (s.updLevel l p i f).perr = s.perr := rfl
@[simp] theorem State.updLevel_sensors (s : State) (l p i : Nat) (f : Level → Level) : (s.updLevel l p i f).sensors = s.sensors := rfl
@[simp] theorem State.updLevel_debug (s : State) (l p i : Nat) (f : Level → Level) : (s.updLevel l p i f).debug = s.debug := rfl
@[simp] theorem State.updLevel_debugWait (s : State) (l p i : Nat) (f : Level → Level) : (s.updLevel l p i f).debugWait = s.debugWait := rfl
@[simp] theorem State.updLevel_debugWord (s : State) (l p i : Nat) (f : Level → Level) : (s.updLevel l p i f).debugWord = s.debugWord := rfl
@[simp] theorem State.updLevel_failover (s : State) (l p i : Nat) (f : Level → Level) : (s.updLevel l p i f).failover = s.failover := rfl

@[simp] theorem State.setFloor_mem (s : State) (src v : Nat) : (s.setFloor src v).mem = s.mem := rfl
@[simp] theorem State.setFloor_now (s : State) (src v : Nat) : (s.setFloor src v).now = s.now := rfl
@[simp] theorem State.setFloor_ctimeOff (s : State) (src v : Nat) : (s.setFloor src v).ctimeOff = s.ctimeOff := rfl
@[simp] theorem State.setFloor_agenda (s : State) (src v : Nat) : (s.setFloor src v).agenda = s.agenda := rfl
@[simp] theorem State.setFloor_turn (s : State) (src v : Nat) : (s.setFloor src v).turn = s.turn := rfl
@[simp] theorem State.setFloor_cur (s : State) (src v : Nat) : (s.setFloor src v).cur = s.cur := rfl
@[simp] theorem State.setFloor_free (s : State) (src v : Nat) : (s.setFloor src v).free = s.free := rfl
@[simp] theorem State.setFloor_uids (s : State) (src v : Nat) : (s.setFloor src v).uids = s.uids := rfl
@[simp] theorem State.setFloor_ids (s : State) (src v : Nat) : (s.setFloor src v).ids = s.ids := rfl
@[simp] theorem State.setFloor_parts (s : State) (src v : Nat) : (s.setFloor src v).parts = s.parts := rfl
@[simp] theorem State.setFloor_threads (s : State) (src v : Nat) : (s.setFloor src v).threads = s.threads := rfl
@[simp] theorem State.setFloor_cores (s : State) (src v : Nat) : (s.setFloor src v).cores = s.cores := rfl
@[simp] theorem State.setFloor_msgs (s : State) (src v : Nat) : (s.setFloor src v).msgs = s.msgs := rfl
@[simp] theorem State.setFloor_launches (s : State) (src v : Nat) : (s.setFloor src v).launches = s.launches := rfl
@[simp] theorem State.setFloor_levels (s : State) (src v : Nat) : (s.setFloor src v).levels = s.levels := rfl
@[simp] theorem State.setFloor_frees (s : State) (src v : Nat) : (s.setFloor src v).frees = s.frees := rfl
@[simp] theorem State.setFloor_adm (s : State) (src v : Nat) : (s.setFloor src v).adm = s.adm := rfl
@[simp] theorem State.setFloor_admSeq (s : State) (src v : Nat) : (s.setFloor src v).admSeq = s.admSeq := rfl
@[simp] theorem State.setFloor_refills (s : State) (src v : Nat) : (s.setFloor src v).refills = s.refills := rfl
@[simp] theorem State.setFloor_elections (s : State) (src v : Nat) : (s.setFloor src v).elections = s.elections := rfl
@[simp] theorem State.setFloor_masters (s : State) (src v : Nat) : (s.setFloor src v).masters = s.masters := rfl
@[simp] theorem State.setFloor_pairs (s : State) (src v : Nat) : (s.setFloor src v).pairs = s.pairs := rfl
@[simp] theorem State.setFloor_sched (s : State) (src v : Nat) : (s.setFloor src v).sched = s.sched := rfl
@[simp] theorem State.setFloor_ctxs (s : State) (src v : Nat) : (s.setFloor src v).ctxs = s.ctxs := rfl
@[simp] theorem State.setFloor_stamps (s : State) (src v : Nat) : (s.setFloor src v).stamps = s.stamps := rfl
@[simp] theorem State.setFloor_outcome (s : State) (src v : Nat) : (s.setFloor src v).outcome = s.outcome := rfl
@[simp] theorem State.setFloor_relFloors (s : State) (src v : Nat) : (s.setFloor src v).relFloors = s.relFloors := rfl
@[simp] theorem State.setFloor_regs (s : State) (src v : Nat) : (s.setFloor src v).regs = s.regs := rfl
@[simp] theorem State.setFloor_regLog (s : State) (src v : Nat) : (s.setFloor src v).regLog = s.regLog := rfl
@[simp] theorem State.setFloor_shares (s : State) (src v : Nat) : (s.setFloor src v).shares = s.shares := rfl
@[simp] theorem State.setFloor_sinks (s : State) (src v : Nat) : (s.setFloor src v).sinks = s.sinks := rfl
@[simp] theorem State.setFloor_held (s : State) (src v : Nat) : (s.setFloor src v).held = s.held := rfl
@[simp] theorem State.setFloor_reelNext (s : State) (src v : Nat) : (s.setFloor src v).reelNext = s.reelNext := rfl
@[simp] theorem State.setFloor_fenced (s : State) (src v : Nat) : (s.setFloor src v).fenced = s.fenced := rfl
@[simp] theorem State.setFloor_toFence (s : State) (src v : Nat) : (s.setFloor src v).toFence = s.toFence := rfl
@[simp] theorem State.setFloor_claims (s : State) (src v : Nat) : (s.setFloor src v).claims = s.claims := rfl
@[simp] theorem State.setFloor_notices (s : State) (src v : Nat) : (s.setFloor src v).notices = s.notices := rfl
@[simp] theorem State.setFloor_callProd (s : State) (src v : Nat) : (s.setFloor src v).callProd = s.callProd := rfl
@[simp] theorem State.setFloor_callCons (s : State) (src v : Nat) : (s.setFloor src v).callCons = s.callCons := rfl
@[simp] theorem State.setFloor_nodes (s : State) (src v : Nat) : (s.setFloor src v).nodes = s.nodes := rfl
@[simp] theorem State.setFloor_windows (s : State) (src v : Nat) : (s.setFloor src v).windows = s.windows := rfl
@[simp] theorem State.setFloor_caches (s : State) (src v : Nat) : (s.setFloor src v).caches = s.caches := rfl
@[simp] theorem State.setFloor_walks (s : State) (src v : Nat) : (s.setFloor src v).walks = s.walks := rfl
@[simp] theorem State.setFloor_treeQ (s : State) (src v : Nat) : (s.setFloor src v).treeQ = s.treeQ := rfl
@[simp] theorem State.setFloor_treeOps (s : State) (src v : Nat) : (s.setFloor src v).treeOps = s.treeOps := rfl
@[simp] theorem State.setFloor_reqs (s : State) (src v : Nat) : (s.setFloor src v).reqs = s.reqs := rfl
@[simp] theorem State.setFloor_channels (s : State) (src v : Nat) : (s.setFloor src v).channels = s.channels := rfl
@[simp] theorem State.setFloor_handles (s : State) (src v : Nat) : (s.setFloor src v).handles = s.handles := rfl
@[simp] theorem State.setFloor_arrays (s : State) (src v : Nat) : (s.setFloor src v).arrays = s.arrays := rfl
@[simp] theorem State.setFloor_stages (s : State) (src v : Nat) : (s.setFloor src v).stages = s.stages := rfl
@[simp] theorem State.setFloor_keys (s : State) (src v : Nat) : (s.setFloor src v).keys = s.keys := rfl
@[simp] theorem State.setFloor_beats (s : State) (src v : Nat) : (s.setFloor src v).beats = s.beats := rfl
@[simp] theorem State.setFloor_scroll (s : State) (src v : Nat) : (s.setFloor src v).scroll = s.scroll := rfl
@[simp] theorem State.setFloor_metered (s : State) (src v : Nat) : (s.setFloor src v).metered = s.metered := rfl
@[simp] theorem State.setFloor_pages (s : State) (src v : Nat) : (s.setFloor src v).pages = s.pages := rfl
@[simp] theorem State.setFloor_tables (s : State) (src v : Nat) : (s.setFloor src v).tables = s.tables := rfl
@[simp] theorem State.setFloor_msixOn (s : State) (src v : Nat) : (s.setFloor src v).msixOn = s.msixOn := rfl
@[simp] theorem State.setFloor_msixPend (s : State) (src v : Nat) : (s.setFloor src v).msixPend = s.msixPend := rfl
@[simp] theorem State.setFloor_msixMsg (s : State) (src v : Nat) : (s.setFloor src v).msixMsg = s.msixMsg := rfl
@[simp] theorem State.setFloor_busOut (s : State) (src v : Nat) : (s.setFloor src v).busOut = s.busOut := rfl
@[simp] theorem State.setFloor_inbound (s : State) (src v : Nat) : (s.setFloor src v).inbound = s.inbound := rfl
@[simp] theorem State.setFloor_results (s : State) (src v : Nat) : (s.setFloor src v).results = s.results := rfl
@[simp] theorem State.setFloor_shared (s : State) (src v : Nat) : (s.setFloor src v).shared = s.shared := rfl
@[simp] theorem State.setFloor_migFaults (s : State) (src v : Nat) : (s.setFloor src v).migFaults = s.migFaults := rfl
@[simp] theorem State.setFloor_directory (s : State) (src v : Nat) : (s.setFloor src v).directory = s.directory := rfl
@[simp] theorem State.setFloor_granted (s : State) (src v : Nat) : (s.setFloor src v).granted = s.granted := rfl
@[simp] theorem State.setFloor_recalls (s : State) (src v : Nat) : (s.setFloor src v).recalls = s.recalls := rfl
@[simp] theorem State.setFloor_conns (s : State) (src v : Nat) : (s.setFloor src v).conns = s.conns := rfl
@[simp] theorem State.setFloor_links (s : State) (src v : Nat) : (s.setFloor src v).links = s.links := rfl
@[simp] theorem State.setFloor_timeBase (s : State) (src v : Nat) : (s.setFloor src v).timeBase = s.timeBase := rfl
@[simp] theorem State.setFloor_boot (s : State) (src v : Nat) : (s.setFloor src v).boot = s.boot := rfl
@[simp] theorem State.setFloor_teleSel (s : State) (src v : Nat) : (s.setFloor src v).teleSel = s.teleSel := rfl
@[simp] theorem State.setFloor_seu (s : State) (src v : Nat) : (s.setFloor src v).seu = s.seu := rfl
@[simp] theorem State.setFloor_perr (s : State) (src v : Nat) : (s.setFloor src v).perr = s.perr := rfl
@[simp] theorem State.setFloor_sensors (s : State) (src v : Nat) : (s.setFloor src v).sensors = s.sensors := rfl
@[simp] theorem State.setFloor_debug (s : State) (src v : Nat) : (s.setFloor src v).debug = s.debug := rfl
@[simp] theorem State.setFloor_debugWait (s : State) (src v : Nat) : (s.setFloor src v).debugWait = s.debugWait := rfl
@[simp] theorem State.setFloor_debugWord (s : State) (src v : Nat) : (s.setFloor src v).debugWord = s.debugWord := rfl
@[simp] theorem State.setFloor_failover (s : State) (src v : Nat) : (s.setFloor src v).failover = s.failover := rfl

@[simp] theorem State.setReg_mem (s : State) (r : SysReg) (o d : Nat) (v : Word) : (s.setReg r o d v).mem = s.mem := rfl
@[simp] theorem State.setReg_now (s : State) (r : SysReg) (o d : Nat) (v : Word) : (s.setReg r o d v).now = s.now := rfl
@[simp] theorem State.setReg_ctimeOff (s : State) (r : SysReg) (o d : Nat) (v : Word) : (s.setReg r o d v).ctimeOff = s.ctimeOff := rfl
@[simp] theorem State.setReg_agenda (s : State) (r : SysReg) (o d : Nat) (v : Word) : (s.setReg r o d v).agenda = s.agenda := rfl
@[simp] theorem State.setReg_turn (s : State) (r : SysReg) (o d : Nat) (v : Word) : (s.setReg r o d v).turn = s.turn := rfl
@[simp] theorem State.setReg_cur (s : State) (r : SysReg) (o d : Nat) (v : Word) : (s.setReg r o d v).cur = s.cur := rfl
@[simp] theorem State.setReg_free (s : State) (r : SysReg) (o d : Nat) (v : Word) : (s.setReg r o d v).free = s.free := rfl
@[simp] theorem State.setReg_uids (s : State) (r : SysReg) (o d : Nat) (v : Word) : (s.setReg r o d v).uids = s.uids := rfl
@[simp] theorem State.setReg_ids (s : State) (r : SysReg) (o d : Nat) (v : Word) : (s.setReg r o d v).ids = s.ids := rfl
@[simp] theorem State.setReg_parts (s : State) (r : SysReg) (o d : Nat) (v : Word) : (s.setReg r o d v).parts = s.parts := rfl
@[simp] theorem State.setReg_threads (s : State) (r : SysReg) (o d : Nat) (v : Word) : (s.setReg r o d v).threads = s.threads := rfl
@[simp] theorem State.setReg_cores (s : State) (r : SysReg) (o d : Nat) (v : Word) : (s.setReg r o d v).cores = s.cores := rfl
@[simp] theorem State.setReg_msgs (s : State) (r : SysReg) (o d : Nat) (v : Word) : (s.setReg r o d v).msgs = s.msgs := rfl
@[simp] theorem State.setReg_launches (s : State) (r : SysReg) (o d : Nat) (v : Word) : (s.setReg r o d v).launches = s.launches := rfl
@[simp] theorem State.setReg_levels (s : State) (r : SysReg) (o d : Nat) (v : Word) : (s.setReg r o d v).levels = s.levels := rfl
@[simp] theorem State.setReg_frees (s : State) (r : SysReg) (o d : Nat) (v : Word) : (s.setReg r o d v).frees = s.frees := rfl
@[simp] theorem State.setReg_adm (s : State) (r : SysReg) (o d : Nat) (v : Word) : (s.setReg r o d v).adm = s.adm := rfl
@[simp] theorem State.setReg_admSeq (s : State) (r : SysReg) (o d : Nat) (v : Word) : (s.setReg r o d v).admSeq = s.admSeq := rfl
@[simp] theorem State.setReg_refills (s : State) (r : SysReg) (o d : Nat) (v : Word) : (s.setReg r o d v).refills = s.refills := rfl
@[simp] theorem State.setReg_elections (s : State) (r : SysReg) (o d : Nat) (v : Word) : (s.setReg r o d v).elections = s.elections := rfl
@[simp] theorem State.setReg_masters (s : State) (r : SysReg) (o d : Nat) (v : Word) : (s.setReg r o d v).masters = s.masters := rfl
@[simp] theorem State.setReg_pairs (s : State) (r : SysReg) (o d : Nat) (v : Word) : (s.setReg r o d v).pairs = s.pairs := rfl
@[simp] theorem State.setReg_sched (s : State) (r : SysReg) (o d : Nat) (v : Word) : (s.setReg r o d v).sched = s.sched := rfl
@[simp] theorem State.setReg_ctxs (s : State) (r : SysReg) (o d : Nat) (v : Word) : (s.setReg r o d v).ctxs = s.ctxs := rfl
@[simp] theorem State.setReg_floors (s : State) (r : SysReg) (o d : Nat) (v : Word) : (s.setReg r o d v).floors = s.floors := rfl
@[simp] theorem State.setReg_stamps (s : State) (r : SysReg) (o d : Nat) (v : Word) : (s.setReg r o d v).stamps = s.stamps := rfl
@[simp] theorem State.setReg_outcome (s : State) (r : SysReg) (o d : Nat) (v : Word) : (s.setReg r o d v).outcome = s.outcome := rfl
@[simp] theorem State.setReg_relFloors (s : State) (r : SysReg) (o d : Nat) (v : Word) : (s.setReg r o d v).relFloors = s.relFloors := rfl
@[simp] theorem State.setReg_regLog (s : State) (r : SysReg) (o d : Nat) (v : Word) : (s.setReg r o d v).regLog = s.regLog := rfl
@[simp] theorem State.setReg_shares (s : State) (r : SysReg) (o d : Nat) (v : Word) : (s.setReg r o d v).shares = s.shares := rfl
@[simp] theorem State.setReg_sinks (s : State) (r : SysReg) (o d : Nat) (v : Word) : (s.setReg r o d v).sinks = s.sinks := rfl
@[simp] theorem State.setReg_held (s : State) (r : SysReg) (o d : Nat) (v : Word) : (s.setReg r o d v).held = s.held := rfl
@[simp] theorem State.setReg_reelNext (s : State) (r : SysReg) (o d : Nat) (v : Word) : (s.setReg r o d v).reelNext = s.reelNext := rfl
@[simp] theorem State.setReg_fenced (s : State) (r : SysReg) (o d : Nat) (v : Word) : (s.setReg r o d v).fenced = s.fenced := rfl
@[simp] theorem State.setReg_toFence (s : State) (r : SysReg) (o d : Nat) (v : Word) : (s.setReg r o d v).toFence = s.toFence := rfl
@[simp] theorem State.setReg_claims (s : State) (r : SysReg) (o d : Nat) (v : Word) : (s.setReg r o d v).claims = s.claims := rfl
@[simp] theorem State.setReg_notices (s : State) (r : SysReg) (o d : Nat) (v : Word) : (s.setReg r o d v).notices = s.notices := rfl
@[simp] theorem State.setReg_callProd (s : State) (r : SysReg) (o d : Nat) (v : Word) : (s.setReg r o d v).callProd = s.callProd := rfl
@[simp] theorem State.setReg_callCons (s : State) (r : SysReg) (o d : Nat) (v : Word) : (s.setReg r o d v).callCons = s.callCons := rfl
@[simp] theorem State.setReg_nodes (s : State) (r : SysReg) (o d : Nat) (v : Word) : (s.setReg r o d v).nodes = s.nodes := rfl
@[simp] theorem State.setReg_windows (s : State) (r : SysReg) (o d : Nat) (v : Word) : (s.setReg r o d v).windows = s.windows := rfl
@[simp] theorem State.setReg_caches (s : State) (r : SysReg) (o d : Nat) (v : Word) : (s.setReg r o d v).caches = s.caches := rfl
@[simp] theorem State.setReg_walks (s : State) (r : SysReg) (o d : Nat) (v : Word) : (s.setReg r o d v).walks = s.walks := rfl
@[simp] theorem State.setReg_treeQ (s : State) (r : SysReg) (o d : Nat) (v : Word) : (s.setReg r o d v).treeQ = s.treeQ := rfl
@[simp] theorem State.setReg_treeOps (s : State) (r : SysReg) (o d : Nat) (v : Word) : (s.setReg r o d v).treeOps = s.treeOps := rfl
@[simp] theorem State.setReg_reqs (s : State) (r : SysReg) (o d : Nat) (v : Word) : (s.setReg r o d v).reqs = s.reqs := rfl
@[simp] theorem State.setReg_channels (s : State) (r : SysReg) (o d : Nat) (v : Word) : (s.setReg r o d v).channels = s.channels := rfl
@[simp] theorem State.setReg_handles (s : State) (r : SysReg) (o d : Nat) (v : Word) : (s.setReg r o d v).handles = s.handles := rfl
@[simp] theorem State.setReg_arrays (s : State) (r : SysReg) (o d : Nat) (v : Word) : (s.setReg r o d v).arrays = s.arrays := rfl
@[simp] theorem State.setReg_stages (s : State) (r : SysReg) (o d : Nat) (v : Word) : (s.setReg r o d v).stages = s.stages := rfl
@[simp] theorem State.setReg_keys (s : State) (r : SysReg) (o d : Nat) (v : Word) : (s.setReg r o d v).keys = s.keys := rfl
@[simp] theorem State.setReg_beats (s : State) (r : SysReg) (o d : Nat) (v : Word) : (s.setReg r o d v).beats = s.beats := rfl
@[simp] theorem State.setReg_scroll (s : State) (r : SysReg) (o d : Nat) (v : Word) : (s.setReg r o d v).scroll = s.scroll := rfl
@[simp] theorem State.setReg_metered (s : State) (r : SysReg) (o d : Nat) (v : Word) : (s.setReg r o d v).metered = s.metered := rfl
@[simp] theorem State.setReg_pages (s : State) (r : SysReg) (o d : Nat) (v : Word) : (s.setReg r o d v).pages = s.pages := rfl
@[simp] theorem State.setReg_tables (s : State) (r : SysReg) (o d : Nat) (v : Word) : (s.setReg r o d v).tables = s.tables := rfl
@[simp] theorem State.setReg_msixOn (s : State) (r : SysReg) (o d : Nat) (v : Word) : (s.setReg r o d v).msixOn = s.msixOn := rfl
@[simp] theorem State.setReg_msixPend (s : State) (r : SysReg) (o d : Nat) (v : Word) : (s.setReg r o d v).msixPend = s.msixPend := rfl
@[simp] theorem State.setReg_msixMsg (s : State) (r : SysReg) (o d : Nat) (v : Word) : (s.setReg r o d v).msixMsg = s.msixMsg := rfl
@[simp] theorem State.setReg_busOut (s : State) (r : SysReg) (o d : Nat) (v : Word) : (s.setReg r o d v).busOut = s.busOut := rfl
@[simp] theorem State.setReg_inbound (s : State) (r : SysReg) (o d : Nat) (v : Word) : (s.setReg r o d v).inbound = s.inbound := rfl
@[simp] theorem State.setReg_results (s : State) (r : SysReg) (o d : Nat) (v : Word) : (s.setReg r o d v).results = s.results := rfl
@[simp] theorem State.setReg_shared (s : State) (r : SysReg) (o d : Nat) (v : Word) : (s.setReg r o d v).shared = s.shared := rfl
@[simp] theorem State.setReg_migFaults (s : State) (r : SysReg) (o d : Nat) (v : Word) : (s.setReg r o d v).migFaults = s.migFaults := rfl
@[simp] theorem State.setReg_directory (s : State) (r : SysReg) (o d : Nat) (v : Word) : (s.setReg r o d v).directory = s.directory := rfl
@[simp] theorem State.setReg_granted (s : State) (r : SysReg) (o d : Nat) (v : Word) : (s.setReg r o d v).granted = s.granted := rfl
@[simp] theorem State.setReg_recalls (s : State) (r : SysReg) (o d : Nat) (v : Word) : (s.setReg r o d v).recalls = s.recalls := rfl
@[simp] theorem State.setReg_conns (s : State) (r : SysReg) (o d : Nat) (v : Word) : (s.setReg r o d v).conns = s.conns := rfl
@[simp] theorem State.setReg_links (s : State) (r : SysReg) (o d : Nat) (v : Word) : (s.setReg r o d v).links = s.links := rfl
@[simp] theorem State.setReg_timeBase (s : State) (r : SysReg) (o d : Nat) (v : Word) : (s.setReg r o d v).timeBase = s.timeBase := rfl
@[simp] theorem State.setReg_boot (s : State) (r : SysReg) (o d : Nat) (v : Word) : (s.setReg r o d v).boot = s.boot := rfl
@[simp] theorem State.setReg_teleSel (s : State) (r : SysReg) (o d : Nat) (v : Word) : (s.setReg r o d v).teleSel = s.teleSel := rfl
@[simp] theorem State.setReg_seu (s : State) (r : SysReg) (o d : Nat) (v : Word) : (s.setReg r o d v).seu = s.seu := rfl
@[simp] theorem State.setReg_perr (s : State) (r : SysReg) (o d : Nat) (v : Word) : (s.setReg r o d v).perr = s.perr := rfl
@[simp] theorem State.setReg_sensors (s : State) (r : SysReg) (o d : Nat) (v : Word) : (s.setReg r o d v).sensors = s.sensors := rfl
@[simp] theorem State.setReg_debug (s : State) (r : SysReg) (o d : Nat) (v : Word) : (s.setReg r o d v).debug = s.debug := rfl
@[simp] theorem State.setReg_debugWait (s : State) (r : SysReg) (o d : Nat) (v : Word) : (s.setReg r o d v).debugWait = s.debugWait := rfl
@[simp] theorem State.setReg_debugWord (s : State) (r : SysReg) (o d : Nat) (v : Word) : (s.setReg r o d v).debugWord = s.debugWord := rfl
@[simp] theorem State.setReg_failover (s : State) (r : SysReg) (o d : Nat) (v : Word) : (s.setReg r o d v).failover = s.failover := rfl

@[simp] theorem State.setShare_mem (s : State) (d k : Nat) (x : Share) : (s.setShare d k x).mem = s.mem := rfl
@[simp] theorem State.setShare_now (s : State) (d k : Nat) (x : Share) : (s.setShare d k x).now = s.now := rfl
@[simp] theorem State.setShare_ctimeOff (s : State) (d k : Nat) (x : Share) : (s.setShare d k x).ctimeOff = s.ctimeOff := rfl
@[simp] theorem State.setShare_agenda (s : State) (d k : Nat) (x : Share) : (s.setShare d k x).agenda = s.agenda := rfl
@[simp] theorem State.setShare_turn (s : State) (d k : Nat) (x : Share) : (s.setShare d k x).turn = s.turn := rfl
@[simp] theorem State.setShare_cur (s : State) (d k : Nat) (x : Share) : (s.setShare d k x).cur = s.cur := rfl
@[simp] theorem State.setShare_free (s : State) (d k : Nat) (x : Share) : (s.setShare d k x).free = s.free := rfl
@[simp] theorem State.setShare_uids (s : State) (d k : Nat) (x : Share) : (s.setShare d k x).uids = s.uids := rfl
@[simp] theorem State.setShare_ids (s : State) (d k : Nat) (x : Share) : (s.setShare d k x).ids = s.ids := rfl
@[simp] theorem State.setShare_parts (s : State) (d k : Nat) (x : Share) : (s.setShare d k x).parts = s.parts := rfl
@[simp] theorem State.setShare_threads (s : State) (d k : Nat) (x : Share) : (s.setShare d k x).threads = s.threads := rfl
@[simp] theorem State.setShare_cores (s : State) (d k : Nat) (x : Share) : (s.setShare d k x).cores = s.cores := rfl
@[simp] theorem State.setShare_msgs (s : State) (d k : Nat) (x : Share) : (s.setShare d k x).msgs = s.msgs := rfl
@[simp] theorem State.setShare_launches (s : State) (d k : Nat) (x : Share) : (s.setShare d k x).launches = s.launches := rfl
@[simp] theorem State.setShare_levels (s : State) (d k : Nat) (x : Share) : (s.setShare d k x).levels = s.levels := rfl
@[simp] theorem State.setShare_frees (s : State) (d k : Nat) (x : Share) : (s.setShare d k x).frees = s.frees := rfl
@[simp] theorem State.setShare_adm (s : State) (d k : Nat) (x : Share) : (s.setShare d k x).adm = s.adm := rfl
@[simp] theorem State.setShare_admSeq (s : State) (d k : Nat) (x : Share) : (s.setShare d k x).admSeq = s.admSeq := rfl
@[simp] theorem State.setShare_refills (s : State) (d k : Nat) (x : Share) : (s.setShare d k x).refills = s.refills := rfl
@[simp] theorem State.setShare_elections (s : State) (d k : Nat) (x : Share) : (s.setShare d k x).elections = s.elections := rfl
@[simp] theorem State.setShare_masters (s : State) (d k : Nat) (x : Share) : (s.setShare d k x).masters = s.masters := rfl
@[simp] theorem State.setShare_pairs (s : State) (d k : Nat) (x : Share) : (s.setShare d k x).pairs = s.pairs := rfl
@[simp] theorem State.setShare_sched (s : State) (d k : Nat) (x : Share) : (s.setShare d k x).sched = s.sched := rfl
@[simp] theorem State.setShare_ctxs (s : State) (d k : Nat) (x : Share) : (s.setShare d k x).ctxs = s.ctxs := rfl
@[simp] theorem State.setShare_floors (s : State) (d k : Nat) (x : Share) : (s.setShare d k x).floors = s.floors := rfl
@[simp] theorem State.setShare_stamps (s : State) (d k : Nat) (x : Share) : (s.setShare d k x).stamps = s.stamps := rfl
@[simp] theorem State.setShare_outcome (s : State) (d k : Nat) (x : Share) : (s.setShare d k x).outcome = s.outcome := rfl
@[simp] theorem State.setShare_relFloors (s : State) (d k : Nat) (x : Share) : (s.setShare d k x).relFloors = s.relFloors := rfl
@[simp] theorem State.setShare_regs (s : State) (d k : Nat) (x : Share) : (s.setShare d k x).regs = s.regs := rfl
@[simp] theorem State.setShare_regLog (s : State) (d k : Nat) (x : Share) : (s.setShare d k x).regLog = s.regLog := rfl
@[simp] theorem State.setShare_sinks (s : State) (d k : Nat) (x : Share) : (s.setShare d k x).sinks = s.sinks := rfl
@[simp] theorem State.setShare_held (s : State) (d k : Nat) (x : Share) : (s.setShare d k x).held = s.held := rfl
@[simp] theorem State.setShare_reelNext (s : State) (d k : Nat) (x : Share) : (s.setShare d k x).reelNext = s.reelNext := rfl
@[simp] theorem State.setShare_fenced (s : State) (d k : Nat) (x : Share) : (s.setShare d k x).fenced = s.fenced := rfl
@[simp] theorem State.setShare_toFence (s : State) (d k : Nat) (x : Share) : (s.setShare d k x).toFence = s.toFence := rfl
@[simp] theorem State.setShare_claims (s : State) (d k : Nat) (x : Share) : (s.setShare d k x).claims = s.claims := rfl
@[simp] theorem State.setShare_notices (s : State) (d k : Nat) (x : Share) : (s.setShare d k x).notices = s.notices := rfl
@[simp] theorem State.setShare_callProd (s : State) (d k : Nat) (x : Share) : (s.setShare d k x).callProd = s.callProd := rfl
@[simp] theorem State.setShare_callCons (s : State) (d k : Nat) (x : Share) : (s.setShare d k x).callCons = s.callCons := rfl
@[simp] theorem State.setShare_nodes (s : State) (d k : Nat) (x : Share) : (s.setShare d k x).nodes = s.nodes := rfl
@[simp] theorem State.setShare_windows (s : State) (d k : Nat) (x : Share) : (s.setShare d k x).windows = s.windows := rfl
@[simp] theorem State.setShare_caches (s : State) (d k : Nat) (x : Share) : (s.setShare d k x).caches = s.caches := rfl
@[simp] theorem State.setShare_walks (s : State) (d k : Nat) (x : Share) : (s.setShare d k x).walks = s.walks := rfl
@[simp] theorem State.setShare_treeQ (s : State) (d k : Nat) (x : Share) : (s.setShare d k x).treeQ = s.treeQ := rfl
@[simp] theorem State.setShare_treeOps (s : State) (d k : Nat) (x : Share) : (s.setShare d k x).treeOps = s.treeOps := rfl
@[simp] theorem State.setShare_reqs (s : State) (d k : Nat) (x : Share) : (s.setShare d k x).reqs = s.reqs := rfl
@[simp] theorem State.setShare_channels (s : State) (d k : Nat) (x : Share) : (s.setShare d k x).channels = s.channels := rfl
@[simp] theorem State.setShare_handles (s : State) (d k : Nat) (x : Share) : (s.setShare d k x).handles = s.handles := rfl
@[simp] theorem State.setShare_arrays (s : State) (d k : Nat) (x : Share) : (s.setShare d k x).arrays = s.arrays := rfl
@[simp] theorem State.setShare_stages (s : State) (d k : Nat) (x : Share) : (s.setShare d k x).stages = s.stages := rfl
@[simp] theorem State.setShare_keys (s : State) (d k : Nat) (x : Share) : (s.setShare d k x).keys = s.keys := rfl
@[simp] theorem State.setShare_beats (s : State) (d k : Nat) (x : Share) : (s.setShare d k x).beats = s.beats := rfl
@[simp] theorem State.setShare_scroll (s : State) (d k : Nat) (x : Share) : (s.setShare d k x).scroll = s.scroll := rfl
@[simp] theorem State.setShare_metered (s : State) (d k : Nat) (x : Share) : (s.setShare d k x).metered = s.metered := rfl
@[simp] theorem State.setShare_pages (s : State) (d k : Nat) (x : Share) : (s.setShare d k x).pages = s.pages := rfl
@[simp] theorem State.setShare_tables (s : State) (d k : Nat) (x : Share) : (s.setShare d k x).tables = s.tables := rfl
@[simp] theorem State.setShare_msixOn (s : State) (d k : Nat) (x : Share) : (s.setShare d k x).msixOn = s.msixOn := rfl
@[simp] theorem State.setShare_msixPend (s : State) (d k : Nat) (x : Share) : (s.setShare d k x).msixPend = s.msixPend := rfl
@[simp] theorem State.setShare_msixMsg (s : State) (d k : Nat) (x : Share) : (s.setShare d k x).msixMsg = s.msixMsg := rfl
@[simp] theorem State.setShare_busOut (s : State) (d k : Nat) (x : Share) : (s.setShare d k x).busOut = s.busOut := rfl
@[simp] theorem State.setShare_inbound (s : State) (d k : Nat) (x : Share) : (s.setShare d k x).inbound = s.inbound := rfl
@[simp] theorem State.setShare_results (s : State) (d k : Nat) (x : Share) : (s.setShare d k x).results = s.results := rfl
@[simp] theorem State.setShare_shared (s : State) (d k : Nat) (x : Share) : (s.setShare d k x).shared = s.shared := rfl
@[simp] theorem State.setShare_migFaults (s : State) (d k : Nat) (x : Share) : (s.setShare d k x).migFaults = s.migFaults := rfl
@[simp] theorem State.setShare_directory (s : State) (d k : Nat) (x : Share) : (s.setShare d k x).directory = s.directory := rfl
@[simp] theorem State.setShare_granted (s : State) (d k : Nat) (x : Share) : (s.setShare d k x).granted = s.granted := rfl
@[simp] theorem State.setShare_recalls (s : State) (d k : Nat) (x : Share) : (s.setShare d k x).recalls = s.recalls := rfl
@[simp] theorem State.setShare_conns (s : State) (d k : Nat) (x : Share) : (s.setShare d k x).conns = s.conns := rfl
@[simp] theorem State.setShare_links (s : State) (d k : Nat) (x : Share) : (s.setShare d k x).links = s.links := rfl
@[simp] theorem State.setShare_timeBase (s : State) (d k : Nat) (x : Share) : (s.setShare d k x).timeBase = s.timeBase := rfl
@[simp] theorem State.setShare_boot (s : State) (d k : Nat) (x : Share) : (s.setShare d k x).boot = s.boot := rfl
@[simp] theorem State.setShare_teleSel (s : State) (d k : Nat) (x : Share) : (s.setShare d k x).teleSel = s.teleSel := rfl
@[simp] theorem State.setShare_seu (s : State) (d k : Nat) (x : Share) : (s.setShare d k x).seu = s.seu := rfl
@[simp] theorem State.setShare_perr (s : State) (d k : Nat) (x : Share) : (s.setShare d k x).perr = s.perr := rfl
@[simp] theorem State.setShare_sensors (s : State) (d k : Nat) (x : Share) : (s.setShare d k x).sensors = s.sensors := rfl
@[simp] theorem State.setShare_debug (s : State) (d k : Nat) (x : Share) : (s.setShare d k x).debug = s.debug := rfl
@[simp] theorem State.setShare_debugWait (s : State) (d k : Nat) (x : Share) : (s.setShare d k x).debugWait = s.debugWait := rfl
@[simp] theorem State.setShare_debugWord (s : State) (d k : Nat) (x : Share) : (s.setShare d k x).debugWord = s.debugWord := rfl
@[simp] theorem State.setShare_failover (s : State) (d k : Nat) (x : Share) : (s.setShare d k x).failover = s.failover := rfl

@[simp] theorem State.post_mem (s : State) (m : Msg) : (s.post m).mem = s.mem := rfl
@[simp] theorem State.post_now (s : State) (m : Msg) : (s.post m).now = s.now := rfl
@[simp] theorem State.post_ctimeOff (s : State) (m : Msg) : (s.post m).ctimeOff = s.ctimeOff := rfl
@[simp] theorem State.post_agenda (s : State) (m : Msg) : (s.post m).agenda = s.agenda := rfl
@[simp] theorem State.post_turn (s : State) (m : Msg) : (s.post m).turn = s.turn := rfl
@[simp] theorem State.post_cur (s : State) (m : Msg) : (s.post m).cur = s.cur := rfl
@[simp] theorem State.post_free (s : State) (m : Msg) : (s.post m).free = s.free := rfl
@[simp] theorem State.post_uids (s : State) (m : Msg) : (s.post m).uids = s.uids := rfl
@[simp] theorem State.post_parts (s : State) (m : Msg) : (s.post m).parts = s.parts := rfl
@[simp] theorem State.post_threads (s : State) (m : Msg) : (s.post m).threads = s.threads := rfl
@[simp] theorem State.post_cores (s : State) (m : Msg) : (s.post m).cores = s.cores := rfl
@[simp] theorem State.post_launches (s : State) (m : Msg) : (s.post m).launches = s.launches := rfl
@[simp] theorem State.post_levels (s : State) (m : Msg) : (s.post m).levels = s.levels := rfl
@[simp] theorem State.post_frees (s : State) (m : Msg) : (s.post m).frees = s.frees := rfl
@[simp] theorem State.post_adm (s : State) (m : Msg) : (s.post m).adm = s.adm := rfl
@[simp] theorem State.post_admSeq (s : State) (m : Msg) : (s.post m).admSeq = s.admSeq := rfl
@[simp] theorem State.post_refills (s : State) (m : Msg) : (s.post m).refills = s.refills := rfl
@[simp] theorem State.post_elections (s : State) (m : Msg) : (s.post m).elections = s.elections := rfl
@[simp] theorem State.post_masters (s : State) (m : Msg) : (s.post m).masters = s.masters := rfl
@[simp] theorem State.post_pairs (s : State) (m : Msg) : (s.post m).pairs = s.pairs := rfl
@[simp] theorem State.post_sched (s : State) (m : Msg) : (s.post m).sched = s.sched := rfl
@[simp] theorem State.post_ctxs (s : State) (m : Msg) : (s.post m).ctxs = s.ctxs := rfl
@[simp] theorem State.post_floors (s : State) (m : Msg) : (s.post m).floors = s.floors := rfl
@[simp] theorem State.post_stamps (s : State) (m : Msg) : (s.post m).stamps = s.stamps := rfl
@[simp] theorem State.post_outcome (s : State) (m : Msg) : (s.post m).outcome = s.outcome := rfl
@[simp] theorem State.post_relFloors (s : State) (m : Msg) : (s.post m).relFloors = s.relFloors := rfl
@[simp] theorem State.post_regs (s : State) (m : Msg) : (s.post m).regs = s.regs := rfl
@[simp] theorem State.post_regLog (s : State) (m : Msg) : (s.post m).regLog = s.regLog := rfl
@[simp] theorem State.post_shares (s : State) (m : Msg) : (s.post m).shares = s.shares := rfl
@[simp] theorem State.post_sinks (s : State) (m : Msg) : (s.post m).sinks = s.sinks := rfl
@[simp] theorem State.post_held (s : State) (m : Msg) : (s.post m).held = s.held := rfl
@[simp] theorem State.post_reelNext (s : State) (m : Msg) : (s.post m).reelNext = s.reelNext := rfl
@[simp] theorem State.post_fenced (s : State) (m : Msg) : (s.post m).fenced = s.fenced := rfl
@[simp] theorem State.post_toFence (s : State) (m : Msg) : (s.post m).toFence = s.toFence := rfl
@[simp] theorem State.post_claims (s : State) (m : Msg) : (s.post m).claims = s.claims := rfl
@[simp] theorem State.post_notices (s : State) (m : Msg) : (s.post m).notices = s.notices := rfl
@[simp] theorem State.post_callProd (s : State) (m : Msg) : (s.post m).callProd = s.callProd := rfl
@[simp] theorem State.post_callCons (s : State) (m : Msg) : (s.post m).callCons = s.callCons := rfl
@[simp] theorem State.post_nodes (s : State) (m : Msg) : (s.post m).nodes = s.nodes := rfl
@[simp] theorem State.post_windows (s : State) (m : Msg) : (s.post m).windows = s.windows := rfl
@[simp] theorem State.post_caches (s : State) (m : Msg) : (s.post m).caches = s.caches := rfl
@[simp] theorem State.post_walks (s : State) (m : Msg) : (s.post m).walks = s.walks := rfl
@[simp] theorem State.post_treeQ (s : State) (m : Msg) : (s.post m).treeQ = s.treeQ := rfl
@[simp] theorem State.post_treeOps (s : State) (m : Msg) : (s.post m).treeOps = s.treeOps := rfl
@[simp] theorem State.post_reqs (s : State) (m : Msg) : (s.post m).reqs = s.reqs := rfl
@[simp] theorem State.post_channels (s : State) (m : Msg) : (s.post m).channels = s.channels := rfl
@[simp] theorem State.post_handles (s : State) (m : Msg) : (s.post m).handles = s.handles := rfl
@[simp] theorem State.post_arrays (s : State) (m : Msg) : (s.post m).arrays = s.arrays := rfl
@[simp] theorem State.post_stages (s : State) (m : Msg) : (s.post m).stages = s.stages := rfl
@[simp] theorem State.post_keys (s : State) (m : Msg) : (s.post m).keys = s.keys := rfl
@[simp] theorem State.post_beats (s : State) (m : Msg) : (s.post m).beats = s.beats := rfl
@[simp] theorem State.post_scroll (s : State) (m : Msg) : (s.post m).scroll = s.scroll := rfl
@[simp] theorem State.post_metered (s : State) (m : Msg) : (s.post m).metered = s.metered := rfl
@[simp] theorem State.post_pages (s : State) (m : Msg) : (s.post m).pages = s.pages := rfl
@[simp] theorem State.post_tables (s : State) (m : Msg) : (s.post m).tables = s.tables := rfl
@[simp] theorem State.post_msixOn (s : State) (m : Msg) : (s.post m).msixOn = s.msixOn := rfl
@[simp] theorem State.post_msixPend (s : State) (m : Msg) : (s.post m).msixPend = s.msixPend := rfl
@[simp] theorem State.post_msixMsg (s : State) (m : Msg) : (s.post m).msixMsg = s.msixMsg := rfl
@[simp] theorem State.post_busOut (s : State) (m : Msg) : (s.post m).busOut = s.busOut := rfl
@[simp] theorem State.post_inbound (s : State) (m : Msg) : (s.post m).inbound = s.inbound := rfl
@[simp] theorem State.post_results (s : State) (m : Msg) : (s.post m).results = s.results := rfl
@[simp] theorem State.post_shared (s : State) (m : Msg) : (s.post m).shared = s.shared := rfl
@[simp] theorem State.post_migFaults (s : State) (m : Msg) : (s.post m).migFaults = s.migFaults := rfl
@[simp] theorem State.post_directory (s : State) (m : Msg) : (s.post m).directory = s.directory := rfl
@[simp] theorem State.post_granted (s : State) (m : Msg) : (s.post m).granted = s.granted := rfl
@[simp] theorem State.post_recalls (s : State) (m : Msg) : (s.post m).recalls = s.recalls := rfl
@[simp] theorem State.post_conns (s : State) (m : Msg) : (s.post m).conns = s.conns := rfl
@[simp] theorem State.post_links (s : State) (m : Msg) : (s.post m).links = s.links := rfl
@[simp] theorem State.post_timeBase (s : State) (m : Msg) : (s.post m).timeBase = s.timeBase := rfl
@[simp] theorem State.post_boot (s : State) (m : Msg) : (s.post m).boot = s.boot := rfl
@[simp] theorem State.post_teleSel (s : State) (m : Msg) : (s.post m).teleSel = s.teleSel := rfl
@[simp] theorem State.post_seu (s : State) (m : Msg) : (s.post m).seu = s.seu := rfl
@[simp] theorem State.post_perr (s : State) (m : Msg) : (s.post m).perr = s.perr := rfl
@[simp] theorem State.post_sensors (s : State) (m : Msg) : (s.post m).sensors = s.sensors := rfl
@[simp] theorem State.post_debug (s : State) (m : Msg) : (s.post m).debug = s.debug := rfl
@[simp] theorem State.post_debugWait (s : State) (m : Msg) : (s.post m).debugWait = s.debugWait := rfl
@[simp] theorem State.post_debugWord (s : State) (m : Msg) : (s.post m).debugWord = s.debugWord := rfl
@[simp] theorem State.post_failover (s : State) (m : Msg) : (s.post m).failover = s.failover := rfl

@[simp] theorem State.notify_mem (s : State) (c : Nat) (ws : List Word) : (s.notify c ws).mem = s.mem := rfl
@[simp] theorem State.notify_now (s : State) (c : Nat) (ws : List Word) : (s.notify c ws).now = s.now := rfl
@[simp] theorem State.notify_ctimeOff (s : State) (c : Nat) (ws : List Word) : (s.notify c ws).ctimeOff = s.ctimeOff := rfl
@[simp] theorem State.notify_agenda (s : State) (c : Nat) (ws : List Word) : (s.notify c ws).agenda = s.agenda := rfl
@[simp] theorem State.notify_turn (s : State) (c : Nat) (ws : List Word) : (s.notify c ws).turn = s.turn := rfl
@[simp] theorem State.notify_cur (s : State) (c : Nat) (ws : List Word) : (s.notify c ws).cur = s.cur := rfl
@[simp] theorem State.notify_free (s : State) (c : Nat) (ws : List Word) : (s.notify c ws).free = s.free := rfl
@[simp] theorem State.notify_uids (s : State) (c : Nat) (ws : List Word) : (s.notify c ws).uids = s.uids := rfl
@[simp] theorem State.notify_ids (s : State) (c : Nat) (ws : List Word) : (s.notify c ws).ids = s.ids := rfl
@[simp] theorem State.notify_parts (s : State) (c : Nat) (ws : List Word) : (s.notify c ws).parts = s.parts := rfl
@[simp] theorem State.notify_threads (s : State) (c : Nat) (ws : List Word) : (s.notify c ws).threads = s.threads := rfl
@[simp] theorem State.notify_cores (s : State) (c : Nat) (ws : List Word) : (s.notify c ws).cores = s.cores := rfl
@[simp] theorem State.notify_msgs (s : State) (c : Nat) (ws : List Word) : (s.notify c ws).msgs = s.msgs := rfl
@[simp] theorem State.notify_launches (s : State) (c : Nat) (ws : List Word) : (s.notify c ws).launches = s.launches := rfl
@[simp] theorem State.notify_levels (s : State) (c : Nat) (ws : List Word) : (s.notify c ws).levels = s.levels := rfl
@[simp] theorem State.notify_frees (s : State) (c : Nat) (ws : List Word) : (s.notify c ws).frees = s.frees := rfl
@[simp] theorem State.notify_adm (s : State) (c : Nat) (ws : List Word) : (s.notify c ws).adm = s.adm := rfl
@[simp] theorem State.notify_admSeq (s : State) (c : Nat) (ws : List Word) : (s.notify c ws).admSeq = s.admSeq := rfl
@[simp] theorem State.notify_refills (s : State) (c : Nat) (ws : List Word) : (s.notify c ws).refills = s.refills := rfl
@[simp] theorem State.notify_elections (s : State) (c : Nat) (ws : List Word) : (s.notify c ws).elections = s.elections := rfl
@[simp] theorem State.notify_masters (s : State) (c : Nat) (ws : List Word) : (s.notify c ws).masters = s.masters := rfl
@[simp] theorem State.notify_pairs (s : State) (c : Nat) (ws : List Word) : (s.notify c ws).pairs = s.pairs := rfl
@[simp] theorem State.notify_sched (s : State) (c : Nat) (ws : List Word) : (s.notify c ws).sched = s.sched := rfl
@[simp] theorem State.notify_ctxs (s : State) (c : Nat) (ws : List Word) : (s.notify c ws).ctxs = s.ctxs := rfl
@[simp] theorem State.notify_floors (s : State) (c : Nat) (ws : List Word) : (s.notify c ws).floors = s.floors := rfl
@[simp] theorem State.notify_stamps (s : State) (c : Nat) (ws : List Word) : (s.notify c ws).stamps = s.stamps := rfl
@[simp] theorem State.notify_outcome (s : State) (c : Nat) (ws : List Word) : (s.notify c ws).outcome = s.outcome := rfl
@[simp] theorem State.notify_relFloors (s : State) (c : Nat) (ws : List Word) : (s.notify c ws).relFloors = s.relFloors := rfl
@[simp] theorem State.notify_regs (s : State) (c : Nat) (ws : List Word) : (s.notify c ws).regs = s.regs := rfl
@[simp] theorem State.notify_regLog (s : State) (c : Nat) (ws : List Word) : (s.notify c ws).regLog = s.regLog := rfl
@[simp] theorem State.notify_shares (s : State) (c : Nat) (ws : List Word) : (s.notify c ws).shares = s.shares := rfl
@[simp] theorem State.notify_sinks (s : State) (c : Nat) (ws : List Word) : (s.notify c ws).sinks = s.sinks := rfl
@[simp] theorem State.notify_held (s : State) (c : Nat) (ws : List Word) : (s.notify c ws).held = s.held := rfl
@[simp] theorem State.notify_reelNext (s : State) (c : Nat) (ws : List Word) : (s.notify c ws).reelNext = s.reelNext := rfl
@[simp] theorem State.notify_fenced (s : State) (c : Nat) (ws : List Word) : (s.notify c ws).fenced = s.fenced := rfl
@[simp] theorem State.notify_toFence (s : State) (c : Nat) (ws : List Word) : (s.notify c ws).toFence = s.toFence := rfl
@[simp] theorem State.notify_claims (s : State) (c : Nat) (ws : List Word) : (s.notify c ws).claims = s.claims := rfl
@[simp] theorem State.notify_callProd (s : State) (c : Nat) (ws : List Word) : (s.notify c ws).callProd = s.callProd := rfl
@[simp] theorem State.notify_callCons (s : State) (c : Nat) (ws : List Word) : (s.notify c ws).callCons = s.callCons := rfl
@[simp] theorem State.notify_nodes (s : State) (c : Nat) (ws : List Word) : (s.notify c ws).nodes = s.nodes := rfl
@[simp] theorem State.notify_windows (s : State) (c : Nat) (ws : List Word) : (s.notify c ws).windows = s.windows := rfl
@[simp] theorem State.notify_caches (s : State) (c : Nat) (ws : List Word) : (s.notify c ws).caches = s.caches := rfl
@[simp] theorem State.notify_walks (s : State) (c : Nat) (ws : List Word) : (s.notify c ws).walks = s.walks := rfl
@[simp] theorem State.notify_treeQ (s : State) (c : Nat) (ws : List Word) : (s.notify c ws).treeQ = s.treeQ := rfl
@[simp] theorem State.notify_treeOps (s : State) (c : Nat) (ws : List Word) : (s.notify c ws).treeOps = s.treeOps := rfl
@[simp] theorem State.notify_reqs (s : State) (c : Nat) (ws : List Word) : (s.notify c ws).reqs = s.reqs := rfl
@[simp] theorem State.notify_channels (s : State) (c : Nat) (ws : List Word) : (s.notify c ws).channels = s.channels := rfl
@[simp] theorem State.notify_handles (s : State) (c : Nat) (ws : List Word) : (s.notify c ws).handles = s.handles := rfl
@[simp] theorem State.notify_arrays (s : State) (c : Nat) (ws : List Word) : (s.notify c ws).arrays = s.arrays := rfl
@[simp] theorem State.notify_stages (s : State) (c : Nat) (ws : List Word) : (s.notify c ws).stages = s.stages := rfl
@[simp] theorem State.notify_keys (s : State) (c : Nat) (ws : List Word) : (s.notify c ws).keys = s.keys := rfl
@[simp] theorem State.notify_beats (s : State) (c : Nat) (ws : List Word) : (s.notify c ws).beats = s.beats := rfl
@[simp] theorem State.notify_scroll (s : State) (c : Nat) (ws : List Word) : (s.notify c ws).scroll = s.scroll := rfl
@[simp] theorem State.notify_metered (s : State) (c : Nat) (ws : List Word) : (s.notify c ws).metered = s.metered := rfl
@[simp] theorem State.notify_pages (s : State) (c : Nat) (ws : List Word) : (s.notify c ws).pages = s.pages := rfl
@[simp] theorem State.notify_tables (s : State) (c : Nat) (ws : List Word) : (s.notify c ws).tables = s.tables := rfl
@[simp] theorem State.notify_msixOn (s : State) (c : Nat) (ws : List Word) : (s.notify c ws).msixOn = s.msixOn := rfl
@[simp] theorem State.notify_msixPend (s : State) (c : Nat) (ws : List Word) : (s.notify c ws).msixPend = s.msixPend := rfl
@[simp] theorem State.notify_msixMsg (s : State) (c : Nat) (ws : List Word) : (s.notify c ws).msixMsg = s.msixMsg := rfl
@[simp] theorem State.notify_busOut (s : State) (c : Nat) (ws : List Word) : (s.notify c ws).busOut = s.busOut := rfl
@[simp] theorem State.notify_inbound (s : State) (c : Nat) (ws : List Word) : (s.notify c ws).inbound = s.inbound := rfl
@[simp] theorem State.notify_results (s : State) (c : Nat) (ws : List Word) : (s.notify c ws).results = s.results := rfl
@[simp] theorem State.notify_shared (s : State) (c : Nat) (ws : List Word) : (s.notify c ws).shared = s.shared := rfl
@[simp] theorem State.notify_migFaults (s : State) (c : Nat) (ws : List Word) : (s.notify c ws).migFaults = s.migFaults := rfl
@[simp] theorem State.notify_directory (s : State) (c : Nat) (ws : List Word) : (s.notify c ws).directory = s.directory := rfl
@[simp] theorem State.notify_granted (s : State) (c : Nat) (ws : List Word) : (s.notify c ws).granted = s.granted := rfl
@[simp] theorem State.notify_recalls (s : State) (c : Nat) (ws : List Word) : (s.notify c ws).recalls = s.recalls := rfl
@[simp] theorem State.notify_conns (s : State) (c : Nat) (ws : List Word) : (s.notify c ws).conns = s.conns := rfl
@[simp] theorem State.notify_links (s : State) (c : Nat) (ws : List Word) : (s.notify c ws).links = s.links := rfl
@[simp] theorem State.notify_timeBase (s : State) (c : Nat) (ws : List Word) : (s.notify c ws).timeBase = s.timeBase := rfl
@[simp] theorem State.notify_boot (s : State) (c : Nat) (ws : List Word) : (s.notify c ws).boot = s.boot := rfl
@[simp] theorem State.notify_teleSel (s : State) (c : Nat) (ws : List Word) : (s.notify c ws).teleSel = s.teleSel := rfl
@[simp] theorem State.notify_seu (s : State) (c : Nat) (ws : List Word) : (s.notify c ws).seu = s.seu := rfl
@[simp] theorem State.notify_perr (s : State) (c : Nat) (ws : List Word) : (s.notify c ws).perr = s.perr := rfl
@[simp] theorem State.notify_sensors (s : State) (c : Nat) (ws : List Word) : (s.notify c ws).sensors = s.sensors := rfl
@[simp] theorem State.notify_debug (s : State) (c : Nat) (ws : List Word) : (s.notify c ws).debug = s.debug := rfl
@[simp] theorem State.notify_debugWait (s : State) (c : Nat) (ws : List Word) : (s.notify c ws).debugWait = s.debugWait := rfl
@[simp] theorem State.notify_debugWord (s : State) (c : Nat) (ws : List Word) : (s.notify c ws).debugWord = s.debugWord := rfl
@[simp] theorem State.notify_failover (s : State) (c : Nat) (ws : List Word) : (s.notify c ws).failover = s.failover := rfl

@[simp] theorem State.putBytes_now (s : State) (k : Nat) (bs : List Byte) : (s.putBytes k bs).now = s.now := rfl
@[simp] theorem State.putBytes_ctimeOff (s : State) (k : Nat) (bs : List Byte) : (s.putBytes k bs).ctimeOff = s.ctimeOff := rfl
@[simp] theorem State.putBytes_agenda (s : State) (k : Nat) (bs : List Byte) : (s.putBytes k bs).agenda = s.agenda := rfl
@[simp] theorem State.putBytes_turn (s : State) (k : Nat) (bs : List Byte) : (s.putBytes k bs).turn = s.turn := rfl
@[simp] theorem State.putBytes_cur (s : State) (k : Nat) (bs : List Byte) : (s.putBytes k bs).cur = s.cur := rfl
@[simp] theorem State.putBytes_free (s : State) (k : Nat) (bs : List Byte) : (s.putBytes k bs).free = s.free := rfl
@[simp] theorem State.putBytes_uids (s : State) (k : Nat) (bs : List Byte) : (s.putBytes k bs).uids = s.uids := rfl
@[simp] theorem State.putBytes_ids (s : State) (k : Nat) (bs : List Byte) : (s.putBytes k bs).ids = s.ids := rfl
@[simp] theorem State.putBytes_parts (s : State) (k : Nat) (bs : List Byte) : (s.putBytes k bs).parts = s.parts := rfl
@[simp] theorem State.putBytes_threads (s : State) (k : Nat) (bs : List Byte) : (s.putBytes k bs).threads = s.threads := rfl
@[simp] theorem State.putBytes_cores (s : State) (k : Nat) (bs : List Byte) : (s.putBytes k bs).cores = s.cores := rfl
@[simp] theorem State.putBytes_msgs (s : State) (k : Nat) (bs : List Byte) : (s.putBytes k bs).msgs = s.msgs := rfl
@[simp] theorem State.putBytes_launches (s : State) (k : Nat) (bs : List Byte) : (s.putBytes k bs).launches = s.launches := rfl
@[simp] theorem State.putBytes_levels (s : State) (k : Nat) (bs : List Byte) : (s.putBytes k bs).levels = s.levels := rfl
@[simp] theorem State.putBytes_frees (s : State) (k : Nat) (bs : List Byte) : (s.putBytes k bs).frees = s.frees := rfl
@[simp] theorem State.putBytes_adm (s : State) (k : Nat) (bs : List Byte) : (s.putBytes k bs).adm = s.adm := rfl
@[simp] theorem State.putBytes_admSeq (s : State) (k : Nat) (bs : List Byte) : (s.putBytes k bs).admSeq = s.admSeq := rfl
@[simp] theorem State.putBytes_refills (s : State) (k : Nat) (bs : List Byte) : (s.putBytes k bs).refills = s.refills := rfl
@[simp] theorem State.putBytes_elections (s : State) (k : Nat) (bs : List Byte) : (s.putBytes k bs).elections = s.elections := rfl
@[simp] theorem State.putBytes_masters (s : State) (k : Nat) (bs : List Byte) : (s.putBytes k bs).masters = s.masters := rfl
@[simp] theorem State.putBytes_pairs (s : State) (k : Nat) (bs : List Byte) : (s.putBytes k bs).pairs = s.pairs := rfl
@[simp] theorem State.putBytes_sched (s : State) (k : Nat) (bs : List Byte) : (s.putBytes k bs).sched = s.sched := rfl
@[simp] theorem State.putBytes_ctxs (s : State) (k : Nat) (bs : List Byte) : (s.putBytes k bs).ctxs = s.ctxs := rfl
@[simp] theorem State.putBytes_floors (s : State) (k : Nat) (bs : List Byte) : (s.putBytes k bs).floors = s.floors := rfl
@[simp] theorem State.putBytes_stamps (s : State) (k : Nat) (bs : List Byte) : (s.putBytes k bs).stamps = s.stamps := rfl
@[simp] theorem State.putBytes_outcome (s : State) (k : Nat) (bs : List Byte) : (s.putBytes k bs).outcome = s.outcome := rfl
@[simp] theorem State.putBytes_regs (s : State) (k : Nat) (bs : List Byte) : (s.putBytes k bs).regs = s.regs := rfl
@[simp] theorem State.putBytes_regLog (s : State) (k : Nat) (bs : List Byte) : (s.putBytes k bs).regLog = s.regLog := rfl
@[simp] theorem State.putBytes_shares (s : State) (k : Nat) (bs : List Byte) : (s.putBytes k bs).shares = s.shares := rfl
@[simp] theorem State.putBytes_sinks (s : State) (k : Nat) (bs : List Byte) : (s.putBytes k bs).sinks = s.sinks := rfl
@[simp] theorem State.putBytes_held (s : State) (k : Nat) (bs : List Byte) : (s.putBytes k bs).held = s.held := rfl
@[simp] theorem State.putBytes_reelNext (s : State) (k : Nat) (bs : List Byte) : (s.putBytes k bs).reelNext = s.reelNext := rfl
@[simp] theorem State.putBytes_fenced (s : State) (k : Nat) (bs : List Byte) : (s.putBytes k bs).fenced = s.fenced := rfl
@[simp] theorem State.putBytes_toFence (s : State) (k : Nat) (bs : List Byte) : (s.putBytes k bs).toFence = s.toFence := rfl
@[simp] theorem State.putBytes_claims (s : State) (k : Nat) (bs : List Byte) : (s.putBytes k bs).claims = s.claims := rfl
@[simp] theorem State.putBytes_notices (s : State) (k : Nat) (bs : List Byte) : (s.putBytes k bs).notices = s.notices := rfl
@[simp] theorem State.putBytes_callProd (s : State) (k : Nat) (bs : List Byte) : (s.putBytes k bs).callProd = s.callProd := rfl
@[simp] theorem State.putBytes_callCons (s : State) (k : Nat) (bs : List Byte) : (s.putBytes k bs).callCons = s.callCons := rfl
@[simp] theorem State.putBytes_nodes (s : State) (k : Nat) (bs : List Byte) : (s.putBytes k bs).nodes = s.nodes := rfl
@[simp] theorem State.putBytes_windows (s : State) (k : Nat) (bs : List Byte) : (s.putBytes k bs).windows = s.windows := rfl
@[simp] theorem State.putBytes_caches (s : State) (k : Nat) (bs : List Byte) : (s.putBytes k bs).caches = s.caches := rfl
@[simp] theorem State.putBytes_walks (s : State) (k : Nat) (bs : List Byte) : (s.putBytes k bs).walks = s.walks := rfl
@[simp] theorem State.putBytes_treeQ (s : State) (k : Nat) (bs : List Byte) : (s.putBytes k bs).treeQ = s.treeQ := rfl
@[simp] theorem State.putBytes_treeOps (s : State) (k : Nat) (bs : List Byte) : (s.putBytes k bs).treeOps = s.treeOps := rfl
@[simp] theorem State.putBytes_reqs (s : State) (k : Nat) (bs : List Byte) : (s.putBytes k bs).reqs = s.reqs := rfl
@[simp] theorem State.putBytes_channels (s : State) (k : Nat) (bs : List Byte) : (s.putBytes k bs).channels = s.channels := rfl
@[simp] theorem State.putBytes_handles (s : State) (k : Nat) (bs : List Byte) : (s.putBytes k bs).handles = s.handles := rfl
@[simp] theorem State.putBytes_arrays (s : State) (k : Nat) (bs : List Byte) : (s.putBytes k bs).arrays = s.arrays := rfl
@[simp] theorem State.putBytes_stages (s : State) (k : Nat) (bs : List Byte) : (s.putBytes k bs).stages = s.stages := rfl
@[simp] theorem State.putBytes_keys (s : State) (k : Nat) (bs : List Byte) : (s.putBytes k bs).keys = s.keys := rfl
@[simp] theorem State.putBytes_beats (s : State) (k : Nat) (bs : List Byte) : (s.putBytes k bs).beats = s.beats := rfl
@[simp] theorem State.putBytes_scroll (s : State) (k : Nat) (bs : List Byte) : (s.putBytes k bs).scroll = s.scroll := rfl
@[simp] theorem State.putBytes_metered (s : State) (k : Nat) (bs : List Byte) : (s.putBytes k bs).metered = s.metered := rfl
@[simp] theorem State.putBytes_pages (s : State) (k : Nat) (bs : List Byte) : (s.putBytes k bs).pages = s.pages := rfl
@[simp] theorem State.putBytes_tables (s : State) (k : Nat) (bs : List Byte) : (s.putBytes k bs).tables = s.tables := rfl
@[simp] theorem State.putBytes_msixOn (s : State) (k : Nat) (bs : List Byte) : (s.putBytes k bs).msixOn = s.msixOn := rfl
@[simp] theorem State.putBytes_msixPend (s : State) (k : Nat) (bs : List Byte) : (s.putBytes k bs).msixPend = s.msixPend := rfl
@[simp] theorem State.putBytes_msixMsg (s : State) (k : Nat) (bs : List Byte) : (s.putBytes k bs).msixMsg = s.msixMsg := rfl
@[simp] theorem State.putBytes_busOut (s : State) (k : Nat) (bs : List Byte) : (s.putBytes k bs).busOut = s.busOut := rfl
@[simp] theorem State.putBytes_inbound (s : State) (k : Nat) (bs : List Byte) : (s.putBytes k bs).inbound = s.inbound := rfl
@[simp] theorem State.putBytes_results (s : State) (k : Nat) (bs : List Byte) : (s.putBytes k bs).results = s.results := rfl
@[simp] theorem State.putBytes_shared (s : State) (k : Nat) (bs : List Byte) : (s.putBytes k bs).shared = s.shared := rfl
@[simp] theorem State.putBytes_migFaults (s : State) (k : Nat) (bs : List Byte) : (s.putBytes k bs).migFaults = s.migFaults := rfl
@[simp] theorem State.putBytes_directory (s : State) (k : Nat) (bs : List Byte) : (s.putBytes k bs).directory = s.directory := rfl
@[simp] theorem State.putBytes_granted (s : State) (k : Nat) (bs : List Byte) : (s.putBytes k bs).granted = s.granted := rfl
@[simp] theorem State.putBytes_recalls (s : State) (k : Nat) (bs : List Byte) : (s.putBytes k bs).recalls = s.recalls := rfl
@[simp] theorem State.putBytes_conns (s : State) (k : Nat) (bs : List Byte) : (s.putBytes k bs).conns = s.conns := rfl
@[simp] theorem State.putBytes_links (s : State) (k : Nat) (bs : List Byte) : (s.putBytes k bs).links = s.links := rfl
@[simp] theorem State.putBytes_timeBase (s : State) (k : Nat) (bs : List Byte) : (s.putBytes k bs).timeBase = s.timeBase := rfl
@[simp] theorem State.putBytes_boot (s : State) (k : Nat) (bs : List Byte) : (s.putBytes k bs).boot = s.boot := rfl
@[simp] theorem State.putBytes_teleSel (s : State) (k : Nat) (bs : List Byte) : (s.putBytes k bs).teleSel = s.teleSel := rfl
@[simp] theorem State.putBytes_seu (s : State) (k : Nat) (bs : List Byte) : (s.putBytes k bs).seu = s.seu := rfl
@[simp] theorem State.putBytes_perr (s : State) (k : Nat) (bs : List Byte) : (s.putBytes k bs).perr = s.perr := rfl
@[simp] theorem State.putBytes_sensors (s : State) (k : Nat) (bs : List Byte) : (s.putBytes k bs).sensors = s.sensors := rfl
@[simp] theorem State.putBytes_debug (s : State) (k : Nat) (bs : List Byte) : (s.putBytes k bs).debug = s.debug := rfl
@[simp] theorem State.putBytes_debugWait (s : State) (k : Nat) (bs : List Byte) : (s.putBytes k bs).debugWait = s.debugWait := rfl
@[simp] theorem State.putBytes_debugWord (s : State) (k : Nat) (bs : List Byte) : (s.putBytes k bs).debugWord = s.debugWord := rfl
@[simp] theorem State.putBytes_failover (s : State) (k : Nat) (bs : List Byte) : (s.putBytes k bs).failover = s.failover := rfl

@[simp] theorem State.holdSlate_mem (s : State) (h : Held) : (s.holdSlate h).mem = s.mem := rfl
@[simp] theorem State.holdSlate_now (s : State) (h : Held) : (s.holdSlate h).now = s.now := rfl
@[simp] theorem State.holdSlate_ctimeOff (s : State) (h : Held) : (s.holdSlate h).ctimeOff = s.ctimeOff := rfl
@[simp] theorem State.holdSlate_agenda (s : State) (h : Held) : (s.holdSlate h).agenda = s.agenda := rfl
@[simp] theorem State.holdSlate_turn (s : State) (h : Held) : (s.holdSlate h).turn = s.turn := rfl
@[simp] theorem State.holdSlate_cur (s : State) (h : Held) : (s.holdSlate h).cur = s.cur := rfl
@[simp] theorem State.holdSlate_free (s : State) (h : Held) : (s.holdSlate h).free = s.free := rfl
@[simp] theorem State.holdSlate_uids (s : State) (h : Held) : (s.holdSlate h).uids = s.uids := rfl
@[simp] theorem State.holdSlate_ids (s : State) (h : Held) : (s.holdSlate h).ids = s.ids := rfl
@[simp] theorem State.holdSlate_parts (s : State) (h : Held) : (s.holdSlate h).parts = s.parts := rfl
@[simp] theorem State.holdSlate_threads (s : State) (h : Held) : (s.holdSlate h).threads = s.threads := rfl
@[simp] theorem State.holdSlate_cores (s : State) (h : Held) : (s.holdSlate h).cores = s.cores := rfl
@[simp] theorem State.holdSlate_msgs (s : State) (h : Held) : (s.holdSlate h).msgs = s.msgs := rfl
@[simp] theorem State.holdSlate_launches (s : State) (h : Held) : (s.holdSlate h).launches = s.launches := rfl
@[simp] theorem State.holdSlate_levels (s : State) (h : Held) : (s.holdSlate h).levels = s.levels := rfl
@[simp] theorem State.holdSlate_frees (s : State) (h : Held) : (s.holdSlate h).frees = s.frees := rfl
@[simp] theorem State.holdSlate_adm (s : State) (h : Held) : (s.holdSlate h).adm = s.adm := rfl
@[simp] theorem State.holdSlate_admSeq (s : State) (h : Held) : (s.holdSlate h).admSeq = s.admSeq := rfl
@[simp] theorem State.holdSlate_refills (s : State) (h : Held) : (s.holdSlate h).refills = s.refills := rfl
@[simp] theorem State.holdSlate_elections (s : State) (h : Held) : (s.holdSlate h).elections = s.elections := rfl
@[simp] theorem State.holdSlate_masters (s : State) (h : Held) : (s.holdSlate h).masters = s.masters := rfl
@[simp] theorem State.holdSlate_pairs (s : State) (h : Held) : (s.holdSlate h).pairs = s.pairs := rfl
@[simp] theorem State.holdSlate_sched (s : State) (h : Held) : (s.holdSlate h).sched = s.sched := rfl
@[simp] theorem State.holdSlate_ctxs (s : State) (h : Held) : (s.holdSlate h).ctxs = s.ctxs := rfl
@[simp] theorem State.holdSlate_floors (s : State) (h : Held) : (s.holdSlate h).floors = s.floors := rfl
@[simp] theorem State.holdSlate_stamps (s : State) (h : Held) : (s.holdSlate h).stamps = s.stamps := rfl
@[simp] theorem State.holdSlate_outcome (s : State) (h : Held) : (s.holdSlate h).outcome = s.outcome := rfl
@[simp] theorem State.holdSlate_relFloors (s : State) (h : Held) : (s.holdSlate h).relFloors = s.relFloors := rfl
@[simp] theorem State.holdSlate_regs (s : State) (h : Held) : (s.holdSlate h).regs = s.regs := rfl
@[simp] theorem State.holdSlate_regLog (s : State) (h : Held) : (s.holdSlate h).regLog = s.regLog := rfl
@[simp] theorem State.holdSlate_shares (s : State) (h : Held) : (s.holdSlate h).shares = s.shares := rfl
@[simp] theorem State.holdSlate_sinks (s : State) (h : Held) : (s.holdSlate h).sinks = s.sinks := rfl
@[simp] theorem State.holdSlate_reelNext (s : State) (h : Held) : (s.holdSlate h).reelNext = s.reelNext := rfl
@[simp] theorem State.holdSlate_fenced (s : State) (h : Held) : (s.holdSlate h).fenced = s.fenced := rfl
@[simp] theorem State.holdSlate_toFence (s : State) (h : Held) : (s.holdSlate h).toFence = s.toFence := rfl
@[simp] theorem State.holdSlate_claims (s : State) (h : Held) : (s.holdSlate h).claims = s.claims := rfl
@[simp] theorem State.holdSlate_notices (s : State) (h : Held) : (s.holdSlate h).notices = s.notices := rfl
@[simp] theorem State.holdSlate_callProd (s : State) (h : Held) : (s.holdSlate h).callProd = s.callProd := rfl
@[simp] theorem State.holdSlate_callCons (s : State) (h : Held) : (s.holdSlate h).callCons = s.callCons := rfl
@[simp] theorem State.holdSlate_nodes (s : State) (h : Held) : (s.holdSlate h).nodes = s.nodes := rfl
@[simp] theorem State.holdSlate_windows (s : State) (h : Held) : (s.holdSlate h).windows = s.windows := rfl
@[simp] theorem State.holdSlate_caches (s : State) (h : Held) : (s.holdSlate h).caches = s.caches := rfl
@[simp] theorem State.holdSlate_walks (s : State) (h : Held) : (s.holdSlate h).walks = s.walks := rfl
@[simp] theorem State.holdSlate_treeQ (s : State) (h : Held) : (s.holdSlate h).treeQ = s.treeQ := rfl
@[simp] theorem State.holdSlate_treeOps (s : State) (h : Held) : (s.holdSlate h).treeOps = s.treeOps := rfl
@[simp] theorem State.holdSlate_reqs (s : State) (h : Held) : (s.holdSlate h).reqs = s.reqs := rfl
@[simp] theorem State.holdSlate_channels (s : State) (h : Held) : (s.holdSlate h).channels = s.channels := rfl
@[simp] theorem State.holdSlate_handles (s : State) (h : Held) : (s.holdSlate h).handles = s.handles := rfl
@[simp] theorem State.holdSlate_arrays (s : State) (h : Held) : (s.holdSlate h).arrays = s.arrays := rfl
@[simp] theorem State.holdSlate_stages (s : State) (h : Held) : (s.holdSlate h).stages = s.stages := rfl
@[simp] theorem State.holdSlate_keys (s : State) (h : Held) : (s.holdSlate h).keys = s.keys := rfl
@[simp] theorem State.holdSlate_beats (s : State) (h : Held) : (s.holdSlate h).beats = s.beats := rfl
@[simp] theorem State.holdSlate_scroll (s : State) (h : Held) : (s.holdSlate h).scroll = s.scroll := rfl
@[simp] theorem State.holdSlate_metered (s : State) (h : Held) : (s.holdSlate h).metered = s.metered := rfl
@[simp] theorem State.holdSlate_pages (s : State) (h : Held) : (s.holdSlate h).pages = s.pages := rfl
@[simp] theorem State.holdSlate_tables (s : State) (h : Held) : (s.holdSlate h).tables = s.tables := rfl
@[simp] theorem State.holdSlate_msixOn (s : State) (h : Held) : (s.holdSlate h).msixOn = s.msixOn := rfl
@[simp] theorem State.holdSlate_msixPend (s : State) (h : Held) : (s.holdSlate h).msixPend = s.msixPend := rfl
@[simp] theorem State.holdSlate_msixMsg (s : State) (h : Held) : (s.holdSlate h).msixMsg = s.msixMsg := rfl
@[simp] theorem State.holdSlate_busOut (s : State) (h : Held) : (s.holdSlate h).busOut = s.busOut := rfl
@[simp] theorem State.holdSlate_inbound (s : State) (h : Held) : (s.holdSlate h).inbound = s.inbound := rfl
@[simp] theorem State.holdSlate_results (s : State) (h : Held) : (s.holdSlate h).results = s.results := rfl
@[simp] theorem State.holdSlate_shared (s : State) (h : Held) : (s.holdSlate h).shared = s.shared := rfl
@[simp] theorem State.holdSlate_migFaults (s : State) (h : Held) : (s.holdSlate h).migFaults = s.migFaults := rfl
@[simp] theorem State.holdSlate_directory (s : State) (h : Held) : (s.holdSlate h).directory = s.directory := rfl
@[simp] theorem State.holdSlate_granted (s : State) (h : Held) : (s.holdSlate h).granted = s.granted := rfl
@[simp] theorem State.holdSlate_recalls (s : State) (h : Held) : (s.holdSlate h).recalls = s.recalls := rfl
@[simp] theorem State.holdSlate_conns (s : State) (h : Held) : (s.holdSlate h).conns = s.conns := rfl
@[simp] theorem State.holdSlate_links (s : State) (h : Held) : (s.holdSlate h).links = s.links := rfl
@[simp] theorem State.holdSlate_timeBase (s : State) (h : Held) : (s.holdSlate h).timeBase = s.timeBase := rfl
@[simp] theorem State.holdSlate_boot (s : State) (h : Held) : (s.holdSlate h).boot = s.boot := rfl
@[simp] theorem State.holdSlate_teleSel (s : State) (h : Held) : (s.holdSlate h).teleSel = s.teleSel := rfl
@[simp] theorem State.holdSlate_seu (s : State) (h : Held) : (s.holdSlate h).seu = s.seu := rfl
@[simp] theorem State.holdSlate_perr (s : State) (h : Held) : (s.holdSlate h).perr = s.perr := rfl
@[simp] theorem State.holdSlate_sensors (s : State) (h : Held) : (s.holdSlate h).sensors = s.sensors := rfl
@[simp] theorem State.holdSlate_debug (s : State) (h : Held) : (s.holdSlate h).debug = s.debug := rfl
@[simp] theorem State.holdSlate_debugWait (s : State) (h : Held) : (s.holdSlate h).debugWait = s.debugWait := rfl
@[simp] theorem State.holdSlate_debugWord (s : State) (h : Held) : (s.holdSlate h).debugWord = s.debugWord := rfl
@[simp] theorem State.holdSlate_failover (s : State) (h : Held) : (s.holdSlate h).failover = s.failover := rfl

/-! ### What they write -/

@[simp] theorem State.setThr_thr (s : State) (ep : Nat) (t : Thread) (e : Nat) :
    (s.setThr ep t).thr e = if e = ep then t else s.thr e := by simp [State.setThr, State.thr]
@[simp] theorem State.updThr_thr (s : State) (ep : Nat) (f : Thread → Thread) (e : Nat) :
    (s.updThr ep f).thr e = if e = ep then f (s.thr ep) else s.thr e := by simp [State.updThr]
@[simp] theorem State.upd_thr (s : State) (f : Thread → Thread) (e : Nat) :
    (s.upd f).thr e = if e = s.cur then f s.me else s.thr e := by simp [State.upd, State.me]
@[simp] theorem State.upd_me (s : State) (f : Thread → Thread) : (s.upd f).me = f s.me := by simp [State.me]
@[simp] theorem State.updRegs_me (s : State) (f : Regs → Regs) :
    (s.updRegs f).me = { s.me with regs := f s.me.regs } := by simp [State.updRegs]
@[simp] theorem State.setCore_core (s : State) (c : Nat) (k : Core) (d : Nat) :
    (s.setCore c k).core d = if d = c then k else s.core d := by simp [State.setCore, State.core]
@[simp] theorem State.updCore_core (s : State) (c : Nat) (f : Core → Core) (d : Nat) :
    (s.updCore c f).core d = if d = c then f (s.core c) else s.core d := by simp [State.updCore]
@[simp] theorem State.setFloor_floor (s : State) (k v j : Nat) :
    (s.setFloor k v).floor j = if j = k then v else s.floor j := by simp [State.setFloor, State.floor]
@[simp] theorem State.updPair_pair (s : State) (p : Nat) (f : Pair → Pair) (q : Nat) :
    (s.updPair p f).pair q = if q = p then f (s.pair p) else s.pair q := by simp [State.updPair, State.pair]
@[simp] theorem State.updSched_schedOf (s : State) (p : Nat) (f : Sched → Sched) (q : Nat) :
    (s.updSched p f).schedOf q = if q = p then f (s.schedOf p) else s.schedOf q := by
  simp [State.updSched, State.schedOf]

/-! ### The tables read through another table's update -/

@[simp] theorem State.setThr_core_same (s : State) (ep : Nat) (t : Thread) (d : Nat) : (s.setThr ep t).core d = s.core d := rfl
@[simp] theorem State.setThr_floor_same (s : State) (ep : Nat) (t : Thread) (j : Nat) : (s.setThr ep t).floor j = s.floor j := rfl
@[simp] theorem State.setThr_launch_same (s : State) (ep : Nat) (t : Thread) (p0 t0 : Nat) : (s.setThr ep t).launch p0 t0 = s.launch p0 t0 := rfl
@[simp] theorem State.setThr_level_same (s : State) (ep : Nat) (t : Thread) (l0 p0 i0 : Nat) : (s.setThr ep t).level l0 p0 i0 = s.level l0 p0 i0 := rfl
@[simp] theorem State.setThr_ctx_same (s : State) (ep : Nat) (t : Thread) (c0 : Nat) : (s.setThr ep t).ctx c0 = s.ctx c0 := rfl
@[simp] theorem State.setThr_share_same (s : State) (ep : Nat) (t : Thread) (d0 k0 : Nat) : (s.setThr ep t).share d0 k0 = s.share d0 k0 := rfl
@[simp] theorem State.setThr_sysReg_same (s : State) (ep : Nat) (t : Thread) (r0 : SysReg) (o0 d0 : Nat) : (s.setThr ep t).sysReg r0 o0 d0 = s.sysReg r0 o0 d0 := rfl
@[simp] theorem State.setThr_pair_same (s : State) (ep : Nat) (t : Thread) (p0 : Nat) : (s.setThr ep t).pair p0 = s.pair p0 := rfl
@[simp] theorem State.setThr_schedOf_same (s : State) (ep : Nat) (t : Thread) (p0 : Nat) : (s.setThr ep t).schedOf p0 = s.schedOf p0 := rfl
@[simp] theorem State.setThr_curCore_same (s : State) (ep : Nat) (t : Thread) : (s.setThr ep t).curCore = s.curCore := rfl
@[simp] theorem State.updThr_core_same (s : State) (ep : Nat) (f : Thread → Thread) (d : Nat) : (s.updThr ep f).core d = s.core d := rfl
@[simp] theorem State.updThr_floor_same (s : State) (ep : Nat) (f : Thread → Thread) (j : Nat) : (s.updThr ep f).floor j = s.floor j := rfl
@[simp] theorem State.updThr_launch_same (s : State) (ep : Nat) (f : Thread → Thread) (p0 t0 : Nat) : (s.updThr ep f).launch p0 t0 = s.launch p0 t0 := rfl
@[simp] theorem State.updThr_level_same (s : State) (ep : Nat) (f : Thread → Thread) (l0 p0 i0 : Nat) : (s.updThr ep f).level l0 p0 i0 = s.level l0 p0 i0 := rfl
@[simp] theorem State.updThr_ctx_same (s : State) (ep : Nat) (f : Thread → Thread) (c0 : Nat) : (s.updThr ep f).ctx c0 = s.ctx c0 := rfl
@[simp] theorem State.updThr_share_same (s : State) (ep : Nat) (f : Thread → Thread) (d0 k0 : Nat) : (s.updThr ep f).share d0 k0 = s.share d0 k0 := rfl
@[simp] theorem State.updThr_sysReg_same (s : State) (ep : Nat) (f : Thread → Thread) (r0 : SysReg) (o0 d0 : Nat) : (s.updThr ep f).sysReg r0 o0 d0 = s.sysReg r0 o0 d0 := rfl
@[simp] theorem State.updThr_pair_same (s : State) (ep : Nat) (f : Thread → Thread) (p0 : Nat) : (s.updThr ep f).pair p0 = s.pair p0 := rfl
@[simp] theorem State.updThr_schedOf_same (s : State) (ep : Nat) (f : Thread → Thread) (p0 : Nat) : (s.updThr ep f).schedOf p0 = s.schedOf p0 := rfl
@[simp] theorem State.updThr_curCore_same (s : State) (ep : Nat) (f : Thread → Thread) : (s.updThr ep f).curCore = s.curCore := rfl
@[simp] theorem State.upd_core_same (s : State) (f : Thread → Thread) (d : Nat) : (s.upd f).core d = s.core d := rfl
@[simp] theorem State.upd_floor_same (s : State) (f : Thread → Thread) (j : Nat) : (s.upd f).floor j = s.floor j := rfl
@[simp] theorem State.upd_launch_same (s : State) (f : Thread → Thread) (p0 t0 : Nat) : (s.upd f).launch p0 t0 = s.launch p0 t0 := rfl
@[simp] theorem State.upd_level_same (s : State) (f : Thread → Thread) (l0 p0 i0 : Nat) : (s.upd f).level l0 p0 i0 = s.level l0 p0 i0 := rfl
@[simp] theorem State.upd_ctx_same (s : State) (f : Thread → Thread) (c0 : Nat) : (s.upd f).ctx c0 = s.ctx c0 := rfl
@[simp] theorem State.upd_share_same (s : State) (f : Thread → Thread) (d0 k0 : Nat) : (s.upd f).share d0 k0 = s.share d0 k0 := rfl
@[simp] theorem State.upd_sysReg_same (s : State) (f : Thread → Thread) (r0 : SysReg) (o0 d0 : Nat) : (s.upd f).sysReg r0 o0 d0 = s.sysReg r0 o0 d0 := rfl
@[simp] theorem State.upd_pair_same (s : State) (f : Thread → Thread) (p0 : Nat) : (s.upd f).pair p0 = s.pair p0 := rfl
@[simp] theorem State.upd_schedOf_same (s : State) (f : Thread → Thread) (p0 : Nat) : (s.upd f).schedOf p0 = s.schedOf p0 := rfl
@[simp] theorem State.upd_curCore_same (s : State) (f : Thread → Thread) : (s.upd f).curCore = s.curCore := rfl
@[simp] theorem State.updRegs_core_same (s : State) (f : Regs → Regs) (d : Nat) : (s.updRegs f).core d = s.core d := rfl
@[simp] theorem State.updRegs_floor_same (s : State) (f : Regs → Regs) (j : Nat) : (s.updRegs f).floor j = s.floor j := rfl
@[simp] theorem State.updRegs_launch_same (s : State) (f : Regs → Regs) (p0 t0 : Nat) : (s.updRegs f).launch p0 t0 = s.launch p0 t0 := rfl
@[simp] theorem State.updRegs_level_same (s : State) (f : Regs → Regs) (l0 p0 i0 : Nat) : (s.updRegs f).level l0 p0 i0 = s.level l0 p0 i0 := rfl
@[simp] theorem State.updRegs_ctx_same (s : State) (f : Regs → Regs) (c0 : Nat) : (s.updRegs f).ctx c0 = s.ctx c0 := rfl
@[simp] theorem State.updRegs_share_same (s : State) (f : Regs → Regs) (d0 k0 : Nat) : (s.updRegs f).share d0 k0 = s.share d0 k0 := rfl
@[simp] theorem State.updRegs_sysReg_same (s : State) (f : Regs → Regs) (r0 : SysReg) (o0 d0 : Nat) : (s.updRegs f).sysReg r0 o0 d0 = s.sysReg r0 o0 d0 := rfl
@[simp] theorem State.updRegs_pair_same (s : State) (f : Regs → Regs) (p0 : Nat) : (s.updRegs f).pair p0 = s.pair p0 := rfl
@[simp] theorem State.updRegs_schedOf_same (s : State) (f : Regs → Regs) (p0 : Nat) : (s.updRegs f).schedOf p0 = s.schedOf p0 := rfl
@[simp] theorem State.updRegs_curCore_same (s : State) (f : Regs → Regs) : (s.updRegs f).curCore = s.curCore := rfl
@[simp] theorem State.setCore_thr_same (s : State) (c : Nat) (k : Core) (e : Nat) : (s.setCore c k).thr e = s.thr e := rfl
@[simp] theorem State.setCore_me_same (s : State) (c : Nat) (k : Core) : (s.setCore c k).me = s.me := rfl
@[simp] theorem State.setCore_floor_same (s : State) (c : Nat) (k : Core) (j : Nat) : (s.setCore c k).floor j = s.floor j := rfl
@[simp] theorem State.setCore_launch_same (s : State) (c : Nat) (k : Core) (p0 t0 : Nat) : (s.setCore c k).launch p0 t0 = s.launch p0 t0 := rfl
@[simp] theorem State.setCore_level_same (s : State) (c : Nat) (k : Core) (l0 p0 i0 : Nat) : (s.setCore c k).level l0 p0 i0 = s.level l0 p0 i0 := rfl
@[simp] theorem State.setCore_ctx_same (s : State) (c : Nat) (k : Core) (c0 : Nat) : (s.setCore c k).ctx c0 = s.ctx c0 := rfl
@[simp] theorem State.setCore_share_same (s : State) (c : Nat) (k : Core) (d0 k0 : Nat) : (s.setCore c k).share d0 k0 = s.share d0 k0 := rfl
@[simp] theorem State.setCore_sysReg_same (s : State) (c : Nat) (k : Core) (r0 : SysReg) (o0 d0 : Nat) : (s.setCore c k).sysReg r0 o0 d0 = s.sysReg r0 o0 d0 := rfl
@[simp] theorem State.setCore_pair_same (s : State) (c : Nat) (k : Core) (p0 : Nat) : (s.setCore c k).pair p0 = s.pair p0 := rfl
@[simp] theorem State.setCore_schedOf_same (s : State) (c : Nat) (k : Core) (p0 : Nat) : (s.setCore c k).schedOf p0 = s.schedOf p0 := rfl
@[simp] theorem State.setCore_curCore_same (s : State) (c : Nat) (k : Core) : (s.setCore c k).curCore = s.curCore := rfl
@[simp] theorem State.updCore_thr_same (s : State) (c : Nat) (f : Core → Core) (e : Nat) : (s.updCore c f).thr e = s.thr e := rfl
@[simp] theorem State.updCore_me_same (s : State) (c : Nat) (f : Core → Core) : (s.updCore c f).me = s.me := rfl
@[simp] theorem State.updCore_floor_same (s : State) (c : Nat) (f : Core → Core) (j : Nat) : (s.updCore c f).floor j = s.floor j := rfl
@[simp] theorem State.updCore_launch_same (s : State) (c : Nat) (f : Core → Core) (p0 t0 : Nat) : (s.updCore c f).launch p0 t0 = s.launch p0 t0 := rfl
@[simp] theorem State.updCore_level_same (s : State) (c : Nat) (f : Core → Core) (l0 p0 i0 : Nat) : (s.updCore c f).level l0 p0 i0 = s.level l0 p0 i0 := rfl
@[simp] theorem State.updCore_ctx_same (s : State) (c : Nat) (f : Core → Core) (c0 : Nat) : (s.updCore c f).ctx c0 = s.ctx c0 := rfl
@[simp] theorem State.updCore_share_same (s : State) (c : Nat) (f : Core → Core) (d0 k0 : Nat) : (s.updCore c f).share d0 k0 = s.share d0 k0 := rfl
@[simp] theorem State.updCore_sysReg_same (s : State) (c : Nat) (f : Core → Core) (r0 : SysReg) (o0 d0 : Nat) : (s.updCore c f).sysReg r0 o0 d0 = s.sysReg r0 o0 d0 := rfl
@[simp] theorem State.updCore_pair_same (s : State) (c : Nat) (f : Core → Core) (p0 : Nat) : (s.updCore c f).pair p0 = s.pair p0 := rfl
@[simp] theorem State.updCore_schedOf_same (s : State) (c : Nat) (f : Core → Core) (p0 : Nat) : (s.updCore c f).schedOf p0 = s.schedOf p0 := rfl
@[simp] theorem State.updCore_curCore_same (s : State) (c : Nat) (f : Core → Core) : (s.updCore c f).curCore = s.curCore := rfl
@[simp] theorem State.updPair_thr_same (s : State) (p : Nat) (f : Pair → Pair) (e : Nat) : (s.updPair p f).thr e = s.thr e := rfl
@[simp] theorem State.updPair_core_same (s : State) (p : Nat) (f : Pair → Pair) (d : Nat) : (s.updPair p f).core d = s.core d := rfl
@[simp] theorem State.updPair_me_same (s : State) (p : Nat) (f : Pair → Pair) : (s.updPair p f).me = s.me := rfl
@[simp] theorem State.updPair_floor_same (s : State) (p : Nat) (f : Pair → Pair) (j : Nat) : (s.updPair p f).floor j = s.floor j := rfl
@[simp] theorem State.updPair_launch_same (s : State) (p : Nat) (f : Pair → Pair) (p0 t0 : Nat) : (s.updPair p f).launch p0 t0 = s.launch p0 t0 := rfl
@[simp] theorem State.updPair_level_same (s : State) (p : Nat) (f : Pair → Pair) (l0 p0 i0 : Nat) : (s.updPair p f).level l0 p0 i0 = s.level l0 p0 i0 := rfl
@[simp] theorem State.updPair_ctx_same (s : State) (p : Nat) (f : Pair → Pair) (c0 : Nat) : (s.updPair p f).ctx c0 = s.ctx c0 := rfl
@[simp] theorem State.updPair_share_same (s : State) (p : Nat) (f : Pair → Pair) (d0 k0 : Nat) : (s.updPair p f).share d0 k0 = s.share d0 k0 := rfl
@[simp] theorem State.updPair_sysReg_same (s : State) (p : Nat) (f : Pair → Pair) (r0 : SysReg) (o0 d0 : Nat) : (s.updPair p f).sysReg r0 o0 d0 = s.sysReg r0 o0 d0 := rfl
@[simp] theorem State.updPair_schedOf_same (s : State) (p : Nat) (f : Pair → Pair) (p0 : Nat) : (s.updPair p f).schedOf p0 = s.schedOf p0 := rfl
@[simp] theorem State.updPair_curCore_same (s : State) (p : Nat) (f : Pair → Pair) : (s.updPair p f).curCore = s.curCore := rfl
@[simp] theorem State.updSched_thr_same (s : State) (p : Nat) (f : Sched → Sched) (e : Nat) : (s.updSched p f).thr e = s.thr e := rfl
@[simp] theorem State.updSched_core_same (s : State) (p : Nat) (f : Sched → Sched) (d : Nat) : (s.updSched p f).core d = s.core d := rfl
@[simp] theorem State.updSched_me_same (s : State) (p : Nat) (f : Sched → Sched) : (s.updSched p f).me = s.me := rfl
@[simp] theorem State.updSched_floor_same (s : State) (p : Nat) (f : Sched → Sched) (j : Nat) : (s.updSched p f).floor j = s.floor j := rfl
@[simp] theorem State.updSched_launch_same (s : State) (p : Nat) (f : Sched → Sched) (p0 t0 : Nat) : (s.updSched p f).launch p0 t0 = s.launch p0 t0 := rfl
@[simp] theorem State.updSched_level_same (s : State) (p : Nat) (f : Sched → Sched) (l0 p0 i0 : Nat) : (s.updSched p f).level l0 p0 i0 = s.level l0 p0 i0 := rfl
@[simp] theorem State.updSched_ctx_same (s : State) (p : Nat) (f : Sched → Sched) (c0 : Nat) : (s.updSched p f).ctx c0 = s.ctx c0 := rfl
@[simp] theorem State.updSched_share_same (s : State) (p : Nat) (f : Sched → Sched) (d0 k0 : Nat) : (s.updSched p f).share d0 k0 = s.share d0 k0 := rfl
@[simp] theorem State.updSched_sysReg_same (s : State) (p : Nat) (f : Sched → Sched) (r0 : SysReg) (o0 d0 : Nat) : (s.updSched p f).sysReg r0 o0 d0 = s.sysReg r0 o0 d0 := rfl
@[simp] theorem State.updSched_pair_same (s : State) (p : Nat) (f : Sched → Sched) (p0 : Nat) : (s.updSched p f).pair p0 = s.pair p0 := rfl
@[simp] theorem State.updSched_curCore_same (s : State) (p : Nat) (f : Sched → Sched) : (s.updSched p f).curCore = s.curCore := rfl
@[simp] theorem State.setLaunch_thr_same (s : State) (p t : Nat) (l : Launch) (e : Nat) : (s.setLaunch p t l).thr e = s.thr e := rfl
@[simp] theorem State.setLaunch_core_same (s : State) (p t : Nat) (l : Launch) (d : Nat) : (s.setLaunch p t l).core d = s.core d := rfl
@[simp] theorem State.setLaunch_me_same (s : State) (p t : Nat) (l : Launch) : (s.setLaunch p t l).me = s.me := rfl
@[simp] theorem State.setLaunch_floor_same (s : State) (p t : Nat) (l : Launch) (j : Nat) : (s.setLaunch p t l).floor j = s.floor j := rfl
@[simp] theorem State.setLaunch_level_same (s : State) (p t : Nat) (l : Launch) (l0 p0 i0 : Nat) : (s.setLaunch p t l).level l0 p0 i0 = s.level l0 p0 i0 := rfl
@[simp] theorem State.setLaunch_ctx_same (s : State) (p t : Nat) (l : Launch) (c0 : Nat) : (s.setLaunch p t l).ctx c0 = s.ctx c0 := rfl
@[simp] theorem State.setLaunch_share_same (s : State) (p t : Nat) (l : Launch) (d0 k0 : Nat) : (s.setLaunch p t l).share d0 k0 = s.share d0 k0 := rfl
@[simp] theorem State.setLaunch_sysReg_same (s : State) (p t : Nat) (l : Launch) (r0 : SysReg) (o0 d0 : Nat) : (s.setLaunch p t l).sysReg r0 o0 d0 = s.sysReg r0 o0 d0 := rfl
@[simp] theorem State.setLaunch_pair_same (s : State) (p t : Nat) (l : Launch) (p0 : Nat) : (s.setLaunch p t l).pair p0 = s.pair p0 := rfl
@[simp] theorem State.setLaunch_schedOf_same (s : State) (p t : Nat) (l : Launch) (p0 : Nat) : (s.setLaunch p t l).schedOf p0 = s.schedOf p0 := rfl
@[simp] theorem State.setLaunch_curCore_same (s : State) (p t : Nat) (l : Launch) : (s.setLaunch p t l).curCore = s.curCore := rfl
@[simp] theorem State.updLaunch_thr_same (s : State) (p t : Nat) (f : Launch → Launch) (e : Nat) : (s.updLaunch p t f).thr e = s.thr e := rfl
@[simp] theorem State.updLaunch_core_same (s : State) (p t : Nat) (f : Launch → Launch) (d : Nat) : (s.updLaunch p t f).core d = s.core d := rfl
@[simp] theorem State.updLaunch_me_same (s : State) (p t : Nat) (f : Launch → Launch) : (s.updLaunch p t f).me = s.me := rfl
@[simp] theorem State.updLaunch_floor_same (s : State) (p t : Nat) (f : Launch → Launch) (j : Nat) : (s.updLaunch p t f).floor j = s.floor j := rfl
@[simp] theorem State.updLaunch_level_same (s : State) (p t : Nat) (f : Launch → Launch) (l0 p0 i0 : Nat) : (s.updLaunch p t f).level l0 p0 i0 = s.level l0 p0 i0 := rfl
@[simp] theorem State.updLaunch_ctx_same (s : State) (p t : Nat) (f : Launch → Launch) (c0 : Nat) : (s.updLaunch p t f).ctx c0 = s.ctx c0 := rfl
@[simp] theorem State.updLaunch_share_same (s : State) (p t : Nat) (f : Launch → Launch) (d0 k0 : Nat) : (s.updLaunch p t f).share d0 k0 = s.share d0 k0 := rfl
@[simp] theorem State.updLaunch_sysReg_same (s : State) (p t : Nat) (f : Launch → Launch) (r0 : SysReg) (o0 d0 : Nat) : (s.updLaunch p t f).sysReg r0 o0 d0 = s.sysReg r0 o0 d0 := rfl
@[simp] theorem State.updLaunch_pair_same (s : State) (p t : Nat) (f : Launch → Launch) (p0 : Nat) : (s.updLaunch p t f).pair p0 = s.pair p0 := rfl
@[simp] theorem State.updLaunch_schedOf_same (s : State) (p t : Nat) (f : Launch → Launch) (p0 : Nat) : (s.updLaunch p t f).schedOf p0 = s.schedOf p0 := rfl
@[simp] theorem State.updLaunch_curCore_same (s : State) (p t : Nat) (f : Launch → Launch) : (s.updLaunch p t f).curCore = s.curCore := rfl
@[simp] theorem State.updLevel_thr_same (s : State) (l p i : Nat) (f : Level → Level) (e : Nat) : (s.updLevel l p i f).thr e = s.thr e := rfl
@[simp] theorem State.updLevel_core_same (s : State) (l p i : Nat) (f : Level → Level) (d : Nat) : (s.updLevel l p i f).core d = s.core d := rfl
@[simp] theorem State.updLevel_me_same (s : State) (l p i : Nat) (f : Level → Level) : (s.updLevel l p i f).me = s.me := rfl
@[simp] theorem State.updLevel_floor_same (s : State) (l p i : Nat) (f : Level → Level) (j : Nat) : (s.updLevel l p i f).floor j = s.floor j := rfl
@[simp] theorem State.updLevel_launch_same (s : State) (l p i : Nat) (f : Level → Level) (p0 t0 : Nat) : (s.updLevel l p i f).launch p0 t0 = s.launch p0 t0 := rfl
@[simp] theorem State.updLevel_ctx_same (s : State) (l p i : Nat) (f : Level → Level) (c0 : Nat) : (s.updLevel l p i f).ctx c0 = s.ctx c0 := rfl
@[simp] theorem State.updLevel_share_same (s : State) (l p i : Nat) (f : Level → Level) (d0 k0 : Nat) : (s.updLevel l p i f).share d0 k0 = s.share d0 k0 := rfl
@[simp] theorem State.updLevel_sysReg_same (s : State) (l p i : Nat) (f : Level → Level) (r0 : SysReg) (o0 d0 : Nat) : (s.updLevel l p i f).sysReg r0 o0 d0 = s.sysReg r0 o0 d0 := rfl
@[simp] theorem State.updLevel_pair_same (s : State) (l p i : Nat) (f : Level → Level) (p0 : Nat) : (s.updLevel l p i f).pair p0 = s.pair p0 := rfl
@[simp] theorem State.updLevel_schedOf_same (s : State) (l p i : Nat) (f : Level → Level) (p0 : Nat) : (s.updLevel l p i f).schedOf p0 = s.schedOf p0 := rfl
@[simp] theorem State.updLevel_curCore_same (s : State) (l p i : Nat) (f : Level → Level) : (s.updLevel l p i f).curCore = s.curCore := rfl
@[simp] theorem State.setFloor_thr_same (s : State) (src v : Nat) (e : Nat) : (s.setFloor src v).thr e = s.thr e := rfl
@[simp] theorem State.setFloor_core_same (s : State) (src v : Nat) (d : Nat) : (s.setFloor src v).core d = s.core d := rfl
@[simp] theorem State.setFloor_me_same (s : State) (src v : Nat) : (s.setFloor src v).me = s.me := rfl
@[simp] theorem State.setFloor_launch_same (s : State) (src v : Nat) (p0 t0 : Nat) : (s.setFloor src v).launch p0 t0 = s.launch p0 t0 := rfl
@[simp] theorem State.setFloor_level_same (s : State) (src v : Nat) (l0 p0 i0 : Nat) : (s.setFloor src v).level l0 p0 i0 = s.level l0 p0 i0 := rfl
@[simp] theorem State.setFloor_ctx_same (s : State) (src v : Nat) (c0 : Nat) : (s.setFloor src v).ctx c0 = s.ctx c0 := rfl
@[simp] theorem State.setFloor_share_same (s : State) (src v : Nat) (d0 k0 : Nat) : (s.setFloor src v).share d0 k0 = s.share d0 k0 := rfl
@[simp] theorem State.setFloor_sysReg_same (s : State) (src v : Nat) (r0 : SysReg) (o0 d0 : Nat) : (s.setFloor src v).sysReg r0 o0 d0 = s.sysReg r0 o0 d0 := rfl
@[simp] theorem State.setFloor_pair_same (s : State) (src v : Nat) (p0 : Nat) : (s.setFloor src v).pair p0 = s.pair p0 := rfl
@[simp] theorem State.setFloor_schedOf_same (s : State) (src v : Nat) (p0 : Nat) : (s.setFloor src v).schedOf p0 = s.schedOf p0 := rfl
@[simp] theorem State.setFloor_curCore_same (s : State) (src v : Nat) : (s.setFloor src v).curCore = s.curCore := rfl
@[simp] theorem State.setReg_thr_same (s : State) (r : SysReg) (o d : Nat) (v : Word) (e : Nat) : (s.setReg r o d v).thr e = s.thr e := rfl
@[simp] theorem State.setReg_core_same (s : State) (r : SysReg) (o d : Nat) (v : Word) (d : Nat) : (s.setReg r o d v).core d = s.core d := rfl
@[simp] theorem State.setReg_me_same (s : State) (r : SysReg) (o d : Nat) (v : Word) : (s.setReg r o d v).me = s.me := rfl
@[simp] theorem State.setReg_floor_same (s : State) (r : SysReg) (o d : Nat) (v : Word) (j : Nat) : (s.setReg r o d v).floor j = s.floor j := rfl
@[simp] theorem State.setReg_launch_same (s : State) (r : SysReg) (o d : Nat) (v : Word) (p0 t0 : Nat) : (s.setReg r o d v).launch p0 t0 = s.launch p0 t0 := rfl
@[simp] theorem State.setReg_level_same (s : State) (r : SysReg) (o d : Nat) (v : Word) (l0 p0 i0 : Nat) : (s.setReg r o d v).level l0 p0 i0 = s.level l0 p0 i0 := rfl
@[simp] theorem State.setReg_ctx_same (s : State) (r : SysReg) (o d : Nat) (v : Word) (c0 : Nat) : (s.setReg r o d v).ctx c0 = s.ctx c0 := rfl
@[simp] theorem State.setReg_share_same (s : State) (r : SysReg) (o d : Nat) (v : Word) (d0 k0 : Nat) : (s.setReg r o d v).share d0 k0 = s.share d0 k0 := rfl
@[simp] theorem State.setReg_pair_same (s : State) (r : SysReg) (o d : Nat) (v : Word) (p0 : Nat) : (s.setReg r o d v).pair p0 = s.pair p0 := rfl
@[simp] theorem State.setReg_schedOf_same (s : State) (r : SysReg) (o d : Nat) (v : Word) (p0 : Nat) : (s.setReg r o d v).schedOf p0 = s.schedOf p0 := rfl
@[simp] theorem State.setReg_curCore_same (s : State) (r : SysReg) (o d : Nat) (v : Word) : (s.setReg r o d v).curCore = s.curCore := rfl
@[simp] theorem State.setShare_thr_same (s : State) (d k : Nat) (x : Share) (e : Nat) : (s.setShare d k x).thr e = s.thr e := rfl
@[simp] theorem State.setShare_core_same (s : State) (d k : Nat) (x : Share) (d : Nat) : (s.setShare d k x).core d = s.core d := rfl
@[simp] theorem State.setShare_me_same (s : State) (d k : Nat) (x : Share) : (s.setShare d k x).me = s.me := rfl
@[simp] theorem State.setShare_floor_same (s : State) (d k : Nat) (x : Share) (j : Nat) : (s.setShare d k x).floor j = s.floor j := rfl
@[simp] theorem State.setShare_launch_same (s : State) (d k : Nat) (x : Share) (p0 t0 : Nat) : (s.setShare d k x).launch p0 t0 = s.launch p0 t0 := rfl
@[simp] theorem State.setShare_level_same (s : State) (d k : Nat) (x : Share) (l0 p0 i0 : Nat) : (s.setShare d k x).level l0 p0 i0 = s.level l0 p0 i0 := rfl
@[simp] theorem State.setShare_ctx_same (s : State) (d k : Nat) (x : Share) (c0 : Nat) : (s.setShare d k x).ctx c0 = s.ctx c0 := rfl
@[simp] theorem State.setShare_sysReg_same (s : State) (d k : Nat) (x : Share) (r0 : SysReg) (o0 d0 : Nat) : (s.setShare d k x).sysReg r0 o0 d0 = s.sysReg r0 o0 d0 := rfl
@[simp] theorem State.setShare_pair_same (s : State) (d k : Nat) (x : Share) (p0 : Nat) : (s.setShare d k x).pair p0 = s.pair p0 := rfl
@[simp] theorem State.setShare_schedOf_same (s : State) (d k : Nat) (x : Share) (p0 : Nat) : (s.setShare d k x).schedOf p0 = s.schedOf p0 := rfl
@[simp] theorem State.setShare_curCore_same (s : State) (d k : Nat) (x : Share) : (s.setShare d k x).curCore = s.curCore := rfl
@[simp] theorem State.post_thr_same (s : State) (m : Msg) (e : Nat) : (s.post m).thr e = s.thr e := rfl
@[simp] theorem State.post_core_same (s : State) (m : Msg) (d : Nat) : (s.post m).core d = s.core d := rfl
@[simp] theorem State.post_me_same (s : State) (m : Msg) : (s.post m).me = s.me := rfl
@[simp] theorem State.post_floor_same (s : State) (m : Msg) (j : Nat) : (s.post m).floor j = s.floor j := rfl
@[simp] theorem State.post_launch_same (s : State) (m : Msg) (p0 t0 : Nat) : (s.post m).launch p0 t0 = s.launch p0 t0 := rfl
@[simp] theorem State.post_level_same (s : State) (m : Msg) (l0 p0 i0 : Nat) : (s.post m).level l0 p0 i0 = s.level l0 p0 i0 := rfl
@[simp] theorem State.post_ctx_same (s : State) (m : Msg) (c0 : Nat) : (s.post m).ctx c0 = s.ctx c0 := rfl
@[simp] theorem State.post_share_same (s : State) (m : Msg) (d0 k0 : Nat) : (s.post m).share d0 k0 = s.share d0 k0 := rfl
@[simp] theorem State.post_sysReg_same (s : State) (m : Msg) (r0 : SysReg) (o0 d0 : Nat) : (s.post m).sysReg r0 o0 d0 = s.sysReg r0 o0 d0 := rfl
@[simp] theorem State.post_pair_same (s : State) (m : Msg) (p0 : Nat) : (s.post m).pair p0 = s.pair p0 := rfl
@[simp] theorem State.post_schedOf_same (s : State) (m : Msg) (p0 : Nat) : (s.post m).schedOf p0 = s.schedOf p0 := rfl
@[simp] theorem State.post_curCore_same (s : State) (m : Msg) : (s.post m).curCore = s.curCore := rfl
@[simp] theorem State.notify_thr_same (s : State) (c : Nat) (ws : List Word) (e : Nat) : (s.notify c ws).thr e = s.thr e := rfl
@[simp] theorem State.notify_core_same (s : State) (c : Nat) (ws : List Word) (d : Nat) : (s.notify c ws).core d = s.core d := rfl
@[simp] theorem State.notify_me_same (s : State) (c : Nat) (ws : List Word) : (s.notify c ws).me = s.me := rfl
@[simp] theorem State.notify_floor_same (s : State) (c : Nat) (ws : List Word) (j : Nat) : (s.notify c ws).floor j = s.floor j := rfl
@[simp] theorem State.notify_launch_same (s : State) (c : Nat) (ws : List Word) (p0 t0 : Nat) : (s.notify c ws).launch p0 t0 = s.launch p0 t0 := rfl
@[simp] theorem State.notify_level_same (s : State) (c : Nat) (ws : List Word) (l0 p0 i0 : Nat) : (s.notify c ws).level l0 p0 i0 = s.level l0 p0 i0 := rfl
@[simp] theorem State.notify_ctx_same (s : State) (c : Nat) (ws : List Word) (c0 : Nat) : (s.notify c ws).ctx c0 = s.ctx c0 := rfl
@[simp] theorem State.notify_share_same (s : State) (c : Nat) (ws : List Word) (d0 k0 : Nat) : (s.notify c ws).share d0 k0 = s.share d0 k0 := rfl
@[simp] theorem State.notify_sysReg_same (s : State) (c : Nat) (ws : List Word) (r0 : SysReg) (o0 d0 : Nat) : (s.notify c ws).sysReg r0 o0 d0 = s.sysReg r0 o0 d0 := rfl
@[simp] theorem State.notify_pair_same (s : State) (c : Nat) (ws : List Word) (p0 : Nat) : (s.notify c ws).pair p0 = s.pair p0 := rfl
@[simp] theorem State.notify_schedOf_same (s : State) (c : Nat) (ws : List Word) (p0 : Nat) : (s.notify c ws).schedOf p0 = s.schedOf p0 := rfl
@[simp] theorem State.notify_curCore_same (s : State) (c : Nat) (ws : List Word) : (s.notify c ws).curCore = s.curCore := rfl
@[simp] theorem State.putBytes_thr_same (s : State) (k : Nat) (bs : List Byte) (e : Nat) : (s.putBytes k bs).thr e = s.thr e := rfl
@[simp] theorem State.putBytes_core_same (s : State) (k : Nat) (bs : List Byte) (d : Nat) : (s.putBytes k bs).core d = s.core d := rfl
@[simp] theorem State.putBytes_me_same (s : State) (k : Nat) (bs : List Byte) : (s.putBytes k bs).me = s.me := rfl
@[simp] theorem State.putBytes_floor_same (s : State) (k : Nat) (bs : List Byte) (j : Nat) : (s.putBytes k bs).floor j = s.floor j := rfl
@[simp] theorem State.putBytes_launch_same (s : State) (k : Nat) (bs : List Byte) (p0 t0 : Nat) : (s.putBytes k bs).launch p0 t0 = s.launch p0 t0 := rfl
@[simp] theorem State.putBytes_level_same (s : State) (k : Nat) (bs : List Byte) (l0 p0 i0 : Nat) : (s.putBytes k bs).level l0 p0 i0 = s.level l0 p0 i0 := rfl
@[simp] theorem State.putBytes_ctx_same (s : State) (k : Nat) (bs : List Byte) (c0 : Nat) : (s.putBytes k bs).ctx c0 = s.ctx c0 := rfl
@[simp] theorem State.putBytes_share_same (s : State) (k : Nat) (bs : List Byte) (d0 k0 : Nat) : (s.putBytes k bs).share d0 k0 = s.share d0 k0 := rfl
@[simp] theorem State.putBytes_sysReg_same (s : State) (k : Nat) (bs : List Byte) (r0 : SysReg) (o0 d0 : Nat) : (s.putBytes k bs).sysReg r0 o0 d0 = s.sysReg r0 o0 d0 := rfl
@[simp] theorem State.putBytes_pair_same (s : State) (k : Nat) (bs : List Byte) (p0 : Nat) : (s.putBytes k bs).pair p0 = s.pair p0 := rfl
@[simp] theorem State.putBytes_schedOf_same (s : State) (k : Nat) (bs : List Byte) (p0 : Nat) : (s.putBytes k bs).schedOf p0 = s.schedOf p0 := rfl
@[simp] theorem State.putBytes_curCore_same (s : State) (k : Nat) (bs : List Byte) : (s.putBytes k bs).curCore = s.curCore := rfl
@[simp] theorem State.holdSlate_thr_same (s : State) (h : Held) (e : Nat) : (s.holdSlate h).thr e = s.thr e := rfl
@[simp] theorem State.holdSlate_core_same (s : State) (h : Held) (d : Nat) : (s.holdSlate h).core d = s.core d := rfl
@[simp] theorem State.holdSlate_me_same (s : State) (h : Held) : (s.holdSlate h).me = s.me := rfl
@[simp] theorem State.holdSlate_floor_same (s : State) (h : Held) (j : Nat) : (s.holdSlate h).floor j = s.floor j := rfl
@[simp] theorem State.holdSlate_launch_same (s : State) (h : Held) (p0 t0 : Nat) : (s.holdSlate h).launch p0 t0 = s.launch p0 t0 := rfl
@[simp] theorem State.holdSlate_level_same (s : State) (h : Held) (l0 p0 i0 : Nat) : (s.holdSlate h).level l0 p0 i0 = s.level l0 p0 i0 := rfl
@[simp] theorem State.holdSlate_ctx_same (s : State) (h : Held) (c0 : Nat) : (s.holdSlate h).ctx c0 = s.ctx c0 := rfl
@[simp] theorem State.holdSlate_share_same (s : State) (h : Held) (d0 k0 : Nat) : (s.holdSlate h).share d0 k0 = s.share d0 k0 := rfl
@[simp] theorem State.holdSlate_sysReg_same (s : State) (h : Held) (r0 : SysReg) (o0 d0 : Nat) : (s.holdSlate h).sysReg r0 o0 d0 = s.sysReg r0 o0 d0 := rfl
@[simp] theorem State.holdSlate_pair_same (s : State) (h : Held) (p0 : Nat) : (s.holdSlate h).pair p0 = s.pair p0 := rfl
@[simp] theorem State.holdSlate_schedOf_same (s : State) (h : Held) (p0 : Nat) : (s.holdSlate h).schedOf p0 = s.schedOf p0 := rfl
@[simp] theorem State.holdSlate_curCore_same (s : State) (h : Held) : (s.holdSlate h).curCore = s.curCore := rfl

end Sys2Proof.Machine
end

