-- ==== Sys2Proof/Laws/KeptOps.lean ====
section
/-!
SUPPORT. Which operations of the shared operations, the operands and the translation leave memory alone, and that each of the others keeps its canonical form.
-/
set_option maxRecDepth 10000
set_option linter.unusedSimpArgs false

namespace Sys2Proof.Machine

@[simp] theorem State.fresh_mem (s : State) : (State.fresh s).2.mem = s.mem := by
  simp [State.fresh]
@[simp] theorem State.freeValue_mem (s : State) : (State.freeValue s).2.mem = s.mem := by
  simp [State.freeValue]
@[simp] theorem State.raiseFloor_mem (s : State) (src v : Nat) : (State.raiseFloor s src v).mem = s.mem := by
  unfold State.raiseFloor; (try simp only []); (repeat' split); all_goals simp_all
@[simp] theorem State.stamp_mem (s : State) (src die : Nat) : (State.stamp s src die).2.mem = s.mem := by
  simp [State.stamp]
@[simp] theorem State.writeReg_mem (s : State) (r : SysReg) (owner : Nat) (v : Word) (die : Nat) (dies : List Nat)
    : (State.writeReg s r owner v die dies).mem = s.mem := by
  simp [State.writeReg]
@[simp] theorem State.reel_wf (s : State) (die : Nat) (x : Slate) (h : s.mem.wf = true)
    : (State.reel s die x).mem.wf = true := by
  unfold State.reel; (try simp only []); (repeat' split); all_goals simp_all
@[simp] theorem State.pushSlates_mem (s : State) (die sink : Nat) (xs : List Slate)
    : (State.pushSlates s die sink xs).mem = s.mem := by
  simp [State.pushSlates]
@[simp] theorem State.sideSlate_wf (s : State) (die sink time code ctx src payload : Nat) (h : s.mem.wf = true)
    : (State.sideSlate s die sink time code ctx src payload).2.mem.wf = true := by
  unfold State.sideSlate; (try simp only []); (repeat' split); all_goals simp_all
@[simp] theorem State.admitSlate_wf (s : State) (who src die sink ctx : Nat) (x : Slate) (completes : Bool)
    (h : s.mem.wf = true) : (State.admitSlate s who src die sink ctx x completes).mem.wf = true := by
  unfold State.admitSlate; (try simp only []); (repeat' split); all_goals simp_all
@[simp] theorem State.admitAll_wf (s : State) (who src die ctx : Nat) (completes : Bool) (x1 : List (Nat × Slate))
    (h : s.mem.wf = true) : (State.admitAll s who src die ctx completes x1).mem.wf = true := by
  fun_induction State.admitAll <;> simp_all (maxDischargeDepth := 8)
@[simp] theorem State.holdAll_mem (s : State) (who die ctx : Nat) (x1 : List (Nat × Slate))
    : (State.holdAll s who die ctx x1).mem = s.mem := by
  fun_induction State.holdAll <;> simp_all
@[simp] theorem State.form_wf (s : State) (who src die ctx code payload : Nat) (ext : Option (Word × Word)) (time : Nat)
    (hideHost completes : Bool) (h : s.mem.wf = true)
    : (State.form s who src die ctx code payload ext time hideHost completes).mem.wf = true := by
  unfold State.form; (try simp only []); (repeat' split); all_goals simp_all
@[simp] theorem State.emitX_wf (s : State) (src die ctx code payload : Nat) (ext : Option (Word × Word))
    (completes : Bool) (h : s.mem.wf = true)
    : (State.emitX s src die ctx code payload ext completes).mem.wf = true := by
  unfold State.emitX; (try simp only []); (repeat' split); all_goals simp_all
@[simp] theorem State.emit_wf (s : State) (src die ctx code payload : Nat) (h : s.mem.wf = true)
    : (State.emit s src die ctx code payload).mem.wf = true := by
  simp [State.emit, h]
@[simp] theorem State.emitExt_wf (s : State) (src die ctx code payload : Nat) (x y : Word) (h : s.mem.wf = true)
    : (State.emitExt s src die ctx code payload x y).mem.wf = true := by
  simp [State.emitExt, h]
@[simp] theorem State.emitNi_wf (s : State) (core code payload : Nat) (h : s.mem.wf = true)
    : (State.emitNi s core code payload).mem.wf = true := by
  unfold State.emitNi; (try simp only []); (repeat' split); all_goals simp_all
@[simp] theorem State.emitMe_wf (s : State) (code payload : Nat) (h : s.mem.wf = true)
    : (State.emitMe s code payload).mem.wf = true := by
  simp [State.emitMe, h]
@[simp] theorem State.faultMsg_mem (s : State) (ctx die src stampSrc : Nat) (f : FaultInfo)
    : (State.faultMsg s ctx die src stampSrc f).mem = s.mem := by
  unfold State.faultMsg; (try simp only []); (repeat' split); all_goals simp_all
@[simp] theorem State.coreFault_mem (s : State) (ep : Nat) (f : FaultInfo) : (State.coreFault s ep f).mem = s.mem := by
  simp [State.coreFault]
@[simp] theorem State.touch_mem (s : State) (ep : Nat) (write : Bool) (addr : Nat)
    : (State.touch s ep write addr).mem = s.mem := by
  simp [State.touch]
@[simp] theorem State.logUndo_mem (s : State) (ep addr : Nat) : (State.logUndo s ep addr).mem = s.mem := by
  unfold State.logUndo; (try simp only []); (repeat' split); all_goals simp_all
@[simp] theorem State.putBytes_wf (s : State) (key : Nat) (bs : List Byte) (h : s.mem.wf = true)
    : (State.putBytes s key bs).mem.wf = true := by
  simp [State.putBytes, h]
@[simp] theorem State.padLoad_mem (s : State) (ep c addr n : Nat) : (State.padLoad s ep c addr n).2.mem = s.mem := by
  unfold State.padLoad; (try simp only []); (repeat' split); all_goals simp_all
@[simp] theorem State.padStore_wf (s : State) (ep c addr n v : Nat) (h : s.mem.wf = true)
    : (State.padStore s ep c addr n v).mem.wf = true := by
  unfold State.padStore; (try simp only []); (repeat' split); all_goals simp_all
@[simp] theorem State.padWords_wf (s : State) (ep : Nat) (x1 : List Word) (x2 : Nat) (h : s.mem.wf = true)
    : (State.padWords s ep x1 x2).mem.wf = true := by
  induction x1 generalizing s x2 with
  | nil => exact h
  | cons w l ih => unfold State.padWords; simp [ih, h]
@[simp] theorem State.enterTrap_wf (s : State) (ep : Nat) (cw d0 : Word) (epc : W32) (h : s.mem.wf = true)
    : (State.enterTrap s ep cw d0 epc).mem.wf = true := by
  simp [State.enterTrap, h]
@[simp] theorem State.takeTrap_wf (s : State) (ep : Nat) (cw d0 : Word) (epc : W32) (h : s.mem.wf = true)
    : (State.takeTrap s ep cw d0 epc).mem.wf = true := by
  unfold State.takeTrap; (try simp only []); (repeat' split); all_goals simp_all
@[simp] theorem State.takeTraps_wf (s : State) (cw d0 : Word) (epc : W32) (x1 : List Nat) (h : s.mem.wf = true)
    : (State.takeTraps s cw d0 epc x1).mem.wf = true := by
  fun_induction State.takeTraps <;> simp_all (maxDischargeDepth := 8)
@[simp] theorem State.setWaits_mem (s : State) (w : Wait) (x1 : List Nat) : (State.setWaits s w x1).mem = s.mem := by
  fun_induction State.setWaits <;> simp_all
@[simp] theorem State.raiseAt_wf (s : State) (cause : Nat) (imp : Bool) (d0 : Word) (epc : W32) (h : s.mem.wf = true)
    : (State.raiseAt s cause imp d0 epc).mem.wf = true := by
  unfold State.raiseAt; (try simp only []); (repeat' split); all_goals simp_all
@[simp] theorem State.raise_wf (s : State) (cause : Nat) (d0 : Word) (h : s.mem.wf = true)
    : (State.raise s cause d0).mem.wf = true := by
  simp [State.raise, h]
@[simp] theorem State.padReads_mem (s : State) (ep n a : Nat) : (s.padReads ep n a).2.mem = s.mem := by
  induction n generalizing s a with
  | zero => rfl
  | succ n ih => unfold State.padReads; simp [ih]
@[simp] theorem State.reinject_mem (s : State) (ep : Nat) (l : List RqEntry) : (s.reinject ep l).mem = s.mem := by
  induction l generalizing s with
  | nil => rfl
  | cons e es ih => 
    unfold State.reinject; simp only []
    repeat' split
    all_goals (rw [ih]; try simp)
@[simp] theorem State.returnTrap_wf (s : State) (ep : Nat) (h : s.mem.wf = true) : (s.returnTrap ep).mem.wf = true := by
  unfold State.returnTrap; simp only []
  split <;> simp [h]
@[simp] theorem State.returnTraps_wf (s : State) (x1 : List Nat) (h : s.mem.wf = true) : (s.returnTraps x1).mem.wf = true := by
  induction x1 generalizing s with
  | nil => exact h
  | cons a l ih => unfold State.returnTraps; exact ih _ (State.returnTrap_wf _ _ h)
@[simp] theorem State.done_mem (s : State) (len : Nat) : (State.done s len).mem = s.mem := by
  simp [State.done]
@[simp] theorem State.finish_mem (s : State) (d : Dst) (v : Word) (len : Nat)
    : (State.finish s d v len).mem = s.mem := by
  simp [State.finish]
@[simp] theorem State.finishLate_mem (s : State) (i : Instr) (d : Dst) (a b c : Word)
    : (State.finishLate s i d a b c).mem = s.mem := by
  simp [State.finishLate]
@[simp] theorem State.reserve_mem (s : State) (d : Dst) (tree : Bool) (acq : Option Scope) :
    (State.reserve s d tree acq).2.mem = s.mem := by
  simp [State.reserve]
@[simp] theorem State.gotoIn_wf (s : State) (target : W32) (delay : Nat) (h : s.mem.wf = true) : (State.gotoIn s target delay).mem.wf = true := by
  unfold State.gotoIn; (try simp only []); (repeat' split); all_goals simp_all (maxDischargeDepth := 8)
@[simp] theorem State.goto_wf (s : State) (target : W32) (h : s.mem.wf = true)
    : (State.goto s target).mem.wf = true := by
  unfold State.goto; (try simp only []); (repeat' split); all_goals simp_all
@[simp] theorem State.setNode_mem (s : State) (i : Nat) (n : Node) : (State.setNode s i n).mem = s.mem := by
  simp [State.setNode]
@[simp] theorem State.portError_mem (s : State) (port : Nat) : (State.portError s port).mem = s.mem := by
  simp [State.portError]
@[simp] theorem State.tellSealed_wf (s : State) (src die phys : Nat) (requester : Word) (h : s.mem.wf = true) : (State.tellSealed s src die phys requester).mem.wf = true := by
  simp [State.tellSealed, h]
@[simp] theorem State.setGranule_wf (s : State) (slot g : Nat) (bs : List Byte) (h : s.mem.wf = true)
    : (State.setGranule s slot g bs).mem.wf = true := by
  simp [State.setGranule, h]
@[simp] theorem State.sealedWrite_wf (s : State) (slot a : Nat) (bs : List Byte) (x1 x2 : Nat) (h : s.mem.wf = true)
    : (State.sealedWrite s slot a bs x1 x2).mem.wf = true := by
  fun_induction State.sealedWrite <;> simp_all (maxDischargeDepth := 8)
@[simp] theorem State.openWrite_wf (s : State) (k a : Nat) (bs : List Byte) (h : s.mem.wf = true)
    : (State.openWrite s k a bs).mem.wf = true := by
  induction k generalizing s a bs with
  | zero => exact h
  | succ k ih => unfold State.openWrite; refine ih _ _ _ ?_; split <;> simp [h]
@[simp] theorem State.physWrite_wf (s : State) (l : Landing) (bs : List Byte) (h : s.mem.wf = true)
    : (State.physWrite s l bs).mem.wf = true := by
  unfold State.physWrite; (try simp only []); (repeat' split); all_goals simp_all
@[simp] theorem State.setCache_mem (s : State) (die : Nat) (c : List Cached)
    : (State.setCache s die c).mem = s.mem := by
  simp [State.setCache]
@[simp] theorem State.walk_mem (s : State) (ctx va die : Nat) : (State.walk s ctx va die).2.mem = s.mem := by
  unfold State.walk; (try simp only []); (repeat' split); all_goals simp_all
@[simp] theorem State.translate_mem (s : State) (ctx va n : Nat) (k : Access) (atomic : Bool) (die : Nat)
    : (State.translate s ctx va n k atomic die).2.mem = s.mem := by
  unfold State.translate; (try simp only []); (repeat' split); all_goals simp_all
@[simp] theorem State.transFault_wf (s : State) (ctx die : Nat) (f : TransFault) (access issuer launch va size : Nat)
    (detail : Word) (h : s.mem.wf = true)
    : (State.transFault s ctx die f access issuer launch va size detail).mem.wf = true := by
  unfold State.transFault; (try simp only []); (repeat' split); all_goals simp_all
@[simp] theorem State.snoopLines_mem (s : State) (x1 : List (Nat × List Nat × Bool)) : (State.snoopLines s x1).mem = s.mem := by
  fun_induction State.snoopLines <;> simp_all
@[simp] theorem State.recallLines_mem (s : State) (phys n : Nat) (write : Bool) : (State.recallLines s phys n write).mem = s.mem := by
  simp [State.recallLines]
@[simp] theorem State.askFor_mem (s : State) (phys n : Nat) (write : Bool) : (State.askFor s phys n write).mem = s.mem := by
  unfold State.askFor; (try simp only []); (repeat' split); all_goals simp_all
@[simp] theorem State.joinWalk_wf (s : State) (die who ctx va : Nat) (h : s.mem.wf = true) : (State.joinWalk s die who ctx va).mem.wf = true := by
  unfold State.joinWalk; (try simp only []); (repeat' split); all_goals simp_all (maxDischargeDepth := 8)
@[simp] theorem State.leaveWalk_mem (s : State) (die who : Nat) : (State.leaveWalk s die who).mem = s.mem := by
  unfold State.leaveWalk; (try simp only []); (repeat' split); all_goals simp_all
@[simp] theorem State.putAck_mem (s : State) (conn ack : Nat) (refused : Bool) : (State.putAck s conn ack refused).mem = s.mem := by
  simp [State.putAck]
@[simp] theorem State.ackFrame_mem (s : State) (conn : Nat) : (State.ackFrame s conn).mem = s.mem := by
  simp [State.ackFrame]
@[simp] theorem State.refuseFrame_mem (s : State) (conn : Nat) : (State.refuseFrame s conn).mem = s.mem := by
  simp [State.refuseFrame]
@[simp] theorem State.putFrame_mem (s : State) (conn : Nat) (f : Frame) : (State.putFrame s conn f).mem = s.mem := by
  unfold State.putFrame; (try simp only []); (repeat' split); all_goals simp_all
@[simp] theorem State.putFrames_mem (s : State) (conn : Nat) (x1 : List Frame) : (State.putFrames s conn x1).mem = s.mem := by
  fun_induction State.putFrames <;> simp_all

end Sys2Proof.Machine
end

