-- ==== Sys2Proof/Laws/Ends.lean ====
section
/-!
SUPPORT. What each end of an instruction does, once: a result, no result, a taken transfer, a trap; and what a scratchpad access does.
-/
namespace Sys2Proof.Machine

/-! ### One thread's record -/

theorem State.upd_thr_other (s : State) (f : Thread → Thread) {j : Nat} (h : j ≠ s.cur) : (s.upd f).thr j = s.thr j := by
  simp [State.upd, State.updThr_thr, h]

/-- A change of the acting thread's record changes nothing else. -/
theorem State.upd_onlyMe (s : State) (f : Thread → Thread) : OnlyMe s (s.upd f) :=
  ⟨rfl, fun _ h => s.upd_thr_other f h⟩

/-! ### The end of an instruction (R62, R75) -/

/-- Outside a repetition the pc moves to the next instruction, past a slot of four bytes at a window's end. -/
theorem Thread.advance_none {t : Thread} (len : Nat) (h : t.rep = none) :
    t.advance len = { t with retired := t.retired + 1, onHandle := none, ckptAt := none,
                             regs := { t.regs with pc := nextPc t.regs.pc len, pix := 0 } } := by
  simp only [Thread.advance, h]

/-- In a repetition the pc moves to the body's next instruction. -/
theorem Thread.advance_body {t : Thread} {r : Rep} {a : W32} {i : Instr} (len : Nat) (h : t.rep = some r)
    (hb : r.body[r.idx + 1]? = some (a, i)) :
    t.advance len = { t with retired := t.retired + 1, onHandle := none, ckptAt := none,
                             regs := { t.regs with pc := a, pix := 0 }, rep := some { r with idx := r.idx + 1 } } := by
  simp only [Thread.advance, h, hb]

/-- Whatever the repetition does, nothing changes but where the thread stands. -/
theorem Thread.advance_cases (t : Thread) (len : Nat) : ∃ (pc : W32) (rep : Option Rep) (shift : Nat),
    t.advance len = { t with retired := t.retired + 1, onHandle := none, ckptAt := none,
                             regs := { t.regs with pc := pc, pix := 0 }, rep := rep, shift := shift } := by
  cases h : t.rep with
  | none => exact ⟨_, none, t.shift, by rw [Thread.advance_none len h, ← h]⟩
  | some r =>
    cases hb : r.body[r.idx + 1]? with
    | some x => exact ⟨x.1, _, t.shift, Thread.advance_body len h hb⟩
    | none =>
      by_cases hp : r.pass + 1 < r.passes
      · exact ⟨r.start, some { r with pass := r.pass + 1, idx := 0 }, (r.pass + 1) * r.stagger % 8, by simp only [Thread.advance, h, hb, if_pos hp]⟩
      · exact ⟨r.after, none, 0, by simp only [Thread.advance, h, hb, if_neg hp]⟩

theorem Thread.advance_regs (t : Thread) (len : Nat) :
    { (t.advance len).regs with pc := t.regs.pc, pix := t.regs.pix } = t.regs := by
  obtain ⟨pc, rep, shift, h⟩ := t.advance_cases len
  rw [h]

@[simp] theorem Thread.advance_w (t : Thread) (len : Nat) : (t.advance len).regs.w = t.regs.w := by
  obtain ⟨_, _, _, h⟩ := t.advance_cases len; rw [h]
@[simp] theorem Thread.advance_k (t : Thread) (len : Nat) : (t.advance len).regs.k = t.regs.k := by
  obtain ⟨_, _, _, h⟩ := t.advance_cases len; rw [h]
@[simp] theorem Thread.advance_g (t : Thread) (len : Nat) : (t.advance len).regs.g = t.regs.g := by
  obtain ⟨_, _, _, h⟩ := t.advance_cases len; rw [h]
@[simp] theorem Thread.advance_p (t : Thread) (len : Nat) : (t.advance len).regs.p = t.regs.p := by
  obtain ⟨_, _, _, h⟩ := t.advance_cases len; rw [h]
@[simp] theorem Thread.advance_acc (t : Thread) (len : Nat) : (t.advance len).regs.acc = t.regs.acc := by
  obtain ⟨_, _, _, h⟩ := t.advance_cases len; rw [h]
@[simp] theorem Thread.advance_rng (t : Thread) (len : Nat) : (t.advance len).regs.rng = t.regs.rng := by
  obtain ⟨_, _, _, h⟩ := t.advance_cases len; rw [h]
@[simp] theorem Thread.advance_ras (t : Thread) (len : Nat) : (t.advance len).regs.ras = t.regs.ras := by
  obtain ⟨_, _, _, h⟩ := t.advance_cases len; rw [h]

/-- Of the rest of the thread only where it stands changes. -/
theorem Thread.advance_rest (t : Thread) (len : Nat) :
    { t.advance len with regs := t.regs, retired := t.retired, rep := t.rep, shift := t.shift, onHandle := t.onHandle,
                         ckptAt := t.ckptAt } = t := by
  obtain ⟨pc, rep, shift, h⟩ := t.advance_cases len
  rw [h]

@[simp] theorem Thread.advance_issueAt (t : Thread) (len : Nat) : (t.advance len).issueAt = t.issueAt := by
  obtain ⟨_, _, _, h⟩ := t.advance_cases len; rw [h]

@[simp] theorem Thread.advance_pix (t : Thread) (len : Nat) : (t.advance len).regs.pix = 0 := by
  obtain ⟨pc, rep, shift, h⟩ := t.advance_cases len
  rw [h]

theorem Thread.advance_pc {t : Thread} (len : Nat) (h : t.rep = none) :
    (t.advance len).regs.pc = nextPc t.regs.pc len ∧ (t.advance len).rep = none := by
  rw [t.advance_none len h]; exact ⟨rfl, h⟩

/-- An end with nothing pushed: the pc moves and nothing else changes. -/
theorem State.done_passed (s : State) (len : Nat) : Passed s (s.done len) len := by
  refine ⟨?_, ⟨?_, ?_⟩, ?_, s.upd_onlyMe _⟩
  · intro h
    simp only [State.done, State.upd_me]
    exact ⟨(Thread.advance_pc len h).1, Thread.advance_pix _ _, (Thread.advance_pc len h).2⟩
  · simp only [State.done, State.upd_me]; exact Thread.advance_regs _ _
  · simp only [State.done, State.upd_me]
    obtain ⟨_, _, _, h⟩ := s.me.advance_cases len
    rw [h]
  · simp only [State.done, State.upd_me]; exact Thread.advance_issueAt _ _

/-! ### Results (R56, R69) -/

theorem Thread.result_regs (t : Thread) (d : Dst) (v : Word) :
    { (t.result d v).regs with w := t.regs.w, k := t.regs.k } = t.regs := by
  cases d <;> rfl

theorem Thread.result_w (t : Thread) (d : Dst) (v : Word) :
    (t.result d v).regs.w = #v[v, t.regs.w[0], t.regs.w[1], t.regs.w[2]] := by
  cases d <;> rfl

/-- The nib register that the destination names takes the value, and no other does. -/
theorem Thread.result_k (t : Thread) (d : Dst) (v : Word) (j : Fin 8) :
    (t.result d v).regs.k[j] = if t.renamedDst d = .nib j then v else t.regs.k[j] := by
  cases d with
  | wet => simp [Thread.result, Thread.renamedDst, Regs.push]
  | nib i =>
    simp only [Thread.result, Thread.renamedDst, Regs.push, Dst.nib.injEq, Fin.getElem_fin, Fin.ext_iff]
    exact Vector.getElem_set _ _

theorem Thread.result_rest (t : Thread) (d : Dst) (v : Word) :
    { t.result d v with regs := t.regs, pushes := t.pushes } = t := rfl

@[simp] theorem Thread.result_pc (t : Thread) (d : Dst) (v : Word) : (t.result d v).regs.pc = t.regs.pc := by cases d <;> rfl
@[simp] theorem Thread.result_rep (t : Thread) (d : Dst) (v : Word) : (t.result d v).rep = t.rep := rfl

theorem eq_of_parts {r a b : Regs} (h1 : { b with pc := a.pc, pix := a.pix } = a)
    (h2 : { a with w := r.w, k := r.k } = r) :
    { b with w := r.w, k := r.k, pc := r.pc, pix := r.pix, rng := r.rng } = r := by
  cases r; cases a; cases b; simp_all

/-- An end with a result: the push, the pc, and nothing else. -/
theorem State.finish_result (s : State) (d : Dst) (v : Word) (len : Nat) : Result s (s.finish d v len) d v len := by
  have hm : (s.finish d v len).me = (s.me.result d v).advance len := by simp [State.finish]
  refine ⟨⟨?_, ?_⟩, ?_, ⟨?_, ?_⟩, s.upd_onlyMe _⟩
  · rw [hm, Thread.advance_w, Thread.result_w]
  · intro j
    rw [hm]
    simp only [Thread.advance_k]
    exact Thread.result_k _ _ _ _
  · intro h
    rw [hm]
    have := Thread.advance_pc (t := s.me.result d v) len h
    exact ⟨by rw [this.1, Thread.result_pc], Thread.advance_pix _ _, this.2⟩
  · rw [hm]; exact eq_of_parts (Thread.advance_regs _ _) (Thread.result_regs _ _ _)
  · rw [hm]
    have h1 := Thread.advance_rest (s.me.result d v) len
    have h2 := Thread.result_rest s.me d v
    generalize s.me.result d v = a at h1 h2 ⊢
    generalize a.advance len = b at h1 ⊢
    generalize s.me = r at h2 ⊢
    cases r; cases a; cases b; simp_all

theorem State.finish_rng (s : State) (d : Dst) (v : Word) (len : Nat) : (s.finish d v len).me.regs.rng = s.me.regs.rng := by
  simp only [State.finish, State.upd_me, Thread.advance_rng]
  cases d <;> rfl

/-! ### Taken transfers (R62, R63) -/

/-- A transfer that lands: the pc is at the target, no other register has changed, and the thread issues after the delay. -/
theorem State.gotoIn_lands {s : State} {target : W32} (n : Nat) (hf : s.me.follows = false) (h : Lands s target) :
    s.gotoIn target n = s.upd fun t =>
      { t with regs := { t.regs with pc := target, pix := 0 }, retired := t.retired + 1,
               issueAt := (s.core s.curCore).clock + 1 + n } := by
  obtain ⟨h1, h2, h3⟩ := h
  unfold State.gotoIn
  rw [if_neg (by simp [hf]), if_neg (by simp [h1]; omega), if_neg (by simpa using h3)]

theorem State.goto_lands {s : State} {target : W32} (hf : s.me.follows = false) (h : Lands s target) :
    s.goto target = s.upd fun t =>
      { t with regs := { t.regs with pc := target, pix := 0 }, retired := t.retired + 1,
               issueAt := (s.core s.curCore).clock + 1 + 2 } := State.gotoIn_lands 2 hf h

theorem State.goto_follows {s : State} (target : W32) (hf : s.me.follows = true) : s.goto target = s.done 8 := by
  unfold State.goto State.gotoIn; rw [if_pos hf]

/-- A misaligned target and one outside the scratchpad raise cause 0x03 at the transfer. -/
theorem State.goto_fault {s : State} {target : W32} (hf : s.me.follows = false)
    (h : target.toNat % 4 ≠ 0 ∨ padSize s.curCore ≤ target.toNat) :
    s.goto target = s.raise 0x03 (target.setWidth 64) := by
  unfold State.goto State.gotoIn
  rw [if_neg (by simp [hf]), if_pos (by simpa using h)]

/-! ### Traps (R423) -/

/-- Outside a gang a fault is a trap of the acting thread alone. -/
theorem State.raise_alone {s : State} (cause : Nat) (d0 : Word) (h : s.me.gang = none) :
    s.raise cause d0 = s.takeTrap s.cur (causeWord cause false) d0 s.me.regs.pc := by
  simp only [State.raise, State.raiseAt, h]

/-- A drained thread with a handler enters it now. -/
theorem State.takeTrap_enters {s : State} {ep : Nat} (cw d0 : Word) (epc : W32) (hd : (s.thr ep).drained = true)
    (hf : s.fatal ep = false) : s.takeTrap ep cw d0 epc = s.enterTrap ep cw d0 epc := by
  simp [State.takeTrap, hd, hf]

/-- Any other trap waits: nothing changes but that the thread has it, and no longer waits for anything else. -/
theorem State.takeTrap_waits {s : State} {ep : Nat} (cw d0 : Word) (epc : W32)
    (h : (s.thr ep).drained = false ∨ s.fatal ep = true) :
    s.takeTrap ep cw d0 epc = s.updThr ep fun t => { t with trapPend := some (cw, d0, epc), wait := .none } := by
  unfold State.takeTrap
  rw [if_neg (by cases h <;> simp [*])]

/-! ### The scratchpad (R245, R247, R435) -/

/-- A store writes its bytes, unless its address lies in a guard granule. -/
theorem State.padStore_mem (s : State) (ep c addr n v : Nat) :
    (s.padStore ep c addr n v).mem =
      if (s.core c).guarded addr = true then s.mem else s.mem.writeNat n (padKey c addr) v := by
  unfold State.padStore
  split
  · simp
  · simp only []
    split <;> simp

/-- So every byte outside the stored ones reads as before. -/
theorem State.padStore_sameBut {s : State} (ep c addr n v : Nat) (h : s.mem.wf = true) :
    SameBut s (s.padStore ep c addr n v) (padKey c addr) n := by
  intro x hx
  rw [State.padStore_mem]
  split
  · rfl
  · exact Memory.read_writeNat_other n h _ _ _ hx

/-- A load in a guard granule reads zero and is counted against its thread. -/
theorem State.padLoad_guarded {s : State} {c addr : Nat} (ep n : Nat) (h : (s.core c).guarded addr = true) :
    s.padLoad ep c addr n = (0, s.touch ep false addr) := by
  simp [State.padLoad, h]

/-- Any other load reads memory and changes nothing. -/
theorem State.padLoad_reads {s : State} {c addr : Nat} (ep n : Nat) (h : (s.core c).guarded addr = false) :
    s.padLoad ep c addr n = (s.mem.readNat n (padKey c addr), s) := by
  simp [State.padLoad, h]

end Sys2Proof.Machine
end

