-- ==== Sys2Proof/Laws/KeptUnits.lean ====
section
/-!
SUPPORT. Which operations of units, the accesses of threads, and issue leave memory alone, and that each of the others keeps its canonical form.
-/
set_option maxRecDepth 10000
set_option linter.unusedSimpArgs false

namespace Sys2Proof.Machine

@[simp] theorem State.emitMaster_wf (s : State) (part ctx code payload : Nat) (h : s.mem.wf = true)
    : (State.emitMaster s part ctx code payload).mem.wf = true := by
  simp [State.emitMaster, h]
theorem State.takeIndex_mem (s : State) (lvl part : Nat) {r : Nat × State} (hr : State.takeIndex s lvl part = some r)
    : r.2.mem = s.mem := by
  unfold State.takeIndex at hr
  (try simp only [] at hr)
  (repeat' split at hr)
  (all_goals simp_all)
  (all_goals (try subst hr))
  all_goals simp
@[simp] theorem State.giveIndex_mem (s : State) (lvl part i : Nat) : (State.giveIndex s lvl part i).mem = s.mem := by
  simp [State.giveIndex]
@[simp] theorem State.promoteSlots_mem (s : State) (part graph : Nat) (x1 : NMap Slot) :
    (s.promoteSlots part graph x1).mem = s.mem := by
  induction x1 generalizing s with
  | nil => rfl
  | cons a l ih =>
    unfold State.promoteSlots; simp only [ih]
    repeat' split
    all_goals simp
@[simp] theorem State.promote_mem (s : State) (part : Nat) (x1 : List Nat) : (s.promote part x1).mem = s.mem := by
  induction x1 generalizing s with
  | nil => rfl
  | cons a l ih =>
    unfold State.promote; simp only [ih]
    repeat' split
    all_goals simp
@[simp] theorem State.promoteAll_mem (s : State) (part : Nat) : (State.promoteAll s part).mem = s.mem := by
  simp [State.promoteAll]
@[simp] theorem State.settleLevel_mem (s : State) (lvl part i : Nat)
    : (State.settleLevel s lvl part i).mem = s.mem := by
  unfold State.settleLevel; (try simp only []); (repeat' split); all_goals simp_all
@[simp] theorem State.settleGraph_mem (s : State) (part graph : Nat)
    : (State.settleGraph s part graph).mem = s.mem := by
  simp [State.settleGraph]
@[simp] theorem State.sendVector_mem (s : State) (port vec : Nat) : (State.sendVector s port vec).mem = s.mem := by
  simp [State.sendVector]
@[simp] theorem State.msix_mem (s : State) (port vec : Nat) : (State.msix s port vec).mem = s.mem := by
  unfold State.msix; (try simp only []); (repeat' split); all_goals simp_all
@[simp] theorem State.pageVector_mem (s : State) (x1 : Option Nat) : (State.pageVector s x1).mem = s.mem := by
  unfold State.pageVector; (try simp only []); (repeat' split); all_goals simp_all
@[simp] theorem State.landWrite_wf (s : State) (l : Landing) (bs : List Byte) (h : s.mem.wf = true)
    : (State.landWrite s l bs).mem.wf = true := by
  unfold State.landWrite; (try simp only []); (repeat' split); all_goals simp_all
@[simp] theorem State.joinReq_wf (s : State) (r : Req) (h : s.mem.wf = true) : (State.joinReq s r).mem.wf = true := by
  unfold State.joinReq; (try simp only []); (repeat' split); all_goals simp_all (maxDischargeDepth := 8)
@[simp] theorem State.completionEntry_wf (s : State) (part tag : Nat) (l : Launch) (h : s.mem.wf = true)
    : (State.completionEntry s part tag l).mem.wf = true := by
  unfold State.completionEntry; (try simp only []); (repeat' split); all_goals simp_all
@[simp] theorem State.settleLaunch_wf (s : State) (part tag : Nat) (h : s.mem.wf = true)
    : (State.settleLaunch s part tag).mem.wf = true := by
  unfold State.settleLaunch; (try simp only []); (repeat' split); all_goals simp_all
@[simp] theorem State.countStart_mem (s : State) (part launch : Nat) (det : Bool)
    : (State.countStart s part launch det).mem = s.mem := by
  unfold State.countStart; (try simp only []); (repeat' split); all_goals simp_all
@[simp] theorem State.countExit_wf (s : State) (part launch : Nat) (det err : Bool) (h : s.mem.wf = true)
    : (State.countExit s part launch det err).mem.wf = true := by
  unfold State.countExit; (try simp only []); (repeat' split); all_goals simp_all
@[simp] theorem State.countAck_mem (s : State) (part launch : Nat) (det : Bool)
    : (State.countAck s part launch det).mem = s.mem := by
  unfold State.countAck; (try simp only []); (repeat' split); all_goals simp_all
@[simp] theorem State.dropAck_wf (s : State) (part launch : Nat) (det : Bool) (h : s.mem.wf = true)
    : (State.dropAck s part launch det).mem.wf = true := by
  unfold State.dropAck; (try simp only []); (repeat' split); all_goals simp_all
@[simp] theorem State.countError_mem (s : State) (part launch : Nat) (det : Bool)
    : (State.countError s part launch det).mem = s.mem := by
  unfold State.countError; (try simp only []); (repeat' split); all_goals simp_all
@[simp] theorem State.updUnit_mem (s : State) (ep uid : Nat) (f : Thread → Thread) : (State.updUnit s ep uid f).mem = s.mem := by
  unfold State.updUnit; (try simp only []); (repeat' split); all_goals simp_all
@[simp] theorem State.raiseUnit_mem (s : State) (ep uid v : Nat) : (State.raiseUnit s ep uid v).mem = s.mem := by
  unfold State.raiseUnit; (try simp only []); (repeat' split); all_goals simp_all
@[simp] theorem State.updOcc_mem (s : State) (ep uid : Nat) (f : Occ → Occ)
    : (State.updOcc s ep uid f).mem = s.mem := by
  unfold State.updOcc; (try simp only []); (repeat' split); all_goals simp_all
@[simp] theorem State.startUnit_wf (s : State) (ep : Nat) (hdr : Word) (payload : List Word) (floor : Nat) (entry : W32)
    (routine : Routine) (h : s.mem.wf = true)
    : (State.startUnit s ep hdr payload floor entry routine).mem.wf = true := by
  simp [State.startUnit, h]
@[simp] theorem State.badHandler_wf (s : State) (ep : Nat) (hdr : Word) (h : s.mem.wf = true)
    : (State.badHandler s ep hdr).mem.wf = true := by
  simp [State.badHandler, h]
@[simp] theorem State.refillPairs_mem (s : State) (l : List Nat) : (s.refillPairs l).mem = s.mem := by
  induction l generalizing s with
  | nil => rfl
  | cons a l ih => unfold State.refillPairs; simp only []; rw [ih]; split <;> simp
@[simp] theorem State.refillOnce_mem (s : State) : s.refillOnce.mem = s.mem := by simp [State.refillOnce]
@[simp] theorem State.refillTimes_mem (s : State) (n : Nat) : (s.refillTimes n).mem = s.mem := by
  induction n generalizing s with
  | zero => rfl
  | succ n ih => unfold State.refillTimes; simp [ih]
@[simp] theorem State.chargeUnit_mem (s : State) (core eclass : Nat) : (s.chargeUnit core eclass).mem = s.mem := by
  unfold State.chargeUnit; split <;> simp
@[simp] theorem State.runUnit_wf (s : State) (ep : Nat) (hdr : Word) (payload : List Word) (floor : Nat)
    (routine : Routine) (h : s.mem.wf = true) : (State.runUnit s ep hdr payload floor routine).mem.wf = true := by
  unfold State.runUnit; (try simp only []); (repeat' split); all_goals simp_all
@[simp] theorem State.spillAppend_wf (s : State) (core : Nat) (hdr : Word) (payload : List Word) (floor : Nat)
    (h : s.mem.wf = true) : (State.spillAppend s core hdr payload floor).mem.wf = true := by
  simp [State.spillAppend, h]
@[simp] theorem State.skimSpill_wf (s : State) (core : Nat) (x1 : Nat) (h : s.mem.wf = true) : (State.skimSpill s core x1).mem.wf = true := by
  induction x1 generalizing s <;> (unfold State.skimSpill; (try simp only []); (repeat' split) <;> simp_all (maxDischargeDepth := 8))
@[simp] theorem State.resume_mem (s : State) (ep : Nat) (p : ParkSlot) : (State.resume s ep p).mem = s.mem := by
  simp [State.resume]
@[simp] theorem State.takeUp_wf (s : State) (core x1 : Nat) (h : s.mem.wf = true) : (s.takeUp core x1).mem.wf = true := by
  induction x1 generalizing s with
  | zero => exact h
  | succ n ih =>
    unfold State.takeUp; simp only []
    repeat' split
    all_goals simp [ih, h]
@[simp] theorem State.unbindIfIdle_mem (s : State) (core : Nat) : (State.unbindIfIdle s core).mem = s.mem := by
  unfold State.unbindIfIdle; (try simp only []); (repeat' split); all_goals simp_all
@[simp] theorem State.settleCore_wf (s : State) (core : Nat) (h : s.mem.wf = true)
    : (State.settleCore s core).mem.wf = true := by
  simp [State.settleCore, h]
@[simp] theorem State.landRead_mem (s : State) (l : Landing) (n : Nat) : (State.landRead s l n).2.mem = s.mem := by
  unfold State.landRead; (try simp only []); (repeat' split); all_goals simp_all
@[simp] theorem State.farRead_wf (s : State) (who ctx va n die : Nat) (h : s.mem.wf = true) : (State.farRead s who ctx va n die).2.mem.wf = true := by
  unfold State.farRead; (try simp only []); (repeat' split); all_goals simp_all (maxDischargeDepth := 8)
@[simp] theorem State.copyImage_wf (s : State) (core ctx die n va dst : Nat) (h : s.mem.wf = true) :
    (s.copyImage core ctx die n va dst).2.mem.wf = true := by
  induction n generalizing s va dst with
  | zero => exact h
  | succ n ih =>
    have hr := State.farRead_wf s (bindWalk core) ctx va 64 die h
    unfold State.copyImage
    split <;> rename_i he <;> rw [he] at hr
    · exact ih _ _ _ (Memory.wf_writeBytes _ _ _ hr)
    · exact hr
@[simp] theorem State.bindCore_wf (s : State) (core ctx : Nat) (im : List Word) (h : s.mem.wf = true)
    : (State.bindCore s core ctx im).mem.wf = true := by
  unfold State.bindCore; (try simp only []); (repeat' split); all_goals simp_all
@[simp] theorem State.bindTo_wf (s : State) (core ctx tag : Nat) (h : s.mem.wf = true) : (State.bindTo s core ctx tag).2.mem.wf = true := by
  unfold State.bindTo; (try simp only []); (repeat' split); all_goals simp_all (maxDischargeDepth := 8)
@[simp] theorem State.bind_wf (s : State) (core : Nat) (hdr : Word) (h : s.mem.wf = true) :
    (s.bind core hdr).2.mem.wf = true := by
  have hr := State.bindTo_wf s core (hdrCtx hdr) (hdrLaunch hdr) h
  unfold State.bind
  split
  · rename_i he; rw [he] at hr; exact State.countExit_wf _ _ _ _ _ hr
  · exact hr
@[simp] theorem State.occUp_mem (s : State) (c : Nat) : (State.occUp s c).mem = s.mem := by
  simp [State.occUp]
@[simp] theorem State.occDown_mem (s : State) (ep uid c floor : Nat)
    : (State.occDown s ep uid c floor).mem = s.mem := by
  unfold State.occDown; (try simp only []); (repeat' split); all_goals simp_all
@[simp] theorem State.answer_mem (s : State) (ep uid id : Nat) (v : Word)
    : (State.answer s ep uid id v).mem = s.mem := by
  unfold State.answer; (try simp only []); (repeat' split); all_goals simp_all
@[simp] theorem State.request_wf (s : State) (r : Req) (h : s.mem.wf = true) : (State.request s r).mem.wf = true := by
  unfold State.request; (try simp only []); (repeat' split); all_goals simp_all (maxDischargeDepth := 8)
@[simp] theorem State.requestOwn_mem (s : State) (r : Req) : (State.requestOwn s r).mem = s.mem := by
  simp [State.requestOwn]
@[simp] theorem State.serviceAccess_wf (s : State) (core ctx va n : Nat) (store : Option Word) (order : Bool) (h : s.mem.wf = true) : (State.serviceAccess s core ctx va n store order).mem.wf = true := by
  unfold State.serviceAccess; (try simp only []); (repeat' split); all_goals simp_all (maxDischargeDepth := 8)
@[simp] theorem State.setReq_mem (s : State) (r : Req) : (State.setReq s r).mem = s.mem := by
  simp [State.setReq]
@[simp] theorem State.wakeOp_mem (s : State) (ep uid id : Nat) : (State.wakeOp s ep uid id).mem = s.mem := by
  unfold State.wakeOp; (try simp only []); (repeat' split); all_goals simp_all
@[simp] theorem State.storeAcked_mem (s : State) (r : Req) : (State.storeAcked s r).mem = s.mem := by
  unfold State.storeAcked; (try simp only []); (repeat' split); all_goals simp_all
@[simp] theorem State.ackArrived_mem (s : State) (k : ReqKind) : (State.ackArrived s k).mem = s.mem := by
  unfold State.ackArrived; (try simp only []); (repeat' split); all_goals simp_all
@[simp] theorem State.endReq_wf (s : State) (r : Req) (h : s.mem.wf = true) : (State.endReq s r).mem.wf = true := by
  unfold State.endReq; (try simp only []); (repeat' split); all_goals simp_all
@[simp] theorem State.touchUnit_mem (s : State) (ep uid : Nat) (write : Bool) (addr : Nat)
    : (State.touchUnit s ep uid write addr).mem = s.mem := by
  unfold State.touchUnit; (try simp only []); (repeat' split); all_goals simp_all
@[simp] theorem State.unitLoad_mem (s : State) (ep uid core off n : Nat)
    : (State.unitLoad s ep uid core off n).2.mem = s.mem := by
  unfold State.unitLoad; (try simp only []); (repeat' split); all_goals simp_all
@[simp] theorem State.unitStore_wf (s : State) (ep uid core off n v : Nat) (h : s.mem.wf = true)
    : (State.unitStore s ep uid core off n v).mem.wf = true := by
  unfold State.unitStore; (try simp only []); (repeat' split); all_goals simp_all
@[simp] theorem State.unitRead_mem (s : State) (ep uid core n off : Nat) : (s.unitRead ep uid core n off).2.mem = s.mem := by
  induction n generalizing s off with
  | zero => rfl
  | succ n ih => unfold State.unitRead; simp [ih]
@[simp] theorem State.unitWrite_wf (s : State) (ep uid core : Nat) (x1 : List Byte) (x2 : Nat) (h : s.mem.wf = true)
    : (State.unitWrite s ep uid core x1 x2).mem.wf = true := by
  fun_induction State.unitWrite <;> simp_all (maxDischargeDepth := 8)
@[simp] theorem State.reqRead_mem (s : State) (r : Req) (data : List Byte)
    : (State.reqRead s r data).2.mem = s.mem := by
  unfold State.reqRead; (try simp only []); (repeat' split); all_goals simp_all
@[simp] theorem State.reqWrite_wf (s : State) (r : Req) (bs : List Byte) (h : s.mem.wf = true)
    : (State.reqWrite s r bs).mem.wf = true := by
  unfold State.reqWrite; (try simp only []); (repeat' split); all_goals simp_all
@[simp] theorem State.acquireAt_mem (s : State) (ep uid key n : Nat) : (State.acquireAt s ep uid key n).mem = s.mem := by
  simp [State.acquireAt]
@[simp] theorem State.acquireMe_mem (s : State) (key n : Nat) : (State.acquireMe s key n).mem = s.mem := by
  simp [State.acquireMe]
@[simp] theorem State.releaseAt_mem (s : State) (key n floor : Nat) : (State.releaseAt s key n floor).mem = s.mem := by
  simp [State.releaseAt]
@[simp] theorem State.reqAcquire_mem (s : State) (r : Req) : (State.reqAcquire s r).mem = s.mem := by
  unfold State.reqAcquire; (try simp only []); (repeat' split); all_goals simp_all
@[simp] theorem State.reqRelease_mem (s : State) (r : Req) : (State.reqRelease s r).mem = s.mem := by
  unfold State.reqRelease; (try simp only []); (repeat' split); all_goals simp_all
@[simp] theorem State.endLdaq_wf (s : State) (r : Req) (d : Dst) (v : Word) (h : s.mem.wf = true)
    : (State.endLdaq s r d v).mem.wf = true := by
  unfold State.endLdaq; (try simp only []); (repeat' split); all_goals simp_all
@[simp] theorem State.granuleDone_wf (s : State) (r : Req) (n : Nat) (h : s.mem.wf = true) : (State.granuleDone s r n).mem.wf = true := by
  unfold State.granuleDone; (try simp only []); (repeat' split); all_goals simp_all (maxDischargeDepth := 8)
@[simp] theorem State.burstRefused_wf (s : State) (r : Req) (ep : Nat) (h : s.mem.wf = true) : (State.burstRefused s r ep).mem.wf = true := by
  unfold State.burstRefused; (try simp only []); (repeat' split); all_goals simp_all (maxDischargeDepth := 8)
@[simp] theorem State.performReq_wf (s : State) (r : Req) (data : List Byte) (h : s.mem.wf = true) : (State.performReq s r data).mem.wf = true := by
  unfold State.performReq; (try simp only []); (repeat' split); all_goals simp_all (maxDischargeDepth := 8)
@[simp] theorem State.settleReq_wf (s : State) (r : Req) (h : s.mem.wf = true)
    : (State.settleReq s r).mem.wf = true := by
  unfold State.settleReq; (try simp only []); (repeat' split); all_goals simp_all
@[simp] theorem State.charge_mem (s : State) (id ctx phys size : Nat)
    : (State.charge s id ctx phys size).mem = s.mem := by
  unfold State.charge; (try simp only []); (repeat' split); all_goals simp_all
@[simp] theorem State.translateReq_wf (s : State) (r : Req) (h : s.mem.wf = true)
    : (State.translateReq s r).mem.wf = true := by
  unfold State.translateReq; (try simp only []); (repeat' split); all_goals simp_all
@[simp] theorem State.recallFor_wf (s : State) (r : Req) (h : s.mem.wf = true) : (State.recallFor s r).mem.wf = true := by
  unfold State.recallFor; (try simp only []); (repeat' split); all_goals simp_all (maxDischargeDepth := 8)
@[simp] theorem State.sendFrame_mem (s : State) (conn ctx : Nat) (hdr : Word) (dest addr : Nat) (words : List Word) (message : Bool) (op : Option Nat) : (State.sendFrame s conn ctx hdr dest addr words message op).mem = s.mem := by
  unfold State.sendFrame; (try simp only []); (repeat' split); all_goals simp_all
@[simp] theorem State.tellUndelivered_mem (s : State) (conn ctx ep launch : Nat) (dest : Word)
    : (State.tellUndelivered s conn ctx ep launch dest).mem = s.mem := by
  simp [State.tellUndelivered]
@[simp] theorem State.failReq_wf (s : State) (conn : Nat) (r : Req) (dest : Word) (h : s.mem.wf = true) : (State.failReq s conn r dest).mem.wf = true := by
  unfold State.failReq; (try simp only []); (repeat' split); all_goals simp_all (maxDischargeDepth := 8)
@[simp] theorem State.failWrite_wf (s : State) (conn : Nat) (r : Req) (h : s.mem.wf = true)
    : (State.failWrite s conn r).mem.wf = true := by
  simp [State.failWrite, h]
@[simp] theorem State.engineLand_wf (s : State) (ctx ep launch : Nat) (det : Bool) (l : Landing) (bs : List Byte) (h : s.mem.wf = true) : (State.engineLand s ctx ep launch det l bs).mem.wf = true := by
  unfold State.engineLand; (try simp only []); (repeat' split); all_goals simp_all (maxDischargeDepth := 8)
@[simp] theorem State.tick_mem (s : State) (ep : Nat) (i : Instr) : (State.tick s ep i).mem = s.mem := by
  simp [State.tick]
@[simp] theorem State.settleRng_mem (s : State) (ep : Nat) (i : Instr) : (State.settleRng s ep i).mem = s.mem := by
  unfold State.settleRng; (try simp only []); (repeat' split); all_goals simp_all
@[simp] theorem State.recordSlow_mem (before after : State) (ep : Nat) (i : Instr) :
    (State.recordSlow before after ep i).mem = after.mem := by
  unfold State.recordSlow; simp only []; split <;> simp
@[simp] theorem State.dropLdaq_mem (s : State) (ep : Nat) (x1 : Wait) : (State.dropLdaq s ep x1).mem = s.mem := by
  unfold State.dropLdaq; (try simp only []); (repeat' split); all_goals simp_all
@[simp] theorem State.tookTurn_wf (s : State) (ep : Nat) (x1 : List Nat) (h : s.mem.wf = true)
    : (State.tookTurn s ep x1).mem.wf = true := by
  induction x1 generalizing s <;> (unfold State.tookTurn; (try simp only []); (repeat' split) <;> simp_all (maxDischargeDepth := 8))
@[simp] theorem State.takePreempt_wf (s : State) (ep m q : Nat) (h : s.mem.wf = true) : (State.takePreempt s ep m q).mem.wf = true := by
  unfold State.takePreempt; (try simp only []); (repeat' split); all_goals simp_all (maxDischargeDepth := 8)
@[simp] theorem State.forward_give_mem (x : Ahead) (l : List Nat) (s : State) : (State.forward.give x l s).mem = s.mem := by
  induction l generalizing s with
  | nil => rfl
  | cons a l ih => unfold State.forward.give; simp [ih]
@[simp] theorem State.forward_mem (before after : State) (ep : Nat) (i : Instr) : (before.forward after ep i).mem = after.mem := by
  unfold State.forward; simp only []
  repeat' split
  all_goals simp
@[simp] theorem State.nextMove_mem (s : State) : (State.nextMove s).2.mem = s.mem := by
  unfold State.nextMove; (try simp only []); (repeat' split); all_goals simp_all
@[simp] theorem State.placeWord_wf (s : State) (nbits w : Nat) (h : s.mem.wf = true)
    : (State.placeWord s nbits w).mem.wf = true := by
  simp [State.placeWord, h]
@[simp] theorem State.sendPush_wf (s : State) (d : Dst) (mk : State → Nat → Req) (h : s.mem.wf = true) : (State.sendPush s d mk).mem.wf = true := by
  unfold State.sendPush; (try simp only []); (repeat' split); all_goals simp_all (maxDischargeDepth := 8)
@[simp] theorem State.sendStore_wf (s : State) (mk : State → Nat → Req) (h : s.mem.wf = true) : (State.sendStore s mk).mem.wf = true := by
  unfold State.sendStore; (try simp only []); (repeat' split); all_goals simp_all (maxDischargeDepth := 8)
@[simp] theorem State.nearLoad_mem (s : State) (t : IntTy) (acq : Bool) (addr : Nat) : (State.nearLoad s t acq addr).2.mem = s.mem := by
  unfold State.nearLoad; (try simp only []); (repeat' split); all_goals simp_all
@[simp] theorem State.nearStore_wf (s : State) (n addr v : Nat) (rel : Bool) (h : s.mem.wf = true) : (State.nearStore s n addr v rel).mem.wf = true := by
  unfold State.nearStore; (try simp only []); (repeat' split); all_goals simp_all (maxDischargeDepth := 8)
@[simp] theorem State.storeAt_wf (s : State) (t : IntTy) (sc : Scope) (rel : Bool) (v : Word) (x1 : Ref) (h : s.mem.wf = true) : (State.storeAt s t sc rel v x1).mem.wf = true := by
  induction x1 generalizing s <;> (unfold State.storeAt; (try simp only []); (repeat' split) <;> simp_all (maxDischargeDepth := 8))
@[simp] theorem State.reserveNib_mem (s : State) (k : Fin 8) : (State.reserveNib s k).2.mem = s.mem := by
  simp [State.reserveNib]
@[simp] theorem State.holdLast_mem (s : State) (before : Nat) : (State.holdLast s before).mem = s.mem := by
  unfold State.holdLast; (try simp only []); (repeat' split); all_goals simp_all
@[simp] theorem State.nearAtomic_wf (s : State) (t : IntTy) (o : Ord) (addr : Nat) (f : Nat → Option Nat) (h : s.mem.wf = true) : (State.nearAtomic s t o addr f).2.mem.wf = true := by
  unfold State.nearAtomic; (try simp only []); (repeat' split); all_goals simp_all (maxDischargeDepth := 8)
@[simp] theorem State.atomicAt_wf (s : State) (t : IntTy) (sc : Scope) (o : Ord) (dst : Dst) (f : Nat → Option Nat) (kind : ReqKind) (x1 : Ref) (h : s.mem.wf = true) : (State.atomicAt s t sc o dst f kind x1).mem.wf = true := by
  induction x1 generalizing s <;> (unfold State.atomicAt; (try simp only []); (repeat' split) <;> simp_all (maxDischargeDepth := 8))
@[simp] theorem State.observe_mem (s : State) (c : Nat) (thr : BitVec 6) : (State.observe s c thr).mem = s.mem := by
  unfold State.observe; (try simp only []); (repeat' split); all_goals simp_all

end Sys2Proof.Machine
end

