-- ==== Sys2Proof/Laws/KeptLaunches.lean ====
section
/-!
SUPPORT. Which operations of launches, records and messages leave memory alone, and that each of the others keeps its canonical form.
-/
set_option maxRecDepth 10000
set_option linter.unusedSimpArgs false

namespace Sys2Proof.Machine

@[simp] theorem State.sendQuiet_wf (s : State) (mk : State → Nat → Req) (cls : Nat) (h : s.mem.wf = true) : (State.sendQuiet s mk cls).mem.wf = true := by
  unfold State.sendQuiet; (try simp only []); (repeat' split); all_goals simp_all (maxDischargeDepth := 8)
@[simp] theorem State.classOfImage_wf (s : State) (part ctx : Nat) (im : List Word) (h : s.mem.wf = true)
    : (State.classOfImage s part ctx im).2.mem.wf = true := by
  unfold State.classOfImage
  split
  · exact h
  · rename_i va _
    have hr := State.farRead_wf s (masterWalk part) ctx va 8 (s.walkerDie (s.masterOf part) part) h
    split <;> (rename_i he; rw [he] at hr; exact hr)
/-- However an admission ends, the memory of the state it leaves keeps its form. -/
theorem State.admitLaunch_wf (s : State) (part ctx graph : Nat) (slot : Option Nat) (im : List Word) (page : Option Nat)
    (h : s.mem.wf = true) :
    match s.admitLaunch part ctx graph slot im page with
    | .full => True
    | .waits s' => s'.mem.wf = true
    | .launch _ s' => s'.mem.wf = true := by
  unfold State.admitLaunch
  cases hq : s.takeIndex 1 part with
  | none => trivial
  | some r =>
    obtain ⟨tag, s1⟩ := r
    have h1 : s1.mem.wf = true := by rw [State.takeIndex_mem _ _ _ hq]; exact h
    have hc := State.classOfImage_wf s1 part ctx im h1
    simp only []
    cases he : s1.classOfImage part ctx im with
    | mk ec s2 =>
      rw [he] at hc
      cases ec with
      | none => exact State.classOfImage_wf s part ctx im h
      | some ec =>
        simp only [] at hc ⊢
        split <;> simp [hc]
@[simp] theorem State.addChild_mem (s : State) (part g : Nat) : (State.addChild s part g).mem = s.mem := by
  simp [State.addChild]
theorem State.screenLaunch_mem (s : State) (part ctx g : Nat) (im : List Word) (page : Option Nat) {r : Request × State} (hr : State.screenLaunch s part ctx g im page = some r) : r.2.mem = s.mem := by
  unfold State.screenLaunch at hr
  (try simp only [] at hr)
  (repeat' split at hr)
  (all_goals simp_all)
  (all_goals (try subst hr))
  all_goals simp_all
@[simp] theorem State.takeLaunch_wf (s : State) (part ctx g : Nat) (im : List Word) (page : Option Nat)
    (h : s.mem.wf = true) : (State.takeLaunch s part ctx g im page).2.mem.wf = true := by
  have hm := State.admitLaunch_wf s part ctx g (if imgNamed im then some (imgSlot im) else none) im page h
  unfold State.takeLaunch
  simp only []
  split <;> (rename_i he; rw [he] at hm)
  · exact h
  · exact hm
  · simpa using hm
@[simp] theorem State.requestLaunch_wf (s : State) (part ctx : Nat) (own : Option Nat) (im : List Word) (page : Option Nat)
    (h : s.mem.wf = true) : (s.requestLaunch part ctx own im page).2.mem.wf = true := by
  unfold State.requestLaunch
  repeat' split
  all_goals first
    | exact h
    | (rename_i hq; rw [State.screenLaunch_mem _ _ _ _ _ _ hq]; exact h)
    | exact State.takeLaunch_wf _ _ _ _ _ _ h
@[simp] theorem State.toldMaster_mem (s : State) (part floor : Nat) : (State.toldMaster s part floor).mem = s.mem := by
  simp [State.toldMaster]
@[simp] theorem State.answerParked_wf (s : State) (core req : Nat) (w : Word) (h : s.mem.wf = true)
    : (State.answerParked s core req w).mem.wf = true := by
  simp [State.answerParked, h]
@[simp] theorem State.admitHead_wf (s : State) (part : Nat) (h : s.mem.wf = true) : (s.admitHead part).mem.wf = true := by
  unfold State.admitHead
  split
  · exact h
  · split
    · exact h
    · rename_i ctx graph slot im page rest _
      have hm := State.admitLaunch_wf s part ctx graph (some slot) im page h
      split <;> (rename_i he; rw [he] at hm)
      · exact h
      · exact hm
      · exact hm
    · simp only []
      split
      · simp [h]
      · split
        · rename_i hq
          have hm := State.screenLaunch_mem _ _ _ _ _ _ hq
          simp only [] at hm
          exact State.answerParked_wf _ _ _ _ (by simp [hm, h])
        · split
          · exact h
          · split
            · simp [h]
            · exact State.answerParked_wf _ _ _ _ (by simp [h])
@[simp] theorem State.createLevel_mem (s : State) (part ctx lvl parent : Nat) :
    (s.createLevel part ctx lvl parent).2.2.mem = s.mem := by
  unfold State.createLevel; simp only []
  repeat' split
  all_goals first
    | rfl
    | (rename_i hq; have hm := State.takeIndex_mem _ _ _ hq; simpa using hm)
@[simp] theorem State.closeLevel_mem (s : State) (part ctx lvl i : Nat)
    : (State.closeLevel s part ctx lvl i).2.mem = s.mem := by
  unfold State.closeLevel; (try simp only []); (repeat' split); all_goals simp_all
@[simp] theorem State.pinNext_wf (s : State) (part pair : Nat) (h : s.mem.wf = true)
    : (State.pinNext s part pair).mem.wf = true := by
  unfold State.pinNext; (try simp only []); (repeat' split); all_goals simp_all
@[simp] theorem State.pinAll_wf (s : State) (part : Nat) (x1 : List Nat) (h : s.mem.wf = true) : (State.pinAll s part x1).mem.wf = true := by
  induction x1 generalizing s with
  | nil => exact h
  | cons a l ih =>
    unfold State.pinAll
    apply ih
    split
    · exact h
    · exact State.pinNext_wf _ _ _ h
@[simp] theorem State.skimAll_wf (s : State) (x1 : List Nat) (h : s.mem.wf = true) : (State.skimAll s x1).mem.wf = true := by
  fun_induction State.skimAll <;> simp_all (maxDischargeDepth := 8)
@[simp] theorem State.cancelLaunch_wf (s : State) (part tag : Nat) (h : s.mem.wf = true) : (State.cancelLaunch s part tag).mem.wf = true := by
  unfold State.cancelLaunch; (try simp only []); (repeat' split); all_goals simp_all (maxDischargeDepth := 8)
@[simp] theorem State.cancelLaunches_wf (s : State) (part graph : Nat) (l : List Nat) (h : s.mem.wf = true) :
    (s.cancelLaunches part graph l).mem.wf = true := by
  induction l generalizing s with
  | nil => exact h
  | cons a l ih => unfold State.cancelLaunches; apply ih; split <;> simp [h]
@[simp] theorem State.cancelSlots_wf (s : State) (part graph : Nat) (x1 : NMap Slot) (h : s.mem.wf = true)
    : (State.cancelSlots s part graph x1).mem.wf = true := by
  induction x1 generalizing s <;> (unfold State.cancelSlots; (try simp only []); (repeat' split) <;> simp_all (maxDischargeDepth := 8))
@[simp] theorem State.answerAll_wf (s : State) (w : Nat → Word) (x1 : List Adm) (h : s.mem.wf = true)
    : (State.answerAll s w x1).mem.wf = true := by
  fun_induction State.answerAll <;> simp_all (maxDischargeDepth := 8)
@[simp] theorem State.cancelGraph_wf (s : State) (part i : Nat) (h : s.mem.wf = true) : (s.cancelGraph part i).mem.wf = true := by
  simp only [State.cancelGraph]
  simp (maxDischargeDepth := 8) [h]
@[simp] theorem State.cancelGraphs_wf (s : State) (part phase : Nat) (l : List Nat) (h : s.mem.wf = true) :
    (s.cancelGraphs part phase l).mem.wf = true := by
  induction l generalizing s with
  | nil => exact h
  | cons a l ih => unfold State.cancelGraphs; simp only []; apply ih; repeat' split
                   all_goals simp [h]
@[simp] theorem State.cancelPhase_wf (s : State) (part i : Nat) (h : s.mem.wf = true) : (s.cancelPhase part i).mem.wf = true := by
  simp [State.cancelPhase, h]
@[simp] theorem State.cancelPhases_wf (s : State) (part job : Nat) (l : List Nat) (h : s.mem.wf = true) :
    (s.cancelPhases part job l).mem.wf = true := by
  induction l generalizing s with
  | nil => exact h
  | cons a l ih => unfold State.cancelPhases; simp only []; apply ih; repeat' split
                   all_goals simp [h]
@[simp] theorem State.cancelJob_wf (s : State) (part i : Nat) (h : s.mem.wf = true) : (s.cancelJob part i).mem.wf = true := by
  simp [State.cancelJob, h]
@[simp] theorem State.cancelRecord_wf (s : State) (part ctx lvl i : Nat) (h : s.mem.wf = true) : (State.cancelRecord s part ctx lvl i).mem.wf = true := by
  unfold State.cancelRecord; (try simp only []); (repeat' split); all_goals simp_all (maxDischargeDepth := 8)
@[simp] theorem State.recordWord_mem (s : State) (part lvl i : Nat)
    : (State.recordWord s part lvl i).2.mem = s.mem := by
  unfold State.recordWord; (try simp only []); (repeat' split); all_goals simp_all
@[simp] theorem State.setStage_mem (s : State) (part n : Nat) (g : Stage)
    : (State.setStage s part n g).mem = s.mem := by
  simp [State.setStage]
@[simp] theorem State.countState_mem (s : State) (d cls : Nat) : (State.countState s d cls).mem = s.mem := by
  unfold State.countState; (try simp only []); (repeat' split); all_goals simp_all
@[simp] theorem State.sendMsg_mem (s : State) (d handler cls : Nat) (payload : List Word)
    (ack : Option (Nat × Nat × Nat × Bool)) : (State.sendMsg s d handler cls payload ack).mem = s.mem := by
  unfold State.sendMsg; (try simp only []); (repeat' split); all_goals simp_all
@[simp] theorem State.undeliverable_wf (s : State) (ep uid launch : Nat) (det : Bool) (ctx dest node : Nat)
    (conn : Option Nat) (h : s.mem.wf = true)
    : (State.undeliverable s ep uid launch det ctx dest node conn).mem.wf = true := by
  simp [State.undeliverable, h]
@[simp] theorem State.sendRemote_wf (s : State) (d handler cls node : Nat) (payload : List Word) (h : s.mem.wf = true) :
    (s.sendRemote d handler cls node payload).mem.wf = true := by
  unfold State.sendRemote; simp only []
  split
  · simp [h]
  · split
    · simp [h]
    · split <;> simp [h]
@[simp] theorem State.endPark_mem (s : State) (ep : Nat) (d : Dst) (v : Word)
    : (State.endPark s ep d v).mem = s.mem := by
  unfold State.endPark; (try simp only []); (repeat' split); all_goals simp_all
@[simp] theorem State.askLaunch_wf (s : State) (im : List Word) (h : s.mem.wf = true) : (State.askLaunch s im).2.mem.wf = true := by
  simp [State.askLaunch, h]
@[simp] theorem State.parkUnit_wf (s : State) (dst : Dst) (graph : Nat) (im : List Word) (h : s.mem.wf = true)
    : (State.parkUnit s dst graph im).mem.wf = true := by
  simp [State.parkUnit, h]
@[simp] theorem State.createHere_mem (s : State) (lvl : Nat) (dst : Dst) (a : Src)
    : (State.createHere s lvl dst a).mem = s.mem := by
  simp [State.createHere]
@[simp] theorem State.closeHere_mem (s : State) (lvl : Nat) (dst : Dst) (a : Src)
    : (State.closeHere s lvl dst a).mem = s.mem := by
  simp [State.closeHere]
@[simp] theorem State.takeCkpt_mem (s : State) (ep : Nat) (team : Team) : (State.takeCkpt s ep team).mem = s.mem := by
  simp [State.takeCkpt]
@[simp] theorem State.takeCkpts_mem (s : State) (team : Team) (x1 : List Nat)
    : (State.takeCkpts s team x1).mem = s.mem := by
  fun_induction State.takeCkpts <;> simp_all
@[simp] theorem State.joinGang_mem (s : State) (g : Gang) (lead m : Nat) : (State.joinGang s g lead m).mem = s.mem := by
  simp [State.joinGang]
@[simp] theorem State.joinGangs_mem (s : State) (g : Gang) (lead : Nat) (x1 : List Nat)
    : (State.joinGangs s g lead x1).mem = s.mem := by
  fun_induction State.joinGangs <;> simp_all
@[simp] theorem State.bindMembers_wf (s : State) (ctx tag : Nat) (x1 : List Nat) (h : s.mem.wf = true) : (State.bindMembers s ctx tag x1).2.mem.wf = true := by
  induction x1 generalizing s with
  | nil => exact h
  | cons m l ih =>
    have hb := State.bindTo_wf s (epCore m) ctx tag h
    unfold State.bindMembers
    split
    · exact ih _ h
    · split <;> (rename_i he; rw [he] at hb)
      · exact ih _ hb
      · exact hb
@[simp] theorem State.unbindMembers_mem (s : State) (x1 : List Nat) : (State.unbindMembers s x1).mem = s.mem := by
  fun_induction State.unbindMembers <;> simp_all
@[simp] theorem State.leaveGang_mem (s : State) (lead : Thread) (l : List Nat) : (s.leaveGang lead l).mem = s.mem := by
  induction l generalizing s with
  | nil => rfl
  | cons a l ih => unfold State.leaveGang; simp only [ih]; simp

end Sys2Proof.Machine
end

