-- ==== Sys2Proof/Laws/KeptStages.lean ====
section
/-!
SUPPORT. Which operations of stages, the end of a unit, handles and copy units leave memory alone, and that each of the others keeps its canonical form.
-/
set_option maxRecDepth 10000
set_option linter.unusedSimpArgs false

namespace Sys2Proof.Machine

@[simp] theorem State.updStage_mem (s : State) (part n : Nat) (f : Stage → Stage)
    : (State.updStage s part n f).mem = s.mem := by
  simp [State.updStage]
@[simp] theorem State.stageSlate_wf (s : State) (part n ep code key partner count : Nat) (h : s.mem.wf = true)
    : (State.stageSlate s part n ep code key partner count).mem.wf = true := by
  simp [State.stageSlate, h]
@[simp] theorem State.dropEntries_wf (s : State) (part ep qbase : Nat) (l : List QEntry) (h : s.mem.wf = true) :
    (s.dropEntries part ep qbase l).mem.wf = true := by
  induction l generalizing s with
  | nil => exact h
  | cons a l ih => unfold State.dropEntries; exact ih _ (State.countExit_wf _ _ _ _ _ h)
@[simp] theorem State.leaveInst_mem (s : State) (ep : Nat) : (State.leaveInst s ep).mem = s.mem := by
  simp [State.leaveInst]
@[simp] theorem State.freeInsts_wf (s : State) (x1 : List Nat) (h : s.mem.wf = true)
    : (State.freeInsts s x1).mem.wf = true := by
  fun_induction State.freeInsts <;> simp_all (maxDischargeDepth := 8)
@[simp] theorem State.settleStage_wf (s : State) (part n : Nat) (h : s.mem.wf = true)
    : (State.settleStage s part n).mem.wf = true := by
  unfold State.settleStage; (try simp only []); (repeat' split); all_goals simp_all
@[simp] theorem State.retireClone_wf (s : State) (part n count : Nat) (h : s.mem.wf = true) :
    (s.retireClone part n count).mem.wf = true := by
  unfold State.retireClone; simp (maxDischargeDepth := 8) [h]
@[simp] theorem State.finishMerge_wf (s : State) (part n : Nat) (h : s.mem.wf = true) :
    (s.finishMerge part n).mem.wf = true := by
  unfold State.finishMerge; simp (maxDischargeDepth := 8) [h]
@[simp] theorem State.instEnded_wf (s : State) (part n ep : Nat) (hdr : Word) (routine : Routine) (ok : Bool) (h : s.mem.wf = true) : (State.instEnded s part n ep hdr routine ok).mem.wf = true := by
  unfold State.instEnded; (try simp only []); (repeat' split); all_goals simp_all (maxDischargeDepth := 8)
@[simp] theorem State.runInst_wf (s : State) (part n ep fuel : Nat) (h : s.mem.wf = true) :
    (s.runInst part n ep fuel).mem.wf = true := by
  induction fuel generalizing s with
  | zero => exact h
  | succ n ih =>
    unfold State.runInst; simp only []
    split
    · exact h
    · split
      · exact h
      · have hc (c : Bool) (u v : State) (hu : u.mem.wf = true) (hv : v.mem.wf = true) :
            (if c = true then u else v).mem.wf = true := by split <;> assumption
        apply hc
        · simp [h]
        · apply ih; simp (maxDischargeDepth := 8) [h]
@[simp] theorem State.turnInst_wf (s : State) (part n ep : Nat) (h : s.mem.wf = true) :
    (s.turnInst part n ep).mem.wf = true := by
  unfold State.turnInst; simp (maxDischargeDepth := 8) [h]
@[simp] theorem State.forwardTo_mem (s : State) (n orig clone : Nat) (ws : List Word) (floor : Nat)
    : (State.forwardTo s n orig clone ws floor).mem = s.mem := by
  simp [State.forwardTo]
theorem State.offerInst_wf {s : State} {part n : Nat} {m : Msg} {r : State} (hr : s.offerInst part n m = some r)
    (h : s.mem.wf = true) : r.mem.wf = true := by
  unfold State.offerInst at hr; simp only [] at hr
  split at hr
  · cases hr
  · split at hr
    · cases hr; simp [h]
    · split at hr
      · cases hr
      · cases hr; simp (maxDischargeDepth := 8) [h]
@[simp] theorem State.closeEpoch_wf (s : State) (part n : Nat) (h : s.mem.wf = true)
    : (State.closeEpoch s part n).mem.wf = true := by
  unfold State.closeEpoch; (try simp only []); (repeat' split); all_goals simp_all
@[simp] theorem State.claimInsts_mem (s : State) (n : Nat) (x1 : List Nat) : (State.claimInsts s n x1).mem = s.mem := by
  fun_induction State.claimInsts <;> simp_all
@[simp] theorem State.createStage_mem (s : State) (a : Word) : (State.createStage s a).2.mem = s.mem := by
  unfold State.createStage; (try simp only []); (repeat' split); all_goals simp_all
@[simp] theorem State.forwardQueue_mem (s : State) (part n : Nat) (l : List QEntry) : (s.forwardQueue part n l).mem = s.mem := by
  induction l generalizing s with
  | nil => rfl
  | cons a l ih =>
    unfold State.forwardQueue; simp only [ih]
    split <;> simp
@[simp] theorem State.switchStage_wf (s : State) (part n key : Nat) (h : s.mem.wf = true) :
    (s.switchStage part n key).mem.wf = true := by
  unfold State.switchStage; simp (maxDischargeDepth := 8) [h]
@[simp] theorem State.routineOk_mem (s : State) (uid : Nat) : (State.routineOk s uid).mem = s.mem := by
  simp [State.routineOk]
@[simp] theorem State.restartDwell_mem (s : State) (part n ep : Nat)
    : (State.restartDwell s part n ep).mem = s.mem := by
  simp [State.restartDwell]
@[simp] theorem State.homeHdr_mem (s : State) (g : Stage) (handler words : Nat)
    : (State.homeHdr s g handler words).2.mem = s.mem := by
  simp [State.homeHdr]
theorem State.ite_wf {c : Prop} [Decidable c] {u v : State} (hu : u.mem.wf = true) (hv : v.mem.wf = true) :
    (if c then u else v).mem.wf = true := by split <;> assumption
theorem State.ite_mem {c : Prop} [Decidable c] {u v : State} {m : Memory} (hu : u.mem = m) (hv : v.mem = m) :
    (if c then u else v).mem = m := by split <;> assumption
@[simp] theorem State.cloneOn_wf (s : State) (part n ep core cls : Nat) (h : s.mem.wf = true) :
    (s.cloneOn part n ep core cls).mem.wf = true := by
  unfold State.cloneOn; simp (maxDischargeDepth := 8) [h]
@[simp] theorem State.updArr_mem (s : State) (a : Nat) (f : Arr → Arr) : (State.updArr s a f).mem = s.mem := by
  simp [State.updArr]
@[simp] theorem State.markErr_mem (s : State) (uid : Nat) : (State.markErr s uid).mem = s.mem := by
  simp [State.markErr]
@[simp] theorem State.tellExit_wf (s : State) (ep : Nat) (err : Bool) (h : s.mem.wf = true) : (State.tellExit s ep err).mem.wf = true := by
  unfold State.tellExit; (try simp only []); (repeat' split); all_goals simp_all (maxDischargeDepth := 8)
@[simp] theorem State.tellExits_wf (s : State) (err : Bool) (x1 : List Nat) (h : s.mem.wf = true) : (State.tellExits s err x1).mem.wf = true := by
  fun_induction State.tellExits <;> simp_all (maxDischargeDepth := 8)
@[simp] theorem State.retire_wf (s : State) (ep : Nat) (err : Bool) (h : s.mem.wf = true) : (s.retire ep err).mem.wf = true := by
  unfold State.retire; simp only []
  apply State.settleCore_wf
  have hc (f : FaultInfo) (b : Bool) : ((if (s.thr ep).regs.gtouch.getLsbD 63 = true then s.coreFault ep f else s).tellExit ep b).mem.wf = true := by
    apply State.tellExit_wf; apply State.ite_wf <;> simp [h]
  have hm (u : State) (l : Nat) (c : Prop) [Decidable c] (hu : u.mem.wf = true) : (if c then u.markErr l else u).mem.wf = true :=
    State.ite_wf (by simp [hu]) hu
  have he : ∀ u : State, u.mem.wf = true → ∀ (c : Prop) [Decidable c] (p l : Nat) (d e : Bool),
      (if c then u else u.countExit p l d e).mem.wf = true := fun u hu c _ p l d e => State.ite_wf hu (by simp [hu])
  have hx (l : Nat) (c : Prop) [Decidable c] (u : State) (hu : u.mem.wf = true) (g : Core → Core) (t : Thread) (k : Nat) :
      (((if c then u.markErr l else u).updCore k g).setThr ep t).mem.wf = true := by simp [hm u l c hu]
  split
  · exact he _ (hx _ _ _ (hc _ _) _ _ _) _ _ _ _ _
  · split
    · apply State.turnInst_wf; apply State.instEnded_wf; exact he _ (hx _ _ _ (hc _ _) _ _ _) _ _ _ _ _
    · exact he _ (hx _ _ _ (hc _ _) _ _ _) _ _ _ _ _
@[simp] theorem State.retireAll_wf (s : State) (err : Bool) (x1 : List Nat) (h : s.mem.wf = true) : (State.retireAll s err x1).mem.wf = true := by
  fun_induction State.retireAll <;> simp_all (maxDischargeDepth := 8)
@[simp] theorem State.exitUnit_wf (s : State) (err : Bool) (h : s.mem.wf = true) : (State.exitUnit s err).mem.wf = true := by
  unfold State.exitUnit; (try simp only []); (repeat' split); all_goals simp_all (maxDischargeDepth := 8)
@[simp] theorem State.msgDone_wf (s : State) (m : Msg) (h : s.mem.wf = true) : (State.msgDone s m).mem.wf = true := by
  unfold State.msgDone; (try simp only []); (repeat' split); all_goals simp_all
@[simp] theorem State.msgRefused_mem (s : State) (m : Msg) : (State.msgRefused s m).mem = s.mem := by
  simp [State.msgRefused]
@[simp] theorem State.ringPut_wf (s : State) (i : Nat) (ws : List Word) (h : s.mem.wf = true)
    : (State.ringPut s i ws).mem.wf = true := by
  simp [State.ringPut, h]
@[simp] theorem State.offerCore_wf (s : State) (m : Msg) (h : s.mem.wf = true) : (s.offerCore m).mem.wf = true := by
  unfold State.offerCore; simp only []
  repeat' split
  all_goals simp (maxDischargeDepth := 8) [h]
@[simp] theorem State.offer_wf (s : State) (m : Msg) (h : s.mem.wf = true) : (s.offer m).mem.wf = true := by
  unfold State.offer; simp only []
  split
  · simp [h]
  · split
    · split <;> simp (maxDischargeDepth := 8) [h]
    · split
      · simp [h]
      · split
        · split
          · split
            · simp [h]
            · rename_i hq; simp [State.offerInst_wf hq h]
          · simp [h]
        · simp [h]
@[simp] theorem State.loseMsg_wf (s : State) (m : Msg) (h : s.mem.wf = true) : (State.loseMsg s m).mem.wf = true := by
  unfold State.loseMsg; (try simp only []); (repeat' split); all_goals simp_all (maxDischargeDepth := 8)
@[simp] theorem State.deliverMsg_wf (s : State) (m : Msg) (h : s.mem.wf = true) : (State.deliverMsg s m).mem.wf = true := by
  unfold State.deliverMsg; (try simp only []); (repeat' split); all_goals simp_all (maxDischargeDepth := 8)
@[simp] theorem State.setHandle_mem (s : State) (k : Nat) (h : Handle) : (State.setHandle s k h).mem = s.mem := by
  simp [State.setHandle]
@[simp] theorem State.updHandle_mem (s : State) (k : Nat) (f : Handle → Handle)
    : (State.updHandle s k f).mem = s.mem := by
  simp [State.updHandle]
@[simp] theorem State.give_mem (s : State) (v : Word) : (State.give s v).mem = s.mem := by
  simp [State.give]
@[simp] theorem State.sendCompletions_mem (s : State) (h mask master floor : Nat) (x1 : List Nat)
    : (State.sendCompletions s h mask master floor x1).mem = s.mem := by
  fun_induction State.sendCompletions <;> simp_all
@[simp] theorem State.phase_mem (s : State) (k : Nat) : (State.phase s k).mem = s.mem := by
  unfold State.phase; (try simp only []); (repeat' split); all_goals simp_all
@[simp] theorem State.clockHandle_mem (s : State) (k : Nat) : (State.clockHandle s k).mem = s.mem := by
  unfold State.clockHandle; (try simp only []); (repeat' split); all_goals simp_all
@[simp] theorem State.resumeChannels_mem (s : State) (k : Nat) : (State.resumeChannels s k).mem = s.mem := by
  simp [State.resumeChannels]
@[simp] theorem State.giveCount_mem (s : State) (x : Handle) : (State.giveCount s x).mem = s.mem := by
  simp [State.giveCount]
@[simp] theorem State.cnUp_mem (s : State) (core : Nat) (x : Fin 16) : (State.cnUp s core x).mem = s.mem := by
  simp [State.cnUp]
@[simp] theorem State.cnDown_wf (s : State) (core : Nat) (x : Fin 16) (floor : Nat) (copy : Bool) (h : s.mem.wf = true) : (State.cnDown s core x floor copy).mem.wf = true := by
  simp [State.cnDown, h]
@[simp] theorem State.setChannel_mem (s : State) (k : Nat) (c : Channel) : (State.setChannel s k c).mem = s.mem := by
  simp [State.setChannel]
@[simp] theorem State.engineWrite_wf (s : State) (ep uid core : Nat) (bs : List Byte) (off : Nat) (h : s.mem.wf = true) :
    (s.engineWrite ep uid core bs off).mem.wf = true := by
  fun_induction State.engineWrite with
  | case1 s a b c d bs off ih => apply ih; split <;> simp [h]
  | case2 => exact h
@[simp] theorem State.engineStore_wf (s : State) (k : Nat) (q : Kick) (ref : Word) (bs : List Byte) (floor : Nat) (detail : Word) (h : s.mem.wf = true) : (State.engineStore s k q ref bs floor detail).2.mem.wf = true := by
  unfold State.engineStore; (try simp only []); (repeat' split); all_goals simp_all (maxDischargeDepth := 8)
@[simp] theorem State.endChain_wf (s : State) (k : Nat) (q : Kick) (h : s.mem.wf = true) : (State.endChain s k q).mem.wf = true := by
  unfold State.endChain; (try simp only []); (repeat' split); all_goals simp_all (maxDischargeDepth := 8)
@[simp] theorem State.takeRecord_mem (s : State) (k : Nat) (q : Kick) (ws : List Word)
    : (State.takeRecord s k q ws).mem = s.mem := by
  unfold State.takeRecord; (try simp only []); (repeat' split); all_goals simp_all
@[simp] theorem State.gotRecord_wf (s : State) (k : Nat) (q : Kick) (ws : List Word) (h : s.mem.wf = true)
    : (State.gotRecord s k q ws).mem.wf = true := by
  unfold State.gotRecord; (try simp only []); (repeat' split); all_goals simp_all
@[simp] theorem State.recordFloorAt_mem (s : State) (src key : Nat) : (State.recordFloorAt s src key).mem = s.mem := by
  simp [State.recordFloorAt]
@[simp] theorem State.readRecord_wf (s : State) (k : Nat) (q : Kick) (h : s.mem.wf = true) : (State.readRecord s k q).mem.wf = true := by
  unfold State.readRecord; (try simp only []); (repeat' split); all_goals simp_all (maxDischargeDepth := 8)
@[simp] theorem State.pieceSide_wf (s : State) (k : Nat) (q : Kick) (x : Spot) (kind : Access) (n : Nat) (h : s.mem.wf = true) : (State.pieceSide s k q x kind n).2.mem.wf = true := by
  unfold State.pieceSide; (try simp only []); (repeat' split); all_goals simp_all (maxDischargeDepth := 8)
@[simp] theorem State.askForSide_mem (s : State) (l : Option Landing) (n : Nat) (write : Bool) : (State.askForSide s l n write).mem = s.mem := by
  unfold State.askForSide; (try simp only []); (repeat' split); all_goals simp_all
@[simp] theorem State.tryPiece_wf (s : State) (k : Nat) (q : Kick) (a b : Spot) (n : Nat) (h : s.mem.wf = true)
    : (State.tryPiece s k q a b n).2.mem.wf = true := by
  have ha := State.pieceSide_wf s k q a .read n h
  unfold State.tryPiece
  split <;> (rename_i he; rw [he] at ha)
  · exact ha
  · exact ha
  · rename_i m s1
    have hb := State.pieceSide_wf s1 k q b .write m ha
    split <;> (rename_i he2; rw [he2] at hb)
    · exact hb
    · exact hb
    · split <;> simpa using hb
@[simp] theorem State.pieceRead_mem (s : State) (q : Kick) (a : Spot) (p : Piece) (d n : Nat) (data : List Byte) : (State.pieceRead s q a p d n data).2.mem = s.mem := by
  unfold State.pieceRead; (try simp only []); (repeat' split); all_goals simp_all
@[simp] theorem State.pieceWrite_wf (s : State) (k : Nat) (q : Kick) (b : Spot) (p : Piece) (d : Nat) (bs : List Byte) (h : s.mem.wf = true) : (State.pieceWrite s k q b p d bs).mem.wf = true := by
  unfold State.pieceWrite; (try simp only []); (repeat' split); all_goals simp_all (maxDischargeDepth := 8)
@[simp] theorem State.pieceOn_mem (s : State) (k : Nat) (p : Piece) (n : Nat) : (State.pieceOn s k p n).mem = s.mem := by
  unfold State.pieceOn; (try simp only []); (repeat' split); all_goals simp_all
@[simp] theorem State.failPiece_mem (s : State) (conn k : Nat) (p : Piece) : (State.failPiece s conn k p).mem = s.mem := by
  unfold State.failPiece; (try simp only []); (repeat' split); all_goals simp_all
@[simp] theorem State.movePiece_wf (s : State) (k : Nat) (q : Kick) (a b : Spot) (p : Piece) (data : List Byte) (h : s.mem.wf = true) : (State.movePiece s k q a b p data).mem.wf = true := by
  unfold State.movePiece; (try simp only []); (repeat' split); all_goals simp_all (maxDischargeDepth := 8)
@[simp] theorem State.chooseOf_mem {α : Type} (s : State) (xs : List α) : (State.chooseOf s xs).2.mem = s.mem := by
  unfold State.chooseOf; (try simp only []); (repeat' split); all_goals simp_all
@[simp] theorem State.newPiece_wf (s : State) (k : Nat) (q : Kick) (a b : Spot) (n : Nat) (h : s.mem.wf = true) : (State.newPiece s k q a b n).mem.wf = true := by
  have hp := State.tryPiece_wf s k q a b n h
  unfold State.newPiece
  split <;> rename_i he
  · rw [he] at hp; simp only []; split <;> simpa using hp
  · rw [he] at hp; exact hp
  · exact h
@[simp] theorem State.signalRecord_mem (s : State) (k : Nat) (ws : List Word) (status slot floor : Nat)
    : (State.signalRecord s k ws status slot floor).mem = s.mem := by
  unfold State.signalRecord; (try simp only []); (repeat' split); all_goals simp_all
@[simp] theorem State.chargeStores_wf (s : State) (k : Nat) (q : Kick) (ctx : Nat) (x1 : List Word)
    (h : s.mem.wf = true) : (State.chargeStores s k q ctx x1).mem.wf = true := by
  induction x1 generalizing s <;> (unfold State.chargeStores; (try simp only []); (repeat' split) <;> simp_all (maxDischargeDepth := 8))
@[simp] theorem State.mailRecord_wf (s : State) (k : Nat) (q : Kick) (ws : List Word) (h : s.mem.wf = true) : (State.mailRecord s k q ws).mem.wf = true := by
  unfold State.mailRecord; (try simp only []); (repeat' split); all_goals simp_all (maxDischargeDepth := 8)
@[simp] theorem State.completeRecord_wf (s : State) (k : Nat) (q : Kick) (ws : List Word) (h : s.mem.wf = true) :
    (s.completeRecord k q ws).mem.wf = true := by
  unfold State.completeRecord; simp only []
  split
  · simp [h]
  · split <;> rename_i s1 he
    · have h1 : s1.mem.wf = true := by
        have := congrArg (fun p : Bool × State => p.2.mem.wf) he
        simpa [h] using this.symm
      exact h1
    · have h1 : s1.mem.wf = true := by
        have := congrArg (fun p : Bool × State => p.2.mem.wf) he
        simpa [h] using this.symm
      apply State.mailRecord_wf
      apply State.ite_wf
      · apply State.cnDown_wf; rw [State.signalRecord_mem]; apply State.ite_wf <;> simp [h1]
      · rw [State.signalRecord_mem]; apply State.ite_wf <;> simp [h1]
@[simp] theorem State.settleOwed_wf (s : State) (k : Nat) (q : Kick) (h : s.mem.wf = true) : (State.settleOwed s k q).mem.wf = true := by
  unfold State.settleOwed; simp only []
  split
  · split
    · exact h
    · split <;> rename_i he
      all_goals
        have := congrArg (fun p : Bool × State => p.2.mem.wf) he
        simpa [h] using this.symm
  · exact h
@[simp] theorem State.stopChannel_wf (s : State) (k : Nat) (q : Kick) (status : Nat) (cancelled : Option Nat) (h : s.mem.wf = true) : (State.stopChannel s k q status cancelled).mem.wf = true := by
  unfold State.stopChannel; (try simp only []); (repeat' split); all_goals simp_all (maxDischargeDepth := 8)

end Sys2Proof.Machine
end

