-- ==== Sys2Proof/Laws/KeptArrays.lean ====
section
/-!
SUPPORT. Which operations of arrays leave memory alone, and that each of the others keeps its canonical form.
-/
set_option maxRecDepth 10000
set_option linter.unusedSimpArgs false

namespace Sys2Proof.Machine

/-- A fold keeps what each of its steps keeps. -/
theorem foldl_keeps {α β : Type} (P : β → Prop) (f : β → α → β) (hf : ∀ b a, P b → P (f b a)) (l : List α) (b : β) (h : P b) :
    P (l.foldl f b) := by
  induction l generalizing b with
  | nil => exact h
  | cons a l ih => exact ih _ (hf b a h)
theorem foldr_keeps {α β : Type} (P : β → Prop) (f : α → β → β) (hf : ∀ a b, P b → P (f a b)) (l : List α) (b : β) (h : P b) :
    P (l.foldr f b) := by
  induction l with
  | nil => exact h
  | cons a l ih => exact hf _ _ ih
theorem Memory.ite_wf {c : Prop} [Decidable c] {u v : Memory} (hu : u.wf = true) (hv : v.wf = true) :
    (if c then u else v).wf = true := by split <;> assumption
@[simp] theorem Memory.setElem_wf (m : Memory) (key : Nat) (t : ElemTy) (n c : Nat) (h : m.wf = true) :
    (m.setElem key t n c).wf = true := by
  unfold Memory.setElem
  split
  · exact Memory.wf_write _ _ h
  · exact Memory.wf_writeNat _ _ _ _ h
@[simp] theorem Memory.setPlane_wf (m : Memory) (key i : Nat) (bs : List Bool) (h : m.wf = true) :
    (m.setPlane key i bs).wf = true := by
  induction bs generalizing m key with
  | nil => exact h
  | cons b bs ih => unfold Memory.setPlane; exact ih _ _ (Memory.wf_write _ _ h)
@[simp] theorem Memory.setAcc_wf (m : Memory) (a tile i j c : Nat) (h : m.wf = true) : (m.setAcc a tile i j c).wf = true :=
  Memory.wf_writeNat _ _ _ _ h
@[simp] theorem Memory.addAcc_wf (m : Memory) (a tile i j : Nat) (rm : Rnd) (v : XVal) (h : m.wf = true) :
    (m.addAcc a tile i j rm v).wf = true := Memory.wf_writeNat _ _ _ _ h
theorem Memory.mulChunk_wf (m : Memory) (p : Product) (rows cols : List Nat) (c : Nat) (h : m.wf = true) :
    (m.mulChunk p rows cols c).wf = true :=
  foldl_keeps (fun m : Memory => m.wf = true) _ (fun _ _ hm =>
    Memory.ite_wf (Memory.setAcc_wf _ _ _ _ _ _ hm) (Memory.addAcc_wf _ _ _ _ _ _ _ hm)) _ _ h
theorem Memory.mulFrom_wf (m : Memory) (p : Product) (rows cols : List Nat) (c : Nat) (h : m.wf = true) :
    (m.mulFrom p rows cols c).wf = true :=
  foldl_keeps (fun m : Memory => m.wf = true) _ (fun _ _ hm => Memory.mulChunk_wf _ _ _ _ _ hm) _ _ h
theorem Memory.zeroTiles_wf (m : Memory) (a tile n : Nat) (rows cols : List Nat) (h : m.wf = true) :
    (m.zeroTiles a tile n rows cols).wf = true :=
  foldl_keeps (fun m : Memory => m.wf = true) _ (fun _ _ h1 =>
    foldl_keeps (fun m : Memory => m.wf = true) _ (fun _ _ h2 =>
      foldl_keeps (fun m : Memory => m.wf = true) _ (fun _ _ h3 => Memory.setAcc_wf _ _ _ _ _ _ h3) _ _ h2) _ _ h1) _ _ h
theorem Memory.scale_wf (m : Memory) (arr arrB sca scb tile bank : Nat) (rm : Rnd) (rows cols : List Nat) (part : NMap XVal)
    (h : m.wf = true) : (m.scale arr arrB sca scb tile bank rm rows cols part).wf = true :=
  foldl_keeps (fun m : Memory => m.wf = true) _ (fun _ _ h1 =>
    foldl_keeps (fun m : Memory => m.wf = true) _ (fun _ _ h2 => Memory.addAcc_wf _ _ _ _ _ _ _ h2) _ _ h1) _ _ h
theorem Memory.addTile_wf (m : Memory) (a tile : Nat) (rows cols : List Nat) (row col : Word) (data : List Nat)
    (h : m.wf = true) : (m.addTile a tile rows cols row col data).wf = true :=
  foldl_keeps (fun m : Memory => m.wf = true) _ (fun _ _ h1 =>
    Memory.ite_wf (Memory.addAcc_wf _ _ _ _ _ _ _ h1) h1) _ _ h
theorem Memory.e8cvt_wf (m : Memory) (src key n : Nat) (h : m.wf = true) : (m.e8cvt src key n).wf = true :=
  foldl_keeps (fun m : Memory => m.wf = true) _ (fun _ _ h1 => Memory.setElem_wf _ _ _ _ _ h1) _ _ h
theorem Mover.move_wf (x : Mover) (a tile : Nat) (t : ElemTy) (rm : Rnd) (nb : Bool) (form key stride : Nat)
    (rows cols : List Nat) (h : x.m.wf = true) : (x.move a tile t rm nb form key stride rows cols).m.wf = true := by
  refine foldl_keeps (fun x : Mover => x.m.wf = true) _ (fun _ _ h1 =>
    foldl_keeps (fun x : Mover => x.m.wf = true) _ (fun y j h2 => ?_) _ _ h1) _ _ h
  simp only []
  split
  · exact Memory.setElem_wf _ _ _ _ _ h2
  · exact Memory.setPlane_wf _ _ _ _ h2
  · exact Memory.setElem_wf _ _ _ _ _ h2
theorem Mover.load_wf (x : Mover) (t to_ : ElemTy) (rm : Rnd) (nb : Bool) (form src stride key k : Nat)
    (rows cols : List Nat) (h : x.m.wf = true) : (x.load t to_ rm nb form src stride key k rows cols).m.wf = true := by
  unfold Mover.load
  split
  · exact foldl_keeps (fun x : Mover => x.m.wf = true) _ (fun _ _ h1 =>
      foldl_keeps (fun x : Mover => x.m.wf = true) _ (fun _ _ h2 => Memory.setPlane_wf _ _ _ _ h2) _ _ h1) _ _ h
  · exact foldl_keeps (fun x : Mover => x.m.wf = true) _ (fun _ _ h1 =>
      foldl_keeps (fun x : Mover => x.m.wf = true) _ (fun _ _ h2 => Memory.setElem_wf _ _ _ _ _ h2) _ _ h1) _ _ h
@[simp] theorem State.updJob_mem (s : State) (a id : Nat) (f : Job → Job) : (State.updJob s a id f).mem = s.mem := by
  simp [State.updJob]
@[simp] theorem State.unbindArr_mem (s : State) (a : Nat) : (State.unbindArr s a).mem = s.mem := by
  unfold State.unbindArr; (try simp only []); (repeat' split); all_goals simp_all
@[simp] theorem State.requestLease_mem (s : State) (ep : Nat) (cls : Bool)
    : (State.requestLease s ep cls).mem = s.mem := by
  simp [State.requestLease]
@[simp] theorem State.issueCmd_mem (s : State) (a lead : Nat) (i : Instr) : (s.issueCmd a lead i).mem = s.mem := by
  unfold State.issueCmd; simp only [State.done_mem]
  split <;> simp
@[simp] theorem State.command_wf (s : State) (i : Instr) (h : s.mem.wf = true) : (State.command s i).mem.wf = true := by
  unfold State.command; (try simp only []); (repeat' split); all_goals simp_all (maxDischargeDepth := 8)
@[simp] theorem State.updEntry_mem (s : State) (a id : Nat) (f : JobEntry → JobEntry)
    : (State.updEntry s a id f).mem = s.mem := by
  simp [State.updEntry]
@[simp] theorem State.bindArr_wf (s : State) (a ctx : Nat) (h : s.mem.wf = true)
    : (State.bindArr s a ctx).mem.wf = true := by
  unfold State.bindArr; (try simp only []); (repeat' split); all_goals simp_all
@[simp] theorem State.bindFor_wf (s : State) (a ctx : Nat) (h : s.mem.wf = true) : (State.bindFor s a ctx).mem.wf = true := by
  unfold State.bindFor; (try simp only []); (repeat' split); all_goals simp_all (maxDischargeDepth := 8)
@[simp] theorem State.grant_wf (s : State) (a : Nat) (o : Offer) (c1 : Bool) (h : s.mem.wf = true)
    : (State.grant s a o c1).mem.wf = true := by
  unfold State.grant; (try simp only []); (repeat' split); all_goals simp_all
@[simp] theorem State.lend_wf (s : State) (b ctx id : Nat) (h : s.mem.wf = true) : (State.lend s b ctx id).mem.wf = true := by
  simp [State.lend, h]
theorem State.withMate_wf (s : State) (a : Nat) (o : Offer) {r : State} (hr : State.withMate s a o = some r) (h : s.mem.wf = true) : r.mem.wf = true := by
  unfold State.withMate at hr
  (try simp only [] at hr)
  (repeat' split at hr)
  (all_goals simp_all)
  (all_goals (try subst hr))
  all_goals simp_all
@[simp] theorem State.arbitrate_wf (s : State) (a : Nat) (os : List Offer) (o : Offer) (h : s.mem.wf = true) : (State.arbitrate s a os o).mem.wf = true := by
  unfold State.arbitrate; simp only []
  split
  · rename_i hq; exact State.grant_wf _ _ _ _ (State.withMate_wf _ _ _ hq h)
  · split <;> simp [h]
@[simp] theorem State.runProduct_wf (s : State) (x : Site) (t : ElemTy) (rm : Rnd) (o : MOp) (c : Nat) (one : Bool)
    (h : s.mem.wf = true) : (s.runProduct x t rm o c one).mem.wf = true :=
  foldl_keeps (fun s : State => s.mem.wf = true) _ (fun _ _ h1 =>
    Memory.ite_wf (Memory.mulChunk_wf _ _ _ _ _ h1) (Memory.mulFrom_wf _ _ _ _ _ h1)) _ _ h
@[simp] theorem State.runBank_mem (s : State) (x : Site) (t : ElemTy) (o : MOp) : (s.runBank x t o).mem = s.mem :=
  foldl_keeps (fun u : State => u.mem = s.mem) _ (fun _ _ h1 => by simpa using h1) _ _ rfl
@[simp] theorem State.forget_mem (s : State) (key n : Nat) : (State.forget s key n).mem = s.mem := by
  simp [State.forget]
@[simp] theorem State.runCmd_wf (s : State) (x : Site) (i : Instr) (h : s.mem.wf = true) : (s.runCmd x i).2.mem.wf = true := by
  unfold State.runCmd
  split
  · split <;> exact h
  · exact h
  · exact foldl_keeps (fun s : State => s.mem.wf = true) _ (fun _ _ h1 => Memory.zeroTiles_wf _ _ _ _ _ _ h1) _ _ h
  · exact State.runProduct_wf _ _ _ _ _ _ _ h
  · simpa using h
  · exact foldl_keeps (fun s : State => s.mem.wf = true) _ (fun _ _ h1 => Memory.scale_wf _ _ _ _ _ _ _ _ _ _ _ h1) _ _ h
  · simp only []
    apply State.ite_wf
    · refine foldl_keeps (fun s : State => s.mem.wf = true) _ (fun u i h1 => ?_) _ _ (Mover.move_wf _ _ _ _ _ _ _ _ _ _ _ h)
      refine foldl_keeps (fun s : State => s.mem.wf = true) _ (fun u j h1 => ?_) _ _ h1
      simpa using h1
    · exact Mover.move_wf _ _ _ _ _ _ _ _ _ _ _ h
  · exact Mover.load_wf _ _ _ _ _ _ _ _ _ _ _ _ h
  · exact Memory.e8cvt_wf _ _ _ _ h
  · exact h
theorem State.receive_wf {s : State} {x : Site} {o : MOp} {r : State} (hr : s.receive x o = some r) (h : s.mem.wf = true) :
    r.mem.wf = true := by
  unfold State.receive at hr
  split at hr
  · cases hr
  · split at hr
    · cases hr
    · cases hr; simp only [State.updArr_mem]; exact Memory.addTile_wf _ _ _ _ _ _ _ _ h
@[simp] theorem State.sendTile_mem (s : State) (x : Site) (o : MOp) (ep uid launch ctx : Nat) (det : Bool) (job : Option (Nat × Nat)) : (State.sendTile s x o ep uid launch ctx det job).mem = s.mem := by
  simp [State.sendTile]
@[simp] theorem State.countCmd_mem (s : State) (a : Nat) : (State.countCmd s a).mem = s.mem := by
  simp [State.countCmd]
@[simp] theorem State.countCmds_wf (s : State) (as_ : List Nat) (h : s.mem.wf = true) : (State.countCmds s as_).mem.wf = true :=
  foldl_keeps (fun s : State => s.mem.wf = true) _ (fun _ _ h1 => by simpa using h1) _ _ h
@[simp] theorem State.tlDown_mem (s : State) (a ep uid : Nat) : (State.tlDown s a ep uid).mem = s.mem := by
  simp [State.tlDown]
@[simp] theorem State.arrayFault_mem (s : State) (a cause ctx ep launch g2 g3 g4 : Nat)
    : (State.arrayFault s a cause ctx ep launch g2 g3 g4).mem = s.mem := by
  simp [State.arrayFault]
@[simp] theorem State.leaveArrays_mem (s : State) (a id : Nat) : (State.leaveArrays s a id).mem = s.mem := by
  unfold State.leaveArrays; (try simp only []); (repeat' split); all_goals simp_all
@[simp] theorem State.tellEnd_wf (s : State) (a : Nat) (j : Job) (err : Nat) (h : s.mem.wf = true) : (State.tellEnd s a j err).mem.wf = true := by
  unfold State.tellEnd; (try simp only []); (repeat' split); all_goals simp_all (maxDischargeDepth := 8)
@[simp] theorem State.endJob_wf (s : State) (a : Nat) (j : Job) (err : Nat) (h : s.mem.wf = true) : (State.endJob s a j err).mem.wf = true := by
  unfold State.endJob; (try simp only []); (repeat' split); all_goals simp_all (maxDischargeDepth := 8)
@[simp] theorem State.endJobs_wf (s : State) (a err : Nat) (x1 : List Job) (h : s.mem.wf = true) : (State.endJobs s a err x1).mem.wf = true := by
  fun_induction State.endJobs <;> simp_all (maxDischargeDepth := 8)
@[simp] theorem State.nextRecord_wf (s : State) (a id : Nat) (x : Site) (i : Instr) (h : s.mem.wf = true) : (State.nextRecord s a id x i).mem.wf = true := by
  unfold State.nextRecord; (try simp only []); (repeat' split); all_goals simp_all (maxDischargeDepth := 8)
@[simp] theorem State.runPlain_wf (s : State) (a : Nat) (j : Job) (x : Site) (i : Instr) (h : s.mem.wf = true) : (State.runPlain s a j x i).mem.wf = true := by
  unfold State.runPlain
  split
  · simp [h]
  · split
    · simp [h]
    · rename_i hq; exact State.nextRecord_wf _ _ _ _ _ (State.receive_wf hq h)
  · exact State.nextRecord_wf _ _ _ _ _ (State.runCmd_wf _ _ _ h)
@[simp] theorem State.runChunk_wf (s : State) (a : Nat) (j : Job) (x : Site) (i : Instr) (o : MOp) (c : Nat) (h : s.mem.wf = true) : (State.runChunk s a j x i o c).mem.wf = true := by
  unfold State.runChunk; (try simp only []); (repeat' split); all_goals simp_all (maxDischargeDepth := 8)
@[simp] theorem State.runJob_wf (s : State) (a : Nat) (j : Job) (h : s.mem.wf = true) : (State.runJob s a j).mem.wf = true := by
  unfold State.runJob; (try simp only []); (repeat' split); all_goals simp_all (maxDischargeDepth := 8)
@[simp] theorem State.dropCmd_mem (s : State) (a : Nat) (c : Cmd) : (State.dropCmd s a c).mem = s.mem := by
  simp [State.dropCmd]
@[simp] theorem State.settleRun_mem (s : State) (a : Nat) : (State.settleRun s a).mem = s.mem := by
  unfold State.settleRun; (try simp only []); (repeat' split); all_goals simp_all
@[simp] theorem State.askAgain_mem (s : State) (ep uid : Nat) : (State.askAgain s ep uid).mem = s.mem := by
  simp [State.askAgain]
@[simp] theorem State.runDirect_wf (s : State) (a lead uid : Nat) (h : s.mem.wf = true) :
    (s.runDirect a lead uid).mem.wf = true := by
  unfold State.runDirect
  split
  · simp [h]
  · apply State.ite_wf
    · simp [h]
    · simp only []
      split
      · simp [h]
      · split
        · simp only [State.updArr_mem]; split <;> simp [h]
        · rename_i hq; simp [State.receive_wf hq h]
      · simp only [State.settleRun_mem, State.tlDown_mem, State.countCmd_mem, State.dropCmd_mem]
        split <;> simp [h]
@[simp] theorem State.tileDone_wf (s : State) (m : Msg) (job : Option (Nat × Nat)) (err : Nat) (h : s.mem.wf = true) : (State.tileDone s m job err).mem.wf = true := by
  unfold State.tileDone; (try simp only []); (repeat' split); all_goals simp_all (maxDischargeDepth := 8)
@[simp] theorem State.degrade_wf (s : State) (a : Nat) (h : s.mem.wf = true) : (s.degrade a).mem.wf = true := by
  unfold State.degrade; simp only []
  have h1 (c : Prop) [Decidable c] (u : State) (f : Arr → Arr) (hu : u.mem.wf = true) :
      (if c then u else u.updArr a f).mem.wf = true := State.ite_wf hu (by simp [hu])
  apply State.ite_wf
  · exact State.endJobs_wf _ _ _ _ (State.endJobs_wf _ _ _ _ (h1 _ _ _ (by simp [h])))
  · exact h1 _ _ _ (by simp [h])
@[simp] theorem State.testFailed_wf (s : State) (a : Nat) (failing : BitVec 4) (h : s.mem.wf = true) : (State.testFailed s a failing).mem.wf = true := by
  simp [State.testFailed, h]

end Sys2Proof.Machine
end

