-- ==== Sys2Proof/Laws/KeptTrace.lean ====
section
/-!
SUPPORT. Which operations of the trace, sealing, the trees and teams leave memory alone, and that each of the others keeps its canonical form.
-/
set_option maxRecDepth 10000
set_option linter.unusedSimpArgs false

namespace Sys2Proof.Machine

@[simp] theorem State.emitSecurity_wf (s : State) (ctx code payload : Nat) (ext : Option (Word × Word))
    (h : s.mem.wf = true) : (State.emitSecurity s ctx code payload ext).mem.wf = true := by
  simp [State.emitSecurity, h]
@[simp] theorem State.endTraced_mem (s : State) (i : Instr) (push : Option (Dst × Word)) : (State.endTraced s i push).mem = s.mem := by
  unfold State.endTraced; (try simp only []); (repeat' split); all_goals simp_all
@[simp] theorem State.releaseHeld_wf (s : State) (h : Held) (hs : s.mem.wf = true) : (s.releaseHeld h).mem.wf = true := by
  unfold State.releaseHeld; simp only []
  split
  · exact hs
  · split
    · exact State.admitSlate_wf _ _ _ _ _ _ _ _ hs
    · split
      · simp only [State.pushSlates_mem]; exact State.sideSlate_wf _ _ _ _ _ _ _ _ (by simp [hs])
      · simp [hs]
@[simp] theorem State.releaseAll_wf (s : State) (x1 : List Held) (h : s.mem.wf = true) : (State.releaseAll s x1).mem.wf = true := by
  fun_induction State.releaseAll <;> simp_all (maxDischargeDepth := 8)
@[simp] theorem State.settleLaunches_wf (s : State) (part : Nat) (x1 : List Nat) (h : s.mem.wf = true) : (State.settleLaunches s part x1).mem.wf = true := by
  fun_induction State.settleLaunches <;> simp_all (maxDischargeDepth := 8)
@[simp] theorem State.resumeMaster_wf (s : State) (who : Nat) (h : s.mem.wf = true) : (State.resumeMaster s who).mem.wf = true := by
  unfold State.resumeMaster; (try simp only []); (repeat' split); all_goals simp_all (maxDischargeDepth := 8)
@[simp] theorem State.resumeEmitter_wf (s : State) (who since : Nat) (h : s.mem.wf = true) : (State.resumeEmitter s who since).mem.wf = true := by
  unfold State.resumeEmitter; (try simp only []); (repeat' split); all_goals simp_all (maxDischargeDepth := 8)
@[simp] theorem State.dropHeld_go_wf (l : List Held) (s : State) (h : s.mem.wf = true) :
    (State.dropHeld.go l s).mem.wf = true := by
  induction l generalizing s with
  | nil => exact h
  | cons a l ih => exact ih _ (State.resumeEmitter_wf _ _ _ h)
@[simp] theorem State.dropHeld_wf (s : State) (p : Held → Bool) (h : s.mem.wf = true) : (s.dropHeld p).mem.wf = true :=
  State.dropHeld_go_wf _ _ h
@[simp] theorem State.openSink_open_mem (segs : Nat) (lossless : Bool) (tenant : Nat) (l : List Nat) (s : State) :
    (State.openSink.open_ segs lossless tenant l s).mem = s.mem := by
  induction l generalizing s with
  | nil => rfl
  | cons a l ih => unfold State.openSink.open_; rw [ih]; simp
theorem State.openSink_mem {s : State} {tenant ctx : Nat} {tsink tsinkc : Word} {r : State}
    (hr : s.openSink tenant ctx tsink tsinkc = some r) : r.mem = s.mem := by
  unfold State.openSink at hr; simp only [] at hr
  split at hr
  · cases hr
  · cases hr; rw [State.openSink_open_mem]
@[simp] theorem State.endSinks_mem (s : State) : (State.endSinks s).mem = s.mem := by
  simp [State.endSinks]
@[simp] theorem State.dropFaulted_mem (s : State) (k : Nat) : (State.dropFaulted s k).mem = s.mem := by
  simp [State.dropFaulted]
@[simp] theorem State.closeSink_wf (s : State) (tenant : Nat) (h : s.mem.wf = true) : (State.closeSink s tenant).mem.wf = true := by
  simp [State.closeSink, h]
@[simp] theorem State.drainLands_wf (s : State) (ctx die : Nat) (x1 : List (Nat × List Byte)) (h : s.mem.wf = true) : (State.drainLands s ctx die x1).2.mem.wf = true := by
  induction x1 generalizing s with
  | nil => exact h
  | cons a l ih =>
    obtain ⟨va, bs⟩ := a
    have ht (k : Nat) : (((s.leaveWalk die (drainWalk die)).translate ctx va k .write false die).2).mem.wf = true := by simp [h]
    have hi := ih ((s.leaveWalk die (drainWalk die)).translate ctx va bs.length .write false die).2 (ht _)
    unfold State.drainLands; simp only []
    split
    · exact h
    · split
      · exact State.joinWalk_wf _ _ _ _ _ h
      · split
        · exact ht _
        · split
          · simp [h]
          · split <;> (rename_i he; first | (rw [he] at hi; exact hi) | exact hi)
@[simp] theorem State.landAll_wf (s : State) (ctx src : Nat) (x1 : List (Landing × List Byte)) (h : s.mem.wf = true) : (State.landAll s ctx src x1).mem.wf = true := by
  fun_induction State.landAll <;> simp_all (maxDischargeDepth := 8)
@[simp] theorem State.drainFault_wf (s : State) (die sink va n : Nat) (f : TransFault) (access detail : Nat) (h : s.mem.wf = true) : (State.drainFault s die sink va n f access detail).mem.wf = true := by
  unfold State.drainFault; (try simp only []); (repeat' split); all_goals simp_all (maxDischargeDepth := 8)
@[simp] theorem State.drain_wf (s : State) (die sink : Nat) (h : s.mem.wf = true) : (s.drain die sink).mem.wf = true := by
  have hr (d va ctx : Nat) := State.farRead_wf s (drainWalk d) ctx va 8 d h
  unfold State.drain; simp only []
  split
  · exact h
  · split <;> rename_i he <;> (replace hr := hr (s.bufferDie die) ((s.sink sink).base + 8) (s.sink sink).ctx; rw [he] at hr)
    · exact hr
    · exact State.drainFault_wf _ _ _ _ _ _ _ _ hr
    · split
      · simp [hr]
      · split <;> (rename_i he2; have hl := congrArg (fun p : DrainEnd × State => p.2.mem.wf) he2; simp only [] at hl)
        · rw [← hl]; apply State.drainLands_wf; apply State.ite_wf <;> simp [hr]
        · apply State.drainFault_wf; rw [← hl]; apply State.drainLands_wf; apply State.ite_wf <;> simp [hr]
        · split
          · rw [← hl]; apply State.drainLands_wf; apply State.ite_wf <;> simp [hr]
          simp only [State.endSinks_mem, State.setShare_mem]
          split <;> (try simp only [State.releaseAt_mem]) <;> apply State.landAll_wf <;> rw [← hl] <;>
            apply State.drainLands_wf <;> apply State.ite_wf <;> simp [hr]
@[simp] theorem State.setResult_mem (s : State) (page value status : Nat)
    : (State.setResult s page value status).mem = s.mem := by
  simp [State.setResult]
@[simp] theorem State.setBusy_mem (s : State) (page : Nat) : (State.setBusy s page).mem = s.mem := by
  simp [State.setBusy]
@[simp] theorem State.controlEnd_mem (s : State) (page slot : Nat) (st : WriteEnd) : (s.controlEnd page slot st).mem = s.mem := rfl
@[simp] theorem State.pageAnswer_mem (s : State) (page value status : Nat) : (s.pageAnswer page value status).mem = s.mem := rfl
@[simp] theorem State.pageAccept_mem (s : State) (page : Nat) : (s.pageAccept page).mem = s.mem := rfl
@[simp] theorem State.turnAway_mem (s : State) (page : Nat) : (s.turnAway page).mem = s.mem := by
  unfold State.turnAway; split <;> rfl
@[simp] theorem State.copyOut_mem (s : State) (bus : Nat) (bs : List Byte) : (s.copyOut bus bs).mem = s.mem := rfl
@[simp] theorem State.passTime_mem (s : State) (n : Nat) : (State.passTime s n).mem = s.mem := by
  simp [State.passTime]
@[simp] theorem State.setBase_wf (s : State) (b : TimeBase) (h : s.mem.wf = true)
    : (State.setBase s b).mem.wf = true := by
  simp [State.setBase, h]
@[simp] theorem State.stageEntry_mem (s : State) (typ tenant ctx slot : Nat) (detail : Word)
    : (State.stageEntry s typ tenant ctx slot detail).mem = s.mem := by
  unfold State.stageEntry; (try simp only []); (repeat' split); all_goals simp_all
@[simp] theorem State.checkpoint_wf (s : State) (h : s.mem.wf = true) : (State.checkpoint s).mem.wf = true := by
  simp [State.checkpoint, h]
@[simp] theorem State.scrollEntry_wf (s : State) (typ tenant ctx slot : Nat) (detail : Word) (h : s.mem.wf = true)
    : (State.scrollEntry s typ tenant ctx slot detail).mem.wf = true := by
  unfold State.scrollEntry; (try simp only []); (repeat' split); all_goals simp_all
@[simp] theorem State.tellDebug_wf (s : State) (ctx q : Nat) (on : Bool) (h : s.mem.wf = true) : (State.tellDebug s ctx q on).mem.wf = true := by
  unfold State.tellDebug; (try simp only []); (repeat' split); all_goals simp_all (maxDischargeDepth := 8)
@[simp] theorem State.keySlate_wf (s : State) (code slot : Nat) (k : KeySlot) (h : s.mem.wf = true)
    : (State.keySlate s code slot k).mem.wf = true := by
  simp [State.keySlate, h]
@[simp] theorem State.emptySlot_mem (s : State) (slot : Nat) : (State.emptySlot s slot).mem = s.mem := by
  unfold State.emptySlot; (try simp only []); (repeat' split); all_goals simp_all
@[simp] theorem State.newPolicy_wf (s : State) (slot : Nat) (policy : List Word) (h : s.mem.wf = true)
    : (State.newPolicy s slot policy).mem.wf = true := by
  simp [State.newPolicy, h]
@[simp] theorem State.chargeTo_mem (s : State) (ctx : Nat) (slots : List Nat)
    : (State.chargeTo s ctx slots).mem = s.mem := by
  simp [State.chargeTo]
@[simp] theorem State.enterMeters_wf (s : State) (sctx rctx : Nat) (isSealed : Bool) (slot : Nat) (h : s.mem.wf = true)
    : (State.enterMeters s sctx rctx isSealed slot).mem.wf = true := by
  unfold State.enterMeters; (try simp only []); (repeat' split); all_goals simp_all
@[simp] theorem State.meterTake_mem (s : State) (port slot : Nat) : (State.meterTake s port slot).mem = s.mem := by
  simp [State.meterTake]
@[simp] theorem State.metersTake_mem (s : State) (port : Nat) (x1 : List Nat)
    : (State.metersTake s port x1).mem = s.mem := by
  fun_induction State.metersTake <;> simp_all
@[simp] theorem State.sendWaiting_mem (s old : State) (x1 : List (Nat × Conn)) : (State.sendWaiting s old x1).mem = s.mem := by
  fun_induction State.sendWaiting <;> simp_all
@[simp] theorem State.beatPassed_mem (s : State) (b : Beats) : (State.beatPassed s b).mem = s.mem := by
  unfold State.beatPassed; (try simp only []); (repeat' split); all_goals simp_all
@[simp] theorem State.setHeld_mem (s : State) (id port : Nat) : (State.setHeld s id port).mem = s.mem := by
  simp [State.setHeld]
@[simp] theorem State.noteHold_mem (s : State) (b : Beats) : (State.noteHold s b).mem = s.mem := by
  simp [State.noteHold]
@[simp] theorem State.holdBeat_mem (s : State) (b : Beats) : (State.holdBeat s b).mem = s.mem := by
  unfold State.holdBeat; (try simp only []); (repeat' split); all_goals simp_all
@[simp] theorem State.passHeld_mem (s : State) (b : Beats) (n : Nat) : (s.passHeld b n).mem = s.mem := by
  induction n generalizing s with
  | zero => rfl
  | succ n ih => unfold State.passHeld; simp only []; split <;> simp [ih]
@[simp] theorem State.passAll_wf (s : State) (x1 : List Beats) (h : s.mem.wf = true) : (State.passAll s x1).mem.wf = true := by
  induction x1 generalizing s <;> (unfold State.passAll; (try simp only []); (repeat' split) <;> simp_all (maxDischargeDepth := 8))
@[simp] theorem State.tellReleased_wf (s : State) (slot : Nat) (x1 : List Beats) (h : s.mem.wf = true) : (State.tellReleased s slot x1).mem.wf = true := by
  induction x1 generalizing s <;> (unfold State.tellReleased; (try simp only []); (repeat' split) <;> simp_all (maxDischargeDepth := 8))
@[simp] theorem State.emitTree_wf (s : State) (part ctx code payload : Nat) (ext : Option (Word × Word))
    (h : s.mem.wf = true) : (State.emitTree s part ctx code payload ext).mem.wf = true := by
  simp [State.emitTree, h]
@[simp] theorem State.answerTree_mem (s : State) (a : Asker) (v : Word) (acq : Option Nat)
    : (State.answerTree s a v acq).mem = s.mem := by
  unfold State.answerTree; (try simp only []); (repeat' split); all_goals simp_all
@[simp] theorem State.notifyMap_mem (s : State) (part : Nat) (m : TreeMsg) (rctx win ep handler cookie node : Nat) (n : Node) (moved : Bool) : (State.notifyMap s part m rctx win ep handler cookie node n moved).mem = s.mem := by
  simp [State.notifyMap]
@[simp] theorem State.emitMap_wf (s : State) (a : Asker) (ctx code : Nat) (n : Node) (h : s.mem.wf = true)
    : (State.emitMap s a ctx code n).mem.wf = true := by
  unfold State.emitMap; (try simp only []); (repeat' split); all_goals simp_all
@[simp] theorem State.delNodes_mem (s : State) (x1 : List Nat) : (State.delNodes s x1).mem = s.mem := by
  fun_induction State.delNodes <;> simp_all
@[simp] theorem State.endUnmap_wf (s : State) (o : TreeOp) (count va : Nat) (async : Option (Nat × Nat))
    (h : s.mem.wf = true) : (State.endUnmap s o count va async).mem.wf = true := by
  unfold State.endUnmap; (try simp only []); (repeat' split); all_goals simp_all
@[simp] theorem State.endGrant_wf (s : State) (o : TreeOp) (win base rights cookie rctx ep handler : Nat) (h : s.mem.wf = true) : (State.endGrant s o win base rights cookie rctx ep handler).mem.wf = true := by
  unfold State.endGrant; (try simp only []); (repeat' split); all_goals simp_all (maxDischargeDepth := 8)
@[simp] theorem State.endOp_wf (s : State) (o : TreeOp) (h : s.mem.wf = true) : (State.endOp s o).mem.wf = true := by
  unfold State.endOp; (try simp only []); (repeat' split); all_goals simp_all (maxDischargeDepth := 8)
@[simp] theorem State.endOps_wf (s : State) (o : TreeOp) (n : Nat) (h : s.mem.wf = true) : (s.endOps o n).mem.wf = true := by
  induction n generalizing s o with
  | zero => exact State.endOp_wf _ _ h
  | succ n ih =>
    have h1 := State.endOp_wf s o h
    unfold State.endOps; simp only []
    split
    · split
      · exact h1
      · exact ih _ _ h1
    · exact h1
@[simp] theorem State.finishOp_wf (s : State) (o : TreeOp) (h : s.mem.wf = true) : (State.finishOp s o).mem.wf = true := by
  simp [State.finishOp, h]
@[simp] theorem State.setOp_mem (s : State) (o : TreeOp) : (State.setOp s o).mem = s.mem := by
  simp [State.setOp]
@[simp] theorem State.startOp_wf (s : State) (o : TreeOp) (h : s.mem.wf = true) : (s.startOp o).mem.wf = true := by
  unfold State.startOp; simp only []
  apply State.ite_wf <;> simp [h]
@[simp] theorem State.link_wf (s : State) (part : Nat) (m : TreeMsg) (i : Nat) (x : Node) (w : Window)
    (va lg rctx win off rights cookie : Nat) (h : s.mem.wf = true) :
    (s.link part m i x w va lg rctx win off rights cookie).mem.wf = true := by
  unfold State.link; simp only [State.answerTree_mem, State.notifyMap_mem]
  apply State.emitMap_wf; simp only [State.setNode_mem]
  apply State.enterMeters_wf; apply State.ite_wf <;> simp [h]
@[simp] theorem State.derive_wf (s : State) (part : Nat) (m : TreeMsg) (i : Nat) (x : Node) (w : Window) (h : s.mem.wf = true) :
    (s.derive part m i x w).mem.wf = true := by
  unfold State.derive; split <;> simp [h]
@[simp] theorem State.sealZero_wf (s : State) (slot g : Nat) (x1 : Nat) (h : s.mem.wf = true) : (State.sealZero s slot g x1).mem.wf = true := by
  fun_induction State.sealZero <;> simp_all (maxDischargeDepth := 8)
@[simp] theorem State.makeRoot_wf (s : State) (part phys lg : Nat) (isSealed : Bool) (slot tenant : Nat) (h : s.mem.wf = true) : (State.makeRoot s part phys lg isSealed slot tenant).2.mem.wf = true := by
  unfold State.makeRoot; (try simp only []); (repeat' split); all_goals simp_all (maxDischargeDepth := 8)
theorem State.treeHead_mem (s : State) (part : Nat) (p : TreeKind → Bool) {r : TreeMsg × State}
    (hr : State.treeHead s part p = some r) : r.2.mem = s.mem := by
  unfold State.treeHead at hr
  (try simp only [] at hr)
  (repeat' split at hr)
  (all_goals simp_all)
  (all_goals (try subst hr))
  all_goals simp
@[simp] theorem State.heldRoot_wf (s : State) (part phys lg slot tenant : Nat) (h : s.mem.wf = true) : (State.heldRoot s part phys lg slot tenant).mem.wf = true := by
  unfold State.heldRoot; (try simp only []); (repeat' split); all_goals simp_all (maxDischargeDepth := 8)
@[simp] theorem State.withdraw_wf (s : State) (part : Nat) (m : TreeMsg) (i : Nat) (n : Node) (self : Bool) (va : Nat)
    (async : Option (Nat × Nat)) (h : s.mem.wf = true) : (State.withdraw s part m i n self va async).mem.wf = true := by
  unfold State.withdraw; (try simp only []); (repeat' split); all_goals simp_all
@[simp] theorem State.flush_wf (s : State) (part : Nat) (m : TreeMsg) (va lg : Nat) (h : s.mem.wf = true) :
    (s.flush part m va lg).mem.wf = true := by
  unfold State.flush; simp only []
  apply State.ite_wf <;> simp [h]
@[simp] theorem State.treeRead_wf (s : State) (part : Nat) (h : s.mem.wf = true) : (s.treeRead part).mem.wf = true := by
  unfold State.treeRead
  split
  · exact h
  · rename_i hq
    have hm := State.treeHead_mem _ _ _ hq
    simp only [] at hm
    split <;> simp [hm, h]
@[simp] theorem State.sendTree_mem (s : State) (dst : Dst) (kind : TreeKind)
    : (State.sendTree s dst kind).mem = s.mem := by
  simp [State.sendTree]
@[simp] theorem State.mapOrGrant_wf (s : State) (grant : Bool) (dst : Dst) (a b : Src) (cookie : W32) (rctx : BitVec 12)
    (win : BitVec 6) (lg : BitVec 5) (rights : BitVec 3) (h : s.mem.wf = true)
    : (State.mapOrGrant s grant dst a b cookie rctx win lg rights).mem.wf = true := by
  unfold State.mapOrGrant; (try simp only []); (repeat' split); all_goals simp_all
@[simp] theorem State.reserved_wf (s : State) (h : s.mem.wf = true) : (State.reserved s).mem.wf = true := by
  simp [State.reserved, h]
@[simp] theorem State.startKill_mem (s : State) (ctx reason : Nat) (page : Option Nat)
    : (State.startKill s ctx reason page).mem = s.mem := by
  simp [State.startKill]
@[simp] theorem State.sysWrite_wf (s : State) (reg : Nat) (v : Word) (h : s.mem.wf = true)
    : (State.sysWrite s reg v).mem.wf = true := by
  unfold State.sysWrite; (try simp only []); (repeat' split); all_goals simp_all
@[simp] theorem State.undo_wf (s : State) (c : Nat) (ms : List Nat) (h : s.mem.wf = true) : (s.undo c ms).mem.wf = true := by
  unfold State.undo; simp only [State.updCore_mem]
  exact foldr_keeps (fun s : State => s.mem.wf = true) _ (fun _ _ h1 => Memory.wf_writeWord _ _ _ h1) _ _ h
@[simp] theorem State.undos_wf (s : State) (ms l : List Nat) (h : s.mem.wf = true) : (s.undos ms l).mem.wf = true := by
  fun_induction State.undos <;> simp_all
@[simp] theorem State.rollback_wf (s : State) (m : Nat) (h : s.mem.wf = true) : (s.rollback m).mem.wf = true := by
  unfold State.rollback; simp only []
  split <;> simp [h]
@[simp] theorem State.restores_wf (s : State) (x1 : List Nat) (h : s.mem.wf = true) : (State.restores s x1).mem.wf = true := by
  fun_induction State.restores <;> simp_all (maxDischargeDepth := 8)
@[simp] theorem State.rollbacks_wf (s : State) (ms : List Nat) (h : s.mem.wf = true) : (State.rollbacks s ms).mem.wf = true := by
  simp [State.rollbacks, h]
@[simp] theorem State.stopTeam_mem (s : State) (by_ : Nat) (x1 : List Nat) : (State.stopTeam s by_ x1).mem = s.mem := by
  fun_induction State.stopTeam <;> simp_all
@[simp] theorem State.hang_mem (s : State) (ep start launch : Nat) (pc : W32)
    : (State.hang s ep start launch pc).mem = s.mem := by
  simp [State.hang]

end Sys2Proof.Machine
end

