-- ==== Sys2Proof/Laws/KeptHost.lean ====
section
/-!
SUPPORT. Which operations of distributors, the removal of contexts and dies, the host, the links and the boot leave memory alone, and that each of the others keeps its canonical form.
-/
set_option maxRecDepth 10000
set_option linter.unusedSimpArgs false

namespace Sys2Proof.Machine

@[simp] theorem State.considered_mem (s : State) (part pair : Nat) : (State.considered s part pair).2.mem = s.mem := by
  unfold State.considered; (try simp only []); (repeat' split); all_goals simp_all
@[simp] theorem State.lateUnit_wf (s : State) (part pair tag i : Nat) (h : s.mem.wf = true)
    : (State.lateUnit s part pair tag i).mem.wf = true := by
  unfold State.lateUnit; (try simp only []); (repeat' split); all_goals simp_all
@[simp] theorem State.dispatch_wf (s : State) (part pair : Nat) (u : Nat × Nat) (core : Nat) (h : s.mem.wf = true) :
    (s.dispatch part pair u core).mem.wf = true := by
  unfold State.dispatch; simp only [State.post_mem]
  apply State.ite_wf
  · simp only [State.updLaunch_mem]; apply State.ite_wf <;> simp [h]
  · simp only [State.updLaunch_mem]; apply State.ite_wf <;> simp [h]
@[simp] theorem State.skipUnits_mem (s : State) (pair : Nat) (l : List (Nat × Nat)) : (s.skipUnits pair l).mem = s.mem := by
  induction l generalizing s with
  | nil => rfl
  | cons a l ih => unfold State.skipUnits; simp only []; rw [ih]; simp
@[simp] theorem State.resetCores_mem (s : State) (l : List Nat) : (s.resetCores l).mem = s.mem := by
  induction l generalizing s with
  | nil => rfl
  | cons a l ih => unfold State.resetCores; simp only []; rw [ih]; simp
@[simp] theorem State.freeLaunches_mem (s : State) (part : Nat) (l : List Nat) : (s.freeLaunches part l).mem = s.mem := by
  induction l generalizing s with
  | nil => rfl
  | cons a l ih => unfold State.freeLaunches; simp only []; rw [ih]; dsimp only; split <;> simp
@[simp] theorem State.freeLevels_mem (s : State) (lvl part ctx : Nat) (l : List Nat) : (s.freeLevels lvl part ctx l).mem = s.mem := by
  induction l generalizing s with
  | nil => rfl
  | cons a l ih =>
    unfold State.freeLevels; simp only []; rw [ih]
    apply State.ite_mem _ rfl
    dsimp only; split <;> simp
@[simp] theorem State.purgeLaunches_wf (s : State) (part ctx : Nat) (h : s.mem.wf = true) : (State.purgeLaunches s part ctx).mem.wf = true := by
  simp [State.purgeLaunches, h]
@[simp] theorem State.closeSinks_wf (s : State) (x1 : List Nat) (h : s.mem.wf = true) : (State.closeSinks s x1).mem.wf = true := by
  fun_induction State.closeSinks <;> simp_all (maxDischargeDepth := 8)
@[simp] theorem State.dropWalks_mem (s : State) : (State.dropWalks s).mem = s.mem := by
  simp [State.dropWalks]
@[simp] theorem State.dropDebugRead_mem (s : State) (ctx : Nat) : (State.dropDebugRead s ctx).mem = s.mem := by
  unfold State.dropDebugRead; (try simp only []); (repeat' split); all_goals simp_all
@[simp] theorem State.purge_wf (s : State) (ctx : Nat) (h : s.mem.wf = true) : (State.purge s ctx).mem.wf = true := by
  unfold State.purge; (try simp only []); (repeat' split); all_goals simp_all (maxDischargeDepth := 8)
@[simp] theorem State.setKill_mem (s : State) (ctx phase : Nat) : (State.setKill s ctx phase).mem = s.mem := by
  simp [State.setKill]
@[simp] theorem State.tellKillers_mem (s : State) (x1 : List Nat) : (State.tellKillers s x1).mem = s.mem := by
  fun_induction State.tellKillers <;> simp_all
@[simp] theorem State.detachAll_wf (s : State) (ctx : Nat) (x1 : List Nat) (h : s.mem.wf = true) : (State.detachAll s ctx x1).mem.wf = true := by
  fun_induction State.detachAll <;> simp_all (maxDischargeDepth := 8)
@[simp] theorem State.forgetCtx_mem (s : State) (ctx : Nat) : (State.forgetCtx s ctx).mem = s.mem := by
  simp [State.forgetCtx]
@[simp] theorem State.wantFence_mem (s : State) (die : Nat) (asked : Bool)
    : (State.wantFence s die asked).mem = s.mem := by
  unfold State.wantFence; (try simp only []); (repeat' split); all_goals simp_all
@[simp] theorem State.loseEntries_wf (s : State) (part ep qbase : Nat) (l : List QEntry) (h : s.mem.wf = true) :
    (s.loseEntries part ep qbase l).mem.wf = true := by
  induction l generalizing s with
  | nil => exact h
  | cons a l ih => unfold State.loseEntries; exact ih _ (State.countExit_wf _ _ _ _ _ h)
@[simp] theorem State.loseInsts_wf (s : State) (part qbase pair : Nat) (l : NMap Inst) (h : s.mem.wf = true) :
    (s.loseInsts part qbase pair l).mem.wf = true := by
  induction l generalizing s with
  | nil => exact h
  | cons a l ih => unfold State.loseInsts; apply ih; apply State.ite_wf <;> simp [h]
@[simp] theorem State.deadStages_wf (s : State) (pair : Nat) (l : NMap Stage) (h : s.mem.wf = true) :
    (s.deadStages pair l).mem.wf = true := by
  induction l generalizing s with
  | nil => exact h
  | cons a l ih => unfold State.deadStages; simp only []; apply ih; apply State.ite_wf <;> simp [h]
@[simp] theorem State.losePair_wf (s : State) (pair : Nat) (h : s.mem.wf = true) : (s.losePair pair).mem.wf = true := by
  unfold State.losePair; simp [h]
@[simp] theorem State.loseSpilled_wf (s : State) (core x1 : Nat) (h : s.mem.wf = true)
    : (State.loseSpilled s core x1).mem.wf = true := by
  induction x1 generalizing s <;> (unfold State.loseSpilled; (try simp only []); (repeat' split) <;> simp_all (maxDischargeDepth := 8))
@[simp] theorem State.loseUnits_wf (s : State) (seen : List Nat) (l : List (Nat × Thread)) (h : s.mem.wf = true) :
    (s.loseUnits seen l).mem.wf = true := by
  induction l generalizing s seen with
  | nil => unfold State.loseUnits; exact h
  | cons a l ih =>
    unfold State.loseUnits
    apply State.ite_wf
    · exact ih _ _ h
    · exact ih _ _ (State.countExit_wf _ _ _ _ _ h)
@[simp] theorem State.losePark_wf (s : State) (core : Nat) (x1 : List ParkSlot) (h : s.mem.wf = true)
    : (State.losePark s core x1).mem.wf = true := by
  fun_induction State.losePark <;> simp_all (maxDischargeDepth := 8)
@[simp] theorem State.loseCores_wf (s : State) (l : List Nat) (h : s.mem.wf = true) : (s.loseCores l).mem.wf = true := by
  induction l generalizing s with
  | nil => exact h
  | cons a l ih => unfold State.loseCores; simp only []; apply ih; simp (maxDischargeDepth := 8) [h]
@[simp] theorem State.loseReqs_wf (s : State) (die : Nat) (x1 : List Req) (h : s.mem.wf = true) : (State.loseReqs s die x1).mem.wf = true := by
  induction x1 generalizing s <;> (unfold State.loseReqs; (try simp only []); (repeat' split) <;> simp_all (maxDischargeDepth := 8))
@[simp] theorem State.loseCopies_wf (s : State) (die : Nat) (x1 : List (Nat × Channel)) (h : s.mem.wf = true) : (State.loseCopies s die x1).mem.wf = true := by
  induction x1 generalizing s <;> (unfold State.loseCopies; (try simp only []); (repeat' split) <;> simp_all (maxDischargeDepth := 8))
@[simp] theorem State.loseBase_wf (s : State) (die : Nat) (h : s.mem.wf = true) : (State.loseBase s die).mem.wf = true := by
  unfold State.loseBase; (try simp only []); (repeat' split); all_goals simp_all (maxDischargeDepth := 8)
@[simp] theorem State.cutShares_mem (s : State) (io : Nat) : (State.cutShares s io).mem = s.mem := by
  simp [State.cutShares]
@[simp] theorem State.loseIo_mem (s : State) (die : Nat) : (State.loseIo s die).mem = s.mem := by
  simp [State.loseIo]
@[simp] theorem State.fenceDie_wf (s : State) (die : Nat) (h : s.mem.wf = true) : (State.fenceDie s die).mem.wf = true := by
  unfold State.fenceDie; (try simp only []); (repeat' split); all_goals simp_all (maxDischargeDepth := 8)
@[simp] theorem State.reissue_wf (s : State) (part : Nat) (hdr index : Word) (h : s.mem.wf = true)
    : (State.reissue s part hdr index).mem.wf = true := by
  unfold State.reissue; (try simp only []); (repeat' split); all_goals simp_all
@[simp] theorem State.reissueUnits_wf (s : State) (part : Nat) (x1 : List Nat) (x2 : List UnitId) (h : s.mem.wf = true) : (State.reissueUnits s part x1 x2).mem.wf = true := by
  fun_induction State.reissueUnits <;> simp_all (maxDischargeDepth := 8)
@[simp] theorem State.reissueSpilled_wf (s : State) (part core x1 : Nat) (h : s.mem.wf = true)
    : (State.reissueSpilled s part core x1).mem.wf = true := by
  induction x1 generalizing s <;> (unfold State.reissueSpilled; (try simp only []); (repeat' split) <;> simp_all (maxDischargeDepth := 8))
@[simp] theorem State.reissueQueues_wf (s : State) (part : Nat) (x1 : List Nat) (h : s.mem.wf = true) : (State.reissueQueues s part x1).mem.wf = true := by
  fun_induction State.reissueQueues <;> simp_all (maxDischargeDepth := 8)
@[simp] theorem State.reissueCores_wf (s : State) (part : Nat) (cores : List Nat) (h : s.mem.wf = true) : (State.reissueCores s part cores).mem.wf = true := by
  simp [State.reissueCores, h]
@[simp] theorem State.loseMsgs_wf (s : State) (part : Nat) (x1 : List Msg) (h : s.mem.wf = true) : (State.loseMsgs s part x1).mem.wf = true := by
  induction x1 generalizing s <;> (unfold State.loseMsgs; (try simp only []); (repeat' split) <;> simp_all (maxDischargeDepth := 8))
@[simp] theorem State.reissueMsgs_wf (s : State) (part : Nat) (l : List Msg) (h : s.mem.wf = true) :
    (s.reissueMsgs part l).mem.wf = true := by
  induction l generalizing s with
  | nil => exact h
  | cons a l ih => unfold State.reissueMsgs; exact ih _ (State.reissue_wf _ _ _ _ h)
@[simp] theorem State.dropAcks_wf (s : State) (part : Nat) (x1 : List (Nat × Bool)) (h : s.mem.wf = true)
    : (State.dropAcks s part x1).mem.wf = true := by
  fun_induction State.dropAcks <;> simp_all (maxDischargeDepth := 8)
@[simp] theorem State.returnBatches_mem (s : State) (part : Nat) (l : List Batch) : (s.returnBatches part l).mem = s.mem := by
  induction l with
  | nil => rfl
  | cons a l ih => unfold State.returnBatches; simp [ih]
@[simp] theorem State.settlePair_wf (s : State) (part pair : Nat) (h : s.mem.wf = true) : (State.settlePair s part pair).mem.wf = true := by
  unfold State.settlePair; (try simp only []); (repeat' split); all_goals simp_all (maxDischargeDepth := 8)
@[simp] theorem State.settlePairs_wf (s : State) (part : Nat) (l : List Nat) (h : s.mem.wf = true) :
    (s.settlePairs part l).mem.wf = true := by
  induction l generalizing s with
  | nil => exact h
  | cons a l ih => unfold State.settlePairs; apply ih; apply State.ite_wf <;> simp [h]
@[simp] theorem State.refuse_mem (s : State) (page : Nat) : (State.refuse s page).mem = s.mem := by
  simp [State.refuse]
@[simp] theorem State.setRegs_mem (s : State) (r : SysReg) (owner : Nat) (v : Word) (x1 : List Nat)
    : (State.setRegs s r owner v x1).mem = s.mem := by
  fun_induction State.setRegs <;> simp_all
@[simp] theorem State.firstGraph_mem (s : State) (part ctx : Nat) : (s.firstGraph part ctx).mem = s.mem := by
  unfold State.firstGraph; simp only []
  split
  · rfl
  · split
    · rfl
    · rename_i hq; have hm := State.takeIndex_mem _ _ _ hq; simp only [State.createLevel_mem]; exact hm
@[simp] theorem State.killFrom_mem (s : State) (page ctx : Nat) : (State.killFrom s page ctx).mem = s.mem := by
  unfold State.killFrom; (try simp only []); (repeat' split); all_goals simp_all
@[simp] theorem State.hostTree_mem (s : State) (node : Nat) (kind : TreeKind)
    : (State.hostTree s node kind).mem = s.mem := by
  simp [State.hostTree]
@[simp] theorem State.failFrame_wf (s : State) (conn : Nat) (f : Frame) (h : s.mem.wf = true)
    : (State.failFrame s conn f).mem.wf = true := by
  unfold State.failFrame; (try simp only []); (repeat' split); all_goals simp_all
@[simp] theorem State.failFrames_wf (s : State) (conn : Nat) (x1 : List Frame) (h : s.mem.wf = true)
    : (State.failFrames s conn x1).mem.wf = true := by
  fun_induction State.failFrames <;> simp_all (maxDischargeDepth := 8)
@[simp] theorem State.failConn_wf (s : State) (conn : Nat) (h : s.mem.wf = true)
    : (State.failConn s conn).mem.wf = true := by
  simp [State.failConn, h]
@[simp] theorem State.completeWrite_mem (s : State) (port page : Nat) (st : WriteEnd) : (State.completeWrite s port page st).mem = s.mem := by
  simp [State.completeWrite]
@[simp] theorem State.submitted_mem (s : State) (port page outcome tag : Nat) : (State.submitted s port page outcome tag).mem = s.mem := by
  unfold State.submitted; (try simp only []); (repeat' split); all_goals simp_all
@[simp] theorem State.portClosed_mem (s : State) (port page : Nat) : (State.portClosed s port page).mem = s.mem := by
  unfold State.portClosed; (try simp only []); (repeat' split); all_goals simp_all
@[simp] theorem State.resumeHalted_mem (s : State) (l : List Nat) : (s.resumeHalted l).mem = s.mem := by
  induction l generalizing s with
  | nil => rfl
  | cons a l ih => unfold State.resumeHalted; rw [ih]; simp
@[simp] theorem State.complete_mem (s : State) (port addr : Nat) (data : Option (List Byte))
    : (State.complete s port addr data).mem = s.mem := by
  simp [State.complete]
@[simp] theorem State.tellAccess_wf (s : State) (port phys requester : Nat) (h : s.mem.wf = true)
    : (State.tellAccess s port phys requester).mem.wf = true := by
  simp [State.tellAccess, h]
@[simp] theorem State.unserved_mem (s : State) (port addr : Nat) (write : Bool)
    : (State.unserved s port addr write).mem = s.mem := by
  unfold State.unserved; (try simp only []); (repeat' split); all_goals simp_all
@[simp] theorem State.hostWrite_wf (s : State) (port phys requester : Nat) (bs : List Byte) (h : s.mem.wf = true)
    : (State.hostWrite s port phys requester bs).mem.wf = true := by
  unfold State.hostWrite; (try simp only []); (repeat' split); all_goals simp_all
@[simp] theorem State.inboundPart_wf (s : State) (port : Nat) (x : Inbound) (h : s.mem.wf = true) : (State.inboundPart s port x).2.mem.wf = true := by
  unfold State.inboundPart; (try simp only []); (repeat' split); all_goals simp_all (maxDischargeDepth := 8)
@[simp] theorem State.setLine_mem (s : State) (line : Nat) (ports : List Nat) (excl : Bool)
    : (State.setLine s line ports excl).mem = s.mem := by
  simp [State.setLine]
@[simp] theorem State.grantLine_mem (s : State) (line : Nat) (ports : List Nat) (excl : Bool) : (State.grantLine s line ports excl).mem = s.mem := by
  simp [State.grantLine]
@[simp] theorem State.cxlRead_mem (s : State) (port addr phys : Nat) (excl : Bool)
    : (State.cxlRead s port addr phys excl).mem = s.mem := by
  unfold State.cxlRead; (try simp only []); (repeat' split); all_goals simp_all
@[simp] theorem State.cxlWrite_wf (s : State) (port phys : Nat) (excl : Bool) (data : List Byte) (h : s.mem.wf = true)
    : (State.cxlWrite s port phys excl data).mem.wf = true := by
  unfold State.cxlWrite; (try simp only []); (repeat' split); all_goals simp_all
@[simp] theorem State.settleFrame_wf (s : State) (f : Frame) (h : s.mem.wf = true)
    : (State.settleFrame s f).mem.wf = true := by
  unfold State.settleFrame; (try simp only []); (repeat' split); all_goals simp_all
@[simp] theorem State.settleFrames_wf (s : State) (x1 : List Frame) (h : s.mem.wf = true)
    : (State.settleFrames s x1).mem.wf = true := by
  fun_induction State.settleFrames <;> simp_all (maxDischargeDepth := 8)
@[simp] theorem State.takeAck_wf (s : State) (conn ack : Nat) (refused : Bool) (h : s.mem.wf = true)
    : (State.takeAck s conn ack refused).mem.wf = true := by
  unfold State.takeAck; (try simp only []); (repeat' split); all_goals simp_all
@[simp] theorem State.linkMessage_mem (s : State) (conn : Nat) (hdr : Word) (dest : Nat) (words : List Word)
    : (State.linkMessage s conn hdr dest words).mem = s.mem := by
  unfold State.linkMessage; (try simp only []); (repeat' split); all_goals simp_all
@[simp] theorem State.linkWrite_wf (s : State) (conn addr n : Nat) (words : List Word) (h : s.mem.wf = true)
    : (State.linkWrite s conn addr n words).mem.wf = true := by
  unfold State.linkWrite; (try simp only []); (repeat' split); all_goals simp_all
@[simp] theorem State.takeFrame_wf (s : State) (conn seq : Nat) (message : Bool) (hdr : Word) (dest addr : Nat)
    (words : List Word) (h : s.mem.wf = true)
    : (State.takeFrame s conn seq message hdr dest addr words).mem.wf = true := by
  unfold State.takeFrame; (try simp only []); (repeat' split); all_goals simp_all
@[simp] theorem State.startBoot_mem (s : State) : (State.startBoot s).mem = s.mem := by
  simp [State.startBoot]
@[simp] theorem State.warm_wf (s : State) (h : s.mem.wf = true) : (State.warm s).mem.wf = true := by
  simp [State.warm, h]
@[simp] theorem State.scrub_wf (s : State) (h : s.mem.wf = true) : (State.scrub s).mem.wf = true := by
  simp [State.scrub, h]
@[simp] theorem State.openScroll_wf (s : State) (h : s.mem.wf = true) : (State.openScroll s).mem.wf = true := by
  unfold State.openScroll; (try simp only []); (repeat' split); all_goals simp_all
@[simp] theorem State.bootTests_wf (s : State) (x1 : Nat) (h : s.mem.wf = true) : (State.bootTests s x1).mem.wf = true := by
  induction x1 generalizing s <;> (unfold State.bootTests; (try simp only []); (repeat' split) <;> simp_all (maxDischargeDepth := 8))

end Sys2Proof.Machine
end

