-- ==== Sys2Proof/Laws/KeptVector.lean ====
section
/-!
SUPPORT. Which operations of vector instructions and the step leave memory alone, and that each of the others keeps its canonical form.
-/
set_option maxRecDepth 10000
set_option linter.unusedSimpArgs false

namespace Sys2Proof.Machine

@[simp] theorem State.fpLate2_mem (s : State) (i : Instr) (t : ElemTy) (o : Op2)
    : (State.fpLate2 s i t o).mem = s.mem := by
  simp [State.fpLate2]
@[simp] theorem State.fpLate1_mem (s : State) (i : Instr) (o : Op1) : (State.fpLate1 s i o).mem = s.mem := by
  simp [State.fpLate1]
@[simp] theorem State.fpMm_mem (s : State) (wantMax : Bool) (t : FTy) (ftz : Bool) (o : Op2)
    : (State.fpMm s wantMax t ftz o).mem = s.mem := by
  simp [State.fpMm]
@[simp] theorem State.int2_mem (s : State) (f : IntTy → Word → Word → Word) (t : IntTy) (o : Op2)
    : (State.int2 s f t o).mem = s.mem := by
  simp [State.int2]
@[simp] theorem State.int1_mem (s : State) (f : IntTy → Word → Word) (t : IntTy) (o : Op1)
    : (State.int1 s f t o).mem = s.mem := by
  simp [State.int1]
@[simp] theorem State.intLate_mem (s : State) (i : Instr) (t : IntTy) (o : Op2)
    : (State.intLate s i t o).mem = s.mem := by
  simp [State.intLate]
@[simp] theorem State.laneLoad_mem (s : State) (sp : Nat) (t : ElemTy) (b : W32) (l : Nat)
    : (State.laneLoad s sp t b l).2.mem = s.mem := by
  unfold State.laneLoad; (try simp only []); (repeat' split); all_goals simp_all
@[simp] theorem State.vecStore_wf (s : State) (sp a n v : Nat) (h : s.mem.wf = true)
    : (State.vecStore s sp a n v).mem.wf = true := by
  unfold State.vecStore; (try simp only []); (repeat' split); all_goals simp_all
@[simp] theorem State.laneStore_wf (s : State) (sp : Nat) (t : ElemTy) (b : W32) (l v : Nat) (h : s.mem.wf = true)
    : (State.laneStore s sp t b l v).mem.wf = true := by
  unfold State.laneStore; (try simp only []); (repeat' split); all_goals simp_all
@[simp] theorem State.lanesLoad_mem (s : State) (sp : Nat) (t : ElemTy) (b : W32) (l : List Nat) :
    (s.lanesLoad sp t b l).2.mem = s.mem := by
  induction l generalizing s with
  | nil => rfl
  | cons a l ih => unfold State.lanesLoad; simp [ih]
@[simp] theorem State.lanesStore_wf (s : State) (sp : Nat) (t : ElemTy) (b : W32) (x1 : List (Nat × Nat))
    (h : s.mem.wf = true) : (State.lanesStore s sp t b x1).mem.wf = true := by
  fun_induction State.lanesStore <;> simp_all (maxDischargeDepth := 8)
@[simp] theorem State.vecSrc_mem (s : State) (t : ElemTy) (mem : Bool) (p : Fin 8) (active : List Nat) :
    (s.vecSrc t mem p active).2.mem = s.mem := by
  unfold State.vecSrc; simp only []
  split <;> simp
@[simp] theorem State.vecDst_wf (s : State) (t : ElemTy) (mem : Bool) (p : Fin 8) (vs : List (Nat × W32))
    (h : s.mem.wf = true) : (State.vecDst s t mem p vs).mem.wf = true := by
  unfold State.vecDst; (try simp only []); (repeat' split); all_goals simp_all
@[simp] theorem State.vecGuard_wf (s : State) (t : ElemTy) (active : List Nat) (ptrs : List (Fin 8)) (f : State → State)
    (h : s.mem.wf = true) (hf : (f s).mem.wf = true) : (s.vecGuard t active ptrs f).mem.wf = true := by
  unfold State.vecGuard; split
  · exact State.raise_wf _ _ _ h
  · exact hf
@[simp] theorem State.vecDone_mem (s : State) (ptrs : List (Fin 8)) : (State.vecDone s ptrs).mem = s.mem := by
  simp [State.vecDone]
@[simp] theorem State.vecMap_wf (s : State) (t : LaneTy) (o : VOp) (hasB steps : Bool) (f : W32 → Nat → W32 → W32 → W32)
    (h : s.mem.wf = true) : (s.vecMap t o hasB steps f).mem.wf = true := by
  unfold State.vecMap; simp only []
  apply State.vecGuard_wf _ _ _ _ _ h
  simp only [State.vecDone_mem, State.updRegs_mem]
  apply State.vecDst_wf
  split <;> simp [h]
@[simp] theorem State.indexed_mem (s : State) (p pb : Fin 8) (l : Nat) : (State.indexed s p pb l).2.mem = s.mem := by
  simp [State.indexed]
@[simp] theorem State.fieldLoad_mem (s : State) (a first : Nat) : (State.fieldLoad s a first).2.mem = s.mem := by
  unfold State.fieldLoad; (try simp only []); (repeat' split); all_goals simp_all
@[simp] theorem State.fieldStore_wf (s : State) (a first mask v : Nat) (h : s.mem.wf = true) : (State.fieldStore s a first mask v).mem.wf = true := by
  unfold State.fieldStore; (try simp only []); (repeat' split); all_goals simp_all (maxDischargeDepth := 8)
@[simp] theorem State.withFetchWord_wf (s : State) (nbits w : Nat) (h : s.mem.wf = true)
    : (State.withFetchWord s nbits w).mem.wf = true := by
  simp [State.withFetchWord, h]

end Sys2Proof.Machine
end

