-- ==== Sys2Proof/Tests/Slice0.lean ====
section
/-!
SUPPORT. Small tests: ill-formed instructions that the checks refuse, words written out from the manual's encodings, and for
every statement a state that meets its hypotheses, with what the step then does where a number of the manual says it.
-/
set_option maxRecDepth 100000
set_option exponentiation.threshold 5000

namespace Sys2Proof.Tests

open Sys2Proof Sys2Proof.Machine

/-- The outcome is a next state with this property. -/
def after (r : Host.Outcome State Fault Refusal) (p : State → Bool) : Bool :=
  match r with
  | .next t => p t
  | _ => false

/-- A unit of launch 0 runs on thread 0 of core 0, in context 1 of partition 0. -/
def base : State :=
  { ctxs := [(1, { inUse := true, tenant := 1 })]
    cores := [(0, { bound := some 1 })]
    launches := [(0, { inUse := true, ctx := 1, state := .running, dispatched := 2, started := 2, acks := 2 })]
    threads := [(0, { busy := true, unit := { uid := 1 } })]
    boot := { state := 2 }
    uids := 2 }

/-- The same with other registers; with another thread record; with another core record. -/
def regs (f : Regs → Regs) (s : State) : State := s.updThr 0 fun t => { t with regs := f t.regs }
def thr (f : Thread → Thread) (s : State) : State := s.updThr 0 f
def core (f : Core → Core) (s : State) : State := s.setCore 0 (f (s.core 0))
/-- k0 and k1 hold these values. -/
def k01 (a b : Word) (s : State) : State := regs (fun r => { r with k := #v[a, b, 0, 0, 0, 0, 0, 0] }) s
def w0 (a : Word) (s : State) : State := regs (fun r => { r with w := #v[a, 0, 0, 0] }) s

/-! ### Well-formedness -/

/-- One ill-formed term for each kind of check; the decoder refuses what `wf` refuses. -/
def illFormed : List Instr :=
  [.add .i32 ⟨.wet, .wet 0, .wet 1, 5⟩, .neg .i32 ⟨.wet, .wet 0, 5⟩, .mulh .n32 ⟨.wet, .wet 0, .wet 1, 0⟩,
   .sext .n8 ⟨.wet, .wet 0, 0⟩, .divn .i64 ⟨.wet, .wet 0, .wet 1, 0⟩, .zext .i8 ⟨.wet, .wet 0, 0⟩, .lih .wet .imm 1,
   .movg 1 (.wet 0) 4, .movm 30 0 2, .br .eq .imm .zero 8, .br .z (.wet 0) (.wet 1) 8, .j 2, .jl .wet 6,
   .jr (.wet 0) 4, .loop .wet .imm 8, .fadd .bf16 .rne false ⟨.wet, .imm, .wet 0, 0x10000⟩,
   .fdiv .rne false ⟨.wet, .wet 0, .wet 0, 1⟩, .fsqrt .rne false ⟨.wet, .wet 0, 1⟩, .fabs .bf16 false ⟨.wet, .imm, 0x10000⟩,
   .fcvt .i4 .rne false 0 .wet (.wet 0), .fcvt .i8 .rne false 1 .wet (.wet 0), .ld .i8 .thr false .wet .imm 0,
   .st .i8 .thr false (.wet 0) .imm 0, .ldaq .i8 .thr .nz .wet (.wet 0) (.wet 1), .amo .i8 .thr .rlx .add .wet (.wet 0) (.wet 1),
   .fence .thr 0 1, .cnset .wet 1 3 (some (.wet 0)), .galloc .wet (.wet 0) 3, .gfree .imm, .send .imm 0 1 0 false,
   .send (.wet 0) 0 4 30 false, .wake .imm, .launch .wet .imm, .cancel .wet 1 (some .imm), .fuse .wet 3,
   .spillq .wet .imm, .jobset .wet 17 false, .stageThresh .wet .imm (.wet 0), .keysend 1 0 0, .splitok .wet (.wet 0) 4,
   .krtread .wet (.wet 0) 17, .qdep .wet .imm, .tev 1 .imm, .rqwrite .coord 0 0, .srr .wet 0x013, .srw (.wet 0) 0x032,
   .rback .wet .imm]

theorem test_wf_refuses : illFormed.all (fun i => !i.wf) = true := by decide

def illFormedWide : List Instr :=
  [.vla .i64 0 0 0, .vsa .i8 0 0 6, .vcvt .i8 0 3 0, .vadd .i32 ⟨0, 1, 0, 0, false, true, false, 0⟩,
   .vfma ⟨0, 0, 0, 0, false, true, false, 6⟩, .vred .i32 .add ⟨0, 0, 0, 0, true, false, true, 0⟩,
   .vcmp .i32 .eq none ⟨0, 0, 0, 1, true, false, false, 0⟩, .vbcast .i32 ⟨0, 0, 0, 0, true, true, false, 0⟩,
   .vidx .i32 0 1 false 0 0 0, .vperm .i32 ⟨0, 0, 0, 0, true, false, false, 0⟩, .vabs .n32 ⟨0, 0, 0, 0, true, false, false, 0⟩,
   .vand .f32 ⟨0, 0, 0, 0, true, false, false, 0⟩, .ldb 0 false, .stb 33, .hcfg 0 0x1000, .rpost 0 0, .rpost 0 4097,
   .mjob .wet .imm 0, .mmask ⟨.zero, .zero, 4, 0⟩, .mprec ⟨.zero, .zero, 0, 32⟩, .mmul .i16 .rne ⟨.zero, .zero, 0, 0⟩,
   .mmul .i8 .rsr ⟨.zero, .zero, 0, 0⟩, .mmulb .i8 ⟨.zero, .zero, 0, 0⟩, .mrecvt ⟨.zero, .zero, 0, 1⟩,
   .mmove .i8 .rne false ⟨.zero, .zero, 0, 0⟩, .mtest .wet .zero 0x200, .map .wet .imm .zero 0 0 0 0 0,
   .map .wet .zero .zero 0 0 0 25 0, .unmap .wet .coord false, .acceptOpen .wet .zero 0 52 0 0 false 0 0,
   .mquery .wet .zero 3, .xflush .wet .zero 25, .xburst .zero .zero 5 .thr 0 false,
   .planew .zero .zero 0, .crec .wet .zero .imm .thr, .sendx .imm 0 0 0 0 false 0 false]

theorem test_wf_refuses_wide : illFormedWide.all (fun i => !i.wf) = true := by decide

/-! ### Words written out from the encoding tables (R66-R73, R78-R81, and the entry of each instruction) -/

def w64 (major minor dst sa sb mod imm : Nat) : Nat :=
  4 * major + 2 ^ 10 * minor + 2 ^ 16 * dst + 2 ^ 20 * sa + 2 ^ 24 * sb + 2 ^ 28 * mod + 2 ^ 32 * imm
def w96 (major minor pa pb pd mask type immA immB : Nat) : Nat :=
  1 + 4 * major + 2 ^ 10 * minor + 2 ^ 16 * pa + 2 ^ 19 * pb + 2 ^ 22 * pd + 2 ^ 25 * mask + 2 ^ 27 * type + 2 ^ 32 * immA +
    2 ^ 64 * immB
def w128 (major minor dst sa sb mod imm opnd : Nat) : Nat :=
  2 + 4 * major + 2 ^ 10 * minor + 2 ^ 16 * dst + 2 ^ 20 * sa + 2 ^ 24 * sb + 2 ^ 28 * mod + 2 ^ 32 * imm + 2 ^ 64 * opnd

def reads (n : Nat) (l : List (Nat × Instr)) : Bool := l.all fun (w, i) => decodeTableWord n w == some i

/-- `k1, w2 -> k3` and `k1 -> k3`. -/
def o2 : Op2 := ⟨.nib 3, .nib 1, .wet 2, 0⟩
def o1 : Op1 := ⟨.nib 3, .nib 1, 0⟩

theorem decode_integer : reads 64
    [(w64 0x01 2 7 5 2 0 0, .add .i32 o2), (w64 0x02 3 7 5 2 0 0, .addi .i64 o2), (w64 0x03 0 7 5 2 0 0, .sub .i8 o2),
     (w64 0x04 1 7 5 0 0 0, .neg .i16 o1), (w64 0x05 4 7 5 2 0 0, .mul .n8 o2), (w64 0x06 5 7 5 2 0 0, .and .n16 o2),
     (w64 0x07 6 7 5 2 0 0, .or .n32 o2), (w64 0x08 7 7 5 2 0 0, .xor .n64 o2), (w64 0x09 2 7 5 2 0 0, .andn .i32 o2),
     (w64 0x0A 2 7 5 0 0 0, .not .i32 o1), (w64 0x0B 2 7 5 2 0 0, .shl .i32 o2), (w64 0x0C 2 7 5 2 0 0, .shr .i32 o2),
     (w64 0x0D 2 7 5 2 0 0, .rotl .i32 o2), (w64 0x0E 2 7 5 0 0 0, .clz .i32 o1), (w64 0x0F 2 7 5 0 0 0, .ctz .i32 o1),
     (w64 0x10 2 7 5 0 0 0, .popc .i32 o1), (w64 0x11 2 7 5 2 0 0, .seq .i32 o2), (w64 0x12 2 7 5 2 0 0, .sel .i32 o2),
     (w64 0x13 2 7 5 2 0 0, .bfx .i32 o2), (w64 0x14 2 7 5 2 0 0, .bfi .i32 o2), (w64 0x15 3 7 5 2 0 0, .mulh .i64 o2),
     (w64 0x16 0 7 5 2 0 0, .div .i8 o2), (w64 0x17 0 7 5 2 0 0, .rem .i8 o2), (w64 0x18 0 7 5 2 0 0, .min .i8 o2),
     (w64 0x19 0 7 5 2 0 0, .max .i8 o2), (w64 0x1A 0 7 5 2 0 0, .slt .i8 o2), (w64 0x1B 0 7 5 2 0 0, .shra .i8 o2),
     (w64 0x1C 0 7 5 0 0 0, .sext .i8 o1), (w64 0x1D 7 7 5 2 0 0, .mulhn .n64 o2), (w64 0x1E 4 7 5 2 0 0, .divn .n8 o2),
     (w64 0x1F 4 7 5 2 0 0, .remn .n8 o2), (w64 0x20 4 7 5 2 0 0, .minn .n8 o2), (w64 0x21 4 7 5 2 0 0, .maxn .n8 o2),
     (w64 0x22 4 7 5 2 0 0, .sltn .n8 o2), (w64 0x23 4 7 5 0 0 0, .zext .n8 o1),
     (w64 0x24 0 7 0 0 0 0x80000000, .li (.nib 3) 0x80000000), (w64 0x25 0 0 5 0 0 9, .lih .wet (.nib 1) 9),
     (w64 0x26 5 6 0 0 0 0, .movk 5 2), (w64 0x27 31 0 13 0 0 7, .movg 31 .imm 7), (w64 0x28 4 0 0 0 0 0x206, .movm 4 6 2)] =
    true := by decide

theorem decode_control : reads 64
    [(w64 0x30 0 0 5 2 4 0xFFFFFFF8, .br .ltn (.nib 1) (.wet 2) 0xFFFFFFF8), (w64 0x31 0 0 0 0 0 16, .j 16),
     (w64 0x32 0 7 0 0 0 16, .jl (.nib 3) 16), (w64 0x33 0 0 5 0 0 0, .jr (.nib 1) 0), (w64 0x34 0 0 13 0 0 64, .ret .imm 64),
     (0xFFFFFFE8007700D4, .loop (.nib 3) (.nib 3) 0xFFFFFFE8), (0x00130008000000D8, .rep 8 3 1)] = true := by decide

theorem decode_float : reads 64
    [(w64 0x40 9 7 5 2 5 0, .fadd .f32 .rsr false o2), (w64 0x41 8 7 5 2 9 0, .fsub .bf16 .rtz true o2),
     (w64 0x42 9 7 5 2 2 0, .fmul .f32 .rup false o2), (w64 0x43 9 7 5 2 3 0, .ffma .f32 .rdn false o2),
     (w64 0x44 9 7 5 2 4 0, .fdiv .rna false o2), (w64 0x45 9 7 5 0 0 0, .fsqrt .rne false o1),
     (w64 0x46 9 7 5 0 0 0, .fexp2 .rne false o1), (w64 0x47 9 7 5 0 0 0, .flog2 .rne false o1),
     (w64 0x48 9 7 5 0 8 0, .frsq .rne true o1), (w64 0x49 9 7 5 2 0 0, .fmin .f32 false o2),
     (w64 0x4A 8 7 5 2 8 0, .fmax .bf16 true o2), (w64 0x4B 9 7 5 0 0 0, .fabs .f32 false o1),
     (w64 0x4C 9 7 5 0 0 0, .fneg .f32 false o1), (w64 0x4D 9 7 5 2 14 0, .fcmp .f32 .un true o2),
     (w64 0x4E 13 0 5 0 8 0x22, .fcvt .t8 .rne true 0x22 .wet (.nib 1))] = true := by decide

theorem decode_memory : reads 64
    [(0x0000001000692980, .ld .i32 .cl false (.nib 5) (.nib 2) 16),
     (w64 0x61 (8 * 3 + 3) 0 4 5 2 8, .st .i64 .dev true (.nib 0) (.nib 1) 8),
     (w64 0x62 (8 * 1 + 6) 6 5 12 0 0, .ldaq .n32 .cl .eq (.nib 2) (.nib 1) .zero),
     (w64 0x63 (8 * 4 + 7) 0 5 2 0 4, .strl .n64 .sys (.nib 1) (.wet 2) 4),
     (w64 0x64 (8 * 3 + 5) 8 7 0 1 0, .ldp .n16 .dev true 4 (.nib 3) 0),
     (w64 0x65 (8 * 1 + 3) 0 10 0 2 0, .stp .i64 .cl true (.nib 6) (.wet 0) 0),
     (w64 0x66 (8 * 1 + 6) 6 4 5 3 7, .amo .n32 .cl .ar .incw (.nib 2) (.nib 0) (.nib 1)),
     (0x000000001546399C, .cas .n32 .cl .acq (.nib 2) (.nib 0) (.nib 1)),
     (0x00000102000021A0, .fence .cl 2 1), (w64 0x68 (8 * 4) 0 0 0 0 0x1303, .fence .sys 3 19),
     (0x00FFF03F000001A4, .waitc 63 0 63 63), (0x00000003000001A8, .waitcn 3 0),
     (w64 0x6B 0 6 0 0 0 (0x3FF * 16 + 9), .cnset (.nib 2) 9 0x3FF none),
     (w64 0x6B 0 0 5 0 0 (2 ^ 14 + 9), .cnset .wet 9 0 (some (.nib 1))), (w64 0x6C 0 6 0 0 0 15, .cnget (.nib 2) 15),
     (w64 0x6D 0 6 13 0 0 4096, .galloc (.nib 2) .imm 4096), (w64 0x6E 0 0 5 0 0 0, .gfree (.nib 1))] = true := by decide

theorem decode_messages : reads 64
    [(0x0002300700700200, .send (.nib 3) 7 3 4 false), (w64 0x80 0 0 14 0 0 (2 ^ 21 + 9), .send .coord 9 0 0 true),
     (w64 0x81 0 0 0 0 0 1, .exit true), (w64 0x82 0 0 0 0 0 0xFFFF, .yield 0xFFFF), (w64 0x83 0 6 0 0 0 100, .park (.nib 2) 100),
     (w64 0x84 0 0 5 0 0 0, .wake (.nib 1)), (w64 0x85 0 8 6 0 0 0, .launch (.nib 4) (.nib 2)),
     (0x0000000000680614, .launchW (.nib 4) (.nib 2)), (w64 0x86 0 6 5 0 0 0, .graphCreate (.nib 2) (.nib 1)),
     (w64 0x86 0 6 5 0 0 1, .graphClose (.nib 2) (.nib 1)), (w64 0x87 0 6 5 0 0 0, .phaseCreate (.nib 2) (.nib 1)),
     (w64 0x87 0 6 5 0 0 1, .phaseClose (.nib 2) (.nib 1)), (w64 0x87 0 6 5 0 0 2, .jobClose (.nib 2) (.nib 1)),
     (w64 0x88 0 6 5 0 0 2, .cancel (.nib 2) 2 (some (.nib 1))), (w64 0x89 0 6 0 0 0 (1 + 8), .lvwait (.nib 2) 1 none),
     (w64 0x8A 0 6 0 0 0 (1 + 8 + 32), .lvread (.nib 2) 1 2 none), (w64 0x8B 0 6 0 0 0 8, .fuse (.nib 2) 8),
     (w64 0x8C 0 0 0 0 0 0, .split), (w64 0x8D 0 6 0 0 0 0, .laneid (.nib 2)), (w64 0x8E 0 6 0 0 0 1, .coord (.nib 2) true),
     (w64 0x8F 0 6 14 0 0 0, .spillq (.nib 2) .coord), (w64 0x90 0 6 0 0 0 (16 + 32), .jobset (.nib 2) 16 true)] =
    true := by decide

theorem decode_stages_trace : reads 64
    [(0x0000000000690280, .stageCreate (.nib 5) (.nib 2)), (w64 0xA0 0 9 6 0 0 1, .stageClose (.nib 5) (.nib 2)),
     (w64 0xA0 0 9 6 1 0 2, .stageThresh (.nib 5) (.nib 2) (.wet 1)), (0x0002200300000284, .keysend 3 2 4),
     (0x0000001000D00288, .splitok .wet .imm 0x10), (w64 0xA3 0 0 0 0 0 0, .mergeok),
     (w64 0xA4 0 6 5 0 0 16, .krtread (.nib 2) (.nib 1) 16), (w64 0xA5 0 6 14 0 0 0, .qdep (.nib 2) .coord),
     (0x00000005005002C0, .tev 5 (.nib 1)), (w64 0xB1 0 0 5 6 0 (5 + 0x1234 * 64), .tevx 5 0x1234 (.nib 1) (.nib 2)),
     (0x00000000000602C8, .tsread (.nib 2)), (0x00001234000002CC, .tmark .wet 0x1234)] = true := by decide

theorem decode_system : reads 64
    [(w64 0xC0 0 0 0 0 0 0x1234, .trap 0x1234), (w64 0xC1 0 0 0 0 0 0, .eret), (0x0000000000090308, .rqread (.nib 5) 0 0),
     (w64 0xC3 0 0 5 0 0 (15 + 32), .rqwrite (.nib 1) 15 2), (w64 0xC4 0 6 0 0 0 0x034, .srr (.nib 2) 0x034),
     (0x0000002300500314, .srw (.nib 1) 0x023), (w64 0xC5 0 0 5 0 0 0x032, .srwTsink (.nib 1)),
     (0x0000000700000318, .ckpt .wet 7), (w64 0xC7 0 6 5 0 0 0, .rback (.nib 2) (.nib 1)), (w64 0xC8 0 0 0 0 0 9, .kill 9),
     (0x0000000000000324, .nop), (0x0000000000000328, .fill), (w64 0xCB 0 0 0 0 0 9, .brk 9), (w64 0xCC 0 0 0 0 0 0, .halt)] =
    true := by decide

/-- `p1, p2 -> p3` under ma2, and `p1 -> acc`. -/
def ov : VOp := ⟨2, 1, 2, 3, true, false, true, 0⟩
def ou : VOp := ⟨0, 1, 0, 0, true, false, false, 0x1A⟩

theorem decode_vector : reads 96
    [(w96 0x00 0 1 0 0 2 12 0 0, .vla .f4 2 1 0), (w96 0x01 0 0 0 3 2 8 0 0x12, .vsa .bf16 2 3 0x12),
     (w96 0x02 0 0 0 0 2 10 1 0x10, .vcvt .e4 2 1 0x10), (w96 0x03 0 1 2 3 2 9 5 0, .vadd .f32 ov),
     (w96 0x04 0 1 2 3 2 2 5 0, .vsub .i32 ov), (w96 0x05 0 1 2 3 2 6 5 0, .vmul .n32 ov), (w96 0x06 0 1 2 3 2 6 5 0, .vmin .n32 ov),
     (w96 0x07 0 1 2 3 2 6 5 0, .vmax .n32 ov), (w96 0x08 2 1 0 0 0 2 1 0x1A, .vred .i32 .max ou),
     (w96 0x09 6 1 2 0 2 9 (1 + 8 * (1 + 2 * 3)) 0, .vcmp .f32 .un (some 3) ⟨2, 1, 2, 0, true, false, false, 0⟩),
     (w96 0x0A 0 1 0 0 0 2 1 0x1A, .vbcast .i32 ou), (w96 0x0B 0 1 2 3 2 2 5 0, .vscl .i32 ov),
     (w96 0x0C 0 1 2 3 2 2 (5 + 8 * 3) 0, .vsel .i32 3 ov),
     (w96 0x0D 0 0 0 3 2 9 0xFFFFFFFE (2 ^ 16 * 0xFFFF + 32 + 1), .vidx .f32 2 3 true 0xFFFFFFFE 0xFFFF 1),
     (w96 0x0E 0 0 2 0 2 2 0 0, .vperm .i32 ⟨2, 0, 2, 0, false, false, false, 0⟩),
     (w96 0x0F 0 1 2 0 2 2 0 0, .vgath .i32 2 1 2 0), (w96 0x10 0 0 2 3 2 2 0 0, .vscat .i32 2 2 3 0),
     (w96 0x11 0 1 0 0 0 9 1 0x1A, .vabs .f32 ou), (w96 0x12 0 1 2 3 2 2 5 0, .vand .i32 ov), (w96 0x13 0 1 2 3 2 2 5 0, .vor .i32 ov),
     (w96 0x14 0 1 2 3 2 2 5 0, .vxor .i32 ov), (w96 0x15 0 1 2 3 2 2 5 0, .vshl .i32 ov), (w96 0x16 0 1 2 3 2 2 5 0, .vshr .i32 ov),
     (0x00000000000000014811005D, .vfma ⟨0, 1, 2, 0, true, false, false, 0⟩), (w96 0x18 0 1 0 0 0 9 1 0x1A, .vexp2 ou),
     (w96 0x19 0 1 0 0 0 9 1 0x1A, .vrsq ou), (w96 0x1A 0 1 0 0 0 9 1 0x1A, .vrcp ou)] = true := by decide

theorem decode_pointers_copies_handles : reads 96
    [(w96 0x40 0 0 0 1 0 0 0x40 (2 ^ 16 + 256), .pset 1 0x40 256 true), (w96 0x41 0 0 0 1 0 0 0xFFFFFFFC 0, .padv 1 0xFFFFFFFC),
     (w96 0x42 0 7 0 0 0 0 0 0, .pget 7), (w96 0x43 0 0 0 0 0 0 0x107 (8 + 5), .baset 0x107 5 true),
     (w96 0x44 0 0 0 0 0 0 (64 + 6) 0, .ldb 6 true), (w96 0x45 0 0 0 0 0 0 32 0, .stb 32),
     (0x000000000000035200000181, .chain 2 5 true none), (w96 0x60 0 0 0 0 0 0 7 0x2000, .chain 7 0 false (some 0x2000)),
     (w96 0x60 0 0 0 0 0 0 (3 + 8) 0, .chainResume 3), (w96 0x61 0 0 0 0 0 0 (3 + 256) 0, .cstat 3 true),
     (w96 0x62 0 0 0 0 0 0 9 (2 ^ 30 * 1), .hcfg 9 0x40000000), (w96 0x62 0 0 0 0 0 0 (9 + 256) 0, .hcfgRearm 9),
     (w96 0x63 0 0 0 0 0 0 (9 + 256) 0, .hacq 9 true), (w96 0x64 0 0 0 0 0 0 9 0, .hrel 9 false),
     (w96 0x65 0 0 0 0 0 0 255 0, .hstate 255), (w96 0x66 0 0 0 0 0 0 9 4096, .rpost 9 4096), (w96 0x67 0 0 0 0 0 0 9 0, .rtake 9),
     (w96 0x68 0 0 0 0 0 0 9 0xFFFFFFFF, .barr 9 0xFFFFFFFF), (w96 0x69 0 0 0 0 0 0 9 1, .bexp 9 1),
     (w96 0x6A 0 0 0 0 0 0 9 0, .btest 9), (0x0000000000000009000001AD, .bwait 9)] = true := by decide

/-- `off=k1, ioff=zero`. -/
def om (imm : W32) (opnd : Word) : MOp := ⟨.nib 1, .zero, imm, opnd⟩

theorem decode_matrix : reads 128
    [(w128 0x00 0 0 0 0 0 0 1, .mlease true), (w128 0x01 0 0 0 0 0 0 0, .mrel),
     (w128 0x02 0 6 5 0 0 0 (0x1000 + 2 ^ 32 * 255 + 2 ^ 46), .mjob (.nib 2) (.nib 1) (0x1000 + 2 ^ 32 * 255 + 2 ^ 46)),
     (w128 0x03 0 0 5 12 0 0x40 4, .mmask (om 0x40 4)), (w128 0x04 0 0 5 12 0 0 31, .mprec (om 0 31)),
     (w128 0x05 0 0 5 12 0 0 0xFFF, .mzero (om 0 0xFFF)),
     (0x001F0C0200000000000000000CC0201A, .mmul .bf16 .rne ⟨.zero, .zero, 0, 0x001F0C0200000000⟩),
     (w128 0x07 15 0 5 12 0 0x105 8, .mmulb .e4x (om 0x105 8)), (w128 0x08 0 0 5 12 3 0 (2 ^ 48), .msca .rdn (om 0 (2 ^ 48))),
     (w128 0x09 0 0 5 12 0 0 (2 ^ 24 * 7 + 3), .msendt (om 0 (2 ^ 24 * 7 + 3))),
     (w128 0x0A 0 0 5 12 0 0 (2 ^ 24 * 7), .mrecvt (om 0 (2 ^ 24 * 7))),
     (w128 0x0B 13 0 5 12 13 0 64, .mmove .t8 .rsr true (om 0 64)), (w128 0x0C 2 0 5 12 1 (2 ^ 21 * 8) 64, .mload .i32 .rtz false (om (2 ^ 21 * 8) 64)),
     (w128 0x0D 0 6 5 0 0 0 0x105, .mtest (.nib 2) (.nib 1) 0x105), (w128 0x0E 0 6 0 0 0 0 3, .mstat (.nib 2) 3),
     (w128 0x0F 0 0 5 12 0 0 (2 ^ 53 * 63), .e8cvt (om 0 (2 ^ 53 * 63)))] = true := by decide

theorem decode_space_engine : reads 128
    [(0x00000000018030420000000706570082, .map (.nib 3) (.nib 1) (.nib 2) 7 0x042 3 0 3),
     (w128 0x21 0 7 5 6 0 7 0x0180_3042, .grant (.nib 3) (.nib 1) (.nib 2) 7 0x042 3 0 3),
     (0x0000000000000001000000000089008A, .unmap (.nib 5) (.nib 4) true),
     (w128 0x22 1 9 8 0 0 0 (1 + 2 * 0x1234 + 2 ^ 19 * 0x21), .unmapAsync (.nib 5) (.nib 4) true 0x1234 0x21),
     (w128 0x23 0 7 5 0 0 0 (1 + 2 * 63 + 2 ^ 7 * 51 + 2 ^ 13 * 5 + 2 ^ 16 * 0x042 + 2 ^ 28 + 2 ^ 29 * 0x1234 + 2 ^ 47 * 0x21),
       .acceptOpen (.nib 3) (.nib 1) 63 51 5 0x042 true 0x1234 0x21),
     (w128 0x23 0 7 0 0 0 0 (2 * 63), .acceptClose (.nib 3) (.wet 0) 63), (w128 0x24 0 7 5 0 0 0 2, .mquery (.nib 3) (.nib 1) 2),
     (w128 0x25 0 7 5 0 0 0 24, .xflush (.nib 3) (.nib 1) 24),
     (w128 0x30 0 0 5 6 0 0 (4 + 8), .xld (.nib 1) (.nib 2) .sys true), (w128 0x31 0 0 5 6 0 0 3, .xst (.nib 1) (.nib 2) .dev false),
     (w128 0x32 0 0 5 6 0 4096 (3 + 8 * 0x1234 + 2 ^ 21), .xburst (.nib 1) (.nib 2) 4096 .dev 0x1234 true),
     (w128 0x33 0 0 5 6 0 64 0, .planew (.nib 1) (.nib 2) 64), (w128 0x34 0 0 5 6 0 0 1, .mbox (.nib 1) (.nib 2) .cl),
     (w128 0x35 0 7 5 6 0 0 4, .crec (.nib 3) (.nib 1) (.nib 2) .sys),
     (w128 0x40 0 0 5 0 0 0xFFFFFFF8 (0x1234 + 2 ^ 18 * 0x21 + 2 ^ 30 * 7 + 2 ^ 33 * 2 + 2 ^ 35 * 0xFFFF + 2 ^ 51),
       .sendx (.nib 1) 0xFFFFFFF8 0x1234 0x21 7 true 0xFFFF true)] = true := by decide

/-- Reserved majors, reserved fields and refused specifiers give no instruction, and neither does length code 0b11. -/
theorem decode_refuses : ([w64 0x00 0 0 0 0 0 0, w64 0x29 0 0 0 0 0 0, w64 0x01 8 0 0 0 0 0, w64 0x01 2 1 0 0 0 0,
    w64 0x01 2 0 15 0 0 0, w64 0x01 2 0 0 0 1 0, w64 0x01 2 0 0 0 0 5, w64 0x60 (8 * 5) 0 0 0 0 0, w64 0x64 0 0 0 0 0 0,
    w64 0x86 0 0 0 0 0 2, 2 ^ 64 - 1].all fun w => decodeTableWord 64 w == none) = true := by decide

/-! ### Scalar and memory instructions -/

/-- R123 examples and corners: DIV.i8 of -7 by 2 pushes -3 and REM.i8 -1; a result is extended by its type. -/
theorem test_div : integerTable (k01 0xF9 2 base) (.div .i8 ⟨.wet, .nib 0, .nib 1, 0⟩) = some (.wet, -3) ∧
    after (exec (.div .i8 ⟨.wet, .nib 0, .nib 1, 0⟩) (k01 0xF9 2 base)) (fun t => t.w0 == -3 && t.me.regs.pc == 8) = true ∧
    after (exec (.rem .i8 ⟨.wet, .nib 0, .nib 1, 0⟩) (k01 0xF9 2 base)) (fun t => t.w0 == -1) = true := by decide
/-- R124: division by zero, and the most negative value by -1. -/
theorem test_div_corners :
    after (exec (.div .i32 ⟨.wet, .nib 0, .nib 1, 0⟩) (k01 5 0 base)) (fun t => t.w0 == -1) = true ∧
    after (exec (.rem .i32 ⟨.wet, .nib 0, .nib 1, 0⟩) (k01 5 0 base)) (fun t => t.w0 == 5) = true ∧
    after (exec (.divn .n32 ⟨.wet, .nib 0, .nib 1, 0⟩) (k01 5 0 base)) (fun t => t.w0 == 0xFFFFFFFF) = true ∧
    after (exec (.div .i64 ⟨.wet, .nib 0, .nib 1, 0⟩) (k01 0x8000000000000000 (-1) base))
      (fun t => t.w0 == 0x8000000000000000) = true := by decide
/-- R99, R123: a sum wraps at its type and is extended; ADDI scales by the type's size. -/
theorem test_add : after (exec (.add .i32 ⟨.nib 2, .nib 0, .imm, 1⟩) (k01 0x7FFFFFFF 0 base))
      (fun t => t.w0 == 0xFFFFFFFF80000000 && t.me.regs.k[2] == t.w0) = true ∧
    after (exec (.add .n8 ⟨.wet, .nib 0, .imm, 1⟩) (k01 0xFF 0 base)) (fun t => t.w0 == 0) = true ∧
    after (exec (.addi .i32 ⟨.wet, .nib 0, .imm, 3⟩) (k01 100 0 base)) (fun t => t.w0 == 112) = true := by decide
theorem test_shifts : after (exec (.shra .i8 ⟨.wet, .nib 0, .imm, 9⟩) (k01 0x80 0 base)) (fun t => t.w0 == -64) = true ∧
    after (exec (.rotl .n8 ⟨.wet, .nib 0, .imm, 1⟩) (k01 0x81 0 base)) (fun t => t.w0 == 3) = true ∧
    after (exec (.mulh .i32 ⟨.wet, .nib 0, .nib 1, 0⟩) (k01 (-1) 2 base)) (fun t => t.w0 == -1) = true ∧
    after (exec (.bfx .i32 ⟨.wet, .nib 0, .imm, 0x304⟩) (k01 0x70 0 base)) (fun t => t.w0 == -1) = true := by decide
/-- R127: LIH adds its immediate above the low half of its source. -/
theorem test_lih : after (exec (.lih (.nib 0) (.nib 0) 0x12345678) (k01 0xFFFFFFFF9ABCDEF0 0 base))
    (fun t => t.me.regs.k[0] == 0x123456789ABCDEF0) = true := by decide
/-- R128: MOVM reads its sources first. -/
theorem test_movm : (4 + 2 < 32 ∧ 6 + 2 < 32) ∧
    after (exec (.movm 4 6 2) (regs (fun r => { r with g := (((r.g.set 4 40).set 5 50).set 6 60) }) base))
      (fun t => t.me.regs.g[6] == 40 && t.me.regs.g[7] == 50 && t.me.regs.g[8] == 60) = true := by decide
/-- Fields that meet each decoding clause of the moves. -/
def rMov (major : BitVec 8) (minor : BitVec 6) (dst sa : BitVec 4) (imm : W32) : Raw64 := ⟨major, minor, dst, sa, 0, 0, imm⟩
theorem wit_MovesBetweenFiles :
    (decodeEnc (.e64 (rMov 0x26 5 6 0 0))).toOption = some (.movk 5 2) ∧
    (decodeEnc (.e64 (rMov 0x27 31 0 13 7))).toOption = some (.movg 31 .imm 7) ∧
    (decodeEnc (.e64 (rMov 0x28 4 0 0 0x206))).toOption = some (.movm 4 6 2) ∧
    (decodeEnc (.e64 (rMov 0x26 5 3 0 0))).toOption = none ∧ (decodeEnc (.e64 (rMov 0x27 5 4 1 0))).toOption = none ∧
    (decodeEnc (.e64 (rMov 0x28 30 0 0 0x200))).toOption = none := by decide

theorem wit_ControlTransfers : Lands base (base.me.regs.pc + 8) ∧ base.me.follows = false ∧
    branchTaken .eq (base.raw 0 .zero) (base.raw 0 .zero) = true ∧ branchTaken .ne (base.raw 0 .zero) (base.raw 0 .zero) = false ∧
    Lands base ((base.raw 64 .imm).setWidth 32) ∧ base.raw 0 .zero ≠ 1 ∧ (k01 1 0 base).raw 0 (.nib 0) = 1 ∧
    (thr (fun t => { t with gang := some ⟨1, 2, 1, 0⟩ }) base).me.follows = true := by
  unfold Lands; decide
/-- Targets: misaligned, the first address past the scratchpad, and offset 28 of the last window. -/
theorem wit_ControlTransfers_faults : base.me.regs.pc + 2 = 2 ∧ (2 : W32).toNat % 4 ≠ 0 ∧ padSize base.curCore ≤ (0x60000 : W32).toNat ∧
    (base.raw 0x60000 .imm).setWidth 32 = (0x60000 : W32) ∧ (0x5FFFC : W32).toNat % 32 = 28 ∧
    (0x5FFFC : W32).toNat < padSize base.curCore ∧ base.me.regs.pc + 0x5FFFC = 0x5FFFC := by decide
/-- R130: a JL at window offset 20 returns past the skipped slot; LOOP counts down to its fall-through. -/
theorem test_jl : after (exec (.jl (.nib 0) 32) (regs (fun r => { r with pc := 20 }) base))
      (fun t => t.me.regs.pc == 52 && t.me.regs.k[0] == 32 && t.me.regs.ras == [32]) = true ∧
    after (exec (.loop .wet (.nib 0) (-8)) (regs (fun r => { r with pc := 8 }) (k01 2 0 base)))
      (fun t => t.me.regs.pc == 0 && t.w0 == 1) = true ∧
    after (exec (.loop .wet (.nib 0) (-8)) (regs (fun r => { r with pc := 8 }) (k01 1 0 base)))
      (fun t => t.me.regs.pc == 16 && t.w0 == 0) = true := by decide
theorem test_br : after (exec (.br .lt (.nib 0) .zero 16) (k01 (-1) 0 base)) (fun t => t.me.regs.pc == 16) = true ∧
    after (exec (.br .ltn (.nib 0) .zero 16) (k01 (-1) 0 base)) (fun t => t.me.regs.pc == 8) = true ∧
    after (exec (.j 2) base) (fun t => t.me.trap || t.me.trapPend.isSome || !t.me.busy) = true := by decide

/-- An ADD at address 8 of core 0, as the body of a repetition. -/
def withBody : State := { base with mem := base.mem.writeNat 8 (padKey 0 8) 0x000000050D570804 }
def body : Rep := (repAt withBody.mem 0 2 8).getD ⟨0, 0, [], 0, 0, 0⟩
/-- The body in fetch order; and a word of REP where a body should stand. -/
theorem wit_Repetition_body : repBody withBody.mem withBody.curCore [(8, .add .i32 ⟨.nib 3, .nib 1, .imm, 5⟩)] (nextPc withBody.me.regs.pc 8) 16 ∧
    repBody base.mem base.curCore [] (nextPc base.me.regs.pc 8) 8 ∧
    fetchAt (base.mem.writeNat 8 (padKey 0 8) 0x00130008000000D8) 0 (8 : W32).toNat = .ok (.rep 8 3 1, 8) ∧ notInBody (.rep 8 3 1) = true := by
  refine ⟨⟨by decide, rfl, rfl, rfl⟩, rfl, rfl, by decide⟩
theorem wit_Repetition : repAt withBody.mem withBody.curCore ((0 : BitVec 9) ++ (0 : BitVec 3) ++ (0 : BitVec 4) ++ (2 : BitVec 16))
      (nextPc withBody.me.regs.pc 8) = some body ∧
    body.body[body.idx + 1]? = none ∧ body.pass + 1 < body.passes ∧
    ({ body with pass := 1 } : Rep).passes ≤ ({ body with pass := 1 } : Rep).pass + 1 := by decide

/-- R134: with k1 = 100, FCVT.t8 from .i32 pushes 0x1F; 300.7 to .i8 under .rtz pushes 127. -/
theorem test_fcvt : after (exec (.fcvt .t8 .rne false 0x22 .wet (.nib 1)) (k01 0 100 base)) (fun t => t.w0 == 0x1F) = true ∧
    after (exec (.fcvt .i8 .rtz false 0 .wet (.nib 0)) (k01 0x43965A1D 0 base)) (fun t => t.w0 == 127) = true ∧
    (floatTable (k01 0 100 base) (.fcvt .t8 .rne false 0x22 .wet (.nib 1))).isSome = true := by decide
/-- R132: 1 + 2^-24 is a tie to the even significand; 1 / 0 is infinite; the root of 4 is 2. -/
theorem test_float : after (exec (.fadd .f32 .rne false ⟨.wet, .nib 0, .nib 1, 0⟩) (k01 0x3F800000 0x33800000 base))
      (fun t => t.w0 == 0x3F800000) = true ∧
    after (exec (.fadd .f32 .rup false ⟨.wet, .nib 0, .nib 1, 0⟩) (k01 0x3F800000 0x33800000 base))
      (fun t => t.w0 == 0x3F800001) = true ∧
    after (exec (.fdiv .rne false ⟨.wet, .nib 0, .nib 1, 0⟩) (k01 0x3F800000 0 base)) (fun t => t.w0 == 0x7F800000) = true ∧
    after (exec (.fsqrt .rne false ⟨.wet, .nib 0, 0⟩) (k01 0x40800000 0 base)) (fun t => t.w0 == 0x40000000) = true := by decide
theorem test_float_choice :
    after (exec (.fmin .f32 false ⟨.wet, .nib 0, .nib 1, 0⟩) (k01 0x7FC00000 0x3F800000 base)) (fun t => t.w0 == 0x3F800000) = true ∧
    after (exec (.fmax .f32 false ⟨.wet, .nib 0, .nib 1, 0⟩) (k01 0x80000000 0 base)) (fun t => t.w0 == 0) = true ∧
    after (exec (.fcmp .f32 .un false ⟨.wet, .nib 0, .nib 1, 0⟩) (k01 0x7FC00000 0 base)) (fun t => t.w0 == 1) = true := by decide
theorem wit_FloatResults_special : (1 : Nat) ≤ 0x3F800000 ∧ 0x3F800000 < 0x7F800000 ∧ (0x80800000 : Nat) ≤ 0xFF800000 := by decide

/-- A memory core: thread 0 of row 0, column 0 of base die 20, in the same context. -/
def mc : Nat := 20 * 2 ^ 13
def memBase : State :=
  { base with cores := [(mc / 8, { bound := some 1 })], threads := [(mc, { busy := true, unit := { uid := 1 } })], cur := mc }
def mthr (f : Thread → Thread) (s : State) : State := s.updThr mc f
def mk01 (a b : Word) (s : State) : State :=
  mthr (fun t => { t with regs := { t.regs with k := #v[a, b, 0, 0, 0, 0, 0, 0] } }) s
/-- A load of the same unit in flight. -/
def flight (ep : Nat) : Req := { id := 9, ep := ep, uid := 1, ctx := 1, launch := 0, kind := .load .i32, va := 0x1000, size := 4 }
/-- A block at 0x1000 whose guard granules stand at 0x1000 and 0x1080. -/
def guarded (s : State) : State := core (fun k => { k with blocks := [(0x1000, 192)], heap := 0x0000100000001000 }) s

theorem wit_NearLoads : checkRef base.curCore (reachLoad base.curCore) (base.ea .zero 0x5FFFC) (intBytes .i32) = .ok (.pad 0x5FFFC) ∧
    (base.core 0).guarded 0x5FFFC = false ∧ ((guarded base).core 0).guarded 0x1000 = true ∧
    checkRef 0 (reachLoad 0) ((k01 0x1000 0 (guarded base)).raw 0 (.nib 0)) 4 = .ok (.pad 0x1000) ∧
    branchTaken .z (nearValue base .i32 0) 0 = true ∧ branchTaken .nz (nearValue base .i32 0) 0 = false := by
  (repeat' apply And.intro) <;> first | decide | rfl
/-- R227: a load is little-endian and extended by its type; a store keeps its neighbours. -/
theorem test_ld_st :
    let s := { k01 8 0x1122334455667788 base with mem := base.mem.writeNat 8 (padKey 0 8) 0xF1F2F3F4F5F6F7F8 }
    after (exec (.ld .i16 .cl false (.nib 3) (.nib 0) 2) s) (fun t => t.w0 == 0xFFFFFFFFFFFFF5F6 && t.me.regs.k[3] == t.w0) = true ∧
    after (exec (.ld .n16 .cl false .wet (.nib 0) 2) s) (fun t => t.w0 == 0xF5F6) = true ∧
    after (exec (.st .i16 .cl false (.nib 0) (.nib 1) 2) s)
      (fun t => t.mem.readNat 8 (padKey 0 8) == 0xF1F2F3F47788F7F8 && t.me.regs.pc == 8) = true := by decide
theorem wit_NearStores : Safe base ∧ checkRef 0 (reachStore 0) (base.ea .zero 0x5FFF8) (intBytes .i64) = .ok (.pad 0x5FFF8) ∧
    base.ownReqs 0 = [] ∧ base.relWaits .sys = false ∧ ({ base with reqs := [flight 0] } : State).relWaits .sys = true ∧
    ((guarded base).core 0).guarded 0x1080 = true := by
  (repeat' apply And.intro) <;> first | decide | rfl
theorem wit_NearAtomics : Safe base ∧ checkRef 0 (reachAtomic 0) (base.raw 0 .zero) (intBytes .n32) = .ok (.pad 0) ∧
    base.relWaits .sys = false ∧ ({ base with reqs := [flight 0] } : State).relWaits .sys = true ∧ (base.core 0).guarded 0 = false ∧
    base.mem.readNat 4 (padKey 0 0) = base.w0.toNat % 2 ^ 32 ∧ base.mem.readNat 4 (padKey 0 0) ≠ (w0 1 base).w0.toNat % 2 ^ 32 ∧
    checkRef 0 (reachAtomic 0) ((k01 0x1000 0 (guarded base)).raw 0 (.nib 0)) 4 = .ok (.pad 0x1000) := by
  (repeat' apply And.intro) <;> first | decide | rfl
/-- R234: an atomic pushes the old value; `incw` wraps at its bound; CAS writes only on equality. -/
theorem test_amo_cas :
    let s := { k01 8 5 base with mem := base.mem.writeNat 4 (padKey 0 8) 5 }
    after (exec (.amo .n32 .cl .ar .incw .wet (.nib 0) (.nib 1)) s)
      (fun t => t.w0 == 5 && t.mem.readNat 4 (padKey 0 8) == 0) = true ∧
    after (exec (.amo .i32 .cl .rlx .min .wet (.nib 0) .zero) { s with mem := base.mem.writeNat 4 (padKey 0 8) 0xFFFFFFFF })
      (fun t => t.w0 == -1 && t.mem.readNat 4 (padKey 0 8) == 0xFFFFFFFF) = true ∧
    after (exec (.cas .n32 .cl .rlx .wet (.nib 0) (.nib 1)) s) (fun t => t.mem.readNat 4 (padKey 0 8) == 5) = true ∧
    after (exec (.cas .n32 .cl .rlx .wet (.nib 0) .zero) (w0 5 s)) (fun t => t.w0 == 5 && t.mem.readNat 4 (padKey 0 8) == 0) = true := by
  decide

theorem wit_FarAccessesIssue : base.me.occ.ld < 63 ∧ base.me.occ.st < 63 ∧
    checkRef memBase.curCore (reachLoad memBase.curCore) ((mk01 0x8000000000001000 0 memBase).ea (.nib 0) 0) 4 = .ok (.far 0x1000) ∧
    checkRef 0 (reachStore 0) ((k01 0x8000000000001000 0 base).ea (.nib 0) 0) 4 = .ok (.far 0x1000) ∧
    checkRef 0 (reachPeer 0) ((k01 0x10000008 0 base).ea (.nib 0) 0) 4 = .ok (.peer (peerCore (coreCl 0) 0) 8) ∧
    checkRef 0 (reachAtomic 0) ((k01 0x10000008 0 base).raw 0 (.nib 0)) 4 = .ok (.peer (peerCore (coreCl 0) 0) 8) ∧
    checkRef memBase.curCore (reachAtomic memBase.curCore) ((mk01 0x8000000000001000 0 memBase).raw 0 (.nib 0)) 4 = .ok (.far 0x1000) := by
  (repeat' apply And.intro) <;> first | decide | rfl
theorem test_far_store : after (exec (.st .i32 .dev false (.nib 0) (.nib 1) 0) (k01 0x8000000000001000 7 base))
    (fun t => t.me.occ.st == 1 && t.reqs.length == 1 && t.me.regs.pc == 8) = true := by decide
/-- One fault of each kind: misaligned, past the end, a space that is not reached, a far load on a small core. -/
theorem wit_AccessFaults : checkRef 0 (reachLoad 0) (base.ea .zero 2) 4 = .error 0x0B ∧
    checkRef 0 (reachStore 0) (base.ea .zero 0x60000) 4 = .error 0x0A ∧ checkRef 0 (reachPeer 0) (base.ea .zero 0) 4 = .error 0x0A ∧
    checkRef 0 (reachLoad 0) ((k01 0x8000000000000000 0 base).raw 0 (.nib 0)) 4 = .error 0x0A ∧
    checkRef 0 (reachAtomic 0) ((k01 0x20000000 0 base).raw 0 (.nib 0)) 4 = .error 0x0A ∧
    (reachPeer 0).own = false ∧ (reachLoad 0).own = true ∧ padSize 0 < 0x5FFFC + 8 ∧ 0x5FFF8 + 8 ≤ padSize 0 ∧
    (reachLoad 0).far = false ∧ (reachStore 0).far = true ∧ 6 % 4 ≠ 0 := by
  (repeat' apply And.intro) <;> first | decide | rfl
theorem wit_FencesWaitsCounters : base.me.occ.ld ≤ (0 : BitVec 6).toNat ∧
    (0 : BitVec 6).toNat < (thr (fun t => { t with occ := { t.occ with st := 1 } }) base).me.occ.st ∧
    (base.core 0).cn[(3 : Fin 16)].toNat ≤ (0 : BitVec 10).toNat ∧
    (0 : BitVec 10).toNat < ((core (fun k => { k with cn := k.cn.set 3 1 }) base).core 0).cn[(3 : Fin 16)].toNat ∧
    (∃ r, r ∈ ({ base with reqs := [flight 0] } : State).ownReqs 0 ∧ r.kind.classes &&& (1 : BitVec 5).toNat ≠ 0) := by
  refine ⟨by decide, by decide, by decide, by decide, flight 0, by decide, by decide⟩
theorem test_counters :
    after (exec (.cnset .wet 3 7 none) (core (fun k => { k with cn := k.cn.set 3 1, uf := 8 }) base))
      (fun t => t.w0 == 1025 && (t.core 0).cn[3] == 7 && (t.core 0).uf == 0) = true ∧
    after (exec (.waitc 63 0 63 63) base) (fun t => t.me.regs.pc == 8) = true ∧
    after (exec (.fence .cl 1 1) { base with reqs := [flight 0] }) (fun t => t.me.fences == [([9], 1, .cl)]) = true := by decide
theorem wit_Heap : (let n := ((base.srcOf ((100 : W32).setWidth 64) .imm)).toNat
      0 < n ∧ n + 128 ≤ fld (0x0000100000001000 : Word) 32 20 ∧ 64 * ((n + 63) / 64) + 128 ≤ fld (0x0000100000001000 : Word) 32 20) ∧
    (0x1000, 192) ∈ ((guarded base).core 0).blocks ∧ ((k01 0x1040 0 (guarded base)).raw 0 (.nib 0)).toNat = 0x1000 + 64 ∧
    (∀ b, b ∈ ((guarded base).core 0).blocks → b.1 + 64 ≠ ((guarded base).raw 0 .zero).toNat) ∧ 0x1000 + 64 < padSize base.curCore ∧
    padSize base.curCore ≤ ((k01 0x60000 0 base).raw 0 (.nib 0)).toNat ∧ (base.core 0).blocks = [] := by decide
/-- R245: with blocks at the start of the heap the next one goes behind them; a freed block's place is used again. -/
theorem test_heap : after (exec (.galloc (.nib 0) .imm 100) (guarded base))
      (fun t => t.me.regs.k[0] == 0x1100 && (t.core 0).blocks == [(0x1000, 192), (0x10C0, 256)]) = true ∧
    after (exec (.gfree (.nib 0)) (k01 0x1040 0 (guarded base))) (fun t => (t.core 0).blocks == []) = true ∧
    after (exec (.galloc .wet .imm 0) (guarded base)) (fun t => t.w0 == 0) = true := by decide

/-! ### Accesses in flight -/

/-- Context 1 owns a readable and writable node: far 0x0-0xFFFFF at physical 0x100000. -/
def mapped (s : State) : State := { s with nodes := [(0, { ctx := 1, lg := 14, phys := 0x100000, rights := 3 })] }
/-- A pager on endpoint 5 of core 0, handler 9, on every die that the tests use. -/
def pager (s : State) : State :=
  [0, 16, 17, 20, 21].foldl (fun s d => s.setReg .pager 1 d (BitVec.ofNat 64 (2 ^ 63 + 9 * 2 ^ 32 + 5))) s
def walker (s : State) (ep : Nat) : Nat := s.walkerDie (epDie ep) (s.partOf (epCore ep))
/-- Access 9 is one of the walks that run. -/
def walked (ep : Nat) (s : State) : State := { s with walks := [(walker s ep, [9])] }
def pend9 : Pend := ⟨9, some 0, some 3, false, none, none⟩
/-- The load in flight is translated, and its thread has reserved its push. -/
def landed (s : State) (ep : Nat) : State :=
  { (s.updThr ep fun t => { t with occ := { t.occ with ld := 1 }, pend := [pend9], pushes := 1 }) with
    reqs := [{ flight ep with land := some ⟨0x101000, false, 0, 20, 0⟩ }] }
def storeReq : Req :=
  { id := 9, ep := 0, uid := 1, ctx := 1, launch := 0, kind := .store 4 7, va := 0x1000, size := 4,
    land := some ⟨0x101000, false, 0, 20, 0⟩ }
def storing : State := { (thr (fun t => { t with occ := { t.occ with st := 1 } }) (mapped base)) with reqs := [storeReq] }

theorem wit_FarTranslation :
    (let s := walked mc { mapped memBase with reqs := [flight mc] }
     let die := walker s mc
     s.findReq 9 = some (flight mc) ∧ (flight mc).peer = none ∧ (flight mc).own = false ∧ (flight mc).sent = false ∧
       (flight mc).land = none ∧ s.mayWalk die 9 1 0x1000 = true ∧
       ((s.leaveWalk die 9).translate 1 0x1000 4 (flight mc).kind.access (flight mc).kind.atomic die).1.toOption.isSome = true ∧
       (s.hostOwned 0x101000) = false ∧ ({ s with shared := [(16, true)] } : State).hostOwned 0x101000 = true ∧
       ({ s with walks := [] } : State).mayWalk die 9 1 0x1000 = false) ∧
    (let r := { storeReq with land := none, det := true }
     let s := walked 0 (pager { base with reqs := [r] })
     let x := (s.leaveWalk (walker s 0) 9).translate 1 0x1000 4 r.kind.access r.kind.atomic (walker s 0)
     s.findReq 9 = some r ∧ s.mayWalk (walker s 0) 9 1 0x1000 = true ∧ x.1.toOption.isNone = true ∧
       (match x.1 with
         | .error f => decide (f.cause < 256)
         | .ok _ => false) = true ∧
       (s.sysReg .pager r.ctx (walker s 0)).getLsbD 63 = true ∧ s.unitAlive r.ep r.uid = true) := by
  decide
/-- R374, R375: the fault message of an address that no node covers carries cause 0x10 or 0x12. -/
theorem test_translate : after (exec (.farAccessTranslate 9) (walked mc { mapped memBase with reqs := [flight mc] }))
      (fun t => (t.reqs.map fun r => r.land.map (·.phys)) == [some 0x101000]) = true ∧
    after (exec (.farAccessTranslate 9) (walked 0 (pager { base with reqs := [{ storeReq with land := none, det := true }] })))
      (fun t => t.reqs == [] && t.msgs.map (·.dest) == [5]) = true := by decide
theorem wit_LoadsArrive :
    (let s := landed (mapped memBase) mc
     let r := { flight mc with land := some ⟨0x101000, false, 0, 20, 0⟩ }
     s.findReq 9 = some r ∧ s.reqReady r [] = true ∧ s.unitHere mc 1 = true ∧ (s.thr mc).trap = false ∧
       takeFirst (·.id == 9) (s.thr mc).pend = some (pend9, []) ∧ s.place 0x101000 = .hbm 272) ∧
    (let r := { flight 0 with peer := some 1, va := 8 }
     let s := { landed base 0 with reqs := [r] }
     s.findReq 9 = some r ∧ s.reqReady r [] = true ∧ takeFirst (·.id == 9) (s.thr 0).pend = some (pend9, []) ∧
       (s.core 1).guarded 8 = false ∧ r.land = none ∧ r.size ≤ 8) := by decide
theorem test_load_arrives :
    let s := landed (mapped memBase) mc
    after (exec (.farAccessAck 9 []) { s with mem := s.mem.writeNat 4 0x101000 0x80000001 })
      (fun t => (t.thr mc).regs.k[3] == 0xFFFFFFFF80000001 && (t.thr mc).occ.ld == 0 && t.reqs == []) = true := by decide
theorem wit_StoresArrive : Safe storing ∧ storing.findReq 9 = some storeReq ∧ storing.place 0x101000 = .hbm 272 ∧
    storing.sealedRoot 0x101000 = none ∧ storing.reqReady storeReq [] = true ∧
    1 < (storing.launch (storing.partOf (epCore storeReq.ep)) storeReq.launch).acks := by
  (repeat' apply And.intro) <;> first | decide | rfl
theorem test_store_arrives : after (exec (.farAccessAck 9 []) storing)
    (fun t => t.mem.readNat 4 0x101000 == 7 && t.me.occ.st == 0 && t.mem.readNat 4 0x101004 == 0) = true := by decide
/-- An outbound window of port 0 from offset 0 serves the address. -/
def busReq : Req := { flight mc with land := some ⟨2 ^ 44, false, 0, 16, 0⟩ }
def onBus : State := { landed memBase mc with reqs := [busReq], tables := [(8192, (BitVec.ofNat 64 (2 ^ 63), 0x2000, 0))] }
theorem wit_EnginesAndReloads :
    ((mthr (fun t => { t with wait := .reload }) memBase).thr mc).wait = .reload ∧
    onBus.findReq 9 = some busReq ∧ busReq.size = intBytes .i32 ∧ onBus.place (2 ^ 44) = .bus 0 0x2000 ∧
    onBus.reqReady busReq (List.replicate 4 (BitVec.allOnes 8)) = true ∧ onBus.unitHere mc 1 = true ∧
    takeFirst (·.id == 9) (onBus.thr mc).pend = some (pend9, []) ∧
    (let s := mk01 0x8000000000001000 0x40 memBase
     s.me.occ.ld < 63 ∧ s.me.occ.st < 63 ∧
     checkBoth s.curCore reachFar reachLocal (s.raw 0 (.nib 0)) (s.raw 0 (.nib 1)) 64 64 = .ok (.far 0x1000, .pad 0x40) ∧
     checkBoth s.curCore reachRecord reachRecord (s.raw 0 (.nib 0)) (s.raw 0 (.nib 1)) (4096 : BitVec 13).toNat 4 =
       .ok (.far 0x1000, .pad 0x40) ∧ inPage 0x1000 4096 = true ∧
     checkBoth s.curCore reachRecord reachRecord (s.raw 0 (.nib 1)) (s.raw 0 (.nib 0)) (4096 : BitVec 13).toNat 4 =
       .ok (.pad 0x40, .far 0x1000) ∧
     checkSpan s.curCore reachFar (s.raw 0 (.nib 0)) 4096 4 = .ok (.far 0x1000) ∧
     checkSpan (epCore (8 : BitVec 18).toNat) reachLocal (s.raw 0 (.nib 1)) 4096 4 = .ok (.pad 0x40) ∧ 0x40 + 4096 ≤ 0x60000 ∧
     checkRef s.curCore reachRecord (s.raw 0 (.nib 0)) 4 = .ok (.far 0x1000) ∧
     checkRef s.curCore reachRecord (s.raw 0 (.nib 1)) 4 = .ok (.pad 0x40) ∧ s.ownReqs s.cur = [] ∧
     checkBoth s.curCore reachRecord reachLocal (s.raw 0 (.nib 0)) (s.raw 0 (.nib 1)) 64 64 = .ok (.far 0x1000, .pad 0x40) ∧
     checkBoth s.curCore reachRecord reachLocal (s.raw 0 .zero) (s.raw 0 (.nib 1)) 64 64 = .ok (.pad 0, .pad 0x40)) := by
  (repeat' apply And.intro) <;> first | decide | rfl
/-- R456: the timed-out read is all ones; R261: a near record's last word is pushed, a near mailbox is stored. -/
theorem test_engine : after (exec (.outboundReadTimeout 9) onBus)
      (fun t => (t.thr mc).regs.k[3] == -1 && nget 0 t.perr 16 == 1) = true ∧
    after (exec (.crec .wet .zero (.nib 1) .cl) { mk01 0 0x40 memBase with mem := base.mem.writeNat 8 (padKey (mc / 8) 56) 77 })
      (fun t => t.w0 == 77 && t.mem.readNat 8 (padKey (mc / 8) 0x78) == 77 && t.me.regs.pc == 16) = true ∧
    after (exec (.mbox (.nib 1) (.nib 0) .cl) (mk01 0x1122334455667788 0x40 memBase))
      (fun t => t.mem.readNat 8 (padKey (mc / 8) 0x40) == 0x55667788) = true ∧
    after (exec (.xld (.nib 0) (.nib 1) .dev false) (mk01 0x8000000000001000 0x40 memBase))
      (fun t => t.me.occ.ld == 1 && t.me.regs.pc == 16) = true := by decide

/-! ### Messages -/

/-- Core 0's handler 1 starts at 0x100; an even number of messages for endpoint 8 of context 1. -/
def handlers (s : State) : State :=
  let s := core (fun k => { k with htab := BitVec.ofNat 64 (2 * 2 ^ 32 + 0x800) }) s
  { s with mem := s.mem.writeNat 8 (padKey 0 0x808) (2 ^ 63 + 0x100) }
def msg1 : Msg := { id := 5, hdr := mkHdr 1 1 40 0 0 2 false, dest := 0, payload := [70, 71], src := 9 }
/-- The header of the same message as one of a distributor. -/
def msg3 : Msg := { msg1 with hdr := mkHdr 1 1 40 0 3 2 false, refused := true }
def idle (s : State) : State := { s with threads := [] }
def arriving (m : Msg) : State := { idle (handlers base) with msgs := [m] }
/-- Every thread of core 0 runs a unit. -/
def full (s : State) : State := { s with threads := (List.range 8).map fun i => (i, { busy := true, unit := { uid := i + 1 } }) }

theorem wit_Sends : (k01 8 0 base).destOk (fld ((k01 8 0 base).raw 0 (.nib 0)) 0 18) = true ∧ base.bufferFull = false ∧
    base.destOk (2 ^ 18 - 1) = false ∧ isService 8 = false ∧
    ({ base with msgs := List.replicate 16 { buffer := some 0 } } : State).bufferFull = true ∧
    checkSpan base.curCore reachLocal (base.ea .zero 0x5FFC8) (8 * (7 : BitVec 3).toNat) 8 = .ok (.pad 0x5FFC8) ∧
    0x5FFC8 + 8 * 7 ≤ 0x60000 ∧ base.me.occ.st < 63 ∧ (0x1234 : BitVec 16).toNat ≠ base.nodeNumber := by
  (repeat' apply And.intro) <;> first | decide | rfl
/-- A connection to node 0x1234 for context 1 on port 0; and none, with a pager. -/
def connected (s : State) : State := { s with tables := [(tableKey 3 0 7, (BitVec.ofNat 64 (2 ^ 63 + 0x1234 * 2 ^ 32 + 2 ^ 16 + 1), 0, 0))] }
theorem wit_Sends_remote : (connected base).connectionTo (connected base).myCtx (0x1234 : BitVec 16).toNat = some 7 ∧
    (connected base).connFull 7 = false ∧ ((connected base).tableEntry 3 0 7).1.getLsbD 62 = false := by decide
theorem wit_Sends_none : ((pager base).sysReg .pager (pager base).myCtx (epDie base.cur)).getLsbD 63 = true ∧
    (thr (fun t => { t with unit := { t.unit with det := true } }) (pager base)).me.unit.det = true := by decide
/-- R320, R321: payload from the main registers, started count up; R324: payload from the scratchpad. -/
theorem test_send : after (exec (.send (.nib 0) 7 2 4 false) (k01 8 0 (regs (fun r => { r with g := r.g.set 4 44 }) base)))
      (fun t => t.msgs.map (fun m => (m.dest, m.payload)) == [(8, [44, 0])] && (t.launch 0 0).started == 3 &&
        t.msgs.map (fun m => hdrHandler m.hdr) == [7]) = true ∧
    after (exec (.sendx .zero 0x40 8 7 1 false 0xFFFF true) { base with mem := base.mem.writeNat 8 (padKey 0 0x40) 9 })
      (fun t => t.msgs.map (·.payload) == [[9]] && t.me.occ.st == 1) = true := by decide
theorem wit_MessagesStartUnits : (arriving msg1).findMsg 5 = some msg1 ∧ Startable (arriving msg1) msg1 0 0x100 0 ∧
    Startable (arriving { msg1 with refused := true }) { msg1 with refused := true } 0 0x100 0 ∧ hdrClass msg1.hdr ≠ 3 ∧
    Startable (arriving msg3) msg3 0 0x100 0 ∧ hdrClass msg3.hdr = 3 := by unfold Startable; decide
theorem test_start : after (exec (.messageArrival 5) (arriving msg1))
    (fun t => (t.thr 0).regs.pc == 0x100 && (t.thr 0).regs.g[1] == 70 && (t.thr 0).regs.g[2] == 71 && t.msgs == []) = true := by
  decide
/-- A detached message whose handler has no entry. -/
def msgBad : Msg := { msg1 with hdr := mkHdr 4 1 40 0 0 2 true }
theorem wit_MessagesThatWait :
    (let s := { full (handlers base) with msgs := [msg1] }
     s.freeThread 0 = none ∧ (s.core 0).spillCap ≤ (s.core 0).spilled.length ∧ s.msgBlocked msg1 = false ∧
       s.isHeld (niWho 0) = false ∧ s.fenced.contains (epDie msg1.dest) = false) ∧
    (let s := core (fun k => { k with spill := BitVec.ofNat 64 (2 ^ 32 + 0x4000) }) { full (handlers base) with msgs := [msg1] }
     (s.core 0).spilled.length < (s.core 0).spillCap ∧ (s.handlerOf 0 (hdrHandler msg1.hdr)).isSome = true ∧
       (s.launch (s.partOf 0) (hdrLaunch msg1.hdr)).cancelled = false) ∧
    (let s := pager (full (handlers base))
     s.handlerOf 0 (hdrHandler msgBad.hdr) = none ∧ hdrDet msgBad.hdr = true ∧ (s.core 0).spilled = [] ∧
       (s.sysReg .pager (hdrCtx msgBad.hdr) (epDie msgBad.dest)).getLsbD 63 = true) ∧
    (isService (16 * 2 ^ 13) = true ∧ ({ base with msgs := [{ msg1 with dest := 16 * 2 ^ 13 }] } : State).ringFull
      (serviceIndex (16 * 2 ^ 13)) = false) := by decide
theorem test_spill :
    after (exec (.messageArrival 5) (core (fun k => { k with spill := BitVec.ofNat 64 (2 ^ 32 + 0x4000) })
      { full (handlers base) with msgs := [msg1] }))
      (fun t => (t.core 0).spilled.length == 1 && t.mem.readNat 8 (padKey 0 0x4008) == 70 && t.msgs == []) = true ∧
    after (exec (.messageArrival 5) { base with msgs := [{ msg1 with dest := 16 * 2 ^ 13 }] })
      (fun t => nget 0 t.callProd 0 == 1 && t.msgs == []) = true ∧
    after (exec (.messageArrival 5) { pager (full (handlers base)) with msgs := [msgBad] })
      (fun t => t.msgs.map (fun m => (m.payload.getD 0 0).extractLsb' 56 8) == [0x20]) = true := by decide
/-- Core 0 unbound, with memory left by another context; the message is detached where its image is unreachable. -/
def unbound (im : List Word) (m : Msg) (s : State) : State :=
  { pager s with cores := [(0, { prev := some 2 })], msgs := [m], threads := [],
                 launches := [(0, { inUse := true, ctx := 1, state := .running, image := im })], mem := s.mem.writeNat 8 (padKey 0 8) 5 }
def image0 : List Word := List.replicate 16 0
def imageBad : List Word := image0.set 5 (BitVec.ofNat 64 (64 * 2 ^ 32))
def msgDet : Msg := { msg1 with hdr := mkHdr 1 1 40 0 0 2 true }
theorem wit_MessagesThatWait_binding : Safe (unbound image0 msg1 base) ∧ (unbound image0 msg1 base).findMsg 5 = some msg1 ∧
    ((unbound image0 msg1 base).core (epCore msg1.dest)).bound = none ∧ (unbound image0 msg1 base).msgBlocked msg1 = false ∧
    fld (((unbound image0 msg1 base).launch 0 (hdrLaunch msg1.hdr)).image.getD 5 0) 32 20 = 0 ∧
    ((unbound image0 msg1 base).core 0).prev ≠ some (hdrCtx msg1.hdr) ∧
    fld (((unbound imageBad msgDet base).launch 0 0).image.getD 5 0) 32 20 ≠ 0 ∧ (imageBad.getD 8 0).getLsbD 63 = false ∧
    hdrDet msgDet.hdr = true ∧ ((unbound imageBad msgDet base).sysReg .pager (hdrCtx msgDet.hdr) (coreDie 0)).getLsbD 63 = true := by
  (repeat' apply And.intro) <;> first | decide | rfl
theorem test_bind : after (exec (.coreBind 5) (unbound image0 msg1 base))
      (fun t => (t.core 0).bound == some 1 && t.mem.readNat 8 (padKey 0 8) == 0) = true ∧
    after (exec (.coreBind 5) (unbound imageBad msgDet base))
      (fun t => (t.core 0).bound == none && t.msgs.map (fun m => (m.payload.getD 0 0).extractLsb' 56 8) == [0x26]) = true := by decide

def wakeMsg : Msg := { msg1 with kind := .wake, hdr := mkHdr 0 1 40 0 2 0 false }
theorem wit_YieldParkWake :
    (thr (fun t => { t with wake := true }) base).me.wake = true ∧ base.me.gang = none ∧
    (thr (fun t => { t with gang := some ⟨1, 2, 0, 0⟩ }) base).me.gang ≠ none ∧
    ((thr (fun t => { t with wait := .park .wet (some 0) }) base).thr 0).wait = .park .wet (some 0) ∧
    ((thr (fun t => { t with wait := .yield 0 [] 1 }) base).thr 0).wait = .yield 0 [] 1 ∧ base.me.follows = false ∧
    ((thr (fun t => { t with wait := .yield 0 [1] 0 }) base).thr 0).wait = .yield 0 [1] 0 ∧ (base.thr (coreEp (epCore 0) 1)).ready = false ∧
    (thr (fun t => { t with gang := some ⟨1, 2, 1, 0⟩ }) base).me.follows = true ∧
    ({ base with msgs := [wakeMsg] } : State).findMsg 5 = some wakeMsg ∧ ({ base with msgs := [wakeMsg] } : State).msgBlocked wakeMsg = false ∧
    (base.core (epCore wakeMsg.dest)).bound = some (hdrCtx wakeMsg.hdr) ∧ (base.thr wakeMsg.dest).busy = true := by decide
/-- R328: a wake that has come is taken at once; a parked thread takes it; a timeout pushes 1. -/
theorem test_park : after (exec (.park .wet 0) (w0 5 (thr (fun t => { t with wake := true }) base)))
      (fun t => t.w0 == 0 && !t.me.wake && t.me.regs.pc == 8) = true ∧
    after (exec (.park .wet 10) base) (fun t => t.me.wait == .park .wet (some 1600)) = true ∧
    after (exec (.parkTimeout 0) (thr (fun t => { t with wait := .park .wet (some 0) }) base))
      (fun t => t.w0 == 1 && t.me.wait == .none) = true ∧
    after (exec (.wakeArrival 5) { base with msgs := [wakeMsg] }) (fun t => t.me.wake) = true := by decide
theorem wit_Exits : base.me.gang = none ∧ base.me.routine = .none ∧ base.hasMates base.cur = false ∧ base.me.entryOf = none ∧
    (base.core base.curCore).spilled = [] ∧ (base.core base.curCore).park = [] ∧ (base.tellExit base.cur true).holding base.cur = false := by
  decide
theorem test_exit : after (exec (.exit true) base) (fun t =>
    !t.me.busy && (t.launch 0 0).exited == 1 && (t.launch 0 0).errors == 1 && (t.core 0).bound.isNone) = true := by decide

/-! ### Launches, levels, gangs -/

/-- The same with graph 0 in phase 0 in job 0 of context 1, all open; `g` changes the graph. -/
def graphs (g : Level → Level) (s : State) : State :=
  { s with
    levels := [(levelKey 2 0 0, g { inUse := true, ctx := 1, children := 1 }), (levelKey 3 0 0, { inUse := true, ctx := 1, children := 1 }),
               (levelKey 4 0 0, { inUse := true, ctx := 1, children := 1 })]
    frees := [(8, { fresh := 1 }), (16, { fresh := 1 }), (24, { fresh := 1 }), (32, { fresh := 1 })] }
def open0 : State := graphs id base
/-- A launch image in graph 0, slot `i`, with a predecessor mask; and one that names no graph. -/
def named (i : Nat) (pred : Word) : List Word := (image0.set 1 (BitVec.ofNat 64 (2 ^ 28 + i * 2 ^ 22))).set 2 pred

/-- Its code image, with a handler table of one entry, is in far memory. -/
def imageFar : List Word := imageBad.set 8 0x8000000000001000
theorem wit_LaunchInstructions : imageRef base.curCore (base.raw 0 .zero) = .ok 0 ∧
    (let q := fun s : State => (((s.padReads s.cur 16 0).2).askLaunch (s.padReads s.cur 16 0).1).1
     (q open0).outcome = 0 ∧ (q open0).waits = false ∧ open0.masterHeld open0.myPart = false ∧
       (let s : State := { open0 with elections := [(0, 5)] }
        (q s).outcome = 2 ∧ (q s).waits = false ∧ s.masterHeld s.myPart = false ∧ s.me.gang = none ∧
          (s.core s.curCore).park = [])) ∧
    open0.me.gang = none ∧ (open0.core open0.curCore).park = [] ∧ (open0.core open0.curCore).spilled = [] ∧
    (parkedLaunches (nget [] open0.adm open0.myPart)).length < 4032 := by
  (repeat' apply And.intro) <;> first | decide | rfl
/-- R294, R332: the answer names the record that is taken; a unit whose request cannot be admitted is parked. -/
theorem test_launch : after (exec (.launch (.nib 3) .zero) open0)
      (fun t => t.me.regs.k[3] == 0x100 && (t.launch 0 1).inUse && (t.level 2 0 0).children == 2) = true ∧
    after (exec (.launchW (.nib 3) .zero) { open0 with elections := [(0, 5)] })
      (fun t => !t.me.busy && (t.core 0).park.length == 1 && (nget [] t.adm 0).length == 1) = true := by decide
theorem wit_LaunchOutcomes :
    imageOk (image0.set 0 (BitVec.ofNat 64 (2 ^ 63))) = false ∧ imageOk image0 = true ∧ targetGraph image0 none = none ∧ targetGraph image0 (some 0) = some 0 ∧
    imageOk (named 3 6) = true ∧ targetGraph (named 3 6) none = some 0 ∧ imgNamed (named 3 6) = true ∧ imgNamed image0 = false ∧
    base.hasRecord 0 1 2 0 = false ∧ open0.hasRecord 0 1 2 0 = true ∧ (open0.level 2 0 0).closed = false ∧
    open0.deadLevel 0 0 = false ∧ ((graphs (fun g => { g with closed := true }) base).level 2 0 0).closed = true ∧
    (nget Slot.empty (open0.level 2 0 0).slots (imgSlot (named 3 6))).isEmpty = true ∧
    (nget Slot.empty ((graphs (fun g => { g with slots := [(3, .complete)] }) base).level 2 0 0).slots 3).isEmpty = false ∧
    (imgPred (named 3 6)).toNat < 2 ^ 3 ∧ edgesMet (open0.level 2 0 0) (imgPred (named 3 6)) = false ∧
    open0.electing 0 = false ∧ ({ open0 with elections := [(0, 5)] } : State).electing 0 = true ∧ nget [] open0.adm 0 = [] ∧
    open0.phaseReady 0 0 = true ∧
    (({ open0 with adm := [(0, [.edge 1 0 3 (named 3 0) none])] } : State).phaseReady 0 0 = true ∧
      nget [] ({ open0 with adm := [(0, [.edge 1 0 3 (named 3 0) none])] } : State).adm 0 ≠ []) ∧
    edgesMet (open0.level 2 0 0) (imgPred (named 3 0)) = true ∧ (imgPred (named 3 0)).toNat < 2 ^ imgSlot (named 3 0) ∧
    (open0.takeIndex 1 0).map (·.1) = some 1 ∧
    (({ open0 with frees := [(8, { fresh := 4096 })] } : State).takeIndex 1 0).isNone = true ∧
    (open0.takeIndex 1 0).map (fun p => (p.2.classOfImage 0 1 image0).1) = some (some 0) ∧
    imageOk imageFar = true ∧ imgNamed imageFar = false ∧ targetGraph imageFar (some 0) = some 0 ∧
    (let s : State := { open0 with held := [⟨walkerSrc (open0.walkerDie (open0.masterOf 0) 0), 16, 1, 1, ⟨7, 1, none⟩, 0, false, true⟩] }
     (s.takeIndex 1 0).map (fun p => (p.2.classOfImage 0 1 imageFar).1) = some none ∧ s.electing 0 = false ∧
       nget [] s.adm 0 = [] ∧ s.phaseReady 0 0 = true) := by decide
/-- R295, R297: slot 3 is held until slots 1 and 2 complete; a slot in use is refused. -/
theorem test_held : ((open0.requestLaunch 0 1 none (named 3 6) none).1.word == 0xC0000001) = true ∧
    (((graphs (fun g => { g with slots := [(1, .complete), (2, .complete)] }) base).requestLaunch 0 1 none (named 3 6) none).1.word ==
      0xC0000100) = true ∧
    (((graphs (fun g => { g with slots := [(3, .complete)] }) base).requestLaunch 0 1 none (named 3 6) none).1.word == 7) = true := by
  decide
theorem wit_LevelInstructions :
    open0.hasRecord 0 1 3 ((open0.raw 0 .zero).toNat) = true ∧ (open0.level 3 0 0).shut = false ∧ (open0.level 4 0 0).cancelled = false ∧
    (open0.level 4 0 0).state.final = false ∧ (open0.takeIndex 2 0).map (·.1) = some 1 ∧
    open0.hasRecord 0 1 4 0 = true ∧ (open0.level 4 0 0).shut = false ∧ (open0.takeIndex 3 0).map (·.1) = some 1 ∧
    base.hasRecord 0 1 3 0 = false ∧ base.hasRecord 0 1 4 0 = false ∧ open0.hasRecord 0 1 2 0 = true := by decide
theorem test_levels : after (exec (.graphCreate .wet .zero) open0) (fun t => t.w0 == 0x100000 && (t.level 2 0 1).parent == 0) = true ∧
    after (exec (.phaseCreate .wet .zero) open0) (fun t => t.w0 == 0x100000 && (t.level 4 0 0).children == 2) = true ∧
    after (exec (.jobClose .wet .zero) open0) (fun t => (t.level 4 0 0).closed && !(t.level 4 0 0).state.final) = true ∧
    after (exec (.graphClose .wet .zero) (graphs (fun g => { g with children := 0 }) base))
      (fun t => (t.level 2 0 0).state == .complete && (t.level 3 0 0).children == 0) = true := by decide
/-- Launch 5 of the context has completed. -/
def done5 : State := { open0 with launches := open0.launches ++ [(5, { inUse := true, ctx := 1, state := .complete, dispatched := 3, errors := 1 })] }
theorem wit_LevelInstructions_records : ((0 : BitVec 3) = 0 ∨ 4 < (0 : BitVec 3).toNat) ∧
    open0.namedRecord (1 : BitVec 3).toNat (some .imm) = some 0 ∧ (k01 7 0 open0).namedRecord 1 (some (.nib 0)) = none ∧
    open0.namedRecord 1 none = some 0 ∧ open0.namedRecord 2 none = some 0 ∧ open0.recordFinal 0 1 0 = false ∧ open0.me.gang = none ∧
    (k01 5 0 done5).namedRecord 1 (some (.nib 0)) = some 5 ∧ done5.recordFinal 0 1 5 = true ∧ done5.containsMe 1 5 = false ∧
    (done5.launch 0 5).state.final = true ∧
    ({ open0 with launches := open0.launches ++ [(5, { inUse := true, ctx := 1 })] } : State).recordFinal 0 1 5 = false ∧
    (let s : State := { open0 with levels := open0.levels ++ [(levelKey 4 0 1, { inUse := true, ctx := 1, state := .complete })] }
     (k01 1 0 s).namedRecord (4 : BitVec 3).toNat (some (.nib 0)) = some 1 ∧ s.containsMe 4 1 = false ∧
       s.recordFinal 0 4 1 = true) ∧
    open0.containsMe 4 0 = true ∧ open0.namedRecord 4 none = some 0 := by decide
/-- R336: the words of launch 5; R335: waiting for it ends at once. -/
theorem test_records : after (exec (.lvwait .wet 1 (some (.nib 0))) (k01 5 0 done5)) (fun t => t.w0 == 0x8000010000000003) = true ∧
    after (exec (.lvread .wet 1 1 none) open0) (fun t => t.w0 == 0x200000000) = true ∧
    after (exec (.cancel .wet 1 none) open0) (fun t => t.w0 == 0 && (t.launch 0 0).cancelled && (t.launch 0 0).next == 1) = true := by decide

/-- Cores at octet positions 0 and 1 of V die 0 are bound. -/
def pair01 : State := { base with cores := [(0, { bound := some 1 }), (1, { bound := some 1 })] }
def ganged : State := { (pair01.updThr 8 fun t => { t with busy := true, unit := base.me.unit, gang := some ⟨1, 2, 0, 1⟩ }) with cur := 0 }
def ganged2 : State := thr (fun t => { t with gang := some ⟨1, 2, 0, 0⟩ }) ganged
/-- The launch's image cannot be reached. -/
def unreachable : State := { base with launches := [(0, { inUse := true, ctx := 1, state := .running, image := imageBad })] }
theorem wit_Gangs : (Instr.fuse .wet 2).wf = true ∧ isVDie (coreDie pair01.curCore) = true ∧ corePos pair01.curCore % 2 = 0 ∧
    pair01.me.gang = none ∧ ((gangMembers ⟨1, 2, 0, 0⟩ 0).filter (· != 0)).all (pair01.claimable pair01.myCtx) = true ∧
    (let s := pair01.updThr 8 fun t => { t with busy := true }
     ((gangMembers ⟨1, 2, 0, 0⟩ 0).filter (· != 0)).all (s.claimable s.myCtx) = false) ∧
    ((gangMembers ⟨1, 2, 0, 0⟩ 0).filter (· != 0) = [8] ∧ (pair01.core (epCore 8)).bound = some pair01.myCtx ∧
      (base.bindMembers 1 0 [8]).1 = true ∧ [8].all (unreachable.claimable 1) = true ∧ (unreachable.bindMembers 1 0 [8]).1 = false) ∧
    isVDie (coreDie memBase.curCore) = false ∧ ganged2.me.gang ≠ none ∧ ganged2.me.gang = some ⟨1, 2, 0, 0⟩ ∧ base.me.gang = none := by
  decide
theorem test_fuse : after (exec (.fuse .wet 2) (regs (fun r => { r with g := r.g.set 5 55 }) pair01))
      (fun t => t.w0 == 0 && (t.thr 8).busy && (t.thr 8).regs.g[5] == 55 && (t.thr 8).regs.pc == 8 &&
        t.me.gang.isSome) = true ∧
    after (exec .split ganged2) (fun t => t.me.gang.isNone && (t.thr 8).gang.isNone && (t.thr 8).busy) = true := by decide
theorem wit_Gangs_place : isVDie (coreDie base.curCore) = true ∧ isVDie (coreDie memBase.curCore) = false ∧
    (core (fun k => { k with spilled := [0] }) base |>.core 0).spilled ≠ [] ∧ (base.core 0).spilled = [] ∧
    spillqOk 0 (base.raw 0 .zero) = true ∧ spillqOk 0 (base.raw 0x40 .imm) = true ∧
    spillqOk 0 ((k01 0x100000001 0 base).raw 0 (.nib 0)) = false := by decide
theorem test_place : after (exec (.spillq .wet (.nib 0)) (k01 0x300000040 0 base))
      (fun t => t.w0 == 0 && (t.core 0).spill == 0x300000040) = true ∧
    after (exec (.jobset .wet 5 false) base) (fun t => t.w0 == 32 && (t.core 0).share == 5) = true := by decide

/-! ### Distributors -/

/-- Launch 3 of 200 units, in graph 0: index image of 200 by 1 by 1. -/
def image200 : List Word := (image0.set 0 199).set 10 77
def dealing : State :=
  { base with
    launches := [(3, { inUse := true, ctx := 1, image := image200, pool := true, seq := 4, state := .running })]
    pairs := [(0, { batches := [⟨3, [5, 6], false⟩] })] }
def pinned3 : State := { dealing with pairs := [(0, { batches := [⟨3, [5, 6], false⟩], pinned := some (3, 6) })] }
def queued0 : State := { open0 with adm := [(0, [.edge 1 0 3 (named 3 0) none])] }

theorem wit_AdmissionAndDealing : queued0.electing 0 = false ∧ queued0.masterHeld 0 = false ∧
    nget [] queued0.adm 0 = [.edge 1 0 3 (named 3 0) none] ∧ (queued0.takeIndex 1 0).map (·.1) = some 1 ∧
    (queued0.takeIndex 1 0).map (fun p => (p.2.classOfImage 0 1 (named 3 0)).1) = some (some 0) ∧
    dealing.nextAsker 0 = some 0 ∧ dealing.electing 0 = false ∧ dealing.masterHeld 0 = false ∧ nextDealt (dealing.schedOf 0).dealt (dealing.undealt 0) = some (3, dealing.launch 0 3) ∧
    ((dealing.launch 0 3).deal 3).isSome = true ∧ (dealing.launch 0 3).reissue = [] ∧ (dealing.launch 0 3).back = [] ∧
    (dealing.launch 0 3).next < imgUnits (dealing.launch 0 3).image := by decide
/-- R300: batches of 64, then what is left. -/
theorem test_deal : after (exec (.batchDeal 0 0) dealing) (fun t => (t.pair 0).batches.length == 2 && (t.launch 0 3).next == 64) = true ∧
    ((({ dealing.launch 0 3 with next := 192 } : Launch).deal 3).map fun x => x.1.units) = some [192, 193, 194, 195, 196, 197, 198, 199] ∧
    after (exec (.launchAdmission 0) queued0) (fun t => (t.launch 0 1).inUse && nget [] t.adm 0 == []) = true := by decide
theorem wit_Dispatch : (0 : Nat) < 8 ∧ (pinned3.pair 0).fenced = false ∧ pairPart pinned3.parts 0 = 0 ∧
    pinned3.isHeld (distributorSrc 0) = false ∧ pinned3.refillsDue ≤ pinned3.refills ∧
    (dealing.pair 0).fenced = false ∧ dealing.isHeld (distributorSrc 0) = false ∧ dealing.refillsDue ≤ dealing.refills ∧
    (pinned3.pair 0).pinned = some (3, 6) ∧ pinned3.costOf 0 3 ≤ (pinned3.pair 0).allowance ∧
    pinned3.pickCore 0 (pinned3.launch 0 3).ctx (fun _ => true) = some 0 ∧
    (dealing.pair 0).pinned = none ∧ (let c := dealing.considered 0 0
      c.1 = [(3, 5), (3, 6)] ∧ c.2.choose 0 0 [] c.1 = some ([], (3, 5), 0)) := by decide
theorem test_dispatch : after (exec (.unitDispatch 0) dealing) (fun t =>
    t.msgs.map (fun m => (epCore m.dest, m.payload)) == [(0, [5, 77, 0, 0, 0, 0, 0])] && (t.pair 0).batches == [⟨3, [6], false⟩]) = true := by
  decide
theorem wit_RefillsAndElections_refill : ({ base with now := 272000 } : State).refills < ({ base with now := 272000 } : State).refillsDue ∧
    (({ base with pairs := [(1, { fenced := true })] } : State).pair 1).fenced = true ∧ (base.pair 0).fenced = false := by decide
/-- R309: the power-on cap is 425 W a pair, 425,000 nJ a microsecond. -/
theorem test_refill : after (exec .allowanceRefill { base with now := 272000 }) (fun t => (t.pair 7).allowance == 425000) = true := by decide
/-- Pair 0 is fenced, and partition 0 is without a master. -/
def masterless : State := { dealing with pairs := [(0, { fenced := true, batches := [⟨3, [5, 6], false⟩] })], elections := [(0, 9)] }
theorem wit_RefillsAndElections_election : (nfind masterless.elections 0).isSome = true ∧
    (masterless.launch 0 3).cancelled = false ∧
    (partPairs masterless.parts 0).find? (fun p => !(masterless.pair p).fenced) = some 1 ∧
    (0 ∈ partPairs masterless.parts 0 ∧ (masterless.pair 0).fenced = true) ∧
    (1 ∈ partPairs masterless.parts 0 ∧ (masterless.pair 1).fenced = false) := by decide
theorem test_election : after (exec (.masterElection 0) masterless)
    (fun t => t.masterOf 0 == 1 && (t.launch 0 3).back == [[5, 6]]) = true := by decide

/-! ### Stages -/

/-- A descriptor at 0x40 whose table of one entry names endpoint 9. -/
def described : State :=
  { base with
    mem := ((((base.mem.writeNat 8 (padKey 0 0x40) 9).writeNat 8 (padKey 0 0x48) 0x10000).writeNat 8 (padKey 0 0x50) 0x100001000).writeNat 8
      (padKey 0 0x58) 0x100000080).writeNat 8 (padKey 0 0x80) 0x900000000 }
/-- Stage 5 is open: `g` changes it; its one instance is thread 0 of core 0, where `x` changes the instance. -/
def staged (g : Stage → Stage) (x : Inst → Inst) (s : State) : State :=
  { (s.updThr 0 fun t => { t with inst := some 5 }) with
    stages := [(5, g { isOpen := true, ctx := 1, table := [⟨0, 0, false⟩], insts := [(0, x {})], rech := 1 })] }
def stage5 : State := staged id id base
theorem wit_StageInstructions :
    ((described.createStage (described.raw 0x40 .imm)).1).toOption = some 0 ∧
    ((base.createStage (base.raw 0x40 .imm)).1).toOption = none ∧
    64 ≤ ((k01 64 5 stage5).raw 0 (.nib 0)).toNat ∧ base.ownStage (base.raw 0 .zero) = none ∧ (base.raw 0 .zero).toNat < 64 ∧
    ((k01 64 5 stage5).raw 0 (.nib 1)).toNat = 5 ∧ stage5.ownStage 5 = some 5 ∧ stage5.instRuns 0 = true ∧
    (let s := idle stage5
     (s.stage 0 5).mode = 0 ∧ (s.stage 0 5).insts.all (fun (e, x) => x.queue.isEmpty && !s.instRuns e) = true) ∧
    (stage5.partOf (epCore 0) = stage5.myPart ∧ (stage5.thr 0).inst = some 5 ∧ (stage5.stage 0 5).isOpen = true ∧
      (stage5.stage 0 5).ctx = stage5.myCtx) ∧
    (base.stage base.myPart (5 : BitVec 6).toNat).isOpen = false ∧ (stage5.stage 0 5).closing = false ∧
    (stage5.stage 0 5).dead = false ∧ stage5.bufferFull = false := by decide
theorem test_stage : after (exec (.stageCreate .wet (.nib 0)) (k01 0x40 0 described))
      (fun t => t.w0 == 0 && (t.thr 9).inst == some 0 && (t.stage 0 0).thresh == 256) = true ∧
    after (exec (.keysend 5 1 4) stage5) (fun t => t.msgs.map (·.dest) == [0]) = true ∧
    after (exec (.stageThresh .wet (.nib 1) (.nib 0)) (k01 64 5 stage5)) (fun t => t.w0 == 256 && (t.stage 0 5).thresh == 64) = true := by
  decide
/-- Thread 0 runs the split routine of stage 5 towards the clone on core 1, for the range from 0 to 0x100. -/
def splitting (x : Inst → Inst) : State :=
  thr (fun t => { t with routine := .split 5 })
    (staged (fun g => { g with mode := 1, orig := 0, clone := 8, lo := 0, hi := 0x100, key := 0x80,
                               insts := (8, { state := .receiving, parent := some 0 }) :: g.insts }) x base)
/-- The clone on thread 0 of core 0 runs the merge routine of stage 5; its parent is on core 1. -/
def merging (x : Inst → Inst) : State :=
  thr (fun t => { t with routine := .merge 5 })
    (staged (fun g => { g with mode := 2, orig := 8, clone := 0, insts := g.insts ++ [(8, { state := .merging })],
                               table := [⟨0, 8, true⟩] }) (fun i => x { i with parent := some 8 }) base)
theorem wit_StageSteps_split :
    (let s := splitting id
     s.me.routine = .split 5 ∧ s.me.splitOk = false ∧ (s.stage 0 5).lo < 0x40 ∧ fld (s.raw 0x40 .imm) 0 32 = 0x40 ∧
       0x40 < (s.stage 0 5).hi ∧ ((s.stage 0 5).inst 0).sent = ((s.stage 0 5).inst 0).ran ∧ s.ownReqs s.cur = []) ∧
    (((splitting fun x => { x with sent := 1 }).stage 0 5).inst 0).sent ≠ (((splitting fun x => { x with sent := 1 }).stage 0 5).inst 0).ran ∧
    (let s := splitting id
     fld (s.raw 0x100 .imm) 0 32 = 0x100 ∧ (s.stage 0 5).hi ≤ 0x100 ∧ s.me.busy = true ∧ (s.stage 0 5).closing = false) ∧
    ((thr (fun t => { t with splitOk := true }) (splitting id)).me.splitOk = true ∧
      (thr (fun t => { t with splitOk := true }) (splitting id)).me.routine = .split 5) ∧
    (let s := merging id
     s.me.routine = .merge 5 ∧ s.me.splitOk = false ∧ ((s.stage 0 5).inst 0).sent = ((s.stage 0 5).inst 0).ran ∧ s.me.busy = true ∧
       (s.stage 0 5).closing = false) ∧
    (((merging fun x => { x with sent := 1 }).stage 0 5).inst 0).sent ≠ (((merging fun x => { x with sent := 1 }).stage 0 5).inst 0).ran ∧
    base.me.routine = .none := by
  (repeat' apply And.intro) <;> first | decide | rfl
theorem test_split : after (exec (.splitok .wet .imm 0x40) (splitting id))
      (fun t => t.w0 == 0 && (t.stage 0 5).table == [⟨0, 0, false⟩, ⟨0x40, 8, true⟩]) = true ∧
    after (exec .mergeok (merging id)) (fun t => (t.stage 0 5).mode == 0 && (t.stage 0 5).table == [⟨0, 8, false⟩]) = true := by decide
/-- A change of stage 5's table that core 0 has applied; partition 0 is pair 0 alone. -/
def changing (g : Stage → Stage) (a k : List Nat) (s : State) : State :=
  { staged (fun x => g { x with change := some ⟨[⟨0, 0, false⟩], a.map fun c => (c, 1), k⟩ }) id s with parts := 8 }
/-- Every interface of partition 0 has acknowledged but the first memory core's, which has applied the change. -/
def lastAck (m : Nat) : State :=
  changing (fun g => { g with mode := m, clone := 8 }) [20480] ((List.range 31).map (· + 20481) ++ (List.range 16).map (· + 21504))
    { base with pairs := [(0, { fenced := true })] }
def endMsg : Msg := { msg1 with kind := .stage 5 1 0 0, dest := 0 }
theorem wit_StageSteps :
    (let s := staged id (fun x => { x with aboveSince := some 0 }) { base with now := 272000, cores := base.cores ++ [(1, { bound := some 1 })] }
     let g := s.stage 0 5
     g.isOpen = true ∧ g.closing = false ∧ g.dead = false ∧ g.mode = 0 ∧ (g.inst 0).state = .steady ∧
       s.dwelt g (g.inst 0).aboveSince = true ∧ (s.thr 0).inst = some 5 ∧ g.table.length < 16 ∧ s.instRuns 0 = true ∧
       s.richestPair 0 0 = some 0 ∧ s.pickCore 0 g.ctx (fun c => !s.hasInst c) = some 1 ∧ (s.core 1).bound.isSome = true ∧
       coreEp 1 ((s.freeThread 1).getD 0) ≠ 0) ∧
    (let s := changing id [] [] base
     ((s.stage 0 5).change.map (·.applied)) = some [] ∧ (s.stageCores 0).contains 0 = true) ∧
    (let s := changing id [0] [] base
     ((s.stage 0 5).change.bind fun c => c.applied.find? (·.1 == 0)) = some (0, 1) ∧ s.oldRecords 0 5 0 1 = false ∧
       (s.stageCores 0).all ([] ++ [0]).contains = false) ∧
    (let s := lastAck 1
     let c := ((s.stage 0 5).change.map (·.acked)).getD []
     c.contains 20480 = false ∧ s.oldRecords 0 5 20480 1 = false ∧
     (s.stageCores 0).all (c ++ [20480]).contains = true ∧ (s.stage 0 5).mode = 1 ∧ (s.stage 0 5).closing = false ∧
     ((lastAck 2).stage 0 5).mode ≠ 1 ∧ (lastAck 2).oldRecords 0 5 20480 1 = false) ∧
    (({ stage5 with msgs := [endMsg] } : State).findMsg 5 = some endMsg ∧ ({ stage5 with msgs := [endMsg] } : State).msgBlocked endMsg = false ∧
      stage5.partOf (epCore endMsg.dest) = 0) := by
  (repeat' apply And.intro) <;> first | decide | rfl
theorem wit_StageSteps_merge :
    (let s := staged (fun g => { g with insts := g.insts ++ [(8, {})] }) (fun x => { x with parent := some 8, belowSince := some 0 })
       { base with now := 272000 }
     let g := s.stage 0 5
     (g.inst 0).parent = some 8 ∧ g.mode = 0 ∧ (s.thr 0).inst = some 5 ∧ g.insts.any (fun (_, y) => y.parent == some 0) = false ∧
       s.dwelt g (g.inst 0).belowSince = true) ∧
    (let s := idle (handlers (staged (fun g => { g with mode := 2, clone := 0, orig := 8, mrgh := 1, det := true }) id base))
     let g := s.stage 0 5
     g.isOpen = true ∧ g.dead = false ∧ g.mode = 2 ∧ 0 = g.clone ∧ g.change = none ∧ s.instRuns 0 = false ∧ (g.inst 0).queue = [] ∧
       (g.inst 0).state = .steady ∧
       s.handlerOf (epCore 0) (g.mrgh % 2 ^ 12) = some (0x100, 0) ∧ s.partOf (epCore 0) = 0 ∧ g.det = true) := by
  (repeat' apply And.intro) <;> first | decide | rfl
/-- R350: the clone gets the upper half of the head record's range. -/
theorem test_overload :
    after (exec (.stageOverload 0 5 0) (staged id (fun x => { x with aboveSince := some 0 })
      { base with now := 272000, cores := base.cores ++ [(1, { bound := some 1 })] }))
      (fun t => (t.stage 0 5).clone == 8 && (t.stage 0 5).key == 2 ^ 31 && (t.thr 8).inst == some 5) = true ∧
    after (exec (.endMarker 5) { stage5 with msgs := [endMsg] }) (fun t => t.msgs == []) = true ∧
    after (exec (.interfaceAck 0 5 20480) (lastAck 1))
      (fun t => t.msgs.map (·.dest) == [8] && (t.stage 0 5).mode == 0) = true := by decide

/-! ### Traps, system instructions, teams -/

/-- Core 0 has a trap handler at 0x200 and frames from 0x8000. -/
def trapping (s : State) : State := core (fun k => { k with tvec := 0x8000000000000200, tframe := 0x8000000000008000 }) s
def inTrap (s : State) : State :=
  thr (fun t => { t with trap := true }) (trapping { s with mem := s.mem.writeNat 8 (padKey 0 0x8010) (5 * 2 ^ 32) })
theorem wit_Traps_entry : (trapping base).me.gang = none ∧ (trapping base).me.drained = true ∧ (trapping base).fatal 0 = false ∧
    (trapping base).me.late = [] ∧ (trapping base).me.pend = [] ∧ Safe (trapping base) ∧ ((trapping base).core 0).blocks = [] ∧
    frameBase ((trapping base).core 0) 0 + 0x368 ≤ 2 ^ 20 := by
  (repeat' apply And.intro) <;> first | decide | rfl
def waiting (s : State) : State := pager (thr (fun t => { t with trapPend := some (0x35, 7, 64) }) s)
theorem wit_Traps_instructions :
    (let s := waiting (trapping base)
     (s.thr 0).trapPend = some (0x35, 7, 64) ∧ (s.thr 0).busy = true ∧ (s.thr 0).wait ≠ .gangHalt ∧ (s.thr 0).rback = none ∧
       s.isHeld 0 = false ∧ s.fatal 0 = false ∧ (s.thr 0).drained = true) ∧
    ((thr (fun t => { t with pend := [pend9] }) (waiting (trapping base))).thr 0).drained = false ∧
    ((waiting base).fatal 0 = true ∧ ((waiting base).sysReg .pager ((waiting base).ctxOf (epCore 0)) (epDie 0)).getLsbD 63 = true) := by
  decide
/-- R423: TRAP enters the handler with its code in the frame's detail word; without a handler it tells the pager. -/
theorem test_trap : after (exec (.trap 7) (trapping base))
      (fun t => t.me.regs.pc == 0x200 && t.me.trap && (t.me.cause.setWidth 8 : BitVec 8) == 0x35 && t.me.epc == 8 &&
        t.mem.readNat 8 (padKey 0 0x8008) == 8) = true ∧
    after (exec (.trapEntry 0) (waiting base)) (fun t => t.msgs.map (·.dest) == [5] && !t.me.busy) = true := by decide
theorem wit_Traps_return : (inTrap base).me.gang = none ∧ base.me.trap = false ∧ (inTrap base).me.trap = true ∧
    ((inTrap base).core 0).blocks = [] ∧
    frameBad (inTrap base).mem 0 ((List.range 109).map fun i =>
      (inTrap base).mem.readWord (padKey 0 (frameBase ((inTrap base).core 0) 0 + 8 * i))) = false ∧
    (inTrap base).me.rq.all (fun e => !e.valid) = true ∧ (inTrap base).me.pend = [] ∧
    (let s : State := { inTrap base with mem := (inTrap base).mem.writeNat 8 (padKey 0 0x8010) (65 * 2 ^ 32) }
     s.me.trap = true ∧ s.me.gang = none ∧ (s.core 0).blocks = [] ∧ frameBad s.mem 0 ((List.range 109).map fun i =>
       s.mem.readWord (padKey 0 (frameBase (s.core 0) 0 + 8 * i))) = true) := by decide
theorem test_eret : after (exec .eret (inTrap { base with mem := base.mem.writeNat 8 (padKey 0 0x8008) 0x40 }))
    (fun t => t.me.regs.pc == 0x40 && t.me.regs.vl == 5 && !t.me.trap) = true := by decide
theorem wit_SystemInstructions : base.me.trap = false ∧ (inTrap base).me.trap = true ∧
    ((k01 0x8000000000000000 0 base).raw 0 (.nib 0)).getLsbD 63 = true ∧ ((inTrap base).me.rq.getD 3 {}).valid = false ∧
    (inTrap base).me.rq.length = 16 ∧ writable (0x005 : BitVec 12).toNat = false ∧ base.sysOk 0x007 65 = false ∧
    writable 0x007 = true ∧ base.sysOk 0x007 64 = true ∧ base.sysOk 0x010 (base.raw 0 .zero) = true ∧ writable 0x006 = true ∧
    base.sysOk 0x023 0x5FFFC = true ∧ base.sysOk 0x024 0x5C000 = true ∧ base.sysOk 0x030 0x8000000000000005 = true ∧ base.sysOk 0x034 9 = true ∧
    (base.raw 0 .zero).getLsbD 63 = false ∧ base.holding base.cur = false ∧ (base.sink (base.tenantOf base.myCtx)).valid = false ∧
    (base.openSink 1 1 ((k01 0x8000000000000000 0 base).raw 0 (.nib 0)) 0).isNone = true ∧
    (let s := (mapped (k01 0x8000000000010000 0 base)).setReg .tsinkc 1 0 12
     (s.raw 0 (.nib 0)).getLsbD 63 = true ∧ s.tenantOf s.myCtx = 1 ∧
       (s.openSink 1 s.myCtx (s.raw 0 (.nib 0)) (s.sysReg .tsinkc 1 (epDie s.cur))).isSome = true) ∧
    base.me.gang = none ∧ ((pager base).sysReg .pager (pager base).myCtx (epDie base.cur)).getLsbD 63 = true ∧
    (base.ctx base.myCtx).kill = none ∧
    ((({ base with ctxs := [(1, { inUse := true, kill := some (1, 0) })] } : State).ctx 1).kill).isSome = true := by decide
theorem test_system : after (exec (.srw (.nib 0) 0x007) (k01 5 0 base)) (fun t => t.me.regs.vl == 5) = true ∧
    after (exec (.srr .wet 0x007) base) (fun t => t.w0 == 64) = true ∧
    after (exec (.rqwrite (.nib 0) 3 1) (k01 5 0 (inTrap base))) (fun t => (t.me.rq.getD 3 {}).a == 5) = true ∧
    after (exec .halt (pager base)) (fun t => t.me.wait == .halted && t.msgs.map (·.dest) == [5]) = true ∧
    after (exec (.kill 3) base) (fun t => (t.ctx 1).kill == some (3, 0)) = true := by decide
/-- Thread 0 of core 0 and thread 1, which has a checkpoint and waits, are two teams of one member each. -/
def back0 : Ckpt := ⟨{ pc := 0x30 }, none, none, 0⟩
def teamed (f : Thread → Thread) : State :=
  (thr (fun t => { t with team := .gang 1 }) base).updThr 1 fun _ =>
    f { busy := true, unit := { uid := 2 }, team := .gang 2, ckpt := some back0, regs := { pc := 0x80 } }
/-- A thread of launch 0 with a limit of one microsecond. -/
def slow : State := pager ({ base with now := 272001 }.setReg .wdog 1 0 1)
theorem wit_TeamsAndWatchdogs : base.pageOpen 5 = true ∧ (base.thr 1).busy = false ∧ ((trapping base).thr 0).busy = true ∧
    ((trapping base).core (epCore 0)).tvec.getLsbD 63 = true ∧ ((trapping base).core 0).tframe.getLsbD 63 = true ∧
    (base.thr 0).preempt = none ∧
    (let s := thr (fun t => { t with wait := .gangHalt }) (waiting base)
     (s.thr 0).trapPend = some (0x35, 7, 64) ∧ (s.thr 0).wait = .gangHalt ∧ (s.membersOf 0).any (fun m => (s.thr m).ovf) = false ∧
       (s.sysReg .pager (s.ctxOf (epCore 0)) (epDie 0)).getLsbD 63 = true) ∧
    (base.thr (fld (base.raw 0 .zero) 0 18)).team = .none ∧ validEp 8192 = true ∧
    (let s := teamed id
     validEp 1 = true ∧ (s.thr 1).team ≠ .none ∧ s.teamOf s.myCtx (s.thr 1).team = [1] ∧ [1].contains s.cur = false ∧
       (s.thr 1).rback = none ∧ (s.thr 1).ovf = false ∧ (s.thr 1).drained = true) ∧
    ((teamed fun t => { t with ovf := true }).thr 1).ovf = true ∧
    ((teamed fun t => { t with pend := [pend9] }).thr 1).drained = false ∧
    (let s := core (fun k => { k with undo := [⟨0, 0x40, 7⟩, ⟨1, 0x40, 9⟩, ⟨0, 0x48, 8⟩] }) base
     Safe s ∧ (s.core 0).undo.filter (·.thread == 0) = [⟨0, 0x40, 7⟩, ⟨0, 0x48, 8⟩] ∧ 0x40 + 8 ≤ 0x48) ∧
    ((slow.thr 0).busy = true ∧ (slow.thr 0).hung = false ∧ slow.leaderOf 0 = 0 ∧
      slow.overtime 0 (slow.thr 0).unit.start ((slow.thr 0).stalled + slow.stallNow 0) = true) := by
  (repeat' apply And.intro) <;> first | decide | rfl
/-- R436: the member is back at its checkpoint; R446: the pager learns cause 0x29. -/
theorem test_teams : after (exec (.rback .wet (.nib 0)) (k01 1 0 (teamed id)))
      (fun t => t.w0 == 0x100 && (t.thr 1).regs.pc == 0x30) = true ∧
    after (exec (.watchdogExpiry 0) slow) (fun t => t.msgs.length == 1 && t.me.hung) = true ∧
    after (exec (.preempt ⟨0, 0x11⟩) (trapping base)) (fun t => t.me.preempt == some 0x11) = true := by decide

/-! ### Trace, time, recovery -/

/-- Tenant 1 takes classes 0 and 1 on die 0, into a share of one segment; `f` changes the share. -/
def traced (f : Share → Share) (s : State) : State :=
  { ((s.setReg .tmask 1 0 3).setReg .tsink 1 0 0x8000000000000000) with shares := [(shareKey 0 1, f { segs := 1 })] }
def noRoom (s : State) : State := traced (fun x => { x with lossless := true, faulted := true }) s
/-- Thread 0 waits with a slate in hand. -/
def heldSlate : Held := ⟨0, 0, 1, 1, ⟨7, 1, none⟩, 0, false, true⟩
def holding (f : Share → Share) : State :=
  { thr (fun t => { t with wait := .slate none (.tev 5 (.nib 0)) }) (traced f base) with held := [heldSlate] }
theorem wit_TraceInstructions : base.sinksFor (epDie base.cur) base.myCtx 0 = [] ∧ base.sinksFor (epDie base.cur) base.myCtx 1 = [] ∧
    base.holding base.cur = false ∧
    (let s := traced id base
     s.holding s.cur = false ∧ s.sinkOn 0 1 = true ∧ (s.share 0 1).lossless = false ∧ (s.share 0 1).drops = 0 ∧
       2 ≤ (s.share 0 1).room ∧ s.sinksFor 0 s.myCtx 0 = [1] ∧ s.sinksFor 0 s.myCtx 1 = [1]) ∧
    (let s := noRoom base
     s.sinkOn 0 1 = true ∧ (s.share 0 1).lossless = true ∧ (s.share 0 1).room = 0 ∧ s.sinksFor 0 s.myCtx 0 = [1]) ∧
    (let s := holding fun x => { x with lossless := true }
     s.held = [heldSlate] ∧ heldSlate.src = 0 ∧ heldSlate.room s = true ∧ s.fenced = [] ∧ validEp 0 = true ∧
       (s.thr 0).wait = .slate none (.tev 5 (.nib 0)) ∧ (s.thr 0).rep = none ∧ s.sinkOn heldSlate.die heldSlate.tenant = true ∧
       (s.share heldSlate.die heldSlate.tenant).lossless = true) ∧
    heldSlate.room (holding fun x => { x with lossless := true, faulted := true }) = false := by decide
/-- R273, R285: the slate's low word is its code, context, source and payload; a full lossless share holds the thread. -/
theorem test_tev : after (exec (.tev 5 (.nib 0)) (k01 9 0 (traced id base)))
      (fun t => (t.share 0 1).slates.map (·.low) == [BitVec.ofNat 64 (5 * 2 ^ 52 + 2 ^ 40 + 9)] && t.me.regs.pc == 8) = true ∧
    after (exec (.tev 5 (.nib 0)) (noRoom base)) (fun t => t.me.wait == .slate none (.tev 5 (.nib 0)) && t.held.length == 1 && t.me.regs.pc == 0) = true ∧
    after (exec (.slateAdmitHeld 0) (holding fun x => { x with lossless := true }))
      (fun t => (t.share 0 1).slates.length == 2 && t.me.wait == .none && t.me.regs.pc == 8) = true := by decide
/-- One slate waits in the share for a ring of 4 KiB at far 0x10000. -/
def slate1 : Slate := ⟨7, 1, none⟩
def draining (f : Share → Share) : State :=
  { traced (fun x => f { x with slates := [slate1] }) (mapped base) with
    sinks := [(1, { valid := true, base := 0x10000, lg := 12, segs := 1, ctx := 1, tenant := 1 })] }
theorem slate_bytes_take (x : Slate) : x.bytes.take 1 = leBytes 1 x.low.toNat := by simp [Slate.bytes, leBytes]
theorem wit_TraceFabric_drain : (let s := draining id
    let x := s.sink 1
    (s.share 0 1).slates ≠ [] ∧ x.valid = true ∧ s.sinks.all (fun (_, y) => !y.closing) = true ∧ x.closing = false ∧
      12 ≤ x.lg ∧ x.lg ≤ 30 ∧ x.produced < 2 ^ 64 ∧ (s.share 0 1).slates = [slate1] ∧ slate1.ext = none ∧ (s.share 0 1).faulted = false ∧
      ((draining fun x => { x with faulted := true }).share 0 1).faulted = true ∧
      (match s.farRead (drainWalk (s.bufferDie 0)) x.ctx (x.base + 8) 8 (s.bufferDie 0) with
        | (.ok bs, s1) => leNat bs == x.produced &&
            (match ((s1.raiseFloor (drainSrc (s.bufferDie 0)) (s1.countFloor x.ctx (s.bufferDie 0) (x.base + 8))).drainLands x.ctx
                (s.bufferDie 0) [(x.base + 64, slate1.bytes), (x.base + 16, leBytes 8 0), (x.base + 24, leBytes 8 0),
                  (x.base, leBytes 8 1)]).1 with
              | .ok _ => true
              | _ => false)
        | _ => false) = true ∧
      (match ({ s with nodes := [] } : State).farRead (drainWalk (s.bufferDie 0)) x.ctx (x.base + 8) 8 (s.bufferDie 0) with
        | (.failed _, _) => true
        | _ => false) = true) ∧
    (∀ t : Nat, slate1.bytes ≠ (⟨t, slateLow 0x2C5 0 (drainSrc 16) 0, none⟩ : Slate).bytes) := by
  refine ⟨by decide, fun t h => ?_⟩
  have h := congrArg (List.take 1) h
  rw [slate_bytes_take, slate_bytes_take] at h
  exact absurd h (show leBytes 1 (1 : Word).toNat ≠ leBytes 1 (slateLow 0x2C5 0 (drainSrc 16) 0).toNat by decide)
/-- R281, R282: the slate stands behind the header of its ring, whose count is 1. -/
theorem test_drain : after (exec (.traceDrain 0 1) (draining id))
    (fun t => t.mem.readNat 8 0x110000 == 1 && t.mem.readNat 8 0x110040 == 1 && t.mem.readNat 8 0x110048 == 7 &&
      (t.share 0 1).slates == []) = true := by decide
/-- A mask of tenant 1 that die 0 has yet to take. -/
def logged : State := { base with regLog := [⟨.tmask, 1, 3, [0, 4], none⟩] }
theorem wit_TraceFabric : takeWrite 0 logged.regLog = some (⟨.tmask, 1, 3, [0, 4], none⟩, [⟨.tmask, 1, 3, [4], none⟩]) ∧
    (logged.isHeld (securitySrc 0) = false ∧ (⟨.tmask, 1, 3, [0, 4], some 0⟩ : RegWrite).tell = some 0 ∧
      takeWrite 0 [⟨.tmask, 1, 3, [0, 4], some 0⟩] = some (⟨.tmask, 1, 3, [0, 4], some 0⟩, [⟨.tmask, 1, 3, [4], some 0⟩])) ∧
    base.pageOpen 1 = true ∧ (255 : Nat) < 256 ∧ (1 : Nat) < 2 ∧ (base.ctx 1).inUse = true ∧ (1 : Nat) ≠ 0 ∧
    ((mapped base).openSink 0 1 0x8000000000010000 12).isSome = true ∧ (base.openSink 0 1 0x8000000000010000 12).isNone = true ∧
    (0x8000000000010000 : Word).getLsbD 63 = true ∧ (0 : Word).getLsbD 63 = false ∧ allDies.contains 0 = true := by decide
theorem test_trace_page : after (exec (.takesEffectOnDie 0) logged) (fun t => t.sysReg .tmask 1 0 == 3 && t.sysReg .tmask 1 4 == 0) = true ∧
    after (exec (.configHostSink 0x8000000000010000 12 1) (mapped base)) (fun t => (t.sink 0).valid && t.result 1 == 0x8000000000000000) = true := by
  decide

/-- The time base with a reference; its source is chosen. -/
def timed (b : TimeBase) (now : Nat) : State := { base with timeBase := b, now := now, boot := { base.boot with time := 1 } }
theorem wit_TraceFabric_time : fld (timed {} 0).boot.time 0 2 ≠ 0 ∧ (timed {} 0).securityHeld = false ∧
    (timed { state := 1, good := 15, firstOffset := 100 } 0).timeBase.state = 1 ∧ ((900 : Int) - 100).natAbs ≤ 800 ∧
    ((timed { state := 1, good := 15, firstOffset := 100 } 0).timeBase.stepped = false ∧ (-900 : Int) < 0 ∧
      ((-600 : Int) - 100).natAbs ≤ 800 ∧ (-600 : Int) < 0) ∧
    (timed { state := 2 } 0).timeBase.state = 2 ∧ (timed { state := 1, good := 0 } 0).timeBase.good = 0 ∧ (timed {} 0).timeBase.state = 0 ∧
    (timed { state := 2, lastSync := 0 } (4000000 * 272000)).timeBase.lastSync + 4000000 * Config.usTicks ≤
      (timed { state := 2 } (4000000 * 272000)).now ∧
    fld (2 : Word) 0 2 ≠ 3 ∧ fld (2 : Word) 16 8 < 128 ∧ fld (2 : Word) 0 2 ≠ fld (timed { state := 2 } 0).boot.time 0 2 ∧
    (timed { state := 2 } 0).timeBase.state ≠ 0 ∧ fld (1 : Word) 0 2 = fld (timed {} 0).boot.time 0 2 ∧ fld (3 : Word) 0 2 = 3 := by decide
/-- R287: the sixteenth good interval locks the base and steps it forward once. -/
theorem test_time : after (exec (.ptpSync 900 true) (timed { state := 1, good := 15, firstOffset := 100 } 50))
      (fun t => t.timeBase.state == 2 && t.ctimeOff == 900) = true ∧
    after (exec .timebaseHoldover (timed { state := 2 } (4000000 * 272000))) (fun t => t.timeBase.state == 3) = true := by decide

def killing (phase : Nat) : State := { base with ctxs := [(1, { inUse := true, tenant := 1, kill := some (0, phase), killers := [5] })] }
theorem wit_PurgesAndFences_purge : ((killing 0).ctx 1).phase = some 0 ∧ ((killing 1).ctx 1).phase = some 1 ∧ ((killing 2).ctx 1).phase = some 2 ∧
    (killing 2).nodes.any (fun (_, n) => n.ctx == 1) = false ∧ (killing 2).treeOps = [] ∧ nget [] (killing 2).treeQ 0 = [] ∧
    (killing 2).securityHeld = false ∧ NMap.wf (killing 2).ctxs = true ∧ (mapped (killing 2)).nodes.any (fun (_, n) => n.ctx == 1) = true ∧
    ((killing 0).core (epCore 0)).bound = some 1 := by decide
/-- R438: the sweep unbinds the context's core and resets its threads. -/
theorem test_kill : after (exec (.killSweep 1) (killing 0)) (fun t => !t.me.busy && (t.core 0).bound == none) = true ∧
    after (exec (.killComplete 1) (killing 2)) (fun t => !(t.ctx 1).inUse && t.result 5 == 0x8000000000000000) = true := by decide
def fencing (d : Nat) : State := { base with toFence := [(d, false)] }
theorem wit_PurgesAndFences_fence : realDie 0 = true ∧ base.fenced.contains 0 = false ∧ base.toFence.any (fun (d, a) => d == 0 && a == false) = false ∧
    ({ base with fenced := [0] } : State).fenced.contains 0 = true ∧ (fencing 0).toFence.any (·.1 == 0) = true ∧
    (fencing 0).isHeld (securitySrc (fencing 0).securityDie) = false ∧ (fencing 0).stages = [] ∧ (fencing 0).fenced = [] ∧ isVDie 0 = true ∧ isVDie 8 = false ∧ isMDie 8 = true ∧
    isIoDie 16 = true ∧ ({ base with fenced := [16] } : State).takingOver 16 = true := by decide
/-- R440: the fence takes the pair out of dispatch and begins an election. -/
theorem test_fence : after (exec (.dieFence 0) (fencing 0)) (fun t => t.fenced == [0] && (t.pair 0).fenced && (nfind t.elections 0).isSome) = true ∧
    after (exec (.dieFence 8) (fencing 8)) (fun t => (t.pair 0).fenced && t.fenced == [8]) = true := by decide

/-! ### Vector, pointer and bit instructions -/

/-- Pointers 1-3 stand at 0x100, 0x200 and 0x300 with stride 4; four lanes are active. -/
def vec (s : State) : State :=
  regs (fun r => { r with p := #v[0, 0x400000100, 0x400000200, 0x400000300, 0, 0, 0, 0], vl := 4,
                          acc := ((r.acc.set 0 1).set 1 2).set 3 0x80000000 }) s
def vo (a b d : Bool) : VOp := ⟨0, 1, 2, 3, a, b, d, 0⟩
theorem wit_VectorResults : (Instr.vadd .i32 (vo true false true)).wf = true ∧ Safe (vec base) ∧
    (vectorTable (vec base) (.vadd .i32 (vo true false true))).isSome = true ∧
    (checkAll 0 .i32 (vec base).me.regs.p [0, 1, 2, 3] [1, 2, 3]).isNone = true ∧ ((vec base).core 0).blocks = [] := by
  (repeat' apply And.intro) <;> first | decide | rfl
/-- R138-R145: lanes add word by word and the pointers advance; a lane shifts by its low five bits. -/
theorem test_vadd :
    let s := { vec base with mem := (base.mem.writeNat 8 (padKey 0 0x100) 0xA0000000B).writeNat 8 (padKey 0 0x200) 0x700000005 }
    after (exec (.vadd .i32 (vo true false true)) s)
      (fun t => t.mem.readNat 8 (padKey 0 0x300) == 0x1100000010 && t.me.regs.p[1] == 0x400000104 && t.me.regs.pc == 12) = true ∧
    after (exec (.vshr .i32 (vo false true false)) (w0 33 (vec base)))
      (fun t => t.me.regs.acc[3] == 0xC0000000 && t.me.regs.acc[1] == 1) = true ∧
    after (exec (.vabs .i32 (vo false false false)) (vec base)) (fun t => t.me.regs.acc[3] == 0x80000000) = true := by decide
theorem wit_VectorMoves : (checkAll 0 .n32 (vec base).me.regs.p [0, 1, 2, 3] [1]).isNone = true ∧ Safe (vec base) ∧
    (Instr.vla .bf16 0 1 0).wf = true ∧ (Instr.vsa .i8 0 1 0).wf = true ∧ (checkAll 0 .f32 (vec base).me.regs.p [0, 1, 2, 3] [0]).isNone = true ∧
    ((vec base).core 0).blocks = [] ∧ (checkAll 0 .bf16 (vec base).me.regs.p [0, 1, 2, 3] [1]).isNone = true ∧
    (checkAll 0 (laneElem .i32) (vec base).me.regs.p [0] [1]).isNone = true ∧ (checkAll 0 (laneElem .i32) (vec base).me.regs.p [] []).isNone = true ∧
    (checkAll 0 (laneElem .f32) (vec base).me.regs.p [0, 1, 2, 3] [1, 2]).isNone = true ∧
    (checkAll 0 .i32 (regs (fun r => { r with p := r.p.set 1 2 }) base).me.regs.p [0] [1]).isSome = true ∧
    (vo true true false).dsel = false := by
  (repeat' apply And.intro) <;> first | decide | rfl
theorem test_vred : after (exec (.vred .n32 .add (vo false false false)) (vec base)) (fun t => t.w0 == 0x80000003) = true ∧
    after (exec (.vcmp .i32 .lt (some 2) (vo false true false)) (w0 2 (vec base)))
      (fun t => t.w0 == 13 && t.me.regs.maCol[2] == 13 && t.me.regs.w[1] == 2) = true ∧
    after (exec (.vidx .i32 0 0 false 10 (-1) 0) (vec base)) (fun t => t.me.regs.acc[3] == 7 && t.me.regs.acc[4] == 0) = true := by decide
theorem wit_VectorMoves_gather :
    let s := { vec base with mem := base.mem.writeNat 4 (padKey 0 0x204) 3 }
    (checkAll 0 .i32 s.me.regs.p (s.me.regs.lanes 0) [2]).isNone = true ∧
    (s.me.regs.lanes 0).filter (fun x => s.me.regs.pix.toNat ≤ x) = [0, 1, 2, 3] ∧ Safe s ∧ (s.core s.curCore).blocks = [] ∧
    (checkVec 0 .i32 ((s.me.regs.p[1]).setWidth 32 + 4 * vecWord s 0x200 1) [0]).toOption = some 0 ∧
    (checkVec 0 .i32 ((s.me.regs.p[1]).setWidth 32 + 4 * 0x20000) [0]).toOption = none ∧
    (checkAll 0 .i32 s.me.regs.p [] [1]).isNone = true ∧
    ((regs (fun r => { r with pix := 4 }) s).me.regs.lanes 0).filter (fun x => decide ((4 : Nat) ≤ x)) = [] ∧
    ((regs (fun r => { r with pix := 3 }) s).me.regs.lanes 0).filter (fun x => decide ((3 : Nat) ≤ x)) = [3] ∧
    (checkAll 0 .i32 (regs (fun r => { r with p := r.p.set 1 2 }) base).me.regs.p [] [1]).isSome = true ∧
    (checkAll 0 .i32 (regs (fun r => { r with p := r.p.set 1 2 }) base).me.regs.p [0] [1]).isSome = true ∧
    (checkAll 0 .i32 (regs (fun r => { r with p := r.p.set 1 2 }) base).me.regs.p [] [2]).isNone = true ∧
    (checkAll 0 .i32 (regs (fun r => { r with p := r.p.set 1 2 }) base).me.regs.p [0] [2]).isNone = true := by
  (repeat' apply And.intro) <;> first | decide | rfl
theorem test_vgath :
    let s := { regs (fun r => { r with pix := 1 }) (vec base) with
               mem := (base.mem.writeNat 4 (padKey 0 0x204) 3).writeNat 4 (padKey 0 0x10C) 99 }
    after (exec (.vgath .i32 0 1 2 0) s) (fun t => t.me.regs.acc[1] == 99 && t.me.regs.pix == 2 && t.me.regs.pc == 0) = true := by decide
theorem wit_PointersAndBits : 8 * padSize 0 < (regs (fun r => { r with ba := 0x2FFFFF }) base).me.regs.ba.toNat + (2 : BitVec 6).toNat ∧
    (regs (fun r => { r with ba := 0x2FFFFE }) base).me.regs.ba.toNat + (2 : BitVec 6).toNat ≤ 8 * padSize 0 ∧
    1 ≤ (2 : BitVec 6).toNat ∧ (2 : BitVec 6).toNat ≤ 32 ∧ Safe base ∧ (base.core 0).blocks = [] ∧
    (64 < 60 + (12 : BitVec 6).toNat ∧ ¬ 64 < 60 + (4 : BitVec 6).toNat) := by
  (repeat' apply And.intro) <;> first | decide | rfl
/-- The second half of a straddling field is in flight. -/
def bitsReq : Req := { id := 9, ep := 0, uid := 1, ctx := 1, launch := 0, kind := .bits 0xFF 0x12, va := 8, size := 8, own := true }
def straddled : State := { base with reqs := [bitsReq], mem := base.mem.writeNat 8 (padKey 0 8) 0x380 }
theorem wit_PointersAndBits_straddle : Safe straddled ∧ straddled.findReq 9 = some bitsReq ∧ bitsReq.kind = .bits 0xFF 0x12 ∧
    bitsReq.own = true ∧ bitsReq.peer = none ∧ bitsReq.land = none ∧ bitsReq.acq = false ∧ bitsReq.rel = false ∧ bitsReq.size = 8 ∧
    0xFF < 2 ^ 64 ∧ straddled.reqReady bitsReq [] = true ∧ (straddled.core (epCore bitsReq.ep)).guarded bitsReq.va = false := by
  (repeat' apply And.intro) <;> first | decide | rfl
/-- R153: a field of 12 bits that crosses the word at bit 64 is read signed and written back. -/
theorem test_bits :
    let s := { regs (fun r => { r with ba := 60 }) base with mem := (base.mem.writeNat 8 (padKey 0 0) 0xF000000000000000).writeNat 8 (padKey 0 8) 0x80 }
    after (exec (.ldb 12 true) s) (fun t => t.w0 == 0xFFFFFFFFFFFFF80F && t.me.regs.ba == 72) = true ∧
    after (exec (.stb 12) (w0 0x123 s)) (fun t => t.mem.readNat 8 (padKey 0 0) == 0x3000000000000000 &&
      t.mem.readNat 8 (padKey 0 8) == 0x80 && t.reqs.map (·.kind) == [.bits 0xFF 0x12]) = true ∧
    after (exec (.farAccessAck 9 []) straddled) (fun t => t.mem.readNat 8 (padKey 0 8) == 0x312) = true ∧
    after (exec (.pset 2 0x40 16 false) base) (fun t => t.me.regs.p[2] == 0x1000000040) = true := by decide

/-! ### Copy units and handles -/

/-- A kick of the record at 0x40: 16 bytes from 0x100 to 0x200 of the own scratchpad, then the record at `next`. -/
def kick0 : Kick := { ep := 0, uid := 1, ctx := 1, launch := 0, head := 0x40, cn := none, floor := 0 }
def rec0 (next : Word) : List Word := [next, 0x100, 0x200, 16, 0, 0, 0, 0x8000000000000000]
def channel0 (f : Channel → Channel) (s : State) : State := { s with channels := [(0, f {})] }
def record0 : State :=
  { base with
    mem := ((((base.mem.writeNat 8 (padKey 0 0x48) 0x100).writeNat 8 (padKey 0 0x50) 0x200).writeNat 8 (padKey 0 0x58) 16).writeNat 8
      (padKey 0 0x78) 0x8000000000000000).writeNat 8 (padKey 0 0x108) 0xABCD }
/-- The channel has read the record. -/
def walking (next : Word) (f : Channel → Channel) : State :=
  channel0 (fun c => f { c with kick := some kick0, ref := 0x40, words := some (rec0 next) }) record0
theorem wit_Copies_instructions : (base.channel (base.myChannel 3)).queue.length < 8 ∧ base.me.occ.cp < 63 ∧
    (base.core base.curCore).cn[(2 : Fin 16)] ≠ 1023 ∧
    8 ≤ ((channel0 (fun c => { c with queue := List.replicate 8 kick0 }) base).channel 0).queue.length ∧
    63 ≤ (thr (fun t => { t with occ := { t.occ with cp := 63 } }) base).me.occ.cp ∧
    ((core (fun k => { k with cn := k.cn.set 2 1023 }) base).core 0).cn[(2 : Fin 16)] = 1023 := by decide
def p0 : Piece := { id := 90, off := 0, src := none, dst := none, len := 16 }
theorem wit_Copies_chains :
    base.isHeld (channelSrc 0) = false ∧ (base.channel 0).kick = none ∧ (base.channel 0).queue = [] ∧
    (let s := channel0 (fun c => { c with queue := [kick0] }) record0
     (s.channel 0).kick = none ∧ (s.channel 0).queue = [kick0] ∧ kick0.head ≠ 0 ∧
       spotAt (epCore kick0.ep) (BitVec.ofNat 64 kick0.head) 0 64 false = some (.pad 0 0x40) ∧ kick0.head % 64 = 0 ∧
       (s.core 0).blocks = [] ∧ ((List.range 8).map fun i => s.mem.readWord (padKey 0 (0x40 + 8 * i))) = rec0 0 ∧
       recOwn (rec0 0) = true ∧ recCen (rec0 0) = false) ∧
    ({ kick0 with head := 0 } : Kick).head = 0 ∧
    (let s := walking 0 id
     let c := s.channel 0
     c.kick = some kick0 ∧ c.words = some (rec0 0) ∧ c.moving (rec0 0) = true ∧
       c.sides (epCore kick0.ep) (rec0 0) = some (.pad 0 0x100, .pad 0 0x200, 16) ∧ c.pieces = []) ∧
    (let s := walking 0 fun c => { c with pieces := [p0] }
     let c := s.channel 0
     c.moving (rec0 0) = true ∧ Safe s ∧ c.pieces = [p0] ∧ c.sides (epCore kick0.ep) (rec0 0) = none ∧
       sidesAt (epCore kick0.ep) (rec0 0) p0.off = some (.pad 0 0x100, .pad 0 0x200, 16) ∧ p0.src = none ∧ p0.dst = none ∧
       p0.sent = false ∧ p0.done < p0.len ∧ p0.len % 4 = 0 ∧ p0.done % 4 = 0 ∧ s.metersHold p0.id = false ∧
       (s.core 0).blocks = []) ∧
    (let s := walking 0 fun c => { c with progress := 16, charged := true }
     let c := s.channel 0
     Safe s ∧ c.finished (rec0 0) = true ∧ c.charged = true ∧ c.stored = false ∧ s.metersHold (channelId 0) = false ∧
       c.status = 0) ∧
    (let s := walking 0 fun c => { c with progress := 16 }
     let c := s.channel 0
     c.finished (rec0 0) = true ∧ c.charged = false ∧ s.meteredSlots kick0.ctx = none ∧ c.status = 0 ∧
       recordHen (rec0 0) = false ∧ recMen (rec0 0) = false ∧
       spotAt (epCore kick0.ep) (BitVec.ofNat 64 c.ref + 56) 0 8 false = some (.pad 0 0x78) ∧
       recNext (rec0 0) = 0 ∧ recNext (rec0 0x80) ≠ 0) := by
  (repeat' apply And.intro) <;> first | decide | rfl
/-- The same record from far memory that no node covers: its first piece fails. -/
def farRec : List Word := (rec0 0).set 1 0x8000000000001000
def failing : State :=
  { channel0 (fun c => { c with kick := some kick0, ref := 0x40, words := some farRec }) record0 with
    walks := [(20, [channelId 0])] }
theorem wit_Copies_stop : (failing.channel 0).moving farRec = true ∧ (failing.channel 0).pieces = [] ∧
    (failing.channel 0).sides (epCore kick0.ep) farRec = some (.far 0x1000, .pad 0 0x200, 16) ∧ (failing.channel 0).waiting = false ∧
    (match failing.tryPiece 0 kick0 (.far 0x1000) (.pad 0 0x200) 16 with
      | (.bad .., _) => true
      | _ => false) = true := by decide
/-- R255-R257: the bytes move, the record is given back with status 0 and the chain ends, which lowers CP. -/
theorem test_copy :
    after (exec (.copyPiece 0 0 []) (walking 0 fun c => { c with pieces := [p0] }))
      (fun t => t.mem.readNat 8 (padKey 0 0x208) == 0xABCD && (t.channel 0).progress == 16) = true ∧
    after (exec (.recordComplete 0 0) (thr (fun t => { t with occ := { t.occ with cp := 1 } })
      (walking 0 fun c => { c with progress := 16, charged := true })))
      (fun t => t.mem.readNat 8 (padKey 0 0x78) == 0 && (t.channel 0).kick == none && t.me.occ.cp == 0) = true ∧
    after (exec (.channelStop 0 0) (pager failing)) (fun t => (t.channel 0).stopped && t.msgs.length == 1) = true ∧
    after (exec (.chain 0 2 true (some 0x40)) base) (fun t => t.me.occ.cp == 1 && (t.core 0).cn[2] == 1 && (t.channel 0).queue.length == 1) = true := by
  decide
def handled (f : Handle → Handle) (s : State) : State := { s with handles := [(7, f {})] }
theorem wit_BuffersAndRings : (base.clockHandle (base.hkey 7)).handleIdle (base.hkey 7) = true ∧
    ((handled (fun h => { h with kind := .buffer, buf := 2 }) base).clockHandle 7).handleIdle 7 = false ∧
    (let s := channel0 (fun c => { c with stopped := true, words := some ((rec0 0).set 5 (BitVec.ofNat 64 (2 ^ 35 + 7 * 2 ^ 36))) }) base
     channelCl 0 = base.hkey 7 / 256 ∧ (s.channel 0).stopped = true ∧ (s.channel 0).names (base.hkey 7 % 256) = true) ∧
    (base.handle (base.hkey 7)).kind ≠ .barrier ∧
    (0x40000000 : W32).toNat / 2 ^ 30 = 1 ∧ (0x80000FFF : W32).toNat / 2 ^ 30 = 2 ∧ (0xC0000001 : W32).toNat / 2 ^ 30 = 3 ∧
    base.maskOk 0 0 = true ∧
    (base.handle (base.hkey 7)).kind ≠ .buffer ∧ (base.handle (base.hkey 7)).kind ≠ .ring ∧
    (let x := (handled (fun h => { h with kind := .buffer, buf := 2 }) base).handle (base.hkey 7)
     x.kind = .buffer ∧ x.faulted = false ∧ x.buf = (if true then 2 else 0) ∧ x.buf ≠ (if false then 2 else 0) ∧
       x.buf ≠ (if true then 3 else 1)) ∧
    ((handled (fun h => { h with kind := .buffer, buf := 3, faulted := true }) base).handle 7).buf = (if true then 3 else 1) ∧
    ((handled (fun h => { h with kind := .buffer, buf := 3, faulted := true }) base).handle 7).faulted = true ∧
    (let x := (handled (fun h => { h with kind := .ring, n := 4, free := 3, filled := 1, head := 3 }) base).handle 7
     x.kind = .ring ∧ x.free + (1 : BitVec 13).toNat ≤ x.n ∧ x.n < x.free + (2 : BitVec 13).toNat ∧ x.faulted = false ∧ 0 < x.filled) ∧
    ((handled (fun h => { h with kind := .ring, n := 4, free := 4 }) base).handle 7).filled = 0 := by decide
/-- R263, R264: configuration, the take of a ring's head slot, an acquire and its refusals. -/
theorem test_handles : after (exec (.hcfg 7 0x80000003) base) (fun t => (t.handle 7).kind == .ring && (t.handle 7).n == 4) = true ∧
    after (exec (.rtake 7) (handled (fun h => { h with kind := .ring, n := 4, free := 3, filled := 1, head := 3 }) base))
      (fun t => t.w0 == 3 && (t.handle 7).head == 0 && (t.handle 7).filled == 0) = true ∧
    after (exec (.hacq 7 true) (handled (fun h => { h with kind := .buffer, buf := 2 }) base)) (fun t => (t.handle 7).buf == 3) = true ∧
    after (exec (.hacq 7 false) (handled (fun h => { h with kind := .buffer, buf := 2 }) base))
      (fun t => t.me.onHandle == some 7 && t.me.regs.pc == 0) = true := by decide
def barriered (f : Handle → Handle) (s : State) : State := handled (fun h => f { h with kind := .barrier }) s
def aggMsg : Msg := { msg1 with kind := .aggregate 7 1 3 0 }
def compMsg : Msg := { msg1 with kind := .completion 7 0 3 1 }
theorem wit_Barriers : (base.handle (base.hkey 7)).kind ≠ .barrier ∧ ((barriered id base).handle 7).kind = .barrier ∧
    (regs (fun r => { r with gtouch := 0x8000000000000000 }) base).me.regs.gtouch.getLsbD 63 = true ∧ base.me.regs.gtouch.getLsbD 63 = false ∧
    (let y := ((barriered id base).clockHandle 7).handle 7
     y.a + (0xFFFFFFFF : W32).toNat < 2 ^ 32 ∧ y.faulted = false ∧ y.count = (barriered id base).w0.toNat % 2 ^ 32 ∧
       y.count ≠ (w0 1 (barriered id base)).w0.toNat % 2 ^ 32 ∧ y.e + y.posted + (9 : W32).toNat < 2 ^ 32) ∧
    2 ^ 32 ≤ (((barriered (fun h => { h with a := 1 }) base).clockHandle 7).handle 7).a + (0xFFFFFFFF : W32).toNat ∧
    (((barriered (fun h => { h with faulted := true }) base).clockHandle 7).handle 7).faulted = true ∧ base.me.ckptAt = none ∧
    ((thr (fun t => { t with ckptAt := some 5 }) base).me.ckptAt = some 5 ∧ (((barriered id base).clockHandle 7).handle 7).count ≠ 5) ∧
    (let x := (barriered (fun h => { h with e := 2, a := 3 }) base).handle 7
     x.kind = .barrier ∧ x.e ≠ 0 ∧ x.e ≤ x.a ∧ x.mask = 0) ∧
    (let s := { barriered (fun h => { h with mask := 3 }) base with msgs := [aggMsg] }
     s.findMsg 5 = some aggMsg ∧ s.crossHandle 0 7 3 0 = some 7) ∧
    (let s := { barriered (fun h => { h with mask := 3, master := 1 }) base with msgs := [compMsg] }
     s.findMsg 5 = some compMsg ∧ s.crossHandle 0 7 3 1 = some 7) := by decide
/-- R266: a phase takes its expectations away and counts. -/
theorem test_barrier : after (exec (.barrierPhase 7) (barriered (fun h => { h with e := 2, a := 3 }) base))
      (fun t => (t.handle 7).a == 1 && (t.handle 7).count == 1) = true ∧
    after (exec (.barr 7 2) (barriered id base)) (fun t => (t.handle 7).a == 2 && t.me.regs.pc == 12) = true ∧
    after (exec (.bwait 7) (w0 1 (barriered id base))) (fun t => t.w0 == 0) = true ∧
    after (exec (.barrierCompletionMsg 5) { barriered (fun h => { h with mask := 3, master := 1 }) base with msgs := [compMsg] })
      (fun t => (t.handle 7).count == 1 && t.msgs == []) = true := by decide

/-! ### Matrix arrays -/

def mo (opnd : Word) (imm : W32 := 0) : MOp := { off := .zero, ioff := .zero, imm := imm, opnd := opnd }
/-- Thread 0 of core 0 holds the lease of array 0, in context 1. -/
def leased (s : State) : State := thr (fun t => { t with lease := .held }) { s with arrays := [(0, { ctx := some 1, bound := true })] }
def array0 (f : Arr → Arr) (s : State) : State := s.updArr 0 f
theorem wit_TensorInstructions : base.me.gang = none ∧ (directOf (.mzero (mo 0xFC0))).isSome = true ∧ base.me.maskPending = false ∧
    (cmdOk true base.me.msrc.row base.me.msrc.col (.mzero (mo 0xFC0)) = true ∧ base.tileOk 0 (.mzero (mo 0xFC0)) = true) ∧
    cmdOk true base.me.msrc.row base.me.msrc.col (.mzero (mo 0xFC1)) = false ∧
    ((array0 (fun x => { x with mode := 2 }) base).arr 0).mode = 2 ∧ (base.arr 0).mode ≠ 2 ∧
    (tileDest (.mzero (mo 0xFC0))).any (fun q => !base.takesTiles q) = false ∧ base.me.lease = .off ∧ (leased base).me.lease = .held ∧
    (leased base).me.occ.tl < 63 ∧ (leased base).me.leaseCmds < (leased base).me.leaseBase + 16 ∧
    (let t := (thr (fun t => { t with leaseCmds := 16 }) (leased base)).me
     t.leaseBase + 16 ≤ t.leaseCmds) ∧
    (let e : Word := 0x5FFF0 + base.raw 0 .zero
     e.toNat < 2 ^ 47 ∧ fld e 0 32 < 2 ^ 28 ∧ fld e 0 32 % 16 = 0 ∧ fld e 0 32 + 16 * (fld e 32 8 + 1) ≤ 0x60000 ∧
       e.getLsbD 46 = false ∧ base.queueFull 0 0 = false ∧ base.me.occ.tl < 63 ∧ e.getLsbD 44 = false) ∧
    ((0x400000000000 : Word).getLsbD 46 = true ∧ coreArray 4 % 2 = 1) ∧
    ((core (fun k => { k with share := 1 }) (array0 (fun x => { x with jobs := [{ id := 0, seq := 0, ep := 0, uid := 1, ctx := 1, launch := 0, chain := 0, count := 1, cn := none, cls := false, pair := false, rng := 1 }] }) base)).queueFull 0 0 = true) ∧
    2 ^ 47 ≤ (0x800000000000 : Word).toNat ∧ 2 ^ 9 ≤ (0x200 : Word).toNat ∧ (0x1FF : Word).toNat < 2 ^ 9 ∧ (0x1FF : Word).getLsbD 8 = true ∧
    (array0 (fun x => { x with table := [(0xFF, { state := 2 })] }) base |>.jobEntry 0 0xFF).state = 2 ∧ (0 : BitVec 2) ≠ 3 := by decide
/-- R165, R168: the command's operand is its own plus its source, and TL rises; R163: a job's number is pushed. -/
theorem test_command : after (exec (.mzero { mo 0 with off := .nib 0 }) (k01 5 0 (leased base)))
      (fun t => (t.arr 0).cmds.map (·.instr) == [.mzero (mo 5)] && t.me.occ.tl == 1 && t.me.regs.pc == 16) = true ∧
    after (exec (.mzero (mo 0xFC1)) (trapping (leased base))) (fun t => (t.me.cause.setWidth 8 : BitVec 8) == 0x0F) = true ∧
    after (exec (.mjob .wet .zero 0x40) base) (fun t => t.w0 == 0 && (t.jobEntry 0 0).state == 1 && t.me.occ.tl == 1) = true ∧
    after (exec (.mlease true) base) (fun t => t.me.lease == .waiting true) = true := by decide
def job0 : Job := { id := 7, seq := 3, ep := 0, uid := 1, ctx := 1, launch := 0, chain := 0x40, count := 2, cn := none, cls := true, pair := false, rng := 1 }
/-- Job 7 of core 0 runs on array 0, or waits there; its records stand at 0x40. -/
def jobbed (i : Instr) (f : Arr → Arr) (j : Job → Job) (e : JobEntry) : State :=
  { base with
    mem := base.mem.writeBytes (((encode i).map Enc.bytes).getD []) (padKey 0 0x40)
    arrays := [(0, f { ctx := some 1, bound := true, jobs := [j job0], table := [(7, e)], run := some (.job 7) })] }
def gated (n : Nat) (s : State) : State := { s with handles := [(7, { kind := .barrier, a := n })] }
/-- Job 7 is a pair job that array 0 offers; array 1 is as `f` says. -/
def paired (f x : Arr → Arr) : State :=
  let s := jobbed (.mprec (mo 0)) (fun x => f { x with run := none }) (fun j => { j with pair := true }) { state := 1 }
  { s with arrays := s.arrays ++ [(1, x {})] }
/-- A product of one chunk that handle 7 gates: its A operand is 2,048 bytes. -/
def gatedMul : Instr := .mmul .i8 .rne (mo (31 * 2 ^ 48) (2 ^ 8 + 7))
def job1 : Job := { job0 with command := some gatedMul }
theorem wit_ArrayGrants : base.isHeld (arraySrc 0) = false ∧
    (let s := jobbed (.mprec (mo 0)) (fun x => { x with run := none, bound := false }) id { state := 1 }
     s.lent 0 = false ∧ s.arrBound 0 = none ∧ s.wanted 0 = none ∧
       (s.chooseOffer 0 (s.coreOffers 0 fun _ => true)).map (·.ctx) = some 1) ∧
    ((paired (fun x => { x with offered := some 7 }) id).wanted 1 = some (1, 7) ∧
      (paired (fun x => { x with offered := some 7 }) id).isHeld (arraySrc 1) = false) ∧
    (let s := paired id id
     let o := s.firstOffer 0 (s.coreOffers 0 (· == 1))
     s.wanted 0 = none ∧ s.arrBusy 0 = false ∧ s.testDue 0 = false ∧ s.arrBound 0 = some 1 ∧
       o.bind (s.pairOffer 0) = some 7 ∧ o.map (s.agrees 1 ·.ctx) = some true) ∧
    (((paired id fun x => { x with loan := some 7 }).arr (arrayMate 0)).loan = some 7) ∧
    (let s := paired id fun x => { x with mode := 1, untested := 1024 }
     let os := s.coreOffers 0 (· == 1)
     let o := s.firstOffer 0 os
     o.bind (s.pairOffer 0) = some 7 ∧ (s.arr (arrayMate 0)).loan ≠ some 7 ∧ o.map (s.agrees 1 ·.ctx) = some false ∧
       s.chooseOffer 0 (os.filter fun p => o.any (p.pos != ·.pos) && (s.pairOffer 0 p).isNone) = none) ∧
    (let s := jobbed (.mprec (mo 0)) (fun x => { x with run := none }) id { state := 1 }
     s.arrBusy 0 = false ∧ s.testDue 0 = false ∧ s.arrBound 0 = some 1 ∧
       (s.firstOffer 0 (s.coreOffers 0 (· == 1))).map (·.what) = some (.job 7) ∧
       (s.firstOffer 0 (s.coreOffers 0 (· == 1))).bind (s.pairOffer 0) = none) ∧
    (let s := thr (fun t => { t with lease := .waiting true }) { base with arrays := [(0, { ctx := some 1, bound := true })] }
     s.arrBusy 0 = false ∧ s.arrBound 0 = some 1 ∧ (s.firstOffer 0 (s.coreOffers 0 (· == 1))).map (·.what) = some (.lease 0 1)) ∧
    (let s := array0 (fun x => { x with run := some (.lease 0 1) }) (leased { base with now := 40960 })
     (s.arr 0).run = some (.lease 0 1) ∧ s.holds 0 1 = true ∧
       (s.thr 0).leaseLast + 256 * Config.arithCycle ≤ s.now ∧ 40959 < (s.thr 0).leaseLast + 256 * Config.arithCycle) ∧
    (let s := gated 2047 { jobbed gatedMul id (fun _ => job1) { state := 2 } with now := 163840 }
     (s.arr 0).run = some (.job 7) ∧ s.findJob 0 7 = some job1 ∧ s.atGate 0 job1 = some (7, false) ∧
       (s.arr 0).chunkAt + 1024 * Config.arithCycle ≤ s.now) ∧
    (let j : Job := { job1 with susp := .gate }
     let s := gated 2048 (jobbed gatedMul id (fun _ => j) { state := 2 })
     s.findJob 0 7 = some j ∧ j.susp = .gate ∧ s.atGate 0 j = some (7, true) ∧ (s.jobEntry 0 7).state ≠ 3) ∧
    (let j : Job := { job1 with susp := .gate }
     let s := { jobbed gatedMul id (fun _ => j) { state := 2 } with handles := [(7, { kind := .barrier, faulted := true })] }
     s.findJob 0 7 = some j ∧ s.atGate 0 j = some (7, false) ∧ (s.jobEntry 0 7).state = 2 ∧
       (s.handle (gateKeyOf j 7)).faulted = true) := by
  (repeat' apply And.intro) <;> first | decide | rfl
theorem test_grant : after (exec (.arrayGrant 0) (jobbed (.mprec (mo 0)) (fun x => { x with run := none }) id { state := 1 }))
      (fun t => (t.arr 0).run == some (.job 7) && (t.jobEntry 0 7).state == 2) = true ∧
    after (exec (.gateTimeout 0) (gated 2047 { jobbed gatedMul id (fun _ => job1) { state := 2 } with now := 163840 }))
      (fun t => (t.arr 0).run == none) = true ∧
    after (exec (.arrayGrant 0) (paired id id)) (fun t => (t.arr 1).loan == some 7 && (t.arr 1).ctx == some 1) = true := by decide
def cmd0 (i : Instr) : Cmd :=
  { ep := 0, lead := 0, uid := 1, ctx := 1, launch := 0, instr := i, rng := 1, row := 3, col := 3, prec := 0, idx := 0, cls := true, seq := 0 }
def heading (i : Instr) : State :=
  thr (fun t => { t with leaseCmds := 1, occ := { t.occ with tl := 1 } })
    (array0 (fun x => { x with run := some (.lease 0 1), cmds := [cmd0 i] }) (leased base))
theorem wit_ArrayCommands : Safe (heading (.mzero (mo 0xFC0))) ∧
    (let s := heading (.mzero (mo 0xFC0))
     (0 : Nat) < 576 ∧ (cmd0 (.mzero (mo 0))).ep < 2 ^ 18 ∧ s.wanted 0 = none ∧ s.lent 0 = false ∧
       s.isHeld (arraySrc 0) = false ∧ s.testDue 0 = false ∧
       (s.arr 0).run = some (.lease 0 1) ∧ sourceCmds (s.arr 0).cmds 1 = [cmd0 (.mzero (mo 0xFC0))] ∧
       s.cmdTurn (cmd0 (.mzero (mo 0xFC0))) = true) ∧
    (mo 0xFC0).f 0 6 + (mo 0xFC0).f 6 6 < 64 ∧ (mo 0xFC0).k ≤ 32 ∧ ElemTy.bf16 ≠ .i8 ∧ ElemTy.bf16 ≠ .i4 ∧ (mo 0).f 42 6 < 64 ∧
    (mo 0).f 0 21 < 0x200000 ∧ (mo 0).f 21 21 < 0x200000 ∧ (mo 0).f 28 4 = 0 ∧
    ((heading (.mrecvt (mo 0x05000000))).arr 0).hasTile ((mo 0x05000000).f 24 8) = false ∧
    ((heading (.mrecvt (mo 0x05000000))).arr 0).mode ≠ 2 ∧
    ((array0 (fun x => { x with slots := [⟨5, 9, 1, 1, [1]⟩] }) (heading (.mrecvt (mo 0x05000000)))).arr 0).slots = [⟨5, 9, 1, 1, [1]⟩] ∧
    (mo 0x05000000).f 24 8 = 5 := by
  (repeat' apply And.intro) <;> first | decide | rfl
/-- R175-R182: a command leaves its source's queue; a receive without its tile frees the array. -/
theorem test_array_command : after (exec (.arrayCommandComplete 0) (heading (.mprec (mo 3)))) (fun t => (t.arr 0).cmds == [] && t.me.occ.tl == 0) = true ∧
    after (exec (.arrayCommandComplete 0) (heading (.mrecvt (mo 0x05000000)))) (fun t => (t.arr 0).run == none) = true := by decide
def tileMsg : Msg :=
  { msg1 with kind := .tile 0 9 5 1 1 [1] none, dest := 0, hdr := mkHdr 0 1 40 0 2 0 false, ack := some (0, 1, 0, true) }
theorem wit_ArrayCommands_jobs : base.isHeld (arraySrc 0) = false ∧
    (let s := jobbed (.nop) id id { state := 2 }
     s.wanted 0 = none ∧ s.lent 0 = false ∧ s.testDue 0 = false ∧ (s.arr 0).run = some (.job 7) ∧
       s.findJob 0 7 = some job0 ∧ job0.id = 7 ∧ (job0.arrays 0).any s.stopsAt = false ∧ job0.command = none ∧
       job0.sole = none ∧ s.sinksFor (arrayDie 0) job0.ctx 3 = [] ∧
       (match s.jobRecord 0 job0 with
         | .error e => e != 0
         | .ok _ => false) = true) ∧
    (let s := jobbed (.mprec (mo 3)) id id { state := 2 }
     (match s.jobRecord 0 job0 with
       | .error _ => false
       | .ok i => i == .mprec (mo 3)) = true ∧ job0.sends = 0 ∧ (s.jobEntry 0 7).record + 1 < job0.count) ∧
    ({ job0 with count := 1 } : Job).count = 0 + 1 ∧
    (let s := { base with msgs := [tileMsg], arrays := [(0, { ctx := some 1, bound := true })] }
     s.findMsg 5 = some tileMsg ∧ s.msgBlocked tileMsg = false ∧ s.takesTiles 0 = true ∧
       (s.arrBound 0 = none ∨ s.arrBound 0 = some (hdrCtx tileMsg.hdr)) ∧ (s.arr 0).slots.length < 4 ∧
       (s.arr 0).ctx = some (hdrCtx tileMsg.hdr) ∧ s.unitHere 0 1 = true) ∧
    (({ base with msgs := [tileMsg], arrays := [(0, { mode := 2 })] } : State).takesTiles 0 = false) ∧
    ({ tileMsg with ack := none } : Msg).ack = none ∧
    (array0 (fun x => { x with untested := 1024 }) base).testDue 0 = true ∧ base.testDue 0 = false ∧
    (array0 (fun x => { x with untested := 1024 }) base |>.arr 0).jobs = [] := by
  (repeat' apply And.intro) <;> first | decide | rfl
/-- R164, R169: a word that is no array command ends the job with error 1; R192: a failing quadrant of each half puts the array out of service. -/
theorem test_job : after (exec (.arrayCommandComplete 0) (jobbed (.nop) id id { state := 2 }))
      (fun t => (t.jobEntry 0 7).state == 5 && (t.jobEntry 0 7).err == 1 && (t.arr 0).jobs == []) = true ∧
    after (exec (.arrayCommandComplete 0) (jobbed (.mprec (mo 3)) id id { state := 2 })) (fun t => (t.jobEntry 0 7).record == 1) = true ∧
    after (exec (.arraySelfTest 0 3) (array0 (fun x => { x with untested := 1024 }) base)) (fun t => (t.arr 0).mode == 2) = true := by decide

/-! ### Address spaces -/

/-- Context 1 owns far 0x0-0xFFFFF with all rights, context 2 has window 3 open to everyone; one operation waits. -/
def treed (k : TreeKind) (f : Node → Node) : State :=
  { base with
    ctxs := [(1, { inUse := true, tenant := 1 }), (2, { inUse := true, tenant := 1 })]
    nodes := [(0, f { ctx := 1, lg := 14, phys := 0x100000, rights := 7 })]
    windows := [(2 * 64 + 3, { base := 0x1000000, lgw := 14, anyCtx := true, ep := 5, handler := 9 })]
    treeQ := [(0, [⟨.nobody, 1, k, 0⟩])] }
def mapKind (g : Bool) : TreeKind := .derive g 0x10000 10 2 3 0x20000 3 77
def mapMsg (k : TreeKind) : TreeMsg := ⟨.nobody, 1, k, 0⟩
theorem wit_TreeInstructions :
    (treeTable base (.map .wet .zero .zero 77 2 3 10 3)).map (·.align) = some 0x10000 ∧ fld (base.raw 0 .zero) 57 7 = 0 ∧
    (base.raw 0 .zero).toNat % 0x10000 = 0 ∧ fld ((k01 0x8000000000000000 0 base).raw 0 (.nib 0)) 57 7 ≠ 0 ∧
    ((k01 0x8000 0 base).raw 0 (.nib 0)).toNat % 0x10000 ≠ 0 ∧
    (treeTable base (.unmapAsync .wet .zero true 0x3FFFF 9)).bind (·.ep) = some 0x3FFFF ∧ base.threadOf base.myPart (0x3FFFF : BitVec 18).toNat = false ∧
    base.threadOf base.myPart (8 : BitVec 18).toNat = true := by decide
theorem test_map : after (exec (.map (.nib 2) .zero .zero 77 2 3 10 3) base)
      (fun t => (nget [] t.treeQ 0).map (·.kind) == [.derive false 0 10 2 3 0 3 77] && t.me.pend.length == 1 && t.me.regs.pc == 16) = true ∧
    after (exec (.mquery .wet (.nib 0) 0) (trapping (k01 0x8000000000000000 0 base)))
      (fun t => (t.me.cause.setWidth 8 : BitVec 8) == 0x0A) = true := by decide
theorem wit_TreeOperations_derive :
    (let s := treed (mapKind false) id
     nget [] s.treeQ 0 = [mapMsg (mapKind false)] ∧ s.treeStuck 0 = false ∧ s.meteredSlots 1 = none ∧
       (s.checkMsg 0 (mapMsg (mapKind false))).toOption.map (·.1) = some 0 ∧ (s.node 0).sealed = false ∧
       freshKey 0 s.nodes = 1) ∧
    (let k := TreeKind.derive true 0 14 2 3 0 3 77
     let s := treed k fun n => { n with wmask := [16] }
     (s.checkMsg 0 (mapMsg k)).toOption.map (·.1) = some 0 ∧ s.maskedDies [0] ≠ []) ∧
    (let s := treed (mapKind false) fun n => { n with rights := 3 }
     (mapMsg (mapKind false)).kind.derives = true ∧
       (match s.checkMsg 0 (mapMsg (mapKind false)) with
         | .error c => c == 2
         | .ok _ => false) = true) ∧
    ((treed (.openWindow 4 {}) id).treeStuck 0 = false ∧ (nfind (treed (.closeWindow 4) id).windows (1 * 64 + 4)).isNone = true ∧
      (nfind ({ treed (.closeWindow 4) id with windows := [(68, {})] } : State).windows (1 * 64 + 4)).isSome = true) ∧
    (TreeKind.query 0 0).derives = false ∧ (TreeKind.query 0 0).withdraws = false := by decide
/-- R377, R378: the derived node is at the window's base and offset, and the receiver's endpoint is told. -/
theorem test_derive : after (exec (.derive 0) (treed (mapKind false) id))
      (fun t => (t.node 1).vbase == 0x1020000 && (t.node 1).phys == 0x110000 && (t.node 1).parent == some 0 &&
        t.msgs.map (fun m => (m.dest, hdrHandler m.hdr)) == [(5, 9)]) = true ∧
    after (exec (.windowChange 0) (treed (.closeWindow 4) id)) (fun t => nget [] t.treeQ 0 == []) = true := by decide
def opOf (f : TreeOp → TreeOp) : TreeOp :=
  f { id := 6, part := 0, asker := .nobody, ctx := 1, fin := .unmap 1 0 none, set := [0], marks := [], dies := none, round := none,
      after := [], floor := 0 }
def opened (f : TreeOp → TreeOp) : State := { treed (.query 0 0) id with treeOps := [opOf f] }
def piece90 : Piece := { id := 90, off := 0, src := some ⟨0x101000, false, 0, 16, 0⟩, dst := none, len := 16 }
/-- Core 0's channel moves a piece whose source is pinned to node 0 at die 16. -/
def pinned : State :=
  { opened fun o => { o with dies := some [], round := some ⟨16, 0, [90], [0], 1⟩ } with
    now := 1088000
    channels := [(0, { kick := some kick0, ref := 0x40, words := some farRec,
                       pieces := [piece90] })] }
theorem wit_TreeOperations_withdraw :
    (let s := treed (.unmap 0 true none) id
     s.treeStuck 0 = false ∧ (s.target (mapMsg (.unmap 0 true none))).toOption = some (0, s.node 0, true) ∧ s.treeOps = [] ∧
       (s.node 0).sealed = false) ∧
    (match (treed (.unmap 0x40 true none) id).target (mapMsg (.unmap 0x40 true none)) with
      | .error c => c == 1
      | .ok _ => false) = true ∧
    (let o := opOf fun o => { o with marks := [0, 1] }
     let s := opened fun o => { o with marks := [0, 1] }
     s.findOp 6 = some o ∧ o.id = 6 ∧ o.dies = none ∧ o.marks = [0, 1] ∧ s.treeStuck o.part = false) ∧
    (let o := opOf fun o => { o with dies := some [16, 17] }
     let s := opened fun o => { o with dies := some [16, 17] }
     s.findOp 6 = some o ∧ o.dies = some [16, 17] ∧ o.round = none ∧ s.isHeld (walkerSrc 16) = false) ∧
    (let r : Round := ⟨16, 0, [9], [0], 1⟩
     let s := opened fun o => { o with dies := some [17], round := some r }
     ({ s with reqs := [busReq] } : State).stillUses { r with die := 16 } = true ∧ s.stillUses r = false ∧
       s.isHeld (walkerSrc r.die) = false) ∧
    (let s := opened fun o => { o with dies := some [], round := some ⟨16, 0, [], [], 0⟩, fin := .handover 3 true }
     (s.findOp 6).map (·.after) = some [] ∧ (s.findOp 6).map (·.marks) = some [] ∧ (s.findOp 6).map (·.dies) = some (some [])) ∧
    (nget false base.shared 3 ≠ true ∧ base.handingOver 3 = false ∧ base.caches = [] ∧ base.reqs = [] ∧ base.channels = []) ∧
    (let c := pinned.channel 0
     c.kick = some kick0 ∧ c.words = some farRec ∧ c.pieces = [piece90] ∧ piece90.done < piece90.len ∧
       sidesAt (epCore kick0.ep) farRec piece90.off = some (.far 0x1000, .pad 0 0x200, 16) ∧
       (pinned.treeOps.map fun o => o.round.map fun r => (r.uses.contains piece90.id, r.since)) = [some (true, 0)] ∧
       0 + 4 * Config.usTicks ≤ pinned.now ∧ piece90.pinOf 16 [0] = some (3, ⟨0x101000, false, 0, 16, 0⟩)) := by
  (repeat' apply And.intro) <;> first | decide | rfl
/-- R380, R383: the node is marked, then dead, then gone with the last acknowledgement. -/
theorem test_unmap : after (exec (.unmapEffect 0) (treed (.unmap 0 true none) id)) (fun t => (t.node 0).selfMark && t.treeOps.length == 1) = true ∧
    after (exec (.deadMarks 6) (opened fun o => { o with marks := [0] })) (fun t => t.nodes == []) = true ∧
    after (exec (.migrationHandover 3 true) base) (fun t => nget false t.shared 3) = true ∧
    after (exec (.pinCancel 0 0) pinned) (fun t => (t.channel 0).code == 5 && (t.channel 0).stopped) = true := by decide

/-! ### Sealing, egress, the Scroll -/

/-- Slot 3 is loaded, with a budget of 640 bytes in a window of 2^32 - 1 milliseconds; context 1 is charged to it. -/
def policy3 : List Word := [5, 1, 640, 0xFFFFFFFF, 0, 2]
def keyed (f : KeySlot → KeySlot) : State :=
  { base with keys := [(3, f { policy := policy3, left := 640 })], metered := [(1, [3])] }
theorem ctime_start (s : State) (d : Nat) (h : s.now = 0) (h2 : s.ctimeOff = 0) : s.ctime d < 33 := by
  unfold State.ctime
  rw [h, h2]
  simp
theorem window_start (s : State) (k : KeySlot) (h : s.now = 0) (h2 : s.ctimeOff = 0) (h3 : fld (k.word 3) 0 32 = 0xFFFFFFFF) :
    s.windowNow k = 0 := by
  have := ctime_start s s.securityDie h h2
  unfold State.windowNow
  rw [h3]
  exact Nat.div_eq_of_lt (by omega)
theorem keyed_current (f : KeySlot → KeySlot) (h : (f { policy := policy3, left := 640 }).policy = policy3) :
    (keyed f).windowNow ((keyed f).keySlot 3) = 0 := by
  refine window_start _ _ rfl rfl ?_
  show fld ((f { policy := policy3, left := 640 }).policy.getD 3 0) 0 32 = _
  rw [h]
  decide
/-- The owner's key whose vector t1 is 0: one answer fits every challenge of it. -/
def owner0 : List Byte := List.replicate 1312 0
def zeros : Poly := List.replicate 256 0
/-- That answer: z is 0, with no hint. -/
def answer0 : List Byte := (List.replicate 4 (packPoly 18 (List.replicate 256 gamma1))).flatten ++ List.replicate 84 0
/-- What the check of it computes, whatever the challenge. -/
def commit0 : List Poly :=
  List.zipWith (List.zipWith useHint) (List.replicate 4 (List.replicate 256 false))
    ((expandA (List.replicate 32 0)).zip (List.replicate 4 zeros) |>.map fun (row, _) =>
      dsaInvNtt (subPoly dsaQ (dotPoly dsaQ dsaMul row (List.replicate 4 zeros)) zeros))
def challenge0 (msg : List Byte) : List Byte := shake (dsaMu owner0 [] msg ++ w1Bytes commit0) 32
def signed0 (msg : List Byte) : List Byte := challenge0 msg ++ answer0
theorem answer0_length : answer0.length = 2388 := by
  simp [answer0, packPoly]
theorem answer0_z : (unpackPolys 18 4 576 answer0).map (fun f => f.map fun x => (gamma1 + dsaQ - x) % dsaQ) = List.replicate 4 zeros := by
  decide +kernel
theorem dsaMul_zeros {c : Poly} (h : c.length = 256) : dsaMul c zeros = zeros := by
  apply List.ext_getElem
  · simp only [dsaMul, zeros, List.length_zipWith, List.length_replicate, h]; rfl
  · intro i _ _
    simp only [dsaMul, zeros, List.getElem_zipWith, List.getElem_replicate, Nat.mul_zero, Nat.zero_mod]
theorem ntt_zeros : dsaNtt (scalePoly dsaQ (2 ^ 13) zeros) = zeros ∧ dsaNtt zeros = zeros := by decide +kernel
theorem owner0_t : unpackPolys 10 4 320 (owner0.drop 32) = List.replicate 4 zeros := by decide +kernel
theorem answer0_hint : hintPolys ((natsOf (List.replicate 84 0)).take 80) 0 ((natsOf (List.replicate 84 0)).drop 80) =
    some (List.replicate 4 (List.replicate 256 false)) := by decide +kernel
theorem answer0_norm : normOf (List.replicate 4 zeros) < gamma1 - 78 := by decide +kernel
/-- FIPS 204: the check of the answer to that key. -/
theorem owner0_verifies (msg : List Byte) : mlDsaVerify owner0 msg (signed0 msg) = true := by
  have hl : (challenge0 msg).length = 32 := shake_length _ _
  have htake : (signed0 msg).take 32 = challenge0 msg := by
    rw [signed0, List.take_append_of_le_length (by omega), List.take_of_length_le (by omega)]
  have hdrop : (signed0 msg).drop 32 = answer0 := by
    rw [signed0, List.drop_append, List.drop_eq_nil_of_le (by omega), hl, List.nil_append, Nat.sub_self, List.drop_zero]
  have hhint : (signed0 msg).drop 2336 = List.replicate 84 0 := by
    rw [show 2336 = 32 + 2304 from rfl, ← List.drop_drop, hdrop]; rfl
  have hlen : (signed0 msg).length = 2420 := by rw [signed0, List.length_append, hl, answer0_length]
  have hc : (dsaNtt (sampleInBall (challenge0 msg))).length = 256 := by
    rw [dsaNtt, nttAt_length _ _ _ _ _ 1 (by rw [sampleInBall_length]; first | done | decide), sampleInBall_length]
  have hw : (List.zip (expandA (owner0.take 32)) (List.replicate 4 zeros)).map (fun (row, f) =>
      dsaInvNtt (subPoly dsaQ (dotPoly dsaQ dsaMul row ((List.replicate 4 zeros).map dsaNtt))
        (dsaMul (dsaNtt (sampleInBall (challenge0 msg))) (dsaNtt (scalePoly dsaQ (2 ^ 13) f))))) =
      ((expandA (List.replicate 32 0)).zip (List.replicate 4 zeros)).map (fun (row, _) =>
        dsaInvNtt (subPoly dsaQ (dotPoly dsaQ dsaMul row (List.replicate 4 zeros)) zeros)) := by
    have ht : owner0.take 32 = List.replicate 32 0 := rfl
    rw [ht, List.map_replicate, ntt_zeros.2]
    refine List.map_congr_left fun x hx => ?_
    obtain ⟨row, f⟩ := x
    have hf : f = zeros := List.eq_of_mem_replicate (List.of_mem_zip hx).2
    simp only [hf, ntt_zeros.1, dsaMul_zeros hc]
  unfold mlDsaVerify
  simp only [htake, hdrop, hhint, hlen, owner0_t, answer0_z, answer0_hint, hw]
  rw [Bool.and_eq_true, Bool.and_eq_true, Bool.and_eq_true]
  exact ⟨⟨⟨by decide +kernel, by decide⟩, by simpa using answer0_norm⟩, by simp only [beq_iff_eq]; rfl⟩
/-- A package for this device, signed with that key: the policy, and what the arguments give the other fields. -/
def policyBytes3 : List Byte := (policy3.flatMap fun (w : Word) => leBytes 8 w.toNat) ++ List.replicate 80 0
def packBody (c n e t : List Byte) : List Byte :=
  leBytes 8 0x31534B484A524F42 ++ (deviceId ++ (c ++ (n ++ (e ++ (t ++ (policyBytes3 ++ owner0))))))
def pack (c n e t : List Byte) : List Byte := packBody c n e t ++ signed0 (packBody c n e t)
theorem drop_past {α : Type} {a b : List α} {n k : Nat} (h : a.length = n) : (a ++ b).drop (n + k) = b.drop k := by
  rw [List.drop_append, List.drop_eq_nil_of_le (by omega), List.nil_append, h, Nat.add_sub_cancel_left]
theorem take_whole {α : Type} {a b : List α} {n : Nat} (h : a.length = n) : (a ++ b).take n = a := by
  rw [List.take_append_of_le_length (by omega), List.take_of_length_le (by omega)]
theorem policyBytes3_length : policyBytes3.length = 128 := by decide
theorem pack_fields {c n e t : List Byte} (hc : c.length = 1088) (hn : n.length = 12) (he : e.length = 64) (ht : t.length = 16) :
    (pack c n e t).length = 5080 ∧ (pack c n e t).take 8 = leBytes 8 0x31534B484A524F42 ∧ pkgId (pack c n e t) = deviceId ∧
      pkgCipher (pack c n e t) = c ∧ pkgNonce (pack c n e t) = n ∧ pkgKey (pack c n e t) = e ∧ pkgTag (pack c n e t) = t ∧
      pkgPolicyBytes (pack c n e t) = policyBytes3 ∧ pkgOwner (pack c n e t) = owner0 ∧
      (pack c n e t).take 2660 = packBody c n e t ∧ pkgSig (pack c n e t) = signed0 (packBody c n e t) ∧
      ((pack c n e t).drop 40).take 1180 = c ++ (n ++ (e ++ t)) := by
  have hm : (leBytes 8 0x31534B484A524F42).length = 8 := rfl
  have hd : deviceId.length = 32 := sha3_length _
  have ho : owner0.length = 1312 := List.length_replicate
  have hp := policyBytes3_length
  have hs : (signed0 (packBody c n e t)).length = 2420 := by
    rw [signed0, List.length_append, challenge0, shake_length, answer0_length]
  have hb : (packBody c n e t).length = 2660 := by simp only [packBody, List.length_append, hm, hd, hc, hn, he, ht, hp, ho]
  have whole : pack c n e t = leBytes 8 0x31534B484A524F42 ++ (deviceId ++ (c ++ (n ++ (e ++ (t ++ (policyBytes3 ++
      (owner0 ++ signed0 (packBody c n e t)))))))) := by simp only [pack, packBody, List.append_assoc]
  have d8 : (pack c n e t).drop 8 = deviceId ++ (c ++ (n ++ (e ++ (t ++ (policyBytes3 ++
      (owner0 ++ signed0 (packBody c n e t))))))) := by rw [whole]; exact drop_past (k := 0) hm
  have d40 : (pack c n e t).drop 40 = c ++ (n ++ (e ++ (t ++ (policyBytes3 ++ (owner0 ++ signed0 (packBody c n e t)))))) := by
    rw [show 40 = 8 + 32 from rfl, ← List.drop_drop, d8]; exact drop_past (k := 0) hd
  have d1128 : (pack c n e t).drop 1128 = n ++ (e ++ (t ++ (policyBytes3 ++ (owner0 ++ signed0 (packBody c n e t))))) := by
    rw [show 1128 = 40 + 1088 from rfl, ← List.drop_drop, d40]; exact drop_past (k := 0) hc
  have d1140 : (pack c n e t).drop 1140 = e ++ (t ++ (policyBytes3 ++ (owner0 ++ signed0 (packBody c n e t)))) := by
    rw [show 1140 = 1128 + 12 from rfl, ← List.drop_drop, d1128]; exact drop_past (k := 0) hn
  have d1204 : (pack c n e t).drop 1204 = t ++ (policyBytes3 ++ (owner0 ++ signed0 (packBody c n e t))) := by
    rw [show 1204 = 1140 + 64 from rfl, ← List.drop_drop, d1140]; exact drop_past (k := 0) he
  have d1220 : (pack c n e t).drop 1220 = policyBytes3 ++ (owner0 ++ signed0 (packBody c n e t)) := by
    rw [show 1220 = 1204 + 16 from rfl, ← List.drop_drop, d1204]; exact drop_past (k := 0) ht
  have d1348 : (pack c n e t).drop 1348 = owner0 ++ signed0 (packBody c n e t) := by
    rw [show 1348 = 1220 + 128 from rfl, ← List.drop_drop, d1220]; exact drop_past (k := 0) hp
  have d2660 : (pack c n e t).drop 2660 = signed0 (packBody c n e t) := drop_past (k := 0) hb
  refine ⟨by rw [pack, List.length_append, hb, hs], by rw [whole, take_whole hm], ?_, ?_, ?_, ?_, ?_, ?_, ?_, take_whole hb, ?_, ?_⟩
  · rw [pkgId, d8, take_whole hd]
  · rw [pkgCipher, d40, take_whole hc]
  · rw [pkgNonce, d1128, take_whole hn]
  · rw [pkgKey, d1140, take_whole he]
  · rw [pkgTag, d1204, take_whole ht]
  · rw [pkgPolicyBytes, d1220, take_whole hp]
  · rw [pkgOwner, d1348, take_whole ho]
  · rw [pkgSig, d2660, List.take_of_length_le (by omega)]
  · rw [d40]
    have h4 : (c ++ (n ++ (e ++ t))).length = 1180 := by simp only [List.length_append, hc, hn, he, ht]
    rw [show c ++ (n ++ (e ++ (t ++ (policyBytes3 ++ (owner0 ++ signed0 (packBody c n e t)))))) =
      (c ++ (n ++ (e ++ t))) ++ (policyBytes3 ++ (owner0 ++ signed0 (packBody c n e t))) by simp only [List.append_assoc]]
    exact take_whole h4
/-- Its status, as a load and, with its fields zero, as an update. -/
theorem pack_status {c n e t : List Byte} (hc : c.length = 1088) (hn : n.length = 12) (he : e.length = 64) (ht : t.length = 16) :
    pkgPolicy (pack c n e t) = policy3 ++ List.replicate 10 0 ∧ pkgStatus false (pack c n e t) = 0 ∧
      ((c ++ (n ++ (e ++ t))).any (· != 0) = false → pkgStatus true (pack c n e t) = 0) := by
  obtain ⟨h1, h2, h3, -, -, -, -, h4, h5, h6, h7, h8⟩ := pack_fields hc hn he ht
  have hp : pkgPolicy (pack c n e t) = policy3 ++ List.replicate 10 0 := by
    rw [pkgPolicy, h4]; decide
  have hv : mlDsaVerify (pkgOwner (pack c n e t)) ((pack c n e t).take 2660) (pkgSig (pack c n e t)) = true := by
    rw [h5, h6, h7]; exact owner0_verifies _
  refine ⟨hp, ?_, fun hz => ?_⟩
  · have hf : pkgFormBad false (pack c n e t) = false := by
      rw [pkgFormBad, hp, h1, h2, Bool.false_and]; decide
    rw [pkgStatus, hf, h3, hv]; simp
  · have hf : pkgFormBad true (pack c n e t) = false := by
      rw [pkgFormBad, hp, h1, h2, h8, hz]; decide
    rw [pkgStatus, hf, h3, hv]; simp
def zeroBytes (n : Nat) : List Byte := List.replicate n 0
/-- The tag that opens the package of zeros, and one that does not. -/
def tag0 : List Byte :=
  gcmTag (shake (mlKemDecap kemSeed (zeroBytes 1088) ++ ascii "wrap") 32) (zeroBytes 12) policyBytes3 (zeroBytes 64)
theorem tag0_length : tag0.length = 16 := gcmTag_length (shake_length _ _)
theorem pack_opens {t : List Byte} (ht : t.length = 16) :
    (pkgOpen (pack (zeroBytes 1088) (zeroBytes 12) (zeroBytes 64) t)).isSome = (tag0 == t) := by
  obtain ⟨-, -, -, h1, h2, h3, h4, h5, -⟩ := pack_fields (c := zeroBytes 1088) (n := zeroBytes 12) (e := zeroBytes 64)
    List.length_replicate List.length_replicate List.length_replicate ht
  rw [pkgOpen, h1, h2, h3, h4, h5, gcmOpen_isSome]; rfl
theorem map_succ_ne {t : List Byte} (h : t.length = 16) : t ≠ t.map (· + 1) := by
  intro h1
  cases t with
  | nil => cases h
  | cons a t =>
    have := (List.cons.inj h1).1
    bv_omega
/-- A package that opens, one whose tag fails, and one for an update. -/
def goodPack : List Byte := pack (zeroBytes 1088) (zeroBytes 12) (zeroBytes 64) tag0
def badPack : List Byte := pack (zeroBytes 1088) (zeroBytes 12) (zeroBytes 64) (tag0.map (· + 1))
def updatePack : List Byte := pack (zeroBytes 1088) (zeroBytes 12) (zeroBytes 64) (zeroBytes 16)
theorem wit_KeyRequests_package : base.pageOpen 4 = true ∧ base.securityHeld = false ∧
    (pkgStatus false goodPack = 0 ∧ (pkgOpen goodPack).isSome = true ∧ base.slotLoaded 3 = false ∧ base.scrollFits 1 = true ∧
      (keyed id).slotLoaded 3 = true) ∧
    (pkgStatus false badPack = 0 ∧ (pkgOpen badPack).isNone = true) ∧
    (pkgStatus true updatePack = 0 ∧ pkgOwnerHash updatePack = sha3 owner0 ∧ ((pkgPolicy updatePack).getD 5 0).getLsbD 3 = false ∧
      (let s := keyed fun k => { k with policy := [4], owner := sha3 owner0 }
       s.slotLoaded 3 = true ∧ (s.keySlot 3).owner = sha3 owner0 ∧ s.scrollFits 1 = true ∧
         (s.keySlot 3).serial.toNat < ((pkgPolicy updatePack).getD 0 0).toNat) ∧
      (let s := keyed fun k => { k with owner := sha3 owner0 }
       s.slotLoaded 3 = true ∧ (s.keySlot 3).owner = sha3 owner0 ∧
         ((pkgPolicy updatePack).getD 0 0).toNat ≤ (s.keySlot 3).serial.toNat)) := by
  have z (n : Nat) : (zeroBytes n).length = n := List.length_replicate
  have hg := pack_status (z 1088) (z 12) (z 64) tag0_length
  have hb := pack_status (z 1088) (z 12) (z 64) (t := tag0.map (· + 1)) (by rw [List.length_map, tag0_length])
  have hu := pack_status (z 1088) (z 12) (z 64) (z 16)
  have hf := pack_fields (z 1088) (z 12) (z 64) (z 16)
  have hz : (zeroBytes 1088 ++ (zeroBytes 12 ++ (zeroBytes 64 ++ zeroBytes 16))).any (· != 0) = false := by decide +kernel
  refine ⟨by decide, by decide, ⟨hg.2.1, ?_, by decide, by decide, by decide⟩, ⟨hb.2.1, ?_⟩, ⟨hu.2.2 hz, ?_, ?_, ?_, ?_⟩⟩
  · rw [goodPack, pack_opens tag0_length, beq_self_eq_true]
  · have h := pack_opens (t := tag0.map (· + 1)) (by rw [List.length_map, tag0_length])
    rw [beq_eq_false_iff_ne.2 (map_succ_ne tag0_length)] at h
    rw [badPack, ← Option.not_isSome, h]; rfl
  · rw [pkgOwnerHash, updatePack, hf.2.2.2.2.2.2.2.2.1]
  · rw [updatePack, hu.1]; decide
  · refine ⟨by decide, rfl, by decide, ?_⟩
    rw [updatePack, hu.1]; decide
  · refine ⟨by decide, rfl, ?_⟩
    rw [updatePack, hu.1]; decide
theorem wit_KeyRequests : base.pageOpen 4 = true ∧ base.securityHeld = false ∧ pkgStatus false [] ≠ 0 ∧ pkgStatus true [] ≠ 0 ∧ base.nodes = [] ∧ base.caches = [] ∧
    base.reqs = [] ∧ base.channels = [] ∧ base.scrollFits 1 = true ∧ NMap.wf base.keys = true ∧
    ({ base with nodes := [(0, { sealed := true, slot := 3 })] } : State).nodes.any
      (fun (_, n) => n.sealed && n.slot == 3 && n.state != .dead) = true ∧
    (List.replicate 32 (0 : Byte)).length = 32 ∧ base.scroll.staging.length < 4096 ∧
    4096 ≤ ({ base with scroll := { staging := List.replicate 4096 (0, []) } } : State).scroll.staging.length := by
  (repeat' apply And.intro) <;> first | decide | rfl | (simp only [List.length_replicate]; decide)
theorem test_keys : after (exec (.keyLoad 3 []) base) (fun t => t.result 4 == 0x8000000000000001) = true ∧
    after (exec (.hostErase 3) { base with nodes := [(0, { sealed := true, slot := 3 })] }) (fun t => t.result 4 == 0x8000000000000007) = true := by
  decide
def beat1 : Beats := { id := 5, ctx := 1, port := 18, left := 1 }
theorem wit_MetersAndScroll : (keyed fun k => { k with window := 1 }).meterCurrent 3 = false ∧ (keyed id).meterCurrent 3 = true ∧
    (keyed id).securityHeld = false ∧ (keyed id).beats = [] ∧
    (let s := { keyed id with beats := [beat1] }
     beat1.id = 5 ∧ beat1.held = false ∧ s.isHeld (s.portSrc beat1.port) = false ∧ s.meteredSlots beat1.ctx = some [3] ∧
       (s.keySlot 3).lot % 64 = 0 ∧ s.meterHas beat1.port 3 = true ∧ s.metersAway = false) ∧
    (let s := { keyed (fun k => { k with left := 0 }) with beats := [beat1] }
     s.meterHas beat1.port 3 = false ∧ (s.keySlot 3).told.contains beat1.port = false ∧ s.slotLoaded 3 = true ∧ s.scroll.queued = [] ∧
       ((keyed fun k => { k with left := 0, told := [18] }).keySlot 3).told.contains beat1.port = true) ∧
    (let s := { keyed (fun k => { k with left := 0 }) with beats := [beat1], scroll := { queued := [(5, 3, 18)] } }
     s.securityHeld = false ∧ s.isHeld (s.portSrc beat1.port) = false ∧ (s.untold beat1).contains 3 = true ∧ s.scrollFits 1 = true ∧
       s.scroll.since < 254 ∧ s.traced (portDie beat1.port) beat1.ctx 10 = false) ∧
    ({ base with scroll := { staging := List.replicate 4096 (0, []), queued := [(5, 3, 18)] } } : State).scrollFits 1 = false ∧
    base.scroll.queued = [] ∧
    (let s := { base with scroll := { staging := [(0, List.replicate 64 1)] } }
     Safe s ∧ s.boot.state = 2 ∧ s.takingOver 16 = false ∧ 0 < 2 ^ s.ringLog ∧ (List.replicate 64 (1 : Byte)).length = 64) ∧
    (2 ^ base.ringLog ≤ 5000 ∧ base.scroll.archived = none) := by
  have hc (f : KeySlot → KeySlot) := keyed_current f
  refine ⟨?_, ?_, by decide, rfl, by decide, by decide, by decide, ?_, rfl, ?_, by decide⟩
  · rw [State.meterCurrent, hc _ rfl]; decide
  · rw [State.meterCurrent, hc _ rfl]; decide
  · simp [State.scrollFits]
  · (repeat' apply And.intro) <;> first | decide | rfl
/-- R411: a beat without budget is held, and R416: the oldest entry goes to the ring below the top of the partition. -/
theorem test_scroll : after (exec .stagingDrain { base with scroll := { staging := [(0, List.replicate 64 1)] } })
      (fun t => t.scroll.staging.length == 0 && t.mem.readNat 8 (physKey t.ringBase) == 0x0101010101010101) = true ∧
    after (exec (.archivedSeqWrite 9) base) (fun t => t.scroll.archived == some 9) = true := by decide

/-! ### Hosts -/

theorem wit_HostPages : base.pageOpen 0 = true ∧ base.pageOpen 5 = true ∧ 0 < base.parts ∧ base.pagerOk 0 0x8000000900000008 = true ∧
    base.noticeOk 0 8 = true ∧ freshKey 1 base.ctxs < 4096 ∧ (base.ctx 1).inUse = true ∧ base.treeStuck 0 = false ∧
    (let n := 6 + (24 : Nat)
     0x40000000 % 2 ^ n = 0 ∧ (base.rootRange 0 0x40000000 (2 ^ n)).1 = true ∧ base.nodes.length < 2 ^ 22) ∧
    (base.live 1 = true ∧ (base.takeIndex 4 (base.ctx 1).part).map (·.1) = some 0) ∧
    open0.hasRecord (open0.ctx 1).part 1 2 0 = true ∧ base.live 2 = false ∧ base.tableStatus 9 0 0 0 0 0 ≠ 0 ∧
    base.tableStatus 0 0 63 (BitVec.ofNat 64 (2 ^ 63 + 2 ^ 62)) 0x100000 0 = 0 ∧ (0 : Nat) ≠ 3 ∧ realDie 17 = true ∧ base.fenced.contains 17 = false ∧
    ({ base with fenced := [17] } : State).fenced.contains 17 = true ∧ (15 : Nat) < 16 ∧ ownerOk 0x2F = true ∧
    ((0 : Nat) = 0 ∧ nget 1 base.claims 15 = 1) := by decide
/-- R460: the first free context, and its first graph; R450: a page is bound to it. -/
theorem test_host_page : after (exec (.createContext 3 0 0 8 9) base)
      (fun t => t.result 0 == 0x8000000000000200 && (t.ctx 2).tenant == 3 && t.hasRecord 0 2 2 0) = true ∧
    after (exec (.bindPage 1 5 true 1 0 true) open0) (fun t => (t.subPage 1 5).bound && t.result 0 == 0x8000000000000000) = true ∧
    after (exec (.createRoot 0x40000000 24 0 false 0 0) base) (fun t => (t.node 0).rights == 7 && (t.node 0).ctx == 0) = true ∧
    after (exec (.claimWrite 15 0x10 1) base) (fun t => t.result 5 == 0x8000000000000001) = true := by decide
/-- Page 5 of port 1 is bound to graph 0; a message record to endpoint 8 under launch 0. -/
def bound5 : State := { open0 with pages := [(2053, { bound := true, ctx := 1, graph := 0 })] }
/-- The port's own messages fill its send buffer. -/
def crowded5 : State := { bound5 with msgs := List.replicate 64 { msg1 with src := hostSrc 17 } }
def record8 : List Word := [8, BitVec.ofNat 64 (9 * 2 ^ 52 + 2), 70, 71] ++ List.replicate 12 0
def debugging (s : State) : State := { s with debug := [(4, 1)] }
def halted0 (s : State) : State := thr (fun t => { t with wait := .halted }) s
theorem wit_HostRequests : Safe bound5 ∧ bound5.boot.state = 2 ∧ bound5.fenced.contains 17 = false ∧ (bound5.subPage 1 5).bound = true ∧ image0.length = 16 ∧
    (bound5.ctx (bound5.subPage 1 5).ctx).kill = none ∧
    (let ask (s : State) (im : List Word) := (s.toldMaster 0 (s.portFloor 1)).requestLaunch 0 1 (some 0) im (some 2053)
     let still (s : State) (im : List Word) : Bool := !(ask s im).1.waits && (ask s im).2.pages == s.pages && (ask s im).2.busOut == s.busOut
     bound5.masterHeld 0 = false ∧ (ask bound5 image0).1.outcome = 0 ∧ still bound5 image0 = true ∧
       (ask bound5 (image0.set 0 (BitVec.ofNat 64 (2 ^ 63)))).1.outcome = 6 ∧ still bound5 (image0.set 0 (BitVec.ofNat 64 (2 ^ 63))) = true ∧
       (let s : State := { bound5 with elections := [(0, 5)] }
        (ask s image0).1.outcome = 2 ∧ still s image0 = true ∧ s.masterHeld 0 = false ∧ (s.subPage 1 5).bound = true)) ∧
    record8.length = 16 ∧ bound5.messageOutcome 1 (bound5.subPage 1 5) record8 = 0 ∧
    crowded5.messageOutcome 1 (crowded5.subPage 1 5) record8 = 2 ∧ (bound5.subPage 1 6).bound = false ∧
    ((List.replicate 16 (0 : Word)).length = 16 ∧ ((List.replicate 16 (0 : Word)).drop 8).any (· != 0) = false ∧ base.ringFull 31 = false ∧
      base.takingOver (16 + 31 / 16) = false) ∧
    (({ base with callProd := [(31, 256)] } : State).ringFull 31 = true ∧ ({ base with callProd := [(31, 256)] } : State).takingOver 17 = false ∧
      requestPage (.hostKill 1) = some 5 ∧ ((base.setBusy 5).result 5).getLsbD 63 = false ∧ (base.setBusy 5).debugWait = none) ∧
    nget 0 ({ base with callProd := [(31, 2)] } : State).callCons 31 + 2 ≤ nget 0 ({ base with callProd := [(31, 2)] } : State).callProd 31 ∧
    (base.pageOpen 7 = true ∧ base.debugWait = none ∧ base.securityHeld = false ∧ base.live 1 = true ∧ base.dbgOk 1 = true ∧
      base.attached 4 = none ∧ base.scrollFits 1 = true ∧ (debugging base).attached 4 = some 1 ∧ NMap.wf (debugging base).debug = true ∧
      (debugging base).debugAt 4 0 0x5FFF8 none = some 1 ∧ base.meteredSlots 1 = none ∧
      (debugging base).debugAt 4 0 0 (some (0, 43)) = some 1 ∧ ((halted0 (debugging base)).thr (coreEp 0 0)).stopped = true ∧
      (List.range 8).all (fun h => !((idle (debugging base)).thr (coreEp 0 h)).busy) = true ∧
      ((halted0 (debugging base)).core (epCore 0)).bound = some 1 ∧ ((halted0 base).thr 0).wait = .halted ∧
      ((halted0 base).thr 0).gang = none ∧ ((halted0 base).thr 0).rep = none) ∧
    (let v : Word := BitVec.ofNat 64 (2 ^ 32 + 3400)
     1 ≤ fld v 0 12 ∧ fld v 0 12 ≤ 3400 ∧ fld v 32 16 ≠ 0 ∧
       (base.schedOf 0).costs.toList.any (fun c => base.ceiling 0 (fld v 0 12) < c * 1000) = false) ∧
    fld (9 : Word) 0 20 * 1000 ≤ base.ceiling 0 (base.capOf 0) ∧ ((base.schedOf 0).lateNext + 2 ^ 32 - fld (0 : Word) 0 32) % 2 ^ 32 ≤ 256 ∧
    fld (BitVec.ofNat 64 (575 * 2 ^ 16) : Word) 16 10 < 576 ∧ ((7 : Nat) ≠ 8 ∨ (0x010 : Nat) ≠ 0x010) ∧ realDie 31 = true ∧
    NMap.wf base.msixOn = true ∧ (0xFEE00000 : Word).toNat % 4 = 0 ∧ ({ bound5 with fenced := [17] } : State).fenced.contains (16 + 1) = true := by
  (repeat' apply And.intro) <;> first | decide | rfl
/-- R451, R452: a launch and a message of the page's context; R309, R470: registers; R471: a halted thread's register. -/
theorem test_host_requests : after (exec (.submitLaunch 1 5 (.image image0)) bound5) (fun t => (t.subPage 1 5).count == 1 && (t.launch 0 1).inUse) = true ∧
    after (exec (.submitMessage 1 5 record8) bound5) (fun t => t.msgs.map (fun m => (m.dest, m.payload)) == [(8, [70, 71])]) = true ∧
    after (exec (.schedWordWrite 0 (BitVec.ofNat 64 (7 * 2 ^ 32 + 900))) base)
      (fun t => (t.schedOf 0).cap == some 900 && (t.schedOf 0).horizon == 7) = true ∧
    after (exec (.debugRead 4 0 0 (some (0, 16))) (halted0 (debugging (regs (fun r => { r with g := r.g.set 4 44 }) base))))
      (fun t => t.debugWord == 44) = true ∧
    after (exec (.debugResume 4 0) (halted0 (debugging base))) (fun t => t.me.wait == .none && t.me.regs.pc == 8) = true ∧
    after (exec (.hostKill 1) (base.setBusy 5)) (fun t => t.busOut == [.control 5 0 .retry] && (t.ctx 1).kill.isNone) = true := by decide
/-- Port 0 has an inbound window from BAR2 offset 0 to device 0x200000, translated and writable as the table gives it, and a decoder. -/
def windowed : State :=
  { base with
    boot := { base.boot with cfg := 0x300 }
    tables := [(0, (BitVec.ofNat 64 (2 ^ 63 + 2 ^ 62), 0x200000, 0)), (4 * 4096, (BitVec.ofNat 64 (2 ^ 63), 0x200000, 0x10000))] }
/-- Connection 7 belongs to context 1 and node 0x1234, over port 0, with launch 0 as its local launch. -/
def linked : State := { connected base with
  tables := [(tableKey 3 0 7, (BitVec.ofNat 64 (2 ^ 63 + 0x1234 * 2 ^ 32 + 2 ^ 16 + 1), 0, 0))], links := [0, 16, 17] }
def frame1 : Frame := ⟨0, 1, 0, 8, 0, [], true, none⟩
def unacked (r now : Nat) : State := { linked with conns := [(7, { unacked := [frame1], sendSeq := 1, retries := r })], now := now }
theorem wit_Links : Safe windowed ∧ windowed.boot.state = 2 ∧ windowed.isHeld (pcieSrc 16) = false ∧ windowed.reachable 0x200FF8 = true ∧
    nget [] windowed.inbound 0 = [] ∧ windowed.lineHeld 0x200FF8 8 true = false ∧ windowed.inWindow 0 0xFF8 8 = some (true, 0x200FF8) ∧
    windowed.lineHeld 0x200FF8 8 false = false ∧ windowed.sealedIn 0x200FF8 8 = false ∧ windowed.reserved_ 0x200FF8 8 = false ∧
    (windowed.boot.cfg.getLsbD 8 = true ∧ (0x10FC0 : Nat) % 64 = 0 ∧ windowed.decoded 0 0x10FC0 = some 0x200FC0 ∧
      windowed.reachable 0x200FC0 = true ∧ windowed.sealedRoot 0x200FC0 = none ∧ windowed.lineOf (0x200FC0 / 64) = ([], false) ∧
      windowed.oldLine (0x200FC0 / 64) = none) ∧
    (let lctx := fld (linked.tableEntry 3 0 7).1 0 12
     (linked.connPort 7).isSome = true ∧ linked.isHeld (scallinkSrc (linked.connDie 7)) = false ∧
       (nget ({} : Conn) linked.conns 7).unacked = [] ∧ linked.connBusy 7 = false ∧
       (linked.tableEntry 3 0 7).1.getLsbD 63 = true ∧ (linked.ctx lctx).inUse = true ∧ isService 8 = false ∧ validEp 8 = true ∧
       linked.partOf (epCore 8) = (linked.ctx lctx).part ∧ (linked.launch 0 0).inUse = true ∧ (linked.launch 0 0).ctx = lctx ∧
       (linked.launch 0 0).state = .running ∧ (nget ({} : Conn) linked.conns 7).recvSeq < 2 ^ 32 ∧
       5 % 2 ^ 32 ≠ (nget ({} : Conn) linked.conns 7).recvSeq) ∧
    (let s := unacked 0 5440000
     (nget ({} : Conn) s.conns 7).unacked = [frame1] ∧ s.frameOut frame1 = true ∧ 0 + 20 * Config.usTicks ≤ s.now ∧
       (unacked 0 5439999).now < 0 + 20 * Config.usTicks) ∧
    16 ≤ (nget ({} : Conn) (unacked 16 5440000).conns 7).retries ∧
    (linked.fenced.contains (portDie 17) = false ∧ linked.links.contains 17 ≠ false ∧ linked.isHeld (linked.portSrc 17) = false) := by
  (repeat' apply And.intro) <;> first | decide | rfl
/-- A directory with one line more than it can hold, the oldest of them held by port 0. -/
def crammed : State := { windowed with granted := [1], directory := (1, [0], false) :: List.replicate Config.directoryLines (1, [0], false) }
theorem wit_Links_full : crammed.oldLine (0x200FC0 / 64) = some 1 ∧ (crammed.lineOf 1).1 ≠ [] ∧
    crammed.lineOf (0x200FC0 / 64) = ([], false) := by
  have absent : ∀ n : Nat, nget ([], false) (List.replicate n (1, [0], false)) 0x803F = (([], false) : List Nat × Bool) := by
    intro n
    induction n with
    | zero => rfl
    | succ n ih => simpa [List.replicate_succ, nget] using ih
  simp [crammed, State.oldLine, State.lineOf, nget, absent]
/-- R453: a host's write lands; R463: the expected frame is delivered, an earlier one is acknowledged again, and after 16 repeats the
connection is down. -/
theorem test_links : after (exec (.inboundAccess 0 0xFF8 true [1, 2] 0 3) windowed) (fun t => t.mem.readNat 8 0x200FF8 == 0x201) = true ∧
    after (exec (.scallinkFrame 7 0 true (mkHdr 9 0 0 0 0 1 false) 8 0 [55] false 0 false) linked)
      (fun t => t.msgs.map (fun m => (m.dest, m.payload, m.link)) == [(8, [55], some 7)]) = true ∧
    after (exec (.scallinkFrame 7 5 true 0 8 0 [] false 0 false) linked) (fun t => t.busOut == [.ethernet 0 7 (t.frameHead 7 2 0 0) false none]) = true ∧
    after (exec (.scallinkRetransmit 7) (unacked 16 5440000)) (fun t => (t.tableEntry 3 0 7).1.getLsbD 62) = true ∧
    after (exec (.cxlMemRequest 0 0x10FC0 false true []) windowed) (fun t => t.lineOf (0x200FC0 / 64) == ([0], true)) = true := by decide
def booting (st : Nat) (cfg : Word) : State := { base with boot := { state := st, cfg := cfg } }
theorem wit_Boot : Safe base ∧ (booting 1 0).boot.state = 1 ∧ (booting 1 0).boot.cfg.getLsbD 63 = false ∧ (0 : Word).getLsbD 63 = false ∧
    (0x8000000000000001 : Word).getLsbD 63 = true ∧ releaseOk 0x8000000000000001 = true ∧ releaseOk 0x8000FFFF00000001 = false ∧
    base.boot.state ≠ 1 ∧ base.pageOpen 5 = true ∧ (booting 1 0x8000000000000001).arrays = [] ∧ (booting 1 0x8000000000000001).boot.cfg.getLsbD 63 = true ∧ (booting 4 0).boot.state = 4 ∧
    (0xFFFFF8 : Word).toNat % 8 = 0 ∧ (0xFFFFF8 : Word).toNat < 2 ^ 24 ∧ (booting 4 0).boot.recOff < 2 ^ 24 ∧ base.boot.state ≠ 4 ∧
    base.scroll.staging.length < 4096 := by
  (repeat' apply And.intro) <;> first | decide | rfl
/-- R468: a release fixes the partitions; the recovery buffer takes words in order; R467: a warm reset keeps HBM4E and the fences. -/
theorem test_boot : after (exec (.bootRelease 0x8000000000000002) (booting 1 0)) (fun t => t.parts == 4) = true ∧
    after (exec (.recoveryDataWrite 7) (booting 4 0)) (fun t => t.boot.recOff == 8 && t.mem.readNat 8 (recoveryKey 0) == 7) = true ∧
    after (exec .warmReset { base with mem := (base.mem.writeNat 8 0x40 5).writeNat 8 (padKey 0 8) 6, fenced := [3] })
      (fun t => t.mem.readNat 8 0x40 == 5 && t.mem.readNat 8 (padKey 0 8) == 0 && t.fenced == [3] && t.threads == []) = true := by decide

/-! ### Premises and clauses of more statements than one -/

/-- An answer that the thread's trap keeps, a load or a store that may land. -/
theorem wit_Arrivals :
    ((landed (mapped memBase) mc).thr mc).keeps pend9 = false ∧ ((landed base 0).thr 0).keeps pend9 = false ∧
    (onBus.thr mc).keeps pend9 = false ∧ storing.sealedIn 0x101000 4 = false ∧
    (let s := { mk01 0x8000000000001000 0x40 memBase with reqs := [flight mc] }
     s.relWaits .cl = true ∧ checkRef s.curCore reachRecord (s.raw 0 (.nib 1)) 4 = .ok (.pad 0x40)) ∧
    ((mk01 0x8000000000001000 0x40 memBase).relWaits .cl = false ∧
      ((mk01 0x8000000000001000 0x40 memBase).core (mk01 0x8000000000001000 0x40 memBase).curCore).guarded 0x40 = false) := by
  (repeat' apply And.intro) <;> first | decide | rfl
/-- The distributor that the election makes the master holds no slate, or one of its own. -/
theorem wit_Election_held : masterless.isHeld (distributorSrc 1) = false ∧
    ({ masterless with held := [{ heldSlate with src := distributorSrc 1 }] } : State).isHeld (distributorSrc 1) = true := by decide
/-- A stage that keeps forwards or state messages on the way may not retire yet. -/
theorem wit_Stages_bound : (idle stage5).stageBound 0 5 = false ∧
    ({ idle stage5 with msgs := [endMsg] } : State).stageBound 0 5 = true ∧ (stage5.stage 0 5).closing = false ∧
    endMsg.link = none ∧ endMsg.ack = none := by decide
/-- A pre-emption is pending; two undo entries of one thread name different words. -/
theorem wit_Teams_more :
    ((thr (fun t => { t with preempt := some 0x11 }) (trapping base)).thr 0).preempt ≠ none ∧
    List.Pairwise (fun x y : Undo => x.addr + 8 ≤ y.addr ∨ y.addr + 8 ≤ x.addr)
      (((core (fun k => { k with undo := [⟨0, 0x40, 7⟩, ⟨1, 0x40, 9⟩, ⟨0, 0x48, 8⟩] }) base).core 0).undo.filter
        fun u => [0].contains (coreEp 0 u.thread)) := by
  decide
/-- The time base is locked; the new port is not the old one. -/
theorem wit_TimeBase_port : fld (0x101 : Word) 8 4 ≠ fld (timed { state := 2 } 0).boot.time 8 4 ∧ fld (0x101 : Word) 0 2 ≠ 3 ∧
    fld (0x101 : Word) 16 8 < 128 ∧ fld (1 : Word) 8 4 = fld (timed {} 0).boot.time 8 4 ∧ (timed { state := 2 } 0).timeBase.state ≠ 0 := by
  decide
/-- No debug attachment of the context is left. -/
theorem wit_ContextPurge_debug : ∀ q c, (q, c) ∈ (killing 2).debug → c ≠ 1 := by
  intro q c h
  exact absurd h List.not_mem_nil
/-- The unit's start slate enters, or is held; a stop takes no effect yet. -/
theorem wit_Copies_slate :
    (let s := channel0 (fun c => { c with queue := [kick0] }) record0
     let taken := s.setChannel 0 { s.channel 0 with queue := [], kick := some kick0, ref := kick0.head, words := none, stopped := false }
     ((taken.raiseFloor (channelSrc 0) kick0.floor).emit (channelSrc 0) (channelDie 0) kick0.ctx 0x100 0).isHeld (channelSrc 0) = false) ∧
    (let s := { ((channel0 (fun c => { c with queue := [kick0] }) record0).setReg .tmask 1 (channelDie 0) 0xFFFF).setReg .tsink 1
                  (channelDie 0) 0x8000000000000000 with
                shares := [(shareKey (channelDie 0) 1, { segs := 1, lossless := true, faulted := true })] }
     let taken := s.setChannel 0 { s.channel 0 with queue := [], kick := some kick0, ref := kick0.head, words := none, stopped := false }
     ((taken.raiseFloor (channelSrc 0) kick0.floor).emit (channelSrc 0) (channelDie 0) kick0.ctx 0x100 0).isHeld (channelSrc 0) = true) ∧
    ((walking 0 fun c => { c with pieces := [p0] }).channel 0).ending = false ∧ (failing.channel 0).ending = false ∧
    (pinned.channel 0).ending = false := by
  decide
/-- A guard touch stands recorded at a barrier that is not faulted, before the arrival of a CKPT. -/
theorem wit_Barriers_touch :
    (let s := regs (fun r => { r with gtouch := 0x8000000000000000 }) (barriered id base)
     s.me.regs.gtouch.getLsbD 63 = true ∧ s.me.ckptAt = none ∧ ((s.clockHandle 7).handle 7).faulted = false) := by decide
/-- An array keeps its context or gets a new one; the unit that asks, or holds, is on its thread. -/
theorem wit_ArrayGrants_units :
    (let s := thr (fun t => { t with lease := .waiting true }) { base with arrays := [(0, { ctx := some 1, bound := true })] }
     (s.unitThr 0 1).map (·.lease) = some (.waiting true)) ∧
    (let s := array0 (fun x => { x with run := some (.lease 0 1) }) (leased { base with now := 40960 })
     (s.unitThr 0 1).map (·.lease) = some .held ∧ (s.unitThr 0 1).map (·.leaseLast) = some 0) ∧
    ((jobbed (.mprec (mo 0)) (fun x => { x with run := none, bound := false }) id { state := 1 }).arr 0).ctx = some 1 ∧
    (let s := jobbed (.mprec (mo 0)) (fun x => { x with run := none, bound := false, ctx := some 2 }) id { state := 1 }
     (s.chooseOffer 0 (s.coreOffers 0 fun _ => true)).map (·.ctx) = some 1 ∧ (s.arr 0).ctx ≠ some 1 ∧ NMap.wf (s.arr 0).table = true) := by
  decide
/-- A sealed root with and without a bad status; a grant that lost its node, at its round's end. -/
theorem wit_Tree_more :
    (let s := treed (.createRoot 0x40000000 10 3 1) id
     nget [] s.treeQ 0 = [⟨.nobody, 1, .createRoot 0x40000000 10 3 1, 0⟩] ∧ s.treeStuck 0 = false) ∧
    (let o := opOf fun o => { o with fin := .grant 3 0x1020000 3 77 2 5 9, dies := some [], after := [0], round := some ⟨16, 0, [], [], 0⟩,
                                     asker := .thread 0 1 9 0 }
     let s := { opened fun _ => o with treeOps := [o] }
     s.findOp 6 = some o ∧ o.fin.isGrant = true ∧ o.after ≠ [] ∧ s.stillUses ⟨16, 0, [], [], 0⟩ = false ∧ s.isHeld (walkerSrc 16) = false ∧
       s.unitHere 0 1 = true ∧ o.marks = [] ∧ s.traced 16 o.ctx 9 = false ∧ s.isHeld (s.treePool o.part) = false ∧
       s.takingOver (treeDie o.part) = false) ∧
    (let o := opOf fun o => { o with marks := [0, 1] }
     o.dies = none) := by
  (repeat' apply And.intro) <;> first | decide | rfl
/-- A message over a link may start at its endpoint. -/
theorem wit_Links_message :
    (let m : Msg := { msg1 with link := some 7 }
     let s : State := { idle (handlers linked) with msgs := [m] }
     s.findMsg 5 = some m ∧ m.refused = false ∧ m.link = some 7 ∧ s.staleLink m = none ∧ Startable s { m with link := none } 0 0x100 0) ∧
    linked.connPort 7 = some 0 := by
  (repeat' apply And.intro) <;> first | decide | rfl

/-! ### The machine as a whole -/

theorem wit_IntegerResults : (Instr.add .i32 ⟨.nib 3, .nib 1, .imm, 5⟩).wf = true ∧
    integerTable base (.add .i32 ⟨.nib 3, .nib 1, .imm, 5⟩) = some (.nib 3, 5) := by decide

/-- Thread 0's turn, before an ADD that reads k1. -/
def turn (s : State) : State := { s with agenda := [.thread 0] }
def adding : State := turn { base with mem := base.mem.writeNat 8 (padKey 0 0) 0x000000050D570804 }
def addI : Instr := .add .i32 ⟨.nib 3, .nib 1, .imm, 5⟩
/-- The premises of a turn: what the thread is about to do is the only thing that stands in its way. -/
def free (s : State) (ep : Nat) : Bool :=
  let t := s.thr ep
  t.busy && !s.fenced.contains (epDie ep) && t.trapPend.isNone && !s.isHeld ep && t.wait == .none && t.rback.isNone &&
    t.preempt.isNone && t.gang.isNone
theorem wit_StepRunsDecoded_fetch : addI.wf = true ∧ (encode addI).map (·.bytes) = some [0x04, 0x08, 0x57, 0x0D, 5, 0, 0, 0] ∧
    (encode addI).map (·.size) = some 8 ∧
    ((List.range 8).all fun j => adding.mem.read (padKey 0 0 + j) == [0x04, 0x08, 0x57, 0x0D, 5, 0, 0, 0].getD j 0) = true ∧
    0 + 8 ≤ 0x60000 ∧ 0 % 32 + 8 ≤ 32 ∧ (encode addI).map (·.runsOn (engineOf 0)) = some true := by decide
theorem wit_StepRunsDecoded : adding.nextMove.1 = .thread 0 ∧ free adding 0 = true ∧ (adding.thr 0).rep = none ∧
    fetchAt adding.mem (epCore 0) (adding.thr 0).regs.pc.toNat = .ok (addI, 8) ∧ adding.nextMove.2.hasTurn 0 = true ∧
    (adding.thr 0).conflicts addI = false ∧ ({ adding with cur := 0 } : State).orderHolds 0 addI = false ∧
    after (step adding) (fun t => t.w0 == 5 && (t.thr 0).regs.k[3] == 5 && (t.thr 0).regs.pc == 8) = true := by
  (repeat' apply And.intro) <;> first | decide | rfl
/-- A word of zeros raises the reserved-instruction fault. -/
theorem wit_StepRunsDecoded_error : (turn base).nextMove.1 = .thread 0 ∧ free (turn base) 0 = true ∧
    (turn base).nextMove.2.hasTurn 0 = true ∧
    fetchAt base.mem 0 0 = .error .unassigned ∧
    base.me.conflicts (.reservedInstruction .unassigned 0 (fetchDetail base.mem 0 0)) = false ∧
    base.orderHolds 0 (.reservedInstruction .unassigned 0 (fetchDetail base.mem 0 0)) = false := by
  (repeat' apply And.intro) <;> first | decide | rfl
/-- A repetition runs its body; an ADD of a register that a load will write waits. -/
theorem wit_StepRunsDecoded_repeat :
    let s := turn (thr (fun t => { t with rep := some body }) withBody)
    let p := turn (thr (fun t => { t with pend := [⟨9, none, some 1, false, none, none⟩] }) adding)
    free s 0 = true ∧ s.nextMove.2.hasTurn 0 = true ∧ (s.thr 0).rep = some body ∧ (body.body[body.idx]?).map (·.2) = some addI ∧
    (s.thr 0).conflicts addI = false ∧ s.orderHolds 0 addI = false ∧
    free p 0 = true ∧ fetchAt p.mem 0 0 = .ok (addI, 8) ∧ (p.thr 0).conflicts addI = true := by
  (repeat' apply And.intro) <;> first | decide | rfl
/-- Another thread of the core is ahead, so its turn leaves things as they are. -/
theorem wit_StepRunsDecoded_behind :
    let s := { adding.updThr 1 fun _ => { busy := true, unit := { uid := 2 } } with agenda := [.thread 1] }
    s.nextMove.1 = .thread 1 ∧ free s 1 = true ∧ (s.thr 1).rep = none ∧ fetchAt s.mem 0 0 = .ok (addI, 8) ∧
      (s.thr 1).conflicts addI = false ∧ ({ s with cur := 1 } : State).orderHolds 1 addI = false ∧
      s.nextMove.2.hasTurn 1 = false := by
  (repeat' apply And.intro) <;> first | decide | rfl
/-- An event's move. -/
theorem wit_StepRunsDecoded_event : ({ base with agenda := [.event .powerOnReset] } : State).nextMove.1 = .event .powerOnReset ∧
    isEvent .powerOnReset = true ∧ (turn base).agenda = .thread 0 :: [] := by
  (repeat' apply And.intro) <;> first | decide | rfl

theorem wit_DecodeEncode : addI.wf = true ∧ (encode addI).isSome = true ∧
    ((encode addI).bind fun e => (decodeEnc e).toOption) = some addI ∧
    (decodeBytes ([0x04, 0x08, 0x57, 0x0D, 5, 0, 0, 0, 0xD8])).toOption = some (addI, [0xD8]) := by decide

/-- All zeros and all ones at the first window, and the least and the greatest major of each unassigned range. -/
theorem wit_UnassignedWords : 0 + 8 ≤ 0x60000 ∧ 0 % 32 + 8 ≤ 32 ∧ base.mem.readNat 8 (padKey 0 0) = 0 ∧
    (base.mem.writeNat 8 (padKey 0 0) (2 ^ 64 - 1)).readNat 8 (padKey 0 0) = 2 ^ 64 - 1 ∧
    ([0x1B, 0x3F, 0x46, 0x5F, 0x6C, 0xFF].all fun k : Nat => (0x1B ≤ k && k < 0x40) || (0x46 ≤ k && k < 0x60) || 0x6C ≤ k) =
      true ∧
    ([0x10, 0x1F, 0x26, 0x2F, 0x36, 0x3F, 0x41, 0xFF].all fun k : Nat =>
      (0x10 ≤ k && k < 0x20) || (0x26 ≤ k && k < 0x30) || (0x36 ≤ k && k < 0x40) || 0x41 ≤ k) = true := by decide

theorem wit_MemoryStaysCanonical : Safe adding ∧ after (step adding) (fun t => t.mem.wf) = true := by
  unfold Safe; decide
/-- A store of 0x55 at address 8. -/
def storeTurn : State :=
  turn (k01 8 0x55 { base with mem := base.mem.writeNat 8 (padKey 0 0) (w64 0x61 (8 * 0 + 2) 0 4 5 0 0) })
theorem wit_MemoryStaysCanonical_store : Safe storeTurn ∧
    after (step storeTurn) (fun t => t.mem.wf && t.mem.readNat 4 (padKey 0 8) == 0x55) = true := by
  unfold Safe; decide

end Sys2Proof.Tests
end

section
/-!
SUPPORT. What the operations behind the system instructions leave alone: the forming of slates, the completion of launches,
the tearing down of a sink, and the writes of system registers; and what each of them writes.
-/
namespace Sys2Proof.Machine

/-! ### Slates (R276, R280, R282, R288) -/

/-- What forming and admitting slates may change: the last reels with their places, floors and stamps, shares and held slates. -/
def TraceOnly (s t : State) : Prop :=
  { t with mem := s.mem, floors := s.floors, stamps := s.stamps, shares := s.shares, held := s.held,
           reelNext := s.reelNext } = s

theorem TraceOnly.refl (s : State) : TraceOnly s s := rfl

theorem TraceOnly.trans {s t u : State} (h : TraceOnly s t) (h' : TraceOnly t u) : TraceOnly s u := by
  unfold TraceOnly at h h' ⊢
  rw [← h'] at h
  exact h

theorem TraceOnly.threads {s t : State} (h : TraceOnly s t) : t.threads = s.threads := by
  have := congrArg State.threads h; exact this
theorem TraceOnly.cur {s t : State} (h : TraceOnly s t) : t.cur = s.cur := by
  have := congrArg State.cur h; exact this
theorem TraceOnly.msgs {s t : State} (h : TraceOnly s t) : t.msgs = s.msgs := by
  have := congrArg State.msgs h; exact this

theorem State.stamp_traceOnly (s : State) (src die : Nat) : TraceOnly s (s.stamp src die).2 := rfl

theorem State.reel_traceOnly (s : State) (die : Nat) (x : Slate) : TraceOnly s (s.reel die x) := by
  unfold State.reel
  split <;> rfl

theorem State.setShare_traceOnly (s : State) (die sink : Nat) (x : Share) : TraceOnly s (s.setShare die sink x) := rfl
theorem State.pushSlates_traceOnly (s : State) (die sink : Nat) (xs : List Slate) : TraceOnly s (s.pushSlates die sink xs) := rfl
theorem State.holdSlate_traceOnly (s : State) (h : Held) : TraceOnly s (s.holdSlate h) := rfl

theorem State.sideSlate_traceOnly (s : State) (die sink time code ctx src payload : Nat) :
    TraceOnly s (s.sideSlate die sink time code ctx src payload).2 := by
  unfold State.sideSlate
  dsimp only
  split
  · exact s.reel_traceOnly _ _
  · exact TraceOnly.refl s

theorem State.admitSlate_traceOnly (s : State) (who src die sink ctx : Nat) (x : Slate) (completes : Bool) :
    TraceOnly s (s.admitSlate who src die sink ctx x completes) := by
  unfold State.admitSlate
  dsimp only
  split
  · exact TraceOnly.refl s
  · split
    · split
      · exact s.pushSlates_traceOnly _ _ _
      · exact s.holdSlate_traceOnly _
    · split
      · split
        · exact s.pushSlates_traceOnly _ _ _
        · exact s.setShare_traceOnly _ _ _
      · split
        · -- the drops slate goes ahead of the slate (R282)
          exact (s.stamp_traceOnly src die).trans <| (State.sideSlate_traceOnly _ _ _ _ _ _ _ _).trans <|
            (State.setShare_traceOnly _ _ _ _).trans (State.pushSlates_traceOnly _ _ _ _)
        · exact s.setShare_traceOnly _ _ _

theorem State.admitAll_traceOnly (s : State) (who src die ctx : Nat) (completes : Bool) (xs : List (Nat × Slate)) :
    TraceOnly s (s.admitAll who src die ctx completes xs) := by
  induction xs generalizing s with
  | nil => exact TraceOnly.refl s
  | cons x xs ih => exact (s.admitSlate_traceOnly _ _ _ _ _ _ _).trans (ih _)

theorem State.holdAll_traceOnly (s : State) (who die ctx : Nat) (xs : List (Nat × Slate)) :
    TraceOnly s (s.holdAll who die ctx xs) := by
  induction xs generalizing s with
  | nil => exact TraceOnly.refl s
  | cons x xs ih => exact (s.holdSlate_traceOnly _).trans (ih _)

theorem State.form_traceOnly (s : State) (who src die ctx code payload : Nat) (ext : Option (Word × Word)) (time : Nat)
    (hideHost completes : Bool) :
    TraceOnly s (s.form who src die ctx code payload ext time hideHost completes) := by
  unfold State.form
  dsimp only
  generalize (if ext.isSome = true then code ||| 0x400 else code) = code'
  split
  · have h := s.reel_traceOnly die (hostCopy hideHost time code' ctx src payload ext)
    split
    · exact h.trans (State.holdAll_traceOnly _ _ _ _ _)
    · exact h.trans (State.admitAll_traceOnly _ _ _ _ _ _ _)
  · split
    · exact s.holdAll_traceOnly _ _ _ _
    · exact s.admitAll_traceOnly _ _ _ _ _ _

/-- An event's slate changes nothing outside the trace fabric and the time floors. -/
theorem State.emitX_traceOnly (s : State) (src die ctx code payload : Nat) (ext : Option (Word × Word)) (completes : Bool) :
    TraceOnly s (s.emitX src die ctx code payload ext completes) := by
  unfold State.emitX
  split
  · exact (s.stamp_traceOnly src die).trans (State.form_traceOnly _ _ _ _ _ _ _ _ _ _ _)
  · exact TraceOnly.refl s

theorem State.emit_traceOnly (s : State) (src die ctx code payload : Nat) : TraceOnly s (s.emit src die ctx code payload) :=
  s.emitX_traceOnly _ _ _ _ _ _ _

/-! ### Threads that an operation leaves alone -/

/-- No thread has changed, and the same one acts. -/
def ThreadsKept (s t : State) : Prop := t.threads = s.threads ∧ t.cur = s.cur

theorem ThreadsKept.refl (s : State) : ThreadsKept s s := ⟨rfl, rfl⟩
theorem ThreadsKept.trans {s t u : State} (h : ThreadsKept s t) (h' : ThreadsKept t u) : ThreadsKept s u :=
  ⟨h'.1.trans h.1, h'.2.trans h.2⟩
theorem TraceOnly.threadsKept {s t : State} (h : TraceOnly s t) : ThreadsKept s t := ⟨h.threads, h.cur⟩

theorem ThreadsKept.thr {s t : State} (h : ThreadsKept s t) (ep : Nat) : t.thr ep = s.thr ep := by
  unfold State.thr; rw [h.1]
theorem ThreadsKept.me {s t : State} (h : ThreadsKept s t) : t.me = s.me := by
  unfold State.me; rw [h.thr, h.2]

/-! ### Launches that complete (R45, R297, R334) -/

theorem State.promoteSlots_threadsKept (s : State) (part graph : Nat) (xs : NMap Slot) :
    ThreadsKept s (s.promoteSlots part graph xs) := by
  induction xs generalizing s with
  | nil => exact ThreadsKept.refl s
  | cons x xs ih =>
    unfold State.promoteSlots
    refine ThreadsKept.trans ?_ (ih _)
    split
    · split <;> exact ⟨rfl, rfl⟩
    · exact ThreadsKept.refl s

theorem State.promote_threadsKept (s : State) (part : Nat) (is : List Nat) : ThreadsKept s (s.promote part is) := by
  induction is generalizing s with
  | nil => exact ThreadsKept.refl s
  | cons i is ih =>
    unfold State.promote
    refine ThreadsKept.trans ?_ (ih _)
    split
    · exact ThreadsKept.refl s
    · split
      · exact s.promoteSlots_threadsKept _ _ _
      · exact ThreadsKept.refl s

theorem State.updLevel_threadsKept (s : State) (lvl part i : Nat) (f : Level → Level) :
    ThreadsKept s (s.updLevel lvl part i f) := ⟨rfl, rfl⟩
theorem State.giveIndex_threadsKept (s : State) (lvl part i : Nat) : ThreadsKept s (s.giveIndex lvl part i) := ⟨rfl, rfl⟩
theorem State.updLaunch_threadsKept (s : State) (part tag : Nat) (f : Launch → Launch) :
    ThreadsKept s (s.updLaunch part tag f) := ⟨rfl, rfl⟩

theorem State.settleLevel_threadsKept (s : State) (lvl part i : Nat) : ThreadsKept s (s.settleLevel lvl part i) := by
  unfold State.settleLevel
  dsimp only
  split
  · split
    · exact (s.updLevel_threadsKept lvl part i _).trans (State.giveIndex_threadsKept _ lvl part i)
    · exact (s.updLevel_threadsKept lvl part i _).trans <| (State.giveIndex_threadsKept _ lvl part i).trans
        (State.updLevel_threadsKept _ _ _ _ _)
  · exact ThreadsKept.refl s

theorem State.settleGraph_threadsKept (s : State) (part graph : Nat) : ThreadsKept s (s.settleGraph part graph) :=
  (s.settleLevel_threadsKept 2 part graph).trans <| (State.settleLevel_threadsKept _ 3 part _).trans <|
    (State.settleLevel_threadsKept _ 4 part _).trans (State.promote_threadsKept _ part _)

theorem State.joinWalk_threadsKept (s : State) (die who ctx va : Nat) : ThreadsKept s (s.joinWalk die who ctx va) := by
  unfold State.joinWalk
  dsimp only
  split
  · exact ThreadsKept.refl s
  · split
    · refine ThreadsKept.trans ?_ (State.emit_traceOnly _ _ _ _ _ _).threadsKept
      exact ⟨rfl, rfl⟩
    · exact ⟨rfl, rfl⟩

theorem State.joinReq_threadsKept (s : State) (r : Req) : ThreadsKept s (s.joinReq r) := by
  unfold State.joinReq
  split
  · exact ThreadsKept.refl s
  · exact s.joinWalk_threadsKept _ _ _ _

theorem State.completionEntry_threadsKept (s : State) (part tag : Nat) (l : Launch) :
    ThreadsKept s (s.completionEntry part tag l) := by
  unfold State.completionEntry
  split
  · refine ThreadsKept.trans ?_ (State.joinReq_threadsKept _ _)
    exact ⟨rfl, rfl⟩
  · exact ThreadsKept.refl s

/-- The completion of a launch changes records, requests and slates, and no thread. -/
theorem State.settleLaunch_threadsKept (s : State) (part tag : Nat) : ThreadsKept s (s.settleLaunch part tag) := by
  unfold State.settleLaunch
  dsimp only
  split
  · exact (s.updLaunch_threadsKept part tag _).trans <| (State.emit_traceOnly _ _ _ _ _ _).threadsKept.trans <|
      (State.completionEntry_threadsKept _ _ _ _).trans <| (State.giveIndex_threadsKept _ _ _ _).trans <|
      (State.updLevel_threadsKept _ _ _ _ _).trans (State.settleGraph_threadsKept _ _ _)
  · exact ThreadsKept.refl s

theorem State.settleLaunches_threadsKept (s : State) (part : Nat) (tags : List Nat) :
    ThreadsKept s (s.settleLaunches part tags) := by
  induction tags generalizing s with
  | nil => exact ThreadsKept.refl s
  | cons t ts ih => exact (s.settleLaunch_threadsKept part t).trans (ih _)

theorem State.resumeMaster_threadsKept (s : State) (who : Nat) : ThreadsKept s (s.resumeMaster who) := by
  unfold State.resumeMaster
  split
  · exact ThreadsKept.refl s
  · dsimp only
    split
    · exact s.settleLaunches_threadsKept _ _
    · exact ThreadsKept.refl s

/-! ### Emitters that resume (R50, R283, R286) -/

/-- A change of a thread's record that is none of its registers. -/
theorem State.updThr_regs_kept (s : State) (who ep : Nat) (f : Thread → Thread) (hf : ∀ t, (f t).regs = t.regs) :
    ((s.updThr who f).thr ep).regs = (s.thr ep).regs := by
  rw [State.updThr_thr]
  split
  · subst ep; exact hf _
  · rfl

theorem State.updThr_me {s : State} {ep : Nat} {f : Thread → Thread} (h : ep = s.cur) : (s.updThr ep f).me = f s.me := by
  subst h; exact s.upd_me f

@[simp] theorem State.forward_give_cur (x : Ahead) (ms : List Nat) (s : State) : (State.forward.give x ms s).cur = s.cur := by
  induction ms generalizing s with
  | nil => rfl
  | cons m ms ih => exact ih _

@[simp] theorem State.forward_give_regs (x : Ahead) (ms : List Nat) (s : State) (ep : Nat) :
    ((State.forward.give x ms s).thr ep).regs = (s.thr ep).regs := by
  induction ms generalizing s with
  | nil => rfl
  | cons m ms ih =>
    exact (ih _).trans (s.updThr_regs_kept _ _ _ fun _ => rfl)

/-- A completed instruction is dropped, or joins the queues of the followers, or leaves the queue of its own thread. -/
theorem State.forward_cases (before after : State) (who : Nat) (i : Instr) :
    before.forward after who i = after ∨ (∃ x ms, before.forward after who i = State.forward.give x ms after) ∨
      before.forward after who i = after.updThr who fun t => { t with ahead := t.ahead.drop 1 } := by
  unfold State.forward
  dsimp only
  cases (before.thr who).gang with
  | none => exact .inl rfl
  | some g =>
    dsimp only
    by_cases hdrop : ((before.thr who).trap || (after.thr who).gang != some g ||
        (after.thr who).retired == (before.thr who).retired) = true
    · simp [hdrop]
    · rw [if_neg hdrop]
      by_cases hl : g.isLeader = true
      · rw [if_pos hl]
        split
        · exact .inl rfl
        · exact .inr (.inl ⟨_, _, rfl⟩)
      · rw [if_neg hl]
        exact .inr (.inr rfl)

@[simp] theorem State.forward_cur (before after : State) (who : Nat) (i : Instr) :
    (before.forward after who i).cur = after.cur := by
  obtain h | ⟨x, ms, h⟩ | h := before.forward_cases after who i <;> rw [h]
  · exact State.forward_give_cur x ms after
  · rfl

@[simp] theorem State.forward_regs (before after : State) (who : Nat) (i : Instr) (ep : Nat) :
    ((before.forward after who i).thr ep).regs = (after.thr ep).regs := by
  obtain h | ⟨x, ms, h⟩ | h := before.forward_cases after who i <;> rw [h]
  · exact State.forward_give_regs x ms after ep
  · exact after.updThr_regs_kept who ep _ fun _ => rfl

@[simp] theorem State.resumeEmitter_cur (s : State) (who since : Nat) : (s.resumeEmitter who since).cur = s.cur := by
  unfold State.resumeEmitter
  dsimp only
  split
  · rfl
  · split
    · exact (s.resumeMaster_threadsKept who).2
    · split
      · exact State.forward_cur _ _ _ _
      · rfl

/-- An emitter that resumes ends its own instruction: the registers of every other thread stay. -/
theorem State.resumeEmitter_regs_other (s : State) {who ep : Nat} (since : Nat) (h : ep ≠ who) :
    ((s.resumeEmitter who since).thr ep).regs = (s.thr ep).regs := by
  unfold State.resumeEmitter
  dsimp only
  split
  · rfl
  · split
    · rw [(s.resumeMaster_threadsKept who).thr]
    · split
      · rw [State.forward_regs, State.updThr_thr, if_neg h, State.updThr_thr, if_neg h]
      · rw [State.updThr_thr, if_neg h]

/-! ### A sink that is torn down (R283) -/

@[simp] theorem State.dropHeld_go_cur (hs : List Held) (s : State) : (State.dropHeld.go hs s).cur = s.cur := by
  induction hs generalizing s with
  | nil => rfl
  | cons h hs ih => exact (ih _).trans (s.resumeEmitter_cur _ _)

theorem State.dropHeld_go_regs_other {ep : Nat} (hs : List Held) (s : State) (hn : ∀ h ∈ hs, ep ≠ h.src) :
    ((State.dropHeld.go hs s).thr ep).regs = (s.thr ep).regs := by
  induction hs generalizing s with
  | nil => rfl
  | cons h hs ih =>
    have hrest : ∀ x ∈ hs, ep ≠ x.src := fun x hx => hn x (List.mem_cons_of_mem h hx)
    exact (ih _ hrest).trans (s.resumeEmitter_regs_other _ (hn h List.mem_cons_self))

theorem State.not_holding {s : State} {ep : Nat} (h : s.holding ep = false) : ∀ x ∈ s.held, ep ≠ x.src := by
  intro x hx he
  have := List.any_eq_false.mp h x hx
  simp [he] at this

@[simp] theorem State.closeSink_cur (s : State) (tenant : Nat) : (s.closeSink tenant).cur = s.cur :=
  State.dropHeld_go_cur _ _

/-- Tearing down a sink changes no register of a thread that holds no slate. -/
theorem State.closeSink_regs {s : State} {ep : Nat} (tenant : Nat) (h : s.holding ep = false) :
    ((s.closeSink tenant).thr ep).regs = (s.thr ep).regs :=
  State.dropHeld_go_regs_other _ _ fun x hx => State.not_holding h x (List.mem_filter.mp hx).1

theorem State.closeSink_me_regs {s : State} (tenant : Nat) (h : s.holding s.cur = false) :
    (s.closeSink tenant).me.regs = s.me.regs := by
  unfold State.me
  rw [State.closeSink_cur]
  exact State.closeSink_regs tenant h

/-! ### A sink that is set up (R283) -/

/-- Opening shares changes the shares. -/
theorem State.openSink_open_eq (segs : Nat) (lossless : Bool) (tenant : Nat) (ds : List Nat) (s : State) :
    ∃ shares, State.openSink.open_ segs lossless tenant ds s = { s with shares := shares } := by
  induction ds generalizing s with
  | nil => exact ⟨s.shares, rfl⟩
  | cons d ds ih => exact ih _

/-- A sink that is set up is valid and the context's; beside it only shares change. -/
theorem State.openSink_some {s u : State} {tenant ctx : Nat} {tsink tsinkc : Word}
    (h : s.openSink tenant ctx tsink tsinkc = some u) :
    ∃ (x : Sink) (shares : NMap Share), x.valid = true ∧ x.ctx = ctx ∧
      u = { s with sinks := nset s.sinks tenant x, shares := shares } := by
  unfold State.openSink at h
  dsimp only at h
  split at h
  · cases h
  · cases h
    obtain ⟨shares, hopen⟩ := State.openSink_open_eq _ _ tenant _ _
    exact ⟨_, shares, rfl, rfl, hopen⟩

/-! ### The end of an instruction that has done something first (R62) -/

@[simp] theorem State.done_me (s : State) (len : Nat) : (s.done len).me = s.me.advance len := s.upd_me _

@[simp] theorem Thread.advance_vl (t : Thread) (len : Nat) : (t.advance len).regs.vl = t.regs.vl := by
  obtain ⟨_, _, _, h⟩ := t.advance_cases len; rw [h]
@[simp] theorem Thread.advance_ba (t : Thread) (len : Nat) : (t.advance len).regs.ba = t.regs.ba := by
  obtain ⟨_, _, _, h⟩ := t.advance_cases len; rw [h]
@[simp] theorem Thread.advance_rq (t : Thread) (len : Nat) : (t.advance len).rq = t.rq := by
  obtain ⟨_, _, _, h⟩ := t.advance_cases len; rw [h]

/-- Between `s` and `u` the acting thread has not moved or pushed, and no other thread has changed. -/
def Steady (s u : State) : Prop :=
  u.cur = s.cur ∧ u.me.rep = s.me.rep ∧ u.me.regs.pc = s.me.regs.pc ∧ NoPush s u ∧ OthersSame s u

theorem ThreadsKept.steady {s u : State} (h : ThreadsKept s u) : Steady s u := by
  refine ⟨h.2, ?_, ?_, ⟨?_, ?_⟩, fun ep _ => h.thr ep⟩ <;> rw [h.me]

/-- A change of the acting thread's record that keeps its place and its pushes. -/
theorem State.upd_steady (s : State) {f : Thread → Thread} (hrep : (f s.me).rep = s.me.rep)
    (hpc : (f s.me).regs.pc = s.me.regs.pc) (hw : (f s.me).regs.w = s.me.regs.w) (hk : (f s.me).regs.k = s.me.regs.k) :
    Steady s (s.upd f) := by
  refine ⟨rfl, ?_, ?_, ⟨?_, ?_⟩, fun _ h => s.upd_thr_other f h⟩ <;> rw [State.upd_me] <;> assumption

/-- The end of an instruction moves the pc, whatever the instruction has done beside. -/
theorem Steady.done {s u : State} (h : Steady s u) (len : Nat) :
    Over s (u.done len) len ∧ NoPush s (u.done len) ∧ OthersSame s (u.done len) := by
  obtain ⟨hcur, hrep, hpc, ⟨hw, hk⟩, hothers⟩ := h
  refine ⟨fun h0 => ?_, ⟨?_, ?_⟩, fun _ hep => ?_⟩
  · rw [← hpc]; exact (u.done_passed len).1 (hrep.trans h0)
  · rw [State.done_me, Thread.advance_w, hw]
  · rw [State.done_me, Thread.advance_k, hk]
  · exact (u.upd_thr_other _ (hcur.symm ▸ hep)).trans (hothers _ hep)

/-- An instruction that changes the acting thread's record alone, and ends. -/
theorem State.upd_done_onlyMe (s : State) (f : Thread → Thread) (len : Nat) : OnlyMe s ((s.upd f).done len) :=
  ⟨rfl, fun _ h => ((s.upd f).upd_thr_other _ h).trans (s.upd_thr_other f h)⟩

/-! ### The replay queue (R425, R444) -/

/-- A word other than the first reads as it was written. -/
theorem RqEntry.words_write {i : BitVec 2} (e : RqEntry) (v : Word) (hi : i ≠ 0) :
    (e.write i v).words.getD i.toNat 0 = v := by
  have hcases : i = 1 ∨ i = 2 ∨ i = 3 := by revert hi; revert i; decide
  obtain rfl | rfl | rfl := hcases <;> rfl

section
variable {s : State} {a : Src} {e : Fin 16} {w : BitVec 2}

/-- Outside trap mode both instructions are reserved. -/
theorem execRqread_reserved (d : Dst) (ht : s.me.trap = false) : execRqread d e w s = .next s.reserved := by
  unfold execRqread
  rw [if_pos (by rw [ht]; rfl)]

theorem execRqwrite_reserved (ht : s.me.trap = false) : execRqwrite a e w s = .next s.reserved := by
  unfold execRqwrite
  dsimp only
  rw [if_pos (by rw [ht]; rfl)]

/-- RQREAD in trap mode. -/
theorem execRqread_reads (d : Dst) (ht : s.me.trap = true) :
    execRqread d e w s = .next (s.finish d ((s.me.rq.getD e.val {}).words.getD w.toNat 0) 8) := by
  unfold execRqread
  rw [if_neg (by rw [ht]; exact Bool.false_ne_true)]
  rfl

/-- RQWRITE makes no entry valid. -/
theorem execRqwrite_invalid (ht : s.me.trap = true) (hv : (s.raw 0 a).getLsbD 63 = true)
    (he : (s.me.rq.getD e.val {}).valid = false) : execRqwrite a e 0 s = .next (s.raise 0x06 (s.raw 0 a)) := by
  unfold execRqwrite
  dsimp only
  rw [if_neg (by rw [ht]; exact Bool.false_ne_true), if_pos (by rw [hv, he]; rfl)]

/-- RQWRITE in trap mode, of a word other than the first. -/
theorem execRqwrite_write (ht : s.me.trap = true) (hw : w ≠ 0) :
    execRqwrite a e w s = .next ((s.upd fun t =>
      { t with rq := t.rq.set e.val ((s.me.rq.getD e.val {}).write w (s.raw 0 a)) }).done 8) := by
  unfold execRqwrite
  dsimp only
  rw [if_neg (by rw [ht]; exact Bool.false_ne_true), if_neg (by rw [beq_false_of_ne hw]; exact Bool.false_ne_true)]

/-- The entry written reads as it was written, and the others keep their words. -/
theorem execRqwrite_entries (ht : s.me.trap = true) (hw : w ≠ 0) (hl : s.me.rq.length = 16) :
    ∃ t, execRqwrite a e w s = .next t ∧ Over s t 8 ∧ NoPush s t ∧ OnlyMe s t ∧
      (∀ j : Fin 16, j ≠ e → t.me.rq.getD j.val {} = s.me.rq.getD j.val {}) ∧
      (t.me.rq.getD e.val {}).words.getD w.toNat 0 = s.raw 0 a := by
  refine ⟨_, execRqwrite_write ht hw, ?_⟩
  generalize hentry : (s.me.rq.getD e.val {}).write w (s.raw 0 a) = entry
  obtain ⟨hover, hpush, -⟩ := (s.upd_steady (f := fun t => { t with rq := t.rq.set e.val entry }) rfl rfl rfl rfl).done 8
  have hrq : ((s.upd fun t => { t with rq := t.rq.set e.val entry }).done 8).me.rq = s.me.rq.set e.val entry := by
    rw [State.done_me, Thread.advance_rq, State.upd_me]
  refine ⟨hover, hpush, s.upd_done_onlyMe _ 8, fun j hj => ?_, ?_⟩
  · have hne : e.val ≠ j.val := fun h => hj (Fin.ext h.symm)
    rw [hrq, List.getD_eq_getElem?_getD, List.getElem?_set_ne hne, ← List.getD_eq_getElem?_getD]
  · have hlt : e.val < s.me.rq.length := by rw [hl]; exact e.isLt
    rw [hrq, List.getD_eq_getElem?_getD (l := s.me.rq.set _ _), List.getElem?_set_self hlt, Option.getD_some, ← hentry]
    exact RqEntry.words_write _ _ hw

end

/-! ### Registers of contexts and tenants (R445) -/

@[simp] theorem State.writeReg_sysReg_same (s : State) (r : SysReg) (owner : Nat) (v : Word) (die : Nat) (dies : List Nat) :
    (s.writeReg r owner v die dies).sysReg r owner die = v := nget_nset_same _ _ _ _

theorem State.writeReg_threadsKept (s : State) (r : SysReg) (owner : Nat) (v : Word) (die : Nat) (dies : List Nat) :
    ThreadsKept s (s.writeReg r owner v die dies) := ⟨rfl, rfl⟩

/-- A written generator state other than zero is stored as it is (R115). -/
theorem rngWrite_of_ne_zero {x : W32} (h : x ≠ 0) : rngWrite x = x := by
  unfold rngWrite
  rw [if_neg (by simpa using h)]

/-- The write of a system register moves and pushes nothing. -/
theorem State.sysWrite_steady (s : State) (reg : Nat) (v : Word) : Steady s (s.sysWrite reg v) := by
  have hregs (f : Regs → Regs) (hpc : (f s.me.regs).pc = s.me.regs.pc) (hw : (f s.me.regs).w = s.me.regs.w)
      (hk : (f s.me.regs).k = s.me.regs.k) : Steady s (s.updRegs f) := s.upd_steady rfl hpc hw hk
  have hcore (f : Core → Core) : Steady s (s.updCore s.curCore f) := ThreadsKept.steady ⟨rfl, rfl⟩
  have hreg (r : SysReg) (o : Nat) (x : Word) : ThreadsKept s (s.writeReg r o x (epDie s.cur) (partDies s.parts s.myPart)) :=
    s.writeReg_threadsKept _ _ _ _ _
  unfold State.sysWrite
  dsimp only
  -- 12 to 14 are the core's registers, 15 to 18 those of contexts and tenants, and 16 is `sr.tmask`, which tells of its change
  split
  case h_12 | h_13 | h_14 => exact hcore _
  case h_15 | h_17 | h_18 => exact (hreg _ _ _).steady
  case h_16 => exact ((hreg _ _ _).trans (State.emit_traceOnly _ _ _ _ _ _).threadsKept).steady
  all_goals exact hregs _ rfl rfl rfl

@[simp] theorem State.sysWrite_msgs (s : State) (reg : Nat) (v : Word) : (s.sysWrite reg v).msgs = s.msgs := by
  unfold State.sysWrite
  dsimp only
  split
  case h_16 => exact (State.emit_traceOnly _ _ _ _ _ _).msgs
  all_goals rfl

/-- SRW of a register that it may write and of a value that the register takes. -/
theorem execSrw_write {s : State} {a : Src} {reg : BitVec 12} (hw : writable reg.toNat = true)
    (hok : s.sysOk reg.toNat (s.raw 0 a) = true) :
    execSrw a reg s = .next ((s.sysWrite reg.toNat (s.raw 0 a)).done 8) := by
  unfold execSrw
  dsimp only
  rw [if_neg (by rw [hw, hok]; exact Bool.false_ne_true)]

/-- SRW of any other register or value. -/
theorem execSrw_refused {s : State} {a : Src} {reg : BitVec 12}
    (h : writable reg.toNat = false ∨ s.sysOk reg.toNat (s.raw 0 a) = false) :
    execSrw a reg s = .next (s.raise 0x06 (s.raw 0 a)) := by
  unfold execSrw
  dsimp only
  rw [if_pos (by obtain h | h := h <;> simp only [h, Bool.not_false, Bool.true_or, Bool.or_true])]

/-! ### The trace sink's register (R283) -/

/-- One bit of a number in its place; the model's files import no Mathlib, which has this fact. -/
theorem and_two_pow_eq_bit (a i : Nat) : a &&& 2 ^ i = a / 2 ^ i % 2 * 2 ^ i := by
  have hhigh : (a &&& 2 ^ i) / 2 ^ i = a / 2 ^ i % 2 := by
    rw [Nat.and_div_two_pow, Nat.div_self (Nat.two_pow_pos i), Nat.and_one_is_mod]
  have hlow : (a &&& 2 ^ i) % 2 ^ i = 0 := by
    rw [Nat.and_mod_two_pow, Nat.mod_self, Nat.and_zero]
  rw [← hhigh]
  exact (Nat.div_mul_cancel (Nat.dvd_of_mod_eq_zero hlow)).symm

/-- `sr.tsink` keeps its valid bit and its base. -/
theorem tsinkBits_eq (v : Word) : tsinkBits v = v &&& 0x81FFFFFFFFFFFFFF := by
  have hmask : (0x81FFFFFFFFFFFFFF : Word).toNat = 2 ^ 63 ||| (2 ^ 57 - 1) := by decide
  have hbase : v.toNat % 2 ^ 57 < 2 ^ 57 := Nat.mod_lt _ (by decide)
  have hv := v.isLt
  apply BitVec.eq_of_toNat_eq
  rw [BitVec.toNat_and, hmask, Nat.and_or_distrib_left, Nat.and_two_pow_sub_one_eq_mod, and_two_pow_eq_bit,
    show v.toNat / 2 ^ 63 % 2 * 2 ^ 63 = 2 ^ 57 * (v.toNat / 2 ^ 63 % 2 * 2 ^ 6) by omega,
    ← Nat.two_pow_add_eq_or_of_lt hbase]
  simp only [tsinkBits, fld, BitVec.toNat_ofNat]
  omega

/-- The end of SRW to `sr.tsink` in `s`, once the sinks stand as in `u`. -/
def State.endTsink (s u : State) (v : Word) : State :=
  (u.writeReg .tsink (s.tenantOf s.myCtx) (tsinkBits v) (epDie s.cur) (partDies s.parts s.myPart)).done 8

@[simp] theorem State.endTsink_sinks (s u : State) (v : Word) : (s.endTsink u v).sinks = u.sinks := rfl

@[simp] theorem State.endTsink_sysReg (s u : State) (v : Word) :
    (s.endTsink u v).sysReg .tsink (s.tenantOf s.myCtx) (epDie s.cur) = v &&& 0x81FFFFFFFFFFFFFF :=
  (u.writeReg_sysReg_same .tsink (s.tenantOf s.myCtx) (tsinkBits v) (epDie s.cur) (partDies s.parts s.myPart)).trans
    (tsinkBits_eq v)

/-- It ends an instruction whose setting up or tearing down has changed no thread. -/
theorem State.endTsink_ends {s u : State} (v : Word) (h : ThreadsKept s u) :
    Over s (s.endTsink u v) 8 ∧ NoPush s (s.endTsink u v) ∧ OthersSame s (s.endTsink u v) :=
  (h.trans (u.writeReg_threadsKept .tsink _ _ _ _)).steady.done 8

/-- It pushes nothing when the registers of the acting thread are as before. -/
theorem State.endTsink_noPush {s u : State} (v : Word) (h : u.me.regs = s.me.regs) : NoPush s (s.endTsink u v) := by
  unfold State.endTsink
  constructor
  · rw [State.done_me, Thread.advance_w, (u.writeReg_threadsKept .tsink _ _ _ _).me, h]
  · rw [State.done_me, Thread.advance_k, (u.writeReg_threadsKept .tsink _ _ _ _).me, h]

section
variable {s : State} {a : Src}

/-- Without the valid bit, the sink of this context, if it has one, is torn down first. -/
theorem execSrwTsink_off (hv : (s.raw 0 a).getLsbD 63 = false) :
    execSrwTsink a s = .next (s.endTsink
      (if ((s.sink (s.tenantOf s.myCtx)).valid && (s.sink (s.tenantOf s.myCtx)).ctx == s.myCtx) = true then
        s.closeSink (s.tenantOf s.myCtx) else s) (s.raw 0 a)) := by
  unfold execSrwTsink
  dsimp only
  rw [if_neg (by rw [hv]; exact Bool.false_ne_true)]
  rfl

/-- With the valid bit, a sink that R283 allows is set up. -/
theorem execSrwTsink_on {u : State} (hv : (s.raw 0 a).getLsbD 63 = true)
    (hu : s.openSink (s.tenantOf s.myCtx) s.myCtx (s.raw 0 a)
      (s.sysReg .tsinkc (s.tenantOf s.myCtx) (epDie s.cur)) = some u) :
    execSrwTsink a s = .next (s.endTsink u (s.raw 0 a)) := by
  unfold execSrwTsink
  dsimp only
  rw [if_pos hv, hu]
  rfl

/-- One that R283 does not allow raises the register-value fault. -/
theorem execSrwTsink_refused (hv : (s.raw 0 a).getLsbD 63 = true)
    (hu : s.openSink (s.tenantOf s.myCtx) s.myCtx (s.raw 0 a)
      (s.sysReg .tsinkc (s.tenantOf s.myCtx) (epDie s.cur)) = none) :
    execSrwTsink a s = .next (s.raise 0x06 (s.raw 0 a)) := by
  unfold execSrwTsink
  dsimp only
  rw [if_pos hv, hu]

/-- A thread that holds no slate is not touched by the tearing down of its sink. -/
theorem execSrwTsink_closes (hv : (s.raw 0 a).getLsbD 63 = false) (hheld : s.holding s.cur = false) :
    ∃ t, execSrwTsink a s = .next t ∧
      (t.sysReg .tsink (s.tenantOf s.myCtx) (epDie s.cur)).getLsbD 63 = false ∧ NoPush s t ∧
      ((s.sink (s.tenantOf s.myCtx)).valid = false → Over s t 8 ∧ OthersSame s t ∧ t.sinks = s.sinks) := by
  refine ⟨_, execSrwTsink_off hv, ?_, State.endTsink_noPush _ ?_, fun hinv => ?_⟩
  · rw [State.endTsink_sysReg, BitVec.getLsbD_and, hv, Bool.false_and]
  · split
    · exact s.closeSink_me_regs _ hheld
    · rfl
  · rw [if_neg (by rw [hinv, Bool.false_and]; exact Bool.false_ne_true)]
    obtain ⟨hover, -, hothers⟩ := State.endTsink_ends (s.raw 0 a) (ThreadsKept.refl s)
    exact ⟨hover, hothers, rfl⟩

theorem execSrwTsink_opens {u : State} (hv : (s.raw 0 a).getLsbD 63 = true)
    (hu : s.openSink (s.tenantOf s.myCtx) s.myCtx (s.raw 0 a)
      (s.sysReg .tsinkc (s.tenantOf s.myCtx) (epDie s.cur)) = some u) :
    ∃ t, execSrwTsink a s = .next t ∧ NoPush s t ∧ Over s t 8 ∧ OthersSame s t ∧
      t.sysReg .tsink (s.tenantOf s.myCtx) (epDie s.cur) = s.raw 0 a &&& 0x81FFFFFFFFFFFFFF ∧
      (t.sink (s.tenantOf s.myCtx)).valid = true ∧ (t.sink (s.tenantOf s.myCtx)).ctx = s.myCtx := by
  obtain ⟨x, shares, hvalid, hctx, rfl⟩ := State.openSink_some hu
  obtain ⟨hover, hpush, hothers⟩ := State.endTsink_ends (s := s)
    (u := { s with sinks := nset s.sinks (s.tenantOf s.myCtx) x, shares := shares }) (s.raw 0 a) ⟨rfl, rfl⟩
  refine ⟨_, execSrwTsink_on hv hu, hpush, hover, hothers, State.endTsink_sysReg _ _ _, ?_⟩
  unfold State.sink
  rw [State.endTsink_sinks, nget_nset_same]
  exact ⟨hvalid, hctx⟩

end

/-! ### HALT (R447) and fault messages (R432) -/

theorem FaultInfo.g1_cause (f : FaultInfo) : f.g1.extractLsb' 56 8 = BitVec.ofNat 8 f.cause := by
  apply BitVec.eq_of_toNat_eq
  rw [BitVec.extractLsb'_toNat, Nat.shiftRight_eq_div_pow]
  simp only [FaultInfo.g1, BitVec.toNat_ofNat]
  omega

/-- With a pager in force, a core's fault message goes to it, and no thread or other message changes. -/
theorem State.coreFault_pager {s : State} {ep : Nat} (f : FaultInfo)
    (h : (s.sysReg .pager (s.ctxOf (epCore ep)) (epDie ep)).getLsbD 63 = true) :
    ∃ m : Msg, (s.coreFault ep f).msgs = s.msgs ++ [m] ∧ ThreadsKept s (s.coreFault ep f) ∧
      m.dest = fld (s.sysReg .pager (s.ctxOf (epCore ep)) (epDie ep)) 0 18 ∧
      (m.payload.getD 0 0).extractLsb' 56 8 = BitVec.ofNat 8 f.cause := by
  unfold State.coreFault State.faultMsg
  dsimp only
  have hp : ((s.stamp (coreEp (epCore ep) 0) (epDie ep)).2.sysReg .pager (s.ctxOf (epCore ep)) (epDie ep)).getLsbD 63 =
    true := h
  rw [if_pos hp]
  exact ⟨_, rfl, ⟨rfl, rfl⟩, rfl, FaultInfo.g1_cause _⟩

/-- A thread outside a gang halts alone. -/
theorem execHalt_alone {s : State} (hg : s.me.gang = none) :
    execHalt s = .next ((s.coreFault s.cur { cause := 0x2B, g2 := s.me.regs.pc.setWidth 64 }).updThr s.cur fun t =>
      { t with wait := .halted }) := by
  have hmembers : (if s.me.trap = true then [s.cur] else s.membersOf s.cur) = [s.cur] := by
    unfold State.membersOf
    rw [show (s.thr s.cur).gang = none from hg]
    exact ite_self _
  unfold execHalt
  dsimp only
  rw [hmembers]
  rfl

/-- It stops where it is, and its pager is told. -/
theorem execHalt_tells {s : State} (hg : s.me.gang = none)
    (hp : (s.sysReg .pager s.myCtx (epDie s.cur)).getLsbD 63 = true) :
    ∃ t m, execHalt s = .next t ∧ t.me = { s.me with wait := .halted } ∧ t.msgs = s.msgs ++ [m] ∧
      m.dest = fld (s.sysReg .pager s.myCtx (epDie s.cur)) 0 18 ∧ (m.payload.getD 0 0).extractLsb' 56 8 = 0x2B ∧
      t.mem = s.mem ∧ OthersSame s t := by
  obtain ⟨m, hmsgs, hkept, hdest, hcause⟩ :=
    State.coreFault_pager (ep := s.cur) { cause := 0x2B, g2 := s.me.regs.pc.setWidth 64 } hp
  refine ⟨_, m, execHalt_alone hg, ?_, hmsgs, hdest, hcause, State.coreFault_mem _ _ _, fun ep hep => ?_⟩
  · rw [State.updThr_me hkept.2.symm, hkept.me]
  · rw [State.updThr_thr, if_neg hep, hkept.thr]

/-! ### KILL (R438, R443) -/

/-- A purge that is asked for changes the context's record, and nothing else. -/
theorem State.startKill_onlyCtx (s : State) (ctx reason : Nat) (page : Option Nat) :
    { s.startKill ctx reason page with ctxs := s.ctxs } = s := rfl

theorem State.startKill_kill {s : State} {ctx : Nat} (reason : Nat) (page : Option Nat) (h : (s.ctx ctx).kill = none) :
    ((s.startKill ctx reason page).ctx ctx).kill = some (reason, 0) := by
  unfold State.startKill State.ctx
  rw [nget_nset_same, show (nget {} s.ctxs ctx).kill = none from h]
  rfl

/-- The first KILL of a context asks for its purge; a later one waits for it. -/
theorem execKill_first {s : State} (reason : BitVec 16) (h : (s.ctx s.myCtx).kill = none) :
    execKill reason s = .next (s.startKill s.myCtx reason.toNat none) := by
  unfold execKill
  rw [if_neg (by rw [h]; exact Bool.false_ne_true)]

theorem execKill_again {s : State} (reason : BitVec 16) (h : (s.ctx s.myCtx).kill.isSome = true) :
    execKill reason s = .next s := by
  unfold execKill
  rw [if_pos h]

end Sys2Proof.Machine
end

section
/-! The system instructions as a whole. -/
namespace Sys2Proof.Machine

/-- SRW writes the register that it names, with reserved bits zero. -/
theorem execSrw_registers {s : State} {a : Src} {reg : BitVec 12} (hw : writable reg.toNat = true)
    (hok : s.sysOk reg.toNat (s.raw 0 a) = true) :
    ∃ t, execSrw a reg s = .next t ∧ Over s t 8 ∧ NoPush s t ∧ OthersSame s t ∧ t.msgs = s.msgs ∧
      (reg = 0x007 → t.me.regs.vl = (s.raw 0 a).setWidth 7 ∧ OnlyMe s t) ∧
      (reg = 0x010 → t.me.regs.ba = (s.raw 0 a).setWidth 35 ∧ OnlyMe s t) ∧
      (reg = 0x006 → ((s.raw 0 a).setWidth 32 : W32) ≠ 0 → t.me.regs.rng = (s.raw 0 a).setWidth 32 ∧ OnlyMe s t) ∧
      (reg = 0x023 → (t.core s.curCore).tvec = s.raw 0 a &&& 0x80000000FFFFFFFF ∧ t.threads = (s.done 8).threads) ∧
      (reg = 0x024 → (t.core s.curCore).tframe = s.raw 0 a &&& 0x80000000FFFFFFFF) ∧
      (reg = 0x030 → t.sysReg .pager s.myCtx (epDie s.cur) = s.raw 0 a &&& 0x80000FFF0003FFFF) ∧
      (reg = 0x034 → t.sysReg .wdog s.myCtx (epDie s.cur) = s.raw 0 a &&& 0xFFFFFFFF) := by
  obtain ⟨hover, hpush, hothers⟩ := (s.sysWrite_steady reg.toNat (s.raw 0 a)).done 8
  refine ⟨_, execSrw_write hw hok, hover, hpush, hothers, s.sysWrite_msgs _ _, ?_, ?_, ?_, ?_, ?_, ?_, ?_⟩
  · rintro rfl
    exact ⟨by rw [State.done_me, Thread.advance_vl]; exact congrArg (·.regs.vl) (s.upd_me _), s.upd_done_onlyMe _ 8⟩
  · rintro rfl
    exact ⟨by rw [State.done_me, Thread.advance_ba]; exact congrArg (·.regs.ba) (s.upd_me _), s.upd_done_onlyMe _ 8⟩
  · rintro rfl hne
    refine ⟨?_, s.upd_done_onlyMe _ 8⟩
    rw [State.done_me, Thread.advance_rng]
    refine (congrArg (·.regs.rng) (s.upd_me _)).trans ?_
    exact rngWrite_of_ne_zero hne
  · rintro rfl
    exact ⟨congrArg Core.tvec (nget_nset_same _ _ _ _), rfl⟩
  · rintro rfl
    exact congrArg Core.tframe (nget_nset_same _ _ _ _)
  · rintro rfl
    exact s.writeReg_sysReg_same .pager _ _ _ (partDies s.parts s.myPart)
  · rintro rfl
    exact s.writeReg_sysReg_same .wdog _ _ _ (partDies s.parts s.myPart)

/-- Settles O32: each instruction by the lemma that says what it does. -/
theorem systemInstructions : Obligations.SystemInstructions := by
  intro s d a e w reg reason v
  exact ⟨⟨_, rfl, s.done_passed 8⟩, ⟨_, rfl, s.done_passed 8⟩,
    fun ht => ⟨execRqread_reserved d ht, execRqwrite_reserved ht⟩,
    fun ht => ⟨⟨_, execRqread_reads d ht, s.finish_result d _ 8⟩,
      fun hw hv he => hw ▸ execRqwrite_invalid ht hv he, execRqwrite_entries ht⟩,
    ⟨_, rfl, s.finish_result d _ 8⟩, execSrw_refused, execSrw_registers, execSrwTsink_closes,
    fun _ => execSrwTsink_opens, execSrwTsink_refused, execHalt_tells,
    fun hk => ⟨_, execKill_first reason hk, s.startKill_onlyCtx _ _ _, State.startKill_kill _ _ hk⟩,
    execKill_again reason⟩

end Sys2Proof.Machine
end

section
/-!
SUPPORT. What the tables and the memory of the package read as right after power-on reset (R30, R399, R467).
-/
namespace Sys2Proof.Machine

/-- A table that lists nothing gives the default for every key. -/
@[simp] theorem nget_nil {α : Type} (d : α) (k : Nat) : nget d [] k = d := rfl

@[simp] theorem Memory.read_nil (a : Nat) : Memory.read [] a = Memory.blank := rfl

@[simp] theorem Memory.wf_nil : Memory.wf [] = true := rfl

@[simp] theorem State.reset_mem : State.reset.mem = [] := rfl

@[simp] theorem State.reset_thr (ep : Nat) : State.reset.thr ep = {} := nget_nil (α := Thread) {} ep

@[simp] theorem State.reset_keySlot (i : Nat) : State.reset.keySlot i = {} := nget_nil (α := KeySlot) {} i

theorem State.reset_safe : Safe State.reset := Memory.wf_nil

/-- Bytes that nothing has written read as zero (log 2). -/
theorem State.reset_mem_read (a : Nat) : State.reset.mem.read a = 0 := Memory.read_nil a

/-- No thread holds a unit, since every thread is the default one. -/
theorem State.reset_thr_idle (ep : Nat) : (State.reset.thr ep).busy = false := by
  rw [State.reset_thr]

/-- The package's time starts at zero (log 1). -/
theorem State.reset_time : State.reset.now = 0 ∧ State.reset.ctimeOff = 0 := ⟨rfl, rfl⟩

theorem State.reset_lists : State.reset.msgs = [] ∧ State.reset.launches = [] ∧ State.reset.fenced = [] := ⟨rfl, rfl, rfl⟩

/-- Settles O59: memory, threads and key slots by what an empty list reads as, the rest by the reset values. -/
theorem safeAtReset : Obligations.SafeAtReset := by
  obtain ⟨hnow, hoff⟩ := State.reset_time
  obtain ⟨hmsgs, hlaunches, hfenced⟩ := State.reset_lists
  exact ⟨State.reset_safe, State.reset_mem, hnow, hoff, State.reset_thr_idle, hmsgs, hlaunches, hfenced,
    State.reset_keySlot, State.reset_mem_read⟩

end Sys2Proof.Machine
end

section
/-!
SUPPORT. Memory's canonical form, kept by every instruction, every event and every step.
-/
namespace Sys2Proof.Machine

/-! ### Outcomes -/

/-- Every state that an outcome goes on to has memory in its canonical form. -/
def KeepsForm : Out → Prop
  | .next t => Safe t
  | .fault _ | .refused _ => True

@[simp] theorem keepsForm_next (t : State) : KeepsForm (.next t) ↔ t.mem.wf = true := Iff.rfl
@[simp] theorem keepsForm_fault (f : Fault) : KeepsForm (.fault f) := trivial
@[simp] theorem keepsForm_refused (r : Refusal) : KeepsForm (.refused r) := trivial

/-- The state of a pair that an operation answers. -/
theorem snd_wf {α : Type} {p : α × State} {a : α} {t : State} (h : p.2.mem.wf = true) (e : p = (a, t)) : t.mem.wf = true := by
  rw [e] at h; exact h

/-! ### Operations that take what an instruction does as an argument -/

@[simp] theorem State.badState_wf (s : State) (k : BitVec 8) (h : s.mem.wf = true) : (s.badState k).mem.wf = true :=
  State.raise_wf _ _ _ h

theorem State.onKind_wf {s : State} (k : BitVec 8) (kind : HandleKind) {f : State → Handle → State} (h : s.mem.wf = true)
    (hf : ∀ x, (f s x).mem.wf = true) : (s.onKind k kind f).mem.wf = true :=
  State.ite_wf (State.raise_wf _ _ _ h) (hf _)

theorem State.waitOn_wf {s : State} (k : BitVec 8) (kind : HandleKind) (ready : Handle → Bool) {f : State → Handle → State}
    (h : s.mem.wf = true) (hf : ∀ x, (f s x).mem.wf = true) : (s.waitOn k kind ready f).mem.wf = true :=
  State.onKind_wf k kind h fun x => State.ite_wf (State.raise_wf _ _ _ h) (State.ite_wf (hf x) h)

theorem State.arrival_wf {s : State} {f : State → State} (h : s.mem.wf = true) (hf : (f s).mem.wf = true) :
    (s.arrival f).mem.wf = true := State.ite_wf (State.raiseAt_wf _ _ _ _ _ h) hf

theorem State.withStage_wf {s : State} (a : Word) {f : Option Nat → State} (h : s.mem.wf = true)
    (hf : ∀ n, (f n).mem.wf = true) : (s.withStage a f).mem.wf = true := State.ite_wf (State.raise_wf _ _ _ h) (hf _)

theorem State.longStep_wf {s : State} (m : Fin 4) (p pb : Fin 8) (wordsFirst : Bool) {f : State → Nat → W32 → Nat → State}
    (h : s.mem.wf = true) (hf : ∀ u sp a l, u.mem.wf = true → (f u sp a l).mem.wf = true) :
    (s.longStep m p pb wordsFirst f).mem.wf = true := by
  unfold State.longStep
  dsimp only
  split
  · exact State.raise_wf _ _ _ h
  split
  · simpa using h
  split
  · exact State.raise_wf _ _ _ (by simpa using h)
  · split <;> simpa using hf _ _ _ _ (by simpa using h)

theorem State.treeHead_wf {s t : State} {part : Nat} {p : TreeKind → Bool} {m : TreeMsg} (h : s.mem.wf = true)
    (e : s.treeHead part p = some (m, t)) : t.mem.wf = true := (State.treeHead_mem _ _ _ e).symm ▸ h

section
variable {s : State} (h : s.mem.wf = true)
include h

/-! ### Accesses in flight -/

@[simp] theorem execFarAccessTranslate_keepsForm id : KeepsForm (execFarAccessTranslate id s) := by
  unfold execFarAccessTranslate; (repeat' split) <;> simp [h]
@[simp] theorem execFarAccessAck_keepsForm id data : KeepsForm (execFarAccessAck id data s) := by
  unfold execFarAccessAck; (repeat' split) <;> simp [h]
@[simp] theorem execLdpArrival_keepsForm id : KeepsForm (execLdpArrival id s) := by
  unfold execLdpArrival; (repeat' split) <;> simp [h]
@[simp] theorem execLdaqReload_keepsForm ep : KeepsForm (execLdaqReload ep s) := by
  unfold execLdaqReload; split <;> simp [h]

/-! ### Loads, stores and atomics -/

@[simp] theorem execLd_keepsForm t sc acq dst a off : KeepsForm (execLd t sc acq dst a off s) := by
  unfold execLd; dsimp only; split <;> simp [h]
@[simp] theorem execSt_keepsForm t sc rel a b off : KeepsForm (execSt t sc rel a b off s) := by
  unfold execSt; dsimp only; split <;> simp [h]
@[simp] theorem execLdp_keepsForm t sc acq k a off : KeepsForm (execLdp t sc acq k a off s) := by
  unfold execLdp; dsimp only; (repeat' split) <;> simp [h]
@[simp] theorem execStp_keepsForm t sc rel a b off : KeepsForm (execStp t sc rel a b off s) := by
  unfold execStp; dsimp only; split <;> simp [h]
@[simp] theorem execLdaq_keepsForm t sc c dst a b : KeepsForm (execLdaq t sc c dst a b s) := by
  unfold execLdaq; dsimp only; (repeat' split) <;> simp [h]
@[simp] theorem execStrl_keepsForm t sc a b off : KeepsForm (execStrl t sc a b off s) := by
  unfold execStrl; dsimp only; split <;> simp [h]
@[simp] theorem execAmo_keepsForm t sc o op dst a b : KeepsForm (execAmo t sc o op dst a b s) := by
  unfold execAmo; dsimp only; split <;> simp [h]
@[simp] theorem execCas_keepsForm t sc o dst a b : KeepsForm (execCas t sc o dst a b s) := by
  unfold execCas; dsimp only; split <;> simp [h]
@[simp] theorem execWaitc_keepsForm ld st cp tl : KeepsForm (execWaitc ld st cp tl s) := by
  unfold execWaitc; dsimp only; split <;> simp [h]
@[simp] theorem execWaitcn_keepsForm x thr : KeepsForm (execWaitcn x thr s) := by
  unfold execWaitcn; dsimp only; split <;> simp [h]
@[simp] theorem execGalloc_keepsForm dst a imm : KeepsForm (execGalloc dst a imm s) := by
  unfold execGalloc; dsimp only; (repeat' split) <;> simp [h]
@[simp] theorem execGfree_keepsForm a : KeepsForm (execGfree a s) := by
  unfold execGfree; dsimp only; (repeat' split) <;> simp [h]

/-! ### Lines, bursts and mailboxes -/

@[simp] theorem execXld_keepsForm a b sc acq : KeepsForm (execXld a b sc acq s) := by
  unfold execXld; split <;> simp [h]
@[simp] theorem execXst_keepsForm a b sc rel : KeepsForm (execXst a b sc rel s) := by
  unfold execXst; dsimp only; (repeat' split) <;> simp [h]
@[simp] theorem execXburst_keepsForm a b len sc ep remote : KeepsForm (execXburst a b len sc ep remote s) := by
  unfold execXburst; dsimp only; (repeat' split) <;> simp [h]
@[simp] theorem execPlanew_keepsForm _a b _len : KeepsForm (execPlanew _a b _len s) := by
  simp [execPlanew, h]
@[simp] theorem execMbox_keepsForm a b sc : KeepsForm (execMbox a b sc s) := by
  unfold execMbox; dsimp only; (repeat' split) <;> simp [h]
@[simp] theorem execCrec_keepsForm dst a b sc : KeepsForm (execCrec dst a b sc s) := by
  unfold execCrec; dsimp only; (repeat' split) <;> simp [h]

/-! ### Messages, parks, launches, records and gangs -/

@[simp] theorem execSend_keepsForm dest handler words gbase sys : KeepsForm (execSend dest handler words gbase sys s) := by
  unfold execSend; dsimp only; (repeat' split) <;> simp [h]
@[simp] theorem execSendx_keepsForm a off dest handler words sys node ack : KeepsForm (execSendx a off dest handler words sys node ack s) := by
  unfold execSendx; dsimp only; (repeat' split) <;> simp [h]
@[simp] theorem execWake_keepsForm a : KeepsForm (execWake a s) := by
  unfold execWake; dsimp only; (repeat' split) <;> simp [h]
@[simp] theorem execYield_keepsForm c : KeepsForm (execYield c s) := by
  unfold execYield; split <;> simp [h]
@[simp] theorem execYieldReturn_keepsForm ep : KeepsForm (execYieldReturn ep s) := by
  unfold execYieldReturn; (repeat' split) <;> simp [h]
@[simp] theorem execPark_keepsForm dst c : KeepsForm (execPark dst c s) := by
  unfold execPark; (repeat' split) <;> simp [h]
@[simp] theorem execParkTimeout_keepsForm ep : KeepsForm (execParkTimeout ep s) := by
  unfold execParkTimeout; (repeat' split) <;> simp [h]
@[simp] theorem execLaunch_keepsForm dst a : KeepsForm (execLaunch dst a s) := by
  unfold execLaunch; dsimp only; (repeat' split) <;> simp [h]
@[simp] theorem execLaunchW_keepsForm dst a : KeepsForm (execLaunchW dst a s) := by
  unfold execLaunchW; dsimp only; (repeat' split) <;> simp [h]
@[simp] theorem execCancel_keepsForm dst level record : KeepsForm (execCancel dst level record s) := by
  unfold execCancel; dsimp only; (repeat' split) <;> simp [h]
@[simp] theorem execLvwait_keepsForm dst level record : KeepsForm (execLvwait dst level record s) := by
  unfold execLvwait; dsimp only; (repeat' split) <;> simp [h]
@[simp] theorem execLvread_keepsForm dst level sel record : KeepsForm (execLvread dst level sel record s) := by
  unfold execLvread; dsimp only; (repeat' split) <;> simp [h]

@[simp] theorem execFuse_keepsForm (d : Dst) (n : BitVec 4) : KeepsForm (execFuse d n s) := by
  unfold execFuse
  dsimp only
  repeat' apply State.ite_wf
  · simpa using h
  · exact State.raise_wf _ _ _ h
  · simpa using h
  · split
    all_goals
      rename_i e
      have hb := snd_wf (State.bindMembers_wf _ _ _ _ h) e
      simpa using hb

@[simp] theorem execSplit_keepsForm : KeepsForm (execSplit s) := by
  unfold execSplit; split <;> simp [h]
@[simp] theorem execSpillq_keepsForm dst a : KeepsForm (execSpillq dst a s) := by
  unfold execSpillq; dsimp only; (repeat' split) <;> simp [h]
@[simp] theorem execJobset_keepsForm dst share cls : KeepsForm (execJobset dst share cls s) := by
  unfold execJobset; dsimp only; split <;> simp [h]

/-! ### Stages -/

@[simp] theorem execStageCreate_keepsForm dst a : KeepsForm (execStageCreate dst a s) := by
  unfold execStageCreate; dsimp only; split <;> simp [h]

@[simp] theorem execStageClose_keepsForm (d : Dst) (a : Src) : KeepsForm (execStageClose d a s) :=
  State.withStage_wf _ h fun n => by cases n <;> simp [h]

@[simp] theorem execStageThresh_keepsForm (d : Dst) (a b : Src) : KeepsForm (execStageThresh d a b s) :=
  State.withStage_wf _ h fun n => by cases n <;> simp [h]

@[simp] theorem execKeysend_keepsForm stage words gbase : KeepsForm (execKeysend stage words gbase s) := by
  unfold execKeysend; dsimp only; (repeat' split) <;> simp [h]
@[simp] theorem execSplitok_keepsForm dst a imm : KeepsForm (execSplitok dst a imm s) := by
  unfold execSplitok; dsimp only; (repeat' split) <;> simp [h]
@[simp] theorem execMergeok_keepsForm : KeepsForm (execMergeok s) := by
  unfold execMergeok; dsimp only; (repeat' split) <;> simp [h]

@[simp] theorem execKrtread_keepsForm (d : Dst) (a : Src) (sel : BitVec 5) : KeepsForm (execKrtread d a sel s) :=
  State.withStage_wf _ h fun n => by cases n <;> simp [h]

@[simp] theorem execQdep_keepsForm dst a : KeepsForm (execQdep dst a s) := by
  unfold execQdep; dsimp only; (repeat' split) <;> simp [h]

@[simp] theorem execStageOverload_keepsForm (part stage ep : Nat) : KeepsForm (execStageOverload part stage ep s) := by
  unfold execStageOverload
  dsimp only
  have hr : (s.restartDwell part stage ep).mem.wf = true := (congrArg Memory.wf (State.restartDwell_mem _ _ _ _)).trans h
  apply State.ite_wf h
  apply State.ite_wf hr
  split
  · exact hr
  split
  · exact hr
  apply State.ite_wf (State.cloneOn_wf _ _ _ _ _ _ h)
  split <;> (rename_i e; have hb := snd_wf (State.bindTo_wf _ _ _ _ h) e)
  · exact State.cloneOn_wf _ _ _ _ _ _ hb
  · exact (congrArg Memory.wf (State.restartDwell_mem _ _ _ _)).trans hb
  · exact hb

@[simp] theorem execStageTableApply_keepsForm part stage core : KeepsForm (execStageTableApply part stage core s) := by
  unfold execStageTableApply; dsimp only; (repeat' split) <;> simp [h]
@[simp] theorem execInterfaceAck_keepsForm part stage core : KeepsForm (execInterfaceAck part stage core s) := by
  unfold execInterfaceAck; dsimp only; (repeat' split) <;> simp [h]
@[simp] theorem execStageUnderload_keepsForm part stage ep : KeepsForm (execStageUnderload part stage ep s) := by
  unfold execStageUnderload; dsimp only; (repeat' split) <;> simp [h]

@[simp] theorem execMergeStart_keepsForm (part stage ep : Nat) : KeepsForm (execMergeStart part stage ep s) := by
  have hr (a : Nat × Word × State) : True := trivial
  unfold execMergeStart
  dsimp only
  rw [keepsForm_next]
  refine State.ite_wf h (State.ite_wf ?_ (State.finishMerge_wf _ _ _ ?_))
  all_goals
    rw [State.updThr_mem]
    apply State.runUnit_wf
    rw [State.updStage_mem, State.countStart_mem, State.homeHdr_mem]
    exact h

/-! ### The end of a unit, and arriving messages -/

@[simp] theorem execExit_keepsForm err : KeepsForm (execExit err s) := by
  unfold execExit; dsimp only; (repeat' split) <;> simp [h]
@[simp] theorem execMessageArrival_keepsForm id : KeepsForm (execMessageArrival id s) := by
  unfold execMessageArrival; (repeat' split) <;> simp [h]
@[simp] theorem execSendBufferRetry_keepsForm id : KeepsForm (execSendBufferRetry id s) := by
  unfold execSendBufferRetry; (repeat' split) <;> simp [h]
@[simp] theorem execDispatchRetry_keepsForm id : KeepsForm (execDispatchRetry id s) := by
  unfold execDispatchRetry; (repeat' split) <;> simp [h]

@[simp] theorem execCoreBind_keepsForm (id : Nat) : KeepsForm (execCoreBind id s) := by
  unfold execCoreBind
  split
  · exact h
  apply State.ite_wf h
  split <;> (rename_i e; have hb := snd_wf (State.bind_wf _ _ _ h) e)
  · exact State.msgDone_wf _ _ hb
  · exact hb

@[simp] theorem execWakeArrival_keepsForm id : KeepsForm (execWakeArrival id s) := by
  unfold execWakeArrival; dsimp only; (repeat' split) <;> simp [h]
@[simp] theorem execEndMarker_keepsForm id : KeepsForm (execEndMarker id s) := by
  unfold execEndMarker; (repeat' split) <;> simp [h]

/-! ### Handles -/

@[simp] theorem execHcfg_keepsForm (k : BitVec 8) (cfg : W32) : KeepsForm (execHcfg k cfg s) :=
  State.ite_wf (State.badState_wf _ _ (by simpa using h)) (by simpa using h)

@[simp] theorem execHacq_keepsForm (k : BitVec 8) (cons : Bool) : KeepsForm (execHacq k cons s) :=
  State.waitOn_wf k .buffer _ h fun x => by
    cases cons <;> simpa using h

@[simp] theorem execHrel_keepsForm (k : BitVec 8) (cons : Bool) : KeepsForm (execHrel k cons s) :=
  State.onKind_wf k .buffer h fun _ => State.ite_wf (State.badState_wf _ _ h) (State.ite_wf (by simpa using h) (by simpa using h))

@[simp] theorem execHstate_keepsForm k : KeepsForm (execHstate k s) := by
  simp [execHstate, h]

@[simp] theorem execRpost_keepsForm (k : BitVec 8) (m : BitVec 13) : KeepsForm (execRpost k m s) :=
  State.onKind_wf k .ring h fun _ => State.ite_wf (State.badState_wf _ _ h) (by simpa using h)

@[simp] theorem execRtake_keepsForm (k : BitVec 8) : KeepsForm (execRtake k s) :=
  State.waitOn_wf k .ring _ h fun _ => by simpa using h

@[simp] theorem execBarr_keepsForm (k : BitVec 8) (bytes : W32) : KeepsForm (execBarr k bytes s) :=
  State.onKind_wf k .barrier (by simpa using h) fun _ => State.arrival_wf (by simpa using h) (by simpa using h)

@[simp] theorem execBexp_keepsForm (k : BitVec 8) (bytes : W32) : KeepsForm (execBexp k bytes s) :=
  State.onKind_wf k .barrier (by simpa using h) fun _ => by simpa using h

@[simp] theorem execBtest_keepsForm (k : BitVec 8) : KeepsForm (execBtest k s) :=
  State.onKind_wf k .barrier (by simpa using h) fun _ => by simpa using h

@[simp] theorem execBwait_keepsForm (k : BitVec 8) : KeepsForm (execBwait k s) := by
  have hc : (s.clockHandle (s.hkey k)).mem.wf = true := by simpa using h
  exact State.onKind_wf k .barrier hc fun _ => State.ite_wf (State.raise_wf _ _ _ hc) <|
    State.arrival_wf hc <| State.waitOn_wf k .barrier _ hc fun _ => by simpa using hc

@[simp] theorem execCkpt_keepsForm (d : Dst) (k : BitVec 8) : KeepsForm (execCkpt d k s) := by
  have hc : (s.clockHandle (s.hkey k)).mem.wf = true := by simpa using h
  unfold execCkpt
  dsimp only
  split
  · exact State.onKind_wf k .barrier hc fun _ => State.ite_wf (State.raise_wf _ _ _ hc) <|
      State.arrival_wf hc (by simpa using h)
  · exact State.waitOn_wf k .barrier _ hc fun _ => by simpa using h

@[simp] theorem execBarrierPhase_keepsForm k : KeepsForm (execBarrierPhase k s) := by
  unfold execBarrierPhase; split <;> simp [h]
@[simp] theorem execBarrierAggregate_keepsForm id : KeepsForm (execBarrierAggregate id s) := by
  unfold execBarrierAggregate; (repeat' split) <;> simp [h]
@[simp] theorem execBarrierCompletionMsg_keepsForm id : KeepsForm (execBarrierCompletionMsg id s) := by
  unfold execBarrierCompletionMsg; (repeat' split) <;> simp [h]

/-! ### Copy units -/

@[simp] theorem execChain_keepsForm ch cn cen head : KeepsForm (execChain ch cn cen head s) := by
  unfold execChain; dsimp only; (repeat' split) <;> simp [h]
@[simp] theorem execChainResume_keepsForm ch : KeepsForm (execChainResume ch s) := by
  unfold execChainResume; dsimp only; split <;> simp [h]
@[simp] theorem execChainStart_keepsForm c ch : KeepsForm (execChainStart c ch s) := by
  unfold execChainStart; dsimp only; (repeat' split) <;> simp [h]
@[simp] theorem execOutboundReadTimeout_keepsForm id : KeepsForm (execOutboundReadTimeout id s) := by
  unfold execOutboundReadTimeout; dsimp only; (repeat' split) <;> simp [h]

@[simp] theorem execCopyPiece_keepsForm (c ch : Nat) (data : List Byte) : KeepsForm (execCopyPiece c ch data s) := by
  unfold execCopyPiece
  dsimp only
  split
  · apply State.ite_wf h
    split <;> (rename_i e; have hc := snd_wf ((State.chooseOf_mem s _).symm ▸ h) e)
    · split <;> simp [hc]
    · split <;> simp [hc]
    · exact hc
  · exact h

@[simp] theorem execRecordComplete_keepsForm c ch : KeepsForm (execRecordComplete c ch s) := by
  unfold execRecordComplete; dsimp only; (repeat' split) <;> simp [h]

@[simp] theorem execChannelStop_keepsForm (c ch : Nat) : KeepsForm (execChannelStop c ch s) := by
  unfold execChannelStop
  dsimp only
  split
  · exact h
  rename_i q _
  apply State.ite_wf (State.settleOwed_wf _ _ _ h)
  apply State.ite_wf h
  split
  · split
    · apply State.ite_wf h
      split
      · rename_i e
        have ht := snd_wf (by simpa using h) e
        simp [ht]
      · exact h
    · exact h
  · split
    · exact h
    · apply State.ite_wf h
      split
      · rename_i e
        have ht := snd_wf (State.tryPiece_wf _ _ _ _ _ _ h) e
        simp [ht]
      · exact h

@[simp] theorem execPinCancel_keepsForm c ch : KeepsForm (execPinCancel c ch s) := by
  unfold execPinCancel; dsimp only; (repeat' split) <;> simp [h]

/-! ### Commands and jobs of arrays -/

@[simp] theorem execMlease_keepsForm cls : KeepsForm (execMlease cls s) := by
  unfold execMlease; dsimp only; split <;> simp [h]
@[simp] theorem execMrel_keepsForm : KeepsForm (execMrel s) := by
  unfold execMrel; dsimp only; split <;> simp [h]
@[simp] theorem execMjob_keepsForm dst off opnd : KeepsForm (execMjob dst off opnd s) := by
  unfold execMjob; dsimp only; (repeat' split) <;> simp [h]
@[simp] theorem execMtest_keepsForm dst off opnd : KeepsForm (execMtest dst off opnd s) := by
  unfold execMtest; dsimp only; (repeat' split) <;> simp [h]
@[simp] theorem execMstat_keepsForm dst sel : KeepsForm (execMstat dst sel s) := by
  unfold execMstat; split <;> simp [h]

/-! ### The work of arrays -/

@[simp] theorem execArrayBind_keepsForm a : KeepsForm (execArrayBind a s) := by
  unfold execArrayBind; (repeat' split) <;> simp [h]
@[simp] theorem execArrayGrant_keepsForm a : KeepsForm (execArrayGrant a s) := by
  unfold execArrayGrant; dsimp only; (repeat' split) <;> simp [h]
@[simp] theorem execArrayCommandComplete_keepsForm a : KeepsForm (execArrayCommandComplete a s) := by
  unfold execArrayCommandComplete; (repeat' split) <;> simp [h]
@[simp] theorem execLeaseTimeout_keepsForm a : KeepsForm (execLeaseTimeout a s) := by
  unfold execLeaseTimeout; (repeat' split) <;> simp [h]
@[simp] theorem execGateTimeout_keepsForm a : KeepsForm (execGateTimeout a s) := by
  unfold execGateTimeout; (repeat' split) <;> simp [h]
@[simp] theorem execGateOpen_keepsForm a job : KeepsForm (execGateOpen a job s) := by
  unfold execGateOpen; (repeat' split) <;> simp [h]
@[simp] theorem execJobStopped_keepsForm a job : KeepsForm (execJobStopped a job s) := by
  unfold execJobStopped; dsimp only; (repeat' split) <;> simp [h]
@[simp] theorem execTileArrival_keepsForm id : KeepsForm (execTileArrival id s) := by
  unfold execTileArrival; dsimp only; (repeat' split) <;> simp [h]
@[simp] theorem execTileDiscard_keepsForm id : KeepsForm (execTileDiscard id s) := by
  unfold execTileDiscard; (repeat' split) <;> simp [h]
@[simp] theorem execArraySelfTest_keepsForm a failing : KeepsForm (execArraySelfTest a failing s) := by
  unfold execArraySelfTest; (repeat' split) <;> simp [h]

/-! ### Distributors -/

@[simp] theorem execBatchDeal_keepsForm part pair : KeepsForm (execBatchDeal part pair s) := by
  unfold execBatchDeal; (repeat' split) <;> simp [h]
@[simp] theorem execUnitDispatch_keepsForm pair : KeepsForm (execUnitDispatch pair s) := by
  unfold execUnitDispatch; dsimp only; (repeat' split) <;> simp [h]
@[simp] theorem execAllowanceRefill_keepsForm : KeepsForm (execAllowanceRefill s) := by
  unfold execAllowanceRefill; split <;> simp [h]

/-! ### The trace and the time base -/

@[simp] theorem execTev_keepsForm ev a : KeepsForm (execTev ev a s) := by
  unfold execTev; split <;> simp [h]
@[simp] theorem execTevx_keepsForm ev payload a b : KeepsForm (execTevx ev payload a b s) := by
  unfold execTevx; split <;> simp [h]
@[simp] theorem execTmark_keepsForm dst payload : KeepsForm (execTmark dst payload s) := by
  simp [execTmark, h]
@[simp] theorem execSlateAdmitHeld_keepsForm who : KeepsForm (execSlateAdmitHeld who s) := by
  unfold execSlateAdmitHeld; (repeat' split) <;> simp [h]

@[simp] theorem execSrwTsink_keepsForm (a : Src) : KeepsForm (execSrwTsink a s) := by
  unfold execSrwTsink
  dsimp only
  apply State.ite_wf
  · split
    · exact State.raise_wf _ _ _ h
    · rename_i e; simpa [State.openSink_mem e] using h
  · split <;> simp [h]

@[simp] theorem execTraceDrain_keepsForm die sink : KeepsForm (execTraceDrain die sink s) := by
  unfold execTraceDrain; split <;> simp [h]
@[simp] theorem execTraceDrainRetry_keepsForm die sink : KeepsForm (execTraceDrainRetry die sink s) := by
  unfold execTraceDrainRetry; split <;> simp [h]
@[simp] theorem execTakesEffectOnDie_keepsForm die : KeepsForm (execTakesEffectOnDie die s) := by
  unfold execTakesEffectOnDie; (repeat' split) <;> simp [h]
@[simp] theorem execWriteHmask_keepsForm tenant mask port : KeepsForm (execWriteHmask tenant mask port s) := by
  unfold execWriteHmask; (repeat' split) <;> simp [h]

@[simp] theorem execConfigHostSink_keepsForm (tsink tsinkc : Word) (ctx : Nat) :
    KeepsForm (execConfigHostSink tsink tsinkc ctx s) := by
  have ha (u : State) (v st : Nat) (hu : u.mem.wf = true) : (u.pageAnswer 1 v st).mem.wf = true := by
    rw [State.pageAnswer_mem]; exact hu
  have hw (u : State) (hu : u.mem.wf = true) : (((u.writeReg .tsinkc 0 (tsinkcBits tsinkc) u.securityDie allDies).writeReg .tsink 0 (tsinkBits tsink) (u.writeReg .tsinkc 0 (tsinkcBits tsinkc) u.securityDie allDies).securityDie
      allDies).pageAnswer 1 0 0).mem.wf = true := by
    rw [State.pageAnswer_mem, State.writeReg_mem, State.writeReg_mem]; exact hu
  unfold execConfigHostSink
  refine State.ite_wf (by rw [State.turnAway_mem]; exact h) (State.ite_wf (ha _ _ _ h) (State.ite_wf ?_ ?_))
  · split
    · exact ha _ _ _ h
    · rename_i e
      exact ha _ _ _ (by rw [State.writeReg_mem, State.writeReg_mem, State.openSink_mem e]; exact h)
  · split 
    · exact ha _ _ _ (by rw [State.writeReg_mem, State.writeReg_mem]; simp [h])
    · exact ha _ _ _ (by rw [State.writeReg_mem, State.writeReg_mem]; exact h)

@[simp] theorem execReadLastReel_keepsForm die bus : KeepsForm (execReadLastReel die bus s) := by
  unfold execReadLastReel; (repeat' split) <;> simp [h]
@[simp] theorem execPtpSync_keepsForm offset valid : KeepsForm (execPtpSync offset valid s) := by
  unfold execPtpSync; dsimp only; (repeat' split) <;> simp [h]
@[simp] theorem execTimebaseHoldover_keepsForm : KeepsForm (execTimebaseHoldover s) := by
  unfold execTimebaseHoldover; dsimp only; split <;> simp [h]
@[simp] theorem execTimeControlWrite_keepsForm v : KeepsForm (execTimeControlWrite v s) := by
  unfold execTimeControlWrite; dsimp only; (repeat' split) <;> simp [h]

/-! ### Traps, system registers and teams -/

@[simp] theorem execTrap_keepsForm code : KeepsForm (execTrap code s) := by
  simp [execTrap, h]
@[simp] theorem execBrk_keepsForm code : KeepsForm (execBrk code s) := by
  simp [execBrk, h]
@[simp] theorem execReservedInstruction_keepsForm err epc d0 : KeepsForm (execReservedInstruction err epc d0 s) := by
  simp [execReservedInstruction, h]
@[simp] theorem execEret_keepsForm : KeepsForm (execEret s) := by
  unfold execEret; dsimp only; (repeat' split) <;> simp [h]
@[simp] theorem execRqread_keepsForm dst entry word : KeepsForm (execRqread dst entry word s) := by
  unfold execRqread; split <;> simp [h]
@[simp] theorem execRqwrite_keepsForm a entry word : KeepsForm (execRqwrite a entry word s) := by
  unfold execRqwrite; dsimp only; (repeat' split) <;> simp [h]
@[simp] theorem execTrapEntry_keepsForm ep : KeepsForm (execTrapEntry ep s) := by
  unfold execTrapEntry; dsimp only; (repeat' split) <;> simp [h]
@[simp] theorem execGangFollowerFault_keepsForm ep : KeepsForm (execGangFollowerFault ep s) := by
  unfold execGangFollowerFault; dsimp only; (repeat' split) <;> simp [h]
@[simp] theorem execPreempt_keepsForm req : KeepsForm (execPreempt req s) := by
  unfold execPreempt; dsimp only; (repeat' split) <;> simp [h]
@[simp] theorem execHalt_keepsForm : KeepsForm (execHalt s) := by
  simp [execHalt, h]
@[simp] theorem execKill_keepsForm reason : KeepsForm (execKill reason s) := by
  unfold execKill; split <;> simp [h]
@[simp] theorem execSrw_keepsForm a reg : KeepsForm (execSrw a reg s) := by
  unfold execSrw; dsimp only; split <;> simp [h]
@[simp] theorem execRback_keepsForm dst a : KeepsForm (execRback dst a s) := by
  unfold execRback; dsimp only; (repeat' split) <;> simp [h]
@[simp] theorem execWatchdogExpiry_keepsForm ep : KeepsForm (execWatchdogExpiry ep s) := by
  unfold execWatchdogExpiry; dsimp only; (repeat' split) <;> simp [h]

/-! ### Key slots, meters and the Scroll -/

@[simp] theorem execStagingDrain_keepsForm : KeepsForm (execStagingDrain s) := by
  unfold execStagingDrain; dsimp only; (repeat' split) <;> simp [h]
@[simp] theorem execArchivedSeqWrite_keepsForm seq : KeepsForm (execArchivedSeqWrite seq s) := by
  unfold execArchivedSeqWrite; split <;> simp [h]
@[simp] theorem execCheckpointRequest_keepsForm : KeepsForm (execCheckpointRequest s) := by
  unfold execCheckpointRequest; (repeat' split) <;> simp [h]
@[simp] theorem execKeyLoad_keepsForm slot pkg : KeepsForm (execKeyLoad slot pkg s) := by
  unfold execKeyLoad; (repeat' split) <;> simp [h]
@[simp] theorem execKeyUpdate_keepsForm slot pkg : KeepsForm (execKeyUpdate slot pkg s) := by
  unfold execKeyUpdate; dsimp only; (repeat' split) <;> simp [h]
@[simp] theorem execHostErase_keepsForm slot : KeepsForm (execHostErase slot s) := by
  unfold execHostErase; (repeat' split) <;> simp [h]
@[simp] theorem execKeyPublicCopy_keepsForm bus : KeepsForm (execKeyPublicCopy bus s) := by
  unfold execKeyPublicCopy; split <;> simp [h]
@[simp] theorem execAttestation_keepsForm nonce bus : KeepsForm (execAttestation nonce bus s) := by
  unfold execAttestation; (repeat' split) <;> simp [h]
@[simp] theorem execEgressBeat_keepsForm id : KeepsForm (execEgressBeat id s) := by
  unfold execEgressBeat; dsimp only; (repeat' split) <;> simp [h]
@[simp] theorem execScrollAppend_keepsForm : KeepsForm (execScrollAppend s) := by
  unfold execScrollAppend; dsimp only; (repeat' split) <;> simp [h]
@[simp] theorem execMeterWindow_keepsForm slot : KeepsForm (execMeterWindow slot s) := by
  unfold execMeterWindow; split <;> simp [h]

/-! ### Address spaces -/

@[simp] theorem execDerive_keepsForm (part : Nat) : KeepsForm (execDerive part s) := by
  unfold execDerive
  split
  · exact h
  · rename_i e
    have ht := State.treeHead_wf h e
    split
    · simp [ht]
    · simp [ht]
    · dsimp only
      split <;> simp [ht]

@[simp] theorem execUnmapEffect_keepsForm (part : Nat) : KeepsForm (execUnmapEffect part s) := by
  unfold execUnmapEffect
  split
  · exact h
  · rename_i e
    have ht := State.treeHead_wf h e
    split
    · simp [ht]
    · split <;> simp [ht]

@[simp] theorem execDeadMarks_keepsForm op : KeepsForm (execDeadMarks op s) := by
  unfold execDeadMarks; dsimp only; (repeat' split) <;> simp [h]
@[simp] theorem execInvalidationRound_keepsForm op : KeepsForm (execInvalidationRound op s) := by
  unfold execInvalidationRound; (repeat' split) <;> simp [h]
@[simp] theorem execInvalidationAck_keepsForm op : KeepsForm (execInvalidationAck op s) := by
  unfold execInvalidationAck; dsimp only; (repeat' split) <;> simp [h]
@[simp] theorem execMigrationHandover_keepsForm page toHost : KeepsForm (execMigrationHandover page toHost s) := by
  unfold execMigrationHandover; split <;> simp [h]

@[simp] theorem execWindowChange_keepsForm (part : Nat) : KeepsForm (execWindowChange part s) := by
  unfold execWindowChange
  split
  · exact h
  · rename_i e
    have ht := State.treeHead_wf h e
    dsimp only
    split
    · split <;> simp [ht]
    · split <;> simp [ht]
    · exact ht

@[simp] theorem execUnmap_keepsForm dst a self : KeepsForm (execUnmap dst a self s) := by
  unfold execUnmap; dsimp only; split <;> simp [h]
@[simp] theorem execUnmapAsync_keepsForm dst a self ep handler : KeepsForm (execUnmapAsync dst a self ep handler s) := by
  unfold execUnmapAsync; dsimp only; (repeat' split) <;> simp [h]
@[simp] theorem execAcceptOpen_keepsForm dst a win lgw maxr src host ep handler : KeepsForm (execAcceptOpen dst a win lgw maxr src host ep handler s) := by
  unfold execAcceptOpen; dsimp only; split <;> simp [h]
@[simp] theorem execMquery_keepsForm dst a sel : KeepsForm (execMquery dst a sel s) := by
  unfold execMquery; dsimp only; split <;> simp [h]
@[simp] theorem execXflush_keepsForm dst a lg : KeepsForm (execXflush dst a lg s) := by
  unfold execXflush; dsimp only; split <;> simp [h]

/-! ### Purges, fences and elections -/

@[simp] theorem execKillSweep_keepsForm ctx : KeepsForm (execKillSweep ctx s) := by
  unfold execKillSweep; split <;> simp [h]
@[simp] theorem execKillConfirm_keepsForm ctx : KeepsForm (execKillConfirm ctx s) := by
  unfold execKillConfirm; split <;> simp [h]
@[simp] theorem execKillComplete_keepsForm ctx : KeepsForm (execKillComplete ctx s) := by
  unfold execKillComplete; dsimp only; (repeat' split) <;> simp (maxDischargeDepth := 8) [h]
@[simp] theorem execDieFence_keepsForm die : KeepsForm (execDieFence die s) := by
  unfold execDieFence; dsimp only; (repeat' split) <;> simp [h]
@[simp] theorem execServiceFailover_keepsForm die : KeepsForm (execServiceFailover die s) := by
  unfold execServiceFailover; split <;> simp [h]
@[simp] theorem execMasterElection_keepsForm part : KeepsForm (execMasterElection part s) := by
  unfold execMasterElection; dsimp only; (repeat' split) <;> simp (maxDischargeDepth := 8) [h]

/-! ### Hosts -/

@[simp] theorem execCreateContext_keepsForm tenant part pager ep handler : KeepsForm (execCreateContext tenant part pager ep handler s) := by
  unfold execCreateContext; dsimp only; (repeat' split) <;> simp [h]
@[simp] theorem execDestroyContext_keepsForm ctx : KeepsForm (execDestroyContext ctx s) := by
  unfold execDestroyContext; split <;> simp [h]
@[simp] theorem execCreateRoot_keepsForm phys lg part isSealed slot tenant : KeepsForm (execCreateRoot phys lg part isSealed slot tenant s) := by
  unfold execCreateRoot; dsimp only; (repeat' split) <;> simp [h]
@[simp] theorem execMapRoot_keepsForm node ctx win off rights : KeepsForm (execMapRoot node ctx win off rights s) := by
  unfold execMapRoot; (repeat' split) <;> simp [h]
@[simp] theorem execUnmapRoot_keepsForm node self : KeepsForm (execUnmapRoot node self s) := by
  unfold execUnmapRoot; (repeat' split) <;> simp [h]

@[simp] theorem execCreateJob_keepsForm (ctx : Nat) : KeepsForm (execCreateJob ctx s) := by
  unfold execCreateJob
  dsimp only
  apply State.ite_wf (by simpa using h)
  apply State.ite_wf (by simpa using h)
  split
  · simpa using h
  · rename_i e; have hm := State.takeIndex_mem _ _ _ e; simp only [] at hm; simpa [hm] using h

@[simp] theorem execCloseJob_keepsForm ctx job : KeepsForm (execCloseJob ctx job s) := by
  unfold execCloseJob; split <;> simp [h]
@[simp] theorem execBindPage_keepsForm port page bind ctx graph vec : KeepsForm (execBindPage port page bind ctx graph vec s) := by
  unfold execBindPage; (repeat' split) <;> simp [h]
@[simp] theorem execWriteTableEntry_keepsForm table port index w0 w1 w2 : KeepsForm (execWriteTableEntry table port index w0 w1 w2 s) := by
  unfold execWriteTableEntry; dsimp only; (repeat' split) <;> simp [h]
@[simp] theorem execHostKill_keepsForm ctx : KeepsForm (execHostKill ctx s) := by
  unfold execHostKill; split <;> simp [h]
@[simp] theorem execHostFence_keepsForm die : KeepsForm (execHostFence die s) := by
  unfold execHostFence; (repeat' split) <;> simp [h]
@[simp] theorem execClaimWrite_keepsForm source owner writer : KeepsForm (execClaimWrite source owner writer s) := by
  unfold execClaimWrite; dsimp only; (repeat' split) <;> simp [h]
@[simp] theorem execCallSubmit_keepsForm page words : KeepsForm (execCallSubmit page words s) := by
  unfold execCallSubmit; dsimp only; (repeat' split) <;> simp [h]
@[simp] theorem execCallRingConsume_keepsForm core count : KeepsForm (execCallRingConsume core count s) := by
  unfold execCallRingConsume; dsimp only; split <;> simp [h]
@[simp] theorem execSubmitLaunch_keepsForm port page write : KeepsForm (execSubmitLaunch port page write s) := by
  unfold execSubmitLaunch; dsimp only; (repeat' split) <;> simp [h]
@[simp] theorem execSubmitMessage_keepsForm port page record : KeepsForm (execSubmitMessage port page record s) := by
  unfold execSubmitMessage; dsimp only; (repeat' split) <;> simp [h]
@[simp] theorem execDebugAttach_keepsForm ctx requester : KeepsForm (execDebugAttach ctx requester s) := by
  unfold execDebugAttach; (repeat' split) <;> simp [h]
@[simp] theorem execDebugDetach_keepsForm requester : KeepsForm (execDebugDetach requester s) := by
  unfold execDebugDetach; (repeat' split) <;> simp [h]
@[simp] theorem execDebugRead_keepsForm requester core addr reg : KeepsForm (execDebugRead requester core addr reg s) := by
  unfold execDebugRead; dsimp only; (repeat' split) <;> simp [h]
@[simp] theorem execDebugWrite_keepsForm requester core addr reg v : KeepsForm (execDebugWrite requester core addr reg v s) := by
  unfold execDebugWrite; (repeat' split) <;> simp [h]
@[simp] theorem execDebugResume_keepsForm requester ep : KeepsForm (execDebugResume requester ep s) := by
  unfold execDebugResume; (repeat' split) <;> simp [h]
@[simp] theorem execSchedWordWrite_keepsForm part v : KeepsForm (execSchedWordWrite part v s) := by
  unfold execSchedWordWrite; dsimp only; split <;> simp [h]
@[simp] theorem execClassCostWrite_keepsForm part cls v : KeepsForm (execClassCostWrite part cls v s) := by
  unfold execClassCostWrite; dsimp only; split <;> simp [h]
@[simp] theorem execLateConsumedWrite_keepsForm part v : KeepsForm (execLateConsumedWrite part v s) := by
  unfold execLateConsumedWrite; dsimp only; split <;> simp [h]
@[simp] theorem execSelfTestIntervalWrite_keepsForm v : KeepsForm (execSelfTestIntervalWrite v s) := by
  unfold execSelfTestIntervalWrite; dsimp only; (repeat' split) <;> simp [h]
@[simp] theorem execRegisterWrite_keepsForm page offset v : KeepsForm (execRegisterWrite page offset v s) := by
  unfold execRegisterWrite; split <;> simp [h]
@[simp] theorem execEccCorrectedError_keepsForm die : KeepsForm (execEccCorrectedError die s) := by
  unfold execEccCorrectedError; split <;> simp [h]
@[simp] theorem execMsixTableWrite_keepsForm port vector entry : KeepsForm (execMsixTableWrite port vector entry s) := by
  unfold execMsixTableWrite; dsimp only; (repeat' split) <;> simp [h]

/-! ### Links and ports -/

@[simp] theorem execInboundAccess_keepsForm port addr write data len requester : KeepsForm (execInboundAccess port addr write data len requester s) := by
  unfold execInboundAccess; dsimp only; (repeat' split) <;> simp [h]
@[simp] theorem execCxlMemRequest_keepsForm port addr write excl data : KeepsForm (execCxlMemRequest port addr write excl data s) := by
  unfold execCxlMemRequest; (repeat' split) <;> simp [h]
@[simp] theorem execFunctionLevelReset_keepsForm port : KeepsForm (execFunctionLevelReset port s) := by
  unfold execFunctionLevelReset; split <;> simp [h]
@[simp] theorem execScallinkFrame_keepsForm conn seq message hdr dest addr words ackOnly ackSeq refused : KeepsForm (execScallinkFrame conn seq message hdr dest addr words ackOnly ackSeq refused s) := by
  unfold execScallinkFrame; (repeat' split) <;> simp [h]
@[simp] theorem execScallinkRetransmit_keepsForm conn : KeepsForm (execScallinkRetransmit conn s) := by
  unfold execScallinkRetransmit; dsimp only; (repeat' split) <;> simp [h]
@[simp] theorem execLinkState_keepsForm port up : KeepsForm (execLinkState port up s) := by
  unfold execLinkState; dsimp only; split <;> simp [h]

/-! ### Boot -/

@[simp] theorem execPowerOnReset_keepsForm : KeepsForm (execPowerOnReset s) := by
  simp [execPowerOnReset, h]
@[simp] theorem execWarmReset_keepsForm : KeepsForm (execWarmReset s) := by
  simp [execWarmReset, h]
@[simp] theorem execWarmResetRequest_keepsForm : KeepsForm (execWarmResetRequest s) := by
  unfold execWarmResetRequest; split <;> simp [h]
@[simp] theorem execBootRelease_keepsForm cfg : KeepsForm (execBootRelease cfg s) := by
  unfold execBootRelease; (repeat' split) <;> simp [h]
@[simp] theorem execBootReady_keepsForm : KeepsForm (execBootReady s) := by
  unfold execBootReady; dsimp only; (repeat' split) <;> simp (maxDischargeDepth := 8) [h]
@[simp] theorem execRecoveryOffsetWrite_keepsForm off : KeepsForm (execRecoveryOffsetWrite off s) := by
  unfold execRecoveryOffsetWrite; split <;> simp [h]
@[simp] theorem execRecoveryDataWrite_keepsForm v : KeepsForm (execRecoveryDataWrite v s) := by
  unfold execRecoveryDataWrite; dsimp only; split <;> simp [h]

/-! ### Control transfers -/

@[simp] theorem execBr_keepsForm c a b off : KeepsForm (execBr c a b off s) := by
  unfold execBr; split <;> simp [h]
@[simp] theorem execJ_keepsForm off : KeepsForm (execJ off s) := by
  simp [execJ, h]
@[simp] theorem execJl_keepsForm dst off : KeepsForm (execJl dst off s) := by
  unfold execJl; dsimp only; split <;> simp [h]
@[simp] theorem execJr_keepsForm a imm : KeepsForm (execJr a imm s) := by
  simp [execJr, h]
@[simp] theorem execRet_keepsForm a imm : KeepsForm (execRet a imm s) := by
  unfold execRet; dsimp only; split <;> simp [h]
@[simp] theorem execLoop_keepsForm dst a off : KeepsForm (execLoop dst a off s) := by
  unfold execLoop; dsimp only; (repeat' split) <;> simp [h]
@[simp] theorem execRep_keepsForm n len stag : KeepsForm (execRep n len stag s) := by
  unfold execRep; dsimp only; split <;> simp [h]

/-! ### Vector instructions -/

@[simp] theorem execVbcast_keepsForm t o : KeepsForm (execVbcast t o s) := by
  unfold execVbcast; dsimp only; (repeat' split) <;> simp [h]
@[simp] theorem execVidx_keepsForm t m pd dsel start stp ctl : KeepsForm (execVidx t m pd dsel start stp ctl s) := by
  simp [execVidx, h]
@[simp] theorem execVcmp_keepsForm t r wr o : KeepsForm (execVcmp t r wr o s) := by
  unfold execVcmp; (repeat' split) <;> simp [h]
@[simp] theorem execVred_keepsForm t op o : KeepsForm (execVred t op o s) := by
  simp [execVred, h]
@[simp] theorem execVla_keepsForm t m pa _ctl : KeepsForm (execVla t m pa _ctl s) := by
  simp [execVla, h]
@[simp] theorem execVsa_keepsForm t m pd ctl : KeepsForm (execVsa t m pd ctl s) := by
  simp [execVsa, h]

@[simp] theorem execVgath_keepsForm (t : LaneTy) (m : Fin 4) (pa pb : Fin 8) (ctl : BitVec 5) :
    KeepsForm (execVgath t m pa pb ctl s) :=
  State.longStep_wf m pa pb true h fun _ _ _ _ hu => by simpa using hu

@[simp] theorem execVscat_keepsForm (t : LaneTy) (m : Fin 4) (pb pd : Fin 8) (ctl : BitVec 5) :
    KeepsForm (execVscat t m pb pd ctl s) :=
  State.longStep_wf m pd pb false h fun _ _ _ _ hu => by simp [hu]

@[simp] theorem execLdb_keepsForm width sgn : KeepsForm (execLdb width sgn s) := by
  unfold execLdb; dsimp only; (repeat' split) <;> simp [h]
@[simp] theorem execStb_keepsForm width : KeepsForm (execStb width s) := by
  unfold execStb; dsimp only; (repeat' split) <;> simp [h]

end

/-- Every instruction and every event keeps memory in its canonical form: those that only name other fields of the state as it
stands, those that share one operation by that operation's law, and the others each by its own lemma. -/
theorem exec_keepsForm (i : Instr) {s : State} (h : s.mem.wf = true) : KeepsForm (exec i s) := by
  cases i
  case fence | cnset | cnget | laneid | coord | hcfgRearm | cstat | tsread | nop | fill | srr | acceptClose |
    fadd | fsub | fmul | ffma | fdiv | fsqrt | fexp2 | flog2 | frsq | fmin | fmax | fabs | fneg | fcmp | fcvt |
    add | addi | sub | neg | and | or | xor | andn | not | shl | shr | rotl | clz | ctz | popc | seq | bfx |
    min | max | slt | shra | sext | minn | maxn | sltn | zext | sel | bfi | mul | mulh | mulhn | div | rem |
    divn | remn | li | lih | movk | movg | movm | vcvt | pset | padv | pget | baset => exact h
  case vadd | vsub | vmul | vmin | vmax | vabs | vand | vor | vxor | vshl | vshr | vfma | vexp2 | vrsq | vrcp |
    vscl | vsel | vperm => exact State.vecMap_wf _ _ _ _ _ _ h
  case mmask | mprec | mzero | mmul | mmulb | msca | msendt | mrecvt | mmove | mload | e8cvt => exact State.command_wf _ _ h
  case graphCreate | phaseCreate => exact (congrArg Memory.wf (State.createHere_mem _ _ _ _)).trans h
  case graphClose | phaseClose | jobClose => exact (congrArg Memory.wf (State.closeHere_mem _ _ _ _)).trans h
  case map | grant => exact State.mapOrGrant_wf _ _ _ _ _ _ _ _ _ _ h
  case uncorrectableError | heartbeatLoss | thermalTrip => exact (congrArg Memory.wf (State.wantFence_mem _ _ _)).trans h
  case launchAdmission => exact State.admitHead_wf _ _ h
  all_goals simp [h]

/-! ### The step -/

/-- The state that a thread's turn leaves, whether its instruction issues or waits. -/
def Issue.state : Issue → State
  | .wait s | .run _ s => s

theorem State.tryIssue_wf {s : State} (ep : Nat) (i : Instr) (h : s.mem.wf = true) : (s.tryIssue ep i).state.mem.wf = true := by
  unfold State.tryIssue
  split
  · exact h
  · exact (State.tick_mem s ep i).symm ▸ h

theorem State.issue_wf {s : State} (ep : Nat) (h : s.mem.wf = true) : (s.issue ep).state.mem.wf = true := by
  have ht : ({ s with cur := ep }.tookTurn ep (List.range 8)).mem.wf = true := State.tookTurn_wf _ _ _ h
  unfold State.issue
  dsimp only
  generalize { s with cur := ep }.tookTurn ep (List.range 8) = u at ht ⊢
  split
  · exact ht
  split
  · exact ht
  split
  · exact State.takePreempt_wf _ _ _ _ ht
  split
  · exact ht
  split
  · exact State.tryIssue_wf _ _ ht
  split
  · exact State.tryIssue_wf _ _ ht
  split
  · split
    · exact ht
    split
    · exact ht
    · exact State.tryIssue_wf _ _ ht
  · split
    · exact ht
    split
    · exact ht
    · exact State.tryIssue_wf _ _ ht

theorem exec_next_wf {i : Instr} {s t : State} (h : s.mem.wf = true) (e : exec i s = .next t) : t.mem.wf = true := by
  have hk := exec_keepsForm i h
  rw [e] at hk
  exact hk

theorem step_keepsForm {s : State} (h : Safe s) : KeepsForm (step s) := by
  have hm : s.nextMove.2.mem.wf = true := (congrArg Memory.wf s.nextMove_mem).trans h
  unfold step
  dsimp only
  split
  case h_1 ep _ =>
    have hi := State.issue_wf ep hm
    split <;> (rename_i he; rw [he] at hi)
    · exact hi
    · split
      · exact hm
      · split
        · rename_i hn
          have ht := exec_next_wf hi hn
          simpa using ht
        · trivial
        · trivial
  case h_2 =>
    split
    · exact exec_keepsForm _ hm
    · trivial
  case h_3 => exact (congrArg Memory.wf (State.passTime_mem _ _)).trans hm
  case h_4 => exact State.treeRead_wf _ _ hm
  case h_5 => exact State.serviceAccess_wf _ _ _ _ _ _ _ hm

/-- Settles O58: the move is a thread's turn, an event, or one of the package's own, and each keeps the form. -/
theorem memoryStaysCanonical : Obligations.MemoryStaysCanonical := by
  intro s t h hs
  have hk := step_keepsForm h
  rw [hs] at hk
  exact hk

end Sys2Proof.Machine
end

section
/-!
SUPPORT. Control transfers (R62, R63, R129, R130): when one is taken, where it lands, and what each instruction does then.
-/
namespace Sys2Proof.Machine

/-- BR's condition as the table of R129 has it. -/
theorem condHolds_eq_branchTaken (c : Cond) (a b : Word) : condHolds c a b = branchTaken c a b := by
  have heq (x y : Word) : (x == y) = decide (x.toNat = y.toNat) := by
    rw [Bool.beq_eq_decide_eq]; exact decide_eq_decide.mpr BitVec.toNat_inj.symm
  cases c with
  | eq => exact heq a b
  | ne => simp only [condHolds, branchTaken, bne, heq, decide_not]
  | lt => rfl
  | ge => simp only [condHolds, branchTaken, BitVec.slt, ← decide_not, Int.not_lt]
  | ltn => rfl
  | gen => simp only [condHolds, branchTaken, BitVec.ult, ← decide_not, Nat.not_lt]
  | z => exact heq a 0
  | nz => simp only [condHolds, branchTaken, bne, heq, decide_not]; rfl

/-! ### Changes of the acting thread, one after the other -/

theorem State.upd_upd (s : State) (f g : Thread → Thread) : (s.upd f).upd g = s.upd fun t => g (f t) := by
  show { s with threads := nset (nset s.threads s.cur _) s.cur (g ((s.upd f).thr s.cur)) } = _
  rw [nset_nset, State.upd_thr, if_pos rfl]
  rfl

/-- The end of an instruction that has pushed a result. -/
theorem State.upd_result_done (s : State) (d : Dst) (v : Word) (len : Nat) :
    (s.upd (·.result d v)).done len = s.finish d v len := s.upd_upd _ _

@[simp] theorem Thread.result_follows (t : Thread) (d : Dst) (v : Word) : (t.result d v).follows = t.follows := rfl

/-- An instruction that changes its thread and then takes a transfer that lands. -/
theorem State.upd_gotoIn_jumped {s : State} {f : Thread → Thread} {target : W32} (n : Nat) (hf : (f s.me).follows = false)
    (h : Lands s target) :
    ∃ t, (s.upd f).gotoIn target n = t ∧ Jumped s t target n ∧
      t.me = { f s.me with regs := { (f s.me).regs with pc := target, pix := 0 }, retired := (f s.me).retired + 1,
                           issueAt := (s.core s.curCore).clock + 1 + n } := by
  have hf' : (s.upd f).me.follows = false := by rw [State.upd_me]; exact hf
  refine ⟨_, State.gotoIn_lands n hf' h, ?_⟩
  rw [State.upd_upd]
  refine ⟨⟨?_, ?_, ?_, s.upd_onlyMe _⟩, ?_⟩ <;> rw [State.upd_me] <;> rfl

/-- A transfer that lands changes no register of its thread but the pc. -/
theorem State.goto_jumped {s : State} {target : W32} (hf : s.me.follows = false) (h : Lands s target) :
    Jumped s (s.goto target) target 2 ∧ KeepsAllRegs s (s.goto target) := by
  rw [State.goto_lands hf h]
  refine ⟨⟨?_, ?_, ?_, s.upd_onlyMe _⟩, ?_, ?_⟩ <;> rw [State.upd_me]

/-- A transfer to window offset 28 raises cause 0x02 at the target. -/
theorem State.goto_window {s : State} {target : W32} (hf : s.me.follows = false) (h28 : target.toNat % 32 = 28)
    (hin : target.toNat < padSize s.curCore) : s.goto target = s.raiseAt 0x02 false 0 target := by
  unfold State.goto State.gotoIn
  have h4 : target.toNat % 4 = 0 := by omega
  rw [if_neg (by simp [hf]), if_neg (by simp [h4]; omega), if_pos (by simp [h28])]

/-! ### When the transfer of an instruction lands -/

theorem State.lands_of_follows {s : State} (target : W32) (h : s.me.follows = true) : s.lands target = true := by
  simp [State.lands, h]

theorem State.lands_iff {s : State} {target : W32} (hf : s.me.follows = false) : s.lands target = true ↔ Lands s target := by
  simp [State.lands, Lands, hf, and_assoc]

theorem State.lands_of_lands {s : State} {target : W32} (h : Lands s target) : s.lands target = true := by
  obtain ⟨h1, h2, h3⟩ := h
  simp [State.lands, h1, h2, h3]

theorem State.not_lands {s : State} {target : W32} (hf : s.me.follows = false) (h : ¬ Lands s target) :
    s.lands target = false := by
  rw [Bool.eq_false_iff, Ne, State.lands_iff hf]; exact h

/-! ### The instructions -/

section
variable {s : State} {c : Cond} {a b : Src} {off imm : W32} {d : Dst}

theorem execBr_taken (h : branchTaken c (s.raw 0 a) (s.raw 0 b) = true) :
    execBr c a b off s = .next (s.goto (s.me.regs.pc + off)) := by
  rw [← condHolds_eq_branchTaken] at h
  unfold execBr; dsimp only; rw [if_pos h]

theorem execBr_passed (h : branchTaken c (s.raw 0 a) (s.raw 0 b) = false) : execBr c a b off s = .next (s.done 8) := by
  rw [← condHolds_eq_branchTaken] at h
  unfold execBr; dsimp only; rw [if_neg (by rw [h]; exact Bool.false_ne_true)]

theorem execJl_taken (h : s.lands (s.me.regs.pc + off) = true) :
    execJl d off s = .next ((s.upd fun t =>
      { t.result d ((nextPc s.me.regs.pc 8).setWidth 64) with
        regs := { (t.result d ((nextPc s.me.regs.pc 8).setWidth 64)).regs with
          ras := rasPush (t.result d ((nextPc s.me.regs.pc 8).setWidth 64)).regs.ras (nextPc s.me.regs.pc 8) } }).goto
      (s.me.regs.pc + off)) := by
  unfold execJl; dsimp only; rw [if_pos h]

theorem execJl_faults (h : s.lands (s.me.regs.pc + off) = false) :
    execJl d off s = .next (s.goto (s.me.regs.pc + off)) := by
  unfold execJl; dsimp only; rw [if_neg (by simp [h])]

theorem execRet_taken (h : s.lands ((s.raw imm a).setWidth 32) = true) :
    execRet a imm s = .next ((s.updRegs fun r => { r with ras := r.ras.drop 1 }).gotoIn ((s.raw imm a).setWidth 32)
      (if s.me.regs.ras.head? == some ((s.raw imm a).setWidth 32) then 1 else 2)) := by
  unfold execRet; dsimp only; rw [if_pos h]

theorem execRet_faults (h : s.lands ((s.raw imm a).setWidth 32) = false) :
    execRet a imm s = .next (s.goto ((s.raw imm a).setWidth 32)) := by
  unfold execRet; dsimp only; rw [if_neg (by simp [h])]

theorem sub_one_beq_zero (v : Word) : (v - 1 == 0) = (v == 1) := by
  rw [Bool.beq_eq_decide_eq, Bool.beq_eq_decide_eq]
  exact decide_eq_decide.mpr ⟨fun h => by bv_omega, fun h => by rw [h]; rfl⟩

theorem execLoop_last (h : s.raw 0 a = 1) : execLoop d a off s = .next (s.finish d 0 8) := by
  unfold execLoop; dsimp only; rw [h]; rfl

theorem execLoop_taken (hv : s.raw 0 a ≠ 1) (h : s.lands (s.me.regs.pc + off) = true) :
    execLoop d a off s = .next ((s.upd (·.result d (s.raw 0 a - 1))).goto (s.me.regs.pc + off)) := by
  unfold execLoop; dsimp only
  rw [if_neg (by rw [sub_one_beq_zero]; simpa using hv), if_pos h]

theorem execLoop_faults (hv : s.raw 0 a ≠ 1) (h : s.lands (s.me.regs.pc + off) = false) :
    execLoop d a off s = .next (s.goto (s.me.regs.pc + off)) := by
  unfold execLoop; dsimp only
  rw [if_neg (by rw [sub_one_beq_zero]; simpa using hv), if_neg (by simp [h])]

end

/-! ### Transfers that are taken and land -/

section
variable {s : State} {a : Src} {off imm : W32} {d : Dst} (hf : s.me.follows = false)
include hf

theorem execJl_jumps (h : Lands s (s.me.regs.pc + off)) :
    ∃ t, execJl d off s = .next t ∧ Jumped s t (s.me.regs.pc + off) 2 ∧
      Pushed s t d ((nextPc s.me.regs.pc 8).setWidth 64) ∧
      t.me.regs.ras = (nextPc s.me.regs.pc 8 :: s.me.regs.ras).take 4 := by
  obtain ⟨t, ht, hj, hme⟩ := State.upd_gotoIn_jumped (s := s) (f := fun t =>
    { t.result d ((nextPc s.me.regs.pc 8).setWidth 64) with
        regs := { (t.result d ((nextPc s.me.regs.pc 8).setWidth 64)).regs with
          ras := rasPush (t.result d ((nextPc s.me.regs.pc 8).setWidth 64)).regs.ras (nextPc s.me.regs.pc 8) } }) 2 hf h
  refine ⟨t, (execJl_taken (State.lands_of_lands h)).trans (congrArg _ ht), hj, ⟨?_, fun j => ?_⟩, ?_⟩ <;> rw [hme]
  · exact s.me.result_w d _
  · exact s.me.result_k d _ j
  · cases d <;> rfl

theorem execRet_jumps (h : Lands s ((s.raw imm a).setWidth 32)) :
    ∃ t, execRet a imm s = .next t ∧
      Jumped s t ((s.raw imm a).setWidth 32) (if s.me.regs.ras.head? = some ((s.raw imm a).setWidth 32) then 1 else 2) ∧
      t.me.regs.ras = s.me.regs.ras.drop 1 ∧ t.me.regs.w = s.me.regs.w ∧ t.me.regs.k = s.me.regs.k := by
  have he := execRet_taken (State.lands_of_lands h)
  simp only [beq_iff_eq] at he
  obtain ⟨t, ht, hj, hme⟩ := State.upd_gotoIn_jumped (s := s)
    (f := fun t => { t with regs := { t.regs with ras := t.regs.ras.drop 1 } })
    (if s.me.regs.ras.head? = some ((s.raw imm a).setWidth 32) then 1 else 2) hf h
  exact ⟨t, he.trans (congrArg _ ht), hj, by rw [hme], by rw [hme], by rw [hme]⟩

theorem execLoop_jumps (hv : s.raw 0 a ≠ 1) (h : Lands s (s.me.regs.pc + off)) :
    ∃ t, execLoop d a off s = .next t ∧ Jumped s t (s.me.regs.pc + off) 2 ∧ Pushed s t d (s.raw 0 a - 1) := by
  obtain ⟨t, ht, hj, hme⟩ := State.upd_gotoIn_jumped (s := s) (f := (·.result d (s.raw 0 a - 1))) 2 hf h
  refine ⟨t, (execLoop_taken hv (State.lands_of_lands h)).trans (congrArg _ ht), hj, ?_, fun j => ?_⟩ <;> rw [hme]
  · exact s.me.result_w d _
  · exact s.me.result_k d _ j

/-! ### Transfers that do not land -/

/-- At a target that no transfer lands at, every instruction that is taken does what `goto` does, and pushes nothing. -/
theorem transfers_fault {c : Cond} {b : Src} {target : W32} {t : State} (hl : ¬ Lands s target) (hg : s.goto target = t) :
    (s.me.regs.pc + off = target →
      execJ off s = .next t ∧ execJl d off s = .next t ∧
      (branchTaken c (s.raw 0 a) (s.raw 0 b) = true → execBr c a b off s = .next t) ∧
      (s.raw 0 a ≠ 1 → execLoop d a off s = .next t)) ∧
    ((s.raw imm a).setWidth 32 = target → execJr a imm s = .next t ∧ execRet a imm s = .next t) := by
  have hn := State.not_lands hf hl
  subst hg
  constructor
  · rintro rfl
    exact ⟨rfl, execJl_faults hn, execBr_taken, fun hv => execLoop_faults hv hn⟩
  · rintro rfl
    exact ⟨rfl, execRet_faults hn⟩

end

/-! ### Followers of a gang (R50) -/

section
variable {s : State} {a : Src} {off : W32} (hf : s.me.follows = true)
include hf

theorem State.goto_passed (target : W32) : Passed s (s.goto target) 8 := by
  rw [State.goto_follows target hf]; exact s.done_passed 8

theorem execBr_follows (c : Cond) (b : Src) : ∃ t, execBr c a b off s = .next t ∧ Passed s t 8 := by
  cases h : branchTaken c (s.raw 0 a) (s.raw 0 b) with
  | true => exact ⟨_, execBr_taken h, State.goto_passed hf _⟩
  | false => exact ⟨_, execBr_passed h, s.done_passed 8⟩

theorem execLoop_follows (d : Dst) (hv : s.raw 0 a ≠ 1) :
    ∃ t, execLoop d a off s = .next t ∧ Pushed s t d (s.raw 0 a - 1) ∧ Over s t 8 := by
  have hf' : (s.upd (·.result d (s.raw 0 a - 1))).me.follows = true := by rw [State.upd_me]; exact hf
  have he := execLoop_taken (d := d) hv (State.lands_of_follows (s.me.regs.pc + off) hf)
  rw [State.goto_follows _ hf', State.upd_result_done] at he
  obtain ⟨hpush, hover, -⟩ := s.finish_result d (s.raw 0 a - 1) 8
  exact ⟨_, he, hpush, hover⟩

end

/-- Settles O3: transfers that land, those of followers, and those that fault, each by the lemmas of its instruction. -/
theorem controlTransfers : Obligations.ControlTransfers := by
  refine ⟨⟨?_, ?_, ?_, ?_, ?_, ?_, ?_, ?_⟩, ?_, ?_⟩
  · exact fun s c a b off hf ht hl => ⟨_, execBr_taken ht, State.goto_jumped hf hl⟩
  · exact fun s c a b off ht => ⟨_, execBr_passed ht, s.done_passed 8⟩
  · exact fun s off hf hl => ⟨_, rfl, State.goto_jumped hf hl⟩
  · exact fun s d off hf hl => execJl_jumps hf hl
  · exact fun s a imm hf hl => ⟨_, rfl, State.goto_jumped hf hl⟩
  · exact fun s a imm hf hl => execRet_jumps hf hl
  · exact fun s d a off hf hv hl => execLoop_jumps hf hv hl
  · exact fun s d a off hv => ⟨_, execLoop_last hv, s.finish_result d 0 8⟩
  · exact fun s c a b off imm d hf => ⟨execBr_follows hf c b, ⟨_, rfl, State.goto_passed hf _⟩,
      ⟨_, rfl, State.goto_passed hf _⟩, execLoop_follows hf d⟩
  · intro s a b off imm c d target hf
    refine ⟨fun hbad => transfers_fault hf ?_ (State.goto_fault hf hbad),
      fun h28 hin => transfers_fault hf ?_ (State.goto_window hf h28 hin)⟩
    · rintro ⟨h4, hlt, -⟩
      omega
    · rintro ⟨-, -, hne⟩
      exact hne h28

end Sys2Proof.Machine
end

section
/-!
SUPPORT. What the reports of an event (slates, fault messages, notices) and the completion of records leave alone, and what
the counters of a launch show after it.
-/
namespace Sys2Proof.Machine

/-! ### Reports (R276, R432, R439) -/

/-- What a slate, a fault message or a notice may change. -/
def ReportsOnly (s t : State) : Prop :=
  { t with mem := s.mem, floors := s.floors, stamps := s.stamps, shares := s.shares, held := s.held,
           reelNext := s.reelNext, msgs := s.msgs, ids := s.ids, notices := s.notices } = s

theorem ReportsOnly.refl (s : State) : ReportsOnly s s := rfl
theorem ReportsOnly.trans {s t u : State} (h : ReportsOnly s t) (h' : ReportsOnly t u) : ReportsOnly s u := by
  unfold ReportsOnly at h h' ⊢
  rw [← h'] at h
  exact h
theorem TraceOnly.reports {s t : State} (h : TraceOnly s t) : ReportsOnly s t := by
  unfold TraceOnly at h
  unfold ReportsOnly
  rw [← h]

section
variable {s t : State} (h : ReportsOnly s t)
include h
theorem ReportsOnly.launches : t.launches = s.launches := by have := congrArg State.launches h; exact this
theorem ReportsOnly.cores : t.cores = s.cores := by have := congrArg State.cores h; exact this
theorem ReportsOnly.threads : t.threads = s.threads := by have := congrArg State.threads h; exact this
theorem ReportsOnly.cur : t.cur = s.cur := by have := congrArg State.cur h; exact this
end

theorem State.thr_of_threads {s t : State} (h : t.threads = s.threads) (ep : Nat) : t.thr ep = s.thr ep := by
  unfold State.thr; rw [h]
theorem State.core_of_cores {s t : State} (h : t.cores = s.cores) (c : Nat) : t.core c = s.core c := by
  unfold State.core; rw [h]
theorem State.launch_of_launches {s t : State} (h : t.launches = s.launches) (part tag : Nat) :
    t.launch part tag = s.launch part tag := by
  unfold State.launch; rw [h]

theorem State.faultMsg_reportsOnly (s : State) (ctx die src stampSrc : Nat) (f : FaultInfo) :
    ReportsOnly s (s.faultMsg ctx die src stampSrc f) := by
  unfold State.faultMsg
  dsimp only
  split <;> rfl

theorem State.coreFault_reportsOnly (s : State) (ep : Nat) (f : FaultInfo) : ReportsOnly s (s.coreFault ep f) :=
  s.faultMsg_reportsOnly _ _ _ _ _

/-! ### Records that complete (R45, R297, R334) -/

/-- What the completion of a launch changes beside the launches themselves: slates, records of levels 2 to 4, the indices that
are free, the admission queues, and the store of a completion entry. -/
def RecordsOnly (s t : State) : Prop :=
  { t with mem := s.mem, floors := s.floors, stamps := s.stamps, shares := s.shares, held := s.held,
           reelNext := s.reelNext, levels := s.levels, frees := s.frees, adm := s.adm, reqs := s.reqs, ids := s.ids,
           walks := s.walks } = s

theorem RecordsOnly.refl (s : State) : RecordsOnly s s := rfl
theorem RecordsOnly.trans {s t u : State} (h : RecordsOnly s t) (h' : RecordsOnly t u) : RecordsOnly s u := by
  unfold RecordsOnly at h h' ⊢
  rw [← h'] at h
  exact h
theorem TraceOnly.records {s t : State} (h : TraceOnly s t) : RecordsOnly s t := by
  unfold TraceOnly at h
  unfold RecordsOnly
  rw [← h]

section
variable {s t : State} (h : RecordsOnly s t)
include h
theorem RecordsOnly.launches : t.launches = s.launches := by have := congrArg State.launches h; exact this
theorem RecordsOnly.cores : t.cores = s.cores := by have := congrArg State.cores h; exact this
theorem RecordsOnly.threads : t.threads = s.threads := by have := congrArg State.threads h; exact this
theorem RecordsOnly.cur : t.cur = s.cur := by have := congrArg State.cur h; exact this
end

theorem State.promoteSlots_recordsOnly (s : State) (part graph : Nat) (xs : NMap Slot) :
    RecordsOnly s (s.promoteSlots part graph xs) := by
  induction xs generalizing s with
  | nil => exact RecordsOnly.refl s
  | cons x xs ih =>
    unfold State.promoteSlots
    refine RecordsOnly.trans ?_ (ih _)
    split
    · dsimp only
      split <;> rfl
    · exact RecordsOnly.refl s

theorem State.promote_recordsOnly (s : State) (part : Nat) (is : List Nat) : RecordsOnly s (s.promote part is) := by
  induction is generalizing s with
  | nil => exact RecordsOnly.refl s
  | cons i is ih =>
    unfold State.promote
    refine RecordsOnly.trans ?_ (ih _)
    split
    · exact RecordsOnly.refl s
    · split
      · exact s.promoteSlots_recordsOnly _ _ _
      · exact RecordsOnly.refl s

theorem State.settleLevel_recordsOnly (s : State) (lvl part i : Nat) : RecordsOnly s (s.settleLevel lvl part i) := by
  unfold State.settleLevel
  dsimp only
  split
  · split <;> rfl
  · exact RecordsOnly.refl s

theorem State.settleGraph_recordsOnly (s : State) (part graph : Nat) : RecordsOnly s (s.settleGraph part graph) :=
  (s.settleLevel_recordsOnly 2 part graph).trans <| (State.settleLevel_recordsOnly _ 3 part _).trans <|
    (State.settleLevel_recordsOnly _ 4 part _).trans (State.promote_recordsOnly _ part _)

theorem State.joinWalk_recordsOnly (s : State) (die who ctx va : Nat) : RecordsOnly s (s.joinWalk die who ctx va) := by
  unfold State.joinWalk
  dsimp only
  split
  · exact RecordsOnly.refl s
  · split
    · refine RecordsOnly.trans ?_ (State.emit_traceOnly _ _ _ _ _ _).records
      rfl
    · rfl

theorem State.completionEntry_recordsOnly (s : State) (part tag : Nat) (l : Launch) :
    RecordsOnly s (s.completionEntry part tag l) := by
  unfold State.completionEntry
  split
  · unfold State.joinReq
    dsimp only
    split
    · rfl
    · refine RecordsOnly.trans ?_ (State.joinWalk_recordsOnly _ _ _ _ _)
      rfl
  · exact RecordsOnly.refl s

theorem State.giveIndex_recordsOnly (s : State) (lvl part i : Nat) : RecordsOnly s (s.giveIndex lvl part i) := rfl
theorem State.updLevel_recordsOnly (s : State) (lvl part i : Nat) (f : Level → Level) :
    RecordsOnly s (s.updLevel lvl part i f) := rfl

@[simp] theorem State.updLaunch_launch_same (s : State) (part tag : Nat) (f : Launch → Launch) :
    (s.updLaunch part tag f).launch part tag = f (s.launch part tag) := nget_nset_same _ _ _ _

/-- What a launch that has completed shows: its counters are as they were. -/
def Launch.completed (f : Nat) (l : Launch) : Launch :=
  { l with state := if l.cancelled then .cancelled else .complete, pool := false, floor := f }

/-- A launch that completes takes its last state; beside it only records and slates change. -/
theorem State.settleLaunch_cases (s : State) (part tag : Nat) :
    s.settleLaunch part tag = s ∨
      ∃ f, RecordsOnly (s.updLaunch part tag (Launch.completed f)) (s.settleLaunch part tag) := by
  unfold State.settleLaunch
  dsimp only
  split
  · exact .inr ⟨_, (State.emit_traceOnly _ _ _ _ _ _).records.trans <| (State.completionEntry_recordsOnly _ _ _ _).trans <|
      (State.giveIndex_recordsOnly _ _ _ _).trans <| (State.updLevel_recordsOnly _ _ _ _ _).trans <|
      State.settleGraph_recordsOnly _ _ _⟩
  · exact .inl rfl

@[simp] theorem State.settleLaunch_cores (s : State) (part tag : Nat) : (s.settleLaunch part tag).cores = s.cores := by
  obtain h | ⟨_, h⟩ := s.settleLaunch_cases part tag
  · rw [h]
  · exact h.cores

/-- Completion changes no counter of a launch. -/
theorem State.settleLaunch_counts (s : State) (part tag : Nat) :
    ((s.settleLaunch part tag).launch part tag).exited = (s.launch part tag).exited ∧
      ((s.settleLaunch part tag).launch part tag).errors = (s.launch part tag).errors := by
  obtain h | ⟨_, h⟩ := s.settleLaunch_cases part tag
  · rw [h]; exact ⟨rfl, rfl⟩
  · rw [State.launch_of_launches h.launches, State.updLaunch_launch_same]
    exact ⟨rfl, rfl⟩

end Sys2Proof.Machine
end

section
/-!
SUPPORT. EXIT of a unit on one thread (R42, R248): the thread is free, and the unit counts as exited.
-/
namespace Sys2Proof.Machine

/-! ### The exit slate (R278) -/

/-- The exit slate changes no thread but for the mark that it has been formed, and beside threads only the trace. -/
theorem State.tellExit_cases (s : State) (ep : Nat) (err : Bool) :
    (s.thr ep).exitTold = true ∧ s.tellExit ep err = s ∨
      ∃ u, TraceOnly s u ∧ s.tellExit ep err = u.updThr ep fun t => { t with exitTold := true } := by
  unfold State.tellExit
  dsimp only
  by_cases h : (s.thr ep).exitTold = true
  · rw [if_pos h]; exact .inl ⟨h, rfl⟩
  · rw [if_neg h]; exact .inr ⟨_, s.emit_traceOnly _ _ _ _ _, rfl⟩

theorem Thread.exitTold_eq {t : Thread} (h : t.exitTold = true) : { t with exitTold := true } = t := by
  rw [← h]

theorem State.tellExit_thr (s : State) (ep : Nat) (err : Bool) (e : Nat) :
    (s.tellExit ep err).thr e = if e = ep then { s.thr e with exitTold := true } else s.thr e := by
  obtain ⟨ht, h⟩ | ⟨u, hu, h⟩ := s.tellExit_cases ep err
  · rw [h]
    split
    · subst e; exact (Thread.exitTold_eq ht).symm
    · rfl
  · rw [h, State.updThr_thr, hu.threadsKept.thr, hu.threadsKept.thr]
    split
    · subst e; rfl
    · rfl

/-- Beside threads the exit slate changes only the trace. -/
theorem State.tellExit_traceOnly (s : State) (ep : Nat) (err : Bool) :
    TraceOnly s { s.tellExit ep err with threads := s.threads } := by
  obtain ⟨_, h⟩ | ⟨u, hu, h⟩ := s.tellExit_cases ep err
  · rw [h]; exact TraceOnly.refl s
  · rw [h, ← hu.threads]; exact hu

/-- A second exit slate is not formed. -/
theorem State.tellExit_told {s : State} {ep : Nat} (err : Bool) (h : (s.thr ep).exitTold = true) : s.tellExit ep err = s := by
  unfold State.tellExit
  dsimp only
  rw [if_pos h]

/-! ### The other parts of a unit (R51) -/

/-- Whether a unit has other parts rests on what threads and park stores hold. -/
theorem State.hasMates_congr {s t : State} (ep : Nat) (hb : ∀ e, (t.thr e).busy = (s.thr e).busy)
    (hu : ∀ e, (t.thr e).unit = (s.thr e).unit) (hc : t.cores = s.cores) : t.hasMates ep = s.hasMates ep := by
  have hcore (c : Nat) : t.core c = s.core c := by unfold State.core; rw [hc]
  unfold State.hasMates State.unitThreads State.unitHere
  simp only [hb, hu, hcore]

/-! ### A core without waiting work (R40, R296) -/

theorem State.unbindIfIdle_threads (s : State) (core : Nat) : (s.unbindIfIdle core).threads = s.threads := by
  unfold State.unbindIfIdle
  dsimp only
  split <;> rfl

theorem State.unbindIfIdle_msgs (s : State) (core : Nat) : (s.unbindIfIdle core).msgs = s.msgs := by
  unfold State.unbindIfIdle
  dsimp only
  split <;> rfl

/-- With nothing spilled and nothing parked a core takes nothing up; it may unbind. -/
theorem State.settleCore_idle {s : State} {core : Nat} (hs : (s.core core).spilled = []) (hp : (s.core core).park = []) :
    s.settleCore core = s.unbindIfIdle core := by
  unfold State.settleCore
  simp only [hs, hp, List.length_nil, State.takeUp, State.skimSpill]

/-- Unbinding a core changes that core's record alone. -/
theorem State.unbindIfIdle_onlyCores (s : State) (core : Nat) : { s.unbindIfIdle core with cores := s.cores } = s := by
  unfold State.unbindIfIdle
  dsimp only
  split <;> rfl

/-! ### The retirement of a lone unit (R42) -/

/-- A touch that no barrier has reported is told to the pager (R248). -/
def State.reportTouch (s : State) (ep : Nat) : State :=
  if (s.thr ep).regs.gtouch.getLsbD 63 then s.coreFault ep { cause := 0x23, g2 := (s.thr ep).regs.gtouch } else s

theorem State.reportTouch_reportsOnly (s : State) (ep : Nat) : ReportsOnly s (s.reportTouch ep) := by
  unfold State.reportTouch
  split
  · exact s.coreFault_reportsOnly ep _
  · exact ReportsOnly.refl s

/-- A thread that its unit has left, before the unit is counted; the thread's undo entries are gone. -/
def State.left (s : State) (ep : Nat) : State :=
  ((s.reportTouch ep).updCore (epCore ep) fun k => { k with undo := k.undo.filter (·.thread != epThread ep) }).setThr ep
    (s.thr ep).freed

section
variable (s : State) (ep : Nat)

theorem State.left_thr (e : Nat) : (s.left ep).thr e = if e = ep then (s.thr ep).freed else s.thr e := by
  unfold State.left
  rw [State.setThr_thr, State.updCore_thr_same, State.thr_of_threads (s.reportTouch_reportsOnly ep).threads]

@[simp] theorem State.left_launches : (s.left ep).launches = s.launches := (s.reportTouch_reportsOnly ep).launches

@[simp] theorem State.left_cur : (s.left ep).cur = s.cur := (s.reportTouch_reportsOnly ep).cur

theorem State.left_core (c : Nat) : ∃ undo, (s.left ep).core c = { s.core c with undo := undo } := by
  have hc := State.core_of_cores (s.reportTouch_reportsOnly ep).cores
  unfold State.left
  rw [State.setThr_core_same, State.updCore_core, hc, hc]
  split
  · subst c; exact ⟨_, rfl⟩
  · exact ⟨_, rfl⟩

end

/-- What the exit of a unit counts (R42, R45). -/
theorem State.countExit_counts (s : State) (part launch : Nat) (err : Bool) :
    ((s.countExit part launch false err).launch part launch).exited = (s.launch part launch).exited + 1 ∧
      ((s.countExit part launch false err).launch part launch).errors =
        if err then Nat.min ((s.launch part launch).errors + 1) 0xFFFF else (s.launch part launch).errors := by
  unfold State.countExit
  obtain ⟨hx, he⟩ := State.settleLaunch_counts (s.updLaunch part launch fun l =>
    { l with exited := l.exited + 1, errors := if err then Nat.min (l.errors + 1) 0xFFFF else l.errors }) part launch
  rw [State.updLaunch_launch_same] at hx he
  exact ⟨hx, he⟩

theorem State.countExit_threadsKept (s : State) (part launch : Nat) (det err : Bool) :
    ThreadsKept s (s.countExit part launch det err) := by
  unfold State.countExit
  split
  · exact ThreadsKept.refl s
  · exact (s.updLaunch_threadsKept part launch _).trans (State.settleLaunch_threadsKept _ _ _)

@[simp] theorem State.countExit_cores (s : State) (part launch : Nat) (det err : Bool) :
    (s.countExit part launch det err).cores = s.cores := by
  unfold State.countExit
  split
  · rfl
  · exact State.settleLaunch_cores _ _ _

theorem State.countExit_det (s : State) (part launch : Nat) (err : Bool) : s.countExit part launch true err = s := rfl

/-- The acting thread's unit has left its thread and has been counted. -/
def State.counted (s : State) (err : Bool) : State :=
  (s.left s.cur).countExit s.myPart s.me.unit.launch s.me.unit.det (s.me.exitErr err)

section
variable {s : State} (err : Bool)

theorem State.counted_thr (e : Nat) : (s.counted err).thr e = if e = s.cur then s.me.freed else s.thr e :=
  ((State.countExit_threadsKept _ _ _ _ _).thr e).trans (s.left_thr s.cur e)

theorem State.counted_core (c : Nat) : ∃ undo, (s.counted err).core c = { s.core c with undo := undo } := by
  obtain ⟨undo, h⟩ := s.left_core s.cur c
  exact ⟨undo, (State.core_of_cores (State.countExit_cores _ _ _ _ _) c).trans h⟩

theorem State.counted_det (h : s.me.unit.det = true) : (s.counted err).launches = s.launches := by
  unfold State.counted
  rw [h, State.countExit_det, State.left_launches]

theorem State.counted_counts (h : s.me.unit.det = false) :
    ((s.counted err).launch s.myPart s.me.unit.launch).exited = (s.launch s.myPart s.me.unit.launch).exited + 1 ∧
      ((s.counted err).launch s.myPart s.me.unit.launch).errors =
        if s.me.exitErr err then Nat.min ((s.launch s.myPart s.me.unit.launch).errors + 1) 0xFFFF
        else (s.launch s.myPart s.me.unit.launch).errors := by
  unfold State.counted
  rw [h]
  have hc := (s.left s.cur).countExit_counts s.myPart s.me.unit.launch (s.me.exitErr err)
  rwa [State.launch_of_launches (s.left_launches s.cur)] at hc

/-- A unit with no other part, which no stage has started, frees its thread and is counted. -/
theorem State.retire_lone (htold : s.me.exitTold = true) (hm : s.hasMates s.cur = false) (he : s.me.entryOf = none) :
    s.retire s.cur err = (s.counted err).settleCore s.curCore := by
  have hr := s.reportTouch_reportsOnly s.cur
  have hthr := State.thr_of_threads hr.threads
  have htold' : ((s.reportTouch s.cur).thr s.cur).exitTold = true := by rw [hthr]; exact htold
  have hm' := (State.hasMates_congr s.cur (fun e => by rw [hthr]) (fun e => by rw [hthr]) hr.cores).trans hm
  have hu : (if (s.thr s.cur).regs.gtouch.getLsbD 63 then
    s.coreFault s.cur { cause := 0x23, g2 := (s.thr s.cur).regs.gtouch } else s) = s.reportTouch s.cur := rfl
  unfold State.retire
  simp only [hu, State.tellExit_told _ htold', hm', show (s.thr s.cur).entryOf = none from he, Bool.and_false]
  rfl

/-- Its core, which has nothing to take up, may unbind. -/
theorem State.retire_lone_unbinds (htold : s.me.exitTold = true) (hm : s.hasMates s.cur = false) (he : s.me.entryOf = none)
    (hs : (s.core s.curCore).spilled = []) (hp : (s.core s.curCore).park = []) :
    s.retire s.cur err = (s.counted err).unbindIfIdle s.curCore := by
  obtain ⟨undo, hc⟩ := State.counted_core (s := s) err s.curCore
  rw [State.retire_lone err htold hm he]
  exact State.settleCore_idle (by rw [hc]; exact hs) (by rw [hc]; exact hp)

end

/-! ### The instruction -/


/-- Outside a merge routine EXIT ends its unit. -/
theorem execExit_plain {s : State} (err : Bool) (h : s.me.routine = .none) : execExit err s = .next (s.exitUnit err) := by
  unfold execExit
  rw [h]

/-- A unit on one thread whose slate is not held retires once it has been told. -/
theorem State.exitUnit_lone {s : State} (err : Bool) (hg : s.me.gang = none)
    (hh : (s.tellExit s.cur err).holding s.cur = false) :
    s.exitUnit err = (s.tellExit s.cur err).retire s.cur err := by
  have hm : s.membersOf s.cur = [s.cur] := by
    unfold State.membersOf
    rw [show (s.thr s.cur).gang = none from hg]
  unfold State.exitUnit
  simp only [hm, State.tellExits, List.any_cons, List.any_nil, hh, Bool.or_false, Bool.false_eq_true, if_false,
    State.retireAll]

/-- What a thread holds when its exit slate has been formed. -/
theorem State.told_me {s u : State} (h : ∀ e, u.thr e = if e = s.cur then { s.thr e with exitTold := true } else s.thr e)
    (hc : u.cur = s.cur) : u.me = { s.me with exitTold := true } := by
  unfold State.me
  rw [hc, h, if_pos rfl]

/-- Settles O21: the lone unit is told, leaves its thread, and is counted; its core has nothing to take up. -/
theorem exits : Obligations.Exits := by
  intro s err hg hrout hm he hs hp hh
  have hexec := (execExit_plain err hrout).trans (congrArg _ (State.exitUnit_lone err hg hh))
  have hthr := s.tellExit_thr s.cur err
  have htrace := s.tellExit_traceOnly s.cur err
  generalize s.tellExit s.cur err = u at hexec hthr htrace
  have hlaunches : u.launches = s.launches := by have := congrArg State.launches htrace; exact this
  have hcores : u.cores = s.cores := by have := congrArg State.cores htrace; exact this
  have hparts : u.parts = s.parts := by have := congrArg State.parts htrace; exact this
  have hcur : u.cur = s.cur := htrace.cur
  have hme := State.told_me hthr hcur
  have hcore : u.curCore = s.curCore := congrArg epCore hcur
  have hpart : u.myPart = s.myPart := by unfold State.myPart State.partOf; rw [hparts, hcore]
  have hm' : u.hasMates u.cur = false := by
    rw [hcur]
    refine (State.hasMates_congr _ (fun e => ?_) (fun e => ?_) hcores).trans hm <;> (rw [hthr]; split <;> rfl)
  have hidle (c : Nat) : u.core c = s.core c := State.core_of_cores hcores c
  rw [← hcur, State.retire_lone_unbinds err (by rw [hme]) hm' (by rw [hme]; exact he) (by rw [hidle, hcore]; exact hs)
    (by rw [hidle, hcore]; exact hp)] at hexec
  have hframe := (u.counted err).unbindIfIdle_onlyCores u.curCore
  have hend (e : Nat) : ((u.counted err).unbindIfIdle u.curCore).thr e = if e = s.cur then s.me.freed else s.thr e := by
    rw [State.thr_of_threads (State.unbindIfIdle_threads _ _), State.counted_thr, hcur, hme, hthr]
    split <;> rfl
  have hl : ((u.counted err).unbindIfIdle u.curCore).launches = (u.counted err).launches := by
    have := congrArg State.launches hframe; exact this
  refine ⟨_, hexec, ?_, ?_, ?_, ?_⟩
  · have hc : ((u.counted err).unbindIfIdle u.curCore).cur = s.cur := by
      have := congrArg State.cur hframe
      exact this.trans ((State.countExit_threadsKept _ _ _ _ _).2.trans ((u.left_cur _).trans hcur))
    unfold State.me at hend ⊢
    rw [hc, hend, if_pos rfl]
  · intro e hne; rw [hend, if_neg hne]
  · intro hdet
    have hc := State.counted_counts (s := u) err (by rw [hme]; exact hdet)
    rw [hpart, hme, State.launch_of_launches hlaunches] at hc
    rw [State.launch_of_launches hl]
    exact hc
  · intro hdet
    rw [hl, State.counted_det err (by rw [hme]; exact hdet), hlaunches]

end Sys2Proof.Machine
end

section
/-!
SUPPORT. A message that reaches its core (R40, R322): when it is offered, and the unit that it starts.
-/
namespace Sys2Proof.Machine

/-! ### Endpoints -/

@[simp] theorem epCore_coreEp {core th : Nat} (h : th < 8) : epCore (coreEp core th) = core := by
  unfold epCore coreEp; omega

/-- A free thread is one of the eight of its core. -/
theorem State.freeThread_lt {s : State} {core th : Nat} (h : s.freeThread core = some th) : th < 8 :=
  List.mem_range.mp (List.mem_of_find?_eq_some h)

/-! ### What a start pays (R307, R310) -/

/-- Refills and charges change the allowances and the count of refills. -/
def PaysOnly (s t : State) : Prop := { t with pairs := s.pairs, refills := s.refills } = s

theorem PaysOnly.trans {s t u : State} (h : PaysOnly s t) (h' : PaysOnly t u) : PaysOnly s u := by
  unfold PaysOnly at h h' ⊢
  rw [← h'] at h
  exact h

theorem State.refillPairs_paysOnly (s : State) (ps : List Nat) : PaysOnly s (s.refillPairs ps) := by
  induction ps generalizing s with
  | nil => rfl
  | cons p ps ih =>
    unfold State.refillPairs
    refine PaysOnly.trans ?_ (ih _)
    split <;> rfl

theorem State.refillTimes_paysOnly (s : State) (n : Nat) : PaysOnly s (s.refillTimes n) := by
  induction n generalizing s with
  | zero => rfl
  | succ n ih =>
    refine PaysOnly.trans (PaysOnly.trans ?_ (State.refillPairs_paysOnly _ _)) (ih _)
    rfl

theorem State.updPair_paysOnly (s : State) (p : Nat) (f : Pair → Pair) : PaysOnly s (s.updPair p f) := rfl

theorem State.chargeUnit_paysOnly (s : State) (core ec : Nat) : PaysOnly s (s.chargeUnit core ec) := by
  unfold State.chargeUnit
  split
  · exact (s.refillTimes_paysOnly _).trans (State.updPair_paysOnly _ _ _)
  · rfl

/-! ### The start of a unit (R40) -/

/-- The thread of a unit that has just started. -/
def State.newUnit (s : State) (ep : Nat) (hdr : Word) (payload : List Word) (entry : W32) (routine : Routine) : Thread :=
  { regs := startRegs ep hdr payload entry, busy := true, inst := (s.thr ep).inst, routine := routine,
    unit := ⟨s.uids, hdr, hdrLaunch hdr, hdrDet hdr, s.now, payload.getD 0 0⟩ }

theorem State.setFloor_traceOnly (s : State) (src v : Nat) : TraceOnly s (s.setFloor src v) := rfl

/-- A start puts the unit on its thread; beside it only the trace, the floors and the numbering of units change. -/
theorem State.startUnit_frame (s : State) (ep : Nat) (hdr : Word) (payload : List Word) (floor : Nat) (entry : W32)
    (routine : Routine) :
    TraceOnly { s.setThr ep (s.newUnit ep hdr payload entry routine) with uids := s.uids + 1 }
      (s.startUnit ep hdr payload floor entry routine) :=
  (State.setFloor_traceOnly _ ep floor).trans (State.emit_traceOnly _ _ _ _ _ _)

/-- What a unit finds when it starts on a thread: the thread, and no other, no core's record and no message is changed. -/
structure UnitOn (s t : State) (ep : Nat) (hdr : Word) (payload : List Word) (entry : W32) (routine : Routine) : Prop where
  on : t.thr ep = s.newUnit ep hdr payload entry routine
  others : ∀ e, e ≠ ep → t.thr e = s.thr e
  cores : t.cores = s.cores
  msgs : t.msgs = s.msgs

theorem State.startUnit_unitOn (s : State) (ep : Nat) (hdr : Word) (payload : List Word) (floor : Nat) (entry : W32)
    (routine : Routine) : UnitOn s (s.startUnit ep hdr payload floor entry routine) ep hdr payload entry routine := by
  have h := s.startUnit_frame ep hdr payload floor entry routine
  have hthr := State.thr_of_threads h.threads
  refine ⟨?_, fun e he => ?_, ?_, h.msgs⟩
  · rw [hthr]; exact (State.setThr_thr _ _ _ _).trans (if_pos rfl)
  · rw [hthr]; exact (State.setThr_thr _ _ _ _).trans (if_neg he)
  · have := congrArg State.cores h; exact this

/-- A unit of a launch that is not cancelled, with a good handler, starts. -/
theorem State.runUnit_starts {s : State} {ep ec : Nat} {hdr : Word} (payload : List Word) (floor : Nat) {entry : W32}
    (routine : Routine)
    (hlive : hdrDet hdr = true ∨ (s.launch (s.partOf (epCore ep)) (hdrLaunch hdr)).cancelled = false)
    (hh : s.handlerOf (epCore ep) (hdrHandler hdr) = some (entry, ec)) :
    UnitOn s (s.runUnit ep hdr payload floor routine) ep hdr payload entry routine := by
  have hpay : PaysOnly s (if hdrClass hdr == 3 then s else s.chargeUnit (epCore ep) ec) := by
    split
    · rfl
    · exact s.chargeUnit_paysOnly _ _
  unfold State.runUnit
  dsimp only
  rw [if_neg (by obtain h | h := hlive <;> simp [h]), hh]
  dsimp only
  generalize (if hdrClass hdr == 3 then s else s.chargeUnit (epCore ep) ec) = u at hpay ⊢
  obtain ⟨hon, hothers, hcores, hmsgs⟩ := u.startUnit_unitOn ep hdr payload floor entry routine
  rw [← hpay]
  exact ⟨hon, hothers, hcores, hmsgs⟩

/-! ### A message in its turn -/

/-- A message that did not come over a link and awaits no acknowledgement leaves its interface when it is accepted. -/
theorem State.msgDone_plain (s : State) {m : Msg} (hl : m.link = none) (ha : m.ack = none) :
    s.msgDone m = { s with msgs := s.msgs.filter (·.id != m.id) } := by
  unfold State.msgDone
  rw [hl, ha]

theorem State.staleLink_none (s : State) {m : Msg} (h : m.link = none) : s.staleLink m = none := by
  unfold State.staleLink; rw [h]; rfl

theorem State.msgHeld_unit (s : State) {m : Msg} (h : m.kind = .unit) : s.msgHeld m = false := by
  unfold State.msgHeld; rw [h]

/-- A unit's message in its turn is offered to its destination. -/
theorem State.deliverMsg_offers {s : State} {m : Msg} (hk : m.kind = .unit) (hf : s.fenced.contains (epDie m.dest) = false)
    (hb : s.msgBlocked m = false) (hbind : s.needsBind m = false) (hh : s.isHeld (niWho (epCore m.dest)) = false) :
    s.deliverMsg m = s.offer m := by
  unfold State.deliverMsg
  rw [if_neg (by rw [hf]; exact Bool.false_ne_true), if_neg (by simp [hb, s.msgHeld_unit hk, hbind, hh]), hk]

/-- A thread that no stage has reserved takes a unit's message as one of its core's. -/
theorem State.offer_core {s : State} {m : Msg} (hl : m.link = none) (hsv : isService m.dest = false)
    (hb : (s.core (epCore m.dest)).bound = some (hdrCtx m.hdr)) (hi : (s.thr m.dest).inst = none) :
    s.offer m = s.offerCore m := by
  unfold State.offer
  dsimp only
  rw [s.staleLink_none hl]
  dsimp only
  rw [if_neg (by rw [hsv]; exact Bool.false_ne_true), if_neg (by simp [hb]), hi]

/-- A core with a free thread and nothing spilled runs the unit there. -/
theorem State.offerCore_runs {s : State} {m : Msg} {th : Nat} (hh : (s.handlerOf (epCore m.dest) (hdrHandler m.hdr)).isSome = true)
    (ht : s.freeThread (epCore m.dest) = some th) (hs : (s.core (epCore m.dest)).spilled = []) :
    s.offerCore m = ((s.msgDone m).runUnit (coreEp (epCore m.dest) th) m.hdr m.payload m.floor .none).settleCore
      (epCore m.dest) := by
  unfold State.offerCore
  dsimp only
  rw [if_neg (by rw [Option.isNone_iff_eq_none]; intro h; rw [h] at hh; exact Bool.false_ne_true hh), ht, hs]
  rfl

/-- The main registers of a unit that starts (R40). -/
theorem startRegs_g (ep : Nat) (hdr : Word) (payload : List Word) (entry : W32) :
    (startRegs ep hdr payload entry).g[0] = hdr ∧ ∀ i : Fin 32, 1 ≤ i.val → (startRegs ep hdr payload entry).g[i] =
      if i.val ≤ hdrWords hdr then payload.getD (i.val - 1) 0 else 0 := by
  refine ⟨by simp [startRegs], fun i hi => ?_⟩
  have h0 : (i.val == 0) = false := by simp only [beq_eq_false_iff_ne]; omega
  simp only [startRegs, Fin.getElem_fin, Vector.getElem_ofFn, h0]
  rfl

/-- A thread that has just taken a message's unit up is what StartUnit makes it. -/
theorem started_of_newUnit {s t : State} {m : Msg} {th : Nat} {entry : W32}
    (hm : t.msgs = s.msgs.filter (·.id != m.id))
    (hon : t.thr (coreEp (epCore m.dest) th) = s.newUnit (coreEp (epCore m.dest) th) m.hdr m.payload entry .none)
    (ho : ∀ e, e ≠ coreEp (epCore m.dest) th → t.thr e = s.thr e) : Started s t m th entry := by
  obtain ⟨h0, hg⟩ := startRegs_g (coreEp (epCore m.dest) th) m.hdr m.payload entry
  unfold Started
  dsimp only
  rw [hon]
  exact ⟨hm, rfl, rfl, rfl, rfl, h0, hg, rfl, rfl, rfl, rfl, ho⟩

/-- A startable message that is delivered starts its unit. -/
theorem State.deliverMsg_starts {s : State} {m : Msg} {th : Nat} {entry : W32} {ec : Nat} (h : Startable s m th entry ec) :
    Started s (s.deliverMsg m) m th entry := by
  obtain ⟨hk, hl, ha, hsv, hf, hb, hheld, hbound, hi, ht, hs, hp, hlive, hh⟩ := h
  have hcore := epCore_coreEp (core := epCore m.dest) (State.freeThread_lt ht)
  have hbind : s.needsBind m = false := by simp [State.needsBind, hbound]
  rw [State.deliverMsg_offers hk hf hb hbind hheld, State.offer_core hl hsv hbound hi,
    State.offerCore_runs (by rw [hh]; rfl) ht hs, s.msgDone_plain hl ha]
  have hrun := State.runUnit_starts (s := { s with msgs := s.msgs.filter (·.id != m.id) })
    (ep := coreEp (epCore m.dest) th) m.payload m.floor .none (by rw [hcore]; exact hlive) (by rw [hcore]; exact hh)
  generalize State.runUnit _ _ _ _ _ _ = u at hrun ⊢
  obtain ⟨hon, hothers, hcores, hmsgs⟩ := hrun
  have hc : u.core (epCore m.dest) = s.core (epCore m.dest) := State.core_of_cores hcores _
  rw [State.settleCore_idle (by rw [hc]; exact hs) (by rw [hc]; exact hp)]
  have hthr := State.thr_of_threads (State.unbindIfIdle_threads u (epCore m.dest))
  exact started_of_newUnit ((State.unbindIfIdle_msgs _ _).trans hmsgs) ((hthr _).trans hon)
    fun e he => (hthr e).trans (hothers e he)

/-- Settles O18: whichever event offers the message, it is delivered. -/
theorem messagesStartUnits : Obligations.MessagesStartUnits := by
  intro s id th m entry ec hm h
  have hs := State.deliverMsg_starts h
  refine ⟨fun hr => ⟨_, ?_, hs⟩, fun hr hc => ⟨_, ?_, hs⟩, fun hr hc => ⟨_, ?_, hs⟩⟩
  · show execMessageArrival id s = _
    unfold execMessageArrival
    rw [hm]; dsimp only; rw [if_neg (by rw [hr]; exact Bool.false_ne_true)]
  · show execSendBufferRetry id s = _
    unfold execSendBufferRetry
    rw [hm]; dsimp only; rw [if_pos (by simp [hr, hc])]
  · show execDispatchRetry id s = _
    unfold execDispatchRetry
    rw [hm]; dsimp only; rw [if_pos (by simp [hr, hc])]

end Sys2Proof.Machine
end

section
/-!
SUPPORT. A message that goes behind the spilled ones (R40), and the slate of the spill (R276, R288), which the last reel takes.
-/
namespace Sys2Proof.Machine

/-! ### A word at the head of the bytes that are written -/

theorem Memory.writeBytes_leBytes (n v : Nat) (bs : List Byte) (m : Memory) (a : Nat) :
    m.writeBytes (leBytes n v ++ bs) a = (m.writeNat n a v).writeBytes bs (a + n) := by
  induction n generalizing m a v with
  | zero => rfl
  | succ n ih =>
    rw [leBytes, List.cons_append, Memory.writeBytes, ih, Memory.writeNat, Nat.add_right_comm, Nat.add_assoc]

theorem Memory.readWord_writeBytes_head {m : Memory} (h : m.wf = true) (a : Nat) (v : Word) (bs : List Byte) :
    (m.writeBytes (leBytes 8 v.toNat ++ bs) a).readWord a = v := by
  have hw : (m.writeNat 8 a v.toNat).wf = true := by simp [h]
  rw [Memory.writeBytes_leBytes, Memory.readWord, Memory.readNat_congr 8 a fun x _ hx =>
    Memory.read_writeBytes_other bs hw (a + 8) x (.inl hx), Memory.readNat_writeNat 8 h]
  apply BitVec.eq_of_toNat_eq
  rw [BitVec.toNat_ofNat]
  have := v.isLt
  omega

/-! ### A slate that only the last reel takes -/

theorem State.reel_shares (s : State) (die : Nat) (x : Slate) : (s.reel die x).shares = s.shares := by
  unfold State.reel
  dsimp only
  split <;> rfl

/-- A sink without a share takes nothing. -/
theorem State.admitSlate_off {s : State} {die sink : Nat} (who src ctx : Nat) (x : Slate) (completes : Bool)
    (h : s.sinkOn die sink = false) : s.admitSlate who src die sink ctx x completes = s := by
  unfold State.admitSlate
  dsimp only
  rw [h]
  rfl

/-- A slate for the host sink alone, which has no share on the die, goes to the last reel (R288). -/
theorem State.form_reels {s : State} {die ctx code : Nat} (who src payload time : Nat)
    (hs : s.sinksFor die ctx (code / 64 % 16) = [0]) (hn : s.share die 0 = {}) :
    s.form who src die ctx code payload none time false true = s.reel die ⟨time, slateLow code ctx src payload, none⟩ := by
  have hoff (x : Slate) : (s.reel die x).sinkOn die 0 = false := by
    have hshare : (s.reel die x).share die 0 = {} := by
      unfold State.share at hn ⊢
      rw [s.reel_shares, hn]
    unfold State.sinkOn
    rw [hshare]
    rfl
  have hhost : hostCopy false time code ctx src payload none = ⟨time, slateLow code ctx src payload, none⟩ := rfl
  unfold State.form
  dsimp only
  have hhere : ([0].contains 0 || code / 64 % 16 == 12 || code / 64 % 16 == 14) = true := rfl
  rw [Option.isSome_none, if_neg Bool.false_ne_true, hs, hhost, hhere, if_pos rfl, Bool.not_true, Bool.false_and,
    if_neg Bool.false_ne_true]
  exact State.admitSlate_off _ _ _ _ _ (hoff _)

/-- The slate of a core's interface, where only the last reel takes it. -/
theorem State.emitNi_reels {s : State} {core code payload : Nat}
    (ht : s.traced (coreDie core) (s.ctxOf core) (code / 64 % 16) = true)
    (hs : s.sinksFor (coreDie core) (s.ctxOf core) (code / 64 % 16) = [0]) (hh : s.hides (s.ctxOf core) = false)
    (hn : s.share (coreDie core) 0 = {}) :
    ∃ time, s.emitNi core code payload = (s.stamp (coreEp core 0) (coreDie core)).2.reel (coreDie core)
      ⟨time, slateLow code (s.ctxOf core) (coreEp core 0) payload, none⟩ := by
  refine ⟨(s.stamp (coreEp core 0) (coreDie core)).1, ?_⟩
  have hhides : (s.stamp (coreEp core 0) (coreDie core)).2.hides (s.ctxOf core) = false := hh
  unfold State.emitNi
  dsimp only
  rw [if_pos ht, hhides]
  exact State.form_reels _ _ _ _ hs hn

/-- What a reeled slate leaves in memory where the reel stands: its low word. -/
theorem State.reel_readWord {s : State} (hwf : s.mem.wf = true) (die time : Nat) (low : Word) :
    (s.reel die ⟨time, low, none⟩).mem.readWord (reelKey die (nget 0 s.reelNext die * 16)) = low := by
  have hbytes : (Slate.mk time low none).bytes.take 16 = leBytes 8 low.toNat ++ leBytes 8 time := by
    unfold Slate.bytes
    dsimp only
    rw [List.append_nil, List.take_of_length_le (by simp)]
  unfold State.reel
  dsimp only
  rw [hbytes]
  exact Memory.readWord_writeBytes_head hwf _ _ _

/-- What the slate of a core's interface leaves, where only the last reel takes it: its word, at the reel's place. -/
theorem State.emitNi_overwrites {s : State} {core code payload : Nat}
    (ht : s.traced (coreDie core) (s.ctxOf core) (code / 64 % 16) = true)
    (hs : s.sinksFor (coreDie core) (s.ctxOf core) (code / 64 % 16) = [0]) (hh : s.hides (s.ctxOf core) = false)
    (hn : s.share (coreDie core) 0 = {}) (hwf : s.mem.wf = true) :
    let u := s.emitNi core code payload
    u.cores = s.cores ∧ u.launches = s.launches ∧ u.parts = s.parts ∧
      u.mem.readWord (reelKey (coreDie core) (nget 0 s.reelNext (coreDie core) * 16)) =
        slateLow code (s.ctxOf core) (coreEp core 0) payload := by
  obtain ⟨time, h⟩ := State.emitNi_reels (payload := payload) ht hs hh hn
  have htrace : TraceOnly s (s.emitNi core code payload) := by
    rw [h]
    exact (s.stamp_traceOnly _ _).trans (State.reel_traceOnly _ _ _)
  have hparts := congrArg State.parts htrace
  refine ⟨htrace.records.cores, htrace.records.launches, hparts, ?_⟩
  rw [h]
  exact State.reel_readWord (s := (s.stamp (coreEp core 0) (coreDie core)).2) hwf _ _ _

/-- A message that no interface has refused is delivered as it arrives. -/
theorem execMessageArrival_delivers {s : State} {id : Nat} {m : Msg} (hm : s.findMsg id = some m) (hr : m.refused = false) :
    execMessageArrival id s = .next (s.deliverMsg m) := by
  unfold execMessageArrival
  rw [hm]
  dsimp only
  rw [if_neg (by rw [hr]; exact Bool.false_ne_true)]

/-- A core without a free thread spills a message whose handler is good, while its queue has room. -/
theorem State.offerCore_spills {s : State} {m : Msg}
    (hh : (s.handlerOf (epCore m.dest) (hdrHandler m.hdr)).isSome = true) (ht : s.freeThread (epCore m.dest) = none)
    (hroom : (s.core (epCore m.dest)).spilled.length < (s.core (epCore m.dest)).spillCap) :
    s.offerCore m = ((s.msgDone m).spillAppend (epCore m.dest) m.hdr m.payload m.floor).skimSpill (epCore m.dest)
      ((s.core (epCore m.dest)).spilled.length + 1) := by
  unfold State.offerCore
  dsimp only
  rw [if_neg (by rw [Option.isNone_iff_eq_none]; intro h; rw [h] at hh; exact Bool.false_ne_true hh), ht]
  exact if_pos hroom

/-! ### The core whose spill queue stands where a last reel does -/

/-- A core far beyond those of the package: its scratchpad begins at the key of its die's last reel. -/
def farCore : Nat := 33288028284

theorem farCore_pad : padKey farCore 0 = reelKey (coreDie farCore) 0 := by decide

/-- A detached message for it, in the host's context. -/
def farMsg : Msg := { hdr := mkHdr 0 0 0 0 0 0 true, dest := farCore * 8 }

/-- All of the core's threads are busy and its spill queue is empty; handler 0 is good; launch 0 of its partition is
cancelled; and the host's sink takes slates of the interfaces' class. -/
def crowded : State :=
  { mem := [(padKey farCore 1031, 0x80)]
    threads := (List.range 8).map fun t => (coreEp farCore t, { busy := true })
    cores := [(farCore, { bound := some 0, htab := 1024, spill := 0x100000000 })]
    launches := [(launchKey (corePart 1 farCore) 0, { cancelled := true })]
    regs := [(sysKey .hmask 0 (coreDie farCore), 4)]
    msgs := [farMsg] }

/-- The message has left its interface, and its entry stands in the spill queue, before the slate of the spill. -/
def crowdedSpilled : State :=
  let ws := (farMsg.hdr :: farMsg.payload ++ List.replicate 7 0).take 8
  ({ crowded with msgs := [] }.putBytes (padKey farCore 0) (ws.flatMap fun (w : Word) => leBytes 8 w.toNat)).setCore farCore
    { bound := some 0, htab := 1024, spill := 0x100000000, spilled := [0] }

/-- The word that the slate of the spill leaves at the head of the spill queue: no header of a detached unit, of launch 0. -/
def farSlate : Word := slateLow 0x082 0 (coreEp farCore 0) 1

theorem farSlate_live : hdrDet farSlate = false ∧ hdrLaunch farSlate = 0 := by decide

theorem crowded_spillAppend : (crowded.msgDone farMsg).spillAppend farCore farMsg.hdr farMsg.payload farMsg.floor =
    crowdedSpilled.emitNi farCore 0x082 1 := by rfl

theorem crowdedSpilled_wf : crowdedSpilled.mem.wf = true := by decide

/-- After the slate the head of the spill queue is the slate's word; the launch that it names is cancelled. -/
theorem crowded_overwritten {u : State} (h : crowdedSpilled.emitNi farCore 0x082 1 = u) :
    u.core farCore = crowdedSpilled.core farCore ∧ u.mem.readWord (padKey farCore 0) = farSlate ∧
      (u.launch (u.partOf farCore) 0).cancelled = true := by
  obtain ⟨hcores, hlaunches, hparts, hword⟩ := State.emitNi_overwrites (s := crowdedSpilled) (core := farCore) (code := 0x082)
    (payload := 1) (by decide) (by decide) (by decide) (by decide) crowdedSpilled_wf
  have hreel : nget 0 crowdedSpilled.reelNext (coreDie farCore) * 16 = 0 := by decide
  have hslate : slateLow 0x082 (crowdedSpilled.ctxOf farCore) (coreEp farCore 0) 1 = farSlate := by decide
  rw [hreel, ← farCore_pad, hslate, h] at hword
  rw [h] at hcores hlaunches hparts
  refine ⟨State.core_of_cores hcores farCore, hword, ?_⟩
  rw [State.launch_of_launches hlaunches]
  unfold State.partOf
  rw [hparts]
  decide

/-- The head of a spill queue that names a cancelled launch is discarded. -/
theorem State.skimSpill_discards {s : State} {core f : Nat} {fs : List Nat} (hs : (s.core core).spilled = f :: fs)
    (hd : hdrDet (s.mem.readWord (padKey core ((s.core core).spillAddr 0))) = false)
    (hc : (s.launch (s.partOf core) (hdrLaunch (s.mem.readWord (padKey core ((s.core core).spillAddr 0))))).cancelled = true) :
    ((s.skimSpill core 1).core core).spilled = fs := by
  unfold State.skimSpill
  dsimp only
  rw [hs]
  dsimp only
  rw [hd, hc, if_pos (by rfl)]
  unfold State.skimSpill
  rw [State.core_of_cores (State.countExit_cores _ _ _ _ _)]
  exact congrArg Core.spilled (nget_nset_same _ _ _ _)

/-- The message that arrives is spilled, and discarded again. -/
theorem crowded_discards : ∃ t, exec (.messageArrival 0) crowded = .next t ∧ (t.core farCore).spilled = [] := by
  have hexec : exec (.messageArrival 0) crowded = .next ((crowdedSpilled.emitNi farCore 0x082 1).skimSpill farCore 1) := by
    have hoffer := State.deliverMsg_offers (s := crowded) (m := farMsg) rfl (by decide) (by decide) (by decide) (by decide)
    have hcore := State.offer_core (s := crowded) (m := farMsg) rfl (by decide) (by decide) (by decide)
    have hspill := State.offerCore_spills (s := crowded) (m := farMsg) (by decide) (by decide) (by decide)
    have hdest : epCore farMsg.dest = farCore := by decide
    have hempty : (crowded.core farCore).spilled.length = 0 := by decide
    rw [hdest, crowded_spillAppend, hempty] at hspill
    have hfound := execMessageArrival_delivers (s := crowded) (id := 0) (m := farMsg) rfl rfl
    rw [hoffer, hcore, hspill] at hfound
    exact hfound
  generalize hu : crowdedSpilled.emitNi farCore 0x082 1 = u at hexec
  obtain ⟨hcore, hword, hlaunch⟩ := crowded_overwritten hu
  have haddr : (crowdedSpilled.core farCore).spillAddr 0 = 0 := by decide
  have hspilled : (crowdedSpilled.core farCore).spilled = [0] := by decide
  obtain ⟨hdet, htag⟩ := farSlate_live
  refine ⟨_, hexec, State.skimSpill_discards (f := 0) ?_ ?_ ?_⟩
  · rw [hcore, hspilled]
  · rw [hcore, haddr, hword, hdet]
  · rw [hcore, haddr, hword, htag, hlaunch]

/-- Refutes O19: a message's destination may be any number. On a core so far off that its scratchpad begins where the last
reel of its die stands, the slate of the spill (R288) overwrites the header that has just been spilled, and the core
discards the entry as a unit of a cancelled launch, though the message was detached. -/
theorem not_messagesThatWait : ¬ Obligations.MessagesThatWait := by
  unfold Obligations.MessagesThatWait
  rintro ⟨harrive, -⟩
  have hall := harrive crowded 0 farMsg rfl rfl rfl rfl rfl (by decide) (by decide) (by decide)
  dsimp only at hall
  obtain ⟨hsmall, -⟩ := hall
  obtain ⟨hgood, -⟩ := hsmall (by decide) (by decide) (by decide) (by decide)
  obtain ⟨hspills, -⟩ := hgood (by decide)
  obtain ⟨t, ht, -, hqueue⟩ := hspills (by unfold Safe; decide) (by decide) (.inl (by decide))
  obtain ⟨u, hu, hdiscarded⟩ := crowded_discards
  obtain rfl : u = t := by
    rw [ht] at hu
    cases hu
    rfl
  have hdest : epCore farMsg.dest = farCore := by decide
  have hempty : (crowded.core farCore).spilled = [] := by decide
  rw [hdest, hdiscarded, hempty] at hqueue
  exact absurd hqueue (by decide)

end Sys2Proof.Machine
end

section
/-!
SUPPORT. A dispatch (R301, R308, R310, R311): the unit that is taken, what it costs, and the message that carries it.
-/
namespace Sys2Proof.Machine

/-- R36: the class field of a header. -/
theorem hdrClass_mkHdr (handler ctx src launch cls words : Nat) (det : Bool) :
    hdrClass (mkHdr handler ctx src launch cls words det) = cls % 4 := by
  unfold hdrClass mkHdr fld
  rw [BitVec.toNat_ofNat]
  cases det <;> simp <;> omega

/-! ### What the choice of a unit, its late entry and the pinning of another leave alone -/

/-- Messages, launches and cost tables are as before, and so are the allowance and the last core of a distributor. -/
structure PairKept (pair : Nat) (s t : State) : Prop where
  msgs : t.msgs = s.msgs
  launches : t.launches = s.launches
  allowance : (t.pair pair).allowance = (s.pair pair).allowance
  lastCore : (t.pair pair).lastCore = (s.pair pair).lastCore

theorem PairKept.refl (pair : Nat) (s : State) : PairKept pair s s := ⟨rfl, rfl, rfl, rfl⟩
theorem PairKept.trans {pair : Nat} {s t u : State} (h : PairKept pair s t) (h' : PairKept pair t u) : PairKept pair s u :=
  ⟨h'.msgs.trans h.msgs, h'.launches.trans h.launches, h'.allowance.trans h.allowance, h'.lastCore.trans h.lastCore⟩

theorem TraceOnly.pairKept {s t : State} (h : TraceOnly s t) (pair : Nat) : PairKept pair s t := by
  have hp : t.pairs = s.pairs := by have := congrArg State.pairs h; exact this
  have hl : t.launches = s.launches := by have := congrArg State.launches h; exact this
  refine ⟨h.msgs, hl, ?_, ?_⟩ <;> (unfold State.pair; rw [hp])

/-- A change of a distributor that is none of its allowance and its last core. -/
theorem State.updPair_pairKept (s : State) (pair : Nat) {f : Pair → Pair} (ha : (f (s.pair pair)).allowance = (s.pair pair).allowance)
    (hl : (f (s.pair pair)).lastCore = (s.pair pair).lastCore) : PairKept pair s (s.updPair pair f) := by
  refine ⟨rfl, rfl, ?_, ?_⟩ <;> rw [State.updPair_pair, if_pos rfl] <;> assumption

theorem State.updSched_pairKept (s : State) (part : Nat) (f : Sched → Sched) (pair : Nat) :
    PairKept pair s (s.updSched part f) := ⟨rfl, rfl, rfl, rfl⟩
theorem State.notify_pairKept (s : State) (source : Nat) (words : List Word) (pair : Nat) :
    PairKept pair s (s.notify source words) := ⟨rfl, rfl, rfl, rfl⟩
theorem State.setMem_pairKept (s : State) (m : Memory) (pair : Nat) : PairKept pair s { s with mem := m } :=
  ⟨rfl, rfl, rfl, rfl⟩

theorem State.considered_pairKept (s : State) (part pair : Nat) : PairKept pair s (s.considered part pair).2 := by
  unfold State.considered
  dsimp only
  split
  · exact PairKept.refl pair s
  · split
    · exact PairKept.refl pair s
    · split
      · exact PairKept.refl pair s
      · dsimp only
        apply State.updPair_pairKept <;> rfl

theorem State.considered_sched (s : State) (part pair : Nat) : (s.considered part pair).2.sched = s.sched := by
  unfold State.considered
  dsimp only
  split
  · rfl
  · split
    · rfl
    · split <;> rfl

theorem State.skipUnits_pairKept (s : State) (pair : Nat) (us : List (Nat × Nat)) : PairKept pair s (s.skipUnits pair us) := by
  induction us generalizing s with
  | nil => exact PairKept.refl pair s
  | cons u us ih =>
    obtain ⟨t, i⟩ := u
    refine PairKept.trans ?_ (ih _)
    exact State.updPair_pairKept _ _ rfl rfl

theorem State.pinNext_pairKept (s : State) (part pair : Nat) : PairKept pair s (s.pinNext part pair) := by
  unfold State.pinNext
  dsimp only
  split
  · refine PairKept.trans ?_ ((State.emit_traceOnly _ _ _ _ _ _).pairKept pair)
    exact State.updPair_pairKept _ _ rfl rfl
  · exact PairKept.refl pair s

theorem State.lateUnit_pairKept (s : State) (part pair tag i : Nat) : PairKept pair s (s.lateUnit part pair tag i) := by
  unfold State.lateUnit
  dsimp only
  split
  · exact PairKept.refl pair s
  · have hemit := (s.emit_traceOnly (distributorSrc pair) pair (s.launch part tag).ctx 0x180 tag).pairKept pair
    generalize s.emit _ _ _ _ _ = u at hemit ⊢
    split
    · exact hemit.trans (State.updSched_pairKept _ _ _ _)
    · exact hemit.trans ((State.setMem_pairKept _ _ _).trans ((State.updSched_pairKept _ _ _ _).trans
        (State.notify_pairKept _ _ _ _)))

/-! ### The dispatch itself -/

/-- What a dispatch does: its message, its launch's counts, and what its distributor pays. -/
def Dispatched (s t : State) (part pair tag i core : Nat) : Prop :=
  ∃ m, t.msgs = s.msgs ++ [m] ∧ hdrClass m.hdr = 3 ∧ epCore m.dest = core ∧
    m.payload.head? = some (indexWord (s.launch part tag).image i) ∧
    m.payload.drop 1 = ((s.launch part tag).image.drop 10).take 6 ∧
    (t.launch part tag).dispatched = (s.launch part tag).dispatched + 1 ∧
    (t.launch part tag).started = (s.launch part tag).started + 1 ∧ (t.launch part tag).state = .running ∧
    (t.pair pair).allowance = max (-(2 ^ 40 : Int)) ((s.pair pair).allowance - s.costOf part tag) ∧
    (t.pair pair).lastCore = core % 1024

theorem Dispatched.kept {s t u : State} {part pair tag i core : Nat} (h : Dispatched s t part pair tag i core)
    (hk : PairKept pair t u) : Dispatched s u part pair tag i core := by
  unfold Dispatched at h ⊢
  rw [hk.msgs, State.launch_of_launches hk.launches, hk.allowance, hk.lastCore]
  exact h

/-- What a choice leaves as it was is all that a dispatch rests on. -/
theorem Dispatched.of_kept {s s1 t : State} {part pair tag i core : Nat} (h : Dispatched s1 t part pair tag i core)
    (hk : PairKept pair s s1) (hs : s1.sched = s.sched) : Dispatched s t part pair tag i core := by
  have hc : s1.costOf part tag = s.costOf part tag := by
    unfold State.costOf State.schedOf
    rw [hs, State.launch_of_launches hk.launches]
  unfold Dispatched at h
  rw [hk.msgs, State.launch_of_launches hk.launches, hk.allowance, hc] at h
  exact h

/-- A launch without an index left leaves its pool: no count of it and no message changes. -/
theorem State.leavePool_cases (s : State) (part tag : Nat) (c : Bool) :
    let t := if c then s else s.updLaunch part tag fun l => { l with pool := false }
    t.msgs = s.msgs ∧ t.pairs = s.pairs ∧ ∃ p, t.launch part tag = { s.launch part tag with pool := p } := by
  cases c with
  | true => exact ⟨rfl, rfl, _, rfl⟩
  | false =>
    exact ⟨rfl, rfl, false, s.updLaunch_launch_same part tag fun l => { l with pool := false }⟩

/-- The charge is paid by the distributor alone: the launches and the messages are as before. -/
theorem State.dispatch_dispatched (s : State) (part pair tag i core : Nat) :
    Dispatched s (s.dispatch part pair (tag, i) core) part pair tag i core := by
  unfold State.dispatch
  dsimp only
  generalize hcharge : s.updPair pair _ = c
  have hpair : c.pair pair = { dropUnit (tag, i) (s.pair pair) with
      allowance := max (-(2 ^ 40 : Int)) ((dropUnit (tag, i) (s.pair pair)).allowance - s.costOf part tag)
      lastCore := core % 1024 } := by rw [← hcharge, State.updPair_pair, if_pos rfl]
  have hlaunches : c.launches = s.launches := by rw [← hcharge]; rfl
  have hmsgs : c.msgs = s.msgs := by rw [← hcharge]; rfl
  have hlate : PairKept pair c (if edfPolicy c.parts part then c.lateUnit part pair tag i else c) := by
    split
    · exact c.lateUnit_pairKept part pair tag i
    · exact PairKept.refl pair c
  generalize (if edfPolicy c.parts part then c.lateUnit part pair tag i else c) = v at hlate ⊢
  have hrun := v.updLaunch_launch_same part tag fun l =>
    { l with dispatched := l.dispatched + 1, started := l.started + 1, state := .running }
  generalize hw : v.updLaunch part tag _ = w at hrun ⊢
  obtain ⟨hmsgs', hpairs', p, hlaunch'⟩ := w.leavePool_cases part tag (w.undispatched part tag)
  generalize (if w.undispatched part tag then w else _) = x at hmsgs' hpairs' hlaunch' ⊢
  have hwmsgs : w.msgs = v.msgs := by rw [← hw]; rfl
  have hwpairs : w.pairs = v.pairs := by rw [← hw]; rfl
  have hl : v.launch part tag = s.launch part tag :=
    State.launch_of_launches (hlate.launches.trans hlaunches) part tag
  have hx : x.pair pair = v.pair pair := by unfold State.pair; rw [hpairs', hwpairs]
  have hxmsgs : x.msgs = s.msgs := hmsgs'.trans (hwmsgs.trans (hlate.msgs.trans hmsgs))
  rw [hl] at hrun
  rw [hrun] at hlaunch'
  have hthread : (x.freeThread core).getD 0 < 8 := by
    cases hfree : x.freeThread core with
    | none => decide
    | some th => exact State.freeThread_lt hfree
  generalize (x.freeThread core).getD 0 = th at hthread ⊢
  refine ⟨_, congrArg (· ++ [_]) hxmsgs, hdrClass_mkHdr _ _ _ _ _ _ _, epCore_coreEp hthread, rfl, rfl, ?_, ?_, ?_, ?_, ?_⟩
  · exact congrArg Launch.dispatched hlaunch'
  · exact congrArg Launch.started hlaunch'
  · exact congrArg Launch.state hlaunch'
  · exact (congrArg Pair.allowance hx).trans (hlate.allowance.trans (congrArg Pair.allowance hpair))
  · exact (congrArg Pair.lastCore hx).trans (hlate.lastCore.trans (congrArg Pair.lastCore hpair))

/-- A distributor that is not fenced and not held dispatches once the refills of its cycle are done. -/
theorem dispatch_open {s : State} {pair : Nat} (hp : pair < 8) (hf : (s.pair pair).fenced = false)
    (hh : s.isHeld (distributorSrc pair) = false) (hr : s.refillsDue ≤ s.refills) :
    ((s.pair pair).fenced || decide (8 ≤ pair) || s.isHeld (distributorSrc pair) || decide (s.refills < s.refillsDue)) =
      false := by
  simp only [hf, hh, Bool.false_or, Bool.or_false, Bool.or_eq_false_iff, decide_eq_false_iff_not]
  omega

/-- The choice of an unpinned distributor, where it is not held and its refill is done. -/
theorem execUnitDispatch_unpinned {s s1 : State} {pair core : Nat} {u : Nat × Nat} {us sk : List (Nat × Nat)}
    (hp : pair < 8) (hf : (s.pair pair).fenced = false) (hh : s.isHeld (distributorSrc pair) = false)
    (hr : s.refillsDue ≤ s.refills) (hpin : (s.pair pair).pinned = none)
    (hc : s.considered (pairPart s.parts pair) pair = (us, s1))
    (hch : s1.choose (pairPart s.parts pair) pair [] us = some (sk, u, core)) :
    execUnitDispatch pair s = .next (((s1.dispatch (pairPart s.parts pair) pair u core).skipUnits pair sk).pinNext
      (pairPart s.parts pair) pair) := by
  unfold execUnitDispatch
  dsimp only
  rw [dispatch_open hp hf hh hr, hpin]
  simp only [Bool.false_eq_true, if_false, hc, hch]

/-- The choice of a distributor that has a pinned unit it can pay for and place. -/
theorem execUnitDispatch_pinned {s : State} {pair core : Nat} {u : Nat × Nat}
    (hp : pair < 8) (hf : (s.pair pair).fenced = false) (hh : s.isHeld (distributorSrc pair) = false)
    (hr : s.refillsDue ≤ s.refills) (hpin : (s.pair pair).pinned = some u)
    (hpay : s.costOf (pairPart s.parts pair) u.1 ≤ (s.pair pair).allowance)
    (hpick : s.pickCore pair (s.launch (pairPart s.parts pair) u.1).ctx (fun _ => true) = some core) :
    execUnitDispatch pair s = .next ((s.dispatch (pairPart s.parts pair) pair u core).pinNext
      (pairPart s.parts pair) pair) := by
  unfold execUnitDispatch
  dsimp only
  rw [dispatch_open hp hf hh hr, hpin]
  simp only [Bool.false_eq_true, if_false, if_neg (Int.not_lt.mpr hpay), hpick]

/-- Settles O27: the choice of a unit, and the skips and pins after it, change nothing that the dispatch is measured by. -/
theorem dispatch : Obligations.Dispatch := by
  unfold Obligations.Dispatch
  intro s s1 pair tag i core hp hf hh hr part l hsel
  suffices h : ∃ t, execUnitDispatch pair s = .next t ∧ Dispatched s t part pair tag i core by
    obtain ⟨t, hexec, m, hm⟩ := h
    exact ⟨t, m, hexec, hm⟩
  obtain ⟨rfl, hpin, hpay, hpick⟩ | ⟨us, sk, hpin, hc, hch⟩ := hsel
  · exact ⟨_, execUnitDispatch_pinned hp hf hh hr hpin hpay hpick,
      (State.dispatch_dispatched _ _ _ _ _ _).kept (State.pinNext_pairKept _ _ _)⟩
  · have hs1 : s1 = (s.considered part pair).2 := by rw [hc]
    refine ⟨_, execUnitDispatch_unpinned hp hf hh hr hpin hc hch, ?_⟩
    refine Dispatched.kept ?_ ((State.skipUnits_pairKept _ _ _).trans (State.pinNext_pairKept _ _ _))
    refine (State.dispatch_dispatched _ _ _ _ _ _).of_kept ?_ ?_
    · rw [hs1]; exact s.considered_pairKept part pair
    · rw [hs1]; exact s.considered_sched part pair

end Sys2Proof.Machine
end

section
/-!
SUPPORT. Records of the levels of work (R334-R336): what creating, closing, cancelling and reading one leaves alone.
-/
namespace Sys2Proof.Machine

/-! ### An end that follows a change of no thread -/

/-- The end of an instruction that has changed no thread: the push, the pc, and no other thread. -/
theorem ThreadsKept.finish {s u : State} (h : ThreadsKept s u) (d : Dst) (v : Word) (len : Nat) :
    Pushed s (u.finish d v len) d v ∧ Over s (u.finish d v len) len ∧ OthersSame s (u.finish d v len) := by
  obtain ⟨hp, ho, -, hme⟩ := u.finish_result d v len
  unfold Pushed at hp ⊢
  unfold Over at ho ⊢
  rw [h.me] at hp ho
  refine ⟨hp, ho, fun ep hne => ?_⟩
  rw [State.finish, State.upd_thr_other _ _ (by rw [h.2]; exact hne), h.thr]

/-! ### Records are created and closed (R334) -/

/-- Two records of different levels, or of different indices, stand apart. -/
theorem levelKey_ne {lvl lvl' part i i' : Nat} (hi : i < 1024) (hi' : i' < 1024) (h : lvl ≠ lvl') :
    levelKey lvl part i ≠ levelKey lvl' part i' := by
  unfold levelKey; omega

@[simp] theorem State.updLevel_level_same (s : State) (lvl part i : Nat) (f : Level → Level) :
    (s.updLevel lvl part i f).level lvl part i = f (s.level lvl part i) := nget_nset_same _ _ _ _

theorem State.updLevel_level (s : State) (lvl part i lvl' part' i' : Nat) (f : Level → Level) :
    (s.updLevel lvl part i f).level lvl' part' i' =
      if levelKey lvl' part' i' = levelKey lvl part i then f (s.level lvl part i) else s.level lvl' part' i' :=
  nget_nset _ _ _ _ _

theorem State.level_of_levels {s t : State} (h : t.levels = s.levels) (lvl part i : Nat) :
    t.level lvl part i = s.level lvl part i := by
  unfold State.level; rw [h]

/-- Every record that is closed stays closed. -/
def ClosedKept (s t : State) : Prop :=
  ∀ lvl part i, (s.level lvl part i).closed = true → (t.level lvl part i).closed = true

theorem ClosedKept.refl (s : State) : ClosedKept s s := fun _ _ _ h => h
theorem ClosedKept.trans {s t u : State} (h : ClosedKept s t) (h' : ClosedKept t u) : ClosedKept s u :=
  fun lvl part i hc => h' lvl part i (h lvl part i hc)
theorem ClosedKept.of_levels {s t : State} (h : t.levels = s.levels) : ClosedKept s t :=
  fun lvl part i hc => by rw [State.level_of_levels h]; exact hc

theorem State.updLevel_closedKept (s : State) (lvl part i : Nat) {f : Level → Level} (h : ∀ g, g.closed = true → (f g).closed = true) :
    ClosedKept s (s.updLevel lvl part i f) := by
  intro lvl' part' i' hc
  rw [State.updLevel_level]
  split
  · next heq => exact h _ (by unfold State.level at hc ⊢; rw [← heq]; exact hc)
  · exact hc

theorem State.promoteSlots_closedKept (s : State) (part graph : Nat) (xs : NMap Slot) :
    ClosedKept s (s.promoteSlots part graph xs) := by
  induction xs generalizing s with
  | nil => exact ClosedKept.refl s
  | cons x xs ih =>
    unfold State.promoteSlots
    refine ClosedKept.trans ?_ (ih _)
    split
    · dsimp only
      split
      · exact (s.updLevel_closedKept 2 part graph (f := fun g => { g with slots := nset g.slots x.1 (.queued _) })
          fun _ h => h).trans (ClosedKept.of_levels rfl)
      · exact ClosedKept.refl s
    · exact ClosedKept.refl s

theorem State.promote_closedKept (s : State) (part : Nat) (is : List Nat) : ClosedKept s (s.promote part is) := by
  induction is generalizing s with
  | nil => exact ClosedKept.refl s
  | cons i is ih =>
    unfold State.promote
    refine ClosedKept.trans ?_ (ih _)
    split
    · exact ClosedKept.refl s
    · split
      · exact s.promoteSlots_closedKept _ _ _
      · exact ClosedKept.refl s

theorem State.settleLevel_closedKept (s : State) (lvl part i : Nat) : ClosedKept s (s.settleLevel lvl part i) := by
  unfold State.settleLevel
  dsimp only
  split
  · have hdone (f : Nat) : ClosedKept s ((s.updLevel lvl part i fun g =>
        { g with state := if g.cancelled then .cancelled else .complete, floor := f }).giveIndex lvl part i) :=
      (s.updLevel_closedKept lvl part i (f := fun g =>
        { g with state := if g.cancelled then .cancelled else .complete, floor := f }) fun _ h => h).trans
        (ClosedKept.of_levels rfl)
    split
    · exact hdone _
    · exact (hdone _).trans (State.updLevel_closedKept _ _ _ _ fun _ h => h)
  · exact ClosedKept.refl s

theorem State.settleGraph_closedKept (s : State) (part graph : Nat) : ClosedKept s (s.settleGraph part graph) :=
  (s.settleLevel_closedKept 2 part graph).trans <| (State.settleLevel_closedKept _ 3 part _).trans <|
    (State.settleLevel_closedKept _ 4 part _).trans (State.promote_closedKept _ part _)

/-- Closing a record that is there closes it, and touches no thread. -/
theorem State.closeLevel_closes {s : State} {part ctx lvl i : Nat} (h : s.hasRecord part ctx lvl i = true) :
    ∃ u, s.closeLevel part ctx lvl i = (0, u) ∧ (u.level lvl part i).closed = true ∧ ThreadsKept s u := by
  unfold State.closeLevel
  rw [if_neg (by simp [h])]
  by_cases hc : (s.level lvl part i).closed = true
  · rw [if_pos hc]
    exact ⟨s, rfl, hc, ThreadsKept.refl s⟩
  · rw [if_neg hc]
    have hclosed : ((s.updLevel lvl part i fun g => { g with closed := true }).level lvl part i).closed = true := by
      rw [State.updLevel_level_same]
    have hthreads := s.updLevel_threadsKept lvl part i fun g => { g with closed := true }
    dsimp only
    generalize (s.updLevel lvl part i fun g => { g with closed := true }) = v at hclosed hthreads ⊢
    refine ⟨_, rfl, ?_, hthreads.trans ?_⟩
    · split
      · exact ((v.promote_closedKept part _).trans (State.settleGraph_closedKept _ _ _)) _ _ _ hclosed
      · exact ((v.settleLevel_closedKept _ _ _).trans ((State.settleLevel_closedKept _ _ _ _).trans
          (State.promote_closedKept _ part _))) _ _ _ hclosed
      · exact v.settleLevel_closedKept _ _ _ _ _ _ hclosed
    · split
      · exact (v.promote_threadsKept part _).trans (State.settleGraph_threadsKept _ _ _)
      · exact (v.settleLevel_threadsKept _ _ _).trans ((State.settleLevel_threadsKept _ _ _ _).trans
          (State.promote_threadsKept _ part _))
      · exact v.settleLevel_threadsKept _ _ _

/-- What a close leaves behind. -/
theorem State.closeHere_closes {s : State} {lvl : Nat} (d : Dst) {a : Src}
    (h : s.hasRecord s.myPart s.myCtx lvl (s.raw 0 a).toNat = true) :
    ((s.closeHere lvl d a).level lvl s.myPart (s.raw 0 a).toNat).closed = true ∧
      Pushed s (s.closeHere lvl d a) d (statusWord 0 0 0 0) ∧ Over s (s.closeHere lvl d a) 8 := by
  obtain ⟨u, hu, hclosed, hthreads⟩ := State.closeLevel_closes h
  unfold State.closeHere
  rw [hu]
  obtain ⟨hp, ho, -⟩ := hthreads.finish d (statusWord 0 0 0 0) 8
  exact ⟨hclosed, hp, ho⟩

/-- A record under a parent that is not there is refused. -/
theorem State.createHere_orphan {s : State} {lvl : Nat} (d : Dst) {a : Src}
    (h : s.hasRecord s.myPart s.myCtx (lvl + 1) (s.raw 0 a).toNat = false) :
    Result s (s.createHere lvl d a) d (statusWord 8 0 0 0) 8 := by
  unfold State.createHere State.createLevel
  rw [h]
  exact s.finish_result _ _ _

/-- The record that a create makes: open, of the context, under its parent. -/
def State.made (s t : State) (d : Dst) (n i lvl : Nat) : Prop :=
  (t.level lvl s.myPart i).inUse = true ∧ (t.level lvl s.myPart i).ctx = s.myCtx ∧
    (t.level lvl s.myPart i).parent = n ∧ (t.level lvl s.myPart i).closed = false ∧
    (t.level (lvl + 1) s.myPart n).children = (s.level (lvl + 1) s.myPart n).children + 1 ∧
    Pushed s t d (statusWord 0 0 i 0) ∧ Over s t 8 ∧ OthersSame s t ∧ t.mem = s.mem

/-- Taking an index changes what is free alone. -/
theorem State.takeIndex_frees {s s1 : State} {lvl part i : Nat} (h : s.takeIndex lvl part = some (i, s1)) :
    ∃ f, s1 = { s with frees := f } := by
  unfold State.takeIndex at h
  dsimp only at h
  split at h
  · cases h; exact ⟨_, rfl⟩
  · split at h
    · cases h
    · cases h; exact ⟨_, rfl⟩

/-- A create under an open parent with an index to give makes its record. -/
theorem State.createHere_makes {s s1 : State} {lvl i : Nat} (d : Dst) {a : Src} (hi : i < 1024) (hlvl : lvl + 1 ≠ 1)
    (hrec : s.hasRecord s.myPart s.myCtx (lvl + 1) (s.raw 0 a).toNat = true)
    (hopen : (s.level (lvl + 1) s.myPart (s.raw 0 a).toNat).shut = false)
    (hjob : lvl = 2 → (s.level 4 s.myPart (s.level 3 s.myPart (s.raw 0 a).toNat).parent).cancelled = false ∧
      (s.level 4 s.myPart (s.level 3 s.myPart (s.raw 0 a).toNat).parent).state.final = false)
    (htake : s.takeIndex lvl s.myPart = some (i, s1)) :
    s.made (s.createHere lvl d a) d (s.raw 0 a).toNat i lvl := by
  have hn : (s.raw 0 a).toNat < 1024 := by
    unfold State.hasRecord at hrec
    rw [if_neg (by simpa using hlvl)] at hrec
    simp only [Bool.and_eq_true, decide_eq_true_eq] at hrec
    exact hrec.1.1
  unfold State.createHere
  generalize (s.raw 0 a).toNat = n at hrec hopen hjob hn ⊢
  have hguard : ((s.level (lvl + 1) s.myPart n).shut || (lvl == 2 &&
      ((s.level 4 s.myPart (s.level (lvl + 1) s.myPart n).parent).cancelled ||
        (s.level 4 s.myPart (s.level (lvl + 1) s.myPart n).parent).state.final))) = false := by
    rw [hopen, Bool.false_or]
    by_cases h2 : lvl = 2
    · subst h2
      obtain ⟨hc, hf⟩ := hjob rfl
      simp [hc, hf]
    · simp [h2]
  obtain ⟨f, rfl⟩ := State.takeIndex_frees htake
  have hne := levelKey_ne (lvl := lvl) (lvl' := lvl + 1) (part := s.myPart) hi hn (by omega)
  unfold State.createLevel
  rw [if_neg (by simp [hrec])]
  dsimp only
  rw [hguard, if_neg Bool.false_ne_true, htake]
  dsimp only
  generalize hv : State.updLevel _ lvl s.myPart i _ = v
  have hvthreads : ThreadsKept s v := by rw [← hv]; exact ⟨rfl, rfl⟩
  have hvmem : v.mem = s.mem := by rw [← hv]; rfl
  have hvnew : v.level lvl s.myPart i = { inUse := true, ctx := s.myCtx, parent := n, seq := s.admSeq } := by
    rw [← hv, State.updLevel_level_same]
  have hvup : v.level (lvl + 1) s.myPart n = s.level (lvl + 1) s.myPart n := by
    rw [← hv, State.updLevel_level, if_neg hne.symm]
    rfl
  generalize hw : State.updLevel _ (lvl + 1) s.myPart n _ = w
  have hwnew : w.level lvl s.myPart i = v.level lvl s.myPart i := by
    rw [← hw, State.updLevel_level, if_neg hne]
    rfl
  have hwup : (w.level (lvl + 1) s.myPart n).children = (v.level (lvl + 1) s.myPart n).children + 1 := by
    rw [← hw, State.updLevel_level_same]
    rfl
  have hwthreads : ThreadsKept s w := hvthreads.trans (by rw [← hw]; exact ⟨rfl, rfl⟩)
  have hwmem : w.mem = s.mem := by rw [← hw]; exact hvmem
  obtain ⟨hp, ho, hothers⟩ := hwthreads.finish d (statusWord 0 0 i 0) 8
  rw [hvnew] at hwnew
  rw [hvup] at hwup
  exact ⟨congrArg Level.inUse hwnew, congrArg Level.ctx hwnew, congrArg Level.parent hwnew, congrArg Level.closed hwnew, hwup,
    hp, ho, hothers, hwmem⟩

/-! ### A launch that is cancelled (R47) -/

/-- A cancelled launch without an index left, its pool entry free. -/
def Launch.Dropped (n : Nat) (l : Launch) : Prop := l.cancelled = true ∧ l.next = n ∧ l.back = [] ∧ l.pool = false

/-- No thread changes, and a launch whose indices are dropped stays so. -/
def DroppedKept (s t : State) : Prop :=
  ThreadsKept s t ∧ ∀ n part tag, (s.launch part tag).Dropped n → (t.launch part tag).Dropped n

theorem DroppedKept.refl (s : State) : DroppedKept s s := ⟨ThreadsKept.refl s, fun _ _ _ h => h⟩
theorem DroppedKept.trans {s t u : State} (h : DroppedKept s t) (h' : DroppedKept t u) : DroppedKept s u :=
  ⟨h.1.trans h'.1, fun n part tag hd => h'.2 n part tag (h.2 n part tag hd)⟩
theorem DroppedKept.of_launches {s t : State} (h : ThreadsKept s t) (hl : t.launches = s.launches) : DroppedKept s t :=
  ⟨h, fun _ _ _ hd => by rw [State.launch_of_launches hl]; exact hd⟩
theorem TraceOnly.droppedKept {s t : State} (h : TraceOnly s t) : DroppedKept s t :=
  DroppedKept.of_launches h.threadsKept h.records.launches

theorem State.updLaunch_droppedKept (s : State) (part tag : Nat) {f : Launch → Launch}
    (h : ∀ n l, l.Dropped n → (f l).Dropped n) : DroppedKept s (s.updLaunch part tag f) := by
  refine ⟨s.updLaunch_threadsKept part tag f, fun n part' tag' hd => ?_⟩
  unfold State.launch at hd ⊢
  unfold State.updLaunch State.setLaunch
  dsimp only
  rw [nget_nset]
  split
  · next heq => exact h _ _ (by unfold State.launch; rw [← heq]; exact hd)
  · exact hd

theorem State.settleLaunch_droppedKept (s : State) (part tag : Nat) : DroppedKept s (s.settleLaunch part tag) := by
  obtain h | ⟨f, h⟩ := s.settleLaunch_cases part tag
  · rw [h]; exact DroppedKept.refl s
  · exact (s.updLaunch_droppedKept part tag (f := Launch.completed f) fun _ _ hd => ⟨hd.1, hd.2.1, hd.2.2.1, rfl⟩).trans
      (DroppedKept.of_launches ⟨h.threads, h.cur⟩ h.launches)

theorem State.countExit_droppedKept (s : State) (part tag : Nat) (det err : Bool) :
    DroppedKept s (s.countExit part tag det err) := by
  unfold State.countExit
  split
  · exact DroppedKept.refl s
  · refine DroppedKept.trans ?_ (State.settleLaunch_droppedKept _ _ _)
    apply State.updLaunch_droppedKept
    intro n l hd
    exact hd

theorem State.skimSpill_droppedKept (s : State) (core fuel : Nat) : DroppedKept s (s.skimSpill core fuel) := by
  induction fuel generalizing s with
  | zero => exact DroppedKept.refl s
  | succ fuel ih =>
    unfold State.skimSpill
    dsimp only
    split
    · exact DroppedKept.refl s
    · split
      · refine DroppedKept.trans ?_ ((State.countExit_droppedKept _ _ _ _ _).trans (ih _))
        exact DroppedKept.of_launches ⟨rfl, rfl⟩ rfl
      · exact DroppedKept.refl s

theorem State.skimAll_droppedKept (s : State) (cores : List Nat) : DroppedKept s (s.skimAll cores) := by
  induction cores generalizing s with
  | nil => exact DroppedKept.refl s
  | cons c cores ih =>
    refine (s.skimSpill_droppedKept c (s.core c).spilled.length).trans (DroppedKept.trans ?_ (ih _))
    have hframe := (s.skimSpill c (s.core c).spilled.length).unbindIfIdle_onlyCores c
    refine DroppedKept.of_launches ⟨State.unbindIfIdle_threads _ _, ?_⟩ ?_
    · have := congrArg State.cur hframe; exact this
    · have := congrArg State.launches hframe; exact this

theorem State.pinNext_droppedKept (s : State) (part pair : Nat) : DroppedKept s (s.pinNext part pair) := by
  unfold State.pinNext
  dsimp only
  split
  · refine DroppedKept.trans ?_ (State.emit_traceOnly _ _ _ _ _ _).droppedKept
    exact DroppedKept.of_launches ⟨rfl, rfl⟩ rfl
  · exact DroppedKept.refl s

theorem State.pinAll_droppedKept (s : State) (part : Nat) (pairs : List Nat) : DroppedKept s (s.pinAll part pairs) := by
  induction pairs generalizing s with
  | nil => exact DroppedKept.refl s
  | cons p pairs ih =>
    unfold State.pinAll
    refine DroppedKept.trans ?_ (ih _)
    split
    · exact DroppedKept.refl s
    · exact s.pinNext_droppedKept part p

/-- A launch that is cancelled keeps no index and no pool entry. -/
theorem State.cancelLaunch_drops (s : State) (part tag : Nat) :
    ThreadsKept s (s.cancelLaunch part tag) ∧
      ((s.cancelLaunch part tag).launch part tag).Dropped (imgUnits (s.launch part tag).image) := by
  unfold State.cancelLaunch
  dsimp only
  generalize hv : State.updLaunch s part tag _ = v
  have hthreads : ThreadsKept s v := by rw [← hv]; exact s.updLaunch_threadsKept part tag _
  have hdropped : (v.launch part tag).Dropped (imgUnits (s.launch part tag).image) := by
    rw [← hv, State.updLaunch_launch_same]
    exact ⟨rfl, rfl, rfl, rfl⟩
  generalize hw : { v with pairs := _ } = w
  have hvw : DroppedKept v w := by rw [← hw]; exact DroppedKept.of_launches ⟨rfl, rfl⟩ rfl
  suffices hkept : DroppedKept v _ from ⟨hthreads.trans hkept.1, hkept.2 _ _ _ hdropped⟩
  exact hvw.trans <| (w.pinAll_droppedKept part _).trans <| (State.skimAll_droppedKept _ _).trans <|
    State.settleLaunch_droppedKept _ part tag

/-- The cancel of a launch, and its slate. -/
theorem State.cancelRecord_launch (s : State) (part ctx tag : Nat) :
    ThreadsKept s (s.cancelRecord part ctx 1 tag) ∧
      ((s.cancelRecord part ctx 1 tag).launch part tag).Dropped (imgUnits (s.launch part tag).image) := by
  obtain ⟨hthreads, hdropped⟩ := s.cancelLaunch_drops part tag
  suffices hkept : DroppedKept (s.cancelLaunch part tag) _ from ⟨hthreads.trans hkept.1, hkept.2 _ _ _ hdropped⟩
  exact (State.emitX_traceOnly _ _ _ _ _ _ _ _).droppedKept

/-! ### The words that are read (R335, R336) -/

/-- The word of a record of levels 2 to 4; only a free value is used up. -/
theorem State.recordWord_level (s : State) (part : Nat) {lvl : Nat} (i : Nat) (h : lvl ≠ 1) :
    ∃ b u, s.recordWord part lvl i = ((s.level lvl part i).word b, u) ∧ ThreadsKept s u ∧ u.mem = s.mem := by
  unfold State.recordWord
  rw [if_neg (by simpa using h)]
  exact ⟨_, _, rfl, ⟨rfl, rfl⟩, rfl⟩

theorem State.recordWord_launch (s : State) (part i : Nat) : s.recordWord part 1 i = ((s.launch part i).word 0, s) := rfl

/-- An acquire changes floors alone. -/
theorem State.raiseFloor_threadsKept (s : State) (src v : Nat) : ThreadsKept s (s.raiseFloor src v) := ⟨rfl, rfl⟩

section
variable {s : State} (d : Dst) {lvl : BitVec 3} {r : Option Src} (hg : s.me.gang = none)
include hg

theorem lvwait_unnamed (hn : s.namedRecord lvl.toNat r = none) :
    ∃ t, exec (.lvwait d lvl r) s = .next t ∧ Result s t d (BitVec.allOnes 64) 8 := by
  refine ⟨_, ?_, s.finish_result d (BitVec.allOnes 64) 8⟩
  change execLvwait d lvl r s = _
  unfold execLvwait
  dsimp only
  rw [hg, hn]
  rfl

variable {i : Nat} (hn : s.namedRecord lvl.toNat r = some i)
include hn

theorem lvwait_own (hme : s.containsMe lvl.toNat i = true) :
    ∃ t, exec (.lvwait d lvl r) s = .next t ∧ Result s t d (BitVec.allOnes 64) 8 := by
  refine ⟨_, ?_, s.finish_result d (BitVec.allOnes 64) 8⟩
  change execLvwait d lvl r s = _
  unfold execLvwait
  dsimp only
  rw [hg, hn]
  dsimp only
  rw [hme]
  rfl

theorem lvwait_waits (hme : s.containsMe lvl.toNat i = false) (hf : s.recordFinal s.myPart lvl.toNat i = false) :
    exec (.lvwait d lvl r) s = .next s := by
  change execLvwait d lvl r s = _
  unfold execLvwait
  dsimp only
  rw [hg, hn]
  dsimp only
  rw [hme, hf]
  rfl

/-- A wait on a complete record pushes its word. -/
theorem lvwait_complete (hme : s.containsMe lvl.toNat i = false) (hf : s.recordFinal s.myPart lvl.toNat i = true)
    {w : Word} {v : State}
    (hw : (s.raiseFloor s.cur (s.recordFloor s.myPart lvl.toNat i)).recordWord s.myPart lvl.toNat i = (w, v))
    (hv : ThreadsKept (s.raiseFloor s.cur (s.recordFloor s.myPart lvl.toNat i)) v) (hmem : v.mem = s.mem) :
    ∃ t, exec (.lvwait d lvl r) s = .next t ∧ Pushed s t d w ∧ Over s t 8 ∧ t.mem = s.mem ∧ OthersSame s t := by
  obtain ⟨hp, ho, hothers⟩ := ((s.raiseFloor_threadsKept s.cur _).trans hv).finish d w 8
  have hpart : (s.raiseFloor s.cur (s.recordFloor s.myPart lvl.toNat i)).myPart = s.myPart := rfl
  refine ⟨v.finish d w 8, ?_, hp, ho, hmem, hothers⟩
  change execLvwait d lvl r s = _
  unfold execLvwait
  dsimp only
  rw [hg, hn]
  dsimp only
  rw [hme, hf, hpart, hw]
  rfl

end

/-- GRAPH, PHASE and the close of a job (R334). -/
theorem records_made_and_closed (s : State) (d : Dst) (a : Src) :
    let n := (s.raw 0 a).toNat
    let job := s.level 4 s.myPart (s.level 3 s.myPart n).parent
    (∀ i s1, s.hasRecord s.myPart s.myCtx 3 n = true → (s.level 3 s.myPart n).shut = false → job.cancelled = false →
      job.state.final = false → s.takeIndex 2 s.myPart = some (i, s1) → i < 1024 →
      ∃ t, exec (.graphCreate d a) s = .next t ∧ s.made t d n i 2) ∧
    (∀ i s1, s.hasRecord s.myPart s.myCtx 4 n = true → (s.level 4 s.myPart n).shut = false →
      s.takeIndex 3 s.myPart = some (i, s1) → i < 1024 → ∃ t, exec (.phaseCreate d a) s = .next t ∧ s.made t d n i 3) := by
  dsimp only
  refine ⟨fun i s1 hrec hopen hc hf htake hi => ?_, fun i s1 hrec hopen htake hi => ?_⟩
  · exact ⟨_, rfl, State.createHere_makes d hi (by decide) hrec hopen (fun _ => ⟨hc, hf⟩) htake⟩
  · exact ⟨_, rfl, State.createHere_makes d hi (by decide) hrec hopen (fun h => absurd h (by decide)) htake⟩

/-- Only records of levels 1 to 4 have a name. -/
theorem State.namedRecord_out (s : State) {lvl : Nat} (r : Option Src) (h : lvl < 1 ∨ 4 < lvl) : s.namedRecord lvl r = none := by
  unfold State.namedRecord
  rw [if_pos (by simpa using h)]

/-- CANCEL of a record that it does not find (R47). -/
theorem execCancel_unnamed {s : State} (d : Dst) {lvl : BitVec 3} {r : Option Src} (h : s.namedRecord lvl.toNat r = none) :
    execCancel d lvl r s = .next (s.finish d (statusWord (if lvl.toNat < 1 || 4 < lvl.toNat then 5 else 8) 0 0 0) 8) := by
  unfold execCancel
  dsimp only
  rw [h]

theorem execCancel_named {s : State} (d : Dst) {lvl : BitVec 3} {r : Option Src} {i : Nat}
    (h : s.namedRecord lvl.toNat r = some i) :
    execCancel d lvl r s = .next (if s.recordFinal s.myPart lvl.toNat i then s.finish d (statusWord 9 0 0 0) 8
      else (s.cancelRecord s.myPart s.myCtx lvl.toNat i).finish d (statusWord 0 0 0 0) 8) := by
  unfold execCancel
  dsimp only
  rw [h]

section
variable {s : State} (d : Dst) {r : Option Src} {i : Nat}

theorem cancel_launch {lvl : BitVec 3} (hn : s.namedRecord lvl.toNat r = some i) (h1 : lvl = 1)
    (hf : s.recordFinal s.myPart 1 i = false) :
    ∃ t, exec (.cancel d lvl r) s = .next t ∧ Pushed s t d (statusWord 0 0 0 0) ∧ Over s t 8 ∧
      (t.launch s.myPart i).Dropped (imgUnits (s.launch s.myPart i).image) := by
  subst h1
  obtain ⟨hthreads, hdropped⟩ := s.cancelRecord_launch s.myPart s.myCtx i
  obtain ⟨hp, ho, -⟩ := hthreads.finish d (statusWord 0 0 0 0) 8
  refine ⟨_, (execCancel_named d hn).trans (congrArg _ (if_neg ?_)), hp, ho, hdropped⟩
  rw [show (1 : BitVec 3).toNat = 1 from rfl, hf]
  exact Bool.false_ne_true

theorem lvread_unnamed {lvl : BitVec 3} (sel : BitVec 2) (hn : s.namedRecord lvl.toNat r = none) :
    ∃ t, exec (.lvread d lvl sel r) s = .next t ∧ Result s t d (BitVec.allOnes 64) 8 := by
  refine ⟨_, ?_, s.finish_result d (BitVec.allOnes 64) 8⟩
  change execLvread d lvl sel r s = _
  unfold execLvread
  dsimp only
  rw [hn]

theorem lvread_level {lvl : BitVec 3} (hn : s.namedRecord lvl.toNat r = some i) (hl : lvl.toNat ≠ 1) :
    ∃ t b, exec (.lvread d lvl 0 r) s = .next t ∧ Pushed s t d ((s.level lvl.toNat s.myPart i).word b) ∧ Over s t 8 ∧
      t.mem = s.mem ∧ OthersSame s t := by
  obtain ⟨b, u, hw, hthreads, hmem⟩ := s.recordWord_level s.myPart i hl
  obtain ⟨hp, ho, hothers⟩ := hthreads.finish d ((s.level lvl.toNat s.myPart i).word b) 8
  refine ⟨u.finish d _ 8, b, ?_, hp, ho, hmem, hothers⟩
  change execLvread d lvl 0 r s = _
  unfold execLvread
  dsimp only
  rw [hn]
  dsimp only
  rw [hw]
  rfl

/-- A selection that the level does not have. -/
theorem lvread_other {lvl : BitVec 3} {sel : BitVec 2} (hn : s.namedRecord lvl.toNat r = some i) (hl : lvl.toNat ≠ 1)
    (hsel : sel ≠ 0) :
    ∃ t, exec (.lvread d lvl sel r) s = .next t ∧ Result s t d (BitVec.allOnes 64) 8 := by
  have hnone : (sel == 3 || sel != 0 && lvl.toNat != 1) = true := by
    simp only [bne_iff_ne.mpr hsel, bne_iff_ne.mpr hl, Bool.and_self, Bool.or_true]
  refine ⟨_, ?_, s.finish_result d (BitVec.allOnes 64) 8⟩
  change execLvread d lvl sel r s = _
  unfold execLvread
  dsimp only
  rw [hn]
  dsimp only
  rw [hnone]
  rfl

theorem lvread_launch {sel : BitVec 2} (hn : s.namedRecord 1 r = some i) (hsel : sel ≠ 3) :
    ∃ t, exec (.lvread d 1 sel r) s = .next t ∧ Result s t d ((s.launch s.myPart i).word sel.toNat) 8 := by
  refine ⟨_, ?_, s.finish_result d ((s.launch s.myPart i).word sel.toNat) 8⟩
  have hnone : (sel == 3 || sel != 0 && (1 : BitVec 3).toNat != 1) = false := by simpa using hsel
  change execLvread d 1 sel r s = _
  unfold execLvread
  dsimp only
  rw [show (1 : BitVec 3).toNat = 1 from rfl, hn]
  dsimp only
  rw [show (1 : BitVec 3).toNat = 1 from rfl] at hnone
  rw [hnone, s.recordWord_launch]
  split
  · next h => exact absurd h Bool.false_ne_true
  · split
    · next h0 =>
      rw [beq_iff_eq] at h0
      subst h0
      rfl
    · rfl

end

/-- Settles O24: each instruction by what its record's lookup answers; completion and cancelling keep every thread. -/
theorem levelInstructions : Obligations.LevelInstructions := by
  unfold Obligations.LevelInstructions
  refine ⟨fun s d a => ?_, fun s d lvl sel r => ?_⟩
  · obtain ⟨hgraph, hphase⟩ := records_made_and_closed s d a
    exact ⟨hgraph, hphase, fun h => ⟨_, rfl, State.createHere_orphan d h⟩, fun h => ⟨_, rfl, State.createHere_orphan d h⟩,
      fun h => ⟨_, rfl, State.closeHere_closes d h⟩, fun h => ⟨_, rfl, State.closeHere_closes d h⟩,
      fun h => ⟨_, rfl, State.closeHere_closes d h⟩⟩
  · refine ⟨fun h => ?_, fun hn h1 h4 => ?_, fun hn => ⟨?_, fun hg => ?_⟩, fun i hn => ⟨fun hf => ?_, fun hl hf => ?_,
      fun hl hg hme hf => ?_, fun hl hg hme hf => ?_, fun hg hme => ?_, fun hg hme hf => ?_, fun hl hsel => ?_,
      fun hl hsel => ?_, fun hl hsel => ?_⟩⟩
    · have hout : lvl.toNat < 1 ∨ 4 < lvl.toNat := h.imp_left fun h0 => by rw [h0]; decide
      refine ⟨_, execCancel_unnamed d (s.namedRecord_out r hout), ?_⟩
      rw [if_pos (by simpa using hout)]
      exact s.finish_result _ _ _
    · refine ⟨_, execCancel_unnamed d hn, ?_⟩
      rw [if_neg (by simp; omega)]
      exact s.finish_result _ _ _
    · exact lvread_unnamed d sel hn
    · exact lvwait_unnamed d hg hn
    · exact ⟨_, (execCancel_named d hn).trans (congrArg _ (if_pos hf)), s.finish_result _ _ _⟩
    · exact cancel_launch d hn hl hf
    · subst hl
      exact lvwait_complete d hg hn hme hf rfl (ThreadsKept.refl _) rfl
    · obtain ⟨b, u, hw, hthreads, hmem⟩ := (s.raiseFloor s.cur (s.recordFloor s.myPart lvl.toNat i)).recordWord_level
        s.myPart i (lvl := lvl.toNat) fun h => hl (BitVec.eq_of_toNat_eq h)
      obtain ⟨t, ht⟩ := lvwait_complete d hg hn hme hf hw hthreads hmem
      exact ⟨t, b, ht⟩
    · exact lvwait_own d hg hn hme
    · exact lvwait_waits d hg hn hme hf
    · subst hsel
      exact lvread_level d hn fun h => hl (BitVec.eq_of_toNat_eq h)
    · subst hl
      exact lvread_launch d hn hsel
    · exact lvread_other d hn (fun h => hl (BitVec.eq_of_toNat_eq h)) hsel

end Sys2Proof.Machine
end

section
/-!
SUPPORT. A read of far memory by a part of the package, and the binding of a core (R34, R219, R373), as far as threads see them.
-/
namespace Sys2Proof.Machine

theorem State.snoopLines_threadsKept (s : State) (ls : List (Nat × List Nat × Bool)) : ThreadsKept s (s.snoopLines ls) := by
  induction ls generalizing s with
  | nil => exact ThreadsKept.refl s
  | cons l ls ih =>
    unfold State.snoopLines
    exact ThreadsKept.trans ⟨rfl, rfl⟩ (ih _)

theorem State.askFor_threadsKept (s : State) (phys n : Nat) (write : Bool) : ThreadsKept s (s.askFor phys n write) := by
  unfold State.askFor
  dsimp only
  split
  · split <;> exact ⟨rfl, rfl⟩
  · exact s.snoopLines_threadsKept _

theorem State.landRead_threadsKept (s : State) (l : Landing) (n : Nat) : ThreadsKept s (s.landRead l n).2 := by
  unfold State.landRead
  split
  · exact ThreadsKept.refl s
  · dsimp only
    split <;> exact ⟨rfl, rfl⟩
  · exact ⟨rfl, rfl⟩

theorem State.walk_threadsKept (s : State) (ctx va die : Nat) : ThreadsKept s (s.walk ctx va die).2 := by
  unfold State.walk
  split
  · exact ThreadsKept.refl s
  · split
    · exact ThreadsKept.refl s
    · dsimp only
      split <;> exact ⟨rfl, rfl⟩

/-- A translation changes what its walk changes. -/
theorem State.translate_walk (s : State) (ctx va n : Nat) (k : Access) (atomic : Bool) (die : Nat) :
    (s.translate ctx va n k atomic die).2 = (s.walk ctx va die).2 := by
  unfold State.translate
  generalize s.walk ctx va die = r
  obtain ⟨r, u⟩ := r
  cases r with
  | error f => rfl
  | ok e =>
    dsimp only
    repeat' split
    all_goals rfl

theorem State.leaveWalk_threadsKept (s : State) (die who : Nat) : ThreadsKept s (s.leaveWalk die who) := by
  unfold State.leaveWalk
  split <;> exact ⟨rfl, rfl⟩

theorem State.farRead_threadsKept (s : State) (who ctx va n die : Nat) : ThreadsKept s (s.farRead who ctx va n die).2 := by
  unfold State.farRead
  split
  · exact ThreadsKept.refl s
  · split
    · exact s.joinWalk_threadsKept _ _ _ _
    · have htr : ThreadsKept s ((s.leaveWalk die who).translate ctx va n .read false die).2 := by
        rw [State.translate_walk]
        exact (s.leaveWalk_threadsKept die who).trans (State.walk_threadsKept _ _ _ _)
      generalize (s.leaveWalk die who).translate ctx va n .read false die = r at htr
      obtain ⟨r, u⟩ := r
      cases r with
      | error f => exact htr
      | ok l =>
        dsimp only
        split
        · exact htr.trans (u.askFor_threadsKept _ _ _)
        · exact htr.trans (u.landRead_threadsKept _ _)

theorem State.copyImage_threadsKept (s : State) (core ctx die n va dst : Nat) :
    ThreadsKept s (s.copyImage core ctx die n va dst).2 := by
  induction n generalizing s va dst with
  | zero => exact ThreadsKept.refl s
  | succ n ih =>
    have hread := s.farRead_threadsKept (bindWalk core) ctx va 64 die
    unfold State.copyImage
    generalize s.farRead (bindWalk core) ctx va 64 die = r at hread
    obtain ⟨e, u⟩ := r
    cases e with
    | ok bs => exact hread.trans (ThreadsKept.trans ⟨rfl, rfl⟩ (ih _ _ _))
    | failed f => exact hread
    | waits => exact hread

theorem State.bindCore_threadsKept (s : State) (core ctx : Nat) (im : List Word) : ThreadsKept s (s.bindCore core ctx im) := by
  unfold State.bindCore
  dsimp only
  split <;> exact ⟨rfl, rfl⟩

/-- However a binding ends, no thread changes. -/
theorem State.bindTo_threadsKept (s : State) (core ctx tag : Nat) : ThreadsKept s (s.bindTo core ctx tag).2 := by
  unfold State.bindTo
  dsimp only
  split
  · exact s.bindCore_threadsKept _ _ _
  · generalize hr : (if (_ && _ : Bool) = true then _ else _ : ReadEnd × State) = r
    have hread : ThreadsKept s r.2 := by
      rw [← hr]
      split
      · exact (s.bindCore_threadsKept _ _ _).trans (State.copyImage_threadsKept _ _ _ _ _ _ _)
      · exact s.bindCore_threadsKept _ _ _
    obtain ⟨e, u⟩ := r
    cases e with
    | ok bs => exact hread
    | waits => exact hread.trans ⟨rfl, rfl⟩
    | failed f =>
      refine hread.trans ?_
      have hreport := (u.setCore core { s.core core with prev := some ctx }).faultMsg_reportsOnly ctx (coreDie core)
        (niSrc (coreDie core)) (coreEp core 0)
        { cause := 0x26, issuer := coreEp core 0, launch := tag, g2 := (s.launch (s.partOf core) tag).image.getD 8 0,
          g3 := BitVec.ofNat 64 tag }
      exact ⟨hreport.threads, hreport.cur⟩

end Sys2Proof.Machine
end

section
/-!
SUPPORT. Gangs (R48-R51): what the joining and the leaving of members do to each thread.
-/
namespace Sys2Proof.Machine

/-! ### Binding the members' cores -/

theorem State.bindMembers_threadsKept (s : State) (ctx tag : Nat) (ms : List Nat) :
    ThreadsKept s (s.bindMembers ctx tag ms).2 := by
  induction ms generalizing s with
  | nil => exact ThreadsKept.refl s
  | cons m ms ih =>
    unfold State.bindMembers
    split
    · exact ih s
    · have hbind := s.bindTo_threadsKept (epCore m) ctx tag
      generalize s.bindTo (epCore m) ctx tag = r at hbind
      obtain ⟨e, u⟩ := r
      cases e with
      | bound => exact hbind.trans (ih u)
      | waits => exact hbind
      | failed => exact hbind

/-- Cores that are bound to the context already stay as they are. -/
theorem State.bindMembers_bound {s : State} {ctx : Nat} (tag : Nat) {ms : List Nat}
    (h : ∀ m, m ∈ ms → (s.core (epCore m)).bound = some ctx) : s.bindMembers ctx tag ms = (true, s) := by
  induction ms with
  | nil => rfl
  | cons m ms ih =>
    unfold State.bindMembers
    rw [if_pos (by rw [h m List.mem_cons_self]; rfl)]
    exact ih fun m' hm' => h m' (List.mem_cons_of_mem m hm')

theorem State.unbindIfIdle_threadsKept (s : State) (core : Nat) : ThreadsKept s (s.unbindIfIdle core) := by
  refine ⟨s.unbindIfIdle_threads core, ?_⟩
  have := congrArg State.cur (s.unbindIfIdle_onlyCores core)
  exact this

theorem State.unbindMembers_threadsKept (s : State) (ms : List Nat) : ThreadsKept s (s.unbindMembers ms) := by
  induction ms generalizing s with
  | nil => exact ThreadsKept.refl s
  | cons m ms ih => exact (s.unbindIfIdle_threadsKept (epCore m)).trans (ih _)

/-! ### Joining (R48, R49) -/

/-- What a thread that joins a gang takes from its leader. -/
def Thread.JoinedTo (m : Nat) (g : Gang) (lead t : Thread) : Prop :=
  t.busy = true ∧ t.gang = some { g with pos := corePos (epCore m) } ∧ t.regs.g = lead.regs.g ∧ t.regs.pc = lead.regs.pc ∧
    t.unit = lead.unit

theorem State.setFloor_thr (s : State) (src v e : Nat) : (s.setFloor src v).thr e = s.thr e := rfl

theorem State.joinGang_joined (s : State) (g : Gang) (lead m : Nat) :
    Thread.JoinedTo m g (s.thr lead) ((s.joinGang g lead m).thr m) := by
  unfold State.joinGang
  rw [State.setFloor_thr, State.setThr_thr, if_pos rfl]
  exact ⟨rfl, rfl, rfl, rfl, rfl⟩

theorem State.joinGang_other (s : State) (g : Gang) (lead : Nat) {m e : Nat} (h : e ≠ m) :
    (s.joinGang g lead m).thr e = s.thr e := by
  unfold State.joinGang
  rw [State.setFloor_thr, State.setThr_thr, if_neg h]

@[simp] theorem State.joinGangs_cur (s : State) (g : Gang) (lead : Nat) (ms : List Nat) :
    (s.joinGangs g lead ms).cur = s.cur := by
  induction ms generalizing s with
  | nil => rfl
  | cons m ms ih => exact (ih _).trans rfl

theorem State.joinGangs_other (s : State) (g : Gang) (lead : Nat) {ms : List Nat} {e : Nat} (h : e ∉ ms) :
    (s.joinGangs g lead ms).thr e = s.thr e := by
  induction ms generalizing s with
  | nil => rfl
  | cons m ms ih =>
    rw [List.mem_cons, not_or] at h
    exact (ih _ h.2).trans (s.joinGang_other g lead h.1)

/-- Every thread of the list joins the leader, who is none of them. -/
theorem State.joinGangs_joined (s : State) (g : Gang) {lead m : Nat} {ms : List Nat} (hl : lead ∉ ms) (hm : m ∈ ms) :
    Thread.JoinedTo m g (s.thr lead) ((s.joinGangs g lead ms).thr m) := by
  induction ms generalizing s with
  | nil => exact absurd hm List.not_mem_nil
  | cons m' ms ih =>
    rw [List.mem_cons, not_or] at hl
    unfold State.joinGangs
    by_cases hrest : m ∈ ms
    · rw [← s.joinGang_other g lead hl.1]
      exact ih _ hl.2 hrest
    · obtain rfl := (List.mem_cons.mp hm).resolve_right hrest
      rw [State.joinGangs_other _ _ _ hrest]
      exact s.joinGang_joined g lead m

/-! ### Checkpoints (R433) -/

/-- Two threads that differ in their checkpoint alone. -/
def Thread.SameButCkpt (t u : Thread) : Prop := { u with team := t.team, ovf := t.ovf, ckpt := t.ckpt } = t

theorem Thread.SameButCkpt.trans {t u v : Thread} (h : t.SameButCkpt u) (h' : u.SameButCkpt v) : t.SameButCkpt v := by
  unfold Thread.SameButCkpt at h h' ⊢
  rw [← h'] at h
  exact h

theorem State.takeCkpt_thr (s : State) (m : Nat) (team : Team) (e : Nat) : (s.thr e).SameButCkpt ((s.takeCkpt m team).thr e) := by
  unfold State.takeCkpt
  rw [State.updThr_thr]
  split
  · subst e; rfl
  · rfl

theorem State.takeCkpts_thr (s : State) (team : Team) (ms : List Nat) (e : Nat) :
    (s.thr e).SameButCkpt ((s.takeCkpts team ms).thr e) := by
  induction ms generalizing s with
  | nil => rfl
  | cons m ms ih => exact (s.takeCkpt_thr m team e).trans (ih _)

theorem State.takeCkpts_other (s : State) (team : Team) {ms : List Nat} {e : Nat} (h : e ∉ ms) :
    (s.takeCkpts team ms).thr e = s.thr e := by
  induction ms generalizing s with
  | nil => rfl
  | cons m ms ih =>
    rw [List.mem_cons, not_or] at h
    refine (ih _ h.2).trans ?_
    unfold State.takeCkpt
    rw [State.updThr_thr, if_neg h.1]
    rfl

@[simp] theorem State.takeCkpts_cur (s : State) (team : Team) (ms : List Nat) : (s.takeCkpts team ms).cur = s.cur := by
  induction ms generalizing s with
  | nil => rfl
  | cons m ms ih => exact (ih _).trans rfl

/-! ### Leaving (R50) -/

/-- A thread on its own, without a checkpoint. -/
def Thread.Left (t : Thread) : Prop := t.gang = none ∧ t.team = .none ∧ t.ahead = []

theorem State.leaveGang_keeps (s : State) (lead : Thread) (ms : List Nat) {e : Nat} (h : (s.thr e).Left) :
    ((s.leaveGang lead ms).thr e).Left := by
  induction ms generalizing s with
  | nil => exact h
  | cons m ms ih =>
    unfold State.leaveGang
    refine ih _ ?_
    rw [State.updCore_thr_same, State.updThr_thr]
    split
    · exact ⟨rfl, rfl, rfl⟩
    · exact h

theorem State.leaveGang_left (s : State) (lead : Thread) {ms : List Nat} {m : Nat} (h : m ∈ ms) :
    ((s.leaveGang lead ms).thr m).Left := by
  induction ms generalizing s with
  | nil => exact absurd h List.not_mem_nil
  | cons m' ms ih =>
    unfold State.leaveGang
    obtain rfl | hrest := List.mem_cons.mp h
    · refine State.leaveGang_keeps _ _ _ ?_
      rw [State.updCore_thr_same, State.updThr_thr, if_pos rfl]
      exact ⟨rfl, rfl, rfl⟩
    · exact ih _ hrest

/-! ### FUSE (R48) -/

section
variable {t u : Thread} (h : t.SameButCkpt u)
include h
theorem Thread.SameButCkpt.regs : u.regs = t.regs := by have := congrArg Thread.regs h; exact this
theorem Thread.SameButCkpt.rep : u.rep = t.rep := by have := congrArg Thread.rep h; exact this
theorem Thread.SameButCkpt.gang : u.gang = t.gang := by have := congrArg Thread.gang h; exact this
theorem Thread.SameButCkpt.busy : u.busy = t.busy := by have := congrArg Thread.busy h; exact this
theorem Thread.SameButCkpt.unit : u.unit = t.unit := by have := congrArg Thread.unit h; exact this
end

theorem Pushed.congr {s t t' : State} {d : Dst} {v : Word} (h : Pushed s t d v) (hr : t'.me.regs = t.me.regs) :
    Pushed s t' d v := by
  unfold Pushed at h ⊢
  rw [hr]
  exact h

theorem Over.congr {s t t' : State} {len : Nat} (h : Over s t len) (hr : t'.me.regs = t.me.regs) (hrep : t'.me.rep = t.me.rep) :
    Over s t' len := by
  unfold Over at h ⊢
  rw [hr, hrep]
  exact h

/-- A result leaves the main registers and the unit. -/
theorem State.finish_keeps (s : State) (d : Dst) (v : Word) (len : Nat) :
    (s.finish d v len).me.regs.g = s.me.regs.g ∧ (s.finish d v len).me.unit = s.me.unit := by
  obtain ⟨-, -, ⟨hregs, hthread⟩, -⟩ := s.finish_result d v len
  have hg := congrArg Regs.g hregs
  have hunit := congrArg Thread.unit hthread
  exact ⟨hg, hunit⟩

/-- A gang of the leader and the other threads, once their cores are bound. -/
def State.fused (s : State) (d : Dst) (g : Gang) (others : List Nat) : State :=
  let v := { s with ids := s.ids + 1 }.finish d 0 8
  let w := (v.upd fun t => { t with gang := some g }).joinGangs g v.cur others
  w.takeCkpts (.gang g.id) (w.cur :: others)

/-- What a fuse makes of the leader, of the threads that it claims, and of every other thread. -/
def State.FusedTo (s t : State) (d : Dst) (g : Gang) (others : List Nat) : Prop :=
  Pushed s t d 0 ∧ Over s t 8 ∧ t.me.gang = some g ∧
    (∀ m, m ∈ others → (t.thr m).busy = true ∧ (t.thr m).gang = some { g with pos := corePos (epCore m) } ∧
      (t.thr m).regs.g = s.me.regs.g ∧ (t.thr m).regs.pc = t.me.regs.pc ∧ (t.thr m).unit = s.me.unit) ∧
    (∀ m, m ≠ s.cur → m ∉ others → t.thr m = s.thr m)

theorem ThreadsKept.fused {s u : State} (h : ThreadsKept s u) (d : Dst) (g : Gang) {others : List Nat} (hcur : s.cur ∉ others) :
    s.FusedTo (u.fused d g others) d g others := by
  have hids : ThreadsKept s { u with ids := u.ids + 1 } := h.trans ⟨rfl, rfl⟩
  obtain ⟨hp, ho, hothers⟩ := hids.finish d 0 8
  obtain ⟨hg, hunit⟩ := { u with ids := u.ids + 1 }.finish_keeps d 0 8
  rw [hids.me] at hg hunit
  unfold State.fused
  generalize hv : State.finish _ d 0 8 = v at hp ho hothers hg hunit ⊢
  have hvcur : v.cur = s.cur := by rw [← hv]; exact h.2
  dsimp only
  generalize hw : (v.upd fun t => { t with gang := some g }) = w
  have hwcur : w.cur = s.cur := by rw [← hw]; exact hvcur
  have hwme : w.me = { v.me with gang := some g } := by rw [← hw, State.upd_me]
  have hwother {e : Nat} (he : e ≠ s.cur) : w.thr e = v.thr e := by
    rw [← hw, State.upd_thr_other _ _ (by rw [hvcur]; exact he)]
  rw [State.joinGangs_cur, hvcur, hwcur]
  have hlead : (w.joinGangs g s.cur others).thr s.cur = w.me := by
    rw [State.joinGangs_other _ _ _ hcur]
    unfold State.me
    rw [hwcur]
  have hme := (w.joinGangs g s.cur others).takeCkpts_thr (.gang g.id) (s.cur :: others) s.cur
  rw [hlead] at hme
  have htme : ((w.joinGangs g s.cur others).takeCkpts (.gang g.id) (s.cur :: others)).me =
      ((w.joinGangs g s.cur others).takeCkpts (.gang g.id) (s.cur :: others)).thr s.cur := by
    unfold State.me
    rw [State.takeCkpts_cur, State.joinGangs_cur, hwcur]
  rw [← htme] at hme
  have hregs := hme.regs.trans (congrArg Thread.regs hwme)
  have hrep := hme.rep.trans (congrArg Thread.rep hwme)
  refine ⟨hp.congr hregs, ho.congr hregs hrep, hme.gang.trans (congrArg Thread.gang hwme), fun m hm => ?_, fun m hne hm => ?_⟩
  · have hc := (w.joinGangs g s.cur others).takeCkpts_thr (.gang g.id) (s.cur :: others) m
    obtain ⟨hbusy, hgang, hmain, hpc, hmunit⟩ := w.joinGangs_joined g hcur hm
    have hwlead : w.thr s.cur = w.me := by unfold State.me; rw [hwcur]
    rw [hwlead, hwme] at hmain hpc hmunit
    rw [hc.busy, hc.gang, hc.regs, hc.unit, hregs]
    exact ⟨hbusy, hgang, hmain.trans hg, hpc, hmunit.trans hunit⟩
  · rw [State.takeCkpts_other _ _ (by rw [List.mem_cons, not_or]; exact ⟨hne, hm⟩), State.joinGangs_other _ _ _ hm,
      hwother hne, hothers m hne]

section
variable {s : State} (d : Dst) {n : BitVec 4} (hv : isVDie (coreDie s.curCore) = true)
  (hpos : corePos s.curCore % n.toNat = 0) (hg : s.me.gang = none)

/-- The other threads that a fuse of `n` would claim. -/
def State.fuseOthers (s : State) (n : BitVec 4) : List Nat :=
  (gangMembers ⟨s.ids, n.toNat, corePos s.curCore, corePos s.curCore⟩ s.cur).filter (· != s.cur)

theorem State.cur_notMem_fuseOthers (s : State) (n : BitVec 4) : s.cur ∉ s.fuseOthers n := by
  simp [State.fuseOthers]

include hv hpos hg

theorem execFuse_unclaimed (hc : (s.fuseOthers n).all (s.claimable s.myCtx) = false) :
    execFuse d n s = .next (s.finish d 1 8) := by
  unfold State.fuseOthers at hc
  unfold execFuse
  dsimp only
  rw [hv, hpos, hg, hc]
  rfl

variable (hc : (s.fuseOthers n).all (s.claimable s.myCtx) = true)
include hc

theorem execFuse_made {u : State} (hb : s.bindMembers s.myCtx s.me.unit.launch (s.fuseOthers n) = (true, u)) :
    execFuse d n s = .next (u.fused d ⟨s.ids, n.toNat, corePos s.curCore, corePos s.curCore⟩ (s.fuseOthers n)) := by
  unfold State.fuseOthers at hc hb ⊢
  unfold execFuse
  dsimp only
  rw [hv, hpos, hg, hc, hb]
  rfl

theorem execFuse_unbound {u : State} (hb : s.bindMembers s.myCtx s.me.unit.launch (s.fuseOthers n) = (false, u)) :
    execFuse d n s = .next ((u.unbindMembers (s.fuseOthers n)).finish d 1 8) := by
  unfold State.fuseOthers at hc hb ⊢
  unfold execFuse
  dsimp only
  rw [hv, hpos, hg, hc, hb]
  rfl

end

theorem execFuse_refused {s : State} (d : Dst) {n : BitVec 4} (hv : isVDie (coreDie s.curCore) = true)
    (h : corePos s.curCore % n.toNat ≠ 0 ∨ s.me.gang ≠ none) : execFuse d n s = .next (s.raise 0x31 0) := by
  have hcond : (corePos s.curCore % n.toNat != 0 || s.me.gang.isSome) = true := by
    rw [Bool.or_eq_true, bne_iff_ne, Option.isSome_iff_ne_none]
    exact h
  unfold execFuse
  dsimp only
  rw [hv, hcond]
  rfl

theorem execFuse_elsewhere {s : State} (d : Dst) {n : BitVec 4} (hv : isVDie (coreDie s.curCore) = false) :
    execFuse d n s = .next (s.finish d 2 8) := by
  unfold execFuse
  dsimp only
  rw [hv]
  rfl

/-- FUSE, by what its claims and its bindings come to. -/
theorem fuse_outcomes (s : State) (d : Dst) (n : BitVec 4) (hv : isVDie (coreDie s.curCore) = true)
    (hpos : corePos s.curCore % n.toNat = 0) (hg : s.me.gang = none) :
    let g : Gang := ⟨s.ids, n.toNat, corePos s.curCore, corePos s.curCore⟩
    let others := s.fuseOthers n
    let bound := s.bindMembers s.myCtx s.me.unit.launch others
    (others.all (s.claimable s.myCtx) = true → bound.1 = true →
      ∃ t, exec (.fuse d n) s = .next t ∧ s.FusedTo t d g others) ∧
    (others.all (s.claimable s.myCtx) = true → bound.1 = false →
      ∃ t, exec (.fuse d n) s = .next t ∧ Pushed s t d 1 ∧ Over s t 8 ∧ OthersSame s t ∧ t.me.gang = none) ∧
    (others.all (s.claimable s.myCtx) = false → ∃ t, exec (.fuse d n) s = .next t ∧ Result s t d 1 8) := by
  have hkept := s.bindMembers_threadsKept s.myCtx s.me.unit.launch (s.fuseOthers n)
  dsimp only
  refine ⟨fun hc hb => ?_, fun hc hb => ?_, fun hc => ⟨_, execFuse_unclaimed d hv hpos hg hc, s.finish_result _ _ _⟩⟩
  · exact ⟨_, execFuse_made d hv hpos hg hc (Prod.ext hb rfl), hkept.fused d _ (s.cur_notMem_fuseOthers n)⟩
  · have hu := hkept.trans (State.unbindMembers_threadsKept _ (s.fuseOthers n))
    obtain ⟨hp, ho, hothers⟩ := hu.finish d 1 8
    refine ⟨_, execFuse_unbound d hv hpos hg hc (Prod.ext hb rfl), hp, ho, hothers, ?_⟩
    obtain ⟨-, -, ⟨-, hthread⟩, -⟩ := State.finish_result (State.unbindMembers _ (s.fuseOthers n)) d 1 8
    have hgang := congrArg Thread.gang hthread
    rw [hu.me] at hgang
    exact hgang.trans hg

/-! ### A core and its place (R339-R341) -/

/-- A result after a change of the issuing core's record: of cores only that one differs. -/
theorem State.updCore_finish (s : State) (c : Nat) (f : Core → Core) (d : Dst) (v : Word) :
    Result s { (s.updCore c f).finish d v 8 with cores := s.cores } d v 8 ∧
      ((s.updCore c f).finish d v 8).core c = f (s.core c) ∧
      ∀ e, e ≠ c → ((s.updCore c f).finish d v 8).core e = s.core e := by
  refine ⟨s.finish_result d v 8, ?_, fun e he => ?_⟩
  · exact (s.updCore_core c f c).trans (if_pos rfl)
  · exact (s.updCore_core c f e).trans (if_neg he)

theorem execSpillq_spilled {s : State} (d : Dst) (a : Src) (h : (s.core s.curCore).spilled ≠ []) :
    execSpillq d a s = .next (s.finish d 1 8) := by
  unfold execSpillq
  dsimp only
  rw [if_pos (by simpa using h)]

theorem execSpillq_empty {s : State} (d : Dst) (a : Src) (h : (s.core s.curCore).spilled = []) :
    execSpillq d a s = .next (if spillqOk s.curCore (s.raw 0 a) then
      (s.updCore s.curCore fun k => { k with spill := s.raw 0 a, spillHead := 0 }).finish d 0 8 else s.finish d 2 8) := by
  unfold execSpillq
  dsimp only
  rw [if_neg (by simp [h])]
  cases spillqOk s.curCore (s.raw 0 a) <;> rfl

/-- R49: a thread's place in its gang, as LANEID pushes it. -/
def State.laneWord (s : State) : Word :=
  match s.me.gang with
  | none => 0
  | some g => BitVec.ofNat 64 (g.pos - g.leader)

theorem State.lane_word (s : State) : BitVec.ofNat 64 s.me.lane = s.laneWord := by
  unfold Thread.lane State.laneWord
  cases s.me.gang <;> rfl

theorem State.placeOf_vdie {s : State} (hv : isVDie (coreDie s.curCore) = true) :
    s.placeOf = BitVec.ofNat 64 (s.myPart * 2 ^ 32 + coreDie s.curCore * 2 ^ 20 + coreCluster s.curCore * 2 ^ 18 +
      corePos s.curCore * 2 ^ 15 + coreOctet s.curCore * 2 ^ 8 + corePeer s.curCore) := by
  unfold State.placeOf
  dsimp only
  rw [if_pos hv]

/-- Settles O25: a fuse by what its claims and bindings come to, the other instructions by what they push. -/
theorem gangs : Obligations.Gangs := by
  unfold Obligations.Gangs
  refine ⟨⟨fun s d n _ hv hpos hg => ?_, fun s d n hv => ⟨_, execFuse_elsewhere d hv, s.finish_result _ _ _⟩,
    fun s d n hv h => execFuse_refused d hv h, fun s g hg => ?_, fun s hg => ?_⟩, fun s d a share cls => ?_⟩
  · obtain ⟨hmade, hunbound, hunclaimed⟩ := fuse_outcomes s d n hv hpos hg
    exact ⟨hmade, hunbound, fun h => State.bindMembers_bound _ h, hunclaimed⟩
  · refine ⟨(s.done 8).leaveGang (s.done 8).me (gangMembers g s.cur), ?_, fun m hm => State.leaveGang_left _ _ hm⟩
    change execSplit s = _
    unfold execSplit
    rw [hg]
    rfl
  · change execSplit s = _
    unfold execSplit
    rw [hg]
  · refine ⟨⟨_, rfl, ?_⟩, ⟨_, rfl, s.finish_result _ _ _⟩, fun hv => ⟨_, rfl, ?_⟩,
      fun h => ⟨_, execSpillq_spilled d a h, s.finish_result _ _ _⟩,
      fun h hok => ⟨_, (execSpillq_empty d a h).trans (by rw [hok, if_neg Bool.false_ne_true]), s.finish_result _ _ _⟩,
      fun h hok => ⟨_, (execSpillq_empty d a h).trans (by rw [hok, if_pos rfl]),
        s.updCore_finish s.curCore (fun k => { k with spill := s.raw 0 a, spillHead := 0 }) d 0⟩,
      fun hv => ⟨s.finish d 0x100 8, ?_, s.finish_result _ _ _⟩, fun hv => ⟨_, ?_,
        s.updCore_finish s.curCore (fun k => { k with share := share, jobCls := cls }) d _⟩⟩
    · have hlane : BitVec.ofNat 64 s.me.lane = s.laneWord := s.lane_word
      rw [hlane]
      exact s.finish_result d s.laneWord 8
    · rw [s.placeOf_vdie hv]
      exact s.finish_result _ _ _
    · change execJobset d share cls s = _
      unfold execJobset
      dsimp only
      rw [hv]
      rfl
    · change execJobset d share cls s = _
      unfold execJobset
      dsimp only
      rw [hv]
      rfl

end Sys2Proof.Machine
end

section
/-!
SUPPORT. The arrays (R53, R159-R163, R189-R191): what binding, granting and releasing one leaves of the others, of jobs, of
their table entries and of the units.
-/
namespace Sys2Proof.Machine

/-! ### Stores that are zeroed -/

/-- An address that is not listed reads as nothing written. -/
theorem Memory.read_unlisted {m : Memory} {a : Nat} (h : ∀ x ∈ m, x.1 ≠ a) : Memory.read m a = Memory.blank := by
  induction m with
  | nil => rfl
  | cons x m ih =>
    obtain ⟨j, b⟩ := x
    unfold Memory.read
    rw [if_neg (h (j, b) List.mem_cons_self), ih fun y hy => h y (List.mem_cons_of_mem _ hy), ite_self]

theorem Memory.mem_zero {m : Memory} {lo hi : Nat} {x : Nat × Byte} (h : x ∈ m.zero lo hi) :
    x ∈ m ∧ ¬ (lo ≤ x.1 ∧ x.1 < hi) := by
  induction m with
  | nil => exact absurd h List.not_mem_nil
  | cons y m ih =>
    obtain ⟨j, b⟩ := y
    unfold Memory.zero at h
    split at h
    · obtain ⟨hm, hr⟩ := ih h
      exact ⟨List.mem_cons_of_mem _ hm, hr⟩
    · next hj =>
      obtain rfl | h := List.mem_cons.mp h
      · exact ⟨List.mem_cons_self, hj⟩
      · obtain ⟨hm, hr⟩ := ih h
        exact ⟨List.mem_cons_of_mem _ hm, hr⟩

/-- An array's stores when it has bound to another context (R158). -/
def Memory.zeroStores (m : Memory) (a : Nat) : Memory :=
  (m.zero (planeKey a 0) (planeKey a 0x200000)).zero (accKey a 0) (accKey a 0x100000)

theorem Memory.zeroStores_plane (m : Memory) (a : Nat) {b : Nat} (h : b < 0x200000) :
    (m.zeroStores a).read (planeKey a b) = 0 := by
  refine Memory.read_unlisted fun x hx he => (Memory.mem_zero (Memory.mem_zero hx).1).2 ?_
  rw [he]
  unfold planeKey
  omega

theorem Memory.zeroStores_acc (m : Memory) (a : Nat) {b : Nat} (h : b < 0x100000) :
    (m.zeroStores a).read (accKey a b) = 0 := by
  refine Memory.read_unlisted fun x hx he => (Memory.mem_zero hx).2 ?_
  rw [he]
  unfold accKey
  omega

/-! ### Tables that keep some of their entries -/

theorem nget_above {α : Type} (d : α) {m : NMap α} {lo k : Nat} (h : NMap.above lo m = true) (hk : k ≤ lo) : nget d m k = d := by
  induction m generalizing lo with
  | nil => rfl
  | cons x m ih =>
    obtain ⟨j, v⟩ := x
    rw [NMap.above, Bool.and_eq_true, decide_eq_true_eq] at h
    unfold nget
    rw [if_neg (by omega)]
    exact ih h.2 (by omega)

theorem NMap.above_filter {α : Type} (p : Nat × α → Bool) {m : NMap α} {lo : Nat} (h : NMap.above lo m = true) :
    NMap.above lo (m.filter p : NMap α) = true := by
  induction m generalizing lo with
  | nil => rfl
  | cons x m ih =>
    obtain ⟨j, v⟩ := x
    rw [NMap.above, Bool.and_eq_true, decide_eq_true_eq] at h
    rw [List.filter_cons]
    split
    · rw [NMap.above, Bool.and_eq_true, decide_eq_true_eq]
      exact ⟨h.1, ih h.2⟩
    · exact ih (NMap.above_mono h.2 (by omega))

/-- A table whose keys rise reads, after its filter, as before where the entry stays, and as empty elsewhere. -/
theorem nget_filter {α : Type} (d : α) (p : α → Bool) {m : NMap α} (h : NMap.wf m = true) (k : Nat) :
    nget d (m.filter fun x => p x.2 : NMap α) k = if p (nget d m k) then nget d m k else d := by
  induction m with
  | nil => exact (ite_self d).symm
  | cons x m ih =>
    obtain ⟨j, v⟩ := x
    have habove : NMap.above j m = true := h
    rw [List.filter_cons]
    by_cases hk : j = k
    · subst hk
      have hv : nget d ((j, v) :: m) j = v := by unfold nget; exact if_pos rfl
      rw [hv]
      by_cases hp : p v = true
      · rw [if_pos hp, if_pos hp]
        unfold nget
        exact if_pos rfl
      · rw [if_neg hp, if_neg hp]
        exact nget_above d (NMap.above_filter (fun x : Nat × α => p x.2) habove) (Nat.le_refl j)
    · have hv : nget d ((j, v) :: m) k = nget d m k := by conv => lhs; unfold nget; rw [if_neg hk]
      rw [hv, ← ih (NMap.wf_of_above habove)]
      by_cases hp : p v = true
      · rw [if_pos hp]
        conv => lhs; unfold nget; rw [if_neg hk]
      · rw [if_neg hp]

/-! ### The record of one array -/

theorem State.arr_of_arrays {s t : State} (h : t.arrays = s.arrays) (a : Nat) : t.arr a = s.arr a := by
  unfold State.arr; rw [h]

@[simp] theorem State.updArr_arr_same (s : State) (a : Nat) (f : Arr → Arr) : (s.updArr a f).arr a = f (s.arr a) :=
  nget_nset_same _ _ _ _

theorem State.updArr_arr_other (s : State) {a b : Nat} (f : Arr → Arr) (h : b ≠ a) : (s.updArr a f).arr b = s.arr b :=
  nget_nset_other _ _ _ h

theorem arrayMate_ne_self (a : Nat) : arrayMate a ≠ a := by
  unfold arrayMate
  split
  · omega
  · next h => rw [beq_iff_eq] at h; omega

theorem TraceOnly.arrays {s t : State} (h : TraceOnly s t) : t.arrays = s.arrays := by
  have := congrArg State.arrays h; exact this
theorem ReportsOnly.arrays {s t : State} (h : ReportsOnly s t) : t.arrays = s.arrays := by
  have := congrArg State.arrays h; exact this

theorem State.jobEntry_of_arr {s t : State} {a : Nat} (h : t.arr a = s.arr a) (id : Nat) : t.jobEntry a id = s.jobEntry a id := by
  unfold State.jobEntry; rw [h]

/-! ### Binding (R159) -/

theorem State.bindArr_same {s : State} {a ctx : Nat} (h : (s.arr a).ctx = some ctx) :
    s.bindArr a ctx = s.updArr a fun x => { x with ctx := some ctx, bound := true } := by
  unfold State.bindArr
  rw [if_pos (beq_iff_eq.mpr h)]

/-- Entries of the job table that a binding to another context keeps: jobs that have not ended. -/
def JobEntry.live (e : JobEntry) : Bool := e.state == 1 || e.state == 2 || e.state == 3

/-- An array whose stores are another context's. -/
def State.zeroArr (s : State) (a : Nat) : State :=
  { s with mem := s.mem.zeroStores a }.updArr a fun x => { x with part := [], table := x.table.filter fun y => y.2.live }

theorem State.zeroArr_arr (s : State) (a : Nat) :
    (s.zeroArr a).arr a = { s.arr a with part := [], table := (s.arr a).table.filter fun y => y.2.live } :=
  State.updArr_arr_same _ _ _

theorem State.bindArr_new {s : State} {a ctx : Nat} (h : (s.arr a).ctx ≠ some ctx) :
    s.bindArr a ctx = (s.zeroArr a).updArr a fun x => { x with ctx := some ctx, bound := true } := by
  unfold State.bindArr
  rw [if_neg (by rwa [beq_iff_eq])]
  rfl

/-- What every binding leaves: the other arrays, the threads, and what the array runs. -/
structure BoundTo (s t : State) (a ctx : Nat) : Prop where
  ctx : (t.arr a).ctx = some ctx
  bound : (t.arr a).bound = true
  run : (t.arr a).run = (s.arr a).run
  others : ∀ b, b ≠ a → t.arr b = s.arr b
  threads : t.threads = s.threads
  cores : t.cores = s.cores

theorem State.bindArr_boundTo (s : State) (a ctx : Nat) : BoundTo s (s.bindArr a ctx) a ctx := by
  by_cases h : (s.arr a).ctx = some ctx
  · rw [State.bindArr_same h]
    refine ⟨?_, ?_, ?_, fun b hb => State.updArr_arr_other _ _ hb, rfl, rfl⟩ <;> rw [State.updArr_arr_same]
  · rw [State.bindArr_new h]
    refine ⟨?_, ?_, ?_, fun b hb => ?_, rfl, rfl⟩
    · rw [State.updArr_arr_same]
    · rw [State.updArr_arr_same]
    · rw [State.updArr_arr_same]
      have hrun := congrArg Arr.run (s.zeroArr_arr a)
      exact hrun
    · exact (State.updArr_arr_other _ _ hb).trans (State.updArr_arr_other _ _ hb)

/-- A binding to the context that the array served last keeps its stores, its banks and its entries (R272). -/
theorem State.bindArr_keeps {s : State} {a ctx : Nat} (h : (s.arr a).ctx = some ctx) :
    ((s.bindArr a ctx).mem = s.mem ∧ ((s.bindArr a ctx).arr a).part = (s.arr a).part) ∧
      ∀ id, (s.bindArr a ctx).jobEntry a id = s.jobEntry a id := by
  rw [State.bindArr_same h]
  unfold State.jobEntry
  rw [State.updArr_arr_same]
  exact ⟨⟨rfl, rfl⟩, fun _ => rfl⟩

/-- A binding to another context zeroes the stores (R158). -/
theorem State.bindArr_zeroes {s : State} {a ctx : Nat} (h : (s.arr a).ctx ≠ some ctx) :
    ((s.bindArr a ctx).arr a).part = [] ∧ (s.bindArr a ctx).mem = s.mem.zeroStores a ∧
      ((s.bindArr a ctx).arr a).table = (s.arr a).table.filter fun y => y.2.live := by
  rw [State.bindArr_new h, State.updArr_arr_same, State.zeroArr_arr]
  exact ⟨rfl, rfl, rfl⟩

/-- The entries of jobs that have ended are idle again (R163). -/
theorem State.bindArr_entries {s : State} {a ctx : Nat} (h : (s.arr a).ctx ≠ some ctx) (hwf : NMap.wf (s.arr a).table = true)
    (id : Nat) :
    (s.bindArr a ctx).jobEntry a id =
      if (s.jobEntry a id).state = 1 ∨ (s.jobEntry a id).state = 2 ∨ (s.jobEntry a id).state = 3 then s.jobEntry a id
      else {} := by
  obtain ⟨-, -, htable⟩ := State.bindArr_zeroes h
  unfold State.jobEntry
  rw [htable, nget_filter {} JobEntry.live hwf]
  simp only [JobEntry.live, Bool.or_eq_true, beq_iff_eq, or_assoc]

/-! ### An odd array that grants itself (R191) -/

/-- What an array that has granted itself to its partner's job keeps. -/
structure LentTo (s t : State) (a ctx id : Nat) : Prop where
  loan : (t.arr a).loan = some id
  ctx : (t.arr a).ctx = some ctx
  run : (t.arr a).run = (s.arr a).run
  others : ∀ b, b ≠ a → t.arr b = s.arr b
  threads : t.threads = s.threads

theorem State.arrBound_ctx {s : State} {a c : Nat} (h : s.arrBound a = some c) : (s.arr a).ctx = some c := by
  unfold State.arrBound at h
  split at h
  · exact (Option.filter_eq_some_iff.mp h).1
  · cases h

/-- An array that is unbound, or bound to the context, grants itself. -/
theorem State.lend_lentTo {s : State} {a ctx : Nat} (id : Nat) (h : (s.arrBound a).all (· == ctx) = true) :
    LentTo s (s.lend a ctx id) a ctx id := by
  unfold State.lend State.bindFor
  cases hb : s.arrBound a with
  | none =>
    have hbound := s.bindArr_boundTo a ctx
    rw [if_pos (by rfl)]
    refine ⟨?_, ?_, ?_, fun b hne => (State.updArr_arr_other _ _ hne).trans (hbound.others b hne), hbound.threads⟩ <;>
      rw [State.updArr_arr_same]
    · exact hbound.ctx
    · exact hbound.run
  | some c =>
    rw [hb] at h
    have hc : c = ctx := beq_iff_eq.mp h
    rw [if_neg (by exact Bool.false_ne_true)]
    refine ⟨?_, ?_, ?_, fun b hne => State.updArr_arr_other _ _ hne, rfl⟩ <;> rw [State.updArr_arr_same]
    exact (State.arrBound_ctx hb).trans (congrArg some hc)

/-- An array that agrees is unbound or bound to the context. -/
theorem State.agrees_bound {s : State} {a ctx : Nat} (h : s.agrees a ctx = true) : (s.arrBound a).all (· == ctx) = true := by
  unfold State.agrees at h
  rw [Bool.and_eq_true] at h
  exact h.2

/-- The job that an odd array takes up is one that it agrees to. -/
theorem State.wanted_agrees {s : State} {a c id : Nat} (h : s.wanted a = some (c, id)) : s.agrees a c = true := by
  unfold State.wanted at h
  split at h
  · cases h
  · split at h
    · cases h
    · split at h
      · next hc =>
        rw [Bool.and_eq_true] at hc
        cases h
        exact hc.2
      · cases h

/-! ### Units where they stand (R42, R296) -/

theorem find?_mapIf {α : Type} (p : α → Bool) (f : α → α) (h : ∀ x, p x = true → p (f x) = true) (xs : List α) :
    (mapIf p f xs).find? p = (xs.find? p).map f := by
  induction xs with
  | nil => rfl
  | cons x xs ih =>
    unfold mapIf
    by_cases hx : p x = true
    · rw [if_pos hx, List.find?_cons_of_pos (h x hx), List.find?_cons_of_pos hx]
      rfl
    · rw [if_neg hx, List.find?_cons_of_neg hx, List.find?_cons_of_neg hx, ih]

/-- Where a unit stands rests on what threads hold. -/
theorem State.unitEp_congr {s t : State} (h : ∀ e, (t.thr e).busy = (s.thr e).busy ∧ (t.thr e).unit = (s.thr e).unit)
    (ep uid : Nat) : t.unitEp ep uid = s.unitEp ep uid := by
  have hhere : ∀ e, t.unitHere e uid = s.unitHere e uid := fun e => by
    unfold State.unitHere
    rw [(h e).1, (h e).2]
  unfold State.unitEp
  rw [hhere ep, funext hhere]

theorem State.unitThr_congr {s t : State} (ht : t.threads = s.threads) (hc : t.cores = s.cores) (ep uid : Nat) :
    t.unitThr ep uid = s.unitThr ep uid := by
  have hep : t.unitEp ep uid = s.unitEp ep uid :=
    State.unitEp_congr (fun e => by rw [State.thr_of_threads ht]; exact ⟨rfl, rfl⟩) ep uid
  unfold State.unitThr State.slotOf
  rw [hep, State.core_of_cores hc]
  simp only [State.thr_of_threads ht]

theorem State.updCore_unitEp (s : State) (c : Nat) (f : Core → Core) (ep uid : Nat) :
    (s.updCore c f).unitEp ep uid = s.unitEp ep uid := State.unitEp_congr (fun _ => ⟨rfl, rfl⟩) ep uid

/-- A change of a unit, on its thread or in its park slot, is what is found of it afterwards. -/
theorem State.updUnit_unitThr (s : State) (ep uid : Nat) {f : Thread → Thread}
    (hf : ∀ t, (f t).busy = t.busy ∧ (f t).unit = t.unit) :
    (s.updUnit ep uid f).unitThr ep uid = (s.unitThr ep uid).map f := by
  unfold State.updUnit State.unitThr
  cases he : s.unitEp ep uid with
  | some e =>
    have hsame : (s.updThr e f).unitEp ep uid = s.unitEp ep uid := by
      refine State.unitEp_congr (fun e' => ?_) ep uid
      rw [State.updThr_thr]
      split
      · next h => subst h; exact hf _
      · exact ⟨rfl, rfl⟩
    dsimp only
    rw [hsame, he]
    dsimp only
    rw [State.updThr_thr, if_pos rfl]
    rfl
  | none =>
    dsimp only
    rw [State.updCore_unitEp, he]
    dsimp only
    unfold State.slotOf
    rw [State.updCore_core, if_pos rfl, find?_mapIf _ _ fun x hx => by rw [(hf x.th).2]; exact hx]
    cases (s.core (epCore ep)).park.find? _ <;> rfl

theorem State.updUnit_arrays (s : State) (ep uid : Nat) (f : Thread → Thread) : (s.updUnit ep uid f).arrays = s.arrays := by
  unfold State.updUnit
  split <;> rfl

/-! ### A grant (R53, R160) -/

/-- The array has taken an offer. -/
def State.taken (s : State) (a : Nat) (o : Offer) (c1 : Bool) : State :=
  s.updArr a fun x =>
    { x with run := some o.what, offered := none, turn := if o.cls then x.turn else (o.pos + 1) % 8,
             turn1 := if o.cls then (o.pos + 1) % 8 else x.turn1,
             streak := if !o.cls && c1 then x.streak + 1 else 0, chunkAt := s.now }

/-- The job of an array runs. -/
def State.started (s : State) (a id : Nat) : State :=
  (s.updEntry a id fun e => { e with state := 2 }).updJob a id fun j => { j with susp := .no }

theorem State.grant_job (s : State) (a : Nat) {o : Offer} {id : Nat} (c1 : Bool) (h : o.what = .job id) :
    TraceOnly ((s.taken a o c1).started a id) (s.grant a o c1) := by
  unfold State.grant
  rw [h]
  dsimp only
  generalize hu : s.updArr a _ = u
  have htaken : s.taken a o c1 = u := by
    rw [← hu, ← h]
    rfl
  rw [htaken]
  split
  · exact State.emit_traceOnly _ _ _ _ _ _
  · exact TraceOnly.refl _

theorem State.grant_lease_arrays (s : State) (a : Nat) {o : Offer} {ep uid : Nat} (c1 : Bool) (h : o.what = .lease ep uid) :
    (s.grant a o c1).arrays = (s.taken a o c1).arrays := by
  unfold State.grant
  rw [h]
  dsimp only
  generalize hu : s.updArr a _ = u
  have htaken : s.taken a o c1 = u := by
    rw [← hu, ← h]
    rfl
  rw [htaken]
  split
  · split
    · exact (State.emit_traceOnly _ _ _ _ _ _).arrays.trans (State.updUnit_arrays _ _ _ _)
    · rfl
  · rfl

/-- A waiting lease is held, and its unit's registers are as before (R161). -/
theorem State.grant_lease_held {s : State} (a : Nat) {o : Offer} {ep uid : Nat} {u : Thread} {w : Bool} (c1 : Bool)
    (h : o.what = .lease ep uid) (hu : s.unitThr ep uid = some u) (hw : u.lease = .waiting w) :
    ∃ v, (s.grant a o c1).unitThr ep uid = some v ∧ v.lease = .held ∧ v.regs = u.regs := by
  have htaken : (s.taken a o c1).unitThr ep uid = some u := (State.unitThr_congr (s := s) rfl rfl ep uid).trans hu
  have hunit (base now src die ctx code payload : Nat) :
      (((s.taken a o c1).updUnit ep uid fun t => { t with lease := .held, leaseBase := base, leaseLast := now }).emit
        src die ctx code payload).unitThr ep uid = some { u with lease := .held, leaseBase := base, leaseLast := now } := by
    have htrace := ((s.taken a o c1).updUnit ep uid fun t =>
      { t with lease := .held, leaseBase := base, leaseLast := now }).emit_traceOnly src die ctx code payload
    have hcores := congrArg State.cores htrace
    rw [State.unitThr_congr htrace.threads hcores, State.updUnit_unitThr, htaken]
    · rfl
    · exact fun _ => ⟨rfl, rfl⟩
  unfold State.grant
  rw [h]
  dsimp only
  generalize hv : s.updArr a _ = v
  have heq : s.taken a o c1 = v := by
    rw [← hv, ← h]
    rfl
  rw [heq] at htaken hunit
  rw [htaken]
  dsimp only
  rw [hw]
  exact ⟨_, hunit _ _ _ _ _ _ _, rfl, rfl⟩

theorem State.started_arr (s : State) (a id : Nat) :
    ∃ jobs, (s.started a id).arr a =
      { s.arr a with table := nset (s.arr a).table id { s.jobEntry a id with state := 2 }, jobs := jobs } := by
  unfold State.started State.updJob State.updEntry
  rw [State.updArr_arr_same, State.updArr_arr_same]
  exact ⟨_, rfl⟩

theorem State.started_others (s : State) (a id : Nat) {b : Nat} (h : b ≠ a) : (s.started a id).arr b = s.arr b :=
  (State.updArr_arr_other _ _ h).trans (State.updArr_arr_other _ _ h)

/-- What a grant leaves: the array runs the offer, its turn has moved, and no other array has changed. -/
structure Granted (s t : State) (a : Nat) (o : Offer) : Prop where
  run : (t.arr a).run = some o.what
  turn : (t.arr a).turn = if o.cls then (s.arr a).turn else (o.pos + 1) % 8
  turn1 : (t.arr a).turn1 = if o.cls then (o.pos + 1) % 8 else (s.arr a).turn1
  job : ∀ id, o.what = .job id → (t.jobEntry a id).state = 2
  others : ∀ b, b ≠ a → t.arr b = s.arr b
  lease : ∀ ep uid u w, o.what = .lease ep uid → s.unitThr ep uid = some u → u.lease = .waiting w →
    ∃ v, t.unitThr ep uid = some v ∧ v.lease = .held ∧ v.regs = u.regs

theorem State.grant_granted (s : State) (a : Nat) (o : Offer) (c1 : Bool) : Granted s (s.grant a o c1) a o := by
  have htaken : (s.taken a o c1).arr a = _ := s.updArr_arr_same a _
  have hother {b : Nat} (hb : b ≠ a) : (s.taken a o c1).arr b = s.arr b := s.updArr_arr_other _ hb
  cases h : o.what with
  | job id =>
    have hgrant (b : Nat) : (s.grant a o c1).arr b = ((s.taken a o c1).started a id).arr b :=
      State.arr_of_arrays (s.grant_job a c1 h).arrays b
    obtain ⟨jobs, hstarted⟩ := (s.taken a o c1).started_arr a id
    have harr := (hgrant a).trans hstarted
    refine ⟨?_, ?_, ?_, fun id' h' => ?_, fun b hb => ?_, fun ep uid u w h' => ?_⟩
    · rw [harr, htaken]
    · rw [harr, htaken]
    · rw [harr, htaken]
    · rw [h] at h'
      cases h'
      unfold State.jobEntry
      rw [harr]
      dsimp only
      rw [nget_nset_same]
    · rw [hgrant, State.started_others _ _ _ hb, hother hb]
    · rw [h] at h'
      cases h'
  | lease ep uid =>
    have hgrant (b : Nat) : (s.grant a o c1).arr b = (s.taken a o c1).arr b :=
      State.arr_of_arrays (s.grant_lease_arrays a c1 h) b
    refine ⟨?_, ?_, ?_, fun id' h' => ?_, fun b hb => ?_, fun ep' uid' u w h' hu hw => ?_⟩
    · rw [hgrant, htaken]
    · rw [hgrant, htaken]
    · rw [hgrant, htaken]
    · rw [h] at h'
      cases h'
    · rw [hgrant, hother hb]
    · exact State.grant_lease_held a c1 h' hu hw

/-! ### Arbitration (R53, R191) -/

/-- The odd array takes its share in a grant where it has done so before, or agrees. -/
theorem State.withMate_some {s : State} {a : Nat} {o : Offer}
    (h : ∀ id, s.pairOffer a o = some id → (s.arr (arrayMate a)).loan = some id ∨ s.agrees (arrayMate a) o.ctx = true) :
    ∃ u, s.withMate a o = some u ∧ u.arr a = s.arr a ∧ u.threads = s.threads ∧
      (∀ id, s.pairOffer a o = some id → (u.arr (arrayMate a)).loan = some id) ∧ (s.pairOffer a o = none → u = s) := by
  unfold State.withMate
  cases hp : s.pairOffer a o with
  | none => exact ⟨s, rfl, rfl, rfl, fun _ h => absurd h (by simp), fun _ => rfl⟩
  | some id =>
    dsimp only
    by_cases hl : (s.arr (arrayMate a)).loan = some id
    · rw [if_pos (beq_iff_eq.mpr hl)]
      exact ⟨s, rfl, rfl, rfl, fun id' h' => by cases h'; exact hl, fun _ => rfl⟩
    · have hagree := (h id hp).resolve_left hl
      rw [if_neg (by rwa [beq_iff_eq]), if_pos hagree]
      have hlend := State.lend_lentTo id (State.agrees_bound hagree)
      exact ⟨_, rfl, hlend.others a (arrayMate_ne_self a).symm, hlend.threads, fun id' h' => by cases h'; exact hlend.loan,
        fun h' => absurd h' (by simp)⟩

theorem State.withMate_none {s : State} {a id : Nat} {o : Offer} (hp : s.pairOffer a o = some id)
    (hl : (s.arr (arrayMate a)).loan ≠ some id) (ha : s.agrees (arrayMate a) o.ctx = false) : s.withMate a o = none := by
  unfold State.withMate
  rw [hp]
  dsimp only
  rw [if_neg (by rwa [beq_iff_eq]), if_neg (by rw [ha]; exact Bool.false_ne_true)]

/-- An offer that is noted changes no choice. -/
theorem State.offering_pairOffer (s : State) (a : Nat) (v : Option Nat) (o : Offer) :
    (s.updArr a fun x => { x with offered := v }).pairOffer a o = s.pairOffer a o := by
  unfold State.pairOffer State.findJob
  rw [State.updArr_arr_same]

theorem State.offering_chooseOffer (s : State) (a : Nat) (v : Option Nat) (os : List Offer) :
    (s.updArr a fun x => { x with offered := v }).chooseOffer a os = s.chooseOffer a os := by
  unfold State.chooseOffer
  rw [State.updArr_arr_same]

/-- An array that is free looks at its first offer. -/
theorem execArrayGrant_offer {s : State} {a c : Nat} {o : Offer} (hh : s.isHeld (arraySrc a) = false)
    (hw : s.wanted a = none) (hb : s.arrBusy a = false) (ht : s.testDue a = false) (hc : s.arrBound a = some c)
    (ho : s.firstOffer a (s.coreOffers a (· == c)) = some o) :
    execArrayGrant a s = .next (s.arbitrate a (s.coreOffers a (· == c)) o) := by
  unfold execArrayGrant
  rw [hw]
  dsimp only
  rw [hh, hb, ht, hc]
  dsimp only
  rw [ho]
  rfl

theorem execArrayGrant_wanted {s : State} {a c id : Nat} (hw : s.wanted a = some (c, id)) :
    execArrayGrant a s = .next (s.lend a c id) := by
  unfold execArrayGrant
  rw [hw]

theorem execArrayCommandComplete_wanted {s : State} {a c id : Nat} (hw : s.wanted a = some (c, id)) :
    execArrayCommandComplete a s = .next (s.lend a c id) := by
  unfold execArrayCommandComplete
  rw [hw]

theorem execArrayBind_offer {s : State} {a : Nat} {o : Offer} (hh : s.isHeld (arraySrc a) = false) (hl : s.lent a = false)
    (hb : s.arrBound a = none) (hw : s.wanted a = none) (ho : s.chooseOffer a (s.coreOffers a fun _ => true) = some o) :
    execArrayBind a s = .next (s.bindArr a o.ctx) := by
  unfold execArrayBind
  rw [hh, hl, hb, hw, ho]
  rfl

/-! ### Leases that time out (R161) -/

theorem State.settleRun_frame (s : State) (a : Nat) :
    (s.settleRun a).threads = s.threads ∧ (s.settleRun a).cores = s.cores ∧ (s.settleRun a).mem = s.mem := by
  unfold State.settleRun
  split <;> exact ⟨rfl, rfl, rfl⟩

section
variable {s : State} {a ep uid : Nat} {u : Thread} (hrun : (s.arr a).run = some (.lease ep uid))
  (hu : s.unitThr ep uid = some u) (hheld : u.lease = .held)
include hrun hu hheld

theorem execLeaseTimeout_held :
    execLeaseTimeout a s = .next (if u.leaseLast + 256 * Config.arithCycle ≤ s.now then
      (s.updUnit ep uid fun t => { t with lease := .off }).settleRun a else s) := by
  unfold execLeaseTimeout
  rw [hrun]
  dsimp only
  rw [hu]
  dsimp only
  rw [hheld]
  simp only [beq_self_eq_true, Bool.true_and, decide_eq_true_eq]

theorem leaseTimeout_ends (hlate : u.leaseLast + 256 * Config.arithCycle ≤ s.now) :
    ∃ t v, exec (.leaseTimeout a) s = .next t ∧ t.unitThr ep uid = some v ∧ v.lease = .off ∧ v.regs = u.regs ∧
      t.mem = s.mem := by
  obtain ⟨ht, hc, hm⟩ := (s.updUnit ep uid fun t => { t with lease := .off }).settleRun_frame a
  refine ⟨_, { u with lease := .off }, (execLeaseTimeout_held hrun hu hheld).trans (congrArg _ (if_pos hlate)), ?_, rfl, rfl,
    hm.trans (State.updUnit_mem _ _ _ _)⟩
  rw [State.unitThr_congr ht hc, State.updUnit_unitThr, hu]
  · rfl
  · exact fun _ => ⟨rfl, rfl⟩

end

/-! ### Gates (R189, R190) -/

/-- A job that leaves its arrays changes what the arrays run alone; its partner's loan to it ends. -/
theorem State.leaveArrays_cases (s : State) (a id : Nat) :
    { s.leaveArrays a id with arrays := s.arrays } = s ∧
      (s.leaveArrays a id).arr a =
        { s.arr a with run := if (s.arr a).run == some (.job id) then none else (s.arr a).run } ∧
      (a % 2 = 0 → ((s.leaveArrays a id).arr (arrayMate a)).loan ≠ some id) := by
  have hne := arrayMate_ne_self a
  unfold State.leaveArrays
  dsimp only
  generalize hu : s.updArr a _ = u
  have hframe : { u with arrays := s.arrays } = s := by rw [← hu]; rfl
  have harr : u.arr a = { s.arr a with run := if (s.arr a).run == some (.job id) then none else (s.arr a).run } := by
    rw [← hu, State.updArr_arr_same]
  split
  · refine ⟨hframe, (State.updArr_arr_other _ _ hne.symm).trans harr, fun _ => ?_⟩
    rw [State.updArr_arr_same]
    exact (Option.some_ne_none id).symm
  · next h =>
    refine ⟨hframe, harr, fun heven hl => h ?_⟩
    rw [Bool.and_eq_true, beq_iff_eq, beq_iff_eq]
    exact ⟨heven, hl⟩

theorem State.updJob_arr (s : State) (a id : Nat) (f : Job → Job) :
    (s.updJob a id f).arr a = { s.arr a with jobs := mapIf (·.id == id) f (s.arr a).jobs } := State.updArr_arr_same _ _ _

section
variable {s : State} {a id : Nat} {j : Job} (hj : s.findJob a id = some j)
include hj

/-- A running job whose gate has stayed closed suspends and leaves its arrays. -/
theorem execGateTimeout_suspends {h : Nat} (hrun : (s.arr a).run = some (.job id)) (hg : s.atGate a j = some (h, false))
    (hlate : (s.arr a).chunkAt + 1024 * Config.arithCycle ≤ s.now) :
    execGateTimeout a s = .next ((s.updJob a id fun j => { j with susp := .gate }).leaveArrays a id) := by
  unfold execGateTimeout
  rw [hrun]
  dsimp only
  rw [hj]
  dsimp only
  rw [hg]
  dsimp only
  rw [if_pos hlate]

theorem gateTimeout_suspends {h : Nat} (hrun : (s.arr a).run = some (.job id)) (hg : s.atGate a j = some (h, false))
    (hlate : (s.arr a).chunkAt + 1024 * Config.arithCycle ≤ s.now) :
    ∃ t, exec (.gateTimeout a) s = .next t ∧ (t.arr a).run = none ∧
      (t.arr a).jobs = mapIf (·.id == id) (fun j => { j with susp := .gate }) (s.arr a).jobs ∧
      { t with arrays := s.arrays } = s ∧ (a % 2 = 0 → (t.arr (arrayMate a)).loan ≠ some id) := by
  obtain ⟨hframe, harr, hmate⟩ := (s.updJob a id fun j => { j with susp := .gate }).leaveArrays_cases a id
  rw [State.updJob_arr] at harr
  refine ⟨_, execGateTimeout_suspends hj hrun hg hlate, ?_, ?_, ?_, hmate⟩
  · rw [harr]
    dsimp only
    rw [hrun, if_pos (by rw [beq_iff_eq])]
  · rw [harr]
  · have hall := congrArg (fun t : State => { t with arrays := s.arrays }) hframe
    exact hall

theorem gateOpen_resumes {h : Nat} (hs : j.susp = .gate) (hg : s.atGate a j = some (h, true))
    (hok : (s.jobEntry a id).state ≠ 3 ∨ (s.handle (gateKeyOf j h)).faulted = false) :
    ∃ t, exec (.gateOpen a id) s = .next t ∧ { t with arrays := s.arrays } = s ∧
      (t.arr a).jobs = mapIf (·.id == id) (fun j => { j with susp := .no }) (s.arr a).jobs := by
  have hcond : ((s.jobEntry a id).state == 3 && (s.handle (gateKeyOf j h)).faulted) = false := by
    obtain hstate | hfault := hok
    · rw [beq_eq_false_iff_ne.mpr hstate, Bool.false_and]
    · rw [hfault, Bool.and_false]
  refine ⟨s.updJob a id fun j => { j with susp := .no }, ?_, rfl, congrArg Arr.jobs (s.updJob_arr a id _)⟩
  change execGateOpen a id s = _
  unfold execGateOpen
  rw [hj]
  dsimp only
  rw [hs, hg]
  dsimp only
  rw [hcond]
  rfl

/-- A job that stops is suspended at its gate, its entry says so, and it leaves its arrays where it ran. -/
def State.stopped (s : State) (a id : Nat) : State :=
  let u := (s.updEntry a id fun e => { e with state := 3 }).updJob a id fun j => { j with susp := .gate }
  if (s.arr a).run == some (.job id) then u.leaveArrays a id else u

omit hj in
theorem State.stopped_kept (s : State) (a id : Nat) :
    ((s.stopped a id).jobEntry a id).state = 3 ∧ ((s.stopped a id).arr a).run ≠ some (.job id) ∧
      (s.stopped a id).threads = s.threads := by
  unfold State.stopped
  dsimp only
  generalize hu : State.updJob _ a id _ = u
  have harr : u.arr a = { s.arr a with
      table := nset (s.arr a).table id { s.jobEntry a id with state := 3 }
      jobs := mapIf (·.id == id) (fun j => { j with susp := .gate }) (s.arr a).jobs } := by
    rw [← hu, State.updJob_arr]
    unfold State.updEntry
    rw [State.updArr_arr_same]
    rfl
  have hthreads : u.threads = s.threads := by rw [← hu]; rfl
  split
  · next h =>
    obtain ⟨hframe, hleft, -⟩ := u.leaveArrays_cases a id
    rw [harr] at hleft
    refine ⟨?_, ?_, ?_⟩
    · unfold State.jobEntry
      rw [hleft]
      dsimp only
      rw [nget_nset_same]
    · rw [hleft]
      dsimp only
      rw [if_pos h]
      exact (Option.some_ne_none _).symm
    · have hsame := congrArg State.threads hframe
      exact hsame.trans hthreads
  · next h =>
    refine ⟨?_, ?_, hthreads⟩
    · unfold State.jobEntry
      rw [harr]
      dsimp only
      rw [nget_nset_same]
    · rw [harr]
      rwa [beq_iff_eq] at h

theorem jobStopped_stops {h : Nat} (hh : s.isHeld (arraySrc a) = false)
    (hs : j.susp = .gate ∨ (s.arr a).run = some (.job id)) (hg : s.atGate a j = some (h, false))
    (hstate : (s.jobEntry a id).state = 2) (hf : (s.handle (gateKeyOf j h)).faulted = true) :
    ∃ t, exec (.jobStopped a id) s = .next t ∧ (t.jobEntry a id).state = 3 ∧ (t.arr a).run ≠ some (.job id) ∧
      t.threads = s.threads := by
  have hcond : (s.isHeld (arraySrc a) || (!((s.arr a).run == some (.job id)) && j.susp != .gate) ||
      (s.jobEntry a id).state != 2 || !(s.handle (gateKeyOf j h)).faulted) = false := by
    rw [hh, hstate, hf]
    obtain hs | hs := hs
    · rw [hs]
      simp
    · rw [hs]
      simp
  obtain ⟨hentry, hrun, hthreads⟩ := s.stopped_kept a id
  have hreports (code payload cause g2 g3 g4 : Nat) : ReportsOnly (s.stopped a id)
      (((s.stopped a id).emit (arraySrc a) (arrayDie a) j.ctx code payload).arrayFault a cause j.ctx j.ep j.launch g2 g3 g4) :=
    (State.emit_traceOnly _ _ _ _ _ _).reports.trans (State.faultMsg_reportsOnly _ _ _ _ _ _)
  suffices hexec : ∃ t, execJobStopped a id s = .next t ∧ ReportsOnly (s.stopped a id) t by
    obtain ⟨t, ht, hr⟩ := hexec
    have harr := State.arr_of_arrays hr.arrays a
    refine ⟨t, ht, ?_, ?_, hr.threads.trans hthreads⟩
    · rw [State.jobEntry_of_arr harr]; exact hentry
    · rw [harr]; exact hrun
  refine ⟨_, ?_, hreports 0x0C2 (id + ((s.stopped a id).jobEntry a id).chunk % 2 ^ 14 * 256) 0x22 id
    ((s.stopped a id).jobEntry a id).word.toNat h⟩
  unfold execJobStopped
  rw [hj]
  dsimp only
  rw [hg]
  dsimp only
  rw [hcond]
  rfl

end

/-- Settles O44: what binds, grants, times out or stops changes its own array, the partner that it is fused with, and the
unit that it serves. -/
theorem arrayGrants : Obligations.ArrayGrants := by
  unfold Obligations.ArrayGrants
  intro s a hh
  dsimp only
  refine ⟨fun o hl hb hw ho => ?_, fun c id hw => ?_, fun c o hw hb ht hc ho => ⟨fun hmate => ?_, fun id hp hl ha hnone => ?_⟩,
    fun ep uid u hrun hu hheld => ⟨fun hlate => leaseTimeout_ends hrun hu hheld hlate, fun hearly => ?_⟩,
    fun id j h hrun hj hg hlate => gateTimeout_suspends hj hrun hg hlate,
    fun id j h hj hs hg hok => gateOpen_resumes hj hs hg hok,
    fun id j h hj hs hg hstate hf => jobStopped_stops hj hh hs hg hstate hf⟩
  · have hbound := s.bindArr_boundTo a o.ctx
    refine ⟨_, execArrayBind_offer hh hl hb hw ho, hbound.ctx, hbound.bound, hbound.threads, fun hne => ?_, fun heq => ?_,
      fun heq => ?_, fun hne hwf => State.bindArr_entries hne hwf⟩
    · obtain ⟨hpart, hmem, -⟩ := State.bindArr_zeroes hne
      rw [hmem]
      exact ⟨hpart, fun b hb => s.mem.zeroStores_plane a hb, fun b hb => s.mem.zeroStores_acc a hb⟩
    · exact (State.bindArr_keeps heq).1
    · exact (State.bindArr_keeps heq).2
  · have hlend := State.lend_lentTo id (State.agrees_bound (State.wanted_agrees hw))
    exact ⟨⟨_, execArrayGrant_wanted hw, hlend.loan, hlend.ctx, hlend.run, hlend.threads⟩,
      ⟨_, execArrayCommandComplete_wanted hw, hlend.loan, hlend.ctx⟩⟩
  · obtain ⟨u, hu, harr, hthreads, hloan, hsame⟩ := State.withMate_some hmate
    have hgrant := u.grant_granted a o ((s.coreOffers a (· == c)).any (·.cls))
    refine ⟨_, (execArrayGrant_offer hh hw hb ht hc ho).trans ?_, hgrant.run, ?_, ?_, hgrant.job, fun id hp => ?_,
      fun ep uid v w hwhat hv hwait => ?_⟩
    · unfold State.arbitrate
      dsimp only
      rw [hu]
    · rw [hgrant.turn, harr]
    · rw [hgrant.turn1, harr]
    · rw [hgrant.others _ (arrayMate_ne_self a)]
      exact hloan id hp
    · have hnone : s.pairOffer a o = none := by
        unfold State.pairOffer
        rw [hwhat]
      rw [hsame hnone] at hgrant ⊢
      exact hgrant.lease ep uid v w hwhat hv hwait
  · refine ⟨s.updArr a fun x => { x with offered := some id }, (execArrayGrant_offer hh hw hb ht hc ho).trans ?_, rfl,
      s.updArr_arr_same a _, s.updArr_arr_other _ (arrayMate_ne_self a)⟩
    unfold State.arbitrate
    dsimp only
    rw [State.withMate_none hp hl ha, hp]
    dsimp only
    simp only [State.offering_pairOffer, State.offering_chooseOffer, hnone]
  · refine (execLeaseTimeout_held hrun hu hheld).trans (congrArg _ (if_neg ?_))
    omega

end Sys2Proof.Machine
end

section
/-!
SUPPORT. Scalar floating point (R116, R117, R132-R134): what a late result leaves alone, the codes that stand for a value,
and the value that an operand of each special case reads as.
-/
namespace Sys2Proof.Machine

/-! ### Results of more than one cycle (R117, R122) -/

/-- The generator and the list of unfinished results pass through the end of an instruction unread. -/
theorem Thread.result_advance_late (t : Thread) (g : W32) (ls : List Late) (d : Dst) (v : Word) (len : Nat) :
    (({ t with regs := { t.regs with rng := g }, late := ls } : Thread).result d v).advance len =
      { (t.result d v).advance len with regs := { ((t.result d v).advance len).regs with rng := g }, late := ls } := by
  cases d <;> cases h : t.rep with
  | none => simp only [Thread.advance, Thread.result_rep, h]; rfl
  | some r =>
    simp only [Thread.advance, Thread.result_rep, h]
    split
    · rfl
    · split <;> rfl

/-- A late result differs from one of a single cycle in the generator and the unfinished results alone. -/
theorem State.finishLate_me (s : State) (i : Instr) (d : Dst) (a b c : Word) :
    ∃ ls, (s.finishLate i d a b c).me =
      { (s.finish d (lateValue i a b c s.me.regs.rng) 8).me with
        regs := { (s.finish d (lateValue i a b c s.me.regs.rng) 8).me.regs with rng := rngAfter (lateRnd i) s.me.regs.rng }
        late := ls } := by
  unfold State.finishLate State.finish
  rw [State.upd_me, State.upd_me]
  exact ⟨_, Thread.result_advance_late _ _ _ _ _ _⟩

/-- A late result is pushed as one of a single cycle is. -/
theorem State.finishLate_result (s : State) (i : Instr) (d : Dst) (a b c : Word) :
    Result s (s.finishLate i d a b c) d (lateValue i a b c s.me.regs.rng) 8 := by
  obtain ⟨ls, hme⟩ := s.finishLate_me i d a b c
  obtain ⟨⟨hw, hk⟩, hover, ⟨hregs, hrest⟩, -⟩ := s.finish_result d (lateValue i a b c s.me.regs.rng) 8
  refine ⟨⟨?_, ?_⟩, ?_, ⟨?_, ?_⟩, s.upd_onlyMe _⟩
  · rw [hme]; exact hw
  · rw [hme]; exact hk
  · unfold Over; rw [hme]; exact hover
  · rw [hme]; exact hregs
  · rw [hme]; exact hrest

theorem State.finishLate_rng (s : State) (i : Instr) (d : Dst) (a b c : Word) :
    (s.finishLate i d a b c).me.regs.rng = rngAfter (lateRnd i) s.me.regs.rng := by
  obtain ⟨ls, hme⟩ := s.finishLate_me i d a b c
  rw [hme]

/-! ### The generator (R116) -/

theorem stepRng_eq_rngStep (x : W32) : stepRng x = rngStep x := by
  have hleft (y : W32) (n : Nat) : y <<< n = y * BitVec.ofNat 32 (2 ^ n) := by
    rw [BitVec.shiftLeft_eq_mul_twoPow]
    congr 1
    exact BitVec.eq_of_toNat_eq (by rw [BitVec.toNat_twoPow, BitVec.toNat_ofNat])
  have hright (y : W32) (n : Nat) : y >>> n = BitVec.ofNat 32 (y.toNat / 2 ^ n) := by
    rw [← Nat.shiftRight_eq_div_pow, ← BitVec.toNat_ushiftRight, BitVec.ofNat_toNat, BitVec.setWidth_eq]
  unfold stepRng rngStep
  dsimp only
  rw [hleft, hright, hleft]

theorem rngDraw_eq (g : W32) : rngDraw g = (rngStep g).toNat / 256 := by
  rw [rngDraw, stepRng_eq_rngStep]

theorem rngAfter_eq (rm : Rnd) (g : W32) : rngAfter rm g = if some rm = some .rsr then rngStep g else g := by
  cases rm with
  | rsr => exact stepRng_eq_rngStep g
  | rne | rtz | rup | rdn | rna => rfl

/-! ### Codes and the values that they stand for (R101, R103) -/

/-- The format of a scalar floating-point type. -/
def fpFmt : FTy → FloatFmt
  | .bf16 => fmtBf16
  | .f32 => fmtF32

/-- Code `c` of a format with infinities stands for `x`, read with or without `.ftz`: a zero may have any exponent, and any
other value has that of its binade. -/
def FloatFmt.Codes (f : FloatFmt) (c : Nat) : XVal → Prop
  | .nan => True
  | .inf s => c = signCode f.bits s + (f.maxCode + 1)
  | .fin s m e _ => ∃ k : Nat, c = signCode f.bits s + (k * 2 ^ (f.p - 1) + m) ∧ m < 2 * 2 ^ (f.p - 1) ∧
      (k ≠ 0 → 2 ^ (f.p - 1) ≤ m) ∧ (m ≠ 0 → e = f.emin - (f.p - 1 : Nat) + k)

theorem FloatFmt.codes_zero (f : FloatFmt) (s : Bool) (e : Int) : f.Codes (signCode f.bits s) (.fin s 0 e false) :=
  ⟨0, by rw [Nat.zero_mul]; rfl, Nat.mul_pos Nat.two_pos (Nat.two_pow_pos _), fun h => absurd rfl h, fun h => absurd rfl h⟩

/-- A magnitude is its exponent field above the lowest binade, and its significand. -/
theorem FloatFmt.codes_finite (f : FloatFmt) (s : Bool) (c : Nat) : f.Codes (signCode f.bits s + c) (f.finite s c) := by
  have hdiv := Nat.div_add_mod c (2 ^ (f.p - 1))
  have hmod := Nat.mod_lt c (Nat.two_pow_pos (f.p - 1))
  unfold FloatFmt.finite
  dsimp only
  split
  · next h =>
    rw [beq_iff_eq] at h
    rw [h, Nat.mul_zero, Nat.zero_add] at hdiv
    exact ⟨0, by rw [hdiv, Nat.zero_mul, Nat.zero_add], by omega, fun h => absurd rfl h, fun _ => by simp⟩
  · next h =>
    rw [beq_iff_eq] at h
    obtain ⟨k, hk⟩ := Nat.exists_eq_succ_of_ne_zero h
    rw [hk, Nat.mul_succ, Nat.mul_comm] at hdiv
    refine ⟨k, by omega, by omega, fun _ => by omega, fun _ => by rw [hk]; rfl⟩

theorem FloatFmt.codes_ieee (f : FloatFmt) (hb : f.bits ≠ 0) {c : Nat} (hc : c < 2 ^ f.bits) : f.Codes c (f.ieee c) := by
  have hpow : 2 ^ f.bits = 2 * 2 ^ (f.bits - 1) := by rw [← Nat.pow_succ', Nat.succ_eq_add_one]; congr 1; omega
  have hlt : c / 2 ^ (f.bits - 1) < 2 := Nat.div_lt_of_lt_mul (by omega)
  have hsign : c = signCode f.bits (c / 2 ^ (f.bits - 1) % 2 == 1) + c % 2 ^ (f.bits - 1) := by
    have hdiv := Nat.div_add_mod c (2 ^ (f.bits - 1))
    generalize c / 2 ^ (f.bits - 1) = q at hdiv hlt ⊢
    obtain rfl | rfl : q = 0 ∨ q = 1 := by omega
    · rw [Nat.mul_zero] at hdiv
      exact hdiv.symm
    · rw [Nat.mul_one] at hdiv
      exact hdiv.symm
  unfold FloatFmt.ieee
  dsimp only
  split
  · have h := f.codes_finite (c / 2 ^ (f.bits - 1) % 2 == 1) (c % 2 ^ (f.bits - 1))
    rwa [← hsign] at h
  · split
    · next h =>
      rw [beq_iff_eq] at h
      exact hsign.trans (by rw [h])
    · trivial

/-- Of two equal magnitudes the one of the lower binade would not fit its significand. -/
theorem binade_le_of_eq {p m n k l : Nat} (hm : m < 2 * p) (hn : l ≠ 0 → p ≤ n) (h : m * 2 ^ k = n * 2 ^ l) : l ≤ k := by
  refine Decidable.byContradiction fun hlt => ?_
  obtain ⟨j, rfl⟩ := Nat.exists_eq_add_of_lt (Nat.lt_of_not_le hlt)
  have hmn : m = n * 2 ^ (j + 1) := by
    apply Nat.eq_of_mul_eq_mul_right (Nat.two_pow_pos k)
    rw [h, Nat.mul_assoc, ← Nat.pow_add]
    congr 2
    omega
  have h2 : n * 2 ≤ m := by
    rw [hmn]
    exact Nat.mul_le_mul_left n (Nat.le_self_pow (Nat.succ_ne_zero j) 2)
  have := hn (by omega)
  omega

/-- Equal numerators of one sign have equal magnitudes. -/
theorem XVal.scaled_injective {s : Bool} {m n : Nat} {e f e0 : Int} (h : scaled s m e e0 = scaled s n f e0) :
    m * 2 ^ (e - e0).toNat = n * 2 ^ (f - e0).toNat := by
  cases s with
  | false => exact Int.ofNat_inj.mp h
  | true => exact Int.ofNat_inj.mp (Int.neg_inj.mp h)

/-- Two finite values of one sign that compare equal have the same numerator over the lesser exponent. -/
theorem XVal.cmp_fin_eq {s a b : Bool} {m n : Nat} {e f : Int} (h : (XVal.fin s m e a).cmp (.fin s n f b) = 0) :
    m * 2 ^ (e - min e f).toNat = n * 2 ^ (f - min e f).toNat := by
  unfold cmp at h
  dsimp only at h
  rw [← Int.min_def] at h
  apply scaled_injective (s := s)
  refine Decidable.byContradiction fun hne => ?_
  rw [← beq_iff_eq] at hne
  rw [if_neg hne] at h
  split at h <;> cases h

theorem FloatFmt.Codes.fin_unique {f : FloatFmt} {s a b : Bool} {m n c d : Nat} {e g : Int} (hx : f.Codes c (.fin s m e a))
    (hy : f.Codes d (.fin s n g b)) (h : (XVal.fin s m e a).cmp (.fin s n g b) = 0) : c = d := by
  obtain ⟨k, rfl, hm, hkm, hek⟩ := hx
  obtain ⟨l, rfl, hn, hln, hel⟩ := hy
  have heq := XVal.cmp_fin_eq h
  by_cases hmn : m = 0 ∨ n = 0
  · obtain ⟨rfl, rfl⟩ : m = 0 ∧ n = 0 := by
      obtain rfl | rfl := hmn
      · rw [Nat.zero_mul, eq_comm, Nat.mul_eq_zero, or_iff_left (Nat.ne_of_gt (Nat.two_pow_pos _))] at heq
        exact ⟨rfl, heq⟩
      · rw [Nat.zero_mul, Nat.mul_eq_zero, or_iff_left (Nat.ne_of_gt (Nat.two_pow_pos _))] at heq
        exact ⟨heq, rfl⟩
    have hpos := Nat.two_pow_pos (f.p - 1)
    obtain rfl : k = 0 := Decidable.byContradiction fun h => absurd (hkm h) (by omega)
    obtain rfl : l = 0 := Decidable.byContradiction fun h => absurd (hln h) (by omega)
    rfl
  · obtain ⟨hm0, hn0⟩ := not_or.mp hmn
    have hk : (e - min e g).toNat = k - min k l := by have := hek hm0; have := hel hn0; omega
    have hl : (g - min e g).toNat = l - min k l := by have := hek hm0; have := hel hn0; omega
    rw [hk, hl] at heq
    have hlk := binade_le_of_eq hm (fun h => hln (by omega)) heq
    have hkl := binade_le_of_eq hn (fun h => hkm (by omega)) heq.symm
    obtain rfl : k = l := by omega
    rw [Nat.eq_of_mul_eq_mul_right (Nat.two_pow_pos _) heq]

/-- Two codes of one sign that compare equal are one code, so which of them FMIN or FMAX pushes does not show. -/
theorem FloatFmt.Codes.unique {f : FloatFmt} {c d : Nat} {x y : XVal} (hx : f.Codes c x) (hy : f.Codes d y)
    (hnx : x.isNan = false) (hny : y.isNan = false) (h : x.cmp y = 0) (hs : x.sign = y.sign) : c = d := by
  cases x with
  | nan => cases hnx
  | inf s =>
    cases y with
    | nan => cases hny
    | inf u => obtain rfl : s = u := hs; exact hx.trans hy.symm
    | fin u n e b => cases s <;> cases h
  | fin s m e a =>
    cases y with
    | nan => cases hny
    | inf u => cases u <;> cases h
    | fin u n g b => obtain rfl : s = u := hs; exact hx.fin_unique hy h

/-- The code that a source holds after `.ftz` stands for its value after `.ftz`. -/
theorem codes_ftzCode (z : Bool) (t : FTy) (a : Nat) : (fpFmt t).Codes (ftzCode z (fElem t) a) (fpIn z (fElem t) a) := by
  have hcode : (fpFmt t).Codes (a % 2 ^ elemBits (fElem t)) (decodeElem (fElem t) (a % 2 ^ elemBits (fElem t))) := by
    cases t <;> exact FloatFmt.codes_ieee _ (by decide) (Nat.mod_lt _ (by decide))
  unfold ftzCode fpIn ftzIn
  dsimp only
  split
  · have hz := (fpFmt t).codes_zero (decodeElem (fElem t) (a % 2 ^ elemBits (fElem t))).sign 0
    cases t <;> exact hz
  · exact hcode

/-! ### The choices of R133 -/

theorem ftzCode_mod (z : Bool) (t : ElemTy) (c : Nat) : ftzCode z t (c % 2 ^ elemBits t) = ftzCode z t c := by
  unfold ftzCode
  rw [Nat.mod_mod]

/-- A choice by the order, -0 below +0, is the choice of minimumNumber and maximumNumber as long as two values that do not
differ in either have one code. -/
theorem pickFirst_eq {wantMax : Bool} {x y : XVal} {c d : Nat} (h : x.cmp y = 0 → x.sign = y.sign → c = d) :
    (if pickFirst wantMax x y then c else d) =
      if wantMax then (if 0 < x.cmp y || (x.cmp y == 0 && !x.sign && y.sign) then c else d)
      else (if x.cmp y < 0 || (x.cmp y == 0 && x.sign && !y.sign) then c else d) := by
  unfold pickFirst
  dsimp only
  by_cases hc : x.cmp y = 0
  · by_cases hs : x.sign = y.sign
    · rw [h hc hs]
      simp only [ite_self]
    · rw [hc, Bool.eq_not_of_ne hs]
      cases wantMax <;> cases y.sign <;> rfl
  · cases wantMax <;> simp [hc]

/-- The table's choice is the one that FMIN and FMAX make. -/
theorem floatTable_pick (s : State) (wantMax : Bool) (t : FTy) (z : Bool) (o : Op2) :
    floatTable.pick s wantMax t z o =
      some (o.dst, fpWord (fpMinMax wantMax z (fElem t) (s.fp (fElem t) o.imm o.a).toNat (s.fp (fElem t) o.imm o.b).toNat),
        none) := by
  unfold floatTable.pick floatTable.held fpMinMax minMaxCode fpWord
  dsimp only
  rw [ftzCode_mod, ftzCode_mod]
  generalize hx : fpIn z (fElem t) (s.fp (fElem t) o.imm o.a).toNat = x
  generalize hy : fpIn z (fElem t) (s.fp (fElem t) o.imm o.b).toNat = y
  have hcx := codes_ftzCode z t (s.fp (fElem t) o.imm o.a).toNat
  have hcy := codes_ftzCode z t (s.fp (fElem t) o.imm o.b).toNat
  rw [hx] at hcx
  rw [hy] at hcy
  cases hnx : x.isNan <;> cases hny : y.isNan
  · rw [if_neg Bool.false_ne_true, if_neg Bool.false_ne_true, pickFirst_eq (hcx.unique hcy hnx hny)]
    rfl
  all_goals rfl

theorem ftzCode_lt (z : Bool) (t : FTy) (c : Nat) : ftzCode z (fElem t) c < 2 ^ elemBits (fElem t) := by
  have hmod : c % 2 ^ elemBits (fElem t) < 2 ^ elemBits (fElem t) := Nat.mod_lt _ (Nat.two_pow_pos _)
  have hsign (s : Bool) : signCode (elemBits (fElem t)) s < 2 ^ elemBits (fElem t) := by cases t <;> cases s <;> decide
  unfold ftzCode
  dsimp only
  split
  · exact hsign _
  · exact hmod

/-- FNEG inverts the sign bit. -/
theorem fpNeg_eq (z : Bool) (t : FTy) (a : Nat) :
    fpNeg z (fElem t) a =
      if ftzCode z (fElem t) a < 2 ^ (elemBits (fElem t) - 1) then ftzCode z (fElem t) a + 2 ^ (elemBits (fElem t) - 1)
      else ftzCode z (fElem t) a - 2 ^ (elemBits (fElem t) - 1) := by
  have hlt := ftzCode_lt z t a
  unfold fpNeg
  generalize ftzCode z (fElem t) a = c at hlt ⊢
  have hpow : 2 ^ elemBits (fElem t) = 2 * 2 ^ (elemBits (fElem t) - 1) := by cases t <;> rfl
  rw [hpow] at hlt ⊢
  split
  · exact Nat.mod_eq_of_lt (by omega)
  · rw [Nat.mod_eq_sub_mod (by omega), Nat.mod_eq_of_lt (by omega)]
    omega

/-! ### The instructions -/

theorem floatTable_rounded (s : State) (t : FTy) (rm : Rnd) (z : Bool) (x : XVal) :
    floatTable.rounded s t rm z x = fpOut z (fElem t) rm s.me.regs.rng x := by
  rw [fpOut, rngDraw_eq]; rfl

/-- What R132-R134 ask of an instruction: it completes, pushes `v` rounded in mode `rm`, and steps the generator under
`.rsr` alone. -/
def Computes (s : State) (out : Out) (d : Dst) (v : Word) (rm : Option Rnd) : Prop :=
  ∃ t, out = .next t ∧ Result s t d v 8 ∧
    t.me.regs.rng = if rm = some .rsr then rngStep s.me.regs.rng else s.me.regs.rng

section
variable {s : State} {d : Dst} {v : Word} {r : Option Rnd} {rm : Rnd} {z : Bool} {i : Instr}

theorem finish_computes (s : State) (d : Dst) (v : Word) : Computes s (.next (s.finish d v 8)) d v none :=
  ⟨_, rfl, s.finish_result d v 8, s.finish_rng d v 8⟩

theorem finishLate_computes (s : State) (i : Instr) (d : Dst) (a b c : Word) :
    Computes s (.next (s.finishLate i d a b c)) d (lateValue i a b c s.me.regs.rng) (some (lateRnd i)) :=
  ⟨_, rfl, s.finishLate_result i d a b c, (s.finishLate_rng i d a b c).trans (rngAfter_eq _ _)⟩

/-- An instruction of two sources that rounds `f` of them once. -/
theorem fpLate2_computes {t : FTy} {o : Op2} {f : XVal → XVal → XVal} (h : floatTable.two s t rm z o f = some (d, v, r))
    (hm : lateRnd i = rm)
    (hv : ∀ a b g, lateValue i a b s.w0 g = fpOut z (fElem t) rm g (f (fpIn z (fElem t) a.toNat) (fpIn z (fElem t) b.toNat))) :
    Computes s (.next (s.fpLate2 i (fElem t) o)) d v r := by
  unfold floatTable.two at h
  rw [floatTable_rounded, ← hv, ← hm] at h
  cases h
  exact finishLate_computes s i o.dst _ _ _

/-- An .f32 instruction of one source that rounds `f` of it once. -/
theorem fpLate1_computes {o : Op1} {f : XVal → XVal} (h : floatTable.one s rm z o f = some (d, v, r))
    (hm : lateRnd i = rm) (hv : ∀ a c g, lateValue i a 0 c g = fpOut z .f32 rm g (f (fpIn z .f32 a.toNat))) :
    Computes s (.next (s.fpLate1 i o)) d v r := by
  unfold floatTable.one at h
  rw [floatTable_rounded] at h
  change some (o.dst, fpOut z .f32 rm s.me.regs.rng _, some rm) = _ at h
  rw [← hv _ s.w0, ← hm] at h
  cases h
  exact finishLate_computes s i o.dst _ _ _

/-- FMIN and FMAX (R133). -/
theorem fpMm_computes {wantMax : Bool} {t : FTy} {o : Op2} (h : floatTable.pick s wantMax t z o = some (d, v, r)) :
    Computes s (.next (s.fpMm wantMax t z o)) d v r := by
  rw [floatTable_pick] at h
  cases h
  exact finish_computes s o.dst _

end

/-- FCMP pushes the truth value of its relation (R133). -/
theorem execFcmp_computes (s : State) (t : FTy) (rel : Rel) (z : Bool) (o : Op2) {d : Dst} {v : Word} {r : Option Rnd}
    (h : floatTable s (.fcmp t rel z o) = some (d, v, r)) : Computes s (execFcmp t rel z o s) d v r := by
  cases rel <;> cases h <;> exact finish_computes s o.dst _

/-- Each instruction of the table does what its row says; the cases stand in the order of the table. -/
theorem floatTable_computes {s : State} {i : Instr} {d : Dst} {v : Word} {r : Option Rnd}
    (h : floatTable s i = some (d, v, r)) : Computes s (exec i s) d v r := by
  unfold floatTable at h
  split at h
  next t rm z o => exact fpLate2_computes h rfl fun _ _ _ => rfl
  next t rm z o => exact fpLate2_computes h rfl fun _ _ _ => rfl
  next t rm z o => exact fpLate2_computes h rfl fun _ _ _ => rfl
  next t rm z o => exact fpLate2_computes h rfl fun _ _ _ => rfl
  next rm z o => exact fpLate2_computes (t := .f32) h rfl fun _ _ _ => rfl
  next rm z o => exact fpLate1_computes h rfl fun _ _ _ => rfl
  next rm z o => exact fpLate1_computes h rfl fun _ _ _ => rfl
  next rm z o => exact fpLate1_computes h rfl fun _ _ _ => rfl
  next rm z o => exact fpLate1_computes h rfl fun _ _ _ => rfl
  next t z o => exact fpMm_computes h
  next t z o => exact fpMm_computes h
  next t z o =>
    cases h
    exact finish_computes s o.dst _
  next t z o =>
    unfold floatTable.held at h
    dsimp only at h
    rw [← fpNeg_eq] at h
    cases h
    exact finish_computes s o.dst _
  next t rel z o => exact execFcmp_computes s t rel z o h
  next =>
    dsimp only at h
    rw [← rngDraw_eq] at h
    cases h
    exact finishLate_computes s _ _ _ _ _
  next => cases h

/-! ### The special cases of R132 -/

section
variable (z s : Bool) (rm : Rnd) (g : W32)

theorem fpOut_nan : fpOut z .f32 rm g .nan = 0x7FC00000 := by
  cases z <;> rfl

theorem fpOut_inf : fpOut z .f32 rm g (.inf s) = BitVec.ofNat 64 (signCode 32 s + 0x7F800000) := by
  cases z <;> cases s <;> rfl

theorem fpOut_zero (e : Int) : fpOut z .f32 rm g (.fin s 0 e false) = BitVec.ofNat 64 (signCode 32 s) := by
  cases z <;> cases s <;> rfl

theorem fpIn_inf : fpIn z .f32 (BitVec.ofNat 64 (signCode 32 s + 0x7F800000)).toNat = .inf s := by
  cases z <;> cases s <;> rfl

theorem fpIn_zero : fpIn z .f32 (BitVec.ofNat 64 (signCode 32 s)).toNat = .fin s 0 (-149) false := by
  cases z <;> cases s <;> rfl

end

theorem FloatFmt.finite_fin (f : FloatFmt) (s : Bool) (c : Nat) : ∃ m e, f.finite s c = .fin s m e false := by
  unfold FloatFmt.finite
  dsimp only
  split <;> exact ⟨_, _, rfl⟩

theorem FloatFmt.ieee_finite {f : FloatFmt} {x : Nat} (s : Bool) (hx : x ≤ f.maxCode) (hmax : f.maxCode < 2 ^ (f.bits - 1)) :
    f.ieee (signCode f.bits s + x) = f.finite s x := by
  have hpos := Nat.two_pow_pos (f.bits - 1)
  have hlow : (signCode f.bits s + x) % 2 ^ (f.bits - 1) = x := by
    cases s with
    | false => simp only [signCode, Bool.false_eq_true, if_false, Nat.zero_add]; exact Nat.mod_eq_of_lt (by omega)
    | true => simp only [signCode, if_true, Nat.add_mod_left]; exact Nat.mod_eq_of_lt (by omega)
  have hsign : ((signCode f.bits s + x) / 2 ^ (f.bits - 1) % 2 == 1) = s := by
    have hdiv : x / 2 ^ (f.bits - 1) = 0 := Nat.div_eq_of_lt (by omega)
    cases s
    · simp [signCode, hdiv]
    · simp [signCode, Nat.add_div_left _ hpos, hdiv]
  unfold FloatFmt.ieee
  dsimp only
  rw [hlow, hsign, if_pos hx]

/-- A finite magnitude of .f32 that is not zero has a significand, and one above the subnormals is normal. -/
theorem finite_f32 {x : Nat} (s : Bool) (hx : x ≠ 0) : ∃ m e, fmtF32.finite s x = .fin s m e false ∧ m ≠ 0 ∧
    (0x00800000 ≤ x → (XVal.fin s m e false).tiny = false) := by
  obtain ⟨m, e, hfin⟩ := fmtF32.finite_fin s x
  obtain ⟨k, hk, -, hkm, hme⟩ : fmtF32.Codes (signCode 32 s + x) (.fin s m e false) := hfin ▸ fmtF32.codes_finite s x
  replace hk : x = k * 2 ^ 23 + m := Nat.add_left_cancel hk
  replace hkm : k ≠ 0 → 2 ^ 23 ≤ m := hkm
  replace hme : m ≠ 0 → e = -149 + k := hme
  have hm : m ≠ 0 := by
    rintro rfl
    have := hkm fun h0 => hx (by rw [hk, h0, Nat.zero_mul])
    omega
  refine ⟨m, e, hfin, hm, fun hnormal => ?_⟩
  have hlarge : 2 ^ 23 ≤ m := by
    by_cases h0 : k = 0
    · omega
    · exact hkm h0
  have hlog := (Nat.le_log2 hm).mpr hlarge
  have hexp := hme hm
  have hle : ¬ ((Nat.log2 m : Int) + e < -126) := by omega
  simp [XVal.tiny, hle]

/-- A finite operand that is not zero, and with `.ftz` not subnormal, is read as it stands. -/
theorem fpIn_finite {z : Bool} {x : Nat} (s : Bool) (hx : (if z then 0x00800000 else 1) ≤ x) (hlt : x < 0x7F800000) :
    ∃ m e, fpIn z .f32 (BitVec.ofNat 64 (signCode 32 s + x)).toNat = .fin s m e false ∧ m ≠ 0 := by
  have hcode : (BitVec.ofNat 64 (signCode 32 s + x)).toNat % 2 ^ elemBits .f32 = signCode 32 s + x := by
    cases s <;> simp [elemBits, signCode] <;> omega
  obtain ⟨m, e, hfin, hm, hnormal⟩ := finite_f32 s (x := x) (by cases z <;> simp at hx <;> omega)
  have hdec : decodeElem .f32 (signCode 32 s + x) = .fin s m e false :=
    (FloatFmt.ieee_finite (f := fmtF32) s (Nat.le_of_lt_succ hlt) (by decide)).trans hfin
  refine ⟨m, e, ?_, hm⟩
  unfold fpIn ftzIn
  rw [hcode, hdec]
  cases z with
  | false => rfl
  | true => rw [hnormal hx]; rfl

/-- An operand below zero: minus infinity, or a finite one. -/
def XVal.Negative (x : XVal) : Prop := x = .inf true ∨ ∃ m e, x = .fin true m e false ∧ m ≠ 0

theorem XVal.Negative.roots {x : XVal} (h : x.Negative) : x.sqrt = .nan ∧ x.rsqrt = .nan ∧ x.log2 = .nan := by
  obtain rfl | ⟨m, e, rfl, hm⟩ := h
  · exact ⟨rfl, rfl, rfl⟩
  · simp [sqrt, rsqrt, log2, hm]

theorem fpIn_negative {z : Bool} {x : Nat} (hx : (if z then 0x80800000 else 0x80000001) ≤ x) (hle : x ≤ 0xFF800000) :
    (fpIn z .f32 (BitVec.ofNat 64 x).toNat).Negative := by
  obtain ⟨y, rfl⟩ : ∃ y, x = signCode 32 true + y :=
    Nat.exists_eq_add_of_le (by cases z <;> simp [signCode] at hx ⊢ <;> omega)
  have hsign : signCode 32 true = 0x80000000 := rfl
  rw [hsign] at hx hle
  obtain hlt | rfl : y < 0x7F800000 ∨ y = 0x7F800000 := by omega
  · exact .inr (fpIn_finite true (by cases z <;> simp at hx ⊢ <;> omega) hlt)
  · exact .inl (fpIn_inf z true)

section
variable {z s u : Bool} {x : Nat} (rm : Rnd) (g : W32) (o : Op2) (c : Word)

/-- Division of a finite value other than zero by a zero and by an infinity. -/
theorem fdiv_finite (hx : (if z then 0x00800000 else 1) ≤ x) (hlt : x < 0x7F800000) :
    lateValue (.fdiv rm z o) (BitVec.ofNat 64 (signCode 32 s + x)) (BitVec.ofNat 64 (signCode 32 u)) c g =
        BitVec.ofNat 64 (signCode 32 (s != u) + 0x7F800000) ∧
      lateValue (.fdiv rm z o) (BitVec.ofNat 64 (signCode 32 s + x)) (BitVec.ofNat 64 (signCode 32 u + 0x7F800000)) c g =
        BitVec.ofNat 64 (signCode 32 (s != u)) := by
  obtain ⟨m, e, hin, hm⟩ := fpIn_finite s hx hlt
  unfold lateValue
  dsimp only
  rw [hin, fpIn_zero, fpIn_inf, ← fpOut_inf z _ rm g, ← fpOut_zero z _ rm g 0]
  simp [XVal.div, hm]

/-- Division of a zero by a zero, and of an infinity by an infinity. -/
theorem fdiv_invalid :
    lateValue (.fdiv rm z o) (BitVec.ofNat 64 (signCode 32 s)) (BitVec.ofNat 64 (signCode 32 u)) c g = 0x7FC00000 ∧
      lateValue (.fdiv rm z o) (BitVec.ofNat 64 (signCode 32 s + 0x7F800000)) (BitVec.ofNat 64 (signCode 32 u + 0x7F800000)) c g =
        0x7FC00000 := by
  unfold lateValue
  dsimp only
  rw [fpIn_zero, fpIn_zero, fpIn_inf, fpIn_inf]
  exact ⟨fpOut_nan z rm g, fpOut_nan z rm g⟩

end

/-- The values of the codes that the rows of one operand name (R132). -/
theorem fpIn_special (z : Bool) :
    fpIn z .f32 (BitVec.ofNat 64 0).toNat = .fin false 0 (-149) false ∧
      fpIn z .f32 (BitVec.ofNat 64 0x80000000).toNat = .fin true 0 (-149) false ∧
      fpIn z .f32 (BitVec.ofNat 64 0x7F800000).toNat = .inf false ∧
      fpIn z .f32 (BitVec.ofNat 64 0xFF800000).toNat = .inf true ∧
      fpIn z .f32 (BitVec.ofNat 64 0x3F800000).toNat = .fin false (2 ^ 23) (-23) false :=
  ⟨fpIn_zero z false, fpIn_zero z true, fpIn_inf z false, fpIn_inf z true, by cases z <;> rfl⟩

theorem XVal.log2_one : (XVal.fin false (2 ^ 23) (-23) false).log2 = .zero false := by decide

theorem mul_two_pow_31 {n : Nat} (h : n < 2) : n * 2 ^ 31 = signCode 32 (n == 1) := by
  obtain rfl | rfl : n = 0 ∨ n = 1 := by omega
  · rfl
  · rfl

theorem mod_two_mul_two_pow_31 {n k : Nat} (hn : n < 2) (hk : k < 2) :
    (n + k) % 2 * 2 ^ 31 = signCode 32 ((n == 1) != (k == 1)) := by
  rw [mul_two_pow_31 (Nat.mod_lt _ Nat.two_pos)]
  obtain rfl | rfl : n = 0 ∨ n = 1 := by omega
  all_goals obtain rfl | rfl : k = 0 ∨ k = 1 := by omega
  all_goals rfl

/-- Settles O5: an instruction that rounds ends with the late result of its table, one that chooses with a result whose code
is the only one of its value; each special case by what its operands read as. -/
theorem floatResults : Obligations.FloatResults := by
  unfold Obligations.FloatResults
  refine ⟨fun i s d v rm h => floatTable_computes h, fun rm z g o u c => ?_⟩
  obtain ⟨hzero, hminus, hinf, hminf, hone⟩ := fpIn_special z
  dsimp only
  refine ⟨fun x sx sy hx hlt hsx hsy => ?_, fun sx sy hsx hsy => ?_, ?_, ?_, fun x hx hle => ?_, ?_⟩
  · rw [mod_two_mul_two_pow_31 hsx hsy, mul_two_pow_31 hsx, mul_two_pow_31 hsy]
    exact fdiv_finite rm g o c hx hlt
  · rw [mul_two_pow_31 hsx, mul_two_pow_31 hsy]
    exact fdiv_invalid rm g o c
  · simp only [lateValue, hminus, XVal.sqrt, beq_self_eq_true, if_true]
    exact fpOut_zero z true rm g _
  · simp only [lateValue, hinf, XVal.sqrt, Bool.false_eq_true, if_false]
    exact fpOut_inf z false rm g
  · obtain ⟨hsqrt, hrsq, hlog⟩ := (fpIn_negative hx hle).roots
    unfold lateValue
    dsimp only
    rw [hsqrt, hrsq, hlog]
    exact ⟨fpOut_nan z rm g, fpOut_nan z rm g, fpOut_nan z rm g⟩
  · simp only [lateValue, hzero, hminus, hinf, hminf, hone, XVal.log2_one]
    exact ⟨fpOut_inf z false rm g, fpOut_inf z true rm g, fpOut_zero z false rm g 0, fpOut_zero z false rm g 0,
      fpOut_inf z false rm g, fpOut_inf z true rm g, fpOut_inf z true rm g, fpOut_zero z false rm g 0, fpOut_inf z false rm g⟩

end Sys2Proof.Machine
end
